-- ==== Sys2Proof/Word.lean ====
section
/-! DEFINITION. The plain data words of the GX-16: bytes, character strings, 16-bit counters. -/

namespace Sys2Proof

/-- One byte of a frame, a record or a character (file 11: a character is its ASCII code). -/
abbrev Byte := BitVec 8

/-- A run of characters or of bytes, first one first. -/
abbrev Text := List Byte

/-- A counter of the part: 16 bits, saturating (file 00, Conventions). -/
abbrev Counter := BitVec 16

end Sys2Proof
end

