-- ==== Sys2Proof/Syntax.lean ====
section
/-! DEFINITION. The commands the part takes: one constructor per row of spec/opcode_table.json, with the row's
operands. A gate frame's operands are the fields of its body as file 11 lays them out, unchecked. -/

namespace Sys2Proof

/-- A segment: A = 0, B = 1, C = 2, D = 3 (R185). -/
abbrev Seg := Fin 4

/-- A station address 1..31 of a segment, held as the address less 1. -/
abbrev Addr := Fin 31

/-- A lane 0..15. -/
abbrev LaneId := Fin 16

/-- A place of the context pool 0..23 (section 3.1). -/
abbrev CtxId := Fin 24

/-- An Ethernet address. -/
abbrev EthAddr := BitVec 48

/-- The four discrete inputs of a lane (chapter 2). -/
inductive Input where
  | entry | position | exit | barrierDown
deriving DecidableEq, Repr

/-- What every valid gate frame carries besides its body: the Ethernet source address (R184) and the request tag (R178). -/
structure GateHdr where
  src : EthAddr
  tag : BitVec 16
deriving DecidableEq, Repr

/-- What the pins of the part show at power-on: the node straps, the signal of each segment port, the level of each
lane input (high = true), and the uplink link. -/
structure Pins where
  node : Fin 16
  signal : Vector Bool 4
  levels : Vector (Vector Bool 4) 16
  linkUp : Bool
deriving DecidableEq, Repr

/-- The commands of the part, in the table's order. -/
inductive Instr where
  /-- R1: the bytes of a lane frame received in full on a segment port. -/
  | laneFrameReceived (seg : Seg) (bytes : List Byte)
  /-- R66: the READ_PLATE at the head of the segment's receive queue is taken. -/
  | readPlate (seg : Seg)
  | readTag (seg : Seg)
  | readUnit (seg : Seg)
  | readSeal (seg : Seg)
  | damageMarks (seg : Seg)
  | scanEnd (seg : Seg)
  | kioskEntry (seg : Seg)
  | stationHello (seg : Seg)
  | stationStatus (seg : Seg)
  | signAck (seg : Seg)
  | ticketAck (seg : Seg)
  | consoleTake (seg : Seg)
  | consoleRelease (seg : Seg)
  | consoleOutput (seg : Seg)
  | signalLoss (seg : Seg)
  | signalDetect (seg : Seg)
  | errorWindowExpiry (seg : Seg)
  | transmitEnd (seg : Seg)
  | stationSilenceExpiry (seg : Seg) (addr : Addr)
  /-- R24: the pin of a lane input now shows the level `high`. -/
  | inputLevelChange (lane : LaneId) (inp : Input) (high : Bool)
  | inputFilterExpiry (lane : LaneId) (inp : Input)
  | approachExpiry (ctx : CtxId)
  | identificationExpiry (ctx : CtxId)
  | rulingExpiry (ctx : CtxId)
  /-- R97: the fetch tag stands in the header's tag (R184); the body is the booking record (120 bytes). -/
  | bookingData (h : GateHdr) (record : List Byte)
  | bookingNone (h : GateHdr) (key : Text)
  | fetchTimeout (slot : Fin 16)
  | bookingRecall (h : GateHdr) (key : Text)
  | flush (h : GateHdr)
  | clockMinute
  | timeSet (h : GateHdr) (day minute : BitVec 16)
  /-- R162: `dest` 0xFF is no override (R190). -/
  | visitRuling (h : GateHdr) (visit : BitVec 16) (ruling dest : Byte)
  | arrivedAt (h : GateHdr) (visit : BitVec 16)
  | signAckExpiry (seg : Seg) (addr : Addr)
  /-- R176: `place` is the ticket's place in the printer's queue, 0 the oldest. -/
  | ticketAckExpiry (seg : Seg) (addr : Addr) (place : Fin 2)
  /-- R178: the bytes of the Ethernet frame, from the destination address to the frame check sequence. -/
  | gateFrameDiscarded (bytes : List Byte)
  | gateFrameUnknownKind (h : GateHdr) (kind : Byte)
  | heartbeat (h : GateHdr)
  | heartbeatExpiry
  | uplinkLinkDown
  | uplinkLinkUp
  | reportSent
  | tableWriteStationMap (h : GateHdr) (index : BitVec 16) (state idPresent : Byte) (identity : BitVec 32)
      (lane role zone weight forward : Byte)
  | tableWriteSlotWindows (h : GateHdr) (index day : BitVec 16) (state capacity overbook openShare : Byte)
  | tableWriteDestinations (h : GateHdr) (index : BitVec 16) (kind state capacity accepts alternate phrase : Byte)
  | tableWriteDefaults (h : GateHdr) (index : BitVec 16) (value : Byte)
  | tableWritePhrases (h : GateHdr) (index : BitVec 16) (chars : Vector Byte 20)
  | tableWriteDamageWeights (h : GateHdr) (index : BitVec 16) (weight : Byte)
  | tableWriteUncachedPrefixes (h : GateHdr) (index : BitVec 16) (present : Byte) (first last : Vector Byte 4)
  /-- R186: `value` is the record's first two bytes, `third` its third (read by an input entry alone). -/
  | tableWriteParameters (h : GateHdr) (index value : BitVec 16) (third : Byte)
  | tableWriteInputEntry (h : GateHdr) (lane : LaneId) (inp : Input) (enable polarity filter : Byte)
  | tableWriteTransparency (h : GateHdr) (value : BitVec 16)
  /-- R185: a TABLE_WRITE by its table number, index and record bytes. -/
  | tableWrite (h : GateHdr) (table : Byte) (index : BitVec 16) (record : List Byte)
  | tableRead (h : GateHdr) (table : Byte) (index : BitVec 16)
  | counterRead (h : GateHdr) (group clear : Byte)
  | laneCommandOpen (h : GateHdr) (lane : Byte)
  | laneCommandClose (h : GateHdr) (lane : Byte)
  | laneCommandReset (h : GateHdr) (lane : Byte)
  | outputSet (h : GateHdr) (lane output source value : Byte)
  | resetDynamic (h : GateHdr)
  | resetAll (h : GateHdr)
  /-- R38, R188: the power-on reset with what the pins show; `held` says the reset input is still held. -/
  | powerOn (pins : Pins) (held : Bool)
  | laneCommandBadValue (h : GateHdr) (command : Byte)
  | partCommandBadValue (h : GateHdr) (command : Byte)
deriving DecidableEq, Repr

end Sys2Proof
end

