-- ==== Sys2Proof/Decode.lean ====
section
/-! DEFINITION. The commands that a word spells by the bits of spec/opcode_table.json. No row of this table gives bits
(every row's "fields" is empty and none has "fixed"), so no word spells a command. The bytes of lane frames and of gate
frames are read in Machine/Operands.lean and Machine/Wire.lean. -/

namespace Sys2Proof

/-- The command that a word of `nbits` bits spells: none, for the table gives no row any bits. -/
def decodeTableWord (_nbits _w : Nat) : Option Instr := none

end Sys2Proof
end

