-- ==== Sys2Proof/Config.lean ====
section
/-! DEFINITION. The sizes the manual fixes, and the values it leaves open (opaque: nothing in Lean can see them). -/

namespace Sys2Proof.Config

/-- R2: places of a receive queue. -/
def rxQueueSize : Nat := 16
/-- R7: places of a transmit queue. -/
def txQueueSize : Nat := 32
/-- R180: places of the report queue. -/
def reportQueueSize : Nat := 64
/-- R180: the occupancy from which a class B report is dropped. -/
def classBLimit : Nat := 56
/-- R179: places of the response list. -/
def responseListSize : Nat := 8
/-- R40: contexts a lane may hold. -/
def laneContexts : Nat := 2
/-- R41: the largest pending arrival count. -/
def maxPending : Nat := 3
/-- R65: candidates of a consensus field. -/
def maxCandidates : Nat := 4
/-- R65: the largest score. -/
def maxScore : Nat := 1023
/-- R108: records of the recall table. -/
def recallTableSize : Nat := 16
/-- R136: raw marks of a position. -/
def maxRawMarks : Nat := 24
/-- R85: prior damage marks of a record. -/
def maxPriorMarks : Nat := 12
/-- R158: entries of the transit list. -/
def transitListSize : Nat := 256
/-- R155: passings to an alternate that one chain makes at most. -/
def chainSteps : Nat := 4
/-- R175: tickets a printer's queue holds. -/
def ticketQueueSize : Nat := 2

/-- FREE VALUE (log entry 5; safe). The character value of a byte that is neither a digit nor a capital letter. File 00
gives a value to digits and letters alone, and a KIOSK_ENTRY may carry a space (R1), so a key may hold one. -/
opaque otherCharValue : Byte → Nat

/-- FREE VALUE (log entry 24; safe). The bytes that a body or a record of file 11 holds where no rule says what they
are: `place` names the field, `i` counts its bytes. -/
opaque unstatedByte (place i : Nat) : Byte

end Sys2Proof.Config
end

