-- ==== Sys2Proof/Machine/Parts.lean ====
section
/-! DEFINITION. The records the part's state is made of, block by block, with the value each takes at power-on. -/

namespace Sys2Proof.Machine

/-- A timer: stopped, or running with the limit it was started with, in the timer's own unit (file 00, Timers). A write
of the limit leaves a running timer as it is. -/
abbrev Timer := Option Nat

/-- A place of the station map: 31 × segment + address − 1 (R185). -/
abbrev StationIx := Fin 124

/-- One value for each of the two unit positions. -/
structure PerPos (α : Type) where
  fwd : α
  aft : α
deriving DecidableEq, Repr

inductive Position where
  | fwd | aft
deriving DecidableEq, Repr

/-- A minute field of a context that has been written: UNSET, or an absolute minute (section 3.1, R116). -/
inductive Stamp where
  | unset
  | at (minute : Nat)
deriving DecidableEq, Repr

/-! ### Damage marks and seals (chapters 5 and 7) -/

/-- The face of a raw mark, in lane coordinates (section 7.2). -/
inductive LaneFace where
  | laneLeft | laneRight | top | frontEnd | rearEnd
deriving DecidableEq, Repr

/-- The face of a mark in container coordinates (section 7.3). -/
inductive Face where
  | left | right | roof | door | front
deriving DecidableEq, Repr

inductive DamageKind where
  | dent | hole | crease | bulge | rust
deriving DecidableEq, Repr

structure RawMark where
  face : LaneFace
  column : Nat
  row : Nat
  kind : DamageKind
  severity : Nat
deriving DecidableEq, Repr

structure Mark where
  face : Face
  column : Nat
  row : Nat
  kind : DamageKind
  severity : Nat
deriving DecidableEq, Repr

inductive SealResult where
  | ok | near | missing | mismatch | unexpected
deriving DecidableEq, Repr

/-- A seal result with the value read, or none for an unread field (R134). -/
structure SealCheck where
  result : SealResult
  value : Option Text
deriving DecidableEq, Repr

inductive DamageResult where
  | none | minor | recorded | inspect
deriving DecidableEq, Repr

inductive LengthClass where
  | l20 | l40 | l45
deriving DecidableEq, Repr

inductive DoorEnd where
  | doorsAft | doorsFore | unknown
deriving DecidableEq, Repr

/-- The layout of a context: units seen, and length class and door end of each position it covers (R81). -/
structure Layout where
  units : Nat
  fwd : Option (LengthClass × DoorEnd)
  aft : Option (LengthClass × DoorEnd)
deriving DecidableEq, Repr

/-! ### Lane frames (chapters 1 and 11) -/

/-- What a lane frame that passed the FRAME CHECK says (R1, R189). A KEEP of CONSOLE_OUTPUT is `none`. The sequence of a SIGN_ACK
or TICKET_ACK is the whole byte received (the model's choice: log entry 54). -/
inductive LaneMsg where
  | readPlate (confidence : Nat) (value : Text)
  | readTag (confidence : Nat) (value : Text)
  | readUnit (pos : Position) (confidence : Nat) (code sizeType : Text)
  | readSeal (pos : Position) (confidence : Nat) (value : Text)
  | damageMarks (pos : Position) (marks : List RawMark)
  | scanEnd (layout : Layout)
  | kioskEntry (reference : Text)
  | hello (identity : BitVec 32)
  | status
  | signAck (sequence : Nat)
  | ticketAck (sequence : Nat)
  | consoleTake
  | consoleRelease
  | consoleOutput (barrier go stop : Option Bool)
deriving DecidableEq, Repr

/-- The kinds a station may send to the part (chapter 1). -/
inductive LaneKind where
  | readPlate | readTag | readUnit | readSeal | damageMarks | scanEnd | kioskEntry
  | hello | status | signAck | ticketAck | consoleTake | consoleRelease | consoleOutput
deriving DecidableEq, Repr

/-- A frame in a receive queue: its bytes from destination address to payload as received (R12), and what they say. -/
structure RxFrame where
  src : Addr
  seq : BitVec 4
  msg : LaneMsg
  bytes : List Byte
deriving DecidableEq, Repr

/-- The two kinds of frame the part sends to a station (section 1.3). -/
inductive TxKind where
  | signPage | ticket
deriving DecidableEq, Repr

/-- A frame in a transmit queue (R7). -/
structure TxFrame where
  dst : Addr
  kind : TxKind
  seq : BitVec 4
  payload : List Byte
deriving DecidableEq, Repr

inductive SegState where
  | down | up | impaired
deriving DecidableEq, Repr

/-- R9. -/
structure SegCounters where
  crcErrors : Counter := 0
  formatErrors : Counter := 0
  foreignFrames : Counter := 0
  overruns : Counter := 0
  duplicates : Counter := 0
  sequenceErrors : Counter := 0
  unmappedDropped : Counter := 0
  roleRefusals : Counter := 0
  transmitDrops : Counter := 0
deriving DecidableEq, Repr

/-- One segment port (sections 1.1 to 1.4). -/
structure SegPort where
  signal : Bool
  state : SegState
  windowCount : Counter
  windowTimer : Bool
  rxQueue : List RxFrame
  txQueue : List TxFrame
  seqRecord : Vector (Option (BitVec 4)) 31
  txSeq : Vector (BitVec 4) 31
  counters : SegCounters
deriving DecidableEq, Repr

/-- R21: a segment port after power-on, placed from its signal. -/
def SegPort.initial (signal : Bool) : SegPort where
  signal := signal
  state := if signal then .up else .down
  windowCount := 0
  windowTimer := signal
  rxQueue := []
  txQueue := []
  seqRecord := Vector.replicate 31 none
  txSeq := Vector.replicate 31 0
  counters := {}

/-! ### Station map, sign and ticket channels (chapters 1 and 9) -/

inductive MapState where
  | empty | learn | frozen
deriving DecidableEq, Repr

inductive Role where
  | plate | tag | unit | seal | damage | kiosk | sign | printer | console
deriving DecidableEq, Repr

inductive Zone where
  | approach | position
deriving DecidableEq, Repr

/-- A composed page: four lines of 20 characters (section 9.2). -/
structure Page where
  line1 : Text
  line2 : Text
  line3 : Text
  line4 : Text
deriving DecidableEq, Repr

/-- A page sent: the sequence the port gave each half, or none for a half it refused, and the half's mark (R172, R173). -/
structure InFlight where
  page : Page
  upperSeq : Option (BitVec 4)
  lowerSeq : Option (BitVec 4)
  upperMarked : Bool
  lowerMarked : Bool
deriving DecidableEq, Repr

/-- The sign channel of a SIGN entry (section 9.3). -/
structure SignChannel where
  fault : Bool
  inFlight : Option InFlight
  waiting : Option Page
  lastAcked : Option Page
  timer : Timer
deriving DecidableEq, Repr

/-- A ticket in a printer's queue (R175). -/
structure Ticket where
  visit : BitVec 16
  seq : Option (BitVec 4)
  timer : Timer
deriving DecidableEq, Repr

/-- One entry of the station map (section 1.5), with its sign channel or ticket queue. -/
structure Station where
  state : MapState := .empty
  identity : Option (BitVec 32) := none
  mismatched : Bool := false
  lane : LaneId := 0
  role : Role := .plate
  zone : Zone := .approach
  weight : Nat := 0
  forward : Bool := false
  silent : Bool := true
  silenceTimer : Timer := none
  mismatchCount : Counter := 0
  channel : Option SignChannel := none
  tickets : List Ticket := []
deriving DecidableEq, Repr

/-! ### Lanes (chapter 2) -/

inductive LaneMode where
  | closed | open | closing | manual | suspended
deriving DecidableEq, Repr

/-- One lane input (section 2.1). `pin` is the level of the pin, high or low; `level` is the read level, ACTIVE or not. -/
structure LaneInput where
  pin : Bool
  enabled : Bool := false
  activeLow : Bool := false
  filter : Nat := 0
  level : Bool := false
  timer : Timer := none
deriving DecidableEq, Repr

inductive Output where
  | barrier | go | stop
deriving DecidableEq, Repr

/-- One lane output (section 2.2): its source, remote value and console value. -/
structure LaneOutput where
  remote : Bool := false
  remoteValue : Bool := false
  consoleValue : Bool := false
deriving DecidableEq, Repr

/-- R37, R63, R84. -/
structure LaneCounters where
  refusedEntries : Counter := 0
  unauthorisedPasses : Counter := 0
  manualPasses : Counter := 0
  consoleRefusals : Counter := 0
  orphanReads : Counter := 0
  arrivalsLost : Counter := 0
  lateFrames : Counter := 0
  unitFormErrors : Counter := 0
deriving DecidableEq, Repr

/-- One lane: its inputs, outputs, mode, contexts in order of allocation (R40), front context and pending arrivals. -/
structure LaneState where
  mode : LaneMode := .closed
  holder : Option StationIx := none
  inputs : Vector LaneInput 4
  exitOnEdge : Bool := false
  barrier : LaneOutput := {}
  go : LaneOutput := {}
  stop : LaneOutput := {}
  ctxs : List CtxId := []
  front : Option CtxId := none
  pendingArrivals : Nat := 0
  counters : LaneCounters := {}
deriving DecidableEq, Repr

/-- R38: a lane after power-on, its pins at the levels given. -/
def LaneState.initial (levels : Vector Bool 4) : LaneState where
  inputs := #v[{ pin := levels[0] }, { pin := levels[1] }, { pin := levels[2] }, { pin := levels[3] }]

/-! ### Booking records (chapter 5) -/

inductive BookingKind where
  | exportFull | emptyReturn | importFull | emptyPickup
deriving DecidableEq, Repr

inductive Progress where
  | booked | arrived | gatedIn | cancelled
deriving DecidableEq, Repr

/-- A booking record (R85). -/
structure Record where
  key : Text
  kind : BookingKind
  slot : Option (BitVec 16 × Nat)
  operator : Text
  length : LengthClass
  seals : List Text
  prior : List Mark
  customsHold : Bool
  lineHold : Bool
  hint : Option (Fin 64)
  progress : Progress
  remaining : Nat
  recorded : Option SealCheck
deriving DecidableEq, Repr

/-! ### Visit contexts (chapters 3 and 4) -/

inductive FieldState where
  | open | settled | weak | unresolved | absent | contested
deriving DecidableEq, Repr

structure Candidate where
  value : Text
  score : Nat
  reads : Nat
  sizeType : Option Text
deriving DecidableEq, Repr

/-- A consensus field (R65). The candidates' values are pairwise different, so the latched value names the latched
candidate. -/
structure ConsField where
  state : FieldState := .open
  candidates : List Candidate := []
  latched : Option Text := none
  discards : Nat := 0
deriving DecidableEq, Repr

/-- The six consensus fields of a context (R65). -/
inductive FieldName where
  | plate | tag | unitFwd | unitAft | sealFwd | sealAft
deriving DecidableEq, Repr

inductive CtxState where
  | free | arriving | identifying | lookup | referred | decided | releasing | closing
deriving DecidableEq, Repr

inductive Outcome where
  | completed | withdrawn | aborted | abortedManual
deriving DecidableEq, Repr

inductive LinkSource where
  | unitFwd | unitAft | kiosk
deriving DecidableEq, Repr

inductive LinkState where
  | pending | resolved | noneFound | failed
deriving DecidableEq, Repr

/-- What a booking link names: a cache way, or a place of the private store. -/
inductive Target where
  | way (set : Fin 1024) (way : Fin 2)
  | copy (place : Fin 48)
deriving DecidableEq, Repr

/-- A booking link (R52, R89, R103). -/
structure Link where
  key : Text
  source : LinkSource
  target : Option Target
  state : LinkState
  holdsUnit : Bool
deriving DecidableEq, Repr

inductive SlotResult where
  | unchecked | none | onTime | reslotted | walkIn | full | missed | closed
deriving DecidableEq, Repr

/-- A reservation by day and window, with its lost mark (R121, R126). -/
structure Reservation where
  day : BitVec 16
  window : Nat
  lost : Bool
deriving DecidableEq, Repr

inductive Decision where
  | admitted | inspect | turnOut | refer
deriving DecidableEq, Repr

/-- The reason set (R150, R190). -/
structure Reasons where
  identity : Bool := false
  bookingUnavailable : Bool := false
  noBooking : Bool := false
  hold : Bool := false
  mismatch : Bool := false
  exhausted : Bool := false
  slot : Bool := false
  sealFail : Bool := false
  damage : Bool := false
  noDestination : Bool := false
  noRuling : Bool := false
deriving DecidableEq, Repr

/-- The flags of a context (section 3.1), in the order of its table. -/
structure CtxFlags where
  provisional : Bool := false
  weakIdentity : Bool := false
  contestedLate : Bool := false
  noTicket : Bool := false
  orientationAssumed : Bool := false
  lengthFromBooking : Bool := false
  damageListFull : Bool := false
  lockedUpdateDiscarded : Bool := false
  overrideAdmission : Bool := false
deriving DecidableEq, Repr

/-- The raw damage marks of one position (R136, R137). -/
structure RawList where
  marks : List RawMark := []
  overflow : Bool := false
deriving DecidableEq, Repr

/-- The damage part of a decision step for one position (R142, R145, R146), with the marks appended at the commit; its
values by default are those of a position that is not graded. -/
structure DamageCheck where
  result : DamageResult := .none
  grade : Nat := 0
  toAppend : List Mark := []
  appended : Nat := 0
deriving DecidableEq, Repr

/-- A visit context (section 3.1). The value of every field but `state` in a FREE context is not seen from outside. -/
structure Ctx where
  state : CtxState := .free
  visit : BitVec 16 := 0
  lane : LaneId := 0
  outcome : Option Outcome := none
  arrival : Stamp := .unset
  position : Option Stamp := none
  decisionMinute : Option Stamp := none
  exit : Option Stamp := none
  plate : ConsField := {}
  tag : ConsField := {}
  unitFwd : ConsField := {}
  unitAft : ConsField := {}
  sealFwd : ConsField := {}
  sealAft : ConsField := {}
  kiosk : Option Text := none
  layout : Option Layout := none
  layoutConflict : Bool := false
  raw : PerPos RawList := ⟨{}, {}⟩
  links : List Link := []
  sealChecks : PerPos (Option SealCheck) := ⟨none, none⟩
  damage : PerPos (Option DamageCheck) := ⟨none, none⟩
  slotResult : Option SlotResult := none
  reservation : Option Reservation := none
  reserved : Option (BitVec 16 × Nat) := none
  decision : Option Decision := none
  reasons : Reasons := {}
  destination : Option (Fin 64) := none
  inTransit : Bool := false
  flags : CtxFlags := {}
  approachTimer : Timer := none
  identTimer : Timer := none
  rulingTimer : Timer := none
  noticePending : Bool := false
deriving DecidableEq, Repr

/-! ### Booking cache (chapter 5) -/

inductive EntryState where
  | invalid | filling | valid
deriving DecidableEq, Repr

inductive ReportOwed where
  | none | update | writeback
deriving DecidableEq, Repr

inductive RecallMark where
  | none | refill | pending
deriving DecidableEq, Repr

/-- One way of a set (R87). -/
structure Entry where
  state : EntryState := .invalid
  key : Option Text := none
  record : Option Record := none
  dirty : Bool := false
  owed : ReportOwed := .none
  pins : Nat := 0
  held : Nat := 0
  mark : RecallMark := .none
deriving DecidableEq, Repr

/-- A set: its two ways and its age marker (R87, R88). -/
structure CacheSet where
  way0 : Entry := {}
  way1 : Entry := {}
  age : Fin 2 := 0
deriving DecidableEq, Repr

inductive FetchPhase where
  | castoutOwed | fetchOwed | sent
deriving DecidableEq, Repr

/-- A fetch held in a slot of the miss tracker (R94). -/
structure Fetch where
  key : Text
  target : Target
  tag : BitVec 16
  phase : FetchPhase
  castout : Option Record
  timer : Timer
deriving DecidableEq, Repr

/-- A lookup by the link it is made for: the context and the link's place in its list. -/
structure LinkRef where
  ctx : CtxId
  index : Nat
deriving DecidableEq, Repr

/-- A private copy (R102), with its recall mark (R112). -/
structure PrivateCopy where
  key : Text
  record : Option Record
  held : Nat
  link : Option LinkRef
  updateOwed : Bool
  recalled : Bool
deriving DecidableEq, Repr

/-- A record of the recall table (R108, R112): `entryPart` says that the part on a cache entry is still to be done,
`done` that the recall has completed and its RECALL_DONE is not yet accepted. -/
structure RecallRec where
  key : Text
  released : Bool
  entryPart : Bool
  done : Bool
deriving DecidableEq, Repr

/-- A report the cache owes (R96). -/
inductive Owed where
  | castout (slot : Fin 16)
  | fetch (slot : Fin 16)
  | writeback (set : Fin 1024) (way : Fin 2)
  | update (set : Fin 1024) (way : Fin 2)
  | copyUpdate (place : Fin 48)
  | recallDone (key : Text) (released : Bool)
  | flushDone
deriving DecidableEq, Repr

/-- R113. -/
structure CacheCounters where
  hits : Counter := 0
  misses : Counter := 0
  fills : Counter := 0
  noneAnswers : Counter := 0
  fetchTimeouts : Counter := 0
  lateFills : Counter := 0
  badFills : Counter := 0
  castouts : Counter := 0
  castoutsLost : Counter := 0
  privateCopies : Counter := 0
  lockedDiscards : Counter := 0
  pickupOverruns : Counter := 0
  updatesLost : Counter := 0
  recalls : Counter := 0
  recallsDenied : Counter := 0
deriving DecidableEq, Repr

/-- A range of UNCACHED_PREFIXES (R93). -/
structure KeyRange where
  first : Vector Byte 4
  last : Vector Byte 4
deriving DecidableEq, Repr

/-- The booking cache (chapter 5). -/
structure Cache where
  sets : Vector CacheSet 1024
  slots : Vector (Option Fetch) 16
  waitList : List LinkRef
  copies : Vector (Option PrivateCopy) 48
  recalls : List RecallRec
  sendOrder : List Owed
  uncached : Vector (Option KeyRange) 2
  counters : CacheCounters
deriving DecidableEq, Repr

/-- R114: the cache after power-on. -/
def Cache.initial : Cache where
  sets := Vector.replicate 1024 {}
  slots := Vector.replicate 16 none
  waitList := []
  copies := Vector.replicate 48 none
  recalls := []
  sendOrder := []
  uncached := Vector.replicate 2 none
  counters := {}

/-! ### Slot unit (chapter 6) -/

/-- A RUNNING terminal clock (R115). -/
structure Clock where
  day : BitVec 16
  minute : Nat
  seconds : Nat
deriving DecidableEq, Repr

/-- A window record (R118) but for its day and window number, which its place gives. -/
structure Window where
  isOpen : Bool := false
  capacity : Nat := 0
  overbook : Nat := 0
  openShare : Nat := 0
  admitted : Nat := 0
  reserved : Nat := 0
  overrides : Nat := 0
deriving DecidableEq, Repr

/-- The 96 windows of one day of the table. While the clock is UNSET the day is UNSET (R118). -/
structure DayTable where
  day : Option (BitVec 16)
  windows : Vector Window 96
deriving DecidableEq, Repr

/-- R130. -/
structure SlotCounters where
  commitsLost : Counter := 0
  overridesLost : Counter := 0
  refusals : Counter := 0
  clockSets : Counter := 0
deriving DecidableEq, Repr

/-- The slot unit: the terminal clock (`none` = UNSET) and the window table (chapter 6). -/
structure SlotUnit where
  clock : Option Clock
  yesterday : DayTable
  today : DayTable
  tomorrow : DayTable
  counters : SlotCounters
deriving DecidableEq, Repr

/-- R121: the records made new for a day. -/
def DayTable.fresh (day : Option (BitVec 16)) : DayTable := ⟨day, Vector.replicate 96 {}⟩

/-- R130: the slot unit after power-on. -/
def SlotUnit.initial : SlotUnit where
  clock := none
  yesterday := DayTable.fresh none
  today := DayTable.fresh none
  tomorrow := DayTable.fresh none
  counters := {}

/-! ### Check unit (chapter 7) -/

/-- R148. -/
structure CheckCounters where
  sealNear : Counter := 0
  sealUnexpected : Counter := 0
  sealMissing : Counter := 0
  sealMismatch : Counter := 0
  marksIgnored : Counter := 0
  overflows : Counter := 0
  clamps : Counter := 0
  inspections : Counter := 0
deriving DecidableEq, Repr

structure CheckUnit where
  weights : Vector Nat 5
  counters : CheckCounters
deriving DecidableEq, Repr

/-- R144, R147, R148. -/
def CheckUnit.initial : CheckUnit := ⟨#v[2, 6, 3, 2, 1], {}⟩

/-! ### Destination unit (chapter 8) -/

inductive DestKind where
  | yard | inspection | trouble
deriving DecidableEq, Repr

/-- A destination record (R153). -/
structure Dest where
  kind : DestKind := .yard
  isOpen : Bool := false
  capacity : Nat := 0
  inTransit : Nat := 0
  acceptsExportFull : Bool := false
  acceptsEmptyReturn : Bool := false
  acceptsImportFull : Bool := false
  acceptsEmptyPickup : Bool := false
  alternate : Option (Fin 64) := none
  phrase : Nat := 0
deriving DecidableEq, Repr

/-- An entry of the transit list (R158); `expiry` none is unset. -/
structure TransitEntry where
  visit : BitVec 16
  dest : Fin 64
  expiry : Option Nat
deriving DecidableEq, Repr

/-- R165. -/
structure DestCounters where
  transitExpired : Counter := 0
  transitDisplaced : Counter := 0
  arrivalsUnknown : Counter := 0
  tokensWithout : Counter := 0
  provisionals : Counter := 0
  noDestination : Counter := 0
  rulingsApplied : Counter := 0
  rulingsDenied : Counter := 0
  noRulingTurnOuts : Counter := 0
deriving DecidableEq, Repr

structure DestUnit where
  dests : Vector Dest 64
  defaults : Vector (Fin 64) 6
  transit : List TransitEntry
  counters : DestCounters
deriving DecidableEq, Repr

/-- R166. -/
def DestUnit.initial : DestUnit := ⟨Vector.replicate 64 {}, Vector.replicate 6 0, [], {}⟩

/-! ### Signs and tickets (chapter 9) -/

/-- R177. -/
structure SignCounters where
  signFaults : Counter := 0
  straySignAcks : Counter := 0
  ticketsRefused : Counter := 0
  ticketFaults : Counter := 0
  strayTicketAcks : Counter := 0
deriving DecidableEq, Repr

structure SignUnit where
  phrases : Vector (Vector Byte 20) 256
  counters : SignCounters
deriving DecidableEq, Repr

/-- R177: every phrase is 20 spaces. -/
def SignUnit.initial : SignUnit := ⟨Vector.replicate 256 (Vector.replicate 20 0x20), {}⟩

/-! ### Reports and the uplink port (chapter 10) -/

inductive StationCause where
  | identityLearned | identityMismatch | identityRestored | stationActive | stationSilent | signFault | signRestored
deriving DecidableEq, Repr

/-- What changed a lane's mode (R37). -/
inductive ModeCause where
  | command | consoleTake | consoleRelease | consoleSilent | consoleRewritten | contextsDrained | reset
deriving DecidableEq, Repr

inductive HelloCause where
  | powerOn | resetAll | resetDynamic | linkUp
deriving DecidableEq, Repr

inductive Status where
  | ok | badKind | badTable | badIndex | badValue | denied | unknownVisit
deriving DecidableEq, Repr

/-- The detail of a RESPONSE: a context state or NO_DESTINATION for a VISIT_RULING answered DENIED (R162), else none. -/
inductive Detail where
  | none
  | state (s : CtxState)
  | noDestination
deriving DecidableEq, Repr

/-- What a visit report carries (R62). The damage result and grade of a position are absent before the decision step
(section 3.1); the marks appended are 0 until a commit appends some (log entry 36). -/
structure VisitReport where
  visit : BitVec 16
  lane : LaneId
  outcome : Option Outcome
  arrival : Stamp
  position : Option Stamp
  decisionMinute : Option Stamp
  exit : Option Stamp
  plate : FieldState × Option Text
  tag : FieldState × Option Text
  unitFwd : FieldState × Option Text
  unitAft : FieldState × Option Text
  sealFwd : FieldState × Option Text
  sealAft : FieldState × Option Text
  sizeFwd : Option Text
  sizeAft : Option Text
  kiosk : Option Text
  layout : Option Layout
  layoutConflict : Bool
  links : List (Text × LinkSource × LinkState)
  sealFwdResult : Option SealResult
  sealAftResult : Option SealResult
  damageFwd : Option (DamageResult × Nat)
  damageAft : Option (DamageResult × Nat)
  appendedFwd : Nat
  appendedAft : Nat
  slotResult : Option SlotResult
  reserved : Option (BitVec 16 × Nat)
  decision : Option Decision
  reasons : Reasons
  destination : Option (Fin 64)
  flags : CtxFlags
deriving DecidableEq, Repr

/-- A lane record of CONTEXTS (R37, R185). -/
structure LaneRecord where
  mode : LaneMode
  holder : Option StationIx
  levels : List Bool
  outputs : List (Bool × Bool)
  pendingArrivals : Nat
deriving DecidableEq, Repr

/-- The record a TABLE_READ returns (R185). -/
inductive TableRecord where
  | stationMap (e : Station)
  | slotWindow (day : Option (BitVec 16)) (w : Window) (max openLimit : Nat)
  | destination (d : Dest)
  | number (n : Nat)
  | phrase (chars : Vector Byte 20)
  | keyRange (r : Option KeyRange)
  | parameter (value : Nat)
  | inputEntry (enabled activeLow : Bool) (filter : Nat)
  | clock (c : Option Clock)
  | context (c : Ctx)
  | lane (r : LaneRecord)
  | cacheEntry (e : Entry) (age : Fin 2)
  | transit (e : Option TransitEntry)
deriving DecidableEq, Repr

/-- The body of a RESPONSE after its clamped mark (R190). -/
inductive Body where
  | none
  | record (r : TableRecord)
  | counters (cs : List Counter)
deriving DecidableEq, Repr

structure Response where
  tag : BitVec 16
  kind : Byte
  status : Status
  detail : Detail
  clamped : Bool
  body : Body
deriving DecidableEq, Repr

inductive WritePolicy where
  | through | back | adaptive
deriving DecidableEq, Repr

/-- Every frame the part queues for the gate server (R180). -/
inductive Report where
  | bookingFetch (key : Text) (tag : BitVec 16)
  | bookingWriteback (r : Record)
  | bookingUpdate (r : Record)
  | visitReport (v : VisitReport)
  | referNotice (v : VisitReport)
  | recallDone (key : Text) (released : Bool)
  | flushDone
  | partHello (node : Fin 16) (cause : HelloCause) (clock : Option Clock) (policy : WritePolicy) (provisional : Bool)
  | response (r : Response)
  | passFrame (seg : Seg) (addr : Addr) (bytes : List Byte)
  | orphanRead (seg : Seg) (addr : Addr) (lane : LaneId) (kind : LaneKind) (value : Text) (front : Option CtxState)
  | stationEvent (ix : StationIx) (cause : StationCause) (identity received : Option (BitVec 32))
  | segmentEvent (seg : Seg) (left : Option SegState) (entered : SegState) (count : Counter)
  | modeChange (lane : LaneId) (left entered : LaneMode) (cause : ModeCause) (holder : Option StationIx)
  | unauthorisedPass (lane : LaneId) (mode : LaneMode) (front : Option CtxState)
  | transitExpired (e : TransitEntry)
  | transitDisplaced (e : TransitEntry)
deriving DecidableEq, Repr

/-- A report in the queue; `addr` is its Ethernet address where that is not the learned one at sending (R188). -/
structure QueuedReport where
  report : Report
  addr : Option EthAddr
deriving DecidableEq, Repr

/-- A place of the class A wait order (R181). -/
inductive Waiter where
  | visitReport (ctx : CtxId)
  | referNotice (ctx : CtxId)
  | cache
  | uplink
deriving DecidableEq, Repr

/-- R187, group 25. -/
structure UplinkCounters where
  classBDrops : Counter := 0
  malformed : Counter := 0
  foreign : Counter := 0
  unknownKinds : Counter := 0
  requestsDropped : Counter := 0
  serverLosses : Counter := 0
deriving DecidableEq, Repr

/-- The uplink port (chapter 10). `owed` holds its responses and PART_HELLOs not yet accepted, in the order made. -/
structure Uplink where
  node : Fin 16
  linkUp : Bool
  queue : List QueuedReport
  waiters : List Waiter
  owed : List Report
  serverPresent : Bool
  heartbeatTimer : Timer
  nextTag : BitVec 16
  server : Option EthAddr
  counters : UplinkCounters
deriving DecidableEq, Repr

/-- R188: the uplink port after power-on, before any report is queued. -/
def Uplink.initial (node : Fin 16) (linkUp : Bool) : Uplink where
  node := node
  linkUp := linkUp
  queue := []
  waiters := []
  owed := []
  serverPresent := false
  heartbeatTimer := none
  nextTag := 0
  server := none
  counters := {}

/-- The plain values of PARAMETERS (R186), at their defaults. -/
structure Params where
  identWindow : Nat := 60
  approachLimit : Nat := 180
  fetchTimeout : Nat := 150
  rulingDeadline : Nat := 90
  signAck : Nat := 40
  ticketAck : Nat := 100
  silenceLimit : Nat := 10
  heartbeat : Nat := 5
  transitTimeout : Nat := 45
  writePolicy : WritePolicy := .through
  adaptiveThreshold : Nat := 16
  offlineProvisional : Bool := false
  provisionalDest : Fin 64 := 0
  passUnmapped : Bool := false
  transparency : Byte := 0x7E
  earlyTolerance : Nat := 30
  lateTolerance : Nat := 30
  recordThreshold : Nat := 8
  inspectThreshold : Nat := 40
  segThreshold : Vector Nat 4 := Vector.replicate 4 0
  plateT : Nat := 150
  plateM : Nat := 60
  tagT : Nat := 100
  tagM : Nat := 40
  unitT : Nat := 180
  unitM : Nat := 60
  sealT : Nat := 120
  sealM : Nat := 50
deriving DecidableEq, Repr

end Sys2Proof.Machine
end

