-- ==== Sys2Proof/Machine/State.lean ====
section
/-! DEFINITION. The state of the GX-16 as plain data, its state after reset, and the reasons a step can stop. -/

namespace Sys2Proof.Machine

/-- Everything the manual gives the part, block by block, and the commands that wait to be taken. -/
structure State where
  ports : Vector SegPort 4
  stations : Vector Station 124
  lanes : Vector LaneState 16
  pool : Vector Ctx 24
  visitCounter : BitVec 16
  lastServed : LaneId
  cache : Cache
  slot : SlotUnit
  check : CheckUnit
  dest : DestUnit
  signs : SignUnit
  uplink : Uplink
  params : Params
  resetHeld : Bool
  pending : List Instr
deriving DecidableEq, Repr

/-- The faults of the machine: the manual names none (no event halts the part), so there is none. -/
inductive Fault where
deriving DecidableEq, Repr

/-- Why a command has no meaning. -/
inductive Refusal where
  /-- Raised by exec's arm of a command that has no meaning yet; safe (the run stops). No arm raises it. -/
  | notModelled (mnemonic : String)
deriving DecidableEq, Repr

/-- R188: what the report queue holds when a power-on reset has ended: the PART_HELLO of cause POWER_ON, then the
SEGMENT_EVENTs of R21, one per segment, in the order A to D by the model's choice (log entry 39). -/
def powerOnQueue (pins : Pins) : List QueuedReport :=
  let state (b : Bool) : SegState := if b then .up else .down
  [⟨.partHello pins.node .powerOn none .through false, none⟩,
   ⟨.segmentEvent 0 none (state pins.signal[0]) 0, none⟩,
   ⟨.segmentEvent 1 none (state pins.signal[1]) 0, none⟩,
   ⟨.segmentEvent 2 none (state pins.signal[2]) 0, none⟩,
   ⟨.segmentEvent 3 none (state pins.signal[3]) 0, none⟩]

/-- What the pins show in State.reset (DESIGN CHOICE, log entry 1, unsafe: the manual gives the pins no value). -/
def resetPins : Pins where
  node := 0
  signal := Vector.replicate 4 false
  levels := Vector.replicate 16 (Vector.replicate 4 false)
  linkUp := false

/-- The part right after a power-on reset has ended (R21, R22, R38, R64, R114, R130, R147, R148, R166, R177, R186, R188). -/
def State.reset : State where
  ports := Vector.replicate 4 (SegPort.initial false)
  stations := Vector.replicate 124 {}
  lanes := Vector.replicate 16 (LaneState.initial (Vector.replicate 4 false))
  pool := Vector.replicate 24 {}
  visitCounter := 1
  lastServed := 15
  cache := Cache.initial
  slot := SlotUnit.initial
  check := CheckUnit.initial
  dest := DestUnit.initial
  signs := SignUnit.initial
  uplink := { Uplink.initial 0 false with queue := powerOnQueue resetPins }
  params := {}
  resetHeld := false
  pending := []

end Sys2Proof.Machine
end

