-- ==== Sys2Proof/Machine/Ops.lean ====
section
/-! DEFINITION. The named operations every block shares: reading and changing one record of a table, saturating
counters, terminal time, offering a report to the report queue, and answering a request. -/

namespace Sys2Proof.Machine

/-! ### Tables of records -/

/-- The table with record `i` replaced by what `f` makes of it. -/
def upd {α : Type} {n : Nat} (v : Vector α n) (i : Fin n) (f : α → α) : Vector α n := v.set i (f v[i])

/-- The table with every record replaced by what `f` makes of it. -/
def mapAll {α β : Type} {n : Nat} (v : Vector α n) (f : α → β) : Vector β n :=
  ⟨⟨v.toList.map f⟩, by simp⟩

/-- A 16-bit counter after one rise: it stays at 65535 (file 00, Counters). -/
def bump (c : Counter) : Counter := if c = 65535 then c else c + 1

/-- A 16-bit counter after `k` rises. -/
def bumpBy (c : Counter) : Nat → Counter
  | 0 => c
  | k + 1 => bumpBy (bump c) k

/-- R185: a number brought to the nearest end of its range. -/
def clampTo (lo hi n : Nat) : Nat := max lo (min n hi)

def PerPos.get {α : Type} (p : PerPos α) : Position → α
  | .fwd => p.fwd
  | .aft => p.aft

def PerPos.put {α : Type} (p : PerPos α) (pos : Position) (x : α) : PerPos α :=
  match pos with
  | .fwd => { p with fwd := x }
  | .aft => { p with aft := x }

/-- A lane input's place among the four (R186: ENTRY 0 to BARRIER_DOWN 3). -/
def inputIx : Input → Fin 4
  | .entry => 0
  | .position => 1
  | .exit => 2
  | .barrierDown => 3

/-- R185: the place of a station in the station map. -/
def stationIx (seg : Seg) (addr : Addr) : StationIx := ⟨31 * seg.val + addr.val, by omega⟩

/-- The segment of a place of the station map. -/
def segOf (ix : StationIx) : Seg := ⟨ix.val / 31, by omega⟩

/-- The address of a place of the station map. -/
def addrOf (ix : StationIx) : Addr := ⟨ix.val % 31, by omega⟩

namespace State

def port (s : State) (seg : Seg) : SegPort := s.ports[seg]
def station (s : State) (ix : StationIx) : Station := s.stations[ix]
def lane (s : State) (l : LaneId) : LaneState := s.lanes[l]
def ctx (s : State) (c : CtxId) : Ctx := s.pool[c]
def destAt (s : State) (d : Fin 64) : Dest := s.dest.dests[d]

def updPort (s : State) (seg : Seg) (f : SegPort → SegPort) : State := { s with ports := upd s.ports seg f }
def updStation (s : State) (ix : StationIx) (f : Station → Station) : State := { s with stations := upd s.stations ix f }
def updLane (s : State) (l : LaneId) (f : LaneState → LaneState) : State := { s with lanes := upd s.lanes l f }
def updCtx (s : State) (c : CtxId) (f : Ctx → Ctx) : State := { s with pool := upd s.pool c f }
def updCache (s : State) (f : Cache → Cache) : State := { s with cache := f s.cache }
def updSlot (s : State) (f : SlotUnit → SlotUnit) : State := { s with slot := f s.slot }
def updCheck (s : State) (f : CheckUnit → CheckUnit) : State := { s with check := f s.check }
def updDest (s : State) (f : DestUnit → DestUnit) : State := { s with dest := f s.dest }
def updSigns (s : State) (f : SignUnit → SignUnit) : State := { s with signs := f s.signs }
def updUplink (s : State) (f : Uplink → Uplink) : State := { s with uplink := f s.uplink }
def updParams (s : State) (f : Params → Params) : State := { s with params := f s.params }

/-- The counters of a segment port (R9). -/
def countPort (s : State) (seg : Seg) (f : SegCounters → SegCounters) : State :=
  s.updPort seg fun p => { p with counters := f p.counters }

/-- The counters of a lane (R37, R63, R84). -/
def countLane (s : State) (l : LaneId) (f : LaneCounters → LaneCounters) : State :=
  s.updLane l fun x => { x with counters := f x.counters }

def countCache (s : State) (f : CacheCounters → CacheCounters) : State :=
  s.updCache fun x => { x with counters := f x.counters }

def countSlot (s : State) (f : SlotCounters → SlotCounters) : State :=
  s.updSlot fun x => { x with counters := f x.counters }

def countCheck (s : State) (f : CheckCounters → CheckCounters) : State :=
  s.updCheck fun x => { x with counters := f x.counters }

def countDest (s : State) (f : DestCounters → DestCounters) : State :=
  s.updDest fun x => { x with counters := f x.counters }

def countSigns (s : State) (f : SignCounters → SignCounters) : State :=
  s.updSigns fun x => { x with counters := f x.counters }

def countUplink (s : State) (f : UplinkCounters → UplinkCounters) : State :=
  s.updUplink fun x => { x with counters := f x.counters }

/-- The read level of a lane input (R23). -/
def reads (s : State) (l : LaneId) (inp : Input) : Bool := (s.lane l).inputs[inputIx inp].level

/-- The front context of a lane (R40). -/
def frontCtx (s : State) (l : LaneId) : Option Ctx := (s.lane l).front.map s.ctx

/-- The state of the lane's front context, or none (R27, R49). -/
def frontState (s : State) (l : LaneId) : Option CtxState := (s.frontCtx l).map (·.state)

end State

/-! ### Terminal time -/

/-- R116: a day and a minute of day as an absolute minute. -/
def absMinute (day : BitVec 16) (minute : Nat) : Nat := day.toNat * 1440 + minute

/-- R116: how far the absolute minute `a` lies after `b`, the day difference taken modulo 65536 in −32768..32767. -/
def minuteDiff (a b : Nat) : Int :=
  (BitVec.ofNat 16 (a / 1440) - BitVec.ofNat 16 (b / 1440)).toInt * 1440 + (Int.ofNat (a % 1440) - Int.ofNat (b % 1440))

/-- R116: the absolute minute `k` minutes after `a`; the day after day 65535 is day 0. -/
def minuteAdd (a k : Nat) : Nat := (a + k) % (65536 * 1440)

/-- What a minute field takes from the terminal clock now (section 3.1, R115). -/
def State.now (s : State) : Stamp :=
  match s.slot.clock with
  | none => .unset
  | some c => .at (absMinute c.day c.minute)

/-! ### The report queue (R180, R181) -/

namespace State

/-- R180: a class B report offered. -/
def offerB (s : State) (r : Report) : State :=
  if s.uplink.queue.length < Config.classBLimit then
    s.updUplink fun u => { u with queue := u.queue ++ [⟨r, none⟩] }
  else s.countUplink fun c => { c with classBDrops := bump c.classBDrops }

/-- R180: whether a class A report offered now is accepted: room, and no class A report waits. -/
def roomA (s : State) : Bool :=
  decide (s.uplink.queue.length < Config.reportQueueSize) && s.uplink.waiters.isEmpty

/-- A class A report accepted at the tail. -/
def accept (s : State) (r : Report) : State :=
  s.updUplink fun u => { u with queue := u.queue ++ [⟨r, none⟩] }

/-- R181: a maker takes its place in the class A wait order, if it holds none. -/
def wait (s : State) (w : Waiter) : State :=
  s.updUplink fun u => if u.waiters.contains w then u else { u with waiters := u.waiters ++ [w] }

/-- R181: a waiter whose report is withdrawn leaves the wait order. -/
def unwait (s : State) (w : Waiter) : State :=
  s.updUplink fun u => { u with waiters := u.waiters.filter (· != w) }

/-- R179, R181, R183: the uplink port offers a RESPONSE or a PART_HELLO; without room it is owed, in the order made. -/
def uplinkMake (s : State) (r : Report) : State :=
  if s.uplink.owed.isEmpty && s.roomA then s.accept r
  else (s.updUplink fun u => { u with owed := u.owed ++ [r] }).wait .uplink

end State

/-! ### Requests (R178, R179, R182) -/

/-- What a request is answered with (R179). -/
structure Answer where
  status : Status
  detail : Detail := .none
  clamped : Bool := false
  body : Body := .none
deriving DecidableEq, Repr

def Answer.ok : Answer := { status := .ok }

/-- OK, marked as clamped where a value was brought into its range (R179). -/
def Answer.okClamped (clamped : Bool) : Answer := { status := .ok, clamped := clamped }

/-- Whether an owed report of the uplink port is a RESPONSE. -/
def Report.isResponse : Report → Bool
  | .response _ => true
  | _ => false

namespace State

/-- R182: a valid gate frame counts for server presence: the server is PRESENT and the heartbeat timer runs from the full
limit. With the link down too (the model's choice: log entry 44). -/
def countPresence (s : State) : State :=
  s.updUplink fun u => { u with serverPresent := true, heartbeatTimer := some s.params.heartbeat }

/-- R182, R184: a valid gate frame taken: it counts for server presence, and its source address is learned. -/
def gateHeard (s : State) (h : GateHdr) : State := s.countPresence.updUplink fun u => { u with server := some h.src }

/-- R179: the RESPONSEs that have been made and not yet accepted. -/
def responsesOwed (s : State) : Nat := (s.uplink.owed.filter Report.isResponse).length

/-- R179: a RESPONSE to a request of the kind code given. -/
def respond (s : State) (h : GateHdr) (kind : Byte) (a : Answer) : State :=
  s.uplinkMake (.response ⟨h.tag, kind, a.status, a.detail, a.clamped, a.body⟩)

/-- R179: a request that finds 8 RESPONSEs owed is not taken: it counts for server presence and as dropped, and does
nothing else; its source address is not learned (R184). -/
def dropRequest (s : State) : State :=
  s.countPresence.countUplink fun c => { c with requestsDropped := bump c.requestsDropped }

/-- R178, R179: a request. With 8 RESPONSEs owed it is dropped; else it is taken, its owner acts, and the answer is sent
back (the owner acts first: log entry 8). The server is PRESENT (R182) before the owner acts, and so before any decision step
that the frame sets off reads the server state (R152): the model's choice (DESIGN CHOICE: log entry 56). -/
def request (s : State) (h : GateHdr) (kind : Byte) (act : State → Answer × State) : State :=
  if Config.responseListSize ≤ s.responsesOwed then s.dropRequest
  else
    let r := act (s.gateHeard h)
    r.2.respond h kind r.1

end State

/-- An answer that changes nothing (R179). -/
def refuse (s : State) (status : Status) : Answer × State := ({ status := status }, s)

/-- Every command but POWER_ON acts only while the reset input is released (log entry 22). -/
def whenRunning (s : State) (f : State → State) : Host.Outcome State Fault Refusal :=
  if s.resetHeld then .next s else .next (f s)

end Sys2Proof.Machine
end

