-- ==== Sys2Proof/Machine/Flags.lean ====
section
/-! DEFINITION. Levels, flags and limits that are computed and never stored: sensed levels (R23), driven outputs
(R29 to R31), window limits (R119), locked records (R85), the driven value while reset is held (R38). -/

namespace Sys2Proof.Machine

/-- The sensed level: ACTIVE when the pin is high under ACTIVE_HIGH or low under ACTIVE_LOW (section 2.1). -/
def LaneInput.sensed (i : LaneInput) : Bool := i.pin != i.activeLow

def LaneState.output (l : LaneState) : Output → LaneOutput
  | .barrier => l.barrier
  | .go => l.go
  | .stop => l.stop

def LaneState.updOutput (l : LaneState) (o : Output) (f : LaneOutput → LaneOutput) : LaneState :=
  match o with
  | .barrier => { l with barrier := f l.barrier }
  | .go => { l with go := f l.go }
  | .stop => { l with stop := f l.stop }

namespace State

/-- Whether the lane's front context is in RELEASING. -/
def releasing (s : State) (l : LaneId) : Bool := s.frontState l == some .releasing

/-- R30: the value an AUTO output takes from the front context outside MANUAL. -/
def autoValue (s : State) (l : LaneId) : Output → Bool
  | .barrier => s.releasing l
  | .go => s.releasing l
  | .stop => !s.releasing l

/-- R29 to R31, R38: the driven value of an output: OFF while the reset input is held; the remote value of a REMOTE
output; the console value in MANUAL; else the value of R30. -/
def driven (s : State) (l : LaneId) (o : Output) : Bool :=
  let x := (s.lane l).output o
  if s.resetHeld then false
  else if x.remote then x.remoteValue
  else if (s.lane l).mode = .manual then x.consoleValue
  else s.autoValue l o

end State

/-- R85: a record with either hold on is locked. -/
def Record.locked (r : Record) : Bool := r.customsHold || r.lineHold

/-- R119: the maximum M. -/
def Window.max (w : Window) : Nat := w.capacity + w.capacity * w.overbook / 8

/-- R119: the open limit L. -/
def Window.openLimit (w : Window) : Nat := w.max * w.openShare / 8

/-- R40: the position states. -/
def CtxState.atPosition : CtxState → Bool
  | .identifying | .lookup | .referred | .decided | .releasing => true
  | .free | .arriving | .closing => false

/-- R50: the states before the decision step. -/
def CtxState.beforeDecision : CtxState → Bool
  | .arriving | .identifying | .lookup => true
  | .free | .referred | .decided | .releasing | .closing => false

end Sys2Proof.Machine
end

