-- ==== Sys2Proof/Machine/Operands.lean ====
section
/-! DEFINITION. Reading the operands: characters and keys, the CRC and the FRAME CHECK of a lane frame (R1, R189), the
booking record of a BOOKING_DATA (R85, R86, file 11), and unit codes (R67, R68). -/

namespace Sys2Proof.Machine

/-! ### Characters (file 00, Conventions) -/

def isDigit (b : Byte) : Bool := 0x30 ≤ b.toNat && b.toNat ≤ 0x39
def isLetter (b : Byte) : Bool := 0x41 ≤ b.toNat && b.toNat ≤ 0x5A
/-- 0..9 and A..Z. -/
def isKeyChar (b : Byte) : Bool := isDigit b || isLetter b
/-- Space, 0..9 and A..Z. -/
def isTextChar (b : Byte) : Bool := b.toNat == 0x20 || isKeyChar b

/-- The character value: the face value of a digit, 10 for A to 35 for Z. A space has none: log entry 5. -/
def charValue (b : Byte) : Nat :=
  if isDigit b then b.toNat - 0x30 else if isLetter b then b.toNat - 0x41 + 10 else Config.otherCharValue b

/-- A key: 11 characters of 0..9 and A..Z. -/
def isKey (t : Text) : Bool := t.length == 11 && t.all isKeyChar

/-- The sum of the characters' values, each multiplied by its weight. -/
def weightedSum : Text → List Nat → Nat
  | c :: cs, w :: ws => charValue c * w + weightedSum cs ws
  | _, _ => 0

/-- R87: the SET INDEX. -/
def setIndex (key : Text) : Fin 1024 :=
  ⟨weightedSum key [3, 5, 7, 9, 11, 13, 15, 17, 19, 21, 23] % 1024, Nat.mod_lt _ (by decide)⟩

/-- R67: the UNIT FORM CHECK. -/
def unitFormOk (code : Text) : Bool :=
  code.length == 11 && (code.take 4).all isLetter && (code.drop 4).all isDigit

/-- R68: the check digit of the first 10 characters. -/
def checkDigit (code : Text) : Nat := weightedSum (code.take 10) [1, 3, 7, 9, 1, 3, 7, 9, 1, 3] % 10

/-- R68: the CHECK DIGIT TEST. -/
def checkValid (code : Text) : Bool := charValue (code.getD 10 0x30) == checkDigit code

/-- A text filled out with spaces to `n` characters. -/
def padTo (n : Nat) (t : Text) : Text := (t ++ List.replicate n 0x20).take n

/-- The `n` low decimal digits of a number as characters. -/
def decimal : Nat → Nat → Text
  | 0, _ => []
  | n + 1, k => decimal n (k / 10) ++ [BitVec.ofNat 8 (0x30 + k % 10)]

/-! ### Bytes (file 11: most significant byte first) -/

def be16 (hi lo : Byte) : BitVec 16 := hi ++ lo
def be32 (a b c d : Byte) : BitVec 32 := a ++ b ++ c ++ d
def bytesOf16 (w : BitVec 16) : List Byte := [w.extractLsb' 8 8, w.extractLsb' 0 8]
def bytesOf32 (w : BitVec 32) : List Byte :=
  [w.extractLsb' 24 8, w.extractLsb' 16 8, w.extractLsb' 8 8, w.extractLsb' 0 8]

/-! ### The CRC of a lane frame (R189) -/

/-- `n` steps of the register: shifted left, with 0x1021 where a 1 is shifted out. -/
def crcShift : Nat → BitVec 16 → BitVec 16
  | 0, r => r
  | n + 1, r => crcShift n (if r.msb then (r <<< 1) ^^^ 0x1021 else r <<< 1)

/-- R189: one byte taken into the CRC register, most significant bit first. -/
def crcByte (r : BitVec 16) (b : Byte) : BitVec 16 := crcShift 8 (r ^^^ (b.setWidth 16 <<< 8))

/-- R189: the CRC over bytes, from 0xFFFF. -/
def crc16 (bytes : List Byte) : BitVec 16 := bytes.foldl crcByte 0xFFFF

/-! ### Payloads of lane frames (R1, R189) -/

def positionOf (b : Byte) : Option Position :=
  match b.toNat with
  | 0 => some .fwd
  | 1 => some .aft
  | _ => none

def laneFaceOf (b : Byte) : Option LaneFace :=
  match b.toNat with
  | 0 => some .laneLeft
  | 1 => some .laneRight
  | 2 => some .top
  | 3 => some .frontEnd
  | 4 => some .rearEnd
  | _ => none

def damageKindOf (b : Byte) : Option DamageKind :=
  match b.toNat with
  | 0 => some .dent
  | 1 => some .hole
  | 2 => some .crease
  | 3 => some .bulge
  | 4 => some .rust
  | _ => none

def lengthClassOf (b : Byte) : Option LengthClass :=
  match b.toNat with
  | 20 => some .l20
  | 40 => some .l40
  | 45 => some .l45
  | _ => none

def doorEndOf (b : Byte) : Option DoorEnd :=
  match b.toNat with
  | 0 => some .doorsAft
  | 1 => some .doorsFore
  | 2 => some .unknown
  | _ => none

/-- An output value of CONSOLE_OUTPUT: OFF 0, ON 1, KEEP 2. -/
def outputValueOf (b : Byte) : Option (Option Bool) :=
  match b.toNat with
  | 0 => some (some false)
  | 1 => some (some true)
  | 2 => some none
  | _ => none

/-- The marks of a DAMAGE_MARKS frame, five bytes each: face, column, row, kind, severity. -/
def rawMarksOf : List Byte → Option (List RawMark)
  | [] => some []
  | f :: c :: r :: k :: v :: rest => do
      let face ← laneFaceOf f
      let kind ← damageKindOf k
      let marks ← rawMarksOf rest
      return ⟨face, c.toNat, r.toNat, kind, v.toNat⟩ :: marks
  | _ => none

/-- The layout of a SCAN_END; the items of a position beyond the units seen are neither tested nor kept (R1, R81). -/
def layoutOf (u fl fd al ad : Byte) : Option Layout :=
  match u.toNat with
  | 0 => some ⟨0, none, none⟩
  | 1 => do return ⟨1, some (← lengthClassOf fl, ← doorEndOf fd), none⟩
  | 2 => do return ⟨2, some (← lengthClassOf fl, ← doorEndOf fd), some (← lengthClassOf al, ← doorEndOf ad)⟩
  | _ => none

/-- A characters field of a lane frame, if every byte is one of space, 0..9 and A..Z. -/
def chars (t : Text) : Option Text := if t.all isTextChar then some t else none

/-- R1: the form check of a kind code and its payload: the allowed lengths, the character fields and the enumerated
fields. `none` is a format error. The sequence acknowledged of a SIGN_ACK or TICKET_ACK is kept as the whole byte, by the model's
choice (log entry 54). -/
def laneMsgOf (kind : Byte) (p : List Byte) : Option LaneMsg :=
  match kind.toNat, p with
  | 0x01, c :: v => if 1 ≤ v.length && v.length ≤ 10 then (chars v).map (.readPlate c.toNat) else none
  | 0x02, c :: v => if v.length == 12 then (chars v).map (.readTag c.toNat) else none
  | 0x03, q :: c :: v =>
      if v.length == 15 then do
        return .readUnit (← positionOf q) c.toNat (← chars (v.take 11)) (← chars (v.drop 11))
      else none
  | 0x04, q :: c :: v =>
      if 1 ≤ v.length && v.length ≤ 10 then do return .readSeal (← positionOf q) c.toNat (← chars v) else none
  | 0x05, q :: v =>
      if 5 ≤ v.length && v.length ≤ 40 then do return .damageMarks (← positionOf q) (← rawMarksOf v) else none
  | 0x06, [u, fl, fd, al, ad] => (layoutOf u fl fd al ad).map .scanEnd
  | 0x07, v => if v.length == 11 then (chars v).map .kioskEntry else none
  | 0x08, [a, b, c, d] => some (.hello (be32 a b c d))
  | 0x09, v => if v.length ≤ 60 then some .status else none
  | 0x0A, [q] => some (.signAck q.toNat)
  | 0x0B, [q] => some (.ticketAck q.toNat)
  | 0x0C, [] => some .consoleTake
  | 0x0D, [] => some .consoleRelease
  | 0x0E, [b, g, t] => do return .consoleOutput (← outputValueOf b) (← outputValueOf g) (← outputValueOf t)
  | _, _ => none

/-- What the FRAME CHECK makes of a frame (R1). -/
inductive FrameCheck where
  | crcError | foreign | formatError
  | passed (f : RxFrame)
deriving DecidableEq, Repr

/-- R1, R189: the FRAME CHECK over the bytes received, its parts in the order of the table. Fewer than the seven bytes of
header and CRC fail the first part (log entry 21). -/
def frameCheck (bytes : List Byte) : FrameCheck :=
  match bytes with
  | dst :: src :: kind :: sq :: len :: rest =>
      if rest.length < 2 then .crcError
      else
        let n := rest.length - 2
        let payload := rest.take n
        let body := dst :: src :: kind :: sq :: len :: payload
        if rest.drop n != bytesOf16 (crc16 body) then .crcError
        else if n != len.toNat then .crcError
        else if dst.toNat != 0 then .foreign
        else
          match decide (1 ≤ src.toNat), laneMsgOf kind payload with
          | true, some msg =>
              if h : src.toNat - 1 < 31 then .passed ⟨⟨src.toNat - 1, h⟩, sq.setWidth 4, msg, body⟩ else .formatError
          | _, _ => .formatError
  | _ => .crcError

/-- The kind of a message. -/
def LaneMsg.kind : LaneMsg → LaneKind
  | .readPlate _ _ => .readPlate
  | .readTag _ _ => .readTag
  | .readUnit _ _ _ _ => .readUnit
  | .readSeal _ _ _ => .readSeal
  | .damageMarks _ _ => .damageMarks
  | .scanEnd _ => .scanEnd
  | .kioskEntry _ => .kioskEntry
  | .hello _ => .hello
  | .status => .status
  | .signAck _ => .signAck
  | .ticketAck _ => .ticketAck
  | .consoleTake => .consoleTake
  | .consoleRelease => .consoleRelease
  | .consoleOutput _ _ _ => .consoleOutput

/-- R14: the kinds of the reading roles. -/
def LaneKind.isReading : LaneKind → Bool
  | .readPlate | .readTag | .readUnit | .readSeal | .damageMarks | .scanEnd | .kioskEntry => true
  | .hello | .status | .signAck | .ticketAck | .consoleTake | .consoleRelease | .consoleOutput => false

/-- R13: the kinds accepted for each role. -/
def Role.accepts : Role → LaneKind → Bool
  | _, .hello | _, .status => true
  | .plate, .readPlate | .tag, .readTag | .unit, .readUnit | .seal, .readSeal => true
  | .damage, .damageMarks | .damage, .scanEnd | .kiosk, .kioskEntry => true
  | .sign, .signAck | .printer, .ticketAck => true
  | .console, .consoleTake | .console, .consoleRelease | .console, .consoleOutput => true
  | _, _ => false

/-- R49: the value an orphan read carried; DAMAGE_MARKS and SCAN_END carry no characters (log entry 25). -/
def LaneMsg.value : LaneMsg → Text
  | .readPlate _ v | .readTag _ v | .readSeal _ _ v | .kioskEntry v => v
  | .readUnit _ _ code _ => code
  | _ => []

/-! ### The booking record (R85, R86, section 11.3) -/

def bookingKindOf (b : Byte) : Option BookingKind :=
  match b.toNat with
  | 0 => some .exportFull
  | 1 => some .emptyReturn
  | 2 => some .importFull
  | 3 => some .emptyPickup
  | _ => none

def progressOf (b : Byte) : Option Progress :=
  match b.toNat with
  | 0 => some .booked
  | 1 => some .arrived
  | 2 => some .gatedIn
  | 3 => some .cancelled
  | _ => none

def faceOf (b : Byte) : Option Face :=
  match b.toNat with
  | 0 => some .left
  | 1 => some .right
  | 2 => some .roof
  | 3 => some .door
  | 4 => some .front
  | _ => none

def sealResultOf (b : Byte) : Option SealResult :=
  match b.toNat with
  | 0 => some .ok
  | 1 => some .near
  | 2 => some .missing
  | 3 => some .mismatch
  | 4 => some .unexpected
  | _ => none

/-- A slot: window 0xFF is NONE, a window above 95 is bad. -/
def slotOf (day : BitVec 16) (w : Byte) : Option (Option (BitVec 16 × Nat)) :=
  if w.toNat == 0xFF then some none else if w.toNat ≤ 95 then some (some (day, w.toNat)) else none

/-- A seal of 1..10 characters: a length byte and 10 characters, those beyond the length not examined. -/
def sealValueOf (t : List Byte) : Option Text :=
  match t with
  | n :: cs => if 1 ≤ n.toNat && n.toNat ≤ 10 then chars (cs.take n.toNat) else none
  | [] => none

def sealsOf (n : Nat) (a b : List Byte) : Option (List Text) :=
  match n with
  | 0 => some []
  | 1 => do return [← sealValueOf a]
  | 2 => do return [← sealValueOf a, ← sealValueOf b]
  | _ => none

/-- The first `n` prior marks, five bytes each; severity 1..7, column at most 9, row at most 2. -/
def marksOf : Nat → List Byte → Option (List Mark)
  | 0, _ => some []
  | n + 1, f :: c :: r :: k :: v :: rest => do
      let face ← faceOf f
      let kind ← damageKindOf k
      if c.toNat ≤ 9 && r.toNat ≤ 2 && 1 ≤ v.toNat && v.toNat ≤ 7 then
        let marks ← marksOf n rest
        return ⟨face, c.toNat, r.toNat, kind, v.toNat⟩ :: marks
      else none
  | _, _ => none

def hintOf (b : Byte) : Option (Option (Fin 64)) :=
  if b.toNat == 0xFF then some none else if h : b.toNat < 64 then some (some ⟨b.toNat, h⟩) else none

def recordedOf (present result : Byte) (value : List Byte) : Option (Option SealCheck) :=
  match present.toNat with
  | 0 => some none
  | 1 => do return some ⟨← sealResultOf result, some (← sealValueOf value)⟩
  | _ => none

/-- R86: the record of a BOOKING_DATA from its 120 bytes, or `none` for a bad record. Its key is 0..9 and A..Z alone (R85):
a space in it makes the record bad. -/
def recordOfBytes (b : List Byte) : Option Record :=
  let at' (i : Nat) : Byte := b.getD i 0
  let run (i n : Nat) : List Byte := (b.drop i).take n
  if b.length != 120 then none
  else do
    let key ← if isKey (run 0 11) then some (run 0 11) else none
    let kind ← bookingKindOf (at' 11)
    let slot ← slotOf (be16 (at' 12) (at' 13)) (at' 14)
    let operator ← chars (run 15 3)
    let length ← lengthClassOf (at' 18)
    let seals ← sealsOf (at' 19).toNat (run 20 11) (run 31 11)
    let prior ← if (at' 42).toNat ≤ Config.maxPriorMarks then marksOf (at' 42).toNat (run 43 60) else none
    let holds ← if (at' 103).toNat ≤ 3 then some (at' 103).toNat else none
    let hint ← hintOf (at' 104)
    let progress ← progressOf (at' 105)
    let remaining ← if (at' 106).toNat ≤ 99 then some (at' 106).toNat else none
    let recorded ← recordedOf (at' 107) (at' 108) (run 109 11)
    return { key, kind, slot, operator, length, seals, prior, customsHold := holds % 2 == 1, lineHold := 2 ≤ holds,
             hint, progress, remaining, recorded }

end Sys2Proof.Machine
end

