-- ==== Sys2Proof/Machine/Consensus.lean ====
section
/-! DEFINITION. The consensus unit (chapter 4): scoring a read into a field, the SETTLE TEST, the CONTEST TEST,
FINALISATION, the layout, and identification completion (R51). -/

namespace Sys2Proof.Machine

/-! ### Weight and contribution -/

/-- R69. -/
def effectiveWeight (seg : SegState) (weight : Nat) : Nat :=
  match seg with
  | .up => weight
  | .impaired | .down => weight / 2

/-- R66, R70: the contribution of a read of any kind but a check-failed unit; a confidence above 100 is taken as 100. -/
def contribution (confidence weff : Nat) : Nat := min confidence 100 * weff / 8

/-- R70: the contribution of a check-failed unit read. -/
def contributionFailed (confidence weff : Nat) : Nat := min confidence 100 * weff / 32

/-! ### Ranking -/

/-- R74: the candidate of highest score, among equals the one added earliest. -/
def bestOf : List Candidate → Option Candidate
  | [] => none
  | c :: cs =>
      match bestOf cs with
      | none => some c
      | some d => if c.score < d.score then some d else some c

/-- R74: the score of the second, 0 where there is none. -/
def secondScore (cs : List Candidate) : Nat :=
  match bestOf cs with
  | none => 0
  | some b =>
      match bestOf (cs.filter (·.value != b.value)) with
      | none => 0
      | some d => d.score

/-- R73: the candidate of lowest score, among equals the one added earliest. -/
def worstOf : List Candidate → Option Candidate
  | [] => none
  | c :: cs =>
      match worstOf cs with
      | none => some c
      | some d => if d.score < c.score then some d else some c

/-- R82: the reported value. -/
def ConsField.reported (f : ConsField) : Option Text :=
  match f.latched with
  | some v => some v
  | none => (bestOf f.candidates).map (·.value)

/-- R65: the size-type code of the candidate whose value is reported. -/
def ConsField.reportedSize (f : ConsField) : Option Text :=
  match f.reported with
  | some v => (f.candidates.find? (·.value == v)).bind (·.sizeType)
  | none => none

/-! ### One read -/

/-- R71: a candidate joined. -/
def Candidate.join (c : Candidate) (k : Nat) : Candidate :=
  { c with score := min (c.score + k) Config.maxScore, reads := min (c.reads + 1) 255 }

/-- R71 to R73: the read in the candidate list, and whether it joined or made a candidate. -/
def ConsField.takeRead (f : ConsField) (value : Text) (k : Nat) (size : Option Text) : ConsField × Bool :=
  let made : Candidate := ⟨value, k, 1, size⟩
  if f.candidates.any (·.value == value) then
    ({ f with candidates := f.candidates.map fun c => if c.value == value then c.join k else c }, true)
  else if f.candidates.length < Config.maxCandidates then
    ({ f with candidates := f.candidates ++ [made] }, true)
  else
    match worstOf (f.candidates.filter fun c => f.latched != some c.value) with
    | some v =>
        if v.score < k then
          ({ f with candidates := f.candidates.filter (fun c => c.value != v.value) ++ [made] }, true)
        else ({ f with discards := min (f.discards + 1) 255 }, false)
    | none => ({ f with discards := min (f.discards + 1) 255 }, false)

/-- R75: the SETTLE TEST. -/
def ConsField.settleTest (t m : Nat) (f : ConsField) : ConsField :=
  match bestOf f.candidates with
  | some b =>
      if t ≤ b.score && secondScore f.candidates + m ≤ b.score then
        { f with state := .settled, latched := some b.value }
      else f
  | none => f

/-- R76: whether some candidate other than the latched one has a strictly greater score. -/
def ConsField.overtaken (f : ConsField) : Bool :=
  match f.candidates.find? (fun c => f.latched == some c.value) with
  | some l => f.candidates.any fun c => decide (l.score < c.score) && f.latched != some c.value
  | none => false

/-- R75, R76, R80: what a ranking makes of the field's state. -/
def ConsField.ranked (t m : Nat) (f : ConsField) : ConsField :=
  match f.state with
  | .open => f.settleTest t m
  | .settled | .weak => if f.overtaken then { f with state := .contested } else f
  | .unresolved | .absent | .contested => f

/-- R71 to R76: a read scored into a field; a discarded read does not rank it. -/
def ConsField.score (t m : Nat) (f : ConsField) (value : Text) (k : Nat) (size : Option Text) : ConsField :=
  let r := f.takeRead value k size
  if r.2 then r.1.ranked t m else r.1

/-- R78: FINALISATION of one field. -/
def ConsField.finalise (t m : Nat) (f : ConsField) : ConsField :=
  match f.state with
  | .open =>
      match bestOf f.candidates with
      | none => { f with state := .absent }
      | some b =>
          if t / 2 ≤ b.score && secondScore f.candidates + m / 2 ≤ b.score then
            { f with state := .weak, latched := some b.value }
          else { f with state := .unresolved }
  | .settled | .weak | .unresolved | .absent | .contested => f

/-! ### The fields of a context -/

def Ctx.field (c : Ctx) : FieldName → ConsField
  | .plate => c.plate
  | .tag => c.tag
  | .unitFwd => c.unitFwd
  | .unitAft => c.unitAft
  | .sealFwd => c.sealFwd
  | .sealAft => c.sealAft

def Ctx.setField (c : Ctx) (n : FieldName) (f : ConsField) : Ctx :=
  match n with
  | .plate => { c with plate := f }
  | .tag => { c with tag := f }
  | .unitFwd => { c with unitFwd := f }
  | .unitAft => { c with unitAft := f }
  | .sealFwd => { c with sealFwd := f }
  | .sealAft => { c with sealAft := f }

/-- The unit field of a position. -/
def unitField : Position → FieldName
  | .fwd => .unitFwd
  | .aft => .unitAft

/-- The seal field of a position (R131). -/
def sealField : Position → FieldName
  | .fwd => .sealFwd
  | .aft => .sealAft

/-- R75: the settle threshold of a field. -/
def Params.t (p : Params) : FieldName → Nat
  | .plate => p.plateT
  | .tag => p.tagT
  | .unitFwd | .unitAft => p.unitT
  | .sealFwd | .sealAft => p.sealT

/-- R75: the settle margin of a field. -/
def Params.m (p : Params) : FieldName → Nat
  | .plate => p.plateM
  | .tag => p.tagM
  | .unitFwd | .unitAft => p.unitM
  | .sealFwd | .sealAft => p.sealM

/-- R50, R77: a read scored into a field of a context; a field contested from the decision step onward sets
CONTESTED_LATE. -/
def Ctx.scoreRead (p : Params) (c : Ctx) (n : FieldName) (value : Text) (k : Nat) (size : Option Text) : Ctx :=
  let f := (c.field n).score (p.t n) (p.m n) value k size
  let late := !c.state.beforeDecision && (c.field n).state != .contested && f.state == .contested
  let c := c.setField n f
  if late then { c with flags := { c.flags with contestedLate := true } } else c

/-- R78, R79: FINALISATION of one field of a context, which sets WEAK_IDENTITY where the field becomes WEAK. -/
def Ctx.finaliseField (p : Params) (c : Ctx) (n : FieldName) : Ctx :=
  let f := (c.field n).finalise (p.t n) (p.m n)
  let weak := (c.field n).state == .open && f.state == .weak
  let c := c.setField n f
  if weak then { c with flags := { c.flags with weakIdentity := true } } else c

/-- R78, R79: FINALISATION of every field still OPEN. -/
def Ctx.finalise (p : Params) (c : Ctx) : Ctx :=
  let c := c.finaliseField p .plate
  let c := c.finaliseField p .tag
  let c := c.finaliseField p .unitFwd
  let c := c.finaliseField p .unitAft
  let c := c.finaliseField p .sealFwd
  c.finaliseField p .sealAft

/-- R50, R81: a SCAN_END taken by a context. -/
def Ctx.scanEnd (c : Ctx) (l : Layout) : Ctx :=
  match c.layout with
  | none => { c with layout := some l }
  | some held =>
      if held.units == l.units then c
      else
        { c with
          layoutConflict := true
          flags := { c.flags with contestedLate := c.flags.contestedLate || !c.state.beforeDecision } }

/-- R82: whether the unit field of a position is expected. -/
def Ctx.expects (c : Ctx) (pos : Position) : Bool :=
  match c.layout, pos with
  | none, _ => false
  | some l, .fwd => decide (1 ≤ l.units)
  | some l, .aft => decide (2 ≤ l.units)

/-- R51: identification completion. -/
def Ctx.identified (c : Ctx) : Bool :=
  (c.plate.state == .settled || c.tag.state == .settled) &&
  match c.layout with
  | none => false
  | some l =>
      (!c.expects .fwd || c.unitFwd.state == .settled) && (!c.expects .aft || c.unitAft.state == .settled) &&
      (l.units != 0 || c.kiosk.isSome)

/-- R52: the key a unit field gives. -/
def ConsField.key (f : ConsField) : Option Text :=
  match f.state with
  | .settled | .weak | .contested => f.latched
  | .open | .unresolved | .absent => none

/-- R52: a key added to the links formed so far. -/
def addLink (links : List Link) (key : Option Text) (source : LinkSource) : List Link :=
  match key with
  | none => links
  | some k =>
      if links.length < 2 && !links.any (·.key == k) then
        links ++ [{ key := k, source := source, target := none, state := .pending, holdsUnit := false }]
      else links

/-- R52: the booking links of a context at LOOKUP entry. -/
def Ctx.formLinks (c : Ctx) : List Link :=
  addLink (addLink (addLink [] c.unitFwd.key .unitFwd) c.unitAft.key .unitAft) c.kiosk .kiosk

end Sys2Proof.Machine
end

