-- ==== Sys2Proof/Machine/Cache.lean ====
section
/-! DEFINITION. The booking cache (chapter 5): lookups, fetches and their answers, the send order, private copies, units
held, the cache's part of a commit and of an abort, recalls. -/

namespace Sys2Proof.Machine

/-! ### Entries, links and targets -/

def CacheSet.get (c : CacheSet) (w : Fin 2) : Entry := if w = 0 then c.way0 else c.way1

def CacheSet.put (c : CacheSet) (w : Fin 2) (e : Entry) : CacheSet :=
  if w = 0 then { c with way0 := e } else { c with way1 := e }

namespace State

def entry (s : State) (i : Fin 1024) (w : Fin 2) : Entry := s.cache.sets[i].get w

def updEntry (s : State) (i : Fin 1024) (w : Fin 2) (f : Entry → Entry) : State :=
  s.updCache fun c => { c with sets := upd c.sets i fun x => x.put w (f (x.get w)) }

/-- R88. -/
def setAge (s : State) (i : Fin 1024) (w : Fin 2) : State :=
  s.updCache fun c => { c with sets := upd c.sets i fun x => { x with age := w } }

def setSlot (s : State) (i : Fin 16) (f : Option Fetch) : State :=
  s.updCache fun c => { c with slots := c.slots.set i f }

def setCopy (s : State) (i : Fin 48) (p : Option PrivateCopy) : State :=
  s.updCache fun c => { c with copies := c.copies.set i p }

def updCopy (s : State) (i : Fin 48) (f : PrivateCopy → PrivateCopy) : State :=
  s.updCache fun c => { c with copies := upd c.copies i (Option.map f) }

def link? (s : State) (r : LinkRef) : Option Link := (s.ctx r.ctx).links[r.index]?

def updLink (s : State) (r : LinkRef) (f : Link → Link) : State :=
  s.updCtx r.ctx fun c => { c with links := c.links.modify r.index f }

/-- The links for which `p` holds, contexts in pool order and links in link order (the model's choice: log entry 40). -/
def linksWhere (s : State) (p : Ctx → Link → Bool) : List LinkRef :=
  (List.finRange 24).flatMap fun i =>
    (List.range (s.ctx i).links.length).filterMap fun k =>
      match (s.ctx i).links[k]? with
      | some l => if p (s.ctx i) l then some ⟨i, k⟩ else none
      | none => none

/-- The record a target holds. -/
def targetRecord (s : State) : Target → Option Record
  | .way i w => (s.entry i w).record
  | .copy p => s.cache.copies[p].bind (·.record)

/-- The units held of a target. -/
def targetHeld (s : State) : Target → Nat
  | .way i w => (s.entry i w).held
  | .copy p => match s.cache.copies[p] with | some c => c.held | none => 0

def setHeld (s : State) (t : Target) (n : Nat) : State :=
  match t with
  | .way i w => s.updEntry i w fun e => { e with held := n }
  | .copy p => s.updCopy p fun c => { c with held := n }

def setRecord (s : State) (t : Target) (r : Record) : State :=
  match t with
  | .way i w => s.updEntry i w fun e => { e with record := some r }
  | .copy p => s.updCopy p fun c => { c with record := some r }

/-- The record of a RESOLVED link. -/
def linkRecord (s : State) (l : Link) : Option Record :=
  match l.state, l.target with
  | .resolved, some t => s.targetRecord t
  | _, _ => none

end State

/-! ### The work of one event

What the cache does in one event, beside the state: whether a slot or a place was freed or a recall ended on an entry,
so that the wait list is to be retried (R95), and the contexts one of whose links changed state (R53). -/

structure Work where
  st : State
  retry : Bool := false
  touched : List CtxId := []

namespace Work

def upd (w : Work) (f : State → State) : Work := { w with st := f w.st }

/-- The part of a recall on a cache entry is done. -/
def entryPartDone (w : Work) (key : Text) : Work :=
  w.upd fun s => s.updCache fun c =>
    { c with recalls := c.recalls.map fun r => if r.key == key then { r with entryPart := false } else r }

/-- R109, R111: an entry under recall becomes INVALID, and that part of the recall is done. -/
def invalidate (w : Work) (i : Fin 1024) (y : Fin 2) : Work :=
  let key := ((w.st.entry i y).key).getD []
  { (w.upd fun s => s.updEntry i y fun _ => {}).entryPartDone key with retry := true }

/-- R102: a private copy is discarded and its place freed. -/
def discardCopy (w : Work) (p : Fin 48) : Work := { (w.upd fun s => s.setCopy p none) with retry := true }

/-- R111: whether an entry under recall names no pin any more. -/
def unpinnedRecall (e : Entry) : Bool := e.state == .valid && e.mark == .pending && e.pins == 0

/-- R96: the report owed by an entry is accepted. -/
def acceptEntry (w : Work) (i : Fin 1024) (y : Fin 2) (make : Record → Report) : Work :=
  let e := w.st.entry i y
  match e.record with
  | none => w
  | some r =>
      let w := w.upd fun s => (s.accept (make r)).updEntry i y fun e => { e with owed := .none, dirty := false }
      if unpinnedRecall e then w.invalidate i y else w

/-- R94, R96, R102, R108: an owed report is accepted into the report queue, with what follows from it. -/
def acceptOwed (w : Work) (o : Owed) : Work :=
  match o with
  | .castout i =>
      match w.st.cache.slots[i] with
      | some f =>
          match f.castout with
          | some r => w.upd fun s =>
              (s.accept (.bookingWriteback r)).setSlot i (some { f with castout := none, phase := .fetchOwed })
          | none => w
      | none => w
  | .fetch i =>
      match w.st.cache.slots[i] with
      | some f => w.upd fun s =>
          (s.accept (.bookingFetch f.key f.tag)).setSlot i
            (some { f with phase := .sent, timer := some s.params.fetchTimeout })
      | none => w
  | .writeback i y => w.acceptEntry i y .bookingWriteback
  | .update i y => w.acceptEntry i y .bookingUpdate
  | .copyUpdate p =>
      match w.st.cache.copies[p] with
      | some c =>
          match c.record with
          | some r =>
              let w := w.upd fun s => (s.accept (.bookingUpdate r)).updCopy p fun c => { c with updateOwed := false }
              if c.link.isNone then w.discardCopy p else w
          | none => w
      | none => w
  | .recallDone key released =>
      w.upd fun s => (s.accept (.recallDone key released)).updCache fun c =>
        { c with recalls := c.recalls.filter (·.key != key) }
  | .flushDone => w.upd fun s => s.accept .flushDone

/-- R96: a report is made. With nothing owed and room it is accepted at once; else it joins the send order. -/
def make (w : Work) (o : Owed) : Work :=
  if w.st.cache.sendOrder.isEmpty && w.st.roomA then w.acceptOwed o
  else w.upd fun s => (s.updCache fun c => { c with sendOrder := c.sendOrder ++ [o] }).wait .cache

/-- R96, R101, R181: an owed report is withdrawn. -/
def withdraw (w : Work) (o : Owed) : Work :=
  w.upd fun s =>
    let s := s.updCache fun c => { c with sendOrder := c.sendOrder.filter (· != o) }
    if s.cache.sendOrder.isEmpty then s.unwait .cache else s

/-- R109, R111: the test of an entry, made when a pin is dropped. -/
def settleEntry (w : Work) (i : Fin 1024) (y : Fin 2) : Work :=
  let e := w.st.entry i y
  if unpinnedRecall e && e.owed == .none then
    if e.dirty then (w.upd fun s => s.updEntry i y fun e => { e with owed := .writeback }).make (.writeback i y)
    else w.invalidate i y
  else w

/-! ### Lookups -/

/-- R94, R184: the next fetch tag, passing over values held by slots; each value looked at is used up. -/
def takeTag : Nat → State → State × BitVec 16
  | 0, s => (s.updUplink fun u => { u with nextTag := u.nextTag + 1 }, s.uplink.nextTag)
  | n + 1, s =>
      let t := s.uplink.nextTag
      let s := s.updUplink fun u => { u with nextTag := u.nextTag + 1 }
      if s.cache.slots.toList.any fun f => f.any (·.tag == t) then takeTag n s else (s, t)

/-- R92, R94: a fetch is made in a slot. -/
def fetch (w : Work) (i : Fin 16) (key : Text) (target : Target) (castout : Option Record) : Work :=
  let r := takeTag 16 w.st
  let w : Work := { w with
    st := r.1.setSlot i
      (some ⟨key, target, r.2, if castout.isSome then .castoutOwed else .fetchOwed, castout, none⟩) }
  let w := if castout.isSome then w.make (.castout i) else w
  w.make (.fetch i)

/-- The lowest free fetch slot (log entry 7). -/
def freeSlot (s : State) : Option (Fin 16) := (List.finRange 16).find? fun i => s.cache.slots[i].isNone

/-- The lowest free place of the private store (log entry 7). -/
def freePlace (s : State) : Option (Fin 48) := (List.finRange 48).find? fun i => s.cache.copies[i].isNone

/-- The way of the key's set that holds the key. -/
def wayOf (s : State) (key : Text) : Option (Fin 2) :=
  if (s.entry (setIndex key) 0).key == some key then some 0
  else if (s.entry (setIndex key) 1).key == some key then some 1
  else none

/-- R93: prefixes compared by character value, the first difference deciding. -/
def prefixLe : List Byte → List Byte → Bool
  | a :: as, b :: bs => charValue a < charValue b || (charValue a == charValue b && prefixLe as bs)
  | _, _ => true

/-- R93: whether a key lies in an uncached prefix range. -/
def uncached (s : State) (key : Text) : Bool :=
  s.cache.uncached.toList.any fun r =>
    match r with
    | some r => prefixLe r.first.toList (key.take 4) && prefixLe (key.take 4) r.last.toList
    | none => false

/-- R90: whether a visit holds a private copy of the key. -/
def heldPrivately (s : State) (key : Text) : Bool :=
  s.cache.copies.toList.any fun c => c.any fun c => c.key == key && c.link.isSome

/-- R91: whether a way is eligible. -/
def eligible (e : Entry) : Bool := e.pins == 0 && e.state != .filling && e.mark == .none && e.owed == .none

/-- R91: the VICTIM CHOICE. -/
def victim (c : CacheSet) : Option (Fin 2) :=
  let e0 := eligible c.way0
  let e1 := eligible c.way1
  if e0 && c.way0.state == .invalid then some 0
  else if e1 && c.way1.state == .invalid then some 1
  else if e0 && e1 then (if c.age = 0 then some 1 else some 0)
  else if e0 then some 0
  else if e1 then some 1
  else none

/-- R92: INSTALLING a key in the chosen way. -/
def install (w : Work) (r : LinkRef) (key : Text) (y : Fin 2) (slot : Fin 16) : Work :=
  let i := setIndex key
  let e := w.st.entry i y
  let castout := if e.state == .valid && e.dirty then e.record else none
  let w := w.upd fun s =>
    let s := if castout.isSome then s.countCache fun c => { c with castouts := bump c.castouts } else s
    let s := s.updEntry i y fun _ => { state := .filling, key := some key, pins := 1 }
    (s.setAge i y).updLink r fun l => { l with target := some (.way i y) }
  w.fetch slot key (.way i y) castout

/-- R102: a private copy is made and fetched. -/
def makeCopy (w : Work) (r : LinkRef) (key : Text) (place : Fin 48) (slot : Fin 16) : Work :=
  let w := w.upd fun s =>
    let s := s.setCopy place (some ⟨key, none, 0, some r, false, false⟩)
    let s := s.updLink r fun l => { l with target := some (.copy place) }
    s.countCache fun c => { c with privateCopies := bump c.privateCopies }
  w.fetch slot key (.copy place) none

/-- R90: a miss, and whether the lookup must wait. -/
def miss (w : Work) (r : LinkRef) (key : Text) : Work × Bool :=
  let w := w.upd fun s => s.countCache fun c => { c with misses := bump c.misses }
  match freeSlot w.st with
  | none => (w, true)
  | some slot =>
      let choice :=
        if uncached w.st key || heldPrivately w.st key then none else victim w.st.cache.sets[setIndex key]
      match choice with
      | some y => (w.install r key y slot, false)
      | none =>
          match freePlace w.st with
          | some p => (w.makeCopy r key p slot, false)
          | none => (w, true)

/-- R89: one BOOKING LOOKUP, and whether it must wait. A hit on an entry under recall mark PENDING is counted and leaves the
age marker (the model's choice: log entry 41). -/
def lookupOnce (w : Work) (r : LinkRef) : Work × Bool :=
  match w.st.link? r with
  | none => (w, false)
  | some l =>
      match wayOf w.st l.key with
      | none => w.miss r l.key
      | some y =>
          let i := setIndex l.key
          let e := w.st.entry i y
          let w := w.upd fun s => s.countCache fun c => { c with hits := bump c.hits }
          let pinned := fun (s : State) => (s.updEntry i y fun e => { e with pins := e.pins + 1 }).setAge i y
          if e.state == .filling then
            (w.upd fun s => (pinned s).updLink r fun l => { l with target := some (.way i y) }, false)
          else if e.mark == .pending then (w, true)
          else
            ({ (w.upd fun s => (pinned s).updLink r fun l => { l with target := some (.way i y), state := .resolved })
               with touched := w.touched ++ [r.ctx] }, false)

/-- R89, R90: a lookup handed to the cache; one that must wait enters the wait list. -/
def lookup (w : Work) (r : LinkRef) : Work :=
  let x := w.lookupOnce r
  if x.2 then x.1.upd fun s => s.updCache fun c => { c with waitList := c.waitList ++ [r] } else x.1

/-- R95: one waiting lookup retried; it keeps its place while it must still wait. -/
def retryOne (w : Work) (r : LinkRef) : Work :=
  let x := w.lookupOnce r
  if x.2 then x.1 else x.1.upd fun s => s.updCache fun c => { c with waitList := c.waitList.filter (· != r) }

/-- R112: one record of the recall table tested; where its conditions hold its RECALL_DONE is made. -/
def checkRecall (w : Work) (r : RecallRec) : Work :=
  if w.st.cache.recalls.any (fun q => q.key == r.key && !q.done && !q.entryPart) &&
      !w.st.cache.copies.toList.any (fun c => c.any fun c => c.key == r.key && c.recalled) then
    (w.upd fun s => s.updCache fun c =>
      { c with recalls := c.recalls.map fun q => if q.key == r.key then { q with done := true } else q }).make
      (.recallDone r.key r.released)
  else w

/-- R95, R112: the end of the cache's part of an event: the recalls are tested, then the wait list is retried once if a
slot or a place was freed or a recall ended on an entry (log entry 10). -/
def finish (w : Work) : Work :=
  let w := w.st.cache.recalls.foldl checkRecall w
  if w.retry then { w.st.cache.waitList.foldl retryOne w with retry := false } else w

/-! ### Answers to fetches (R97 to R99) -/

/-- The slot whose outstanding tag is `tag`. -/
def slotOfTag (s : State) (tag : BitVec 16) : Option (Fin 16 × Fetch) :=
  (List.finRange 16).findSome? fun i =>
    match s.cache.slots[i] with
    | some f => if f.phase == .sent && f.tag == tag then some (i, f) else none
    | none => none

/-- R97 to R99: every link that names a target takes a link state; their contexts are to be tested (R53) in pool order
(log entry 40). -/
def setLinks (w : Work) (t : Target) (f : Link → Link) : Work :=
  let rs := w.st.linksWhere fun _ l => l.target == some t
  { (w.upd fun s => rs.foldl (fun s r => s.updLink r f) s) with touched := w.touched ++ rs.map (·.ctx) }

/-- A slot is freed. -/
def freeFetch (w : Work) (i : Fin 16) : Work := { (w.upd fun s => s.setSlot i none) with retry := true }

/-- R98, R99: a fetch ends without a record; its links take the state given. -/
def failFetch (w : Work) (i : Fin 16) (f : Fetch) (st : LinkState) : Work :=
  let w := w.freeFetch i
  let w := w.setLinks f.target fun l => { l with state := st, target := none }
  match f.target with
  | .way k y =>
      let refill := (w.st.entry k y).mark == .refill
      let w := w.upd fun s => s.updEntry k y fun _ => {}
      if refill then w.entryPartDone f.key else w
  | .copy p => w.discardCopy p

/-- R97: a fetch completes with a record. -/
def fill (w : Work) (i : Fin 16) (f : Fetch) (r : Record) : Work :=
  let w := (w.freeFetch i).upd fun s => s.countCache fun c => { c with fills := bump c.fills }
  match f.target with
  | .way k y =>
      if (w.st.entry k y).mark == .refill then
        ((w.upd fun s => s.updEntry k y fun e => { e with mark := .none }).fetch i f.key f.target none).entryPartDone f.key
      else
        (w.upd fun s => s.updEntry k y fun e =>
          { e with state := .valid, record := some r, dirty := false, held := 0 }).setLinks f.target
          fun l => { l with state := .resolved }
  | .copy p =>
      (w.upd fun s => s.updCopy p fun c => { c with record := some r }).setLinks f.target
        fun l => { l with state := .resolved }

/-- R86, R97, R99: a BOOKING_DATA, tested by its tag, its key and its record. -/
def bookingData (w : Work) (tag : BitVec 16) (bytes : List Byte) : Work :=
  match slotOfTag w.st tag with
  | none => w.upd fun s => s.countCache fun c => { c with lateFills := bump c.lateFills }
  | some (i, f) =>
      match if bytes.take 11 == f.key then recordOfBytes bytes else none with
      | some r => (w.fill i f r).finish
      | none => w.upd fun s => s.countCache fun c => { c with badFills := bump c.badFills }

/-- R86, R98, R99: a BOOKING_NONE. -/
def bookingNone (w : Work) (tag : BitVec 16) (key : Text) : Work :=
  match slotOfTag w.st tag with
  | none => w.upd fun s => s.countCache fun c => { c with lateFills := bump c.lateFills }
  | some (i, f) =>
      if key == f.key then
        ((w.upd fun s => s.countCache fun c => { c with noneAnswers := bump c.noneAnswers }).failFetch i f
          .noneFound).finish
      else w.upd fun s => s.countCache fun c => { c with badFills := bump c.badFills }

/-- R99: the fetch timer of a slot expires. -/
def fetchTimeout (w : Work) (i : Fin 16) : Work :=
  match w.st.cache.slots[i] with
  | some f =>
      if f.timer.isSome then
        ((w.upd fun s => s.countCache fun c => { c with fetchTimeouts := bump c.fetchTimeouts }).failFetch i f
          .failed).finish
      else w
  | none => w

/-! ### Releasing a link (R60, R101, R102, R104) -/

/-- R101, R112: a private copy is discarded; where it is being fetched its fetch is cancelled. -/
def cancelCopy (w : Work) (p : Fin 48) : Work :=
  let w :=
    match (List.finRange 16).find? fun i => w.st.cache.slots[i].any fun f => f.target == .copy p with
    | some i => (w.withdraw (.fetch i)).freeFetch i
    | none => w
  w.discardCopy p

/-- R111: a pin of an entry is dropped, with the unit its link holds. -/
def unpin (w : Work) (i : Fin 1024) (y : Fin 2) (unit : Bool) : Work :=
  (w.upd fun s => s.updEntry i y fun e =>
    { e with pins := e.pins - 1, held := if unit then e.held - 1 else e.held }).settleEntry i y

/-- R60, R101: a link is released by an abort: its lookup leaves the wait list, its pin is dropped, its private copy
discarded. The link keeps its key, source and state for the report. -/
def abortLink (w : Work) (r : LinkRef) : Work :=
  match w.st.link? r with
  | none => w
  | some l =>
      let w := w.upd fun s =>
        (s.updCache fun c => { c with waitList := c.waitList.filter (· != r) }).updLink r fun l =>
          { l with target := none, holdsUnit := false }
      match l.target with
      | none => w
      | some (.way i y) => w.unpin i y l.holdsUnit
      | some (.copy p) => w.cancelCopy p

/-- R57, R102, R104: a link's pin is dropped at its visit's commit; a copy that owes an update stays with no link. -/
def commitDrop (w : Work) (r : LinkRef) : Work :=
  match w.st.link? r with
  | none => w
  | some l =>
      let w := w.upd fun s => s.updLink r fun l => { l with target := none, holdsUnit := false }
      match l.target with
      | none => w
      | some (.way i y) => w.unpin i y l.holdsUnit
      | some (.copy p) =>
          if w.st.cache.copies[p].any (·.updateOwed) then w.upd fun s => s.updCopy p fun c => { c with link := none, held := 0 }
          else w.discardCopy p

/-! ### The commit (R104 to R106) -/

end Work

/-- R105: how a commit's changes to an entry go back, read once for the commit. -/
def State.writesThrough (s : State) : Bool :=
  match s.params.writePolicy with
  | .through => true
  | .back => false
  | .adaptive => decide (s.uplink.queue.length ≤ s.params.adaptiveThreshold)

/-- The position whose results a link of source UNIT_FWD or UNIT_AFT records; a KIOSK link has none (R104). -/
def LinkSource.position : LinkSource → Option Position
  | .unitFwd => some .fwd
  | .unitAft => some .aft
  | .kiosk => none

/-- What a commit makes of a record (R104): the record, and what its caller counts. -/
structure Committed where
  record : Record
  overrun : Bool
  appended : Nat
  listFull : Bool
deriving DecidableEq, Repr

/-- R104: the change of the table by kind; `held` counts the units held, this link's among them. -/
def commitKind (r : Record) (holdsUnit : Bool) (held : Nat) : Record × Bool :=
  match r.kind with
  | .exportFull | .emptyReturn | .importFull => ({ r with progress := .gatedIn }, false)
  | .emptyPickup =>
      if holdsUnit then ({ r with remaining := r.remaining - 1 }, false)
      else if held < r.remaining then ({ r with remaining := r.remaining - 1 }, false)
      else (r, true)

/-- R104: the changes of a commit to the record of one link. -/
def commitRecord (c : Ctx) (l : Link) (r : Record) (held : Nat) : Committed :=
  let k := commitKind r l.holdsUnit held
  match l.source.position with
  | none => ⟨k.1, k.2, 0, false⟩
  | some pos =>
      let marks := ((c.damage.get pos).map (·.toAppend)).getD []
      let fit := marks.take (Config.maxPriorMarks - r.prior.length)
      ⟨{ k.1 with recorded := c.sealChecks.get pos, prior := r.prior ++ fit }, k.2, fit.length,
        decide (fit.length < marks.length)⟩

namespace Work

/-- R105: a commit's changes to an entry are returned. -/
def returnEntry (w : Work) (i : Fin 1024) (y : Fin 2) (through changed : Bool) : Work :=
  let e := w.st.entry i y
  if e.mark == .pending || (changed && through) then
    if e.owed == .none then (w.upd fun s => s.updEntry i y fun e => { e with owed := .update }).make (.update i y) else w
  else if changed then w.upd fun s => s.updEntry i y fun e => { e with dirty := true }
  else w

end Work

namespace State

/-- R106: the changes to a locked record are discarded. -/
def discardCommit (s : State) (r : LinkRef) : State :=
  (s.countCache fun c => { c with lockedDiscards := bump c.lockedDiscards }).updCtx r.ctx fun c =>
    { c with flags := { c.flags with lockedUpdateDiscarded := true } }

/-- R104: the changes of a commit written into the target, the link and the context. -/
def applyCommit (s : State) (r : LinkRef) (l : Link) (t : Target) (k : Committed) : State :=
  let s := s.setRecord t k.record
  let s := if l.holdsUnit then s.setHeld t (s.targetHeld t - 1) else s
  let s := s.updLink r fun l => { l with holdsUnit := false }
  let s := if k.overrun then s.countCache fun c => { c with pickupOverruns := bump c.pickupOverruns } else s
  s.updCtx r.ctx fun c =>
    let c := if k.listFull then { c with flags := { c.flags with damageListFull := true } } else c
    match l.source.position with
    | some pos =>
        { c with damage := c.damage.put pos ((c.damage.get pos).map fun d => { d with appended := k.appended }) }
    | none => c

end State

namespace Work

/-- R105: a commit's changes are returned to the gate server; a private copy's always (R102). -/
def returnCommit (w : Work) (t : Target) (through changed : Bool) : Work :=
  match t with
  | .way i y => w.returnEntry i y through changed
  | .copy p => (w.upd fun s => s.updCopy p fun c => { c with updateOwed := true }).make (.copyUpdate p)

/-- R104 to R106: the commit of one RESOLVED link of a visit decided ADMIT or INSPECT. A locked EMPTY_PICKUP record with no
unit left counts no pickup overrun (the model's reading: log entry 48). -/
def commitLink (through : Bool) (w : Work) (r : LinkRef) : Work :=
  match w.st.link? r with
  | none => w
  | some l =>
      match l.target, w.st.linkRecord l with
      | some t, some rec =>
          if rec.locked then w.upd fun s => s.discardCommit r
          else
            let k := commitRecord (w.st.ctx r.ctx) l rec (w.st.targetHeld t)
            (w.upd fun s => s.applyCommit r l t k).returnCommit t through (!(k.overrun && l.source == .kiosk))
      | _, _ => w

/-- The links of a context, in link order. -/
def refsOf (s : State) (id : CtxId) : List LinkRef := (List.range (s.ctx id).links.length).map fun k => ⟨id, k⟩

/-- R57, R104: the cache's part of a commit: the writes in link order, as R104 says; that the pins drop after all of them, and in
link order, is the model's choice (DESIGN CHOICE: log entry 14). -/
def commit (w : Work) (id : CtxId) : Work :=
  let d := (w.st.ctx id).decision
  let through := w.st.writesThrough
  let rs := refsOf w.st id
  let w := if d == some .admitted || d == some .inspect then rs.foldl (commitLink through) w else w
  rs.foldl commitDrop w

/-- R60, R101: the cache's part of an abort. That the links of the visit are released in link order, which orders two write-backs
made at their last pins (R111), is the model's choice (DESIGN CHOICE: log entry 13). -/
def abort (w : Work) (id : CtxId) : Work := (refsOf w.st id).foldl abortLink w

end Work

/-! ### Units held (R103) -/

namespace State

/-- R103: the unit of one link. -/
def takeUnit (s : State) (r : LinkRef) : State :=
  match s.link? r with
  | none => s
  | some l =>
      match l.target, s.linkRecord l with
      | some t, some rec =>
          if rec.kind == .emptyPickup && !l.holdsUnit && decide (s.targetHeld t < rec.remaining) then
            (s.setHeld t (s.targetHeld t + 1)).updLink r fun l => { l with holdsUnit := true }
          else s
      | _, _ => s

/-- R103, R163: a unit taken for each RESOLVED EMPTY_PICKUP link that holds none, where one is left. -/
def takeUnits (s : State) (id : CtxId) : State := (Work.refsOf s id).foldl takeUnit s

/-- R103, R164: the unit of one link given back. -/
def releaseUnit (s : State) (r : LinkRef) : State :=
  match s.link? r with
  | none => s
  | some l =>
      match l.target with
      | some t =>
          if l.holdsUnit then (s.setHeld t (s.targetHeld t - 1)).updLink r fun l => { l with holdsUnit := false } else s
      | none => s

def releaseUnits (s : State) (id : CtxId) : State := (Work.refsOf s id).foldl releaseUnit s

end State

/-! ### Recalls and FLUSH (R107 to R112) -/

namespace Work

/-- R112: the recall's act on one private copy held by a visit. -/
def recallCopy (w : Work) (key : Text) (p : Fin 48) : Work :=
  match w.st.cache.copies[p] with
  | none => w
  | some c =>
      match c.link with
      | none => w
      | some r =>
          if c.key != key then w
          else if (w.st.ctx r.ctx).state == .lookup then
            (w.upd fun s => s.updLink r fun l => { l with state := .pending, target := none }).cancelCopy p
          else w.upd fun s => s.updCopy p fun c => { c with recalled := true }

/-- R109 to R111: the recall's act on the entry that holds the key. -/
def recallEntry (w : Work) (key : Text) (y : Fin 2) : Work :=
  let i := setIndex key
  if (w.st.entry i y).state == .filling then
    if w.st.cache.slots.toList.any fun f => f.any fun f => f.target == .way i y && f.phase == .sent then
      w.upd fun s => s.updEntry i y fun e => { e with mark := .refill }
    else w.entryPartDone key
  else
    let rs := w.st.linksWhere fun c l => c.state == .lookup && l.target == some (.way i y)
    let w := w.upd fun s => rs.foldl (fun s r =>
      (s.updLink r fun l => { l with state := .pending, target := none }).updEntry i y fun e =>
        { e with pins := e.pins - 1 }) s
    (w.upd fun s => s.updEntry i y fun e => { e with mark := .pending }).settleEntry i y

/-- R111, R112: the links of visits in LOOKUP that a recall of the key returns to PENDING. -/
def returned (s : State) (key : Text) : List LinkRef :=
  s.linksWhere fun c l =>
    c.state == .lookup && l.key == key &&
    match l.target with
    | some (.way i y) => (s.entry i y).state == .valid
    | some (.copy _) => true
    | none => false

/-- R108: where the key's copies are: whether any is held. -/
def recallFinds (s : State) (key : Text) : Bool :=
  (wayOf s key).isSome || heldPrivately s key ||
  s.cache.slots.toList.any fun f => f.any fun f => f.castout.any (·.key == key)

/-- R108 to R112: a recall taken: the copies are acted on, the recalls tested, the wait list retried, and the returned
links looked up anew (log entry 11). -/
def takeRecall (w : Work) (key : Text) : Work :=
  let back := returned w.st key
  let way := wayOf w.st key
  let w := w.upd fun s => s.updCache fun c =>
    { c with
      recalls := c.recalls ++ [⟨key, recallFinds s key, way.isSome, false⟩]
      counters := { c.counters with recalls := bump c.counters.recalls } }
  let w := match way with | some y => w.recallEntry key y | none => w
  let w := (List.finRange 48).foldl (fun w p => w.recallCopy key p) w
  back.foldl lookup w.finish

/-- R107: one entry of a FLUSH. -/
def flushEntry (w : Work) (i : Fin 1024) (y : Fin 2) : Work :=
  let e := w.st.entry i y
  if e.state == .valid && e.dirty && e.owed == .none then
    (w.upd fun s => s.updEntry i y fun e => { e with owed := .writeback }).make (.writeback i y)
  else w

/-- R107: a FLUSH. -/
def flush (w : Work) : Work :=
  (((List.finRange 1024).foldl (fun w i => (w.flushEntry i 0).flushEntry i 1) w).make .flushDone).finish

/-- R181: the cache's turn in the class A wait order: the oldest owed report is accepted, and the cache takes a new place
at the end while it owes more. -/
def turn (w : Work) : Work :=
  match w.st.cache.sendOrder with
  | [] => w
  | o :: rest =>
      let w := w.upd fun s => s.updCache fun c => { c with sendOrder := rest }
      let w := w.acceptOwed o
      (w.upd fun s => if s.cache.sendOrder.isEmpty then s else s.wait .cache).finish

end Work

end Sys2Proof.Machine
end

