-- ==== Sys2Proof/Machine/Slots.lean ====
section
/-! DEFINITION. The slot unit (chapter 6): the window table by day, the roll and re-base, the classification of an
arrival, and the reservation, its commit and its release. -/

namespace Sys2Proof.Machine

/-- R118: a day of the table. -/
inductive DayIx where
  | yesterday | today | tomorrow
deriving DecidableEq, Repr

namespace State

def dayTable (s : State) : DayIx → DayTable
  | .yesterday => s.slot.yesterday
  | .today => s.slot.today
  | .tomorrow => s.slot.tomorrow

def updDay (s : State) (i : DayIx) (f : DayTable → DayTable) : State :=
  match i with
  | .yesterday => s.updSlot fun u => { u with yesterday := f u.yesterday }
  | .today => s.updSlot fun u => { u with today := f u.today }
  | .tomorrow => s.updSlot fun u => { u with tomorrow := f u.tomorrow }

def updWindow (s : State) (i : DayIx) (w : Fin 96) (f : Window → Window) : State :=
  s.updDay i fun t => { t with windows := upd t.windows w f }

/-- R118: the place of a day in the table, where the table holds it. -/
def dayIx (s : State) (d : BitVec 16) : Option DayIx :=
  if s.slot.yesterday.day = some d then some .yesterday
  else if s.slot.today.day = some d then some .today
  else if s.slot.tomorrow.day = some d then some .tomorrow
  else none

/-- A window of a day, where the table holds it. -/
def windowPlace (s : State) (d : BitVec 16) (w : Nat) : Option (DayIx × Fin 96) :=
  if h : w < 96 then (s.dayIx d).map fun i => (i, ⟨w, h⟩) else none

def windowAt (s : State) (p : DayIx × Fin 96) : Window := (s.dayTable p.1).windows[p.2]

end State

/-- R116: the day of an absolute minute. -/
def dayOfMinute (a : Nat) : BitVec 16 := BitVec.ofNat 16 (a / 1440)

/-- R124: the window of an absolute minute. -/
def windowOfMinute (a : Nat) : Nat := a % 1440 / 15

/-! ### The roll and the re-base (R121, R122) -/

/-- R122: the table that a day takes: the one of the old three that has it, or a new one. So a clock set back by two days
keeps the old yesterday as tomorrow, by the rule's words against its table's last row (log entry 42). -/
def SlotUnit.kept (u : SlotUnit) (d : BitVec 16) : DayTable :=
  if u.yesterday.day = some d then u.yesterday
  else if u.today.day = some d then u.today
  else if u.tomorrow.day = some d then u.tomorrow
  else DayTable.fresh (some d)

/-- R121: a reservation on a day that the table holds no more is marked lost. -/
def Ctx.markLost (held : BitVec 16 → Bool) (c : Ctx) : Ctx :=
  { c with reservation := c.reservation.map fun r => if held r.day then r else { r with lost := true } }

namespace State

/-- R121, R122: the table comes to hold the days about `d`: kept records move, others are discarded, and the
reservations on discarded records are marked lost. A roll is the re-base to the next day. -/
def rebase (s : State) (d : BitVec 16) : State :=
  let s := s.updSlot fun u =>
    { u with yesterday := u.kept (d - 1), today := u.kept d, tomorrow := u.kept (d + 1) }
  { s with pool := mapAll s.pool (Ctx.markLost fun x => x = d - 1 || x = d || x = d + 1) }

/-- R118: the records take their days when the clock becomes RUNNING. -/
def takeDays (s : State) (d : BitVec 16) : State :=
  s.updSlot fun u =>
    { u with
      yesterday := { u.yesterday with day := some (d - 1) }
      today := { u.today with day := some d }
      tomorrow := { u.tomorrow with day := some (d + 1) } }

end State

/-! ### Classification (R123 to R125) -/

/-- The places a window's counts hold. -/
def Window.taken (w : Window) : Nat := w.admitted + w.reserved

/-- R125: an ON_TIME truck at its booked window. -/
def State.classOnTime (s : State) (d : BitVec 16) (w : Nat) : SlotResult × Option (BitVec 16 × Nat) :=
  match s.windowPlace d w with
  | none => (.closed, none)
  | some p =>
      let x := s.windowAt p
      if !x.isOpen then (.closed, none)
      else if x.taken < x.max then (.onTime, some (d, w))
      else (.full, none)

/-- R125: any other truck at its current window. -/
def State.classOther (s : State) (a : Nat) (result : SlotResult) : SlotResult × Option (BitVec 16 × Nat) :=
  match s.windowPlace (dayOfMinute a) (windowOfMinute a) with
  | none => (.missed, none)
  | some p =>
      let x := s.windowAt p
      if x.isOpen && decide (x.taken < x.openLimit) then (result, some (dayOfMinute a, windowOfMinute a))
      else (.missed, none)

/-- The record of the first RESOLVED link in link order (R123, R154). -/
def State.firstRecord (s : State) (c : Ctx) : Option Record := c.links.findSome? s.linkRecord

/-- R123 to R125: the slot result of a visit and the reservation offered. -/
def State.classify (s : State) (c : Ctx) (provisional : Bool) : SlotResult × Option (BitVec 16 × Nat) :=
  match s.slot.clock, c.arrival with
  | none, _ => (.unchecked, none)
  | _, .unset => (.unchecked, none)
  | some _, .at a =>
      if provisional then (.unchecked, none)
      else
        match s.firstRecord c with
        | none => (.none, none)
        | some r =>
            match r.slot with
            | none => s.classOther a .walkIn
            | some (d, w) =>
                let diff := minuteDiff a (absMinute d (15 * w))
                if -(s.params.earlyTolerance : Int) ≤ diff ∧ diff < 15 + (s.params.lateTolerance : Int) then
                  s.classOnTime d w
                else s.classOther a .reslotted

/-- R130: the results that the refusals counter counts. -/
def SlotResult.refuses : SlotResult → Bool
  | .full | .missed | .closed => true
  | .unchecked | .none | .onTime | .reslotted | .walkIn => false

namespace State

/-! ### Reservations (R126 to R128) -/

/-- R126: the reservation offered is taken. -/
def reserve (s : State) (id : CtxId) (d : BitVec 16) (w : Nat) : State :=
  let s := match s.windowPlace d w with
    | some p => s.updWindow p.1 p.2 fun x => { x with reserved := x.reserved + 1 }
    | none => s
  s.updCtx id fun c => { c with reservation := some ⟨d, w, false⟩, reserved := some (d, w) }

/-- The place of the window a reservation names, where the table holds it and it is not lost. -/
def reservedPlace (s : State) (r : Reservation) : Option (DayIx × Fin 96) :=
  if r.lost then none else s.windowPlace r.day r.window

/-- R128: the reservation of a visit is given back. -/
def releaseSlot (s : State) (id : CtxId) : State :=
  match (s.ctx id).reservation with
  | none => s
  | some r =>
      let s := s.updCtx id fun c => { c with reservation := none }
      match s.reservedPlace r with
      | some p => s.updWindow p.1 p.2 fun x => { x with reserved := x.reserved - 1 }
      | none => s

/-- R127: the window in which an override admission is counted. -/
def overridePlace (s : State) (c : Ctx) : Option (DayIx × Fin 96) :=
  match s.slot.clock, c.exit with
  | some _, some (.at m) => s.windowPlace (dayOfMinute m) (windowOfMinute m)
  | _, _ => none

/-- R127: the slot unit's part of a commit. -/
def commitSlot (s : State) (id : CtxId) : State :=
  let c := s.ctx id
  match c.reservation with
  | some r =>
      let s := s.updCtx id fun c => { c with reservation := none }
      match s.reservedPlace r with
      | some p => s.updWindow p.1 p.2 fun x =>
          { x with reserved := x.reserved - 1, admitted := min (x.admitted + 1) 255 }
      | none => s.countSlot fun k => { k with commitsLost := bump k.commitsLost }
  | none =>
      if c.flags.overrideAdmission then
        match s.overridePlace c with
        | some p => s.updWindow p.1 p.2 fun x => { x with overrides := min (x.overrides + 1) 255 }
        | none => s.countSlot fun k => { k with overridesLost := bump k.overridesLost }
      else s

end State

end Sys2Proof.Machine
end

