-- ==== Sys2Proof/Machine/Checks.lean ====
section
/-! DEFINITION. The check unit (chapter 7): seal results, the raw mark lists, the transform from lane to container
coordinates, and the grade. -/

namespace Sys2Proof.Machine

/-! ### Seals (R131 to R133) -/

/-- R132: the confusable pairs, in either order: O 0, I 1, B 8, S 5, Z 2, G 6. -/
def confusable (a b : Byte) : Bool :=
  let pair (x y : Byte) : Bool := (a == x && b == y) || (a == y && b == x)
  pair 0x4F 0x30 || pair 0x49 0x31 || pair 0x42 0x38 || pair 0x53 0x35 || pair 0x5A 0x32 || pair 0x47 0x36

/-- R132: a value near a declared seal. -/
def nearSeal (v d : Text) : Bool :=
  v.length == d.length &&
  match (v.zip d).filter (fun x => x.1 != x.2) with
  | [x] => confusable x.1 x.2
  | _ => false

/-- R131: the value read from a seal field, none where it is unread. -/
def ConsField.readValue (f : ConsField) : Option Text :=
  match f.state with
  | .settled | .weak | .contested => f.latched
  | .open | .unresolved | .absent => none

/-- R132: the seal result of an EXPORT_FULL booking. -/
def exportSeal (declared : List Text) (read : Option Text) : SealResult :=
  match read with
  | some v =>
      if declared.contains v then .ok
      else if declared.any (nearSeal v) then .near
      else .mismatch
  | none => if declared.isEmpty then .ok else .missing

/-- R133: the seal result of an EMPTY_RETURN booking. -/
def returnSeal (read : Option Text) : SealResult := if read.isSome then .unexpected else .ok

/-- The RESOLVED link of a position's unit field (R131, R138). -/
def Ctx.positionLink (c : Ctx) (pos : Position) : Option Link :=
  c.links.find? fun l => l.source.position == some pos && l.state == .resolved

/-- The record of a position's RESOLVED unit link (R131, R138). -/
def State.positionRecord (s : State) (c : Ctx) (pos : Position) : Option Record :=
  (c.positionLink pos).bind s.linkRecord

/-- R131 to R133: the seal check of a position. -/
def State.sealOf (s : State) (c : Ctx) (pos : Position) : Option SealCheck :=
  let read := (c.field (sealField pos)).readValue
  match s.positionRecord c pos with
  | none => none
  | some r =>
      match r.kind with
      | .exportFull => some ⟨exportSeal r.seals read, read⟩
      | .emptyReturn => some ⟨returnSeal read, read⟩
      | .importFull | .emptyPickup => none

/-- R148: what a seal result counts. -/
def countSeal (k : CheckCounters) : Option SealCheck → CheckCounters
  | some ⟨.near, _⟩ => { k with sealNear := bump k.sealNear }
  | some ⟨.unexpected, _⟩ => { k with sealUnexpected := bump k.sealUnexpected }
  | some ⟨.missing, _⟩ => { k with sealMissing := bump k.sealMissing }
  | some ⟨.mismatch, _⟩ => { k with sealMismatch := bump k.sealMismatch }
  | some ⟨.ok, _⟩ | none => k

/-- R150 row 8: a seal result that raises the seal reason. -/
def sealFails : Option SealCheck → Bool
  | some ⟨.missing, _⟩ | some ⟨.mismatch, _⟩ => true
  | some ⟨.near, _⟩ | some ⟨.unexpected, _⟩ | some ⟨.ok, _⟩ | none => false

/-! ### Raw marks (R135, R136) -/

/-- R136: two raw marks at the same place. -/
def samePlace (a b : RawMark) : Bool :=
  a.face == b.face && a.column == b.column && a.row == b.row && a.kind == b.kind

/-- R136: a mark added to a raw mark list; the Bool says that it was dropped at a full list. -/
def RawList.add (l : RawList) (m : RawMark) : RawList × Bool :=
  if l.marks.any (samePlace m) then
    ({ l with marks := l.marks.map fun x => if samePlace m x && decide (x.severity < m.severity) then m else x }, false)
  else if l.marks.length < Config.maxRawMarks then ({ l with marks := l.marks ++ [m] }, false)
  else ({ l with overflow := true }, true)

/-- R135, R136: one mark of a DAMAGE_MARKS frame taken into the list of a position of a context. -/
def State.takeMark (id : CtxId) (pos : Position) (s : State) (m : RawMark) : State :=
  if m.severity = 0 then s.countCheck fun k => { k with marksIgnored := bump k.marksIgnored }
  else
    let r := ((s.ctx id).raw.get pos).add { m with severity := min m.severity 7 }
    let s := s.updCtx id fun c => { c with raw := c.raw.put pos r.1 }
    if r.2 then s.countCheck fun k => { k with overflows := bump k.overflows } else s

/-- R135: the marks of a frame, in the order it carries them. -/
def State.takeMarks (s : State) (id : CtxId) (pos : Position) (ms : List RawMark) : State :=
  ms.foldl (takeMark id pos) s

/-! ### Geometry and transform (R138 to R141) -/

/-- R138: the column count of a length class. -/
def columnsOf : LengthClass → Nat
  | .l20 => 5
  | .l40 | .l45 => 10

/-- R138: what the layout holds of a position. -/
def Ctx.layoutOf (c : Ctx) (pos : Position) : Option (LengthClass × DoorEnd) :=
  match c.layout, pos with
  | some l, .fwd => l.fwd
  | some l, .aft => l.aft
  | none, _ => none

/-- The geometry of a graded position: the column count, whether the doors stand fore, and the flags it sets. -/
structure Geometry where
  columns : Nat
  fore : Bool
  fromBooking : Bool
  assumed : Bool
deriving DecidableEq, Repr

/-- R138. -/
def geometry (held : Option (LengthClass × DoorEnd)) (record : Option Record) : Geometry :=
  match held, record with
  | some (l, .doorsAft), _ => ⟨columnsOf l, false, false, false⟩
  | some (l, .doorsFore), _ => ⟨columnsOf l, true, false, false⟩
  | some (l, .unknown), _ => ⟨columnsOf l, false, false, true⟩
  | none, some r => ⟨columnsOf r.length, false, true, true⟩
  | none, none => ⟨10, false, false, true⟩

/-- R139: the last column index of a face. -/
def lastColumn (n : Nat) : LaneFace → Nat
  | .laneLeft | .laneRight | .top => n - 1
  | .frontEnd | .rearEnd => 2

/-- R139: whether a raw mark lies beyond the grid of its face. -/
def beyondGrid (n : Nat) (m : RawMark) : Bool := decide (lastColumn n m.face < m.column) || decide (2 < m.row)

/-- R139: a raw mark brought within the grid. -/
def limitMark (n : Nat) (m : RawMark) : RawMark :=
  { m with column := min m.column (lastColumn n m.face), row := min m.row 2 }

/-- R140: a limited mark in container coordinates, by the door end of its unit. -/
def transform (n : Nat) (fore : Bool) (m : RawMark) : Mark :=
  match fore, m.face with
  | false, .laneLeft => ⟨.left, n - 1 - m.column, m.row, m.kind, m.severity⟩
  | false, .laneRight => ⟨.right, n - 1 - m.column, m.row, m.kind, m.severity⟩
  | false, .top => ⟨.roof, n - 1 - m.column, m.row, m.kind, m.severity⟩
  | false, .rearEnd => ⟨.door, m.column, m.row, m.kind, m.severity⟩
  | false, .frontEnd => ⟨.front, m.column, m.row, m.kind, m.severity⟩
  | true, .laneLeft => ⟨.right, m.column, m.row, m.kind, m.severity⟩
  | true, .laneRight => ⟨.left, m.column, m.row, m.kind, m.severity⟩
  | true, .top => ⟨.roof, m.column, 2 - m.row, m.kind, m.severity⟩
  | true, .frontEnd => ⟨.door, 2 - m.column, m.row, m.kind, m.severity⟩
  | true, .rearEnd => ⟨.front, 2 - m.column, m.row, m.kind, m.severity⟩

/-- R141: two container marks at the same place. -/
def sameSpot (a b : Mark) : Bool := a.face == b.face && a.column == b.column && a.row == b.row && a.kind == b.kind

/-- R141: a container mark merged into the list. -/
def mergeMark (l : List Mark) (m : Mark) : List Mark :=
  if l.any (sameSpot m) then
    l.map fun x => if sameSpot m x then { x with severity := max x.severity m.severity } else x
  else l ++ [m]

/-- R139 to R141: the container mark list of a position. -/
def containerMarks (g : Geometry) (raw : List RawMark) : List Mark :=
  (raw.map fun m => transform g.columns g.fore (limitMark g.columns m)).foldl mergeMark []

/-! ### Grading (R142 to R145) -/

/-- R143: a prior mark that matches a container mark. -/
def matchesPrior (m p : Mark) : Bool :=
  p.face == m.face && p.kind == m.kind && p.row == m.row &&
  decide (p.column ≤ m.column + 1) && decide (m.column ≤ p.column + 1)

/-- R143: the highest severity among the matching prior marks. -/
def priorSeverity (prior : List Mark) (m : Mark) : Option Nat :=
  (prior.filter (matchesPrior m)).foldl
    (fun a p => match a with | some x => some (max x p.severity) | none => some p.severity) none

/-- R144: the index of a kind in DAMAGE_WEIGHTS. -/
def kindIx : DamageKind → Fin 5
  | .dent => 0
  | .hole => 1
  | .crease => 2
  | .bulge => 3
  | .rust => 4

/-- R143: the cost of a mark before its weight; none for a KNOWN mark. -/
def markCost (prior : List Mark) (m : Mark) : Option Nat :=
  match priorSeverity prior m with
  | none => some m.severity
  | some p => if m.severity ≤ p + 1 then none else some (m.severity - p)

/-- R144: the running sum, held at 255. -/
def addCost (weights : Vector Nat 5) (prior : List Mark) (sum : Nat) (m : Mark) : Nat :=
  match markCost prior m with
  | none => sum
  | some k => min (sum + weights[kindIx m.kind] * k) 255

/-- R144: the grade of a container mark list. -/
def gradeOf (weights : Vector Nat 5) (prior marks : List Mark) : Nat := marks.foldl (addCost weights prior) 0

/-- R145: the damage result and the marks to append from the grade. -/
def judgeDamage (p : Params) (grade : Nat) (overflow provisional : Bool) (fresh : List Mark) : DamageCheck :=
  let records := decide (p.recordThreshold ≤ grade)
  { result :=
      if decide (p.inspectThreshold ≤ grade) || overflow then .inspect else if records then .recorded else .minor
    grade := grade
    toAppend := if records && !provisional then fresh else [] }

/-- R142: a position is graded where its raw list holds a mark or has overflowed. -/
def RawList.graded (l : RawList) : Bool := !l.marks.isEmpty || l.overflow

namespace State

/-- R142 to R145: the damage check of one position, written into the context with its flags and counters. A position that
is not graded takes DAMAGE_NONE, grade 0 and no marks to append. -/
def gradePosition (s : State) (id : CtxId) (pos : Position) (provisional : Bool) : State :=
  let c := s.ctx id
  let raw := c.raw.get pos
  if raw.graded then
    let rec? := s.positionRecord c pos
    let g := geometry (c.layoutOf pos) rec?
    let prior := if provisional then [] else match rec? with | some r => r.prior | none => []
    let marks := containerMarks g raw.marks
    let d := judgeDamage s.params (gradeOf s.check.weights prior marks) raw.overflow provisional
      (marks.filter fun m => (markCost prior m).isSome)
    let s := s.updCtx id fun c =>
      { c with
        damage := c.damage.put pos (some d)
        flags := { c.flags with
          lengthFromBooking := c.flags.lengthFromBooking || g.fromBooking
          orientationAssumed := c.flags.orientationAssumed || g.assumed } }
    s.countCheck fun k =>
      { k with
        clamps := bumpBy k.clamps (raw.marks.filter (beyondGrid g.columns)).length
        inspections := if d.result = .inspect then bump k.inspections else k.inspections }
  else s.updCtx id fun c => { c with damage := c.damage.put pos (some {}) }

/-- R131 to R134: the seal result of one position, written into the context and counted. -/
def checkSeal (s : State) (id : CtxId) (pos : Position) : State :=
  let r := s.sealOf (s.ctx id) pos
  (s.updCtx id fun c => { c with sealChecks := c.sealChecks.put pos r }).countCheck fun k => countSeal k r

/-- R149 part 3: the check unit's part of the decision step. -/
def runChecks (s : State) (id : CtxId) (provisional : Bool) : State :=
  let s := (s.checkSeal id .fwd).checkSeal id .aft
  (s.gradePosition id .fwd provisional).gradePosition id .aft provisional

end State

end Sys2Proof.Machine
end

