-- ==== Sys2Proof/Machine/Destinations.lean ====
section
/-! DEFINITION. The destination unit (chapter 8): the decision step, the destination chain, tokens and the transit list. -/

namespace Sys2Proof.Machine

/-! ### The destination chain (R154 to R156) -/

/-- R155: whether a destination accepts a booking kind. -/
def Dest.accepts (d : Dest) : BookingKind → Bool
  | .exportFull => d.acceptsExportFull
  | .emptyReturn => d.acceptsEmptyReturn
  | .importFull => d.acceptsImportFull
  | .emptyPickup => d.acceptsEmptyPickup

/-- R155: whether a destination can take a visit. -/
def Dest.canTake (d : Dest) (kind : Option BookingKind) : Bool :=
  d.isOpen &&
  (d.kind != .yard || match kind with | some k => d.accepts k | none => true) &&
  (d.capacity == 0 || decide (d.inTransit < d.capacity))

/-- R154: the place of a booking kind in DEFAULTS. -/
def defaultIx : BookingKind → Fin 6
  | .exportFull => 0
  | .emptyReturn => 1
  | .importFull => 2
  | .emptyPickup => 3

namespace State

/-- R155: the chain from a destination, with `n` passings left. -/
def chain (s : State) (kind : Option BookingKind) : Nat → Fin 64 → Option (Fin 64)
  | 0, d => if (s.destAt d).canTake kind then some d else none
  | n + 1, d =>
      if (s.destAt d).canTake kind then some d
      else
        match (s.destAt d).alternate with
        | some a => s.chain kind n a
        | none => none

/-- R154: the booking kind of a visit. -/
def bookingKind (s : State) (c : Ctx) : Option BookingKind := (s.firstRecord c).map (·.kind)

/-- R154: the start of the chain of an ADMIT; none for a visit with no RESOLVED link. -/
def admitStart (s : State) (c : Ctx) : Option (Fin 64) :=
  (s.firstRecord c).map fun r =>
    match r.hint with
    | some h => h
    | none => s.dest.defaults[defaultIx r.kind]

/-- R154: the start of the chain of an INSPECT. -/
def inspectStart (s : State) : Fin 64 := s.dest.defaults[4]

/-- R154: the start of the chain of a TURN_OUT. -/
def troubleStart (s : State) : Fin 64 := s.dest.defaults[5]

/-- R155: the destination the chain finds for an ADMIT or an INSPECT. -/
def findDest (s : State) (c : Ctx) (d : Decision) : Option (Fin 64) :=
  match d with
  | .admitted => (s.admitStart c).bind (s.chain (s.bookingKind c) Config.chainSteps)
  | .inspect => s.chain (s.bookingKind c) Config.chainSteps s.inspectStart
  | .turnOut | .refer => none

/-! ### The transit list (R157 to R161) -/

def updDestAt (s : State) (d : Fin 64) (f : Dest → Dest) : State :=
  s.updDest fun u => { u with dests := upd u.dests d f }

/-- R159 to R161: the transit entry reference of a visit still held becomes none. -/
def forgetTransit (s : State) (visit : BitVec 16) : State :=
  { s with pool := mapAll s.pool fun c =>
      if c.state ≠ .free ∧ c.visit = visit then { c with inTransit := false } else c }

/-- An entry leaves the transit list: the count of its destination falls by one and its visit's reference becomes none. -/
def removeTransit (s : State) (e : TransitEntry) : State :=
  let s := s.updDest fun u => { u with transit := u.transit.filter (·.visit != e.visit) }
  (s.updDestAt e.dest fun d => { d with inTransit := d.inTransit - 1 }).forgetTransit e.visit

/-- R161: a displacement. -/
def displace (s : State) (e : TransitEntry) : State :=
  ((s.removeTransit e).offerB (.transitDisplaced e)).countDest fun k =>
    { k with transitDisplaced := bump k.transitDisplaced }

/-- The transit entry of a visit number. -/
def transitOf (s : State) (visit : BitVec 16) : Option TransitEntry := s.dest.transit.find? (·.visit == visit)

/-- R157, R158, R161: a token at a destination with its transit entry, the expiry unset. -/
def takeToken (s : State) (id : CtxId) (d : Fin 64) : State :=
  let visit := (s.ctx id).visit
  let s := match s.transitOf visit with | some e => s.displace e | none => s
  let s :=
    if Config.transitListSize ≤ s.dest.transit.length then
      match s.dest.transit with
      | e :: _ => s.displace e
      | [] => s
    else s
  let s := s.updDest fun u => { u with transit := u.transit ++ [⟨visit, d, none⟩] }
  (s.updDestAt d fun x => { x with inTransit := x.inTransit + 1 }).updCtx id fun c => { c with inTransit := true }

/-- R60: the transit entry and token of a visit are given back by an abort. -/
def releaseToken (s : State) (id : CtxId) : State :=
  let c := s.ctx id
  if c.inTransit then match s.transitOf c.visit with | some e => s.removeTransit e | none => s
  else s

/-- R57, R158: the destination unit's part of a commit. -/
def commitTransit (s : State) (id : CtxId) : State :=
  let c := s.ctx id
  match c.inTransit, c.exit with
  | true, some (.at m) => s.updDest fun u =>
      { u with transit := u.transit.map fun e =>
          if e.visit = c.visit then { e with expiry := some (minuteAdd m s.params.transitTimeout) } else e }
  | _, _ => s

/-- R159: one entry at an announced minute. -/
def expireEntry (minute : Nat) (s : State) (e : TransitEntry) : State :=
  match e.expiry with
  | some x =>
      if minuteDiff x minute ≤ 0 then
        ((s.removeTransit e).offerB (.transitExpired e)).countDest fun k => { k with transitExpired := bump k.transitExpired }
      else s
  | none => s

/-- R159: a minute announced to the destination unit. -/
def announce (s : State) (minute : Nat) : State := s.dest.transit.foldl (expireEntry minute) s

/-- A destination written into a visit, with its token and transit entry (R157, R163, R164). -/
def sendTo (s : State) (id : CtxId) (d : Fin 64) : State :=
  (s.updCtx id fun c => { c with destination := some d }).takeToken id d

/-- R156: the trouble route of a TURN_OUT. -/
def turnOutRoute (s : State) (id : CtxId) : State :=
  match s.chain (s.bookingKind (s.ctx id)) Config.chainSteps s.troubleStart with
  | some d => s.sendTo id d
  | none =>
      (s.updCtx id fun c => { c with destination := some s.troubleStart }).countDest fun k =>
        { k with tokensWithout := bump k.tokensWithout }

end State

/-! ### The decision table (R150 to R152) -/

/-- Whether a field stands as settled: SETTLED or WEAK (R150, R78). -/
def ConsField.good (f : ConsField) : Bool := f.state == .settled || f.state == .weak

/-- R150 row 1: whether the unit field of a position fails it. -/
def Ctx.unitFails (c : Ctx) (pos : Position) : Bool := c.expects pos && !(c.field (unitField pos)).good

/-- R150: row 1. -/
def Ctx.row1 (c : Ctx) : Bool :=
  !(c.plate.good || c.tag.good) || c.unitFails .fwd || c.unitFails .aft ||
  [c.plate, c.tag, c.unitFwd, c.unitAft, c.sealFwd, c.sealAft].any (fun f => f.state == .contested) ||
  c.layout.isNone || c.layoutConflict || c.links.isEmpty

/-- R150: row 2. -/
def Ctx.row2 (c : Ctx) : Bool := c.links.any (·.state == .failed)

/-- R152: a PROVISIONAL admission. -/
def State.provisional (s : State) (c : Ctx) : Bool :=
  !c.row1 && c.row2 && !s.uplink.serverPresent && s.params.offlineProvisional

/-- A pick-up kind (R85). -/
def BookingKind.pickup : BookingKind → Bool
  | .importFull | .emptyPickup => true
  | .exportFull | .emptyReturn => false

/-- R151: row 5 on one RESOLVED link and its record. -/
def Ctx.mismatch (c : Ctx) (l : Link) (r : Record) : Bool :=
  match l.source.position with
  | some pos =>
      r.kind.pickup ||
      match c.layoutOf pos with
      | some (len, _) => len != r.length
      | none => false
  | none => !r.kind.pickup

namespace State

/-- Whether a RESOLVED link satisfies a test with its record. -/
def anyRecord (s : State) (c : Ctx) (p : Link → Record → Bool) : Bool :=
  c.links.any fun l => match s.linkRecord l with | some r => p l r | none => false

/-- R151: row 6. -/
def exhausted (s : State) (c : Ctx) : Bool :=
  s.anyRecord c fun l r =>
    r.kind == .emptyPickup && match l.target with | some t => decide (r.remaining ≤ s.targetHeld t) | none => false

/-- R150: the damage part of row 8. -/
def damageFails (c : Ctx) : Bool := c.damage.fwd.any (·.result == .inspect) || c.damage.aft.any (·.result == .inspect)

/-- R150: the reasons that rows 1 to 8 gather. -/
def reasonsOf (s : State) (c : Ctx) : Reasons where
  identity := c.row1
  bookingUnavailable := c.row2
  noBooking := c.links.any (·.state == .noneFound) || s.anyRecord c fun _ r => r.progress == .cancelled
  hold := s.anyRecord c fun _ r => r.locked
  mismatch := s.anyRecord c c.mismatch
  exhausted := s.exhausted c
  slot := c.slotResult.any SlotResult.refuses
  sealFail := sealFails c.sealChecks.fwd || sealFails c.sealChecks.aft
  damage := damageFails c

/-- R150: the decision that rows 1 to 8 give. -/
def decisionOf (r : Reasons) (slot : Option SlotResult) : Decision :=
  if r.identity || r.bookingUnavailable then .refer
  else if r.noBooking then .turnOut
  else if r.hold || r.mismatch then .refer
  else if r.exhausted then .turnOut
  else if r.slot then (if slot = some .closed then .refer else .turnOut)
  else if r.sealFail || r.damage then .inspect
  else .admitted

/-! ### The decision step (R149) -/

/-- R149 part 4: the classification, written and counted; the reservation it offers. -/
def classifyStep (s : State) (id : CtxId) (provisional : Bool) : State × Option (BitVec 16 × Nat) :=
  let r := s.classify (s.ctx id) provisional
  let s := s.updCtx id fun c => { c with slotResult := some r.1 }
  (if r.1.refuses then s.countSlot fun k => { k with refusals := bump k.refusals } else s, r.2)

/-- R126: the reservation offered, taken. -/
def takeOffer (s : State) (id : CtxId) : Option (BitVec 16 × Nat) → State
  | some (d, w) => s.reserve id d w
  | none => s

/-- R152: parts 5 to 7 of a PROVISIONAL admission. -/
def decideProvisional (s : State) (id : CtxId) : State :=
  let bad := damageFails (s.ctx id)
  let s := s.updCtx id fun c =>
    { c with
      decision := some (if bad then .inspect else .admitted)
      reasons := { bookingUnavailable := true, damage := bad }
      flags := { c.flags with provisional := true } }
  let s := s.countDest fun k => { k with provisionals := bump k.provisionals }
  (s.sendTo id (if bad then s.inspectStart else s.params.provisionalDest)).takeUnits id

/-- R149 parts 5 to 7, outside a PROVISIONAL admission. -/
def decideByTable (s : State) (id : CtxId) (offer : Option (BitVec 16 × Nat)) : State :=
  let reasons := s.reasonsOf (s.ctx id)
  let first := decisionOf reasons (s.ctx id).slotResult
  let s := s.updCtx id fun c => { c with decision := some first, reasons := reasons }
  match first with
  | .turnOut => s.turnOutRoute id
  | .refer => (s.takeUnits id).takeOffer id offer
  | .admitted | .inspect =>
      match s.findDest (s.ctx id) first with
      | some d => ((s.sendTo id d).takeUnits id).takeOffer id offer
      | none =>
          let s := s.updCtx id fun c =>
            { c with decision := some .refer, reasons := { c.reasons with noDestination := true } }
          let s := s.countDest fun k => { k with noDestination := bump k.noDestination }
          (s.takeUnits id).takeOffer id offer

/-- R53, R149: the decision step of a context, up to the decision minute. -/
def decisionStep (s : State) (id : CtxId) : State :=
  let s := s.updCtx id (Ctx.finalise s.params)
  let prov := s.provisional (s.ctx id)
  let s := s.runChecks id prov
  let x := s.classifyStep id prov
  let s := if prov then x.1.decideProvisional id else x.1.decideByTable id x.2
  s.updCtx id fun c => { c with decisionMinute := some s.now }

end State

end Sys2Proof.Machine
end

