-- ==== Sys2Proof/Machine/Ports.lean ====
section
/-! DEFINITION. What the segment ports do for the other blocks: the state of a segment and its report (R4), the error
window (R5, R6), and taking a frame for a station (R7). -/

namespace Sys2Proof.Machine.State

/-- R4: a change of segment state, reported with the window count of that moment. -/
def enterSeg (s : State) (seg : Seg) (entered : SegState) : State :=
  let p := s.port seg
  (s.updPort seg fun p => { p with state := entered }).offerB
    (.segmentEvent seg (some p.state) entered p.windowCount)

/-- R5, R6: a rise of the window count, which moves a segment in UP to IMPAIRED above a threshold other than 0. -/
def windowRise (s : State) (seg : Seg) : State :=
  let s := s.updPort seg fun p => { p with windowCount := bump p.windowCount }
  let t := s.params.segThreshold[seg]
  if (s.port seg).state = .up ∧ t ≠ 0 ∧ t < (s.port seg).windowCount.toNat then s.enterSeg seg .impaired else s

/-- R7: whether the station map has a place for frames to the station. -/
def reachable (s : State) (seg : Seg) (addr : Addr) : Bool :=
  let e := s.station (stationIx seg addr)
  match e.state with
  | .empty => false
  | .learn => true
  | .frozen => !e.mismatched

/-- R7: a channel hands a frame to a segment port, which returns its sequence, or none where it refuses the frame. -/
def handOff (s : State) (seg : Seg) (addr : Addr) (kind : TxKind) (payload : List Byte) :
    State × Option (BitVec 4) :=
  let p := s.port seg
  if p.state = .down ∨ s.reachable seg addr = false ∨ Config.txQueueSize ≤ p.txQueue.length then
    (s.countPort seg fun c => { c with transmitDrops := bump c.transmitDrops }, none)
  else
    let q := p.txSeq[addr]
    (s.updPort seg fun p =>
      { p with txQueue := p.txQueue ++ [⟨addr, kind, q, payload⟩], txSeq := p.txSeq.set addr (q + 1) }, some q)

end Sys2Proof.Machine.State
end

