-- ==== Sys2Proof/Machine/Signs.lean ====
section
/-! DEFINITION. The sign and ticket channels (chapter 9): composing a page, the sign channel, and the ticket queue. -/

namespace Sys2Proof.Machine

/-! ### Composing a page (R167 to R171) -/

/-- R171: a line of a layer is transparent. -/
def lineClear (transparency : Byte) (line : Text) : Bool := line.all (· == 0x20) || line.all (· == transparency)

/-- R171: a value placed on a line. -/
def lineOf (t : Text) : Text := padTo 20 t

/-- A line of spaces. -/
def blankLine : Text := List.replicate 20 0x20

/-- R171: characters outside the text set are sent as spaces. -/
def shown (line : Text) : Text := line.map fun b => if isTextChar b then b else 0x20

/-- R171: one line of the page from the three layers. -/
def chooseLine (transparency : Byte) (alert visit base : Text) : Text :=
  if !lineClear transparency alert then shown alert
  else if !lineClear transparency visit then shown visit
  else if !lineClear transparency base then shown base
  else blankLine

/-- R167: the phrase number of a lane mode. -/
def modePhrase : LaneMode → Nat
  | .open => 240
  | .closed => 241
  | .closing => 242
  | .manual => 243
  | .suspended => 244

/-- R167: the phrase number of a decision. -/
def decisionPhrase : Decision → Nat
  | .admitted => 245
  | .inspect => 246
  | .turnOut => 247
  | .refer => 248

/-- The text "LANE " (R168). -/
def laneWord : Text := [0x4C, 0x41, 0x4E, 0x45, 0x20]
/-- The text "VISIT " (R169). -/
def visitWord : Text := [0x56, 0x49, 0x53, 0x49, 0x54, 0x20]

/-- R171, R172: whether an entry is a SIGN entry: in LEARN or FROZEN, of the role SIGN (log entry 37). -/
def Station.isSign (e : Station) : Bool := e.state != .empty && e.role == .sign

/-- R173: what a SIGN_ACK makes of the in-flight page: none where it marks nothing. The whole byte acknowledged is compared with
the sequences, so one above 15 matches no half, by the model's choice (log entry 54). -/
def InFlight.mark (f : InFlight) (sequence : Nat) : Option InFlight :=
  if !f.upperMarked && f.upperSeq.any (·.toNat == sequence) then some { f with upperMarked := true }
  else if !f.lowerMarked && f.lowerSeq.any (·.toNat == sequence) then some { f with lowerMarked := true }
  else none

/-- R174: the in-flight page dropped, kept as the pending page where none is held. -/
def SignChannel.dropFlight (ch : SignChannel) : SignChannel :=
  { ch with
    inFlight := none
    timer := none
    fault := true
    waiting := match ch.waiting with | some p => some p | none => ch.inFlight.map (·.page) }

namespace State

/-- The 20 characters of a phrase. -/
def phrase (s : State) (n : Nat) : Text := (s.signs.phrases[n % 256]'(Nat.mod_lt _ (by decide))).toList

/-- The phrase of a destination (R153, R169, R175). -/
def destPhrase (s : State) : Option (Fin 64) → Text
  | some d => s.phrase (s.destAt d).phrase
  | none => blankLine

/-- R168: the BASE layer. -/
def basePage (s : State) (l : LaneId) : Page where
  line1 := s.phrase (modePhrase (s.lane l).mode)
  line2 := lineOf (laneWord ++ decimal 2 l.val)
  line3 := blankLine
  line4 := blankLine

/-- R169: the VISIT layer. -/
def visitPage (s : State) (l : LaneId) : Page :=
  let blank : Page := ⟨blankLine, blankLine, blankLine, blankLine⟩
  match s.frontCtx l with
  | none => blank
  | some c =>
      if c.state.atPosition then
        { line1 := lineOf (c.plate.reported.getD [])
          line2 := match c.decision with | some d => s.phrase (decisionPhrase d) | none => blankLine
          line3 := s.destPhrase c.destination
          line4 := lineOf (visitWord ++ decimal 5 c.visit.toNat) }
      else blank

/-- R170: the phrase number of the ALERT layer, or none. -/
def alert (s : State) (l : LaneId) : Option Nat :=
  match (s.lane l).mode with
  | .manual => some 251
  | .suspended => some 252
  | .closed | .open | .closing =>
      match s.frontCtx l with
      | none => none
      | some c =>
          if c.state = .referred then some 249
          else if c.decision = some .turnOut ∧ (c.state = .decided ∨ c.state = .releasing) then some 250
          else none

/-- R171: the lane's page. -/
def page (s : State) (l : LaneId) : Page :=
  let t := s.params.transparency
  let v := s.visitPage l
  let b := s.basePage l
  let a4 := match s.alert l with | some n => s.phrase n | none => blankLine
  { line1 := chooseLine t blankLine v.line1 b.line1
    line2 := chooseLine t blankLine v.line2 b.line2
    line3 := chooseLine t blankLine v.line3 b.line3
    line4 := chooseLine t a4 v.line4 b.line4 }

/-! ### The sign channel (R172 to R174) -/

/-- The sign channel of a station changed. -/
def updChannel (s : State) (ix : StationIx) (f : SignChannel → SignChannel) : State :=
  s.updStation ix fun e => { e with channel := e.channel.map f }

/-- R172: a page is SENT: both halves are handed to the port, upper first, and the acknowledge timer starts. -/
def sendPage (s : State) (ix : StationIx) (p : Page) : State :=
  let up := s.handOff (segOf ix) (addrOf ix) .signPage (0 :: (p.line1 ++ p.line2))
  let low := up.1.handOff (segOf ix) (addrOf ix) .signPage (1 :: (p.line3 ++ p.line4))
  low.1.updChannel ix fun ch =>
    { ch with inFlight := some ⟨p, up.2, low.2, false, false⟩, timer := some s.params.signAck }

/-- R171: the latest page of a channel. A channel that never had a page acknowledged and holds none has none. -/
def latestPage (ch : SignChannel) : Option Page :=
  match ch.waiting with
  | some p => some p
  | none =>
      match ch.inFlight with
      | some f => some f.page
      | none => ch.lastAcked

/-- R171, R172: a page offered to the channel of a station. A channel that has never had a page acknowledged takes every
offer (log entry 16). -/
def offerPage (s : State) (ix : StationIx) (p : Page) : State :=
  match (s.station ix).channel with
  | none => s
  | some ch =>
      if ch.lastAcked.isSome && latestPage ch == some p then s
      else if !ch.fault && ch.inFlight.isNone then s.sendPage ix p
      else s.updChannel ix fun ch => { ch with waiting := some p }

/-- R171: whether a station is a SIGN of the lane. -/
def isSignOf (s : State) (l : LaneId) (ix : StationIx) : Bool :=
  (s.station ix).isSign && (s.station ix).lane == l

/-- R171: the lane's page composed and offered to every sign of the lane, in station map order by the model's choice
(log entry 43). -/
def compose (s : State) (l : LaneId) : State :=
  let p := s.page l
  (List.finRange 124).foldl (fun s ix => if s.isSignOf l ix then s.offerPage ix p else s) s

/-- R171: every lane's page composed, lanes in ascending order by the model's choice (log entry 43). -/
def composeAll (s : State) : State := (List.finRange 16).foldl compose s

/-- The pending page of a channel sent, if it holds one (R173). -/
def sendWaiting (s : State) (ix : StationIx) : State :=
  match (s.station ix).channel with
  | some ch =>
      match ch.waiting with
      | some p => (s.updChannel ix fun ch => { ch with waiting := none }).sendPage ix p
      | none => s
  | none => s

/-- R173: a frame heard from the station: a channel in FAULT with nothing in flight sends its pending page. -/
def signHearing (s : State) (ix : StationIx) : State :=
  match (s.station ix).channel with
  | some ch => if ch.fault && ch.inFlight.isNone then s.sendWaiting ix else s
  | none => s

/-- A STATION_EVENT of a place of the map. -/
def stationEvent (s : State) (ix : StationIx) (cause : StationCause) (identity received : Option (BitVec 32)) : State :=
  s.offerB (.stationEvent ix cause identity received)

/-- R173: a SIGN_ACK taken by the channel of a station (a byte acknowledged above 15: log entry 54). -/
def signAck (s : State) (ix : StationIx) (sequence : Nat) : State :=
  let stray := s.countSigns fun c => { c with straySignAcks := bump c.straySignAcks }
  match (s.station ix).channel with
  | none => stray
  | some ch =>
      match ch.inFlight.bind (InFlight.mark · sequence) with
      | none => stray
      | some f =>
          if f.upperMarked && f.lowerMarked then
            let s := s.updChannel ix fun ch =>
              { ch with lastAcked := some f.page, inFlight := none, timer := none, fault := false }
            let s := if ch.fault then s.stationEvent ix .signRestored none none else s
            s.sendWaiting ix
          else s.updChannel ix fun ch => { ch with inFlight := some f }

/-- R174: the acknowledge timer of a channel expires. -/
def signExpiry (s : State) (ix : StationIx) : State :=
  match (s.station ix).channel with
  | some ch =>
      if ch.timer.isSome then
        let s := s.updChannel ix SignChannel.dropFlight
        let s := s.countSigns fun c => { c with signFaults := bump c.signFaults }
        if ch.fault then s else s.stationEvent ix .signFault none none
      else s
  | none => s

/-- R174: the station's entry becomes SILENT. -/
def signSilent (s : State) (ix : StationIx) : State := s.updChannel ix SignChannel.dropFlight

/-! ### Tickets (R175, R176) -/

/-- R175: the lane's printer, the first in station map order. -/
def printerOf (s : State) (l : LaneId) : Option StationIx :=
  (List.finRange 124).find? fun ix =>
    let e := s.station ix
    e.state != .empty && e.role == .printer && e.lane == l

/-- R175: the code of a decision (R189). -/
def decisionCode : Decision → Byte
  | .admitted => 0
  | .inspect => 1
  | .turnOut => 2
  | .refer => 3

/-- R175, R189: the payload of a visit's TICKET. -/
def ticketPayload (s : State) (c : Ctx) : List Byte :=
  let units := (c.links.filter fun k => k.source != .kiosk).map (·.key)
  bytesOf16 c.visit ++ [match c.decision with | some d => decisionCode d | none => 0xFF] ++
    padTo 10 (c.plate.reported.getD []) ++ [BitVec.ofNat 8 units.length] ++ units.flatten ++ shown (s.destPhrase c.destination)

/-- R175: a ticket issued for a visit decided ADMIT or INSPECT, or refused. -/
def issueTicket (s : State) (id : CtxId) : State :=
  let c := s.ctx id
  let refused :=
    (s.countSigns fun k => { k with ticketsRefused := bump k.ticketsRefused }).updCtx id fun c =>
      { c with flags := { c.flags with noTicket := true } }
  match s.printerOf c.lane with
  | none => refused
  | some ix =>
      if Config.ticketQueueSize ≤ (s.station ix).tickets.length then refused
      else
        let h := s.handOff (segOf ix) (addrOf ix) .ticket (s.ticketPayload c)
        h.1.updStation ix fun e => { e with tickets := e.tickets ++ [⟨c.visit, h.2, some s.params.ticketAck⟩] }

/-- R176: a TICKET_ACK taken by the channel of a printer. The whole byte acknowledged is compared with the sequence, so one
above 15 is a stray, by the model's choice (log entry 54). -/
def ticketAck (s : State) (ix : StationIx) (sequence : Nat) : State :=
  match (s.station ix).tickets with
  | t :: rest =>
      if t.seq.any (·.toNat == sequence) then s.updStation ix fun e => { e with tickets := rest }
      else s.countSigns fun c => { c with strayTicketAcks := bump c.strayTicketAcks }
  | [] => s.countSigns fun c => { c with strayTicketAcks := bump c.strayTicketAcks }

/-- R176: the timer of a ticket expires. -/
def ticketExpiry (s : State) (ix : StationIx) (place : Nat) : State :=
  if ((s.station ix).tickets[place]?).any (·.timer.isSome) then
    (s.updStation ix fun e => { e with tickets := e.tickets.eraseIdx place }).countSigns fun c =>
      { c with ticketFaults := bump c.ticketFaults }
  else s

end State

/-! ### The expiries of the channels -/

/-- SIGN_ACK_EXPIRY (R174). -/
def execSignAckExpiry (seg : Seg) (addr : Addr) (s : State) : Host.Outcome State Fault Refusal :=
  whenRunning s fun s => s.signExpiry (stationIx seg addr)

/-- TICKET_ACK_EXPIRY (R176). -/
def execTicketAckExpiry (seg : Seg) (addr : Addr) (place : Fin 2) (s : State) : Host.Outcome State Fault Refusal :=
  whenRunning s fun s => s.ticketExpiry (stationIx seg addr) place

end Sys2Proof.Machine
end

