-- ==== Sys2Proof/Machine/Lanes.lean ====
section
/-! DEFINITION. Lane modes (section 2.3) and the end of a clerk's hold (R35), silence of a station (R19, R20). -/

namespace Sys2Proof.Machine

namespace State

/-- R37, R44: a change of lane mode. Leaving OPEN clears the pending arrivals; one LANE_EVENT is offered and the lane's
page is composed (R171). The holding console stands in MANUAL alone. -/
def changeMode (s : State) (l : LaneId) (entered : LaneMode) (cause : ModeCause) (holder : Option StationIx) : State :=
  let left := (s.lane l).mode
  let s := s.updLane l fun x =>
    { x with mode := entered, holder := holder, pendingArrivals := if left = .open then 0 else x.pendingArrivals }
  let s := s.offerB (.modeChange l left entered cause holder)
  s.compose l

/-- R31: each console value takes the value its output drives now. -/
def latchOutputs (s : State) (l : LaneId) : State :=
  let b := s.driven l .barrier
  let g := s.driven l .go
  let t := s.driven l .stop
  s.updLane l fun x =>
    { x with
      barrier := { x.barrier with consoleValue := b }
      go := { x.go with consoleValue := g }
      stop := { x.stop with consoleValue := t } }

/-- R35: the hold of the console at a place of the map ends, on the lane it holds. -/
def endHoldOn (cause : ModeCause) (ix : StationIx) (s : State) (l : LaneId) : State :=
  if (s.lane l).mode = .manual ∧ (s.lane l).holder = some ix then s.changeMode l .suspended cause none else s

/-- R35: the hold of a console ends. -/
def endHold (s : State) (ix : StationIx) (cause : ModeCause) : State :=
  (List.finRange 16).foldl (endHoldOn cause ix) s

/-- R4, R19, R20, R174: an entry becomes SILENT, with what follows for its sign channel and for the lane it holds. -/
def becomeSilent (s : State) (ix : StationIx) : State :=
  let s := s.updStation ix fun e => { e with silent := true, silenceTimer := none }
  (s.signSilent ix).endHold ix .consoleSilent

/-- R44, R58: the pending arrivals of a lane are forgotten. -/
def clearPending (s : State) (l : LaneId) : State := s.updLane l fun x => { x with pendingArrivals := 0 }

end State

/-- R31: a value of CONSOLE_OUTPUT; KEEP leaves the console value. -/
def LaneOutput.console (o : LaneOutput) : Option Bool → LaneOutput
  | some v => { o with consoleValue := v }
  | none => o

end Sys2Proof.Machine
end

