-- ==== Sys2Proof/Machine/Sequencer.lean ====
section
/-! DEFINITION. The lane sequencer (chapter 3): the pool, the states of a context from arrival to closing, the commit,
aborts, reports, rulings, and the attribution of reads. -/

namespace Sys2Proof.Machine

/-- R62: what a visit report carries of a context. -/
def Ctx.report (c : Ctx) : VisitReport where
  visit := c.visit
  lane := c.lane
  outcome := c.outcome
  arrival := c.arrival
  position := c.position
  decisionMinute := c.decisionMinute
  exit := c.exit
  plate := (c.plate.state, c.plate.reported)
  tag := (c.tag.state, c.tag.reported)
  unitFwd := (c.unitFwd.state, c.unitFwd.reported)
  unitAft := (c.unitAft.state, c.unitAft.reported)
  sealFwd := (c.sealFwd.state, c.sealFwd.reported)
  sealAft := (c.sealAft.state, c.sealAft.reported)
  sizeFwd := c.unitFwd.reportedSize
  sizeAft := c.unitAft.reportedSize
  kiosk := c.kiosk
  layout := c.layout
  layoutConflict := c.layoutConflict
  links := c.links.map fun l => (l.key, l.source, l.state)
  sealFwdResult := c.sealChecks.fwd.map (·.result)
  sealAftResult := c.sealChecks.aft.map (·.result)
  damageFwd := c.damage.fwd.map fun d => (d.result, d.grade)
  damageAft := c.damage.aft.map fun d => (d.result, d.grade)
  appendedFwd := (c.damage.fwd.map (·.appended)).getD 0
  appendedAft := (c.damage.aft.map (·.appended)).getD 0
  slotResult := c.slotResult
  reserved := c.reserved
  decision := c.decision
  reasons := c.reasons
  destination := c.destination
  flags := c.flags

namespace State

/-! ### Release, decision, referral (R53 to R55) -/

/-- A context takes a state, and the lane's page is composed where it is the front (R40, R171). -/
def moveTo (s : State) (id : CtxId) (st : CtxState) : State :=
  let s := s.updCtx id fun c => { c with state := st }
  let l := (s.ctx id).lane
  if (s.lane l).front = some id then s.compose l else s

/-- R54: the release test of a context in DECIDED. -/
def releaseTest (s : State) (id : CtxId) : State :=
  if (s.ctx id).state = .decided ∧ s.reads (s.ctx id).lane .barrierDown = true then s.moveTo id .releasing else s

/-- R53 to R55, R175: a context enters DECIDED: its page is composed, its ticket issued for an ADMIT or an INSPECT, and
the release test made (log entry 15). -/
def enterDecided (s : State) (id : CtxId) : State :=
  let s := s.moveTo id .decided
  let d := (s.ctx id).decision
  let s := if d = some .admitted ∨ d = some .inspect then s.issueTicket id else s
  s.releaseTest id

/-- R55: the REFER_NOTICE of a context accepted: its ruling timer starts. A notice that waited for room shows the context as
it stands now, by the model's choice (log entry 52). -/
def noticeAccepted (s : State) (id : CtxId) : State :=
  (s.accept (.referNotice (s.ctx id).report)).updCtx id fun c =>
    { c with noticePending := false, rulingTimer := some s.params.rulingDeadline }

/-- R55: a context enters REFERRED and offers its notice. -/
def enterReferred (s : State) (id : CtxId) : State :=
  let s := s.moveTo id .referred
  if s.roomA then s.noticeAccepted id
  else (s.updCtx id fun c => { c with noticePending := true }).wait (.referNotice id)

/-- R53: the test of a context in LOOKUP, and the decision step where it holds. -/
def decideTest (s : State) (id : CtxId) : State :=
  if (s.ctx id).state = .lookup ∧ (s.ctx id).links.all (·.state != .pending) = true then
    let s := s.decisionStep id
    if (s.ctx id).decision = some .refer then s.enterReferred id else s.enterDecided id
  else s

/-- R53, R97: the contexts whose links changed state in the cache's work are tested, in the order of the changes, which
for the links of one target is pool order (log entry 40). -/
def settle (w : Work) : State := w.touched.foldl decideTest w.st

/-! ### Identification and lookup (R46, R51, R52) -/

/-- R52: LOOKUP entry: the links are formed and handed to the cache in order; with none the decision step follows. -/
def enterLookup (s : State) (id : CtxId) : State :=
  let s := s.updCtx id fun c => { c with identTimer := none, links := c.formLinks }
  let s := s.moveTo id .lookup
  (settle ((Work.refsOf s id).foldl Work.lookup { st := s }).finish).decideTest id

/-- R51: the completion test of a context in IDENTIFYING. -/
def identifyTest (s : State) (id : CtxId) : State :=
  if (s.ctx id).state = .identifying ∧ (s.ctx id).identified = true then s.enterLookup id else s

/-- R46: a context enters IDENTIFYING and becomes its lane's front. -/
def enterIdentifying (s : State) (id : CtxId) : State :=
  let s := s.updCtx id fun c =>
    { c with position := some s.now, approachTimer := none, identTimer := some s.params.identWindow }
  let s := s.updLane (s.ctx id).lane fun x => { x with front := some id }
  (s.moveTo id .identifying).identifyTest id

/-! ### The pool (R39 to R45) -/

/-- R45: the approach timer of one context taken anew. -/
def retimeCtx (runs : Bool) (s : State) (id : CtxId) : State :=
  s.updCtx id fun c =>
    if c.state = .arriving ∧ runs = true then
      { c with approachTimer := match c.approachTimer with | some t => some t | none => some s.params.approachLimit }
    else { c with approachTimer := none }

/-- R45, R47: the approach timers of a lane's contexts taken anew. -/
def retime (s : State) (l : LaneId) : State :=
  let runs := decide ((s.lane l).ctxs.length = 1) && !s.reads l .position
  (s.lane l).ctxs.foldl (retimeCtx runs) s

/-- R39: a context allocated to a lane, in ARRIVING. -/
def allocate (s : State) (id : CtxId) (l : LaneId) : State :=
  let s := s.updCtx id fun _ => { state := .arriving, visit := s.visitCounter, lane := l, arrival := s.now }
  { s with visitCounter := s.visitCounter + 1 }.updLane l fun x => { x with ctxs := x.ctxs ++ [id] }

/-- Whether a lane holds a context in a position state. -/
def positionHeld (s : State) (l : LaneId) : Bool := (s.lane l).ctxs.any fun id => (s.ctx id).state.atPosition

/-- The oldest ARRIVING context of a lane. -/
def oldestArriving (s : State) (l : LaneId) : Option CtxId :=
  (s.lane l).ctxs.find? fun id => (s.ctx id).state == .arriving

/-- R41, R42, R44: a context allocated to a lane, which enters IDENTIFYING at once where `direct` holds. -/
def admitArrival (s : State) (id : CtxId) (l : LaneId) (direct : Bool) : State :=
  let s := s.allocate id l
  (if direct then s.enterIdentifying id else s).retime l

/-- R44: whether a lane is eligible for a grant. -/
def grantable (s : State) (l : LaneId) : Bool :=
  let x := s.lane l
  x.mode == .open && decide (0 < x.pendingArrivals) && decide (x.ctxs.length < Config.laneContexts)

/-- R44: the lanes in the order of the search. -/
def searchOrder (s : State) : List LaneId := (List.finRange 16).map fun k => s.lastServed + 1 + k

/-- R44: the pool offers a freed context to the waiting lanes. -/
def grant (s : State) (id : CtxId) : State :=
  match s.searchOrder.find? s.grantable with
  | none => s
  | some l =>
      let s := { s with lastServed := l }.updLane l fun x => { x with pendingArrivals := x.pendingArrivals - 1 }
      s.admitArrival id l (!s.positionHeld l && s.reads l .position)

/-- R33, R61: a context becomes FREE and leaves its lane; a lane in CLOSING that holds none is CLOSED; the pool grants.
No rule orders the page of the lane whose front is gone, the change of mode with its LANE_EVENT and its page, and the grant:
they are done in this order by the model's choice (log entry 47). -/
def freeCtx (s : State) (id : CtxId) : State :=
  let l := (s.ctx id).lane
  let wasFront := decide ((s.lane l).front = some id)
  let s := s.updCtx id fun _ => {}
  let s := s.updLane l fun x =>
    { x with ctxs := x.ctxs.filter (· != id), front := if x.front = some id then none else x.front }
  let s := if wasFront then s.compose l else s
  let s := s.retime l
  let s := if (s.lane l).mode = .closing ∧ (s.lane l).ctxs = [] then s.changeMode l .closed .contextsDrained none else s
  s.grant id

/-- R61: the visit report of a context accepted. -/
def reportAccepted (s : State) (id : CtxId) : State := (s.accept (.visitReport (s.ctx id).report)).freeCtx id

/-- R61: a context in CLOSING offers its visit report. -/
def offerReport (s : State) (id : CtxId) : State :=
  if s.roomA then s.reportAccepted id else s.wait (.visitReport id)

/-- R41: the lowest FREE context of the pool (log entry 6). -/
def freeIx (s : State) : Option CtxId := (List.finRange 24).find? fun i => (s.ctx i).state == .free

/-- R41: an arrival counted as pending, or lost. -/
def countArrival (s : State) (l : LaneId) : State :=
  if (s.lane l).pendingArrivals < Config.maxPending then
    s.updLane l fun x => { x with pendingArrivals := x.pendingArrivals + 1 }
  else s.countLane l fun k => { k with arrivalsLost := bump k.arrivalsLost }

/-- R41: an arrival served. -/
def arrive (s : State) (l : LaneId) (direct : Bool) : State :=
  match s.freeIx with
  | some id => if (s.lane l).ctxs.length < Config.laneContexts then s.admitArrival id l direct else s.countArrival l
  | none => s.countArrival l

/-- R28, R42: an arrival refused by the lane mode. -/
def refuseEntry (s : State) (l : LaneId) : State :=
  s.countLane l fun k => { k with refusedEntries := bump k.refusedEntries }

/-- R28, R41: an ENTRY_ON. -/
def entryOn (s : State) (l : LaneId) : State :=
  if (s.lane l).mode = .open then s.arrive l false else s.refuseEntry l

/-- R42, R45: a POSITION_ON. -/
def positionOn (s : State) (l : LaneId) : State :=
  let s := s.retime l
  if s.positionHeld l then s
  else
    match s.oldestArriving l with
    | some id => s.enterIdentifying id
    | none => if (s.lane l).mode = .open then s.arrive l true else s.refuseEntry l

/-- R54: a BARRIER_DOWN_ON: the release test of the lane's front. -/
def barrierDownOn (s : State) (l : LaneId) : State :=
  match (s.lane l).front with
  | some id => s.releaseTest id
  | none => s

/-- R43: the next truck advances when the front enters CLOSING. -/
def advance (s : State) (l : LaneId) : State :=
  if s.reads l .position then
    match s.oldestArriving l with
    | some id => s.enterIdentifying id
    | none => s
  else s

/-! ### Commit (R56, R57) -/

/-- R56, R57: the commit of a context in RELEASING. The order of its parts is the model's choice (log entry 14), and with it the
place of the cache's retries (R95) and of the decision steps of other visits (R53): before the entry into CLOSING. -/
def commit (s : State) (id : CtxId) : State :=
  let l := (s.ctx id).lane
  let s := s.updCtx id fun c => { c with exit := some s.now }
  let s := (s.commitSlot id).commitTransit id
  let s := settle (Work.commit { st := s } id).finish
  let s := s.updCtx id fun c => { c with outcome := some .completed }
  let s := s.moveTo id .closing
  (s.advance l).offerReport id

/-- R56: the release edge of a lane. -/
def releaseEdge (s : State) (l : LaneId) : State :=
  match (s.lane l).front with
  | some id => if (s.ctx id).state = .releasing then s.commit id else s
  | none => s

/-! ### Aborts (R58 to R60) -/

/-- R60: the slot and destination units' releases for one context. -/
def abortShared (s : State) (id : CtxId) : State := (s.releaseToken id).releaseSlot id

/-- R60: a context ends: its timers stop, its notice is withdrawn, and it stands in CLOSING with the outcome. -/
def endCtx (outcome : Outcome) (s : State) (id : CtxId) : State :=
  (s.updCtx id fun c =>
    { c with
      state := .closing, outcome := some outcome, approachTimer := none, identTimer := none, rulingTimer := none
      noticePending := false }).unwait (.referNotice id)

/-- R58 to R60: the aborts of several contexts of one lane. The order is the model's choice (log entry 13), and with it the place
of what the releases set off in the cache: its retries of the wait list (R95) and the decision steps of other visits (R53) come
after the entry into CLOSING and its page, and before the visit reports. -/
def abortAll (s : State) (l : LaneId) (ids : List CtxId) (outcome : Outcome) : State :=
  let s := ids.foldl abortShared s
  let w := ids.foldl Work.abort { st := s }
  let w := w.upd fun s =>
    let s := ids.foldl (endCtx outcome) s
    if ids.any (fun id => (s.lane l).front == some id) then s.compose l else s
  ids.foldl offerReport (settle w.finish)

/-- R58: the contexts of a lane that a lane RESET aborts. -/
def resetTargets (s : State) (l : LaneId) : List CtxId :=
  (s.lane l).ctxs.filter fun id => (s.ctx id).state != .closing

/-- R59: the contexts of a lane that a takeover aborts. -/
def takeTargets (s : State) (l : LaneId) : List CtxId :=
  (s.lane l).ctxs.filter fun id => (s.ctx id).state != .closing && (s.ctx id).state != .releasing

/-! ### Rulings (R55, R162 to R164) -/

/-- R55: a REFERRED context leaves it with a new decision: its timer stops, a pending notice is withdrawn, the decision
minute is replaced, and it enters DECIDED. -/
def leaveReferred (s : State) (id : CtxId) : State :=
  let s := s.unwait (.referNotice id)
  let s := s.updCtx id fun c => { c with rulingTimer := none, noticePending := false, decisionMinute := some s.now }
  s.enterDecided id

/-- R163: a ruling of ADMIT or INSPECT applied, to the destination given. -/
def ruleIn (s : State) (id : CtxId) (d : Decision) (dest : Fin 64) : State :=
  let s := s.updCtx id fun c =>
    { c with
      decision := some d
      flags := { c.flags with
        overrideAdmission := c.flags.overrideAdmission || (d == .admitted && c.reservation.isNone) } }
  ((s.sendTo id dest).takeUnits id).leaveReferred id

/-- R164: a turn-out of a REFERRED context, with the override of its ruling or none. -/
def turnOut (s : State) (id : CtxId) (override : Option (Fin 64)) : State :=
  let s := s.updCtx id fun c => { c with decision := some .turnOut }
  let s := (s.releaseSlot id).releaseUnits id
  let s := match override with
    | some d => s.sendTo id d
    | none => s.turnOutRoute id
  s.leaveReferred id

/-- R162: the context that holds a visit number. -/
def visitCtx (s : State) (visit : BitVec 16) : Option CtxId :=
  (List.finRange 24).find? fun i => (s.ctx i).state != .free && (s.ctx i).visit == visit

def rulingApplied (s : State) : State := s.countDest fun k => { k with rulingsApplied := bump k.rulingsApplied }
def rulingDenied (s : State) : State := s.countDest fun k => { k with rulingsDenied := bump k.rulingsDenied }

/-- R162: a ruling for a REFERRED context. -/
def rule (s : State) (id : CtxId) (d : Decision) (override : Option (Fin 64)) : Answer × State :=
  match d with
  | .turnOut | .refer => (Answer.ok, (s.rulingApplied).turnOut id override)
  | .admitted | .inspect =>
      match override, s.findDest (s.ctx id) d with
      | some o, _ => (Answer.ok, (s.rulingApplied).ruleIn id d o)
      | none, some x => (Answer.ok, (s.rulingApplied).ruleIn id d x)
      | none, none => ({ status := .denied, detail := .noDestination }, s.rulingDenied)

end State

/-- R190: a ruling by its code. -/
def rulingOf (b : Byte) : Option Decision :=
  match b.toNat with
  | 0 => some .admitted
  | 1 => some .inspect
  | 2 => some .turnOut
  | _ => none

/-- R162: the conditions of a VISIT_RULING, the first that holds deciding. -/
def rulingAnswer (visit : BitVec 16) (ruling dest : Byte) (s : State) : Answer × State :=
  match rulingOf ruling, hintOf dest with
  | some d, some override =>
      match s.visitCtx visit with
      | none => refuse s .unknownVisit
      | some id =>
          if (s.ctx id).state = .referred then s.rule id d override
          else ({ status := .denied, detail := .state (s.ctx id).state }, s.rulingDenied)
  | _, _ => refuse s .badValue

/-- R160: the answer to an ARRIVED_AT. -/
def arrivedAnswer (visit : BitVec 16) (s : State) : Answer × State :=
  match s.transitOf visit with
  | some e => (Answer.ok, s.removeTransit e)
  | none => refuse (s.countDest fun k => { k with arrivalsUnknown := bump k.arrivalsUnknown }) .unknownVisit

/-! ### Attribution of reads (R48 to R50) -/

namespace State

/-- R48: the context a read is attached to. -/
def attach (s : State) (l : LaneId) (zone : Zone) : Option CtxId :=
  match zone with
  | .approach =>
      match (s.lane l).ctxs.getLast? with
      | some id => if (s.ctx id).state = .arriving ∨ (s.ctx id).state = .identifying then some id else none
      | none => none
  | .position =>
      match (s.lane l).front with
      | some id =>
          match (s.ctx id).state with
          | .identifying | .lookup | .referred | .decided => some id
          | .free | .arriving | .releasing | .closing => none
      | none => none

/-- R49: an orphan read. -/
def orphan (s : State) (seg : Seg) (addr : Addr) (e : Station) (m : LaneMsg) : State :=
  let s := s.countLane e.lane fun k => { k with orphanReads := bump k.orphanReads }
  if e.forward then s.offerB (.orphanRead seg addr e.lane m.kind m.value (s.frontState e.lane)) else s

/-- R48 to R51: a read is attached and applied by `f`, after which identification completion is tested; or it is an
orphan. -/
def takeAttached (s : State) (seg : Seg) (addr : Addr) (e : Station) (m : LaneMsg) (f : State → CtxId → State) : State :=
  match s.attach e.lane e.zone with
  | some id => (f s id).identifyTest id
  | none => s.orphan seg addr e m

/-- R50, R63: a frame that comes too late for its context. -/
def lateFrame (s : State) (l : LaneId) : State := s.countLane l fun k => { k with lateFrames := bump k.lateFrames }

/-- R66, R69 to R77: an identity read scored into a field. -/
def scoreInto (seg : Seg) (e : Station) (n : FieldName) (value : Text) (confidence : Nat) (s : State) (id : CtxId) : State :=
  let k := contribution confidence (effectiveWeight (s.port seg).state e.weight)
  s.updCtx id fun c => c.scoreRead s.params n value k none

/-- R66 to R68, R70: a unit read, by its form and its check digit. -/
def scoreUnit (seg : Seg) (e : Station) (pos : Position) (code size : Text) (confidence : Nat) (s : State) (id : CtxId) :
    State :=
  if unitFormOk code then
    let w := effectiveWeight (s.port seg).state e.weight
    let k := if checkValid code then contribution confidence w else contributionFailed confidence w
    s.updCtx id fun c => c.scoreRead s.params (unitField pos) code k (some size)
  else s.countLane (s.ctx id).lane fun k => { k with unitFormErrors := bump k.unitFormErrors }

/-- R50, R135: the marks of a DAMAGE_MARKS frame, or a late frame. -/
def damageRead (pos : Position) (ms : List RawMark) (s : State) (id : CtxId) : State :=
  if (s.ctx id).state.beforeDecision then s.takeMarks id pos ms else s.lateFrame (s.ctx id).lane

/-- R50: a KIOSK_ENTRY, or a late frame. -/
def kioskRead (reference : Text) (s : State) (id : CtxId) : State :=
  if (s.ctx id).state = .arriving ∨ (s.ctx id).state = .identifying then
    s.updCtx id fun c => { c with kiosk := some reference }
  else s.lateFrame (s.ctx id).lane

/-- R81: a SCAN_END. -/
def scanRead (l : Layout) (s : State) (id : CtxId) : State := s.updCtx id fun c => c.scanEnd l

end State

/-! ### The commands of the sequencer -/

/-- APPROACH_EXPIRY (R45). -/
def execApproachExpiry (ctx : CtxId) (s : State) : Host.Outcome State Fault Refusal :=
  whenRunning s fun s =>
    if (s.ctx ctx).state = .arriving ∧ (s.ctx ctx).approachTimer.isSome = true then
      (State.endCtx .withdrawn s ctx).offerReport ctx
    else s

/-- IDENTIFICATION_EXPIRY (R51, R78). -/
def execIdentificationExpiry (ctx : CtxId) (s : State) : Host.Outcome State Fault Refusal :=
  whenRunning s fun s =>
    if (s.ctx ctx).state = .identifying ∧ (s.ctx ctx).identTimer.isSome = true then
      (s.updCtx ctx (Ctx.finalise s.params)).enterLookup ctx
    else s

/-- RULING_EXPIRY (R55, R164). -/
def execRulingExpiry (ctx : CtxId) (s : State) : Host.Outcome State Fault Refusal :=
  whenRunning s fun s =>
    if (s.ctx ctx).state = .referred ∧ (s.ctx ctx).rulingTimer.isSome = true then
      let s := s.countDest fun k => { k with noRulingTurnOuts := bump k.noRulingTurnOuts }
      (s.updCtx ctx fun c => { c with reasons := { c.reasons with noRuling := true } }).turnOut ctx none
    else s

/-- VISIT_RULING (R162 to R164). -/
def execVisitRuling (h : GateHdr) (visit : BitVec 16) (ruling dest : Byte) (s : State) :
    Host.Outcome State Fault Refusal :=
  whenRunning s fun s => s.request h 4 (rulingAnswer visit ruling dest)

/-- ARRIVED_AT (R160). -/
def execArrivedAt (h : GateHdr) (visit : BitVec 16) (s : State) : Host.Outcome State Fault Refusal :=
  whenRunning s fun s => s.request h 5 (arrivedAnswer visit)

/-- BOOKING_DATA (R86, R97, R99): counted for server presence and taken by the cache; no RESPONSE. The server is
PRESENT before a decision step that the frame sets off reads the server state (DESIGN CHOICE: log entry 56). -/
def execBookingData (h : GateHdr) (record : List Byte) (s : State) : Host.Outcome State Fault Refusal :=
  whenRunning s fun s => State.settle (Work.bookingData { st := s.gateHeard h } h.tag record)

/-- BOOKING_NONE (R86, R98, R99); the server is PRESENT before a decision step that the frame sets off reads the server state
(DESIGN CHOICE: log entry 56). -/
def execBookingNone (h : GateHdr) (key : Text) (s : State) : Host.Outcome State Fault Refusal :=
  whenRunning s fun s => State.settle (Work.bookingNone { st := s.gateHeard h } h.tag key)

/-- FETCH_TIMEOUT (R99). -/
def execFetchTimeout (slot : Fin 16) (s : State) : Host.Outcome State Fault Refusal :=
  whenRunning s fun s => State.settle (Work.fetchTimeout { st := s } slot)

/-- R108: the answer to a BOOKING_RECALL. -/
def recallAnswer (key : Text) (s : State) : Answer × State :=
  if !isKey key then refuse s .badValue
  else if s.cache.recalls.any (·.key == key) then (Answer.ok, s)
  else if Config.recallTableSize ≤ s.cache.recalls.length then
    refuse (s.countCache fun k => { k with recallsDenied := bump k.recallsDenied }) .denied
  else (Answer.ok, State.settle (Work.takeRecall { st := s } key))

/-- BOOKING_RECALL (R108 to R112). -/
def execBookingRecall (h : GateHdr) (key : Text) (s : State) : Host.Outcome State Fault Refusal :=
  whenRunning s fun s => s.request h 3 (recallAnswer key)

/-- R107: the answer to a FLUSH. -/
def flushAnswer (s : State) : Answer × State :=
  if s.cache.sendOrder.contains .flushDone then refuse s .denied
  else (Answer.ok, State.settle (Work.flush { st := s }))

/-- PART_COMMAND FLUSH (R107). -/
def execFlush (h : GateHdr) (s : State) : Host.Outcome State Fault Refusal :=
  whenRunning s fun s => s.request h 0x0A flushAnswer

end Sys2Proof.Machine
end

