-- ==== Sys2Proof/Machine/LaneIO.lean ====
section
/-! DEFINITION. The lane I/O unit (chapter 2): input filters and events, re-arming, and the commands of a lane. -/

namespace Sys2Proof.Machine

namespace State

/-- R27: the examination of an EXIT_ON against the front context. -/
def examinePass (s : State) (l : LaneId) : State :=
  if s.releasing l then s
  else if (s.lane l).mode = .manual then
    s.countLane l fun k => { k with manualPasses := bump k.manualPasses }
  else
    (s.countLane l fun k => { k with unauthorisedPasses := bump k.unauthorisedPasses }).offerB
      (.unauthorisedPass l (s.lane l).mode (s.frontState l))

/-- R26: an event of a lane input delivered; `on` says _ON. -/
def deliver (s : State) (l : LaneId) (inp : Input) (on : Bool) : State :=
  match inp, on with
  | .entry, true => s.entryOn l
  | .entry, false => s
  | .position, true => s.positionOn l
  | .position, false => s.retime l
  | .exit, true =>
      let s := s.examinePass l
      if (s.lane l).exitOnEdge then s.releaseEdge l else s
  | .exit, false => if (s.lane l).exitOnEdge then s else s.releaseEdge l
  | .barrierDown, true => s.barrierDownOn l
  | .barrierDown, false => s

def input (s : State) (l : LaneId) (inp : Input) : LaneInput := (s.lane l).inputs[inputIx inp]

def updInput (s : State) (l : LaneId) (inp : Input) (f : LaneInput → LaneInput) : State :=
  s.updLane l fun x => { x with inputs := upd x.inputs (inputIx inp) f }

/-- R24: the read level takes the sensed level, the filter timer stops, and the event is delivered. -/
def takeLevel (s : State) (l : LaneId) (inp : Input) : State :=
  let on := (s.input l inp).sensed
  (s.updInput l inp fun i => { i with level := i.sensed, timer := none }).deliver l inp on

/-- R24: the filter of an enabled input at a change of its sensed level. -/
def filterChange (s : State) (l : LaneId) (inp : Input) : State :=
  let i := s.input l inp
  if i.sensed = i.level then s.updInput l inp fun i => { i with timer := none }
  else if i.filter = 0 then s.takeLevel l inp
  else s.updInput l inp fun i => { i with timer := some i.filter }

/-- R25: an input re-armed; the approach timers of the lane are taken anew (R47). -/
def rearm (s : State) (l : LaneId) (inp : Input) : State :=
  (s.updInput l inp fun i =>
    { i with level := false, timer := if i.enabled && i.sensed then some i.filter else none }).retime l

end State

/-- INPUT_LEVEL_CHANGE (R23, R24): the pin shows a level; a change of an enabled input's sensed level goes to its
filter. -/
def execInputLevelChange (lane : LaneId) (inp : Input) (high : Bool) (s : State) : Host.Outcome State Fault Refusal :=
  whenRunning s fun s =>
    let i := s.input lane inp
    if i.pin = high then s
    else
      let s := s.updInput lane inp fun i => { i with pin := high }
      if i.enabled then s.filterChange lane inp else s

/-- INPUT_FILTER_EXPIRY (R24). -/
def execInputFilterExpiry (lane : LaneId) (inp : Input) (s : State) : Host.Outcome State Fault Refusal :=
  whenRunning s fun s => if (s.input lane inp).timer.isSome then s.takeLevel lane inp else s

/-! ### Lane commands (R29, R32, R33, R36) -/

/-- A lane named by a byte. -/
def laneOf (b : Byte) : Option LaneId := if h : b.toNat < 16 then some ⟨b.toNat, h⟩ else none

/-- R32. -/
def openAnswer (lane : Byte) (s : State) : Answer × State :=
  match laneOf lane with
  | none => refuse s .badIndex
  | some l =>
      match (s.lane l).mode with
      | .manual => refuse s .denied
      | .open => (Answer.ok, s)
      | .closed | .closing | .suspended => (Answer.ok, s.changeMode l .open .command none)

/-- R33. -/
def closeAnswer (lane : Byte) (s : State) : Answer × State :=
  match laneOf lane with
  | none => refuse s .badIndex
  | some l =>
      match (s.lane l).mode with
      | .manual => refuse s .denied
      | .open => (Answer.ok, s.changeMode l (if (s.lane l).ctxs.isEmpty then .closed else .closing) .command none)
      | .suspended => (Answer.ok, s.changeMode l .closed .command none)
      | .closed | .closing => (Answer.ok, s)

/-- R36, R44, R58. -/
def laneResetAnswer (lane : Byte) (s : State) : Answer × State :=
  match laneOf lane with
  | none => refuse s .badIndex
  | some l =>
      let s := s.clearPending l
      (Answer.ok, s.abortAll l (s.resetTargets l) .aborted)

/-- An output named by a byte (R190). -/
def outputOf (b : Byte) : Option Output :=
  match b.toNat with
  | 0 => some .barrier
  | 1 => some .go
  | 2 => some .stop
  | _ => none

/-- A byte of two values (R190). -/
def boolOf (b : Byte) : Option Bool :=
  match b.toNat with
  | 0 => some false
  | 1 => some true
  | _ => none

/-- R29: the source and, for REMOTE, the remote value of an output. -/
def LaneOutput.set (o : LaneOutput) (remote value : Bool) : LaneOutput :=
  { o with remote := remote, remoteValue := if remote then value else o.remoteValue }

/-- R29: the answer to an OUTPUT_SET, the rows of the rule's table taken from the top (log entry 57). -/
def outputSetAnswer (lane output source value : Byte) (s : State) : Answer × State :=
  match laneOf lane with
  | none => refuse s .badIndex
  | some l =>
      match outputOf output, boolOf source, boolOf value with
      | some o, some remote, some v => (Answer.ok, s.updLane l fun x => x.updOutput o fun y => y.set remote v)
      | _, _, _ => refuse s .badValue

/-- LANE_COMMAND OPEN (R32). -/
def execLaneCommandOpen (h : GateHdr) (lane : Byte) (s : State) : Host.Outcome State Fault Refusal :=
  whenRunning s fun s => s.request h 9 (openAnswer lane)

/-- LANE_COMMAND CLOSE (R33). -/
def execLaneCommandClose (h : GateHdr) (lane : Byte) (s : State) : Host.Outcome State Fault Refusal :=
  whenRunning s fun s => s.request h 9 (closeAnswer lane)

/-- LANE_COMMAND RESET (R36, R58). -/
def execLaneCommandReset (h : GateHdr) (lane : Byte) (s : State) : Host.Outcome State Fault Refusal :=
  whenRunning s fun s => s.request h 9 (laneResetAnswer lane)

/-- LANE_COMMAND OUTPUT_SET (R29). -/
def execOutputSet (h : GateHdr) (lane output source value : Byte) (s : State) : Host.Outcome State Fault Refusal :=
  whenRunning s fun s => s.request h 9 (outputSetAnswer lane output source value)

/-- A LANE_COMMAND of a command outside its list (R29); with a command of the list no such event is (log entry 4). -/
def execLaneCommandBadValue (h : GateHdr) (command : Byte) (s : State) : Host.Outcome State Fault Refusal :=
  whenRunning s fun s => if command.toNat ≤ 3 then s else s.request h 9 fun s => refuse s .badValue

end Sys2Proof.Machine
end

