-- ==== Sys2Proof/Machine/Links.lean ====
section
/-! DEFINITION. The segment ports and the station map (chapter 1): receiving a frame, taking one from the queue, and the
events of a segment and of a station. -/

namespace Sys2Proof.Machine

/-- A frame taken from a receive queue: its segment, its place in the map, the entry as it stands, and the frame. -/
structure Taken where
  seg : Seg
  ix : StationIx
  entry : Station
  frame : RxFrame
deriving DecidableEq, Repr

/-- R3: the results of the SEQUENCE CHECK. -/
inductive SeqCheck where
  | duplicate
  | taken (gap : Bool)
deriving DecidableEq, Repr

/-- R3: the SEQUENCE CHECK. -/
def seqCheck (record : Option (BitVec 4)) (seq : BitVec 4) (hello : Bool) : SeqCheck :=
  match record with
  | none => .taken false
  | some r =>
      if seq = r then (if hello then .taken false else .duplicate)
      else .taken (seq != r + 1)

namespace State

/-- R19: a frame heard from an address: a mapped entry on a segment not DOWN becomes ACTIVE and its timer restarts. -/
def heard (s : State) (seg : Seg) (ix : StationIx) : State :=
  let e := s.station ix
  if e.state = .empty ∨ (s.port seg).state = .down then s
  else
    let s := s.updStation ix fun e => { e with silent := false, silenceTimer := some s.params.silenceLimit }
    if e.silent then s.stationEvent ix .stationActive none none else s

/-- R12, R14: a frame queued upstream. -/
def passFrame (s : State) (t : Taken) : State := s.offerB (.passFrame t.seg t.frame.src t.frame.bytes)

/-- R18: a frame refused for identity. -/
def refuseIdentity (s : State) (ix : StationIx) : State :=
  s.updStation ix fun e => { e with mismatchCount := bump e.mismatchCount }

/-- R17: a HELLO that gives another identity than the frozen one, refused by R18. -/
def helloMismatch (s : State) (t : Taken) (identity : BitVec 32) : State :=
  let s := s.refuseIdentity t.ix
  if t.entry.mismatched then s
  else (s.updStation t.ix fun e => { e with mismatched := true }).stationEvent t.ix .identityMismatch t.entry.identity (some identity)

/-- R18: whether an entry's identity refuses a frame: a HELLO of another identity, or any frame but a HELLO of the
frozen identity while MISMATCHED. -/
def identityRefuses (e : Station) (m : LaneMsg) : Bool :=
  e.state == .frozen &&
  match m with
  | .hello i => e.identity != some i
  | _ => e.mismatched

/-- R13 to R15: a frame that its identity allows: its kind against the role, its PASS_FRAME, its consumption. -/
def takeAllowed (s : State) (t : Taken) (consume : State → Taken → State) : State :=
  let kind := t.frame.msg.kind
  if t.entry.role.accepts kind then
    if kind.isReading && (s.lane t.entry.lane).mode == .manual then s.passFrame t
    else consume (if t.entry.forward then s.passFrame t else s) t
  else
    let s := s.countPort t.seg fun k => { k with roleRefusals := bump k.roleRefusals }
    if t.entry.forward then s.passFrame t else s

/-- R11, R12, R18: the station map's decisions on a frame that the SEQUENCE CHECK has taken. -/
def mapFrame (s : State) (t : Taken) (consume : State → Taken → State) : State :=
  if t.entry.state = .empty then
    if s.params.passUnmapped then s.passFrame t
    else s.countPort t.seg fun k => { k with unmappedDropped := bump k.unmappedDropped }
  else if identityRefuses t.entry t.frame.msg then
    match t.frame.msg with
    | .hello i => s.helloMismatch t i
    | _ => s.refuseIdentity t.ix
  else s.takeAllowed t consume

/-- R2, R3, R11 to R15, R19, R20: the frame at the head of a receive queue, if it is of the kind given, is taken. -/
def takeFrame (s : State) (seg : Seg) (kind : LaneKind) (consume : State → Taken → State) : State :=
  match (s.port seg).rxQueue with
  | [] => s
  | f :: rest =>
      if f.msg.kind = kind then
        let ix := stationIx seg f.src
        let s := s.updPort seg fun p => { p with rxQueue := rest }
        match seqCheck (s.port seg).seqRecord[f.src] f.seq (kind == .hello) with
        | .duplicate =>
            let s := s.countPort seg fun k => { k with duplicates := bump k.duplicates }
            (s.heard seg ix).signHearing ix
        | .taken gap =>
            let s := s.updPort seg fun p => { p with seqRecord := p.seqRecord.set f.src (some f.seq) }
            let s := if gap then s.countPort seg fun k => { k with sequenceErrors := bump k.sequenceErrors } else s
            let s := s.heard seg ix
            (s.mapFrame ⟨seg, ix, s.station ix, f⟩ consume).signHearing ix
      else s

/-- R1, R2: a frame received in full. -/
def receive (s : State) (seg : Seg) (bytes : List Byte) : State :=
  match frameCheck bytes with
  | .crcError => (s.countPort seg fun k => { k with crcErrors := bump k.crcErrors }).windowRise seg
  | .foreign => s.countPort seg fun k => { k with foreignFrames := bump k.foreignFrames }
  | .formatError => s.countPort seg fun k => { k with formatErrors := bump k.formatErrors }
  | .passed f =>
      if (s.port seg).rxQueue.length < Config.rxQueueSize then
        s.updPort seg fun p => { p with rxQueue := p.rxQueue ++ [f] }
      else (s.countPort seg fun k => { k with overruns := bump k.overruns }).windowRise seg

/-- R16, R17: a HELLO that its identity allows. -/
def helloTaken (s : State) (t : Taken) : State :=
  match t.frame.msg with
  | .hello i =>
      match t.entry.state with
      | .learn =>
          if t.entry.identity = some i then s
          else (s.updStation t.ix fun e => { e with identity := some i }).stationEvent t.ix .identityLearned (some i) none
      | .frozen =>
          if t.entry.mismatched then
            (s.updStation t.ix fun e => { e with mismatched := false }).stationEvent t.ix .identityRestored none none
          else s
      | .empty => s
  | _ => s

/-- R34, R37: a console frame that its lane refuses. -/
def refuseConsole (s : State) (l : LaneId) : State :=
  s.countLane l fun k => { k with consoleRefusals := bump k.consoleRefusals }

/-- Whether a station holds a lane in MANUAL. -/
def holds (s : State) (l : LaneId) (ix : StationIx) : Bool :=
  (s.lane l).mode == .manual && (s.lane l).holder == some ix

/-- R31, R34, R59: a CONSOLE_TAKE. The mode's LANE_EVENT and page come before the aborts and their visit reports by the
model's choice (log entry 38). -/
def consoleTake (s : State) (t : Taken) : State :=
  let l := t.entry.lane
  if (s.lane l).mode = .manual then (if s.holds l t.ix then s else s.refuseConsole l)
  else
    let s := (s.latchOutputs l).changeMode l .manual .consoleTake (some t.ix)
    s.abortAll l (s.takeTargets l) .abortedManual

/-- R35: a CONSOLE_RELEASE. -/
def consoleRelease (s : State) (t : Taken) : State :=
  let l := t.entry.lane
  if s.holds l t.ix then s.changeMode l .suspended .consoleRelease none else s.refuseConsole l

/-- R31: a CONSOLE_OUTPUT. -/
def consoleOutput (s : State) (t : Taken) : State :=
  let l := t.entry.lane
  match t.frame.msg with
  | .consoleOutput b g p =>
      if s.holds l t.ix then
        s.updLane l fun x =>
          { x with barrier := x.barrier.console b, go := x.go.console g, stop := x.stop.console p }
      else s.refuseConsole l
  | _ => s

/-- R66: a READ_PLATE consumed. -/
def plateTaken (s : State) (t : Taken) : State :=
  match t.frame.msg with
  | .readPlate k v => s.takeAttached t.seg t.frame.src t.entry t.frame.msg (scoreInto t.seg t.entry .plate v k)
  | _ => s

/-- R66: a READ_TAG consumed, at confidence 100. -/
def tagTaken (s : State) (t : Taken) : State :=
  match t.frame.msg with
  | .readTag _ v => s.takeAttached t.seg t.frame.src t.entry t.frame.msg (scoreInto t.seg t.entry .tag v 100)
  | _ => s

/-- R66 to R68: a READ_UNIT consumed. -/
def unitTaken (s : State) (t : Taken) : State :=
  match t.frame.msg with
  | .readUnit pos k code size =>
      s.takeAttached t.seg t.frame.src t.entry t.frame.msg (scoreUnit t.seg t.entry pos code size k)
  | _ => s

/-- R66: a READ_SEAL consumed. -/
def sealTaken (s : State) (t : Taken) : State :=
  match t.frame.msg with
  | .readSeal pos k v =>
      s.takeAttached t.seg t.frame.src t.entry t.frame.msg (scoreInto t.seg t.entry (sealField pos) v k)
  | _ => s

/-- R135: a DAMAGE_MARKS consumed. -/
def damageTaken (s : State) (t : Taken) : State :=
  match t.frame.msg with
  | .damageMarks pos ms => s.takeAttached t.seg t.frame.src t.entry t.frame.msg (damageRead pos ms)
  | _ => s

/-- R81: a SCAN_END consumed. -/
def scanTaken (s : State) (t : Taken) : State :=
  match t.frame.msg with
  | .scanEnd l => s.takeAttached t.seg t.frame.src t.entry t.frame.msg (scanRead l)
  | _ => s

/-- R50: a KIOSK_ENTRY consumed. -/
def kioskTaken (s : State) (t : Taken) : State :=
  match t.frame.msg with
  | .kioskEntry r => s.takeAttached t.seg t.frame.src t.entry t.frame.msg (kioskRead r)
  | _ => s

/-- R173: a SIGN_ACK consumed. -/
def signAckTaken (s : State) (t : Taken) : State :=
  match t.frame.msg with
  | .signAck q => s.signAck t.ix q
  | _ => s

/-- R176: a TICKET_ACK consumed. -/
def ticketAckTaken (s : State) (t : Taken) : State :=
  match t.frame.msg with
  | .ticketAck q => s.ticketAck t.ix q
  | _ => s

/-- R4, R20, R174: one station of a segment that loses its signal becomes SILENT, and its silence timer stops. The sign
channel of an entry that was SILENT already is not told, by the model's choice (log entry 51). -/
def silenceStation (seg : Seg) (s : State) (a : Addr) : State :=
  let ix := stationIx seg a
  let e := s.station ix
  if e.state = .empty then s
  else
    let s := s.updStation ix fun e => { e with silent := true, silenceTimer := none }
    if e.silent then s else s.signSilent ix

/-- R20, R35: the hold of a console of a segment that loses its signal ends, that of one that was SILENT already with it, by
the model's choice (log entry 51). -/
def releaseSilent (seg : Seg) (s : State) (a : Addr) : State := s.endHold (stationIx seg a) .consoleSilent

/-- R4, R8: a segment loses its signal: it is DOWN, its transmit queue is discarded, its stations become SILENT, and then
the holds of its consoles end, in ascending address order by the model's choice where several hold (log entries
27 and 50). -/
def loseSignal (s : State) (seg : Seg) : State :=
  let s := s.enterSeg seg .down
  let s := s.updPort seg fun p =>
    { p with
      signal := false, windowCount := 0, windowTimer := false, txQueue := []
      counters := { p.counters with transmitDrops := bumpBy p.counters.transmitDrops p.txQueue.length } }
  let s := (List.finRange 31).foldl (silenceStation seg) s
  (List.finRange 31).foldl (releaseSilent seg) s

end State

/-! ### The commands of the links -/

/-- LANE_FRAME_RECEIVED (R1, R2, R189); on a segment without signal no frame is received in full (log entry 4). -/
def execLaneFrameReceived (seg : Seg) (bytes : List Byte) (s : State) : Host.Outcome State Fault Refusal :=
  whenRunning s fun s => if (s.port seg).state = .down then s else s.receive seg bytes

/-- READ_PLATE (R66). -/
def execReadPlate (seg : Seg) (s : State) : Host.Outcome State Fault Refusal :=
  whenRunning s fun s => s.takeFrame seg .readPlate State.plateTaken

/-- READ_TAG (R66). -/
def execReadTag (seg : Seg) (s : State) : Host.Outcome State Fault Refusal :=
  whenRunning s fun s => s.takeFrame seg .readTag State.tagTaken

/-- READ_UNIT (R67). -/
def execReadUnit (seg : Seg) (s : State) : Host.Outcome State Fault Refusal :=
  whenRunning s fun s => s.takeFrame seg .readUnit State.unitTaken

/-- READ_SEAL (R66). -/
def execReadSeal (seg : Seg) (s : State) : Host.Outcome State Fault Refusal :=
  whenRunning s fun s => s.takeFrame seg .readSeal State.sealTaken

/-- DAMAGE_MARKS (R135). -/
def execDamageMarks (seg : Seg) (s : State) : Host.Outcome State Fault Refusal :=
  whenRunning s fun s => s.takeFrame seg .damageMarks State.damageTaken

/-- SCAN_END (R81). -/
def execScanEnd (seg : Seg) (s : State) : Host.Outcome State Fault Refusal :=
  whenRunning s fun s => s.takeFrame seg .scanEnd State.scanTaken

/-- KIOSK_ENTRY (R50). -/
def execKioskEntry (seg : Seg) (s : State) : Host.Outcome State Fault Refusal :=
  whenRunning s fun s => s.takeFrame seg .kioskEntry State.kioskTaken

/-- STATION_HELLO (R16, R17). -/
def execStationHello (seg : Seg) (s : State) : Host.Outcome State Fault Refusal :=
  whenRunning s fun s => s.takeFrame seg .hello State.helloTaken

/-- STATION_STATUS (R19). -/
def execStationStatus (seg : Seg) (s : State) : Host.Outcome State Fault Refusal :=
  whenRunning s fun s => s.takeFrame seg .status fun s _ => s

/-- SIGN_ACK (R173). -/
def execSignAck (seg : Seg) (s : State) : Host.Outcome State Fault Refusal :=
  whenRunning s fun s => s.takeFrame seg .signAck State.signAckTaken

/-- TICKET_ACK (R176). -/
def execTicketAck (seg : Seg) (s : State) : Host.Outcome State Fault Refusal :=
  whenRunning s fun s => s.takeFrame seg .ticketAck State.ticketAckTaken

/-- CONSOLE_TAKE (R34). -/
def execConsoleTake (seg : Seg) (s : State) : Host.Outcome State Fault Refusal :=
  whenRunning s fun s => s.takeFrame seg .consoleTake State.consoleTake

/-- CONSOLE_RELEASE (R35). -/
def execConsoleRelease (seg : Seg) (s : State) : Host.Outcome State Fault Refusal :=
  whenRunning s fun s => s.takeFrame seg .consoleRelease State.consoleRelease

/-- CONSOLE_OUTPUT (R31). -/
def execConsoleOutput (seg : Seg) (s : State) : Host.Outcome State Fault Refusal :=
  whenRunning s fun s => s.takeFrame seg .consoleOutput State.consoleOutput

/-- SIGNAL_LOSS (R4, R8). -/
def execSignalLoss (seg : Seg) (s : State) : Host.Outcome State Fault Refusal :=
  whenRunning s fun s => if (s.port seg).state = .down then s else s.loseSignal seg

/-- SIGNAL_DETECT (R4). -/
def execSignalDetect (seg : Seg) (s : State) : Host.Outcome State Fault Refusal :=
  whenRunning s fun s =>
    if (s.port seg).state = .down then
      (s.enterSeg seg .up).updPort seg fun p => { p with signal := true, windowCount := 0, windowTimer := true }
    else s

/-- ERROR_WINDOW_EXPIRY (R5, R6). -/
def execErrorWindowExpiry (seg : Seg) (s : State) : Host.Outcome State Fault Refusal :=
  whenRunning s fun s =>
    let p := s.port seg
    if p.windowTimer then
      let t := s.params.segThreshold[seg]
      let s := if p.state = .impaired ∧ (p.windowCount.toNat ≤ t ∨ t = 0) then s.enterSeg seg .up else s
      s.updPort seg fun p => { p with windowCount := 0 }
    else s

/-- TRANSMIT_END (R7). -/
def execTransmitEnd (seg : Seg) (s : State) : Host.Outcome State Fault Refusal :=
  whenRunning s fun s => s.updPort seg fun p => { p with txQueue := p.txQueue.tail }

/-- STATION_SILENCE_EXPIRY (R19, R20). -/
def execStationSilenceExpiry (seg : Seg) (addr : Addr) (s : State) : Host.Outcome State Fault Refusal :=
  whenRunning s fun s =>
    let ix := stationIx seg addr
    if (s.station ix).silenceTimer.isSome then (s.stationEvent ix .stationSilent none none).becomeSilent ix else s

end Sys2Proof.Machine
end

