-- ==== Sys2Proof/WellFormed.lean ====
section
/-! DEFINITION. The commands the outside can send as their rows describe them (lengths of bodies, commands outside a
list). exec is total on ill-formed ones as well. -/

namespace Sys2Proof

/-- R190: the record bytes a TABLE_WRITE of each written table carries (file 11, table records), by table number;
`none` for a table that is not written or does not exist, where any length is allowed. -/
def tableRecordSize (table : Nat) : Option Nat :=
  match table with
  | 0 => some 15
  | 1 => some 13
  | 2 => some 8
  | 3 => some 1
  | 4 => some 20
  | 5 => some 1
  | 6 => some 9
  | 7 => some 5
  | _ => none

/-- R178, R190: the kind codes the gate server may send. -/
def isGateKind (kind : Nat) : Bool := 1 ≤ kind && kind ≤ 11

/-- R186: whether an index of PARAMETERS is an input entry (items 0..3 of a lane). -/
def isInputIndex (index : Nat) : Bool := 32 ≤ index && index ≤ 111 && (index - 32) % 5 != 4

/-- Whether a command has the form its row describes. -/
def Instr.wf : Instr → Bool
  | .laneFrameReceived _ bytes => bytes.length != 0
  | .bookingData _ record => record.length == 120
  | .bookingNone _ key => key.length == 11
  | .bookingRecall _ key => key.length == 11
  | .gateFrameUnknownKind _ kind => !isGateKind kind.toNat
  | .tableWriteParameters _ index _ _ => index.toNat != 14 && !isInputIndex index.toNat
  | .tableWrite _ table _ record =>
      match tableRecordSize table.toNat with
      | some n => record.length == n
      | none => true
  | .laneCommandBadValue _ command => 3 < command.toNat
  | .partCommandBadValue _ command => 3 < command.toNat
  | .readPlate _ | .readTag _ | .readUnit _ | .readSeal _ | .damageMarks _ | .scanEnd _ | .kioskEntry _
  | .stationHello _ | .stationStatus _ | .signAck _ | .ticketAck _ | .consoleTake _ | .consoleRelease _
  | .consoleOutput _ | .signalLoss _ | .signalDetect _ | .errorWindowExpiry _ | .transmitEnd _
  | .stationSilenceExpiry _ _ | .inputLevelChange _ _ _ | .inputFilterExpiry _ _ | .approachExpiry _
  | .identificationExpiry _ | .rulingExpiry _ | .fetchTimeout _ | .flush _ | .clockMinute | .timeSet _ _ _
  | .visitRuling _ _ _ _ | .arrivedAt _ _ | .signAckExpiry _ _ | .ticketAckExpiry _ _ _
  | .gateFrameDiscarded _ | .heartbeat _ | .heartbeatExpiry | .uplinkLinkDown | .uplinkLinkUp | .reportSent
  | .tableWriteStationMap _ _ _ _ _ _ _ _ _ _ | .tableWriteSlotWindows _ _ _ _ _ _ _
  | .tableWriteDestinations _ _ _ _ _ _ _ _ | .tableWriteDefaults _ _ _ | .tableWritePhrases _ _ _
  | .tableWriteDamageWeights _ _ _ | .tableWriteUncachedPrefixes _ _ _ _ _
  | .tableWriteInputEntry _ _ _ _ _ _ | .tableWriteTransparency _ _ | .tableRead _ _ _ | .counterRead _ _ _
  | .laneCommandOpen _ _ | .laneCommandClose _ _ | .laneCommandReset _ _ | .outputSet _ _ _ _ _
  | .resetDynamic _ | .resetAll _ | .powerOn _ _ => true

end Sys2Proof
end

