-- ==== Sys2Proof/Machine/Tables.lean ====
section
/-! DEFINITION. The tables (R185, R186): their writes, each answered by the rule of its owner, and their reads. -/

namespace Sys2Proof.Machine

/-! ### Coded fields of records (R190, section 11.5) -/

def mapStateOf (b : Byte) : Option MapState :=
  match b.toNat with
  | 0 => some .empty
  | 1 => some .learn
  | 2 => some .frozen
  | _ => none

def roleOf (b : Byte) : Option Role :=
  match b.toNat with
  | 0 => some .plate
  | 1 => some .tag
  | 2 => some .unit
  | 3 => some .seal
  | 4 => some .damage
  | 5 => some .kiosk
  | 6 => some .sign
  | 7 => some .printer
  | 8 => some .console
  | _ => none

def zoneOf (b : Byte) : Option Zone :=
  match b.toNat with
  | 0 => some .approach
  | 1 => some .position
  | _ => none

def destKindOf (b : Byte) : Option DestKind :=
  match b.toNat with
  | 0 => some .yard
  | 1 => some .inspection
  | 2 => some .trouble
  | _ => none

def policyOf (n : Nat) : Option WritePolicy :=
  match n with
  | 0 => some .through
  | 1 => some .back
  | 2 => some .adaptive
  | _ => none

/-- A number clamped to 0..15. -/
def clampLane (b : Byte) : LaneId := if h : b.toNat < 16 then ⟨b.toNat, h⟩ else 15

/-- A number clamped to 0..63. -/
def clampDest (n : Nat) : Fin 64 := if h : n < 64 then ⟨n, h⟩ else 63

/-! ### STATION_MAP (R10, R35, R172, R176) -/

/-- R172: the channel an entry has after an accepted write. -/
def newChannel (st : MapState) (role : Role) (silent : Bool) : Option SignChannel :=
  match st, role with
  | .empty, _ => none
  | _, .sign => some ⟨silent, none, none, none, none⟩
  | _, _ => none

/-- R10, R172, R176: an entry after an accepted write. -/
def Station.written (e : Station) (st : MapState) (identity : Option (BitVec 32)) (lane : LaneId) (role : Role)
    (zone : Zone) (weight : Nat) (forward : Bool) : Station :=
  let keeps := e.state != .empty && st != .empty
  let silent := if keeps then e.silent else true
  { state := st
    identity := if st = .empty then none else identity
    mismatched := false
    lane := lane, role := role, zone := zone, weight := weight, forward := forward
    silent := silent
    silenceTimer := if keeps then e.silenceTimer else none
    mismatchCount := 0
    channel := newChannel st role silent
    tickets := [] }

/-- R10, R35, R171, R172: the write of an entry, the end of the hold of its console, and, for a SIGN entry, the page of
its new lane, composed for every SIGN of that lane. By the model's choice (log entry 37) the hold ends between the write and the
composition, and a SIGN entry is one that is SIGN after the write: a write that gives a former SIGN entry another role composes
nothing. -/
def State.writeStation (s : State) (ix : StationIx) (f : Station → Station) : State :=
  let s := (s.updStation ix f).updPort (segOf ix) fun p => { p with seqRecord := p.seqRecord.set (addrOf ix) none }
  let s := s.endHold ix .consoleRewritten
  if (s.station ix).isSign then s.compose (s.station ix).lane else s

/-- R10, R185: the answer to a write of STATION_MAP (flag bytes other than 0 and 1: log entry 18). -/
def writeStationAnswer (index : BitVec 16) (state idPresent : Byte) (identity : BitVec 32)
    (lane role zone weight forward : Byte) (s : State) : Answer × State :=
  if hi : index.toNat < 124 then
    match mapStateOf state, boolOf idPresent, roleOf role, zoneOf zone, boolOf forward with
    | some st, some present, some r, some z, some fwd =>
        if st = .frozen ∧ present = false then refuse s .badValue
        else
          (Answer.okClamped (decide (15 < lane.toNat) || decide (8 < weight.toNat)),
            s.writeStation ⟨index.toNat, hi⟩ fun e =>
              e.written st (if present then some identity else none) (clampLane lane) r z (min weight.toNat 8) fwd)
    | _, _, _, _, _ => refuse s .badValue
  else refuse s .badIndex

/-! ### SLOT_WINDOWS (R118, R120) -/

/-- R118: the place of an index of the window table. -/
def windowIx (index : Nat) : Option (DayIx × Fin 96) :=
  if h : index < 96 then some (.yesterday, ⟨index, h⟩)
  else if h : index - 96 < 96 then some (.today, ⟨index - 96, h⟩)
  else if h : index - 192 < 96 then some (.tomorrow, ⟨index - 192, h⟩)
  else none

/-- R120: the answer to a write of SLOT_WINDOWS, the rows of the rule's table taken from the top (log entry 57). -/
def writeWindowAnswer (index day : BitVec 16) (state capacity overbook openShare : Byte) (s : State) : Answer × State :=
  match windowIx index.toNat with
  | none => refuse s .badIndex
  | some p =>
      match boolOf state with
      | none => refuse s .badValue
      | some isOpen =>
          if s.slot.clock.isNone then refuse s .denied
          else if (s.dayTable p.1).day ≠ some day then refuse s .denied
          else
            (Answer.okClamped (decide (8 < overbook.toNat) || decide (8 < openShare.toNat)),
              s.updWindow p.1 p.2 fun w =>
                { w with
                  isOpen := isOpen, capacity := capacity.toNat
                  overbook := min overbook.toNat 8, openShare := min openShare.toNat 8 })

/-! ### DESTINATIONS and DEFAULTS (R153, R154) -/

/-- R153: the answer to a write of DESTINATIONS (bits of the accepted kinds above the fourth: log entry 19). -/
def writeDestAnswer (index : BitVec 16) (kind state capacity accepts alternate phrase : Byte) (s : State) :
    Answer × State :=
  if hi : index.toNat < 64 then
    match destKindOf kind, boolOf state, hintOf alternate with
    | some k, some isOpen, some alt =>
        (Answer.okClamped (decide (63 < capacity.toNat)),
          s.updDestAt ⟨index.toNat, hi⟩ fun d =>
            { d with
              kind := k, isOpen := isOpen, capacity := min capacity.toNat 63
              acceptsExportFull := accepts.getLsbD 0, acceptsEmptyReturn := accepts.getLsbD 1
              acceptsImportFull := accepts.getLsbD 2, acceptsEmptyPickup := accepts.getLsbD 3
              alternate := alt, phrase := phrase.toNat })
    | _, _, _ => refuse s .badValue
  else refuse s .badIndex

/-- R154: the answer to a write of DEFAULTS. -/
def writeDefaultAnswer (index : BitVec 16) (value : Byte) (s : State) : Answer × State :=
  if hi : index.toNat < 6 then
    (Answer.okClamped (decide (63 < value.toNat)),
      s.updDest fun u => { u with defaults := u.defaults.set index.toNat (clampDest value.toNat) })
  else refuse s .badIndex

/-! ### PHRASES and the transparency character (R167) -/

/-- R167: the answer to a write of PHRASES. -/
def writePhraseAnswer (index : BitVec 16) (chars : Vector Byte 20) (s : State) : Answer × State :=
  if hi : index.toNat < 256 then
    if chars.toList.all fun b => isTextChar b || b == s.params.transparency then
      (Answer.ok, (s.updSigns fun u => { u with phrases := u.phrases.set index.toNat chars }).composeAll)
    else refuse s .badValue
  else refuse s .badIndex

/-- R167: a code the transparency character may take. -/
def transparencyOk (n : Nat) : Bool :=
  decide (0x21 ≤ n) && decide (n ≤ 0x7E) && !isKeyChar (BitVec.ofNat 8 n)

/-- R167: the answer to a write of the transparency character. -/
def writeTransparencyAnswer (value : BitVec 16) (s : State) : Answer × State :=
  if transparencyOk value.toNat then
    (Answer.ok, (s.updParams fun p => { p with transparency := value.setWidth 8 }).composeAll)
  else refuse s .badValue

/-! ### DAMAGE_WEIGHTS and UNCACHED_PREFIXES (R147, R93) -/

/-- R147: the answer to a write of DAMAGE_WEIGHTS. -/
def writeWeightAnswer (index : BitVec 16) (weight : Byte) (s : State) : Answer × State :=
  if hi : index.toNat < 5 then
    (Answer.okClamped (decide (15 < weight.toNat)),
      s.updCheck fun u => { u with weights := u.weights.set index.toNat (min weight.toNat 15) })
  else refuse s .badIndex

/-- R93: the answer to a write of UNCACHED_PREFIXES (a present byte other than 0 and 1: log entry 18; an absent range's
characters: log entry 28). -/
def writePrefixAnswer (index : BitVec 16) (present : Byte) (first last : Vector Byte 4) (s : State) : Answer × State :=
  if hi : index.toNat < 2 then
    match boolOf present with
    | none => refuse s .badValue
    | some false => (Answer.ok, s.updCache fun c => { c with uncached := c.uncached.set index.toNat none })
    | some true =>
        if (first.toList ++ last.toList).all isKeyChar then
          (Answer.ok, s.updCache fun c => { c with uncached := c.uncached.set index.toNat (some ⟨first, last⟩) })
        else refuse s .badValue
  else refuse s .badIndex

/-! ### PARAMETERS (R186) -/

/-- R25: the answer to a write of a lane input entry. -/
def writeInputAnswer (lane : LaneId) (inp : Input) (enable polarity filter : Byte) (s : State) : Answer × State :=
  match boolOf enable, boolOf polarity with
  | some en, some low =>
      let old := s.input lane inp
      let s := s.updInput lane inp fun i => { i with enabled := en, activeLow := low, filter := min filter.toNat 15 }
      (Answer.okClamped (decide (15 < filter.toNat)),
        if old.enabled = en ∧ old.activeLow = low then s else s.rearm lane inp)
  | _, _ => refuse s .badValue

/-- R26, R186: the answer to a write of a release edge. -/
def writeEdgeAnswer (lane : LaneId) (value : Nat) (s : State) : Answer × State :=
  match value with
  | 0 => (Answer.ok, s.updLane lane fun x => { x with exitOnEdge := true })
  | 1 => (Answer.ok, s.updLane lane fun x => { x with exitOnEdge := false })
  | _ => refuse s .badValue

/-- R185, R186: a numeric parameter: its range, and where it is held. -/
structure NumParam where
  lo : Nat
  hi : Nat
  put : Params → Nat → Params
  get : Params → Nat

/-- R186: the numeric parameters by index. -/
def numParam (index : Nat) : Option NumParam :=
  match index with
  | 0 => some ⟨1, 255, fun p n => { p with identWindow := n }, (·.identWindow)⟩
  | 1 => some ⟨10, 255, fun p n => { p with approachLimit := n }, (·.approachLimit)⟩
  | 2 => some ⟨1, 255, fun p n => { p with fetchTimeout := n }, (·.fetchTimeout)⟩
  | 3 => some ⟨5, 255, fun p n => { p with rulingDeadline := n }, (·.rulingDeadline)⟩
  | 4 => some ⟨1, 127, fun p n => { p with signAck := n }, (·.signAck)⟩
  | 5 => some ⟨1, 127, fun p n => { p with ticketAck := n }, (·.ticketAck)⟩
  | 6 => some ⟨1, 60, fun p n => { p with silenceLimit := n }, (·.silenceLimit)⟩
  | 7 => some ⟨1, 60, fun p n => { p with heartbeat := n }, (·.heartbeat)⟩
  | 8 => some ⟨1, 255, fun p n => { p with transitTimeout := n }, (·.transitTimeout)⟩
  | 10 => some ⟨0, 64, fun p n => { p with adaptiveThreshold := n }, (·.adaptiveThreshold)⟩
  | 12 => some ⟨0, 63, fun p n => { p with provisionalDest := clampDest n }, (·.provisionalDest.val)⟩
  | 15 => some ⟨0, 60, fun p n => { p with earlyTolerance := n }, (·.earlyTolerance)⟩
  | 16 => some ⟨0, 60, fun p n => { p with lateTolerance := n }, (·.lateTolerance)⟩
  | 17 => some ⟨0, 255, fun p n => { p with recordThreshold := n }, (·.recordThreshold)⟩
  | 18 => some ⟨0, 255, fun p n => { p with inspectThreshold := n }, (·.inspectThreshold)⟩
  | 19 => some ⟨0, 255, fun p n => { p with segThreshold := p.segThreshold.set 0 n }, (·.segThreshold[0])⟩
  | 20 => some ⟨0, 255, fun p n => { p with segThreshold := p.segThreshold.set 1 n }, (·.segThreshold[1])⟩
  | 21 => some ⟨0, 255, fun p n => { p with segThreshold := p.segThreshold.set 2 n }, (·.segThreshold[2])⟩
  | 22 => some ⟨0, 255, fun p n => { p with segThreshold := p.segThreshold.set 3 n }, (·.segThreshold[3])⟩
  | 23 => some ⟨0, 1023, fun p n => { p with plateT := n }, (·.plateT)⟩
  | 24 => some ⟨0, 1023, fun p n => { p with plateM := n }, (·.plateM)⟩
  | 25 => some ⟨0, 1023, fun p n => { p with tagT := n }, (·.tagT)⟩
  | 26 => some ⟨0, 1023, fun p n => { p with tagM := n }, (·.tagM)⟩
  | 27 => some ⟨0, 1023, fun p n => { p with unitT := n }, (·.unitT)⟩
  | 28 => some ⟨0, 1023, fun p n => { p with unitM := n }, (·.unitM)⟩
  | 29 => some ⟨0, 1023, fun p n => { p with sealT := n }, (·.sealT)⟩
  | 30 => some ⟨0, 1023, fun p n => { p with sealM := n }, (·.sealM)⟩
  | _ => none

/-- R186: an enumerated parameter takes a value of its list. -/
def enumParam (index value : Nat) (p : Params) : Option Params :=
  match index, value with
  | 9, n => (policyOf n).map fun w => { p with writePolicy := w }
  | 11, 0 => some { p with offlineProvisional := false }
  | 11, 1 => some { p with offlineProvisional := true }
  | 13, 0 => some { p with passUnmapped := false }
  | 13, 1 => some { p with passUnmapped := true }
  | _, _ => none

/-- R186: the lane and item of a lane entry of PARAMETERS. -/
def laneEntry (index : Nat) : Option (LaneId × Nat) :=
  if 32 ≤ index then
    if h : (index - 32) / 5 < 16 then some (⟨(index - 32) / 5, h⟩, (index - 32) % 5) else none
  else none

/-- R186: the input of an item of a lane entry. -/
def inputOf (item : Nat) : Option Input :=
  match item with
  | 0 => some .entry
  | 1 => some .position
  | 2 => some .exit
  | 3 => some .barrierDown
  | _ => none

/-- R185, R186: the answer to a write of PARAMETERS. -/
def writeParamAnswer (index value : BitVec 16) (third : Byte) (s : State) : Answer × State :=
  if index.toNat = 31 then refuse s .badIndex
  else if index.toNat = 14 then writeTransparencyAnswer value s
  else
    match numParam index.toNat with
    | some q =>
        let n := clampTo q.lo q.hi value.toNat
        (Answer.okClamped (decide (n ≠ value.toNat)), s.updParams fun p => q.put p n)
    | none =>
        match laneEntry index.toNat with
        | some (l, item) =>
            match inputOf item with
            | some inp => writeInputAnswer l inp (value.extractLsb' 8 8) (value.extractLsb' 0 8) third s
            | none => writeEdgeAnswer l value.toNat s
        | none =>
            if 31 < index.toNat then refuse s .badIndex
            else
              match enumParam index.toNat value.toNat s.params with
              | some p => (Answer.ok, s.updParams fun _ => p)
              | none => refuse s .badValue

/-! ### TABLE_WRITE by table number (R185) -/

/-- A run of `n` record bytes as a vector. -/
def vecAt (b : List Byte) (i n : Nat) : Vector Byte n := Vector.ofFn fun k => b.getD (i + k.val) 0

/-- R185, section 11.5: a write by its table number and record bytes, handled by the owner of the table. -/
def writeAnswer (table : Byte) (index : BitVec 16) (b : List Byte) (s : State) : Answer × State :=
  let x (i : Nat) : Byte := b.getD i 0
  match table.toNat with
  | 0 => writeStationAnswer index (x 0) (x 1) (be32 (x 2) (x 3) (x 4) (x 5)) (x 6) (x 7) (x 8) (x 9) (x 10) s
  | 1 => writeWindowAnswer index (be16 (x 0) (x 1)) (x 2) (x 3) (x 4) (x 5) s
  | 2 => writeDestAnswer index (x 0) (x 1) (x 2) (x 3) (x 4) (x 5) s
  | 3 => writeDefaultAnswer index (x 0) s
  | 4 => writePhraseAnswer index (vecAt b 0 20) s
  | 5 => writeWeightAnswer index (x 0) s
  | 6 => writePrefixAnswer index (x 0) (vecAt b 1 4) (vecAt b 5 4) s
  | 7 => writeParamAnswer index (be16 (x 0) (x 1)) (x 2) s
  | _ => refuse s .badTable

/-! ### TABLE_READ (R185) -/

def readParam (s : State) (index : Nat) : Option TableRecord :=
  match numParam index with
  | some q => some (.parameter (q.get s.params))
  | none =>
      match laneEntry index with
      | some (l, item) =>
          match inputOf item with
          | some inp =>
              let i := s.input l inp
              some (.inputEntry i.enabled i.activeLow i.filter)
          | none => some (.parameter (if (s.lane l).exitOnEdge then 0 else 1))
      | none =>
          match index with
          | 9 => some (.parameter (match s.params.writePolicy with | .through => 0 | .back => 1 | .adaptive => 2))
          | 11 => some (.parameter s.params.offlineProvisional.toNat)
          | 13 => some (.parameter s.params.passUnmapped.toNat)
          | 14 => some (.parameter s.params.transparency.toNat)
          | 31 => some (.clock s.slot.clock)
          | _ => none

/-- R37, R185: a lane record. -/
def laneRecord (s : State) (l : LaneId) : LaneRecord where
  mode := (s.lane l).mode
  holder := (s.lane l).holder
  levels := (s.lane l).inputs.toList.map (·.level)
  outputs := [.barrier, .go, .stop].map fun o => (((s.lane l).output o).remote, s.driven l o)
  pendingArrivals := (s.lane l).pendingArrivals

/-- Section 3.1: a context's record; a FREE context shows its state alone. -/
def contextRecord (c : Ctx) : TableRecord := .context (if c.state = .free then {} else c)

/-- R185: the record of a table at an index, none where the index lies outside the table's range. -/
def readTable (s : State) (table : Nat) (i : Nat) : Option TableRecord :=
  match table with
  | 0 => if h : i < 124 then some (.stationMap (s.station ⟨i, h⟩)) else none
  | 1 =>
      (windowIx i).map fun p =>
        let w := s.windowAt p
        .slotWindow (s.dayTable p.1).day w w.max w.openLimit
  | 2 => if h : i < 64 then some (.destination (s.destAt ⟨i, h⟩)) else none
  | 3 => if h : i < 6 then some (.number s.dest.defaults[i].val) else none
  | 4 => if h : i < 256 then some (.phrase s.signs.phrases[i]) else none
  | 5 => if h : i < 5 then some (.number s.check.weights[i]) else none
  | 6 => if h : i < 2 then some (.keyRange s.cache.uncached[i]) else none
  | 7 => readParam s i
  | 8 =>
      if h : i < 24 then some (contextRecord (s.ctx ⟨i, h⟩))
      else if h : i - 24 < 16 then some (.lane (laneRecord s ⟨i - 24, h⟩))
      else none
  | 9 =>
      if h : i / 2 < 1024 then
        some (.cacheEntry (s.entry ⟨i / 2, h⟩ (if i % 2 = 0 then 0 else 1)) s.cache.sets[i / 2].age)
      else none
  | 10 => if i < 256 then some (.transit s.dest.transit[i]?) else none
  | _ => none

/-- R185: the answer to a TABLE_READ. -/
def readAnswer (table : Byte) (index : BitVec 16) (s : State) : Answer × State :=
  if 10 < table.toNat then refuse s .badTable
  else
    match readTable s table.toNat index.toNat with
    | some r => ({ status := .ok, body := .record r }, s)
    | none => refuse s .badIndex

/-! ### The commands -/

/-- TABLE_WRITE of STATION_MAP (R10). -/
def execTableWriteStationMap (h : GateHdr) (index : BitVec 16) (state idPresent : Byte) (identity : BitVec 32)
    (lane role zone weight forward : Byte) (s : State) : Host.Outcome State Fault Refusal :=
  whenRunning s fun s =>
    s.request h 6 (writeStationAnswer index state idPresent identity lane role zone weight forward)

/-- TABLE_WRITE of SLOT_WINDOWS (R120). -/
def execTableWriteSlotWindows (h : GateHdr) (index day : BitVec 16) (state capacity overbook openShare : Byte)
    (s : State) : Host.Outcome State Fault Refusal :=
  whenRunning s fun s => s.request h 6 (writeWindowAnswer index day state capacity overbook openShare)

/-- TABLE_WRITE of DESTINATIONS (R153). -/
def execTableWriteDestinations (h : GateHdr) (index : BitVec 16) (kind state capacity accepts alternate phrase : Byte)
    (s : State) : Host.Outcome State Fault Refusal :=
  whenRunning s fun s => s.request h 6 (writeDestAnswer index kind state capacity accepts alternate phrase)

/-- TABLE_WRITE of DEFAULTS (R154). -/
def execTableWriteDefaults (h : GateHdr) (index : BitVec 16) (value : Byte) (s : State) :
    Host.Outcome State Fault Refusal :=
  whenRunning s fun s => s.request h 6 (writeDefaultAnswer index value)

/-- TABLE_WRITE of PHRASES (R167). -/
def execTableWritePhrases (h : GateHdr) (index : BitVec 16) (chars : Vector Byte 20) (s : State) :
    Host.Outcome State Fault Refusal :=
  whenRunning s fun s => s.request h 6 (writePhraseAnswer index chars)

/-- TABLE_WRITE of DAMAGE_WEIGHTS (R147). -/
def execTableWriteDamageWeights (h : GateHdr) (index : BitVec 16) (weight : Byte) (s : State) :
    Host.Outcome State Fault Refusal :=
  whenRunning s fun s => s.request h 6 (writeWeightAnswer index weight)

/-- TABLE_WRITE of UNCACHED_PREFIXES (R93). -/
def execTableWriteUncachedPrefixes (h : GateHdr) (index : BitVec 16) (present : Byte) (first last : Vector Byte 4)
    (s : State) : Host.Outcome State Fault Refusal :=
  whenRunning s fun s => s.request h 6 (writePrefixAnswer index present first last)

/-- TABLE_WRITE of a PARAMETERS entry (R186). -/
def execTableWriteParameters (h : GateHdr) (index value : BitVec 16) (third : Byte) (s : State) :
    Host.Outcome State Fault Refusal :=
  whenRunning s fun s => s.request h 6 (writeParamAnswer index value third)

/-- TABLE_WRITE of a lane input entry of PARAMETERS (R25). -/
def execTableWriteInputEntry (h : GateHdr) (lane : LaneId) (inp : Input) (enable polarity filter : Byte) (s : State) :
    Host.Outcome State Fault Refusal :=
  whenRunning s fun s => s.request h 6 (writeInputAnswer lane inp enable polarity filter)

/-- TABLE_WRITE of the transparency character (R167). -/
def execTableWriteTransparency (h : GateHdr) (value : BitVec 16) (s : State) : Host.Outcome State Fault Refusal :=
  whenRunning s fun s => s.request h 6 (writeTransparencyAnswer value)

/-- TABLE_WRITE by its table number (R185); a record of another length than its table's is a malformed gate frame
(R178, R190; log entry 29). -/
def execTableWrite (h : GateHdr) (table : Byte) (index : BitVec 16) (record : List Byte) (s : State) :
    Host.Outcome State Fault Refusal :=
  whenRunning s fun s =>
    if (tableRecordSize table.toNat).any (· != record.length) then
      s.countUplink fun k => { k with malformed := bump k.malformed }
    else s.request h 6 (writeAnswer table index record)

/-- TABLE_READ (R185). -/
def execTableRead (h : GateHdr) (table : Byte) (index : BitVec 16) (s : State) : Host.Outcome State Fault Refusal :=
  whenRunning s fun s => s.request h 7 (readAnswer table index)

end Sys2Proof.Machine
end

