-- ==== Sys2Proof/Machine/Wire.lean ====
section
/-! DEFINITION. The bytes on the wires (chapter 11): lane frames sent, gate frames sent, and the tests of a gate frame
received (R178). A byte that no rule states is a free value (log entry 24). -/

namespace Sys2Proof.Machine

/-- `n` bytes of a place of the layout that no rule states. -/
def freeBytes (place n : Nat) : List Byte := (List.range n).map (Config.unstatedByte place)

def byteOf (n : Nat) : Byte := BitVec.ofNat 8 n
def flagByte (b : Bool) : Byte := if b then 1 else 0
def twoBytes (n : Nat) : List Byte := bytesOf16 (BitVec.ofNat 16 n)

/-- R190: a one-byte number or enumeration, 0xFF where absent or NONE. -/
def optByte {α : Type} (f : α → Byte) : Option α → Byte
  | some x => f x
  | none => 0xFF

/-- R190: an absolute minute. -/
def minuteBytes : Stamp → List Byte
  | .unset => [0xFF, 0xFF, 0xFF, 0xFF]
  | .at m => bytesOf32 (BitVec.ofNat 32 m)

/-- R190: an optional minute field. -/
def optMinute : Option Stamp → List Byte
  | some x => minuteBytes x
  | none => [0xFF, 0xFF, 0xFF, 0xFE]

/-- R190: a character field of varying length; an absent value has length 0 (log entry 33). -/
def textField (n : Nat) (t : Option Text) : List Byte := byteOf ((t.getD []).length) :: padTo n (t.getD [])

/-- A fixed character field, or bytes that no rule states. -/
def fixedField (place n : Nat) (t : Option Text) : List Byte :=
  match t with
  | some t => padTo n t
  | none => freeBytes place n

/-! ### Codes (R189, R190, chapter 11) -/

def laneFaceCode : LaneFace → Byte
  | .laneLeft => 0 | .laneRight => 1 | .top => 2 | .frontEnd => 3 | .rearEnd => 4

def faceCode : Face → Byte
  | .left => 0 | .right => 1 | .roof => 2 | .door => 3 | .front => 4

def damageKindCode : DamageKind → Byte
  | .dent => 0 | .hole => 1 | .crease => 2 | .bulge => 3 | .rust => 4

def lengthCode : LengthClass → Byte
  | .l20 => 20 | .l40 => 40 | .l45 => 45

def doorCode : DoorEnd → Byte
  | .doorsAft => 0 | .doorsFore => 1 | .unknown => 2

def sealCode : SealResult → Byte
  | .ok => 0 | .near => 1 | .missing => 2 | .mismatch => 3 | .unexpected => 4

def damageCode : DamageResult → Byte
  | .none => 0 | .minor => 1 | .recorded => 2 | .inspect => 3

def bookingKindCode : BookingKind → Byte
  | .exportFull => 0 | .emptyReturn => 1 | .importFull => 2 | .emptyPickup => 3

def progressCode : Progress → Byte
  | .booked => 0 | .arrived => 1 | .gatedIn => 2 | .cancelled => 3

def modeCode : LaneMode → Byte
  | .closed => 0 | .open => 1 | .closing => 2 | .manual => 3 | .suspended => 4

def ctxStateCode : CtxState → Byte
  | .free => 0 | .arriving => 1 | .identifying => 2 | .lookup => 3
  | .referred => 4 | .decided => 5 | .releasing => 6 | .closing => 7

def fieldStateCode : FieldState → Byte
  | .open => 0 | .settled => 1 | .weak => 2 | .unresolved => 3 | .absent => 4 | .contested => 5

def outcomeCode : Outcome → Byte
  | .completed => 0 | .withdrawn => 1 | .aborted => 2 | .abortedManual => 3

def sourceCode : LinkSource → Byte
  | .unitFwd => 0 | .unitAft => 1 | .kiosk => 2

def linkStateCode : LinkState → Byte
  | .pending => 0 | .resolved => 1 | .noneFound => 2 | .failed => 3

def slotCode : SlotResult → Byte
  | .unchecked => 0 | .none => 1 | .onTime => 2 | .reslotted => 3
  | .walkIn => 4 | .full => 5 | .missed => 6 | .closed => 7

def segStateCode : SegState → Byte
  | .down => 0 | .up => 1 | .impaired => 2

def stationCauseCode : StationCause → Byte
  | .identityLearned => 0 | .identityMismatch => 1 | .identityRestored => 2 | .stationActive => 3
  | .stationSilent => 4 | .signFault => 5 | .signRestored => 6

def modeCauseCode : ModeCause → Byte
  | .command => 0 | .consoleTake => 1 | .consoleRelease => 2 | .consoleSilent => 3
  | .consoleRewritten => 4 | .contextsDrained => 5 | .reset => 6

def helloCauseCode : HelloCause → Byte
  | .powerOn => 0 | .resetAll => 1 | .resetDynamic => 2 | .linkUp => 3

def policyCode : WritePolicy → Byte
  | .through => 0 | .back => 1 | .adaptive => 2

def statusCode : Status → Byte
  | .ok => 0 | .badKind => 1 | .badTable => 2 | .badIndex => 3 | .badValue => 4 | .denied => 5 | .unknownVisit => 6

def detailCode : Detail → Byte
  | .none => 0
  | .state st => ctxStateCode st
  | .noDestination => 0xFE

def laneKindCode : LaneKind → Byte
  | .readPlate => 0x01 | .readTag => 0x02 | .readUnit => 0x03 | .readSeal => 0x04 | .damageMarks => 0x05
  | .scanEnd => 0x06 | .kioskEntry => 0x07 | .hello => 0x08 | .status => 0x09 | .signAck => 0x0A
  | .ticketAck => 0x0B | .consoleTake => 0x0C | .consoleRelease => 0x0D | .consoleOutput => 0x0E

def mapStateCode : MapState → Byte
  | .empty => 0 | .learn => 1 | .frozen => 2

def roleCode : Role → Byte
  | .plate => 0 | .tag => 1 | .unit => 2 | .seal => 3 | .damage => 4
  | .kiosk => 5 | .sign => 6 | .printer => 7 | .console => 8

def zoneCode : Zone → Byte
  | .approach => 0 | .position => 1

def destKindCode : DestKind → Byte
  | .yard => 0 | .inspection => 1 | .trouble => 2

def entryStateCode : EntryState → Byte
  | .invalid => 0 | .filling => 1 | .valid => 2

def owedCode : ReportOwed → Byte
  | .none => 0 | .update => 1 | .writeback => 2

def markCode : RecallMark → Byte
  | .none => 0 | .refill => 1 | .pending => 2

/-- Bits from bit 0 upward as a number. -/
def bitsValue : List Bool → Nat
  | [] => 0
  | b :: bs => b.toNat + 2 * bitsValue bs

def reasonBits (r : Reasons) : Nat :=
  bitsValue [r.identity, r.bookingUnavailable, r.noBooking, r.hold, r.mismatch, r.exhausted, r.slot, r.sealFail,
    r.damage, r.noDestination, r.noRuling]

def flagBits (f : CtxFlags) : Nat :=
  bitsValue [f.provisional, f.weakIdentity, f.contestedLate, f.noTicket, f.orientationAssumed, f.lengthFromBooking,
    f.damageListFull, f.lockedUpdateDiscarded, f.overrideAdmission]

/-! ### The booking record (section 11.3) -/

def markBytes (m : Mark) : List Byte :=
  [faceCode m.face, byteOf m.column, byteOf m.row, damageKindCode m.kind, byteOf m.severity]

def rawMarkBytes (m : RawMark) : List Byte :=
  [laneFaceCode m.face, byteOf m.column, byteOf m.row, damageKindCode m.kind, byteOf m.severity]

/-- The bytes of some marks and, up to `n` bytes in all, of the places beyond them, whose one-byte fields are absent
(R190; log entry 24). -/
def padAbsent (n : Nat) (b : List Byte) : List Byte := b ++ List.replicate (n - b.length) 0xFF

/-- The two seal places of a record; an absent seal has length 0 (log entries 24, 33). -/
def sealPlaces (seals : List Text) : List Byte := textField 10 seals[0]? ++ textField 10 seals[1]?

def recordBytes (r : Record) : List Byte :=
  padTo 11 r.key ++ [bookingKindCode r.kind] ++
  (match r.slot with
   | some (d, w) => bytesOf16 d ++ [byteOf w]
   | none => freeBytes 0 2 ++ [0xFF]) ++
  padTo 3 r.operator ++ [lengthCode r.length, byteOf r.seals.length] ++
  sealPlaces r.seals ++ [byteOf r.prior.length] ++ padAbsent 60 (r.prior.flatMap markBytes) ++
  [byteOf (bitsValue [r.customsHold, r.lineHold]), optByte (fun h => byteOf h.val) r.hint, progressCode r.progress,
   byteOf r.remaining, flagByte r.recorded.isSome, optByte (fun k => sealCode k.result) r.recorded] ++
  textField 10 (r.recorded.bind (·.value))

/-- R190: the record of an entry that holds none: its one-byte fields and its marks are absent, its texts of varying length
have length 0, and its key, its slot day and its operator code are not stated (log entries 24, 33). -/
def noRecordBytes : List Byte :=
  freeBytes 56 11 ++ [0xFF] ++ freeBytes 0 2 ++ [0xFF] ++ freeBytes 1 3 ++ [0xFF, 0xFF] ++ sealPlaces [] ++ [0xFF] ++
  padAbsent 60 [] ++ [0xFF, 0xFF, 0xFF, 0xFF, 0xFF, 0xFF] ++ textField 10 none

/-! ### The visit report (section 11.4) -/

def fieldBytes (f : FieldState × Option Text) : List Byte := fieldStateCode f.1 :: textField 12 f.2

def layoutBytes : Option Layout → List Byte
  | none => [0xFF, 0xFF, 0xFF, 0xFF, 0xFF]
  | some l =>
      [byteOf l.units, optByte (fun x => lengthCode x.1) l.fwd, optByte (fun x => doorCode x.2) l.fwd,
       optByte (fun x => lengthCode x.1) l.aft, optByte (fun x => doorCode x.2) l.aft]

def linkBytes (place : Nat) : Option (Text × LinkSource × LinkState) → List Byte
  | some (k, src, st) => padTo 11 k ++ [sourceCode src, linkStateCode st]
  | none => freeBytes place 11 ++ [0xFF, 0xFF]

def visitBytes (v : VisitReport) : List Byte :=
  bytesOf16 v.visit ++ [byteOf v.lane.val, optByte outcomeCode v.outcome] ++
  minuteBytes v.arrival ++ optMinute v.position ++ optMinute v.decisionMinute ++ optMinute v.exit ++
  fieldBytes v.plate ++ fieldBytes v.tag ++ fieldBytes v.unitFwd ++ fieldBytes v.unitAft ++
  fieldBytes v.sealFwd ++ fieldBytes v.sealAft ++
  fixedField 4 4 v.sizeFwd ++ fixedField 5 4 v.sizeAft ++
  flagByte v.kiosk.isSome :: fixedField 6 11 v.kiosk ++
  layoutBytes v.layout ++ [flagByte v.layoutConflict] ++
  byteOf v.links.length :: linkBytes 7 v.links[0]? ++ linkBytes 8 v.links[1]? ++
  [optByte sealCode v.sealFwdResult, optByte (fun d => damageCode d.1) v.damageFwd,
   optByte (fun d => byteOf d.2) v.damageFwd, byteOf v.appendedFwd,
   optByte sealCode v.sealAftResult, optByte (fun d => damageCode d.1) v.damageAft,
   optByte (fun d => byteOf d.2) v.damageAft, byteOf v.appendedAft,
   optByte slotCode v.slotResult, flagByte v.reserved.isSome] ++
  (match v.reserved with
   | some (d, w) => bytesOf16 d ++ [byteOf w]
   | none => freeBytes 9 2 ++ [0xFF]) ++
  [optByte decisionCode' v.decision] ++ twoBytes (reasonBits v.reasons) ++
  [optByte (fun d => byteOf d.val) v.destination] ++ twoBytes (flagBits v.flags)
where
  /-- R189: the code of a decision. -/
  decisionCode' : Decision → Byte := State.decisionCode

/-! ### Table records (section 11.5) -/

def segOfByte (ix : StationIx) : Byte := byteOf (segOf ix).val
def addrByte (ix : StationIx) : Byte := byteOf ((addrOf ix).val + 1)

def clockBytes (place : Nat) : Option Clock → List Byte
  | some c => 1 :: bytesOf16 c.day ++ twoBytes c.minute
  | none => [0, 0xFF, 0xFF] ++ freeBytes place 2

/-- A candidate's place: beyond the count its value has length 0, its read count is absent, and its score and size-type
code are not stated (R190; log entries 24, 33). -/
def candidateBytes (place : Nat) : Option Candidate → List Byte
  | some c => textField 12 (some c.value) ++ twoBytes c.score ++ [byteOf c.reads] ++ fixedField place 4 c.sizeType
  | none => textField 12 none ++ freeBytes place 2 ++ [0xFF] ++ fixedField place 4 none

def consBytes (place : Nat) (f : ConsField) : List Byte :=
  [byteOf f.discards, byteOf f.candidates.length] ++
  candidateBytes place f.candidates[0]? ++ candidateBytes (place + 1) f.candidates[1]? ++
  candidateBytes (place + 2) f.candidates[2]? ++ candidateBytes (place + 3) f.candidates[3]?

def rawBytes (l : RawList) : List Byte :=
  [byteOf l.marks.length, flagByte l.overflow] ++ padAbsent 120 (l.marks.flatMap rawMarkBytes)

/-- The marks to append of a position; of a damage check still absent the count is absent too (log entry 36). -/
def appendBytes (d : Option DamageCheck) : List Byte :=
  optByte (fun d => byteOf d.toAppend.length) d ::
    padAbsent 120 (((d.map (·.toAppend)).getD []).flatMap markBytes)

def contextBytes (c : Ctx) : List Byte :=
  if c.state = .free then List.replicate 1177 0
  else
    [ctxStateCode c.state] ++ visitBytes c.report ++
    consBytes 20 c.plate ++ consBytes 24 c.tag ++ consBytes 28 c.unitFwd ++ consBytes 32 c.unitAft ++
    consBytes 36 c.sealFwd ++ consBytes 40 c.sealAft ++
    rawBytes c.raw.fwd ++ rawBytes c.raw.aft ++
    textField 10 (c.sealChecks.fwd.bind (·.value)) ++ textField 10 (c.sealChecks.aft.bind (·.value)) ++
    appendBytes c.damage.fwd ++ appendBytes c.damage.aft

/-- R186, R190: the bytes of a table record. A lane record gives source and driven value output by output (the model's
choice: log entry 49). -/
def tableBytes : TableRecord → List Byte
  | .stationMap e =>
      [mapStateCode e.state, flagByte e.identity.isSome] ++
      (match e.identity with | some i => bytesOf32 i | none => freeBytes 50 4) ++
      [byteOf e.lane.val, roleCode e.role, zoneCode e.zone, byteOf e.weight, flagByte e.forward,
       flagByte e.mismatched, flagByte e.silent] ++ bytesOf16 e.mismatchCount
  | .slotWindow d w m l =>
      (match d with | some d => bytesOf16 d | none => [0xFF, 0xFF]) ++
      [flagByte w.isOpen, byteOf w.capacity, byteOf w.overbook, byteOf w.openShare, byteOf w.admitted,
       byteOf w.reserved, byteOf w.overrides] ++ twoBytes m ++ twoBytes l
  | .destination d =>
      [destKindCode d.kind, flagByte d.isOpen, byteOf d.capacity,
       byteOf (bitsValue [d.acceptsExportFull, d.acceptsEmptyReturn, d.acceptsImportFull, d.acceptsEmptyPickup]),
       optByte (fun a => byteOf a.val) d.alternate, byteOf d.phrase] ++ twoBytes d.inTransit
  | .number n => [byteOf n]
  | .phrase p => p.toList
  | .keyRange (some r) => 1 :: r.first.toList ++ r.last.toList
  | .keyRange none => 0 :: freeBytes 51 8
  | .parameter v => twoBytes v ++ freeBytes 52 3
  | .inputEntry en low f => [flagByte en, flagByte low, byteOf f] ++ freeBytes 53 2
  | .clock c => clockBytes 54 c
  | .context c => contextBytes c
  | .lane r =>
      [modeCode r.mode, optByte segOfByte r.holder, optByte addrByte r.holder] ++ r.levels.map flagByte ++
      (r.outputs.flatMap fun x => [flagByte x.1, flagByte x.2]) ++ [byteOf r.pendingArrivals]
  | .cacheEntry e age =>
      [entryStateCode e.state] ++ fixedField 55 11 e.key ++
      [flagByte e.dirty, owedCode e.owed, byteOf e.pins, byteOf e.held, markCode e.mark, byteOf age.val] ++
      match e.record with | some r => recordBytes r | none => noRecordBytes
  | .transit (some e) =>
      1 :: bytesOf16 e.visit ++ [byteOf e.dest.val] ++ minuteBytes (match e.expiry with | some m => .at m | none => .unset)
  | .transit none => 0 :: freeBytes 57 2 ++ [0xFF] ++ optMinute none

/-! ### Gate frames sent (R180, R183, R184, R190) -/

def reportCode : Report → Byte
  | .response _ => 0x80
  | .bookingFetch _ _ => 0x81
  | .bookingWriteback _ => 0x82
  | .bookingUpdate _ => 0x83
  | .visitReport _ => 0x84
  | .referNotice _ => 0x85
  | .recallDone _ _ => 0x86
  | .flushDone => 0x87
  | .partHello _ _ _ _ _ => 0x88
  | .passFrame _ _ _ => 0x90
  | .orphanRead _ _ _ _ _ _ => 0x91
  | .stationEvent _ _ _ _ => 0x92
  | .segmentEvent _ _ _ _ => 0x93
  | .modeChange _ _ _ _ _ | .unauthorisedPass _ _ _ => 0x94
  | .transitExpired _ => 0x95
  | .transitDisplaced _ => 0x96

/-- R184: the tag of a report's header. -/
def reportTag : Report → BitVec 16
  | .bookingFetch _ tag => tag
  | .response r => r.tag
  | _ => 0

def bodyBytes : Body → List Byte
  | .none => []
  | .record r => tableBytes r
  | .counters cs => byteOf cs.length :: cs.flatMap bytesOf16

def transitBytes (e : TransitEntry) : List Byte :=
  bytesOf16 e.visit ++ [byteOf e.dest.val] ++ minuteBytes (match e.expiry with | some m => .at m | none => .unset)

def addrCode (a : Addr) : Byte := byteOf (a.val + 1)

/-- The identities of a STATION_EVENT, unstated where its rule names none. -/
def identityBytes (place : Nat) : Option (BitVec 32) → List Byte
  | some i => bytesOf32 i
  | none => freeBytes place 4

def reportBody : Report → List Byte
  | .response r =>
      [r.kind, statusCode r.status, detailCode r.detail, flagByte r.clamped] ++ bodyBytes r.body
  | .bookingFetch key _ => padTo 11 key
  | .bookingWriteback r | .bookingUpdate r => recordBytes r
  | .visitReport v | .referNotice v => visitBytes v
  | .recallDone key released => padTo 11 key ++ [flagByte released]
  | .flushDone => []
  | .partHello node cause clock policy provisional =>
      [byteOf node.val, helloCauseCode cause] ++ clockBytes 60 clock ++ [policyCode policy, flagByte provisional]
  | .passFrame seg addr bytes => byteOf seg.val :: addrCode addr :: bytes
  | .orphanRead seg addr lane kind value front =>
      [byteOf seg.val, addrCode addr, byteOf lane.val, laneKindCode kind, optByte ctxStateCode front] ++
      textField 12 (some value)
  | .stationEvent ix cause identity received =>
      [segOfByte ix, addrByte ix, stationCauseCode cause] ++ identityBytes 61 identity ++ identityBytes 62 received
  | .segmentEvent seg left entered count =>
      [byteOf seg.val, optByte segStateCode left, segStateCode entered] ++ bytesOf16 count
  | .modeChange lane left entered cause holder =>
      [byteOf lane.val, 0, modeCode left, modeCode entered, modeCauseCode cause, optByte segOfByte holder,
       optByte addrByte holder, 0xFF]
  | .unauthorisedPass lane mode front =>
      [byteOf lane.val, 1, modeCode mode, modeCode mode, 0xFF, 0xFF, 0xFF, optByte ctxStateCode front]
  | .transitExpired e | .transitDisplaced e => transitBytes e

/-- `n` steps of the reflected CRC-32 register. -/
def crc32Shift : Nat → BitVec 32 → BitVec 32
  | 0, r => r
  | n + 1, r => crc32Shift n (if r.getLsbD 0 then (r >>> 1) ^^^ 0xEDB88320 else r >>> 1)

def crc32Byte (r : BitVec 32) (b : Byte) : BitVec 32 := crc32Shift 8 (r ^^^ b.setWidth 32)

/-- R190: the frame check sequence (the polynomial 0x04C11DB7 taken bit-reversed). -/
def crc32 (bytes : List Byte) : BitVec 32 := ~~~(bytes.foldl crc32Byte 0xFFFFFFFF)

/-- R190: the frame check sequence as sent, least significant byte first. -/
def fcsBytes (bytes : List Byte) : List Byte := (bytesOf32 (crc32 bytes)).reverse

def ethBytes (a : EthAddr) : List Byte :=
  [a.extractLsb' 40 8, a.extractLsb' 32 8, a.extractLsb' 24 8, a.extractLsb' 16 8, a.extractLsb' 8 8, a.extractLsb' 0 8]

/-- R184: the address a report is sent to. -/
def State.destination (s : State) (q : QueuedReport) : EthAddr :=
  match q.addr, s.uplink.server with
  | some a, _ => a
  | none, some a => a
  | none, none => 0xFFFFFFFFFFFF

/-- R190: a report as the Ethernet frame sent. -/
def State.gateFrame (s : State) (q : QueuedReport) : List Byte :=
  let body := reportBody q.report
  let frame := ethBytes (s.destination q) ++ [0x02, 0, 0, 0, 0, byteOf s.uplink.node.val] ++ [0x88, 0xB5] ++
    [byteOf s.uplink.node.val, reportCode q.report] ++ bytesOf16 (reportTag q.report) ++ twoBytes body.length ++ body
  let padded := frame ++ List.replicate (60 - frame.length) 0
  padded ++ fcsBytes padded

/-- R180: the frame the uplink is sending, while the link is up. -/
def State.uplinkSending (s : State) : Option (List Byte) :=
  if s.uplink.linkUp && !s.resetHeld then s.uplink.queue.head?.map s.gateFrame else none

/-- R7, R189: a lane frame as sent. -/
def TxFrame.frameBytes (f : TxFrame) : List Byte :=
  let body := [addrCode f.dst, 0, (match f.kind with | .signPage => 0x41 | .ticket => 0x42), f.seq.setWidth 8,
    byteOf f.payload.length] ++ f.payload
  body ++ bytesOf16 (crc16 body)

/-- R7: the lane frame a segment port is sending. -/
def State.segmentSending (s : State) (seg : Seg) : Option (List Byte) := (s.port seg).txQueue.head?.map TxFrame.frameBytes

/-! ### Gate frames received (R178, R190) -/

/-- R178, R190: whether a kind allows a body; a kind outside the list has no allowed lengths of its own. -/
def lengthAllowed (kind : Byte) (body : List Byte) : Bool :=
  match kind.toNat with
  | 1 => body.length == 120
  | 2 | 3 => body.length == 11
  | 4 => body.length == 4
  | 5 => body.length == 2
  | 6 =>
      match body with
      | [] => false
      | t :: _ => match tableRecordSize t.toNat with | some n => body.length == 3 + n | none => true
  | 7 => body.length == 3
  | 8 => body.length == 2
  | 9 | 10 => body.length == 5
  | 11 => body.length == 0
  | _ => true

/-- R188, R190: the command of a PART_COMMAND. -/
def partCommand (h : GateHdr) (command : Byte) (day minute : BitVec 16) : Instr :=
  match command.toNat with
  | 0 => .resetDynamic h
  | 1 => .resetAll h
  | 2 => .flush h
  | 3 => .timeSet h day minute
  | _ => .partCommandBadValue h command

/-- R29, R190: the command of a LANE_COMMAND. -/
def laneCommand (h : GateHdr) (lane command output source value : Byte) : Instr :=
  match command.toNat with
  | 0 => .laneCommandOpen h lane
  | 1 => .laneCommandClose h lane
  | 2 => .laneCommandReset h lane
  | 3 => .outputSet h lane output source value
  | _ => .laneCommandBadValue h command

/-- R190: the command that a valid gate frame is. -/
def gateCommand (h : GateHdr) (kind : Byte) (b : List Byte) : Instr :=
  let x (i : Nat) : Byte := b.getD i 0
  match kind.toNat with
  | 1 => .bookingData h b
  | 2 => .bookingNone h b
  | 3 => .bookingRecall h b
  | 4 => .visitRuling h (be16 (x 0) (x 1)) (x 2) (x 3)
  | 5 => .arrivedAt h (be16 (x 0) (x 1))
  | 6 => .tableWrite h (x 0) (be16 (x 1) (x 2)) (b.drop 3)
  | 7 => .tableRead h (x 0) (be16 (x 1) (x 2))
  | 8 => .counterRead h (x 0) (x 1)
  | 9 => laneCommand h (x 0) (x 1) (x 2) (x 3) (x 4)
  | 10 => partCommand h (x 0) (be16 (x 1) (x 2)) (be16 (x 3) (x 4))
  | 11 => .heartbeat h
  | _ => .gateFrameUnknownKind h kind

/-- What becomes of an Ethernet frame received (R178). -/
inductive FrameFate where
  | ignored | malformed | foreign
  | valid (c : Instr)
deriving DecidableEq, Repr

/-- R178: the node and length tests of a frame of type 0x88B5 whose check sequence is right. `total` is the length of
the frame without its check sequence; at 60 bytes the bytes beyond the length field's value are padding. A frame of fewer
than the six bytes of the header is malformed whatever its node byte (the model's choice: log entry 46). -/
def headerFate (node : Fin 16) (src : EthAddr) (total : Nat) (data : List Byte) : FrameFate :=
  match data with
  | n :: kind :: t1 :: t0 :: l1 :: l0 :: body =>
      let len := (be16 l1 l0).toNat
      if n.toNat != node.val then .foreign
      else if body.length < len || (total != 60 && body.length != len) then .malformed
      else if lengthAllowed kind (body.take len) then .valid (gateCommand ⟨src, be16 t1 t0⟩ kind (body.take len))
      else .malformed
  | _ => .malformed

/-- R178, R190: the tests of an Ethernet frame received, from its destination address to its check sequence. One too short to
hold a protocol type and a check sequence is discarded and not counted, by the model's choice (log entry 53). -/
def frameFate (node : Fin 16) (bytes : List Byte) : FrameFate :=
  let total := bytes.length - 4
  let frame := bytes.take total
  let x (i : Nat) : Byte := bytes.getD i 0
  let typed := 14 ≤ total && x 12 == 0x88 && x 13 == 0xB5
  if !typed then .ignored
  else if bytes.drop total != fcsBytes frame then .malformed
  else headerFate node (x 6 ++ x 7 ++ x 8 ++ x 9 ++ x 10 ++ x 11) total (frame.drop 14)

end Sys2Proof.Machine
end

