-- ==== Sys2Proof/Machine/UplinkPort.lean ====
section
/-! DEFINITION. The uplink port (chapter 10): gate frames discarded or of unknown kind, server presence, the link, the
report sent with the class A wait order, and the counter read. -/

namespace Sys2Proof.Machine

namespace State

/-- R182: the server is LOST. -/
def loseServer (s : State) : State :=
  s.updUplink fun u =>
    { u with
      serverPresent := false, heartbeatTimer := none
      counters := { u.counters with serverLosses := bump u.counters.serverLosses } }

/-- R183: the PART_HELLO of a cause. -/
def hello (s : State) (cause : HelloCause) : Report :=
  .partHello s.uplink.node cause s.slot.clock s.params.writePolicy s.params.offlineProvisional

/-- R181: the uplink port's turn: the oldest of its responses and PART_HELLOs is accepted, and it takes a new place at the
end while it owes more. -/
def uplinkTurn (s : State) : State :=
  match s.uplink.owed with
  | [] => s
  | r :: rest =>
      let s := (s.updUplink fun u => { u with owed := rest }).accept r
      if rest.isEmpty then s else s.wait .uplink

/-- R181: the freed place goes to a waiter. -/
def serve (s : State) (w : Waiter) : State :=
  match w with
  | .visitReport id => s.reportAccepted id
  | .referNotice id => s.noticeAccepted id
  | .cache => settle (Work.turn { st := s })
  | .uplink => s.uplinkTurn

/-- R180, R181: a report leaves the queue, and the oldest waiter takes its place. -/
def reportSent (s : State) : State :=
  let s := s.updUplink fun u => { u with queue := u.queue.tail }
  match s.uplink.waiters with
  | [] => s
  | w :: rest => (s.updUplink fun u => { u with waiters := rest }).serve w

/-- R187: the counters of a group, in the order of their rule. -/
def counters (s : State) (group : Nat) : List Counter :=
  if h : group < 4 then
    let k := (s.port ⟨group, h⟩).counters
    [k.crcErrors, k.formatErrors, k.foreignFrames, k.overruns, k.duplicates, k.sequenceErrors, k.unmappedDropped,
     k.roleRefusals, k.transmitDrops]
  else if h : group - 4 < 16 then
    let k := (s.lane ⟨group - 4, h⟩).counters
    [k.refusedEntries, k.unauthorisedPasses, k.manualPasses, k.consoleRefusals, k.orphanReads, k.arrivalsLost,
     k.lateFrames, k.unitFormErrors]
  else
    match group with
    | 20 =>
        let k := s.cache.counters
        [k.hits, k.misses, k.fills, k.noneAnswers, k.fetchTimeouts, k.lateFills, k.badFills, k.castouts,
         k.castoutsLost, k.privateCopies, k.lockedDiscards, k.pickupOverruns, k.updatesLost, k.recalls, k.recallsDenied]
    | 21 =>
        let k := s.slot.counters
        [k.commitsLost, k.overridesLost, k.refusals, k.clockSets]
    | 22 =>
        let k := s.check.counters
        [k.sealNear, k.sealUnexpected, k.sealMissing, k.sealMismatch, k.marksIgnored, k.overflows, k.clamps, k.inspections]
    | 23 =>
        let k := s.dest.counters
        [k.transitExpired, k.transitDisplaced, k.arrivalsUnknown, k.tokensWithout, k.provisionals, k.noDestination,
         k.rulingsApplied, k.rulingsDenied, k.noRulingTurnOuts]
    | 24 =>
        let k := s.signs.counters
        [k.signFaults, k.straySignAcks, k.ticketsRefused, k.ticketFaults, k.strayTicketAcks]
    | _ =>
        let k := s.uplink.counters
        [k.classBDrops, k.malformed, k.foreign, k.unknownKinds, k.requestsDropped, k.serverLosses]

/-- R187: the counters of a group set to 0. -/
def clearCounters (s : State) (group : Nat) : State :=
  if h : group < 4 then s.countPort ⟨group, h⟩ fun _ => {}
  else if h : group - 4 < 16 then s.countLane ⟨group - 4, h⟩ fun _ => {}
  else
    match group with
    | 20 => s.countCache fun _ => {}
    | 21 => s.countSlot fun _ => {}
    | 22 => s.countCheck fun _ => {}
    | 23 => s.countDest fun _ => {}
    | 24 => s.countSigns fun _ => {}
    | _ => s.countUplink fun _ => {}

end State

/-- R187: the answer to a COUNTER_READ; that the group is tested ahead of the clear option is the model's choice (DESIGN CHOICE:
log entry 55). -/
def counterAnswer (group clear : Byte) (s : State) : Answer × State :=
  if 25 < group.toNat then refuse s .badIndex
  else
    match boolOf clear with
    | none => refuse s .badValue
    | some c =>
        ({ status := .ok, body := .counters (s.counters group.toNat) }, if c then s.clearCounters group.toNat else s)

/-- COUNTER_READ (R187). -/
def execCounterRead (h : GateHdr) (group clear : Byte) (s : State) : Host.Outcome State Fault Refusal :=
  whenRunning s fun s => s.request h 8 (counterAnswer group clear)

/-- GATE_FRAME_DISCARDED (R178): counted by the first test that fails; a valid frame is no such event (log entry 4). -/
def execGateFrameDiscarded (bytes : List Byte) (s : State) : Host.Outcome State Fault Refusal :=
  whenRunning s fun s =>
    match frameFate s.uplink.node bytes with
    | .ignored | .valid _ => s
    | .malformed => s.countUplink fun k => { k with malformed := bump k.malformed }
    | .foreign => s.countUplink fun k => { k with foreign := bump k.foreign }

/-- GATE_FRAME_UNKNOWN_KIND (R178); with a known kind no such event is (log entry 4). -/
def execGateFrameUnknownKind (h : GateHdr) (kind : Byte) (s : State) : Host.Outcome State Fault Refusal :=
  whenRunning s fun s =>
    if isGateKind kind.toNat then s
    else s.request h kind fun s =>
      refuse (s.countUplink fun k => { k with unknownKinds := bump k.unknownKinds }) .badKind

/-- HEARTBEAT (R182). -/
def execHeartbeat (h : GateHdr) (s : State) : Host.Outcome State Fault Refusal :=
  whenRunning s fun s => s.request h 0x0B fun s => (Answer.ok, s)

/-- The heartbeat timer expires (R182). -/
def execHeartbeatExpiry (s : State) : Host.Outcome State Fault Refusal :=
  whenRunning s fun s => if s.uplink.serverPresent && s.uplink.heartbeatTimer.isSome then s.loseServer else s

/-- UPLINK_LINK_DOWN (R180, R182). -/
def execUplinkLinkDown (s : State) : Host.Outcome State Fault Refusal :=
  whenRunning s fun s =>
    if s.uplink.linkUp then
      let s := s.updUplink fun u => { u with linkUp := false }
      if s.uplink.serverPresent then s.loseServer else s
    else s

/-- UPLINK_LINK_UP (R182, R183). The PART_HELLO shows the clock and the policies of this moment, even where it waits to be
accepted (the model's choice: log entry 45). -/
def execUplinkLinkUp (s : State) : Host.Outcome State Fault Refusal :=
  whenRunning s fun s =>
    if s.uplink.linkUp then s
    else
      let s := s.updUplink fun u => { u with linkUp := true }
      s.uplinkMake (s.hello .linkUp)

/-- REPORT_SENT (R180, R181); with the link down or the queue empty no sending ends (log entry 4). -/
def execReportSent (s : State) : Host.Outcome State Fault Refusal :=
  whenRunning s fun s => if s.uplink.linkUp && !s.uplink.queue.isEmpty then s.reportSent else s

/-- A PART_COMMAND of a command outside its list (R188); with a command of the list no such event is (log entry 4). -/
def execPartCommandBadValue (h : GateHdr) (command : Byte) (s : State) : Host.Outcome State Fault Refusal :=
  whenRunning s fun s => if command.toNat ≤ 3 then s else s.request h 0x0A fun s => refuse s .badValue

end Sys2Proof.Machine
end

