-- ==== Sys2Proof/Machine/Resets.lean ====
section
/-! DEFINITION. The resets of the part (R188), block by block: power-on, RESET_ALL and RESET_DYNAMIC. -/

namespace Sys2Proof.Machine

/-! ### Power-on and RESET_ALL -/

/-- What the pins of the part show now; the node is the one read at power-on. -/
def State.pins (s : State) : Pins where
  node := s.uplink.node
  signal := mapAll s.ports (·.signal)
  levels := mapAll s.lanes fun l => mapAll l.inputs (·.pin)
  linkUp := s.uplink.linkUp

/-- Every block at the values it takes at power-on (R21, R22, R38, R64, R114, R130, R147, R148, R166, R177, R186, R188),
with what the pins show, before any report is queued. -/
def initial (p : Pins) (held : Bool) (pending : List Instr) : State where
  ports := mapAll p.signal SegPort.initial
  stations := Vector.replicate 124 {}
  lanes := mapAll p.levels LaneState.initial
  pool := Vector.replicate 24 {}
  visitCounter := 1
  lastServed := 15
  cache := Cache.initial
  slot := SlotUnit.initial
  check := CheckUnit.initial
  dest := DestUnit.initial
  signs := SignUnit.initial
  uplink := Uplink.initial p.node p.linkUp
  params := {}
  resetHeld := held
  pending := pending

/-- POWER_ON (R38, R188): while the reset input is held nothing is queued and every output is OFF; when it ends the queue
holds the PART_HELLO and the SEGMENT_EVENTs. -/
def execPowerOn (pins : Pins) (held : Bool) (s : State) : Host.Outcome State Fault Refusal :=
  let t := initial pins held s.pending
  .next (if held then t else t.updUplink fun u => { u with queue := powerOnQueue pins })

namespace State

/-- R188: the RESPONSE OK to a reset command. -/
def resetResponse (h : GateHdr) : Report := .response ⟨h.tag, 0x0A, .ok, .none, false, .none⟩

/-- R21: the SEGMENT_EVENT of a state placed by a reset. -/
def placedEvent (s : State) (seg : Seg) : QueuedReport := ⟨.segmentEvent seg none (s.port seg).state 0, none⟩

/-- R38: the LANE_EVENT of a lane whose mode a reset changed. -/
def resetEvent (before after : State) (l : LaneId) : Option QueuedReport :=
  if (before.lane l).mode = (after.lane l).mode then none
  else some ⟨.modeChange l (before.lane l).mode (after.lane l).mode .reset none, none⟩

/-- R188: the report queue that a reset command leaves, in its order. No rule orders the four SEGMENT_EVENTs
among themselves, nor the LANE_EVENTs: in the order A to D and in ascending lane order by the model's choice (log
entry 39). -/
def resetQueue (before after : State) (h : GateHdr) (cause : HelloCause) (addr : Option EthAddr) : List QueuedReport :=
  ⟨resetResponse h, addr⟩ :: ⟨after.hello cause, none⟩ ::
    (List.finRange 4).map after.placedEvent ++ (List.finRange 16).filterMap (resetEvent before after)

/-- R188: RESET_ALL; the RESPONSE goes to the address of the command. -/
def resetAll (s : State) (h : GateHdr) : State :=
  let t := initial s.pins false s.pending
  t.updUplink fun u => { u with queue := resetQueue s t h .resetAll (some h.src) }

end State

/-! ### RESET_DYNAMIC -/

/-- R21. -/
def SegPort.dynamic (p : SegPort) : SegPort := { SegPort.initial p.signal with counters := p.counters }

/-- R22, R177: an entry of a segment that has signal or not. -/
def Station.dynamic (limit : Nat) (signal : Bool) (e : Station) : Station :=
  let silent := e.silent || !signal
  { e with
    silent := silent
    silenceTimer := if silent then none else some limit
    channel := e.channel.map fun _ => ⟨silent, none, none, none, none⟩
    tickets := [] }

/-- R38: a lane's mode. -/
def LaneMode.dynamic : LaneMode → LaneMode
  | .manual => .suspended
  | .closing => .closed
  | .closed => .closed
  | .open => .open
  | .suspended => .suspended

/-- R38, R64: a lane. -/
def LaneState.dynamic (l : LaneState) : LaneState :=
  { l with mode := l.mode.dynamic, holder := none, ctxs := [], front := none, pendingArrivals := 0 }

/-- R114: an entry. -/
def Entry.dynamic (e : Entry) : Entry :=
  match e.state with
  | .valid => { e with dirty := e.dirty || e.owed != .none, owed := .none, pins := 0, held := 0, mark := .none }
  | .invalid | .filling => {}

/-- R114: the cache. -/
def Cache.dynamic (c : Cache) : Cache :=
  { Cache.initial with
    sets := mapAll c.sets fun x => { x with way0 := x.way0.dynamic, way1 := x.way1.dynamic }
    uncached := c.uncached
    counters := { c.counters with
      castoutsLost := bumpBy c.counters.castoutsLost
        (c.slots.toList.filter fun f => f.any (·.castout.isSome)).length
      updatesLost := bumpBy c.counters.updatesLost
        (c.copies.toList.filter fun p => p.any (·.updateOwed)).length } }

/-- R130: a day of the window table. -/
def DayTable.dynamic (t : DayTable) : DayTable :=
  { t with windows := mapAll t.windows fun w => { w with reserved := 0 } }

namespace State

/-- R166: the transit entries without an expiry are removed, their tokens freed. -/
def dropUnset (s : State) : State :=
  let gone := s.dest.transit.filter (·.expiry.isNone)
  let s := s.updDest fun u => { u with transit := u.transit.filter (·.expiry.isSome) }
  gone.foldl (fun s e => s.updDestAt e.dest fun d => { d with inTransit := d.inTransit - 1 }) s

/-- R188: every block at the values it takes at RESET_DYNAMIC, before any report is queued and any page offered. -/
def dynamicValues (s : State) : State :=
  let s := { s with ports := mapAll s.ports SegPort.dynamic }
  let s := { s with
    stations := ⟨⟨(s.stations.toList.zip (List.finRange 124)).map fun (x : Station × Fin 124) =>
      x.1.dynamic s.params.silenceLimit (s.port (segOf x.2)).signal⟩, by simp⟩
    lanes := mapAll s.lanes LaneState.dynamic
    pool := Vector.replicate 24 {}
    lastServed := 15
    cache := s.cache.dynamic
    slot := { s.slot with
      yesterday := s.slot.yesterday.dynamic, today := s.slot.today.dynamic, tomorrow := s.slot.tomorrow.dynamic } }
  s.dropUnset

/-- R177: every sign channel is offered its lane's page, in station map order by the model's choice (log entry 43). -/
def offerAll (s : State) : State :=
  (List.finRange 124).foldl (fun s ix => s.offerPage ix (s.page (s.station ix).lane)) s

/-- R188: RESET_DYNAMIC; the learned address is kept, and it is the command's. -/
def resetDynamic (s : State) (h : GateHdr) : State :=
  let t := s.dynamicValues
  (t.updUplink fun u =>
    { u with queue := resetQueue s t h .resetDynamic none, waiters := [], owed := [] }).offerAll

/-- R179, R188: a reset command. With 8 RESPONSEs owed it is dropped, as any request; else it is taken. -/
def resetRequest (s : State) (h : GateHdr) (reset : State → State) : State :=
  if Config.responseListSize ≤ s.responsesOwed then s.dropRequest else reset (s.gateHeard h)

end State

/-- PART_COMMAND RESET_ALL (R188). -/
def execResetAll (h : GateHdr) (s : State) : Host.Outcome State Fault Refusal :=
  whenRunning s fun s => s.resetRequest h fun s => s.resetAll h

/-- PART_COMMAND RESET_DYNAMIC (R188). -/
def execResetDynamic (h : GateHdr) (s : State) : Host.Outcome State Fault Refusal :=
  whenRunning s fun s => s.resetRequest h fun s => s.resetDynamic h

end Sys2Proof.Machine
end

