-- ==== Sys2Proof/Machine/TermClock.lean ====
section
/-! DEFINITION. The terminal clock (R115 to R117): a minute taken, a second passed, and TIME_SET. -/

namespace Sys2Proof.Machine

namespace State

def setClock (s : State) (c : Clock) : State := s.updSlot fun u => { u with clock := some c }

/-- R115, R121, R159: the clock takes its next minute, and the day and the roll with it; the minute is announced. -/
def nextMinute (s : State) (c : Clock) : State :=
  if c.minute < 1439 then (s.setClock ⟨c.day, c.minute + 1, 0⟩).announce (absMinute c.day (c.minute + 1))
  else ((s.setClock ⟨c.day + 1, 0, 0⟩).rebase (c.day + 1)).announce (absMinute (c.day + 1) 0)

/-- R115: one second of the time base (log entry 3). -/
def second (s : State) : State :=
  match s.slot.clock with
  | none => s
  | some c => if c.seconds < 59 then s.setClock { c with seconds := c.seconds + 1 } else s.nextMinute c

/-- R117, R122: the clock set to a day and a minute, which is announced. -/
def setTime (s : State) (day : BitVec 16) (minute : Nat) : State :=
  let t := s.setClock ⟨day, minute, 0⟩
  let t := match s.slot.clock with
    | none => t.takeDays day
    | some c => if c.day = day then t else t.rebase day
  (t.announce (absMinute day minute)).countSlot fun k => { k with clockSets := bump k.clockSets }

end State

/-- R117. -/
def timeSetAnswer (day minute : BitVec 16) (s : State) : Answer × State :=
  if 1439 < minute.toNat then refuse s .badValue else (Answer.ok, s.setTime day minute.toNat)

/-- CLOCK_MINUTE (R115). -/
def execClockMinute (s : State) : Host.Outcome State Fault Refusal :=
  whenRunning s fun s => match s.slot.clock with | some c => s.nextMinute c | none => s

/-- PART_COMMAND TIME_SET (R117). -/
def execTimeSet (h : GateHdr) (day minute : BitVec 16) (s : State) : Host.Outcome State Fault Refusal :=
  whenRunning s fun s => s.request h 0x0A (timeSetAnswer day minute)

end Sys2Proof.Machine
end

