-- ==== Sys2Proof/Machine/Dispatch.lean ====
section
/-! DEFINITION. What each command does: one direct call of its meaning. -/

namespace Sys2Proof.Machine

open Sys2Proof

def exec (i : Instr) (s : State) : Host.Outcome State Fault Refusal :=
  match i with
  | .laneFrameReceived seg bytes => Sys2Proof.Machine.execLaneFrameReceived seg bytes s
  | .readPlate seg => Sys2Proof.Machine.execReadPlate seg s
  | .readTag seg => Sys2Proof.Machine.execReadTag seg s
  | .readUnit seg => Sys2Proof.Machine.execReadUnit seg s
  | .readSeal seg => Sys2Proof.Machine.execReadSeal seg s
  | .damageMarks seg => Sys2Proof.Machine.execDamageMarks seg s
  | .scanEnd seg => Sys2Proof.Machine.execScanEnd seg s
  | .kioskEntry seg => Sys2Proof.Machine.execKioskEntry seg s
  | .stationHello seg => Sys2Proof.Machine.execStationHello seg s
  | .stationStatus seg => Sys2Proof.Machine.execStationStatus seg s
  | .signAck seg => Sys2Proof.Machine.execSignAck seg s
  | .ticketAck seg => Sys2Proof.Machine.execTicketAck seg s
  | .consoleTake seg => Sys2Proof.Machine.execConsoleTake seg s
  | .consoleRelease seg => Sys2Proof.Machine.execConsoleRelease seg s
  | .consoleOutput seg => Sys2Proof.Machine.execConsoleOutput seg s
  | .signalLoss seg => Sys2Proof.Machine.execSignalLoss seg s
  | .signalDetect seg => Sys2Proof.Machine.execSignalDetect seg s
  | .errorWindowExpiry seg => Sys2Proof.Machine.execErrorWindowExpiry seg s
  | .transmitEnd seg => Sys2Proof.Machine.execTransmitEnd seg s
  | .stationSilenceExpiry seg addr => Sys2Proof.Machine.execStationSilenceExpiry seg addr s
  | .inputLevelChange lane inp high => Sys2Proof.Machine.execInputLevelChange lane inp high s
  | .inputFilterExpiry lane inp => Sys2Proof.Machine.execInputFilterExpiry lane inp s
  | .approachExpiry ctx => Sys2Proof.Machine.execApproachExpiry ctx s
  | .identificationExpiry ctx => Sys2Proof.Machine.execIdentificationExpiry ctx s
  | .rulingExpiry ctx => Sys2Proof.Machine.execRulingExpiry ctx s
  | .bookingData h record => Sys2Proof.Machine.execBookingData h record s
  | .bookingNone h key => Sys2Proof.Machine.execBookingNone h key s
  | .fetchTimeout slot => Sys2Proof.Machine.execFetchTimeout slot s
  | .bookingRecall h key => Sys2Proof.Machine.execBookingRecall h key s
  | .flush h => Sys2Proof.Machine.execFlush h s
  | .clockMinute => Sys2Proof.Machine.execClockMinute s
  | .timeSet h day minute => Sys2Proof.Machine.execTimeSet h day minute s
  | .visitRuling h visit ruling dest => Sys2Proof.Machine.execVisitRuling h visit ruling dest s
  | .arrivedAt h visit => Sys2Proof.Machine.execArrivedAt h visit s
  | .signAckExpiry seg addr => Sys2Proof.Machine.execSignAckExpiry seg addr s
  | .ticketAckExpiry seg addr place => Sys2Proof.Machine.execTicketAckExpiry seg addr place s
  | .gateFrameDiscarded bytes => Sys2Proof.Machine.execGateFrameDiscarded bytes s
  | .gateFrameUnknownKind h kind => Sys2Proof.Machine.execGateFrameUnknownKind h kind s
  | .heartbeat h => Sys2Proof.Machine.execHeartbeat h s
  | .heartbeatExpiry => Sys2Proof.Machine.execHeartbeatExpiry s
  | .uplinkLinkDown => Sys2Proof.Machine.execUplinkLinkDown s
  | .uplinkLinkUp => Sys2Proof.Machine.execUplinkLinkUp s
  | .reportSent => Sys2Proof.Machine.execReportSent s
  | .tableWriteStationMap h index state idPresent identity lane role zone weight forward => Sys2Proof.Machine.execTableWriteStationMap h index state idPresent identity lane role zone weight forward s
  | .tableWriteSlotWindows h index day state capacity overbook openShare => Sys2Proof.Machine.execTableWriteSlotWindows h index day state capacity overbook openShare s
  | .tableWriteDestinations h index kind state capacity accepts alternate phrase => Sys2Proof.Machine.execTableWriteDestinations h index kind state capacity accepts alternate phrase s
  | .tableWriteDefaults h index value => Sys2Proof.Machine.execTableWriteDefaults h index value s
  | .tableWritePhrases h index chars => Sys2Proof.Machine.execTableWritePhrases h index chars s
  | .tableWriteDamageWeights h index weight => Sys2Proof.Machine.execTableWriteDamageWeights h index weight s
  | .tableWriteUncachedPrefixes h index present first last => Sys2Proof.Machine.execTableWriteUncachedPrefixes h index present first last s
  | .tableWriteParameters h index value third => Sys2Proof.Machine.execTableWriteParameters h index value third s
  | .tableWriteInputEntry h lane inp enable polarity filter => Sys2Proof.Machine.execTableWriteInputEntry h lane inp enable polarity filter s
  | .tableWriteTransparency h value => Sys2Proof.Machine.execTableWriteTransparency h value s
  | .tableWrite h table index record => Sys2Proof.Machine.execTableWrite h table index record s
  | .tableRead h table index => Sys2Proof.Machine.execTableRead h table index s
  | .counterRead h group clear => Sys2Proof.Machine.execCounterRead h group clear s
  | .laneCommandOpen h lane => Sys2Proof.Machine.execLaneCommandOpen h lane s
  | .laneCommandClose h lane => Sys2Proof.Machine.execLaneCommandClose h lane s
  | .laneCommandReset h lane => Sys2Proof.Machine.execLaneCommandReset h lane s
  | .outputSet h lane output source value => Sys2Proof.Machine.execOutputSet h lane output source value s
  | .resetDynamic h => Sys2Proof.Machine.execResetDynamic h s
  | .resetAll h => Sys2Proof.Machine.execResetAll h s
  | .powerOn pins held => Sys2Proof.Machine.execPowerOn pins held s
  | .laneCommandBadValue h command => Sys2Proof.Machine.execLaneCommandBadValue h command s
  | .partCommandBadValue h command => Sys2Proof.Machine.execPartCommandBadValue h command s

end Sys2Proof.Machine
end

