-- ==== Sys2Proof/Machine/Step.lean ====
section
/-! DEFINITION. One step of the part: the command at the front of the queue, or one second of the clock. -/

namespace Sys2Proof.Machine

/-- One step. On an empty queue one second of the terminal clock's time base passes (R115; log entry 3). -/
def step (s : State) : Host.Outcome State Fault Refusal :=
  match s.pending with
  | c :: rest => exec c { s with pending := rest }
  | [] => .next (if s.resetHeld then s else s.second)

/-- The command a word spells, put at the front of the queue; no row gives bits, so no word spells one (log entry 31). -/
def State.withFetchWord (s : State) (nbits w : Nat) : State :=
  match decodeTableWord nbits w with
  | some c => { s with pending := c :: s.pending }
  | none => s

end Sys2Proof.Machine
end

