-- ==== Sys2Proof/Safety.lean ====
section
/-! DEFINITION. The vocabulary of the statements: what it means that a step is taken, what a request or a frame needs to
be taken, what the uplink holds after a report is offered, and the invariants the part keeps. -/

namespace Sys2Proof.Safety

open Sys2Proof.Machine

/-! ### Requests (R178 to R182) -/

/-- R179: a request is taken: the reset input is released and fewer than 8 RESPONSEs are owed. -/
abbrev Ready (s : State) : Prop := s.resetHeld = false ∧ s.responsesOwed < 8

/-- R178, R179: the gate frame of a command that is a request: answered by exactly one RESPONSE. -/
def requestOf : Instr → Option GateHdr
  | .bookingRecall h _ | .flush h | .timeSet h _ _ | .visitRuling h _ _ _ | .arrivedAt h _
  | .gateFrameUnknownKind h _ | .heartbeat h | .tableWriteStationMap h _ _ _ _ _ _ _ _ _
  | .tableWriteSlotWindows h _ _ _ _ _ _ | .tableWriteDestinations h _ _ _ _ _ _ _ | .tableWriteDefaults h _ _
  | .tableWritePhrases h _ _ | .tableWriteDamageWeights h _ _ | .tableWriteUncachedPrefixes h _ _ _ _
  | .tableWriteParameters h _ _ _ | .tableWriteInputEntry h _ _ _ _ _ | .tableWriteTransparency h _
  | .tableWrite h _ _ _ | .tableRead h _ _ | .counterRead h _ _ | .laneCommandOpen h _ | .laneCommandClose h _
  | .laneCommandReset h _ | .outputSet h _ _ _ _ | .resetDynamic h | .resetAll h | .laneCommandBadValue h _
  | .partCommandBadValue h _ => some h
  | .laneFrameReceived _ _ | .readPlate _ | .readTag _ | .readUnit _ | .readSeal _ | .damageMarks _ | .scanEnd _
  | .kioskEntry _ | .stationHello _ | .stationStatus _ | .signAck _ | .ticketAck _ | .consoleTake _ | .consoleRelease _
  | .consoleOutput _ | .signalLoss _ | .signalDetect _ | .errorWindowExpiry _ | .transmitEnd _
  | .stationSilenceExpiry _ _ | .inputLevelChange _ _ _ | .inputFilterExpiry _ _ | .approachExpiry _
  | .identificationExpiry _ | .rulingExpiry _ | .bookingData _ _ | .bookingNone _ _ | .fetchTimeout _ | .clockMinute
  | .signAckExpiry _ _ | .ticketAckExpiry _ _ _ | .gateFrameDiscarded _ | .heartbeatExpiry | .uplinkLinkDown
  | .uplinkLinkUp | .reportSent | .powerOn _ _ => none

/-- R182: the uplink port after a valid gate frame that is not taken counts for server presence. -/
def counted (s : State) : Uplink :=
  { s.uplink with serverPresent := true, heartbeatTimer := some s.params.heartbeat }

/-- R182, R184: the uplink port after a valid gate frame that is taken: the server is PRESENT, the heartbeat timer runs
from the full limit, the frame's source address is learned. -/
def presence (s : State) (h : GateHdr) : Uplink :=
  { s.uplink with serverPresent := true, heartbeatTimer := some s.params.heartbeat, server := some h.src }

/-- R180: the uplink port after a class B report is offered. -/
def classB (u : Uplink) (r : Report) : Uplink :=
  if u.queue.length < 56 then { u with queue := u.queue ++ [⟨r, none⟩] }
  else { u with counters := { u.counters with classBDrops := bump u.counters.classBDrops } }

/-- R181: the uplink port after it makes a RESPONSE or a PART_HELLO: at the tail of the report queue, or owed. -/
def made (u : Uplink) (r : Report) : Uplink :=
  if u.owed = [] ∧ u.queue.length < 64 ∧ u.waiters = [] then { u with queue := u.queue ++ [⟨r, none⟩] }
  else
    { u with
      owed := u.owed ++ [r]
      waiters := if Waiter.uplink ∈ u.waiters then u.waiters else u.waiters ++ [.uplink] }

/-- R179: the RESPONSE to a request: its tag, its kind, and the owner's answer. -/
def response (h : GateHdr) (kind : Byte) (a : Answer) : Report :=
  .response ⟨h.tag, kind, a.status, a.detail, a.clamped, a.body⟩

/-- R179, R182: the uplink port after a request of a kind is answered, where the owner offers no report itself. -/
def answered (s : State) (h : GateHdr) (kind : Byte) (a : Answer) : Uplink := made (presence s h) (response h kind a)

/-- A status alone. -/
def only (status : Status) : Answer := { status := status }

/-- R179: OK, marked as clamped where it says so. -/
def okay (clamped : Bool) : Answer := { status := .ok, clamped := clamped }

/-- The RESPONSE is the last report of the queue, or the last owed. -/
abbrev Responded (t : State) (r : Report) : Prop :=
  (∃ q, t.uplink.queue = q ++ [⟨r, none⟩]) ∨ ∃ o, t.uplink.owed = o ++ [r]

/-- R181: the uplink port after a maker takes its place in the class A wait order, if it holds none. -/
def waiting (u : Uplink) (w : Waiter) : Uplink :=
  if w ∈ u.waiters then u else { u with waiters := u.waiters ++ [w] }

/-- R180: the report queue is full: a class A report offered now finds no room. -/
abbrev QueueFull (s : State) : Prop := 64 ≤ s.uplink.queue.length

/-- R96, R180, R181: how many of the reports that the cache makes one after the other are accepted at once: the free places of
the report queue, where the cache owes no report and no class A report waits; else none. -/
def cacheRoom (s : State) : Nat :=
  if s.cache.sendOrder = [] ∧ s.uplink.waiters = [] then 64 - s.uplink.queue.length else 0

/-- R96, R180, R181: the uplink port once the cache has made reports, one after the other, with room for `n`: the first `n` join
the report queue, and where more are made the cache takes its place in the class A wait order. -/
def cacheMade (n : Nat) (u : Uplink) (xs : List Report) : Uplink :=
  let v : Uplink := { u with queue := u.queue ++ (xs.take n).map fun x => ⟨x, none⟩ }
  if xs.length ≤ n then v else waiting v .cache

/-- R96: the part once the cache has made reports, one after the other, each with its place in the send order: those with room are
accepted at once, and the rest join the send order. What an acceptance does to the maker is said beside it. -/
def reportsMade (s : State) (os : List (Owed × Report)) : State :=
  { s with
    uplink := cacheMade (cacheRoom s) s.uplink (os.map (·.2))
    cache := { s.cache with sendOrder := s.cache.sendOrder ++ (os.map (·.1)).drop (cacheRoom s) } }

/-! ### The forms of frames, keys and records (R1, R67, R68, R85 to R87, file 11) -/

/-- File 00: a digit, by its character code. -/
abbrev Digit (b : Byte) : Prop := 0x30 ≤ b.toNat ∧ b.toNat ≤ 0x39

/-- File 00: a letter A to Z, by its character code. -/
abbrev Letter (b : Byte) : Prop := 0x41 ≤ b.toNat ∧ b.toNat ≤ 0x5A

/-- R1: every character of a field is one of space, 0..9 and A..Z. -/
abbrev Written (v : Text) : Prop := ∀ b ∈ v, b.toNat = 0x20 ∨ Digit b ∨ Letter b

/-- File 00: the character value of a digit or a letter: the face value, and 10 for A to 35 for Z. -/
def faceValue (b : Byte) : Nat := if b.toNat ≤ 0x39 then b.toNat - 0x30 else b.toNat - 0x41 + 10

/-- File 11: the code of a position. -/
def positionByte : Position → Byte
  | .fwd => 0
  | .aft => 1

/-- File 11: the code of a lane face. -/
def laneFaceByte : LaneFace → Byte
  | .laneLeft => 0
  | .laneRight => 1
  | .top => 2
  | .frontEnd => 3
  | .rearEnd => 4

/-- File 11: the code of a container face. -/
def faceByte : Face → Byte
  | .left => 0
  | .right => 1
  | .roof => 2
  | .door => 3
  | .front => 4

/-- File 11: the code of a damage kind. -/
def damageByte : DamageKind → Byte
  | .dent => 0
  | .hole => 1
  | .crease => 2
  | .bulge => 3
  | .rust => 4

/-- File 11: the code of a length class. -/
def lengthByte : LengthClass → Byte
  | .l20 => 20
  | .l40 => 40
  | .l45 => 45

/-- File 11: the code of a door end. -/
def doorByte : DoorEnd → Byte
  | .doorsAft => 0
  | .doorsFore => 1
  | .unknown => 2

/-- File 11: the code of an output value, KEEP as `none`. -/
def outputByte : Option Bool → Byte
  | some false => 0
  | some true => 1
  | none => 2

/-- R1, R189: the kind code and the payload that carry a message: its code, its payload of an allowed length with the items in
order, its character fields written in the text set, its enumerated fields by their codes. Confidence, severity, column, row and
sequence are any byte (the sequence acknowledged is the whole byte: log entry 54); the bytes of a SCAN_END for a position beyond
the units seen are any. -/
def Carries (kind : Byte) (p : List Byte) : LaneMsg → Prop
  | .readPlate c v =>
      kind = 0x01 ∧ 1 ≤ v.length ∧ v.length ≤ 10 ∧ Written v ∧ ∃ k : Byte, c = k.toNat ∧ p = k :: v
  | .readTag c v => kind = 0x02 ∧ v.length = 12 ∧ Written v ∧ ∃ k : Byte, c = k.toNat ∧ p = k :: v
  | .readUnit q c code size =>
      kind = 0x03 ∧ code.length = 11 ∧ size.length = 4 ∧ Written (code ++ size) ∧
      ∃ k : Byte, c = k.toNat ∧ p = positionByte q :: k :: (code ++ size)
  | .readSeal q c v =>
      kind = 0x04 ∧ 1 ≤ v.length ∧ v.length ≤ 10 ∧ Written v ∧ ∃ k : Byte, c = k.toNat ∧ p = positionByte q :: k :: v
  | .damageMarks q ms =>
      kind = 0x05 ∧ 1 ≤ ms.length ∧ ms.length ≤ 8 ∧ (∀ m ∈ ms, m.column < 256 ∧ m.row < 256 ∧ m.severity < 256) ∧
      p = positionByte q :: ms.flatMap fun m =>
        [laneFaceByte m.face, BitVec.ofNat 8 m.column, BitVec.ofNat 8 m.row, damageByte m.kind, BitVec.ofNat 8 m.severity]
  | .scanEnd l =>
      kind = 0x06 ∧ ∃ fl fd al ad : Byte,
        (p = [0, fl, fd, al, ad] ∧ l = ⟨0, none, none⟩) ∨
        (∃ c d, p = [1, lengthByte c, doorByte d, al, ad] ∧ l = ⟨1, some (c, d), none⟩) ∨
        ∃ c d x y, p = [2, lengthByte c, doorByte d, lengthByte x, doorByte y] ∧ l = ⟨2, some (c, d), some (x, y)⟩
  | .kioskEntry v => kind = 0x07 ∧ v.length = 11 ∧ Written v ∧ p = v
  | .hello i => kind = 0x08 ∧ ∃ a b c d : Byte, p = [a, b, c, d] ∧ i = a ++ b ++ c ++ d
  | .status => kind = 0x09 ∧ p.length ≤ 60
  | .signAck q => kind = 0x0A ∧ ∃ b : Byte, p = [b] ∧ q = b.toNat
  | .ticketAck q => kind = 0x0B ∧ ∃ b : Byte, p = [b] ∧ q = b.toNat
  | .consoleTake => kind = 0x0C ∧ p = []
  | .consoleRelease => kind = 0x0D ∧ p = []
  | .consoleOutput b g t => kind = 0x0E ∧ p = [outputByte b, outputByte g, outputByte t]

/-- R85, file 11: a seal stands at an offset of a booking record: its length, 1 to 10, and its characters. -/
abbrev SealAt (b : List Byte) (i : Nat) (v : Text) : Prop :=
  1 ≤ v.length ∧ v.length ≤ 10 ∧ Written v ∧ (b.getD i 0).toNat = v.length ∧ v = (b.drop (i + 1)).take v.length

/-- R85, R86, file 11: a booking record stands in 120 bytes, each field at its offset and inside its values; seals and marks
beyond their counts, the day of a slot of NONE, and the bytes of a recorded seal that is absent are not examined. -/
abbrev Holds (b : List Byte) (r : Record) : Prop :=
  let byte (i : Nat) : Byte := b.getD i 0
  b.length = 120 ∧
  r.key = b.take 11 ∧ (∀ x ∈ r.key, Digit x ∨ Letter x) ∧
  byte 11 = (match r.kind with | .exportFull => 0 | .emptyReturn => 1 | .importFull => 2 | .emptyPickup => 3) ∧
  ((byte 14 = 0xFF ∧ r.slot = none) ∨ ((byte 14).toNat ≤ 95 ∧ r.slot = some (byte 12 ++ byte 13, (byte 14).toNat))) ∧
  r.operator = (b.drop 15).take 3 ∧ Written r.operator ∧
  byte 18 = lengthByte r.length ∧
  (byte 19).toNat = r.seals.length ∧ r.seals.length ≤ 2 ∧ (∀ n v, r.seals[n]? = some v → SealAt b (20 + 11 * n) v) ∧
  (byte 42).toNat = r.prior.length ∧ r.prior.length ≤ 12 ∧
  (∀ n m, r.prior[n]? = some m →
    byte (43 + 5 * n) = faceByte m.face ∧ (byte (44 + 5 * n)).toNat = m.column ∧ (byte (45 + 5 * n)).toNat = m.row ∧
    byte (46 + 5 * n) = damageByte m.kind ∧ (byte (47 + 5 * n)).toNat = m.severity ∧
    m.column ≤ 9 ∧ m.row ≤ 2 ∧ 1 ≤ m.severity ∧ m.severity ≤ 7) ∧
  (byte 103).toNat = (if r.customsHold then 1 else 0) + (if r.lineHold then 2 else 0) ∧
  ((byte 104 = 0xFF ∧ r.hint = none) ∨ ∃ d : Fin 64, (byte 104).toNat = d.val ∧ r.hint = some d) ∧
  byte 105 = (match r.progress with | .booked => 0 | .arrived => 1 | .gatedIn => 2 | .cancelled => 3) ∧
  (byte 106).toNat = r.remaining ∧ r.remaining ≤ 99 ∧
  ((byte 107 = 0 ∧ r.recorded = none) ∨
    ∃ k v, byte 107 = 1 ∧ SealAt b 109 v ∧ r.recorded = some ⟨k, some v⟩ ∧
      byte 108 = (match k with | .ok => 0 | .near => 1 | .missing => 2 | .mismatch => 3 | .unexpected => 4))

/-! ### Lane frames (R3, R11 to R18) -/

/-- The command that takes a frame of a kind from a segment's receive queue. -/
def frameCommand (k : LaneKind) (seg : Seg) : Instr :=
  match k with
  | .readPlate => .readPlate seg
  | .readTag => .readTag seg
  | .readUnit => .readUnit seg
  | .readSeal => .readSeal seg
  | .damageMarks => .damageMarks seg
  | .scanEnd => .scanEnd seg
  | .kioskEntry => .kioskEntry seg
  | .hello => .stationHello seg
  | .status => .stationStatus seg
  | .signAck => .signAck seg
  | .ticketAck => .ticketAck seg
  | .consoleTake => .consoleTake seg
  | .consoleRelease => .consoleRelease seg
  | .consoleOutput => .consoleOutput seg

/-- A frame stands at the head of a segment's receive queue, the rest behind it. -/
abbrev AtHead (s : State) (seg : Seg) (f : RxFrame) (rest : List RxFrame) : Prop :=
  s.resetHeld = false ∧ (s.port seg).rxQueue = f :: rest

/-- The station map's entry of the station that sent a frame. -/
abbrev sender (s : State) (seg : Seg) (f : RxFrame) : Station := s.station (stationIx seg f.src)

/-- R3, R11 to R14, R18: the frame at the head is no duplicate, its station is mapped and matched, its kind is accepted
for the station's role, and, for a reading frame, the station's lane is not in MANUAL: the frame is consumed. -/
abbrev Consumed (s : State) (seg : Seg) (f : RxFrame) (rest : List RxFrame) : Prop :=
  AtHead s seg f rest ∧ (s.port seg).seqRecord[f.src] ≠ some f.seq ∧
  (sender s seg f).state ≠ .empty ∧ (sender s seg f).mismatched = false ∧
  (sender s seg f).role.accepts f.msg.kind = true ∧
  (f.msg.kind.isReading = true → (s.lane (sender s seg f).lane).mode ≠ .manual)

/-- R19: the uplink port after a frame is heard from its mapped station. -/
def heardUplink (s : State) (seg : Seg) (f : RxFrame) : Uplink :=
  if (sender s seg f).silent = true ∧ (s.port seg).state ≠ .down then
    classB s.uplink (.stationEvent (stationIx seg f.src) .stationActive none none)
  else s.uplink

/-- R14: the uplink port after the forward flag's PASS_FRAME of a frame that is heard. -/
def forwardedUplink (s : State) (seg : Seg) (f : RxFrame) : Uplink :=
  if (sender s seg f).forward then classB (heardUplink s seg f) (.passFrame seg f.src f.bytes) else heardUplink s seg f

/-- What R66 to R70 take from an identity read of effective weight `w`: its field, its value, its contribution and its
size-type code. -/
def scoring (w : Nat) : LaneMsg → Option (FieldName × Text × Nat × Option Text)
  | .readPlate c v => some (.plate, v, min c 100 * w / 8, none)
  | .readTag _ v => some (.tag, v, 100 * w / 8, none)
  | .readSeal .fwd c v => some (.sealFwd, v, min c 100 * w / 8, none)
  | .readSeal .aft c v => some (.sealAft, v, min c 100 * w / 8, none)
  | .readUnit pos c code size =>
      if unitFormOk code then
        some (match pos with | .fwd => .unitFwd | .aft => .unitAft, code,
          if checkValid code then min c 100 * w / 8 else min c 100 * w / 32, some size)
      else none
  | _ => none

/-- R69: the weight of a frame's station as its segment stands. -/
def weightOf (s : State) (seg : Seg) (f : RxFrame) : Nat :=
  if (s.port seg).state = .up then (sender s seg f).weight else (sender s seg f).weight / 2

/-! ### What a command may change of the links and of the signs (R3, R7, R19, R171 to R173) -/

/-- R7: a frame handed to a segment port for the entry `e` at the address `a`: it takes the next transmit sequence and joins the
transmit queue, or is dropped: on a DOWN segment, for an unmapped or MISMATCHED entry, or at 32 frames. -/
def handed (p : SegPort) (e : Station) (a : Addr) (kind : TxKind) (payload : List Byte) : SegPort × Option (BitVec 4) :=
  if p.state ≠ .down ∧ (e.state = .learn ∨ (e.state = .frozen ∧ e.mismatched = false)) ∧ p.txQueue.length < 32 then
    ({ p with txQueue := p.txQueue ++ [⟨a, kind, p.txSeq[a], payload⟩], txSeq := p.txSeq.set a (p.txSeq[a] + 1) },
      some p.txSeq[a])
  else ({ p with counters := { p.counters with transmitDrops := bump p.counters.transmitDrops } }, none)

/-- R172: a page sent to a SIGN: both halves are handed to the port, the upper first, and the page is in flight with its
acknowledge timer. -/
def paged (limit : Nat) (a : Addr) (g : Page) (x : SegPort × Station) : SegPort × Station :=
  let up := handed x.1 x.2 a .signPage (0 :: (g.line1 ++ g.line2))
  let low := handed up.1 x.2 a .signPage (1 :: (g.line3 ++ g.line4))
  (low.1, { x.2 with channel := x.2.channel.map fun ch =>
    { ch with inFlight := some ⟨g, up.2, low.2, false, false⟩, timer := some limit } })

/-- R172: the pending page of a channel, if it holds one, sent. -/
def pendingSent (limit : Nat) (a : Addr) (x : SegPort × Station) : SegPort × Station :=
  match x.2.channel.bind (·.waiting) with
  | some g => paged limit a g (x.1, { x.2 with channel := x.2.channel.map fun ch => { ch with waiting := none } })
  | none => x

/-- R173: a frame heard from a station: its channel in FAULT with nothing in flight sends its pending page. -/
def hearing (limit : Nat) (a : Addr) (x : SegPort × Station) : SegPort × Station :=
  if x.2.channel.any (fun ch => ch.fault && ch.inFlight.isNone) then pendingSent limit a x else x

/-- R174: the channel of a station that becomes SILENT: in FAULT, its page in flight kept as the pending page where none is
held. -/
def faulted (ch : Option SignChannel) : Option SignChannel :=
  ch.map fun c => { c with
    inFlight := none, timer := none, fault := true
    waiting := if c.waiting.isSome then c.waiting else c.inFlight.map (·.page) }

/-- R171, R172: a page offered to a station: a station without a channel takes none; the latest page of a channel is not taken
again; a channel that is OK with nothing in flight sends the page, and any other holds it pending. A channel that has had no page
acknowledged takes every offer, by the model's choice of log entry 16. -/
def offered (limit : Nat) (a : Addr) (g : Page) (x : SegPort × Station) : SegPort × Station :=
  match x.2.channel with
  | none => x
  | some ch =>
      if ch.lastAcked.isSome = true ∧ (ch.waiting.or ((ch.inFlight.map (·.page)).or ch.lastAcked)) = some g then x
      else if ch.fault = false ∧ ch.inFlight = none then paged limit a g x
      else (x.1, { x.2 with channel := some { ch with waiting := some g } })

/-- R2, R3: a segment port once the SEQUENCE CHECK has taken the frame at its head: the frame has left the receive queue, the
sequence record is the frame's, and a gap is counted. -/
def takenPort (s : State) (seg : Seg) (f : RxFrame) : SegPort :=
  let p := s.port seg
  { p with
    rxQueue := p.rxQueue.tail, seqRecord := p.seqRecord.set f.src (some f.seq)
    counters := { p.counters with sequenceErrors :=
      match p.seqRecord[f.src] with
      | some r => if f.seq = r ∨ f.seq = r + 1 then p.counters.sequenceErrors else bump p.counters.sequenceErrors
      | none => p.counters.sequenceErrors } }

/-- R19: the entry of a station once a frame is heard from it: a mapped one on a segment not DOWN is ACTIVE, its silence timer
from the full limit; on a DOWN segment, where queued frames are still taken, it stays SILENT (log entry 26). -/
def heardEntry (s : State) (seg : Seg) (f : RxFrame) : Station :=
  let e := sender s seg f
  if e.state ≠ .empty ∧ (s.port seg).state ≠ .down then
    { e with silent := false, silenceTimer := some s.params.silenceLimit }
  else e

/-- R3, R7, R19, R173: what a frame taken makes of the links where no page is composed: the port of its segment has taken it,
its sender is heard, `act` is what its consumption makes of the two, and the hearing follows; every other port and every other
entry stays as it is. -/
abbrev LinkOnly (s t : State) (seg : Seg) (f : RxFrame) (act : SegPort × Station → SegPort × Station := fun x => x) : Prop :=
  (∀ g, g ≠ seg → t.port g = s.port g) ∧ (∀ j, j ≠ stationIx seg f.src → t.station j = s.station j) ∧
  (t.port seg, t.station (stationIx seg f.src)) =
    hearing s.params.signAck f.src (act (takenPort s seg f, heardEntry s seg f))

/-- R7: two segment ports differ only in what a sending changes: the transmit queue, the transmit sequences and the transmit
drops. -/
abbrev TxOnly (p q : SegPort) : Prop :=
  q = { p with
    txQueue := q.txQueue, txSeq := q.txSeq, counters := { p.counters with transmitDrops := q.counters.transmitDrops } }

/-- R7, R171: where pages are composed, for the stations `shows`: from the ports `port` and the entries `entry`, only the sign
channels of those stations and what their segments send may differ. -/
abbrev PagesOnly (port : Seg → SegPort) (entry : StationIx → Station) (shows : StationIx → Prop) (t : State) : Prop :=
  (∀ j, t.station j = { entry j with channel := (t.station j).channel }) ∧
  (∀ j, ¬ shows j → (t.station j).channel = (entry j).channel) ∧ (∀ g, TxOnly (port g) (t.port g)) ∧
  ∀ g, (∀ a : Addr, ¬ shows (stationIx g a)) → t.port g = port g

/-- R35: the uplink port once the hold of the console at a place of the map has ended, by a cause: one LANE_EVENT for each lane it
holds (lanes in ascending order, the choice of log entry 50; in no run does one console hold two). -/
def holdsEnded (s : State) (ix : StationIx) (cause : ModeCause) (u : Uplink) : Uplink :=
  (List.finRange 16).foldl
    (fun u l =>
      if (s.lane l).mode = .manual ∧ (s.lane l).holder = some ix then
        classB u (.modeChange l .manual .suspended cause none)
      else u) u

/-! ### Frames attached to a context (R48 to R52, R136) -/

/-- R51: the context does not now complete its identification. -/
abbrev Waits (c : Ctx) : Prop := c.state = .identifying → c.identified = false

/-- R135, R136: one mark of a DAMAGE_MARKS frame in a raw mark list. -/
def takenMark (l : RawList) (m : RawMark) : RawList :=
  if m.severity = 0 then l else (l.add { m with severity := min m.severity 7 }).1

/-- R136, R148: the marks of a DAMAGE_MARKS frame that a full raw mark list drops. -/
def dropped : RawList → List RawMark → Nat
  | _, [] => 0
  | l, m :: ms =>
      (if m.severity ≠ 0 ∧ (l.add { m with severity := min m.severity 7 }).2 = true then 1 else 0) +
        dropped (takenMark l m) ms

/-! ### Lanes (R24, R26) -/

/-- R24: the filter timer of a lane input runs, the reset input is released, and the sensed level is `on`. -/
abbrev FilterEnds (s : State) (l : LaneId) (inp : Input) (on : Bool) : Prop :=
  s.resetHeld = false ∧ (s.input l inp).timer.isSome = true ∧ (s.input l inp).sensed = on

/-- R24: a lane whose input has taken the level `on`, its filter timer stopped. -/
def taken (x : LaneState) (inp : Input) (on : Bool) : LaneState :=
  { x with inputs := upd x.inputs (inputIx inp) fun i => { i with level := on, timer := none } }

/-- R45: the approach timer of a context of a lane with `n` contexts. -/
def approachOf (s : State) (l : LaneId) (c : Ctx) : Timer :=
  if c.state = .arriving ∧ (s.lane l).ctxs.length = 1 ∧ s.reads l .position = false then
    some (c.approachTimer.getD s.params.approachLimit)
  else none

/-- R43: the context that advances in a lane whose front enters CLOSING: with POSITION ACTIVE the oldest one in ARRIVING, else
none. -/
abbrev Advances (s : State) (l : LaneId) : Option CtxId → Prop
  | none => s.reads l .position = false ∨ ∀ j ∈ (s.lane l).ctxs, (s.ctx j).state ≠ .arriving
  | some j =>
      s.reads l .position = true ∧ (s.ctx j).state = .arriving ∧ (s.ctx j).lane = l ∧
      ∃ before after, (s.lane l).ctxs = before ++ j :: after ∧ ∀ k ∈ before, (s.ctx k).state ≠ .arriving

/-- R33, R61: whether the freeing of a context leaves its lane, in CLOSING, with none. -/
def drains (s : State) (id : CtxId) : Bool :=
  let x := s.lane (s.ctx id).lane
  x.mode == .closing && (x.ctxs.filter (· != id)).isEmpty

/-- R33, R61: a lane once a context is freed: it holds the context no more, and the last one to leave a lane in CLOSING puts
it in CLOSED. -/
def left (s : State) (id : CtxId) (l : LaneId) : LaneState :=
  let x := s.lane l
  if l = (s.ctx id).lane then
    { x with
      ctxs := x.ctxs.filter (· != id), front := if x.front = some id then none else x.front
      mode := if drains s id then .closed else x.mode, holder := if drains s id then none else x.holder }
  else x

/-- R33: the uplink port once a context is freed: the one LANE_EVENT of a lane that so becomes CLOSED. -/
def drained (s : State) (id : CtxId) (u : Uplink) : Uplink :=
  if drains s id then classB u (.modeChange (s.ctx id).lane .closing .closed .contextsDrained none) else u

/-- R45: another context once a context is freed: one that stays in the same lane has its approach timer taken anew. -/
def staying (s : State) (id j : CtxId) : Ctx :=
  let l := (s.ctx id).lane
  let c := s.ctx j
  if j ∈ (left s id l).ctxs then
    { c with approachTimer :=
        if c.state = .arriving ∧ (left s id l).ctxs.length = 1 ∧ s.reads l .position = false then
          some (c.approachTimer.getD s.params.approachLimit)
        else none }
  else c

/-- R33, R44, R45, R61: what the freeing of a context makes of the pool and of the lanes: its lane holds it no more (`left`),
and either no lane is eligible and the context is FREE, or the first eligible lane after the last served takes it, in ARRIVING
or straight in IDENTIFYING, and the timers of the contexts there stop. -/
abbrev Granted (s t : State) (id : CtxId) : Prop :=
  let eligible (l : LaneId) : Prop :=
    (left s id l).mode = .open ∧ 0 < (left s id l).pendingArrivals ∧ (left s id l).ctxs.length < 2
  ((∀ l, ¬ eligible l) →
    t.ctx id = {} ∧ t.lastServed = s.lastServed ∧ t.visitCounter = s.visitCounter ∧
    (∀ l, t.lane l = left s id l) ∧ ∀ j, j ≠ id → t.ctx j = staying s id j) ∧
  ∀ n : Fin 16,
    let l := s.lastServed + 1 + n
    let x := left s id l
    let direct : Prop := (∀ j ∈ x.ctxs, j ≠ id → (s.ctx j).state.atPosition = false) ∧ s.reads l .position = true
    eligible l → (∀ m, m < n → ¬ eligible (s.lastServed + 1 + m)) →
    t.lastServed = l ∧ t.visitCounter = s.visitCounter + 1 ∧ (∀ g, g ≠ l → t.lane g = left s id g) ∧
    (∀ j, j ≠ id → t.ctx j = if j ∈ x.ctxs then { s.ctx j with approachTimer := none } else staying s id j) ∧
    (direct →
      t.lane l = { x with ctxs := x.ctxs ++ [id], pendingArrivals := x.pendingArrivals - 1, front := some id } ∧
      t.ctx id =
        { state := .identifying, visit := s.visitCounter, lane := l, arrival := s.now, position := some s.now
          identTimer := some s.params.identWindow }) ∧
    (¬ direct →
      t.lane l = { x with ctxs := x.ctxs ++ [id], pendingArrivals := x.pendingArrivals - 1 } ∧
      t.ctx id =
        { state := .arriving, visit := s.visitCounter, lane := l, arrival := s.now
          approachTimer :=
            if x.ctxs = [] ∧ s.reads l .position = false then some s.params.approachLimit else none })

/-- What only a table write, TIME_SET, the clock or a reset changes: the parameters, the weights, the defaults, the
phrases, the uncached prefixes, the clock, and the reset input. -/
abbrev Configured (s t : State) : Prop :=
  t.params = s.params ∧ t.check.weights = s.check.weights ∧ t.dest.defaults = s.dest.defaults ∧
  t.signs.phrases = s.signs.phrases ∧ t.cache.uncached = s.cache.uncached ∧ t.slot.clock = s.slot.clock ∧
  t.resetHeld = s.resetHeld

/-! ### Signs and tickets (R171 to R175) -/

/-- R171: a station is a SIGN of a lane: its entry is in LEARN or FROZEN, of the role SIGN, for that lane. -/
abbrev SignOf (s : State) (l : LaneId) (ix : StationIx) : Prop :=
  (s.station ix).state ≠ .empty ∧ (s.station ix).role = .sign ∧ (s.station ix).lane = l

/-- R171: the latest page of a channel: pending, else in flight, else last acknowledged. -/
def shownPage (ch : SignChannel) : Option Page :=
  match ch.waiting, ch.inFlight with
  | some p, _ => some p
  | none, some f => some f.page
  | none, none => ch.lastAcked

/-- R172, R173: a channel that holds a pending page holds it for a FAULT or behind a page in flight. -/
abbrev Orderly (ch : SignChannel) : Prop := ch.waiting = none ∨ ch.fault = true ∨ ch.inFlight.isSome = true

/-- R171: each SIGN of a lane comes to show the lane's page. -/
abbrev Shows (s t : State) (l : LaneId) : Prop :=
  ∀ (ix : StationIx) (ch : SignChannel), SignOf s l ix → (s.station ix).channel = some ch → Orderly ch →
    ∃ d, (t.station ix).channel = some d ∧ shownPage d = some (t.page l)

/-- R175: the printer of a lane: of the PRINTER entries for the lane the first in station map order. -/
abbrev PrinterOf (s : State) (l : LaneId) (ix : StationIx) : Prop :=
  let prints (j : StationIx) : Prop :=
    (s.station j).state ≠ .empty ∧ (s.station j).role = .printer ∧ (s.station j).lane = l
  prints ix ∧ ∀ j, j < ix → ¬ prints j

/-- R175: a visit's ticket is issued, at the end of its printer's queue with a running timer, or refused: without a printer,
or with two tickets in its queue. -/
abbrev Ticketed (s t : State) (id : CtxId) : Prop :=
  let l := (s.ctx id).lane
  (∀ ix, PrinterOf s l ix → (s.station ix).tickets.length < 2 →
    (t.ctx id).flags.noTicket = (s.ctx id).flags.noTicket ∧
    ∃ q, (t.station ix).tickets = (s.station ix).tickets ++ [⟨(s.ctx id).visit, q, some s.params.ticketAck⟩]) ∧
  ((∀ ix, PrinterOf s l ix → 2 ≤ (s.station ix).tickets.length) →
    (t.ctx id).flags.noTicket = true ∧ (∀ ix, (t.station ix).tickets = (s.station ix).tickets) ∧
    t.signs.counters.ticketsRefused = bump s.signs.counters.ticketsRefused)

/-! ### The booking cache (R94, R96, R108) -/

/-- R97, R99: the fetch that an answer's tag matches. -/
abbrev Outstanding (s : State) (i : Fin 16) (f : Fetch) (tag : BitVec 16) : Prop :=
  s.cache.slots[i] = some f ∧ f.phase = .sent ∧ f.tag = tag ∧
  ∀ j : Fin 16, ∀ g ∈ s.cache.slots[j], g.phase = .sent → g.tag = tag → j = i

/-- R97: no outstanding fetch has the tag. -/
abbrev Unmatched (s : State) (tag : BitVec 16) : Prop :=
  ∀ j : Fin 16, ∀ g ∈ s.cache.slots[j], g.phase = .sent → g.tag ≠ tag

/-- R95, R112: no lookup waits and no recall is outstanding. -/
abbrev CacheIdle (s : State) : Prop := s.cache.waitList = [] ∧ s.cache.recalls = []

/-- R94: the tag that a fetch made now takes: the next tag that no fetch slot holds, each value passed over used up. -/
abbrev TagFor (s : State) (tag : BitVec 16) : Prop :=
  let held (x : BitVec 16) : Prop := ∃ i : Fin 16, ∃ f ∈ s.cache.slots[i], f.tag = x
  ∃ n : Nat, tag = s.uplink.nextTag + BitVec.ofNat 16 n ∧ ¬ held tag ∧
    ∀ m < n, held (s.uplink.nextTag + BitVec.ofNat 16 m)

/-- R93: of two prefixes, as lists of character values, the first is not above the second: the first difference decides. -/
abbrev NotAbove (a b : List Nat) : Prop :=
  a = b ∨ ∃ n x y, a.take n = b.take n ∧ a[n]? = some x ∧ b[n]? = some y ∧ x < y

/-- R93: the prefix of a key lies in an uncached prefix range, by the values of the characters. -/
abbrev InUncachedRange (s : State) (key : Text) : Prop :=
  ∃ n : Fin 2, ∃ g ∈ s.cache.uncached[n],
    NotAbove (g.first.toList.map charValue) ((key.take 4).map charValue) ∧
    NotAbove ((key.take 4).map charValue) (g.last.toList.map charValue)

/-- R90: a visit holds a private copy of the key. -/
abbrev HeldPrivately (s : State) (key : Text) : Prop :=
  ∃ p : Fin 48, ∃ c ∈ s.cache.copies[p], c.key = key ∧ c.link.isSome = true

/-- R92, R94, R96: the reports of a fetch in the order they are made: the castout's BOOKING_WRITEBACK, if there is one, and the
BOOKING_FETCH. -/
def fetchReports (i : Fin 16) (key : Text) (tag : BitVec 16) (castout : Option Record) : List (Owed × Report) :=
  (castout.map fun r => (Owed.castout i, Report.bookingWriteback r)).toList ++ [(.fetch i, .bookingFetch key tag)]

/-- R94, R96: a fetch once its reports are made, with room for `n`: it owes its castout, it owes its BOOKING_FETCH, or it is sent
and its timer runs. -/
def fetchMade (s : State) (n : Nat) (key : Text) (g : Target) (tag : BitVec 16) (castout : Option Record) : Fetch :=
  if (fetchReports 0 key tag castout).length ≤ n then ⟨key, g, tag, .sent, none, some s.params.fetchTimeout⟩
  else if castout.isSome = true ∧ n = 0 then ⟨key, g, tag, .castoutOwed, castout, none⟩
  else ⟨key, g, tag, .fetchOwed, none, none⟩

/-- R112: no private copy of a key is under recall. -/
abbrev NoCopyRecalled (s : State) (key : Text) : Prop :=
  ∀ p : Fin 48, ∀ c ∈ s.cache.copies[p], c.key = key → c.recalled = false

/-- R112: no recall outstanding is about to be reported done: each is reported done already, or waits for its entry, or for a
private copy. -/
abbrev RecallsWait (s : State) : Prop :=
  ∀ q ∈ s.cache.recalls, q.done = true ∨ q.entryPart = true ∨
    ∃ p : Fin 48, ∃ c ∈ s.cache.copies[p], c.key = q.key ∧ c.recalled = true

/-- R108: the report that a recall is done. -/
def recallDone (key : Text) (released : Bool) : Owed × Report := (.recallDone key released, .recallDone key released)

/-- R108, R112: the one recall outstanding is reported done: with room its record leaves the recall table at once. -/
def recallEnded (s : State) (key : Text) (released : Bool) : State :=
  let v := reportsMade s [recallDone key released]
  { v with cache := { v.cache with recalls := if 0 < cacheRoom s then [] else [⟨key, released, false, true⟩] } }

/-- R109, R111, R112: what a recall makes of the entry `e` under it, of which a pin is dropped or a report accepted, and the
reports made, with room for `n`. A pinned entry, and one that owes a report, stays. One that is clean becomes INVALID, and the
recall is reported done. One that is dirty owes its BOOKING_WRITEBACK; where that is accepted at once the same follows. -/
def recallSettled (n : Nat) (i : Fin 1024) (y : Fin 2) (key : Text) (released : Bool) (e : Entry) :
    Entry × List (Owed × Report) :=
  if e.pins ≠ 0 ∨ e.owed ≠ .none then (e, [])
  else if e.dirty then
    let back := (e.record.map fun r => (Owed.writeback i y, Report.bookingWriteback r)).toList
    if 0 < n then ({}, back ++ [recallDone key released]) else ({ e with owed := .writeback }, back)
  else ({}, [recallDone key released])

/-- R96, R109, R111, R112: the part once the one recall outstanding, of a key with no recalled private copy, has settled the entry
`e` of the key: where the entry becomes INVALID the recall ends, its record leaving the recall table when its RECALL_DONE is
accepted. -/
def recallTested (s : State) (i : Fin 1024) (y : Fin 2) (key : Text) (released : Bool) (e : Entry) : State :=
  let x := recallSettled (cacheRoom s) i y key released e
  let v := reportsMade s x.2
  { v with cache := { v.cache with
    sets := upd s.cache.sets i fun c => c.put y x.1
    recalls :=
      if x.1.state = .invalid then (if x.2.length ≤ cacheRoom s then [] else [⟨key, released, false, true⟩])
      else [⟨key, released, true, false⟩] } }

/-- R107: the entries that a FLUSH writes back, in ascending set index, way 0 before way 1. -/
def flushed (s : State) : List (Fin 1024 × Fin 2) :=
  ((List.finRange 1024).flatMap fun i => [(i, 0), (i, 1)]).filter fun x =>
    (s.entry x.1 x.2).state == .valid && (s.entry x.1 x.2).dirty && (s.entry x.1 x.2).owed == .none

/-- R107: the reports that a FLUSH makes, in their order: the write-backs, and FLUSH_DONE after them. -/
def flushReports (s : State) : List (Owed × Report) :=
  ((flushed s).filterMap fun x => (s.entry x.1 x.2).record.map fun r => (.writeback x.1 x.2, .bookingWriteback r)) ++
    [(.flushDone, .flushDone)]

/-- The pool with one link changed. -/
def relinked (s : State) (r : LinkRef) (f : Link → Link) : Vector Ctx 24 :=
  upd s.pool r.ctx fun d => { d with links := d.links.modify r.index f }

/-- R88 to R94, R102: one BOOKING LOOKUP of the key of a link: the wait list is `back` where it must wait and `gone` where it
does not. A hit pins the entry and sets the age marker, and the link joins the fill or is RESOLVED; by the model's choices of log
entries 10 and 41 a hit on an entry under recall is counted, leaves the age marker, and waits. A miss without a free fetch slot
waits; else it takes the lowest free slot, installs the key in the way chosen, a dirty record there owed as a castout, or, for an
uncached key, one held privately or a set with no eligible way, makes a private copy in the lowest free place, or waits for one
(log entry 7). R96: the reports of the fetch are accepted at once where there is room (`reportsMade`), the castout's first, and
the slot stands as `fetchMade` says. -/
abbrev LookedUp (s t : State) (r : LinkRef) (key : Text) (back gone : List LinkRef) : Prop :=
  let k := setIndex key
  let named (g : Target) (l : Link) : Link := { l with target := some g }
  (∀ y, Work.wayOf s key = some y →
    let e := s.entry k y
    let hits : CacheCounters := { s.cache.counters with hits := bump s.cache.counters.hits }
    let pinned : Cache := { s.cache with
      sets := upd s.cache.sets k fun x => { x.put y { e with pins := e.pins + 1 } with age := y }
      waitList := gone, counters := hits }
    (e.state = .filling → t = { s with pool := relinked s r (named (.way k y)), cache := pinned }) ∧
    (e.state ≠ .filling → e.mark = .pending →
      t = { s with cache := { s.cache with waitList := back, counters := hits } }) ∧
    (e.state ≠ .filling → e.mark ≠ .pending →
      t = { s with pool := relinked s r fun l => { named (.way k y) l with state := .resolved }, cache := pinned })) ∧
  (Work.wayOf s key = none →
    let missed : CacheCounters := { s.cache.counters with misses := bump s.cache.counters.misses }
    let waits : State := { s with cache := { s.cache with waitList := back, counters := missed } }
    let around : Prop := InUncachedRange s key ∨ HeldPrivately s key
    ((∀ i : Fin 16, s.cache.slots[i] ≠ none) → t = waits) ∧
    ∀ i : Fin 16, s.cache.slots[i] = none → (∀ j : Fin 16, j < i → s.cache.slots[j] ≠ none) →
      let fetching (tag : BitVec 16) : Uplink := { s.uplink with nextTag := tag + 1 }
      (∀ y, ¬ around → Work.victim s.cache.sets[k] = some y →
        let e := s.entry k y
        let castout := if e.state = .valid ∧ e.dirty = true then e.record else none
        ∃ tag, TagFor s tag ∧ t = reportsMade { s with
          pool := relinked s r (named (.way k y)), uplink := fetching tag
          cache := { s.cache with
            sets := upd s.cache.sets k fun x =>
              { x.put y { state := .filling, key := some key, pins := 1 } with age := y }
            slots := s.cache.slots.set i (some (fetchMade s (cacheRoom s) key (.way k y) tag castout))
            waitList := gone
            counters := { missed with
              castouts := if castout.isSome then bump missed.castouts else missed.castouts } } }
          (fetchReports i key tag castout)) ∧
      (around ∨ Work.victim s.cache.sets[k] = none →
        ((∀ p : Fin 48, s.cache.copies[p] ≠ none) → t = waits) ∧
        ∀ p : Fin 48, s.cache.copies[p] = none → (∀ q : Fin 48, q < p → s.cache.copies[q] ≠ none) →
          ∃ tag, TagFor s tag ∧ t = reportsMade { s with
            pool := relinked s r (named (.copy p)), uplink := fetching tag
            cache := { s.cache with
              copies := s.cache.copies.set p (some ⟨key, none, 0, some r, false, false⟩)
              slots := s.cache.slots.set i (some (fetchMade s (cacheRoom s) key (.copy p) tag none))
              waitList := gone
              counters := { missed with privateCopies := bump missed.privateCopies } } }
            (fetchReports i key tag none)))

/-- R52, R89: the lookups of several links, handed to the cache one after the other. -/
def LookedUpInTurn : List LinkRef → State → State → Prop
  | [], s, t => t = s
  | r :: rs, s, t =>
      ∃ (v : State) (l : Link), s.link? r = some l ∧
        LookedUp s v r l.key (s.cache.waitList ++ [r]) s.cache.waitList ∧ LookedUpInTurn rs v t

/-- R105: a commit's changes go back at once: under THROUGH, or under ADAPTIVE with few reports queued. -/
abbrev GoesThrough (s : State) : Prop :=
  s.params.writePolicy = .through ∨
  (s.params.writePolicy = .adaptive ∧ s.uplink.queue.length ≤ s.params.adaptiveThreshold)

/-- What the commit of a visit's one link does to its record: nothing is to be committed (the visit is turned out, or the link
names no record), the record is locked (R106), or it takes what `commitRecord` makes of it (R104). -/
inductive LinkFate where
  | dropped
  | locked
  | written (k : Committed)

/-- R104, R106: the fate of the record of one link. -/
def linkFate (s : State) (c : Ctx) (l : Link) : LinkFate :=
  match l.target, s.linkRecord l with
  | some g, some r =>
      if c.decision ≠ some .admitted ∧ c.decision ≠ some .inspect then .dropped
      else if r.customsHold = true ∨ r.lineHold = true then .locked
      else .written (commitRecord c l r (s.targetHeld g))
  | _, _ => .dropped

/-- R104, R105: whether a commit changes the record of a link, so that it goes back: a KIOSK link that overruns changes nothing
(the model's reading: log entry 17). -/
def changes (l : Link) (k : Committed) : Bool := !(k.overrun && l.source == .kiosk)

/-- R102, R105: the report that the commit of one link makes. -/
def committedReport (s : State) (c : Ctx) (l : Link) : Option (Owed × Report) :=
  match l.target, linkFate s c l with
  | some (.way i y), .written k =>
      if changes l k = true ∧ GoesThrough s then some (.update i y, .bookingUpdate k.record) else none
  | some (.copy p), .written k => some (.copyUpdate p, .bookingUpdate k.record)
  | _, _ => none

/-- R96: whether the report that the commit of one link makes is accepted at once: those of the links before it leave room. -/
def sentAtOnce (s : State) (c : Ctx) (l : Link) : Bool :=
  decide (((c.links.take (c.links.idxOf l)).filterMap (committedReport s c)).length < cacheRoom s)

/-- R57, R96, R104 to R106, R111: an entry once the link that names it is committed: its pin is dropped with the unit the link
holds, and a record written goes back by the write policy; a report accepted at once leaves the entry clean. -/
def committedEntry (s : State) (c : Ctx) (l : Link) (e : Entry) : Entry :=
  let released : Entry := { e with pins := e.pins - 1, held := if l.holdsUnit then e.held - 1 else e.held }
  match linkFate s c l with
  | .dropped | .locked => released
  | .written k =>
      let written : Entry := { released with record := some k.record }
      if changes l k = true ∧ GoesThrough s then
        if sentAtOnce s c l then { written with dirty := false } else { written with owed := .update }
      else if changes l k then { written with dirty := true }
      else written

/-- R102: a private copy once the link that names it is committed: discarded, unless it still owes its update. -/
def committedCopy (s : State) (c : Ctx) (l : Link) (x : PrivateCopy) : Option PrivateCopy :=
  match linkFate s c l with
  | .dropped | .locked => none
  | .written k =>
      if sentAtOnce s c l then none
      else some { x with record := some k.record, updateOwed := true, link := none, held := 0 }

/-- R104, R106, R113: the counters after the commit of one link. -/
def committedCount (s : State) (c : Ctx) (n : CacheCounters) (l : Link) : CacheCounters :=
  match linkFate s c l with
  | .dropped => n
  | .locked => { n with lockedDiscards := bump n.lockedDiscards }
  | .written k => if k.overrun then { n with pickupOverruns := bump n.pickupOverruns } else n

/-- R104, R106: the flags of a visit after the commit of one of its links. -/
def committedFlags (s : State) (c : Ctx) (f : CtxFlags) (l : Link) : CtxFlags :=
  match linkFate s c l with
  | .dropped => f
  | .locked => { f with lockedUpdateDiscarded := true }
  | .written k => { f with damageListFull := f.damageListFull || k.listFull }

/-- R104: the damage checks of a visit after the commit of one of its links: the marks appended are counted. -/
def committedDamage (s : State) (c : Ctx) (m : PerPos (Option DamageCheck)) (l : Link) : PerPos (Option DamageCheck) :=
  match linkFate s c l, l.source.position with
  | .written k, some pos => m.put pos ((m.get pos).map fun x => { x with appended := k.appended })
  | _, _ => m

/-- R57, R96, R102, R104 to R106, R111: what the commit of a visit makes of the cache, of its links and of the context, link after
link (for links of different targets), and the reports it makes, in link order. -/
abbrev LinksCommitted (s t : State) (id : CtxId) : Prop :=
  let c := s.ctx id
  let d := t.ctx id
  d.links = c.links.map (fun l => { l with target := none, holdsUnit := false }) ∧
  d.flags = c.links.foldl (committedFlags s c) c.flags ∧
  d.damage = c.links.foldl (committedDamage s c) c.damage ∧
  t.cache.counters = c.links.foldl (committedCount s c) s.cache.counters ∧
  let v := reportsMade s (c.links.filterMap (committedReport s c))
  t.cache.sendOrder = v.cache.sendOrder ∧ t.uplink = v.uplink ∧
  t.cache.slots = s.cache.slots ∧ t.cache.recalls = s.cache.recalls ∧
  (∀ i y, t.entry i y = match c.links.find? (·.target == some (.way i y)) with
    | some l => committedEntry s c l (s.entry i y)
    | none => s.entry i y) ∧
  ∀ p : Fin 48, t.cache.copies[p] = match c.links.find? (·.target == some (.copy p)) with
    | some l => s.cache.copies[p].bind (committedCopy s c l)
    | none => s.cache.copies[p]

/-- R109, R111: the one link of a visit names an entry under the one recall outstanding, of which no private copy is left, and no
lookup waits. -/
abbrev LinksRecalledEntry (s : State) (id : CtxId) (l : Link) (i : Fin 1024) (y : Fin 2) (key : Text) (released : Bool) : Prop :=
  (s.ctx id).links = [l] ∧ l.target = some (.way i y) ∧ (s.entry i y).state = .valid ∧ (s.entry i y).mark = .pending ∧
  0 < (s.entry i y).pins ∧ (s.entry i y).key = some key ∧ (s.entry i y).record.isSome = true ∧ s.cache.waitList = [] ∧
  s.cache.recalls = [⟨key, released, true, false⟩] ∧ NoCopyRecalled s key

/-- R105, R111, R112: what the commit of a visit makes of the cache where its one link names an entry under recall, `released` the
entry with its pin dropped: a record written goes back whatever the write policy, unless the entry owes a report already, which
then carries it; and the recall has the entry settled (`recallTested`). -/
abbrev RecalledEntryCommitted (s t : State) (id : CtxId) (l : Link) (i : Fin 1024) (y : Fin 2) (key : Text) (released : Bool) :
    Prop :=
  let c := s.ctx id
  let e := s.entry i y
  let unpinned (e : Entry) : Entry :=
    { e with pins := e.pins - 1, held := if l.holdsUnit then e.held - 1 else e.held }
  let tested (v : State) (e : Entry) : Prop :=
    let w := recallTested v i y key released (unpinned e)
    t.uplink = w.uplink ∧ t.cache = { w.cache with counters := committedCount s c s.cache.counters l }
  (t.ctx id).links = [{ l with target := none, holdsUnit := false }] ∧
  (t.ctx id).flags = committedFlags s c c.flags l ∧ (t.ctx id).damage = committedDamage s c c.damage l ∧
  match linkFate s c l with
  | .dropped | .locked => tested s e
  | .written k =>
      let written : Entry := { e with record := some k.record }
      (e.owed ≠ .none → tested s written) ∧
      (e.owed = .none → tested (reportsMade s [(.update i y, .bookingUpdate k.record)])
        (if 0 < cacheRoom s then { written with dirty := false } else { written with owed := .update }))

/-- R102, R112: the one link of a visit names a private copy under the one recall outstanding, the last of its key, and no lookup
waits. -/
abbrev LinksRecalledCopy (s : State) (id : CtxId) (l : Link) (p : Fin 48) (x : PrivateCopy) (released : Bool) : Prop :=
  (s.ctx id).links = [l] ∧ l.target = some (.copy p) ∧ s.cache.copies[p] = some x ∧ x.recalled = true ∧
  x.updateOwed = false ∧ x.link.isSome = true ∧ s.cache.waitList = [] ∧
  s.cache.recalls = [⟨x.key, released, false, false⟩] ∧
  ∀ q : Fin 48, q ≠ p → ∀ d ∈ s.cache.copies[q], d.key = x.key → d.recalled = false

/-- R102, R105, R112: what the commit of a visit makes of the cache where its one link names a private copy under recall: its update
is made, and with the copy discarded the recall ends; a copy that still owes its update stays, and the recall with it. -/
abbrev RecalledCopyCommitted (s t : State) (id : CtxId) (l : Link) (p : Fin 48) (x : PrivateCopy) (released : Bool) : Prop :=
  let c := s.ctx id
  let d := committedCopy s c l x
  let v := reportsMade s (committedReport s c l).toList
  let w := if d = none then recallEnded v x.key released else v
  (t.ctx id).links = [{ l with target := none, holdsUnit := false }] ∧
  (t.ctx id).flags = committedFlags s c c.flags l ∧ (t.ctx id).damage = committedDamage s c c.damage l ∧
  t.uplink = w.uplink ∧
  t.cache = { w.cache with
    copies := s.cache.copies.set p d, counters := committedCount s c s.cache.counters l }

/-- R102, R109: the target of a link is under no recall and owes no report. -/
abbrev TargetQuiet (s : State) (l : Link) : Prop :=
  (∀ i y, l.target = some (.way i y) → (s.entry i y).mark = .none ∧ (s.entry i y).owed = .none) ∧
  ∀ p, l.target = some (.copy p) → ∃ x, s.cache.copies[p] = some x ∧ x.updateOwed = false

/-- R159: whether a transit entry is due at an absolute minute. -/
def due (minute : Nat) (e : TransitEntry) : Bool :=
  match e.expiry with
  | some x => decide (minuteDiff x minute ≤ 0)
  | none => false

/-- R159: what a minute announced makes of the transit list: each entry that is due leaves, its token is free, its visit's
reference becomes none, and it is counted; no visit has two entries. -/
abbrev Expires (s t : State) (minute : Nat) : Prop :=
  let gone := s.dest.transit.filter (due minute)
  (s.dest.transit.map (·.visit)).Nodup →
    t.dest.transit = s.dest.transit.filter (fun e => !due minute e) ∧
    t.dest.counters = { s.dest.counters with transitExpired := bumpBy s.dest.counters.transitExpired gone.length } ∧
    (∀ y, t.destAt y =
      { s.destAt y with inTransit := (s.destAt y).inTransit - (gone.filter (·.dest == y)).length }) ∧
    ∀ id, (t.ctx id).inTransit =
      ((s.ctx id).inTransit && !((s.ctx id).state != .free && gone.any (·.visit == (s.ctx id).visit)))

/-- R121, R122: the reservation of a visit once the table holds the days about `d`: one on a day it does not hold is lost. -/
def rebased (d : BitVec 16) (r : Option Reservation) : Option Reservation :=
  r.map fun r => if r.day = d - 1 ∨ r.day = d ∨ r.day = d + 1 then r else { r with lost := true }

/-! ### The decision step (R149 to R157) -/

/-- R138, R142: the geometry of a position that is graded: its raw mark list holds a mark or has overflowed. -/
def gradedGeometry (s : State) (c : Ctx) (pos : Position) : Option Geometry :=
  if (c.raw.get pos).marks = [] ∧ (c.raw.get pos).overflow = false then none
  else some (geometry (c.layoutOf pos) (s.positionRecord c pos))

/-- R139, R148: the marks of a graded position that lie beyond the grid of their face. -/
def clampsOf (s : State) (c : Ctx) (pos : Position) : Nat :=
  match gradedGeometry s c pos with
  | some g => ((c.raw.get pos).marks.filter (beyondGrid g.columns)).length
  | none => 0

/-- R142 to R145: the damage check of one position: nothing for an empty raw mark list that has not overflowed; else the
grade of its container marks against the prior marks of the position's record, none for a PROVISIONAL visit. -/
def damageOf (s : State) (c : Ctx) (prov : Bool) (pos : Position) : DamageCheck :=
  let prior := if prov then [] else ((s.positionRecord c pos).map (·.prior)).getD []
  match gradedGeometry s c pos with
  | some g =>
      let marks := containerMarks g (c.raw.get pos).marks
      judgeDamage s.params (gradeOf s.check.weights prior marks) (c.raw.get pos).overflow prov
        (marks.filter fun m => (markCost prior m).isSome)
  | none => {}

/-- R149 parts 3 and 4: a context with the seal result and the damage check of each position, and its slot result. -/
def checked (s : State) (c : Ctx) (prov : Bool) : Ctx :=
  { c with
    sealChecks := ⟨s.sealOf c .fwd, s.sealOf c .aft⟩
    damage := ⟨some (damageOf s c prov .fwd), some (damageOf s c prov .aft)⟩
    slotResult := some (s.classify c prov).1 }

/-- R103: whether a visit takes a unit for a link: RESOLVED to an EMPTY_PICKUP record with a unit left, none held yet. -/
def takesUnit (s : State) (l : Link) : Bool :=
  match l.target, s.linkRecord l with
  | some g, some x => x.kind == .emptyPickup && !l.holdsUnit && decide (s.targetHeld g < x.remaining)
  | _, _ => false

/-- R103: the units held: where `takes`, each link of a visit that may take a unit has taken one (for links of different
targets); else no link has. -/
abbrev UnitsTaken (s t : State) (id : CtxId) (takes : Bool) : Prop :=
  ((s.ctx id).links.filterMap (·.target)).Nodup →
    ((t.ctx id).links = (s.ctx id).links.map fun l =>
      if takes && takesUnit s l then { l with holdsUnit := true } else l) ∧
    ∀ l ∈ (s.ctx id).links, ∀ g, l.target = some g →
      t.targetHeld g = if takes && takesUnit s l then s.targetHeld g + 1 else s.targetHeld g

/-- R126: the reservation offered is taken in its window, or nothing is. -/
abbrev Reserved (s t : State) (id : CtxId) (offer : Option (BitVec 16 × Nat)) : Prop :=
  (∀ d w, offer = some (d, w) →
    (t.ctx id).reservation = some ⟨d, w, false⟩ ∧ (t.ctx id).reserved = some (d, w) ∧
    ∀ p, t.windowAt p =
      if s.windowPlace d w = some p then { s.windowAt p with reserved := (s.windowAt p).reserved + 1 } else s.windowAt p) ∧
  (offer = none →
    (t.ctx id).reservation = (s.ctx id).reservation ∧ (t.ctx id).reserved = (s.ctx id).reserved ∧
    ∀ p, t.windowAt p = s.windowAt p)

/-- R157, R158: a visit has its destination with a token and a transit entry there (the list as it is stated for a visit
with no entry yet and a list with room), or takes none. -/
abbrev Routed (s t : State) (id : CtxId) (dst : Option (Fin 64)) : Prop :=
  (∀ x, dst = some x →
    (t.ctx id).destination = some x ∧ (t.ctx id).inTransit = true ∧
    ((∀ e ∈ s.dest.transit, e.visit ≠ (s.ctx id).visit) → s.dest.transit.length < 256 →
      t.dest.transit = s.dest.transit ++ [⟨(s.ctx id).visit, x, none⟩] ∧
      ∀ y, t.destAt y = if y = x then { s.destAt y with inTransit := (s.destAt y).inTransit + 1 } else s.destAt y)) ∧
  (dst = none →
    (t.ctx id).inTransit = (s.ctx id).inTransit ∧ t.dest.transit = s.dest.transit ∧ t.dest.dests = s.dest.dests)

/-- R128: a visit's reservation is given back: the reserved count of its window falls by one, or, where the reservation is
lost or its window held no more, nothing changes; no counter rises. -/
abbrev WindowReturned (s t : State) (id : CtxId) : Prop :=
  t.slot.counters = s.slot.counters ∧ t.slot.clock = s.slot.clock ∧
  ∀ p, t.windowAt p = match (s.ctx id).reservation with
    | some r =>
        if r.lost = false ∧ s.windowPlace r.day r.window = some p then
          { s.windowAt p with reserved := (s.windowAt p).reserved - 1 }
        else s.windowAt p
    | none => s.windowAt p

/-- R103, R164: every unit held by a visit's links is given back (for links of different targets). -/
abbrev UnitsGivenBack (s t : State) (id : CtxId) : Prop :=
  ((s.ctx id).links.filterMap (·.target)).Nodup →
    ((t.ctx id).links = (s.ctx id).links.map fun l =>
      if l.target.isSome then { l with holdsUnit := false } else l) ∧
    ∀ l ∈ (s.ctx id).links, ∀ g, l.target = some g →
      t.targetHeld g = if l.holdsUnit then s.targetHeld g - 1 else s.targetHeld g

/-- R60: what the abort of a visit is stated for: no other context holds its visit number, no recall is outstanding and no other
lookup waits, the visit's links name different targets under no recall, and its transit entry is in the list, which holds one
entry for a visit. -/
abbrev Abortable (s : State) (id : CtxId) : Prop :=
  (s.ctx id).state ≠ .free ∧ (∀ j, j ≠ id → (s.ctx j).state ≠ .free → (s.ctx j).visit ≠ (s.ctx id).visit) ∧
  s.cache.recalls = [] ∧ (∀ r ∈ s.cache.waitList, r.ctx = id ∧ r.index < (s.ctx id).links.length) ∧
  ((s.ctx id).links.filterMap (·.target)).Nodup ∧
  (∀ k ∈ (s.ctx id).links, ∀ i y, k.target = some (.way i y) → (s.entry i y).mark = .none) ∧
  (s.dest.transit.map (·.visit)).Nodup ∧
  ((s.ctx id).inTransit = true → ∃ e ∈ s.dest.transit, e.visit = (s.ctx id).visit)

/-- R60, R101, R128: what an abort of one visit gives back in the shared records: the reserved count of its window, its transit
entry with the token, the pins and units of its links, its waiting lookups, its private copies, and the fetches of those. -/
abbrev Released (s t : State) (id : CtxId) : Prop :=
  let c := s.ctx id
  WindowReturned s t id ∧
  t.dest.transit = (if c.inTransit then s.dest.transit.filter (·.visit != c.visit) else s.dest.transit) ∧
  (∀ y, t.destAt y =
    if c.inTransit && s.dest.transit.any (fun e => e.visit == c.visit && e.dest == y) then
      { s.destAt y with inTransit := (s.destAt y).inTransit - 1 }
    else s.destAt y) ∧
  (∀ i y, t.entry i y = match c.links.find? (·.target == some (.way i y)) with
    | some k => { s.entry i y with
        pins := (s.entry i y).pins - 1, held := if k.holdsUnit then (s.entry i y).held - 1 else (s.entry i y).held }
    | none => s.entry i y) ∧
  (∀ p : Fin 48, t.cache.copies[p] =
    if c.links.any (·.target == some (.copy p)) then none else s.cache.copies[p]) ∧
  (∀ (i : Fin 16) (f : Fetch) (p : Fin 48), s.cache.slots[i] = some f → f.target = .copy p →
    c.links.any (·.target == some (.copy p)) = true →
    (∀ (j : Fin 16) (g : Fetch), s.cache.slots[j] = some g → g.target = .copy p → j = i) → t.cache.slots[i] = none) ∧
  (∀ i : Fin 16, (∀ f p, s.cache.slots[i] = some f → f.target = .copy p →
    c.links.any (·.target == some (.copy p)) = false) → t.cache.slots[i] = s.cache.slots[i]) ∧
  (t.cache.sendOrder = s.cache.sendOrder.filter fun o => match o with
    | .fetch i => decide (t.cache.slots[i] = s.cache.slots[i])
    | _ => true) ∧
  t.cache.waitList = [] ∧ t.cache.counters = s.cache.counters ∧ t.cache.recalls = []

/-- R60: a visit that an abort has ended, with an outcome. -/
def ended (c : Ctx) (outcome : Outcome) : Ctx :=
  { c with
    state := .closing, outcome := some outcome, approachTimer := none, identTimer := none, rulingTimer := none
    noticePending := false, reservation := none, inTransit := false
    links := c.links.map fun l => { l with target := none, holdsUnit := false } }

/-- R53, R149, R150, R152, R156, R157: what the decision step of a context in LOOKUP makes of it and of the part: `c` is
the context with its fields finalised, `v` the one that the checks and the classification leave, `first` the decision of
rows 1 to 8. A PROVISIONAL visit takes parts 5 to 7 from R152. -/
abbrev Decides (s t : State) (id : CtxId) : Prop :=
  let c := (s.ctx id).finalise s.params
  let prov := s.provisional c
  let v := checked s c prov
  let d := t.ctx id
  let r := s.reasonsOf v
  let first := State.decisionOf r v.slotResult
  let offer := (s.classify c prov).2
  let trouble := s.chain (s.bookingKind c) 4 s.dest.defaults[5]
  d.visit = c.visit ∧ d.lane = c.lane ∧ d.arrival = c.arrival ∧ d.position = c.position ∧ d.plate = c.plate ∧
  d.tag = c.tag ∧ d.unitFwd = c.unitFwd ∧ d.unitAft = c.unitAft ∧ d.sealFwd = c.sealFwd ∧ d.sealAft = c.sealAft ∧
  d.layout = c.layout ∧ d.raw = c.raw ∧ d.sealChecks = v.sealChecks ∧ d.damage = v.damage ∧
  d.slotResult = v.slotResult ∧ d.decisionMinute = some s.now ∧
  d.flags = { c.flags with
    provisional := c.flags.provisional || prov
    lengthFromBooking := c.flags.lengthFromBooking || (gradedGeometry s c .fwd).any (·.fromBooking) ||
      (gradedGeometry s c .aft).any (·.fromBooking)
    orientationAssumed := c.flags.orientationAssumed || (gradedGeometry s c .fwd).any (·.assumed) ||
      (gradedGeometry s c .aft).any (·.assumed)
    noTicket := d.flags.noTicket } ∧
  d.state = (if d.decision = some .refer then .referred else if s.reads c.lane .barrierDown then .releasing else .decided) ∧
  (prov = true →
    let bad : Bool := State.damageFails v
    d.decision = some (if bad then .inspect else .admitted) ∧ d.reasons = { bookingUnavailable := true, damage := bad } ∧
    Routed s t id (some (if bad then s.dest.defaults[4] else s.params.provisionalDest)) ∧ Reserved s t id none ∧
    UnitsTaken s t id true) ∧
  (prov = false → first = .turnOut →
    d.decision = some .turnOut ∧ d.reasons = r ∧ Routed s t id trouble ∧ Reserved s t id none ∧ UnitsTaken s t id false ∧
    (trouble = none → d.destination = some s.dest.defaults[5])) ∧
  (prov = false → first = .refer →
    d.decision = some .refer ∧ d.reasons = r ∧ d.destination = c.destination ∧ Routed s t id none ∧
    Reserved s t id offer ∧ UnitsTaken s t id true) ∧
  (prov = false → first = .admitted ∨ first = .inspect →
    (∀ x, s.findDest v first = some x →
      d.decision = some first ∧ d.reasons = r ∧ Routed s t id (some x) ∧ Reserved s t id offer ∧
      UnitsTaken s t id true) ∧
    (s.findDest v first = none →
      d.decision = some .refer ∧ d.reasons = { r with noDestination := true } ∧ d.destination = c.destination ∧
      Routed s t id none ∧ Reserved s t id offer ∧ UnitsTaken s t id true)) ∧
  t.check.counters = { countSeal (countSeal s.check.counters v.sealChecks.fwd) v.sealChecks.aft with
    clamps := bumpBy s.check.counters.clamps (clampsOf s c .fwd + clampsOf s c .aft)
    inspections := bumpBy s.check.counters.inspections
      ((if (damageOf s c prov .fwd).result = .inspect then 1 else 0) +
        if (damageOf s c prov .aft).result = .inspect then 1 else 0) } ∧
  (d.decision = some .admitted ∨ d.decision = some .inspect → Ticketed s t id) ∧
  t.lanes = s.lanes ∧ t.check.weights = s.check.weights ∧ t.dest.defaults = s.dest.defaults ∧ t.params = s.params ∧
  ∀ j, j ≠ id → t.ctx j = { s.ctx j with inTransit := (t.ctx j).inTransit }

/-- R53: the test of a context whose links changed: with no PENDING link it makes its decision step, from the state `v`; else
it stays in LOOKUP, and nothing but the pages sent differs from `v`. -/
abbrev Concludes (v t : State) (id : CtxId) : Prop :=
  ((∀ l ∈ (v.ctx id).links, l.state ≠ .pending) → Decides v t id) ∧
  ((∃ l ∈ (v.ctx id).links, l.state = .pending) →
    t = { v with ports := t.ports, stations := t.stations } ∧ PagesOnly v.port v.station (fun j => ∃ l, SignOf v l j) t)

/-- R46, R51 to R53: what becomes of an ARRIVING context of a lane that advances, if there is one: it becomes the front, in
IDENTIFYING, with its position minute and its identification timer; one that has completed its identification goes straight on to
LOOKUP, where its links are looked up in turn and it concludes (stated for no recall outstanding). -/
abbrev Advanced (s t : State) (l : LaneId) : Option CtxId → Prop
  | none => t = s
  | some j =>
      let d : Ctx := { s.ctx j with
        state := .identifying, position := some s.now, approachTimer := none, identTimer := some s.params.identWindow }
      let front : State := { s with lanes := upd s.lanes l fun x => { x with front := some j } }
      ((s.ctx j).identified = false →
        t = { front with ports := t.ports, stations := t.stations, pool := s.pool.set j d } ∧
        PagesOnly s.port s.station (SignOf s l) t) ∧
      ((s.ctx j).identified = true → s.cache.recalls = [] → (∀ k ∈ d.formLinks, 4 ≤ k.key.length) →
        ∃ v, LookedUpInTurn ((List.range d.formLinks.length).map fun n => ⟨j, n⟩)
          { front with pool := s.pool.set j { d with identTimer := none, links := d.formLinks, state := .lookup } } v ∧
          Concludes v t j)

/-- R61: what becomes of a context in CLOSING that offers its visit report: without room it waits in the class A wait order; with
room the report is queued, and the context is freed and granted (`Granted`), with the LANE_EVENT of a lane that it was the last to
leave (`drained`). -/
abbrev Reported (s t : State) (id : CtxId) : Prop :=
  (64 ≤ s.uplink.queue.length ∨ s.uplink.waiters ≠ [] → t = { s with uplink := waiting s.uplink (.visitReport id) }) ∧
  (s.uplink.queue.length < 64 → s.uplink.waiters = [] →
    t = { s with
      ports := t.ports, stations := t.stations, lanes := t.lanes, pool := t.pool, visitCounter := t.visitCounter
      lastServed := t.lastServed
      uplink := drained s id { s.uplink with
        queue := s.uplink.queue ++ [⟨.visitReport (s.ctx id).report, none⟩] } } ∧
    PagesOnly s.port s.station (fun j => ∃ l, SignOf s l j) t ∧ Granted s t id)

/-- R51 to R53: what a context makes of a completed identification, `c` the context as the frame leaves it: it is in LOOKUP
with the links its values form, or already past its decision step, which finalises its fields. The links are looked up in turn
from the state `v0` that the frame leaves, and the context concludes as `Concludes` says (stated for no recall
outstanding); the hearing of the frame follows (R173). -/
abbrev EntersLookup (s t : State) (seg : Seg) (f : RxFrame) (id : CtxId) (c : Ctx) : Prop :=
  t.params = s.params ∧ t.lanes = s.lanes ∧ t.visitCounter = s.visitCounter ∧ t.lastServed = s.lastServed ∧
  (t.ctx id).state ∈ [.lookup, .referred, .decided, .releasing] ∧ (t.ctx id).identTimer = none ∧
  (t.ctx id).links.map (·.key) = c.formLinks.map (·.key) ∧
  (let d := if (t.ctx id).state = .lookup then c else c.finalise s.params
   (t.ctx id).plate = d.plate ∧ (t.ctx id).tag = d.tag ∧ (t.ctx id).unitFwd = d.unitFwd ∧
   (t.ctx id).unitAft = d.unitAft ∧ (t.ctx id).sealFwd = d.sealFwd ∧ (t.ctx id).sealAft = d.sealAft) ∧
  (s.cache.recalls = [] → (∀ k ∈ c.formLinks, 4 ≤ k.key.length) →
    let ix := stationIx seg f.src
    let v0 : State := { s with
      ports := s.ports.set seg (takenPort s seg f), stations := s.stations.set ix (heardEntry s seg f)
      uplink := forwardedUplink s seg f
      pool := s.pool.set id { c with identTimer := none, links := c.formLinks, state := .lookup } }
    ∃ v w, LookedUpInTurn ((List.range c.formLinks.length).map fun n => ⟨id, n⟩) v0 v ∧ Concludes v w id ∧
      t = { w with ports := t.ports, stations := t.stations } ∧
      (∀ g, g ≠ seg → t.port g = w.port g) ∧ (∀ j, j ≠ ix → t.station j = w.station j) ∧
      (t.port seg, t.station ix) = hearing s.params.signAck f.src (w.port seg, w.station ix))

/-! ### Invariants -/

/-- R2, R7, R180: no queue of the links or of the uplink passes its places. -/
abbrev QueuesBounded (s : State) : Prop :=
  (∀ seg : Seg, (s.port seg).rxQueue.length ≤ 16 ∧ (s.port seg).txQueue.length ≤ 32) ∧ s.uplink.queue.length ≤ 64

/-- R23: an input whose enable is off reads INACTIVE and has a stopped filter timer. -/
abbrev DisabledInputsQuiet (s : State) : Prop :=
  ∀ (l : LaneId) (i : Fin 4), (s.lane l).inputs[i].enabled = false →
    (s.lane l).inputs[i].level = false ∧ (s.lane l).inputs[i].timer = none

/-- R34, R35, R40, R41: a lane has a holding console exactly in MANUAL, holds at most two contexts, and counts at most 3
pending arrivals. -/
abbrev LanesInOrder (s : State) : Prop :=
  ∀ l : LaneId, ((s.lane l).holder.isSome ↔ (s.lane l).mode = .manual) ∧ (s.lane l).ctxs.length ≤ 2 ∧
    (s.lane l).pendingArrivals ≤ 3

/-- R153, R158: a visit has at most one transit entry, and each destination's in-transit count is the number of entries
that name it. -/
abbrev TransitCounted (s : State) : Prop :=
  (s.dest.transit.map (·.visit)).Nodup ∧ s.dest.transit.length ≤ 256 ∧
  ∀ d : Fin 64, (s.destAt d).inTransit = (s.dest.transit.filter (·.dest == d)).length

end Sys2Proof.Safety
end

