-- ==== Sys2Proof/Certificates/Slice0/Obligations.lean ====
section
/-! DEFINITION. The statements for the provers: what each command does to the part, by the rules of spec/, and the
invariants that every step keeps. -/

section Statements

open Sys2Proof Sys2Proof.Machine Sys2Proof.Safety

/-! ### The queue of commands -/

/-- One step with a command at the front of the queue is that command on the rest of the queue. -/
def Obligations.StepTakesTheFrontCommand : Prop :=
  ∀ (c : Instr) (rest : List Instr) (s : State), s.pending = c :: rest → step s = exec c { s with pending := rest }

/-- No command stops the part: every command in every state answers a next state, and it leaves the queue of the commands
that wait as it is. -/
def Obligations.EveryCommandAnswersANextState : Prop :=
  ∀ (c : Instr) (s : State), ∃ t, exec c s = .next t ∧ t.pending = s.pending

/-- R29 to R31, R38: what each output of a lane drives. While the reset input is held every output is OFF; a REMOTE
output drives its remote value; in MANUAL an AUTO output drives its console value; outside MANUAL the AUTO BARRIER and GO
are ON exactly while the front context is in RELEASING, and the AUTO STOP exactly while it is not. -/
def Obligations.OutputsDriveTheirSource : Prop :=
  ∀ (s : State) (l : LaneId) (o : Output),
    let x := (s.lane l).output o
    let releasing : Prop := ∃ id, (s.lane l).front = some id ∧ (s.ctx id).state = .releasing
    (s.resetHeld = true → s.driven l o = false) ∧
    (s.resetHeld = false →
      (x.remote = true → s.driven l o = x.remoteValue) ∧
      (x.remote = false → (s.lane l).mode = .manual → s.driven l o = x.consoleValue) ∧
      (x.remote = false → (s.lane l).mode ≠ .manual →
        (s.driven l o = true ↔ (match o with | .barrier | .go => releasing | .stop => ¬ releasing))))

/-- The values that R21, R22, R38, R64, R114, R115, R130, R148, R166, R177, R186 and R188 give at power-on, on the state
after reset. The signals, the node number and the link of that state are the model's choice (log entry 1): no clause fixes them,
and the segments and the PART_HELLO stand as they say. By the model's choice of log entry 39 the SEGMENT_EVENTs of the report
queue are in the order A, B, C, D. -/
def Obligations.ResetLeavesTheStatedValues : Prop :=
  let s := State.reset
  (∀ seg : Seg, (s.port seg).rxQueue = [] ∧ (s.port seg).txQueue = [] ∧ (s.port seg).counters = {} ∧
    (s.port seg).windowCount = 0 ∧ (s.port seg).windowTimer = (s.port seg).signal ∧
    (s.port seg).state = (if (s.port seg).signal then .up else .down) ∧
    ∀ a : Addr, (s.port seg).seqRecord[a] = none ∧ (s.port seg).txSeq[a] = 0) ∧
  (∀ ix : StationIx, (s.station ix).state = .empty ∧ (s.station ix).identity = none ∧
    (s.station ix).mismatched = false ∧ (s.station ix).mismatchCount = 0 ∧ (s.station ix).silent = true ∧
    (s.station ix).silenceTimer = none ∧ (s.station ix).lane = 0 ∧ (s.station ix).role = .plate ∧
    (s.station ix).zone = .approach ∧ (s.station ix).weight = 0 ∧ (s.station ix).forward = false ∧
    (s.station ix).channel = none ∧ (s.station ix).tickets = []) ∧
  (∀ l : LaneId, (s.lane l).mode = .closed ∧ (s.lane l).holder = none ∧ (s.lane l).exitOnEdge = false ∧
    (s.lane l).barrier = {} ∧ (s.lane l).go = {} ∧ (s.lane l).stop = {} ∧ (s.lane l).counters = {} ∧
    (s.lane l).ctxs = [] ∧ (s.lane l).front = none ∧ (s.lane l).pendingArrivals = 0 ∧
    ∀ i : Fin 4, (s.lane l).inputs[i].enabled = false ∧ (s.lane l).inputs[i].activeLow = false ∧
      (s.lane l).inputs[i].filter = 0 ∧ (s.lane l).inputs[i].level = false ∧ (s.lane l).inputs[i].timer = none) ∧
  (∀ id : CtxId, (s.ctx id).state = .free ∧ (s.ctx id).approachTimer = none ∧ (s.ctx id).identTimer = none ∧
    (s.ctx id).rulingTimer = none ∧ (s.ctx id).noticePending = false) ∧ s.visitCounter = 1 ∧ s.lastServed = 15 ∧
  (∀ i : Fin 1024, s.cache.sets[i].age = 0 ∧ s.cache.sets[i].way0 = {} ∧ s.cache.sets[i].way1 = {}) ∧
  (∀ i : Fin 16, s.cache.slots[i] = none) ∧ (∀ p : Fin 48, s.cache.copies[p] = none) ∧ s.cache.waitList = [] ∧
  s.cache.recalls = [] ∧ s.cache.sendOrder = [] ∧ (∀ i : Fin 2, s.cache.uncached[i] = none) ∧
  s.cache.counters = {} ∧ s.slot.clock = none ∧ s.slot.counters = {} ∧
  (∀ i : DayIx, (s.dayTable i).day = none ∧ ∀ w : Fin 96, (s.dayTable i).windows[w] =
    { isOpen := false, capacity := 0, overbook := 0, openShare := 0, admitted := 0, reserved := 0, overrides := 0 }) ∧
  s.check.weights = #v[2, 6, 3, 2, 1] ∧
  s.check.counters = {} ∧
  (∀ d : Fin 64, (s.destAt d).kind = .yard ∧ (s.destAt d).isOpen = false ∧ (s.destAt d).capacity = 0 ∧
    (s.destAt d).inTransit = 0 ∧ (s.destAt d).alternate = none ∧ (s.destAt d).phrase = 0 ∧
    (s.destAt d).acceptsExportFull = false ∧ (s.destAt d).acceptsEmptyReturn = false ∧
    (s.destAt d).acceptsImportFull = false ∧ (s.destAt d).acceptsEmptyPickup = false) ∧
  (∀ i : Fin 6, s.dest.defaults[i] = 0) ∧ s.dest.transit = [] ∧ s.dest.counters = {} ∧
  (∀ n : Fin 256, s.signs.phrases[n] = Vector.replicate 20 0x20) ∧ s.signs.counters = {} ∧
  s.uplink.serverPresent = false ∧ s.uplink.heartbeatTimer = none ∧ s.uplink.server = none ∧ s.uplink.nextTag = 0 ∧
  s.uplink.counters = {} ∧ s.uplink.owed = [] ∧ s.uplink.waiters = [] ∧
  s.uplink.queue = ⟨.partHello s.uplink.node .powerOn none .through false, none⟩ ::
    (List.finRange 4).map (fun seg => ⟨.segmentEvent seg none (s.port seg).state 0, none⟩) ∧
  s.params = {
    identWindow := 60, approachLimit := 180, fetchTimeout := 150, rulingDeadline := 90, signAck := 40, ticketAck := 100
    silenceLimit := 10, heartbeat := 5, transitTimeout := 45, writePolicy := .through, adaptiveThreshold := 16
    offlineProvisional := false, provisionalDest := 0, passUnmapped := false, transparency := 0x7E
    earlyTolerance := 30, lateTolerance := 30, recordThreshold := 8, inspectThreshold := 40
    segThreshold := #v[0, 0, 0, 0], plateT := 150, plateM := 60, tagT := 100, tagM := 40, unitT := 180, unitM := 60
    sealT := 120, sealM := 50 } ∧ s.resetHeld = false ∧ s.pending = []

/-! ### Lane links (chapter 1) -/

/-- R1, R2: a frame received in full on a segment that has signal is counted by the first part of the FRAME CHECK that
fails, or appended to the receive queue, or counted as an overrun at 16 frames; CRC errors and overruns enter the error
window (ErrorWindowMovesTheSegment says what that does). Nothing else changes. -/
def Obligations.ReceivedFrameIsCountedOrQueued : Prop :=
  ∀ (seg : Seg) (bytes : List Byte) (s : State), s.resetHeld = false → (s.port seg).state ≠ .down →
    exec (.laneFrameReceived seg bytes) s = .next
      (match frameCheck bytes with
      | .crcError =>
          (s.updPort seg fun p => { p with counters := { p.counters with crcErrors := bump p.counters.crcErrors } }).windowRise
            seg
      | .foreign =>
          s.updPort seg fun p => { p with counters := { p.counters with foreignFrames := bump p.counters.foreignFrames } }
      | .formatError =>
          s.updPort seg fun p => { p with counters := { p.counters with formatErrors := bump p.counters.formatErrors } }
      | .passed f =>
          if (s.port seg).rxQueue.length < 16 then s.updPort seg fun p => { p with rxQueue := p.rxQueue ++ [f] }
          else
            (s.updPort seg fun p => { p with counters := { p.counters with overruns := bump p.counters.overruns } }).windowRise
              seg)

/-- R1, R189: the FRAME CHECK of a frame by its parts, in their order: a wrong CRC, a payload length other than the field,
another destination, a bad source or form, and a frame that passes with its source, sequence and content. The form of each
kind, with its payload lengths, its character fields, its enumerated fields, and the bytes of a SCAN_END that are not tested, is
that of `Carries`; a payload that carries no message by it is a format error. By the model's choice of log entry 54 a SIGN_ACK and
a TICKET_ACK keep the whole byte of the sequence acknowledged. -/
def Obligations.FrameCheckTakesThePartsInOrder : Prop :=
  ∀ (dst src kind sq len : Byte) (payload tail : List Byte), tail.length = 2 →
    let body := dst :: src :: kind :: sq :: len :: payload
    let right : Prop := tail = bytesOf16 (crc16 body)
    (¬ right → frameCheck (body ++ tail) = .crcError) ∧
    (right → payload.length ≠ len.toNat → frameCheck (body ++ tail) = .crcError) ∧
    (right → payload.length = len.toNat → dst.toNat ≠ 0 → frameCheck (body ++ tail) = .foreign) ∧
    (right → payload.length = len.toNat → dst.toNat = 0 →
      (src.toNat = 0 ∨ 31 < src.toNat ∨ laneMsgOf kind payload = none → frameCheck (body ++ tail) = .formatError) ∧
      ∀ (m : LaneMsg) (h : 1 ≤ src.toNat ∧ src.toNat ≤ 31), laneMsgOf kind payload = some m →
        frameCheck (body ++ tail) = .passed ⟨⟨src.toNat - 1, by omega⟩, sq.setWidth 4, m, body⟩) ∧
    ∀ m : LaneMsg, laneMsgOf kind payload = some m ↔ Carries kind payload m

/-- R6: a rise of the window count moves a segment in UP to IMPAIRED above a threshold other than 0, at once; at an expiry
of the error window an IMPAIRED segment returns to UP at or below the threshold, or under a threshold of 0, and the count
is cleared in every case. A rise or an expiry changes nothing else, but for the one SEGMENT_EVENT of a change of state. A loss
of signal takes an IMPAIRED segment to DOWN. Under a threshold of 0 a frame that fails its CRC, or that finds a full receive
queue, is counted in the window count and in its own counter, and moves no state. -/
def Obligations.ErrorWindowMovesTheSegment : Prop :=
  ∀ (seg : Seg) (s : State),
    let p := s.port seg
    let t := s.params.segThreshold[seg]
    let n := bump p.windowCount
    s.windowRise seg =
      (if p.state = .up ∧ t ≠ 0 ∧ t < n.toNat then
        { s with
          ports := upd s.ports seg fun p => { p with windowCount := n, state := .impaired }
          uplink := classB s.uplink (.segmentEvent seg (some .up) .impaired n) }
      else { s with ports := upd s.ports seg fun p => { p with windowCount := n } }) ∧
    (s.resetHeld = false → p.windowTimer = true →
      exec (.errorWindowExpiry seg) s = .next
        (if p.state = .impaired ∧ (p.windowCount.toNat ≤ t ∨ t = 0) then
          { s with
            ports := upd s.ports seg fun p => { p with windowCount := 0, state := .up }
            uplink := classB s.uplink (.segmentEvent seg (some .impaired) .up p.windowCount) }
        else { s with ports := upd s.ports seg fun p => { p with windowCount := 0 } })) ∧
    (s.resetHeld = false → p.state = .impaired →
      ∃ u, exec (.signalLoss seg) s = .next u ∧ (u.port seg).state = .down) ∧
    ∀ bytes : List Byte, s.resetHeld = false → p.state ≠ .down → t = 0 →
      let counted (c : SegCounters) : State := { s with
        ports := upd s.ports seg fun p => { p with windowCount := n, counters := c } }
      (frameCheck bytes = .crcError →
        exec (.laneFrameReceived seg bytes) s = .next
          (counted { p.counters with crcErrors := bump p.counters.crcErrors })) ∧
      ∀ f : RxFrame, frameCheck bytes = .passed f → 16 ≤ p.rxQueue.length →
        exec (.laneFrameReceived seg bytes) s = .next
          (counted { p.counters with overruns := bump p.counters.overruns })

/-- R2, R3: the frame at the head of a receive queue is taken by the command of its kind and leaves the queue. A frame
whose sequence equals the record is a duplicate, counted, and changes no block but the ports, the stations and the uplink;
a STATION_HELLO is exempt. R19, R173: a duplicate is heard as any frame is, and no more changes in the ports and the stations.
Any other frame sets the record, and a gap is counted. -/
def Obligations.SequenceCheckDecidesEachFrame : Prop :=
  ∀ (k : LaneKind) (seg : Seg) (s : State) (f : RxFrame) (rest : List RxFrame),
    AtHead s seg f rest → f.msg.kind = k →
    let p := s.port seg
    let r := p.seqRecord[f.src]
    ∃ t, exec (frameCommand k seg) s = .next t ∧ (t.port seg).rxQueue = rest ∧
      (r = some f.seq → k ≠ .hello →
        (t.port seg).seqRecord = p.seqRecord ∧ (t.port seg).counters.duplicates = bump p.counters.duplicates ∧
        (t.port seg).counters.sequenceErrors = p.counters.sequenceErrors ∧
        (∀ g, g ≠ seg → t.port g = s.port g) ∧ (∀ j, j ≠ stationIx seg f.src → t.station j = s.station j) ∧
        (t.port seg, t.station (stationIx seg f.src)) = hearing s.params.signAck f.src
          ({ p with rxQueue := rest, counters := { p.counters with duplicates := bump p.counters.duplicates } },
            heardEntry s seg f) ∧
        t = { s with
          ports := t.ports, stations := t.stations
          uplink := if (sender s seg f).state = .empty then s.uplink else heardUplink s seg f }) ∧
      (r ≠ some f.seq ∨ k = .hello →
        (t.port seg).seqRecord = p.seqRecord.set f.src (some f.seq) ∧
        (t.port seg).counters.duplicates = p.counters.duplicates ∧
        (t.port seg).counters.sequenceErrors =
          if r = none ∨ r = some f.seq ∨ r = some (f.seq - 1) then p.counters.sequenceErrors
          else bump p.counters.sequenceErrors)

/-- R16 to R19: a STATION_HELLO and a STATION_STATUS from a mapped station. In LEARN the HELLO's identity is taken and an
IDENTITY_LEARNED reported where it is new; in FROZEN the frozen identity restores a MISMATCHED entry, and another one is
refused, counted and, at the first, reported. A STATION_STATUS is heard and no more. Each frame makes the station ACTIVE, with
its silence timer from the full limit, on a segment not DOWN (`heardEntry`), its port takes it (`takenPort`), and a SIGN whose
channel waits for a hearing is sent its pending page (R173, `hearing`). No other entry and no other port changes, and no other
block but the uplink (`LinkOnly`). By log entry 26 a station of a DOWN segment stays SILENT. By the model's choice of log entry
9 the reports of one frame go STATION_ACTIVE, PASS_FRAME, identity event, and by that of log entry 34 only IDENTITY_LEARNED and
IDENTITY_MISMATCH carry identities. -/
def Obligations.HelloAndStatusAreHeard : Prop :=
  ∀ (seg : Seg) (s : State) (f : RxFrame) (rest : List RxFrame), AtHead s seg f rest →
    let ix := stationIx seg f.src
    let e := sender s seg f
    let u := forwardedUplink s seg f
    e.state ≠ .empty →
    (∀ i : BitVec 32, f.msg = .hello i →
      ∃ t, exec (.stationHello seg) s = .next t ∧
        t = { s with ports := t.ports, stations := t.stations, uplink := t.uplink } ∧
        (e.state = .learn →
          LinkOnly s t seg f (fun x => (x.1, { x.2 with identity := some i })) ∧
          t.uplink = if e.identity = some i then u else classB u (.stationEvent ix .identityLearned (some i) none)) ∧
        (e.state = .frozen → e.identity = some i →
          LinkOnly s t seg f (fun x => (x.1, { x.2 with mismatched := false })) ∧
          t.uplink = if e.mismatched then classB u (.stationEvent ix .identityRestored none none) else u) ∧
        (e.state = .frozen → e.identity ≠ some i →
          LinkOnly s t seg f (fun x => (x.1, { x.2 with mismatched := true, mismatchCount := bump x.2.mismatchCount })) ∧
          t.uplink =
            if e.mismatched then heardUplink s seg f
            else classB (heardUplink s seg f) (.stationEvent ix .identityMismatch e.identity (some i)))) ∧
    (f.msg = .status → Consumed s seg f rest →
      ∃ t, exec (.stationStatus seg) s = .next t ∧ LinkOnly s t seg f ∧
        t = { s with ports := t.ports, stations := t.stations, uplink := u })

/-- R4, R8, R20, R35: a loss of signal puts the segment in DOWN, stops its error window, discards its transmit queue and keeps
its receive queue, sequence records and transmit sequences; every mapped station of the segment becomes SILENT, and a console of
the segment that holds a lane loses its hold. R7, R174: the frames discarded are counted as transmit drops, and the sign channel
of each station that becomes SILENT is in FAULT, its page in flight kept as the pending page where none is held. No other lane,
entry or port changes, but for the pages of the lanes whose hold ends, shown on their signs (R171, `PagesOnly`); by the model's
choice of log entry 51 an entry that was SILENT already has its sign channel as it was, and its hold ended. R4, R7: signal
detected while DOWN puts the segment in UP with its error window started and the count at 0, and reports it; a frame leaves the
transmit queue when its sending ends; neither changes anything else. A loss is reported by the one SEGMENT_EVENT and by one
LANE_EVENT for each hold that ends (`holdsEnded`); no STATION_EVENT follows. By the model's choices the SEGMENT_EVENT is the
first report of a loss (log entry 27) and the LANE_EVENTs go in ascending address order (log entry 50). -/
def Obligations.SignalAndSendingMoveTheSegment : Prop :=
  (∀ (seg : Seg) (s : State), s.resetHeld = false → (s.port seg).state ≠ .down →
     ∃ t, exec (.signalLoss seg) s = .next t ∧
       t = { s with ports := t.ports, stations := t.stations, lanes := t.lanes, uplink := t.uplink } ∧
       (t.port seg).state = .down ∧ (t.port seg).signal = false ∧ (t.port seg).windowCount = 0 ∧
       (t.port seg).windowTimer = false ∧ (t.port seg).txQueue = [] ∧ (t.port seg).rxQueue = (s.port seg).rxQueue ∧
       (t.port seg).seqRecord = (s.port seg).seqRecord ∧ (t.port seg).txSeq = (s.port seg).txSeq ∧
       t.uplink = (List.finRange 31).foldl (fun u a => holdsEnded s (stationIx seg a) .consoleSilent u)
         (classB s.uplink (.segmentEvent seg (some (s.port seg).state) .down (s.port seg).windowCount)) ∧
       let held (l : LaneId) : Prop := (s.lane l).mode = .manual ∧ ∃ a : Addr, (s.lane l).holder = some (stationIx seg a)
       let lost : SegPort := { s.port seg with
         state := .down, signal := false, windowCount := 0, windowTimer := false, txQueue := []
         counters := { (s.port seg).counters with
           transmitDrops := bumpBy (s.port seg).counters.transmitDrops (s.port seg).txQueue.length } }
       let silenced (e : Station) : Station :=
         if e.state = .empty then e
         else { e with silent := true, silenceTimer := none, channel := if e.silent then e.channel else faulted e.channel }
       (∀ l : LaneId, t.lane l = if held l then { s.lane l with mode := .suspended, holder := none } else s.lane l) ∧
       PagesOnly (fun g => if g = seg then lost else s.port g)
         (fun j => if segOf j = seg then silenced (s.station j) else s.station j) (fun j => ∃ l, held l ∧ SignOf s l j) t) ∧
  ∀ (seg : Seg) (s : State), s.resetHeld = false →
    ((s.port seg).state = .down →
      exec (.signalDetect seg) s = .next
        { s with
          ports := upd s.ports seg fun p => { p with state := .up, signal := true, windowCount := 0, windowTimer := true }
          uplink := classB s.uplink (.segmentEvent seg (some .down) .up (s.port seg).windowCount) }) ∧
    ∀ (f : TxFrame) (rest : List TxFrame), (s.port seg).txQueue = f :: rest →
      exec (.transmitEnd seg) s = .next { s with ports := upd s.ports seg fun p => { p with txQueue := rest } }

/-- R19, R20, R35: at the expiry of its silence timer a station becomes SILENT with the timer stopped, and exactly the
lanes that it holds in MANUAL enter SUSPENDED. R174: its sign channel is in FAULT, its page in flight kept as the pending page
where none is held (`faulted`). No other entry and no port changes, but for the pages of the lanes whose hold ends, shown on
their signs (R171, `PagesOnly`). R19, R35: one STATION_EVENT of cause STATION_SILENT is reported, and one LANE_EVENT of cause
CONSOLE_SILENT for each hold that ends (`holdsEnded`). No rule orders these reports: by the model's choices the STATION_EVENT is
queued before the sign channel and the lanes act, so ahead of the LANE_EVENTs (log entry 9), and the lanes go in ascending order
(log entry 50). -/
def Obligations.SilenceExpiryEndsTheHold : Prop :=
  ∀ (seg : Seg) (addr : Addr) (s : State), s.resetHeld = false →
    let ix := stationIx seg addr
    (s.station ix).silenceTimer.isSome = true →
    ∃ t, exec (.stationSilenceExpiry seg addr) s = .next t ∧
      t = { s with ports := t.ports, stations := t.stations, lanes := t.lanes, uplink := t.uplink } ∧
      let held (l : LaneId) : Prop := (s.lane l).mode = .manual ∧ (s.lane l).holder = some ix
      PagesOnly s.port
        (fun j => if j = ix then
            { s.station j with silent := true, silenceTimer := none, channel := faulted (s.station j).channel }
          else s.station j)
        (fun j => ∃ l, held l ∧ SignOf s l j) t ∧
      t.uplink = holdsEnded s ix .consoleSilent (classB s.uplink (.stationEvent ix .stationSilent none none)) ∧
      ∀ l : LaneId, t.lane l = if held l then { s.lane l with mode := .suspended, holder := none } else s.lane l

/-! ### Frames consumed by the lanes (chapters 2 to 4, 7, 9) -/

/-- R48, R66 to R70, R77: a consumed READ_PLATE, READ_TAG, READ_UNIT or READ_SEAL that attaches to a context is scored into its
field there and changes no other context; where it completes the identification (R51, R52) the context goes into LOOKUP with the
links its values form, looks them up in turn and concludes (`EntersLookup`). Scoring takes the read into its field and, unless
it is discarded, ranks the field with the threshold and margin of its kind (R75, R83); a field that becomes CONTESTED from the
decision step onward sets CONTESTED_LATE (R50). A unit code that fails its form is counted at the lane of its context and scores
nothing: the form is four letters and seven digits, and the check digit is the sum of the ten values times their weights modulo
10. By the model's choices a STATION_ACTIVE goes to the report queue before the PASS_FRAME (log entry 9, `forwardedUplink`), and
the lookups are those of `LookedUp` (log entries 7, 10 and 41). -/
def Obligations.IdentityReadIsScored : Prop :=
  ∀ (seg : Seg) (s : State) (f : RxFrame) (rest : List RxFrame) (id : CtxId), Consumed s seg f rest →
    let e := sender s seg f
    s.attach e.lane e.zone = some id →
    (∀ (n : FieldName) (v : Text) (w : Nat) (z : Option Text), scoring (weightOf s seg f) f.msg = some (n, v, w, z) →
      let c := (s.ctx id).scoreRead s.params n v w z
      Waits c →
      ∃ t, exec (frameCommand f.msg.kind seg) s = .next t ∧ LinkOnly s t seg f ∧
        t = { s with
          ports := t.ports, stations := t.stations, pool := upd s.pool id fun _ => c
          uplink := forwardedUplink s seg f }) ∧
    (∀ (n : FieldName) (v : Text) (w : Nat) (z : Option Text), scoring (weightOf s seg f) f.msg = some (n, v, w, z) →
      let c := (s.ctx id).scoreRead s.params n v w z
      ¬ Waits c →
      ∃ t, exec (frameCommand f.msg.kind seg) s = .next t ∧ EntersLookup s t seg f id c) ∧
    (∀ code : Text, unitFormOk code = true ↔
      code.length = 11 ∧ (∀ b ∈ code.take 4, Letter b) ∧ ∀ b ∈ code.drop 4, Digit b) ∧
    (∀ c1 c2 c3 c4 c5 c6 c7 c8 c9 c10 c11 : Byte,
      let code : Text := [c1, c2, c3, c4, c5, c6, c7, c8, c9, c10, c11]
      let S : Nat := faceValue c1 + 3 * faceValue c2 + 7 * faceValue c3 + 9 * faceValue c4 + faceValue c5 +
        3 * faceValue c6 + 7 * faceValue c7 + 9 * faceValue c8 + faceValue c9 + 3 * faceValue c10
      unitFormOk code = true → (checkValid code = true ↔ faceValue c11 = S % 10)) ∧
    (∀ (p : Params) (c : Ctx) (n : FieldName) (v : Text) (w : Nat) (z : Option Text),
      let tm : Nat × Nat :=
        match n with
        | .plate => (p.plateT, p.plateM)
        | .tag => (p.tagT, p.tagM)
        | .unitFwd | .unitAft => (p.unitT, p.unitM)
        | .sealFwd | .sealAft => (p.sealT, p.sealM)
      let r := (c.field n).takeRead v w z
      let g := if r.2 = true then r.1.ranked tm.1 tm.2 else r.1
      let d := c.scoreRead p n v w z
      d.field n = g ∧ (∀ k, k ≠ n → d.field k = c.field k) ∧
      d = { c with
        plate := d.plate, tag := d.tag, unitFwd := d.unitFwd, unitAft := d.unitAft, sealFwd := d.sealFwd
        sealAft := d.sealAft, flags := { c.flags with contestedLate := d.flags.contestedLate } } ∧
      (d.flags.contestedLate = true ↔ c.flags.contestedLate = true ∨
        (c.state.beforeDecision = false ∧ (c.field n).state ≠ .contested ∧ g.state = .contested))) ∧
    (∀ (pos : Position) (k : Nat) (code size : Text), f.msg = .readUnit pos k code size → unitFormOk code = false →
      Waits (s.ctx id) →
      ∃ t, exec (.readUnit seg) s = .next t ∧ LinkOnly s t seg f ∧
        t = { s with
          ports := t.ports, stations := t.stations
          lanes := upd s.lanes (s.ctx id).lane fun x =>
            { x with counters := { x.counters with unitFormErrors := bump x.counters.unitFormErrors } }
          uplink := forwardedUplink s seg f })

/-- R48, R49: a consumed reading frame attaches to the newest context of its lane while that is in ARRIVING or
IDENTIFYING, from a station at the APPROACH, or to the front context while that is in IDENTIFYING, LOOKUP, REFERRED or
DECIDED, from one at the POSITION; a frame that attaches to none is an orphan: counted at its lane and, for a station with
the forward flag, reported upstream. Nothing else changes. By the model's choices the ORPHAN_READ goes after the PASS_FRAME
and a STATION_ACTIVE before both (log entry 9), and the value of a frame without one is empty (log entry 25). -/
def Obligations.OrphanReadsAreCounted : Prop :=
  (∀ (s : State) (l : LaneId) (id : CtxId),
     (s.attach l .approach = some id ↔
       (s.lane l).ctxs.getLast? = some id ∧ ((s.ctx id).state = .arriving ∨ (s.ctx id).state = .identifying)) ∧
     (s.attach l .position = some id ↔
       (s.lane l).front = some id ∧ (s.ctx id).state ∈ [.identifying, .lookup, .referred, .decided])) ∧
  ∀ (seg : Seg) (s : State) (f : RxFrame) (rest : List RxFrame), Consumed s seg f rest → f.msg.kind.isReading = true →
    let e := sender s seg f
    s.attach e.lane e.zone = none →
    ∃ t, exec (frameCommand f.msg.kind seg) s = .next t ∧ LinkOnly s t seg f ∧
      t = { s with
        ports := t.ports, stations := t.stations
        lanes := upd s.lanes e.lane fun x =>
          { x with counters := { x.counters with orphanReads := bump x.counters.orphanReads } }
        uplink :=
          if e.forward then
            classB (forwardedUplink s seg f)
              (.orphanRead seg f.src e.lane f.msg.kind f.msg.value (s.frontState e.lane))
          else forwardedUplink s seg f }

/-- R71 to R73: a read whose value a candidate has joins it, its score held at 1023 and its read count at 255; in a field
of fewer than four candidates it makes a new one at the end; in a full field it takes the place of the candidate of lowest
score, of those not latched the one added earliest, where it is strictly greater, and is discarded and counted where it is
not. R74 to R76, R80: after a ranking an OPEN field settles on its best candidate where the best reaches the threshold and
leads the second by the margin; a SETTLED or WEAK field is CONTESTED where another candidate passes the latched one, which it
keeps; any other field stays as it is. -/
def Obligations.ReadsScoreAndSettleTheirField : Prop :=
  (∀ (f : ConsField) (value : Text) (k : Nat) (size : Option Text),
     (∀ (before after : List Candidate) (c : Candidate), f.candidates = before ++ c :: after → c.value = value →
       (∀ d ∈ before ++ after, d.value ≠ value) →
       f.takeRead value k size =
         ({ f with candidates := before ++
           { c with score := min (c.score + k) 1023, reads := min (c.reads + 1) 255 } :: after }, true)) ∧
     ((∀ d ∈ f.candidates, d.value ≠ value) → f.candidates.length < 4 →
       f.takeRead value k size = ({ f with candidates := f.candidates ++ [⟨value, k, 1, size⟩] }, true)) ∧
     ∀ (before after : List Candidate) (c : Candidate), f.candidates = before ++ c :: after →
       (∀ d ∈ f.candidates, d.value ≠ value) → 4 ≤ f.candidates.length → f.latched ≠ some c.value →
       (∀ d ∈ before, f.latched ≠ some d.value → c.score < d.score) →
       (∀ d ∈ after, f.latched ≠ some d.value → c.score ≤ d.score) →
       (∀ d ∈ before ++ after, d.value ≠ c.value) →
       f.takeRead value k size =
         if c.score < k then ({ f with candidates := before ++ after ++ [⟨value, k, 1, size⟩] }, true)
         else ({ f with discards := min (f.discards + 1) 255 }, false)) ∧
  ∀ (t m : Nat) (f : ConsField),
    (f.state = .open → ∀ (before after : List Candidate) (b : Candidate), f.candidates = before ++ b :: after →
      (∀ d ∈ before, d.score < b.score) → (∀ d ∈ after, d.score ≤ b.score) →
      (∀ d ∈ before ++ after, d.value ≠ b.value) →
      f.ranked t m =
        if t ≤ b.score ∧ m ≤ b.score ∧ ∀ d ∈ before ++ after, d.score + m ≤ b.score then
          { f with state := .settled, latched := some b.value }
        else f) ∧
    (f.state = .settled ∨ f.state = .weak → ∀ (before after : List Candidate) (b : Candidate),
      f.candidates = before ++ b :: after → f.latched = some b.value → (∀ d ∈ before ++ after, d.value ≠ b.value) →
      f.ranked t m = if ∃ d ∈ before ++ after, b.score < d.score then { f with state := .contested } else f) ∧
    (f.state = .unresolved ∨ f.state = .absent ∨ f.state = .contested → f.ranked t m = f)

/-- R13, R14: what the station map refuses. A kind that does not match the role is counted as a role refusal; a reading frame of
a lane in MANUAL is queued upstream, forward flag or not, and not consumed. R12: a frame of an unmapped station is queued
upstream where unmapped frames are passed, and else counted as dropped. R18: a frame other than a HELLO of a MISMATCHED station
is refused and counted at its entry. The kinds accepted for each role are those of the table of R13. None of these reaches any
other block, port or entry (`LinkOnly`). By the model's choice of log entry 9 a STATION_ACTIVE goes before the PASS_FRAME. -/
def Obligations.RefusedFramesReachNoBlock : Prop :=
  (∀ (r : Role) (k : LaneKind), r.accepts k = true ↔ k = .hello ∨ k = .status ∨
    (match r with
    | .plate => k = .readPlate
    | .tag => k = .readTag
    | .unit => k = .readUnit
    | .seal => k = .readSeal
    | .damage => k = .damageMarks ∨ k = .scanEnd
    | .kiosk => k = .kioskEntry
    | .sign => k = .signAck
    | .printer => k = .ticketAck
    | .console => k = .consoleTake ∨ k = .consoleRelease ∨ k = .consoleOutput)) ∧
  ∀ (seg : Seg) (s : State) (f : RxFrame) (rest : List RxFrame), AtHead s seg f rest →
    let e := sender s seg f
    let fresh : Prop := (s.port seg).seqRecord[f.src] ≠ some f.seq
    (fresh → e.state ≠ .empty → e.mismatched = false → f.msg.kind ≠ .hello →
      (e.role.accepts f.msg.kind = false →
        ∃ t, exec (frameCommand f.msg.kind seg) s = .next t ∧
          LinkOnly s t seg f (fun x =>
            ({ x.1 with counters := { x.1.counters with roleRefusals := bump x.1.counters.roleRefusals } }, x.2)) ∧
          t = { s with ports := t.ports, stations := t.stations, uplink := forwardedUplink s seg f }) ∧
      (e.role.accepts f.msg.kind = true → f.msg.kind.isReading = true → (s.lane e.lane).mode = .manual →
        ∃ t, exec (frameCommand f.msg.kind seg) s = .next t ∧ LinkOnly s t seg f ∧
          t = { s with
            ports := t.ports, stations := t.stations
            uplink := classB (heardUplink s seg f) (.passFrame seg f.src f.bytes) })) ∧
    (fresh ∨ f.msg.kind = .hello → e.state = .empty →
      ∃ t, exec (frameCommand f.msg.kind seg) s = .next t ∧
        LinkOnly s t seg f (fun x =>
          (if s.params.passUnmapped then x.1
            else { x.1 with counters := { x.1.counters with unmappedDropped := bump x.1.counters.unmappedDropped } }, x.2)) ∧
        t = { s with
          ports := t.ports, stations := t.stations
          uplink := if s.params.passUnmapped then classB s.uplink (.passFrame seg f.src f.bytes) else s.uplink }) ∧
    (fresh → e.state = .frozen → e.mismatched = true → f.msg.kind ≠ .hello →
      ∃ t, exec (frameCommand f.msg.kind seg) s = .next t ∧
        LinkOnly s t seg f (fun x => (x.1, { x.2 with mismatchCount := bump x.2.mismatchCount })) ∧
        t = { s with ports := t.ports, stations := t.stations, uplink := heardUplink s seg f })

/-- R136: a mark at a place its raw mark list holds leaves the higher severity there; at a new place it joins the end of
a list of fewer than 24, and at a full list it is dropped and the overflow mark set. R50, R135: the marks of a DAMAGE_MARKS
that attaches before the decision step join the list of their position, in their order; marks of severity 0 are counted and
left out, those dropped counted as overflows. From the decision step onward the frame is counted as late. Nothing else
changes. R139, R141: a raw mark is brought within its grid, and container marks at one place join with the higher severity.
R143 to R145: a mark is KNOWN, WORSENED or NEW by the best prior mark that matches it; the grade is the weighted sum of the
costs held at 255; the thresholds give the damage result and the marks to append. By the model's choice of log entry 9 a
STATION_ACTIVE goes before the PASS_FRAME (`forwardedUplink`). -/
def Obligations.DamageMarksJoinTheRawList : Prop :=
  (∀ (l : RawList) (m : RawMark),
     (∀ (before after : List RawMark) (x : RawMark), l.marks = before ++ x :: after → samePlace m x = true →
       (∀ y ∈ before ++ after, samePlace m y = false) →
       l.add m = ({ l with marks := before ++ { x with severity := max x.severity m.severity } :: after }, false)) ∧
     ((∀ y ∈ l.marks, samePlace m y = false) → l.marks.length < 24 →
       l.add m = ({ l with marks := l.marks ++ [m] }, false)) ∧
     ((∀ y ∈ l.marks, samePlace m y = false) → 24 ≤ l.marks.length → l.add m = ({ l with overflow := true }, true))) ∧
  (∀ (g : Geometry) (l : List RawMark) (m : RawMark) (before after : List Mark) (x k : Mark) (list : List Mark),
    containerMarks g [] = [] ∧
    containerMarks g (l ++ [m]) = mergeMark (containerMarks g l) (transform g.columns g.fore (limitMark g.columns m)) ∧
    limitMark g.columns m = { m with
      column := min m.column (match m.face with
        | .laneLeft | .laneRight | .top => g.columns - 1
        | .frontEnd | .rearEnd => 2)
      row := min m.row 2 } ∧
    ((∀ y ∈ list, sameSpot k y = false) → mergeMark list k = list ++ [k]) ∧
    (sameSpot k x = true → (∀ y ∈ before ++ after, sameSpot k y = false) →
      mergeMark (before ++ x :: after) k = before ++ { x with severity := max x.severity k.severity } :: after)) ∧
  (∀ (w : Vector Nat 5) (prior marks : List Mark) (m : Mark),
    let matched (p : Mark) : Prop := p ∈ prior ∧ p.face = m.face ∧ p.kind = m.kind ∧ p.row = m.row ∧
      p.column ≤ m.column + 1 ∧ m.column ≤ p.column + 1
    ((∀ p, ¬ matched p) → markCost prior m = some m.severity) ∧
    (∀ p, matched p → (∀ q, matched q → q.severity ≤ p.severity) →
      markCost prior m = if m.severity ≤ p.severity + 1 then none else some (m.severity - p.severity)) ∧
    gradeOf w prior [] = 0 ∧
    gradeOf w prior (marks ++ [m]) =
      match markCost prior m with
      | none => gradeOf w prior marks
      | some k =>
          min (gradeOf w prior marks +
            (match m.kind with | .dent => w[0] | .hole => w[1] | .crease => w[2] | .bulge => w[3] | .rust => w[4]) * k) 255) ∧
  (∀ (p : Params) (grade : Nat) (overflow provisional : Bool) (fresh : List Mark),
    judgeDamage p grade overflow provisional fresh =
      { result :=
          if p.inspectThreshold ≤ grade ∨ overflow = true then .inspect
          else if p.recordThreshold ≤ grade then .recorded else .minor
        grade := grade
        toAppend := if p.recordThreshold ≤ grade ∧ provisional = false then fresh else [] }) ∧
  ∀ (seg : Seg) (s : State) (f : RxFrame) (rest : List RxFrame) (id : CtxId) (pos : Position) (ms : List RawMark),
    Consumed s seg f rest → f.msg = .damageMarks pos ms →
    s.attach (sender s seg f).lane (sender s seg f).zone = some id → Waits (s.ctx id) →
    let c := s.ctx id
    ((s.ctx id).state.beforeDecision = true →
      ∃ t, exec (.damageMarks seg) s = .next t ∧ LinkOnly s t seg f ∧
        t = { s with
          ports := t.ports, stations := t.stations
          pool := upd s.pool id fun c => { c with raw := c.raw.put pos (ms.foldl takenMark (c.raw.get pos)) }
          check := { s.check with counters := { s.check.counters with
            marksIgnored := bumpBy s.check.counters.marksIgnored (ms.filter (·.severity = 0)).length
            overflows := bumpBy s.check.counters.overflows (dropped (c.raw.get pos) ms) } }
          uplink := forwardedUplink s seg f }) ∧
    ((s.ctx id).state.beforeDecision = false →
      ∃ t, exec (.damageMarks seg) s = .next t ∧ LinkOnly s t seg f ∧
        t = { s with
          ports := t.ports, stations := t.stations
          lanes := upd s.lanes (s.ctx id).lane fun x =>
            { x with counters := { x.counters with lateFrames := bump x.counters.lateFrames } }
          uplink := forwardedUplink s seg f })

/-- R50, R81: a SCAN_END that attaches gives a context its layout; a later one of other unit count marks a layout conflict,
which comes late from the decision step onward; one of equal unit count changes nothing. R51, R52: one that completes the
identification takes the context into LOOKUP, where its links are looked up in turn and it concludes (`EntersLookup`). The test
is: PLATE or TAG SETTLED, a layout, each unit field the layout shows SETTLED, and for a layout of no unit a kiosk reference. The
links are formed from UNIT_FWD, UNIT_AFT (SETTLED, WEAK or CONTESTED) and the kiosk reference, in this order, each PENDING: the
first two of different keys. By the model's choices a STATION_ACTIVE goes before the PASS_FRAME (log entry 9,
`forwardedUplink`), and the lookups are those of `LookedUp` (log entries 7, 10 and 41). -/
def Obligations.ScanEndGivesTheLayout : Prop :=
  (∀ c : Ctx, c.identified = true ↔
    (c.plate.state = .settled ∨ c.tag.state = .settled) ∧
    ∃ l, c.layout = some l ∧ (1 ≤ l.units → c.unitFwd.state = .settled) ∧ (2 ≤ l.units → c.unitAft.state = .settled) ∧
      (l.units = 0 → ∃ r, c.kiosk = some r)) ∧
  (∀ c : Ctx,
    let held (f : ConsField) : Option Text :=
      if f.state = .settled ∨ f.state = .weak ∨ f.state = .contested then f.latched else none
    let keys : List (Text × LinkSource) :=
      ((held c.unitFwd).map (·, .unitFwd)).toList ++ ((held c.unitAft).map (·, .unitAft)).toList ++
        (c.kiosk.map (·, .kiosk)).toList
    let link (x : Text × LinkSource) : Link := ⟨x.1, x.2, none, .pending, false⟩
    (keys = [] → c.formLinks = []) ∧
    (∀ x more, keys = x :: more → (∀ y ∈ more, y.1 = x.1) → c.formLinks = [link x]) ∧
    ∀ x same y more, keys = x :: (same ++ y :: more) → (∀ z ∈ same, z.1 = x.1) → y.1 ≠ x.1 →
      c.formLinks = [link x, link y]) ∧
  ∀ (seg : Seg) (s : State) (f : RxFrame) (rest : List RxFrame) (id : CtxId) (l : Layout),
    Consumed s seg f rest → f.msg = .scanEnd l →
    s.attach (sender s seg f).lane (sender s seg f).zone = some id →
    let c := s.ctx id
    let d : Ctx :=
      match c.layout with
      | none => { c with layout := some l }
      | some held =>
          if held.units = l.units then c
          else { c with
            layoutConflict := true
            flags := { c.flags with
              contestedLate := c.flags.contestedLate ||
                !(c.state == .arriving || c.state == .identifying || c.state == .lookup) } }
    (Waits d →
      ∃ t, exec (.scanEnd seg) s = .next t ∧ LinkOnly s t seg f ∧
        t = { s with
          ports := t.ports, stations := t.stations, pool := upd s.pool id fun _ => d
          uplink := forwardedUplink s seg f }) ∧
    (¬ Waits d → ∃ t, exec (.scanEnd seg) s = .next t ∧ EntersLookup s t seg f id d)

/-- R50: a KIOSK_ENTRY that attaches in ARRIVING or IDENTIFYING gives the context its kiosk reference, replacing any it
holds; from LOOKUP onward it is counted as late. R51, R52: one that completes the identification takes the context into
LOOKUP, where its links are looked up in turn and it concludes (`EntersLookup`). By the model's choices a STATION_ACTIVE goes
before the PASS_FRAME (log entry 9, `forwardedUplink`), and the lookups are those of `LookedUp` (log entries 7, 10 and 41). -/
def Obligations.KioskEntryGivesTheReference : Prop :=
  ∀ (seg : Seg) (s : State) (f : RxFrame) (rest : List RxFrame) (id : CtxId) (r : Text),
    Consumed s seg f rest → f.msg = .kioskEntry r →
    s.attach (sender s seg f).lane (sender s seg f).zone = some id →
    let early : Prop := (s.ctx id).state = .arriving ∨ (s.ctx id).state = .identifying
    (early → Waits { s.ctx id with kiosk := some r } →
      ∃ t, exec (.kioskEntry seg) s = .next t ∧ LinkOnly s t seg f ∧
        t = { s with
          ports := t.ports, stations := t.stations, pool := upd s.pool id fun c => { c with kiosk := some r }
          uplink := forwardedUplink s seg f }) ∧
    (early → ¬ Waits { s.ctx id with kiosk := some r } →
      ∃ t, exec (.kioskEntry seg) s = .next t ∧ EntersLookup s t seg f id { s.ctx id with kiosk := some r }) ∧
    (¬ early →
      ∃ t, exec (.kioskEntry seg) s = .next t ∧ LinkOnly s t seg f ∧
        t = { s with
          ports := t.ports, stations := t.stations
          lanes := upd s.lanes (s.ctx id).lane fun x =>
            { x with counters := { x.counters with lateFrames := bump x.counters.lateFrames } }
          uplink := forwardedUplink s seg f })

/-- R173: a SIGN_ACK. One that matches no unmarked half of a page in flight is a stray; the first half's is marked; with
both halves marked the page is acknowledged, a FAULT ends and is reported, and the pending page, if any, is sent. R167 to
R171: the page of a lane, line by line: the ALERT line, the VISIT line or the BASE line, the first that is not transparent,
with the characters outside the text set as spaces. R171, R172: a page offered to a channel is ignored where it is the latest
page, sent where the channel is OK with nothing in flight, and else becomes the pending page; a composition reaches every SIGN
of its lane and no other station. By the model's choices: a STATION_ACTIVE goes before the PASS_FRAME and a PASS_FRAME before a
SIGN_RESTORED (log entry 9); a channel that has had no page acknowledged takes every offer (log entry 16); the whole byte
acknowledged is compared, so one above 15 is a stray (log entry 54). -/
def Obligations.SignAckMarksTheHalves : Prop :=
  (∀ (seg : Seg) (s : State) (f : RxFrame) (rest : List RxFrame) (q : Nat),
    Consumed s seg f rest → f.msg = .signAck q →
    let ix := stationIx seg f.src
    let u := forwardedUplink s seg f
    let ch := (sender s seg f).channel
    ((ch.bind (·.inFlight)).bind (InFlight.mark · q) = none →
      ∃ t, exec (.signAck seg) s = .next t ∧ LinkOnly s t seg f ∧
        t = { s with
          ports := t.ports, stations := t.stations, uplink := u
          signs := { s.signs with counters := { s.signs.counters with
            straySignAcks := bump s.signs.counters.straySignAcks } } }) ∧
    (∀ (c : SignChannel) (g m : InFlight), ch = some c → c.inFlight = some g → g.mark q = some m →
      ((m.upperMarked && m.lowerMarked) = false →
        ∃ t, exec (.signAck seg) s = .next t ∧
          LinkOnly s t seg f (fun x => (x.1, { x.2 with channel := some { c with inFlight := some m } })) ∧
          t = { s with ports := t.ports, stations := t.stations, uplink := u } ∧
          (t.station ix).channel = some { c with inFlight := some m }) ∧
      ((m.upperMarked && m.lowerMarked) = true →
        ∃ t, exec (.signAck seg) s = .next t ∧
          LinkOnly s t seg f (fun x => pendingSent s.params.signAck f.src
            (x.1, { x.2 with channel := some { c with
              lastAcked := some g.page, inFlight := none, timer := none, fault := false } })) ∧
          t = { s with
            ports := t.ports, stations := t.stations
            uplink := if c.fault then classB u (.stationEvent ix .signRestored none none) else u } ∧
          (c.waiting = none → (t.station ix).channel =
            some { c with lastAcked := some g.page, inFlight := none, timer := none, fault := false }) ∧
          ∀ p, c.waiting = some p → ∃ fl, fl.page = p ∧ fl.upperMarked = false ∧ fl.lowerMarked = false ∧
            (t.station ix).channel = some ⟨false, some fl, none, some g.page, some s.params.signAck⟩))) ∧
  (∀ (s : State) (l : LaneId),
    let clear (x : Text) : Bool := x.all (· == 0x20) || x.all (· == s.params.transparency)
    let sent (x : Text) : Text := x.map fun b => if isTextChar b then b else 0x20
    let blank : Text := List.replicate 20 0x20
    let fit (x : Text) : Text := (x ++ blank).take 20
    let digit (n : Nat) : Byte := BitVec.ofNat 8 (0x30 + n % 10)
    let line (alert visit base : Text) : Text :=
      if clear alert = false then sent alert else if clear visit = false then sent visit
      else if clear base = false then sent base else blank
    let mode := (s.lane l).mode
    let front : Option Ctx := (s.lane l).front.map s.ctx
    let truck : Option Ctx := front.filter fun c => c.state.atPosition
    let turned (c : Ctx) : Bool := c.decision == some .turnOut && (c.state == .decided || c.state == .releasing)
    let alert : Text :=
      if mode = .manual then s.phrase 251
      else if mode = .suspended then s.phrase 252
      else if front.any (·.state == .referred) then s.phrase 249
      else if front.any turned then s.phrase 250
      else blank
    s.page l =
      { line1 := line blank (truck.elim blank fun c => fit (c.plate.reported.getD []))
          (s.phrase (match mode with | .open => 240 | .closed => 241 | .closing => 242 | .manual => 243 | .suspended => 244))
        line2 := line blank
          (truck.elim blank fun c =>
            match c.decision with
            | some .admitted => s.phrase 245
            | some .inspect => s.phrase 246
            | some .turnOut => s.phrase 247
            | some .refer => s.phrase 248
            | none => blank)
          (fit ([0x4C, 0x41, 0x4E, 0x45, 0x20] ++ [digit (l.val / 10), digit l.val]))
        line3 := line blank
          (truck.elim blank fun c => c.destination.elim blank fun d => s.phrase (s.destAt d).phrase) blank
        line4 := line alert
          (truck.elim blank fun c =>
            let v := c.visit.toNat
            fit ([0x56, 0x49, 0x53, 0x49, 0x54, 0x20] ++
              [digit (v / 10000), digit (v / 1000), digit (v / 100), digit (v / 10), digit v])) blank }) ∧
  (∀ (s : State) (ix : StationIx) (p : Page) (ch : SignChannel), (s.station ix).channel = some ch →
    let t := s.offerPage ix p
    (ch.lastAcked.isSome = true → shownPage ch = some p → t = s) ∧
    (ch.lastAcked = none ∨ shownPage ch ≠ some p →
      (ch.fault = false → ch.inFlight = none → ∃ fl, fl.page = p ∧ fl.upperMarked = false ∧ fl.lowerMarked = false ∧
        (t.station ix).channel = some { ch with inFlight := some fl, timer := some s.params.signAck }) ∧
      (ch.fault = true ∨ ch.inFlight.isSome = true →
        t = { s with stations := upd s.stations ix fun e => { e with channel := some { ch with waiting := some p } } }))) ∧
  ∀ (s : State) (l : LaneId),
    Shows s (s.compose l) l ∧ (s.compose l) = { s with ports := (s.compose l).ports, stations := (s.compose l).stations } ∧
    ∀ ix, (s.compose l).station ix = { s.station ix with channel := ((s.compose l).station ix).channel } ∧
      (¬ SignOf s l ix → (s.compose l).station ix = s.station ix)

/-- R176: a TICKET_ACK whose sequence is that of the oldest ticket of its printer removes that ticket; any other is
counted as a stray. Nothing else changes. R175: a ticket issued goes to the lane's printer, the first in station map order,
as one frame of the visit number, the decision, the plate, the unit codes and the destination's phrase, and waits at the end
of its queue; without a printer, or with two tickets in the queue, it is refused and counted. R7: a frame handed to a port
joins its transmit queue with the station's next sequence, or is dropped and counted: on a segment that is DOWN, for an
unmapped or MISMATCHED station, or at 32 frames. By the model's choices a STATION_ACTIVE goes before the PASS_FRAME (log entry 9,
`forwardedUplink`), and the whole byte acknowledged is compared, so one above 15 is a stray (log entry 54). -/
def Obligations.TicketAckTakesTheOldest : Prop :=
  (∀ (seg : Seg) (s : State) (f : RxFrame) (rest : List RxFrame) (q : Nat),
    Consumed s seg f rest → f.msg = .ticketAck q →
    let ix := stationIx seg f.src
    (∀ (k : Ticket) (more : List Ticket) (n : BitVec 4), (s.station ix).tickets = k :: more → k.seq = some n →
      n.toNat = q →
      ∃ t, exec (.ticketAck seg) s = .next t ∧ LinkOnly s t seg f (fun x => (x.1, { x.2 with tickets := more })) ∧
        t = { s with ports := t.ports, stations := t.stations, uplink := forwardedUplink s seg f }) ∧
    ((∀ (k : Ticket) (n : BitVec 4), (s.station ix).tickets.head? = some k → k.seq = some n → n.toNat ≠ q) →
      ∃ t, exec (.ticketAck seg) s = .next t ∧ LinkOnly s t seg f ∧
        t = { s with
          ports := t.ports, stations := t.stations, uplink := forwardedUplink s seg f
          signs := { s.signs with counters := { s.signs.counters with
            strayTicketAcks := bump s.signs.counters.strayTicketAcks } } })) ∧
  (∀ (s : State) (id : CtxId),
    let c := s.ctx id
    let t := s.issueTicket id
    let units := (c.links.filter fun k => k.source != .kiosk).map (·.key)
    let phrase : Text := c.destination.elim (List.replicate 20 0x20) fun d => s.phrase (s.destAt d).phrase
    let payload : List Byte :=
      [c.visit.extractLsb' 8 8, c.visit.extractLsb' 0 8,
        match c.decision with | some .admitted => 0 | some .inspect => 1 | some .turnOut => 2 | some .refer => 3 | none => 0xFF] ++
      (c.plate.reported.getD [] ++ List.replicate 10 0x20).take 10 ++ [BitVec.ofNat 8 units.length] ++ units.flatten ++
      phrase.map fun b => if isTextChar b then b else 0x20
    Ticketed s t id ∧
    (∀ ix, PrinterOf s c.lane ix → (s.station ix).tickets.length < 2 →
      let h := s.handOff (segOf ix) (addrOf ix) .ticket payload
      t = { s with
        ports := h.1.ports
        stations := upd s.stations ix fun e => { e with tickets := e.tickets ++ [⟨c.visit, h.2, some s.params.ticketAck⟩] } }) ∧
    ((∀ ix, PrinterOf s c.lane ix → 2 ≤ (s.station ix).tickets.length) →
      t = { s with
        pool := upd s.pool id fun c => { c with flags := { c.flags with noTicket := true } }
        signs := { s.signs with counters := { s.signs.counters with
          ticketsRefused := bump s.signs.counters.ticketsRefused } } })) ∧
  ∀ (s : State) (seg : Seg) (a : Addr) (kind : TxKind) (payload : List Byte),
    let p := s.port seg
    let e := s.station (stationIx seg a)
    let takes : Prop := p.state ≠ .down ∧ (e.state = .learn ∨ (e.state = .frozen ∧ e.mismatched = false)) ∧
      p.txQueue.length < 32
    (takes → s.handOff seg a kind payload =
      ({ s with ports := upd s.ports seg fun p => { p with
          txQueue := p.txQueue ++ [⟨a, kind, p.txSeq[a], payload⟩], txSeq := p.txSeq.set a (p.txSeq[a] + 1) } },
        some p.txSeq[a])) ∧
    (¬ takes → s.handOff seg a kind payload =
      ({ s with ports := upd s.ports seg fun p => { p with
          counters := { p.counters with transmitDrops := bump p.counters.transmitDrops } } }, none))

/-- R31, R34, R44, R59: a CONSOLE_TAKE on a lane not in MANUAL: the lane enters MANUAL held by the station, each console value
takes what its output drove, the pending arrivals of an OPEN lane are cleared, the lane's inputs and counters stay, and, with no
room for their reports, its contexts but those in RELEASING and CLOSING stand in CLOSING with the outcome ABORTED_MANUAL. With
none to abort nothing else changes but the page of the lane (R171, `PagesOnly`) and the one LANE_EVENT of cause CONSOLE_TAKE
(R34, R37; stated where no recall is about to be reported done). R60, R101, R128: the one context it aborts gives back what it
holds in the shared records (`Released`); without room it stands in CLOSING as `ended` says, and with room its visit report is
queued, behind the LANE_EVENT by the model's choice of log entry 38, and it is freed and granted (R61, `Granted`). On a lane in
MANUAL the holder's frame changes nothing and another console's is counted as a refusal. By the model's choice of log entry 9 a
STATION_ACTIVE goes before the PASS_FRAME (`forwardedUplink`), and the LANE_EVENT after both. -/
def Obligations.ConsoleTakeEntersManual : Prop :=
  ∀ (seg : Seg) (s : State) (f : RxFrame) (rest : List RxFrame), Consumed s seg f rest → f.msg = .consoleTake →
    let ix := stationIx seg f.src
    let l := (sender s seg f).lane
    let x := s.lane l
    let aborted := x.ctxs.filter fun j => (s.ctx j).state != .closing && (s.ctx j).state != .releasing
    let u := classB (forwardedUplink s seg f) (.modeChange l x.mode .manual .consoleTake (some ix))
    let held : State := { s with lanes := upd s.lanes l fun x => { x with
      mode := .manual, holder := some ix, pendingArrivals := if x.mode = .open then 0 else x.pendingArrivals
      barrier := { x.barrier with consoleValue := s.driven l .barrier }
      go := { x.go with consoleValue := s.driven l .go }
      stop := { x.stop with consoleValue := s.driven l .stop } } }
    (x.mode ≠ .manual →
      ∃ t, exec (.consoleTake seg) s = .next t ∧ Configured s t ∧
        (t.lane l).mode = .manual ∧ (t.lane l).holder = some ix ∧
        (t.lane l).barrier = { x.barrier with consoleValue := s.driven l .barrier } ∧
        (t.lane l).go = { x.go with consoleValue := s.driven l .go } ∧
        (t.lane l).stop = { x.stop with consoleValue := s.driven l .stop } ∧
        (t.lane l).inputs = x.inputs ∧ (t.lane l).exitOnEdge = x.exitOnEdge ∧ (t.lane l).counters = x.counters ∧
        (t.lane l).pendingArrivals = (if x.mode = .open then 0 else x.pendingArrivals) ∧
        (QueueFull s → ∀ id ∈ aborted, (t.ctx id).state = .closing ∧ (t.ctx id).outcome = some .abortedManual) ∧
        (aborted = [] → RecallsWait s →
          t = { held with ports := t.ports, stations := t.stations, uplink := u } ∧
          PagesOnly (fun g => if g = seg then takenPort s seg f else s.port g)
            (fun j => if j = ix then heardEntry s seg f else s.station j) (fun j => j = ix ∨ SignOf s l j) t) ∧
        ∀ id : CtxId, aborted = [id] → (s.ctx id).lane = l → Abortable s id →
          Released s t id ∧
          (QueueFull s → t.ctx id = ended (s.ctx id) .abortedManual ∧ ∀ j, j ≠ id → t.ctx j = s.ctx j) ∧
          (u.queue.length < 64 → u.waiters = [] →
            t.uplink = drained held id { u with
              queue := u.queue ++ [⟨.visitReport (ended (s.ctx id) .abortedManual).report, none⟩] } ∧
            Granted held t id)) ∧
    (x.mode = .manual → x.holder = some ix →
      ∃ t, exec (.consoleTake seg) s = .next t ∧ LinkOnly s t seg f ∧
        t = { s with ports := t.ports, stations := t.stations, uplink := forwardedUplink s seg f }) ∧
    (x.mode = .manual → x.holder ≠ some ix →
      ∃ t, exec (.consoleTake seg) s = .next t ∧ LinkOnly s t seg f ∧
        t = { s with
          ports := t.ports, stations := t.stations, uplink := forwardedUplink s seg f
          lanes := upd s.lanes l fun x =>
            { x with counters := { x.counters with consoleRefusals := bump x.counters.consoleRefusals } } })

/-- R31, R35: a CONSOLE_RELEASE of the holder puts its lane in SUSPENDED with no holder; a CONSOLE_OUTPUT of the holder sets
the console values, KEEP leaving one as it is; either frame of a console that does not hold the lane is counted as a
refusal. Nothing else changes but, at a release, the page of the lane (R171, `PagesOnly`). By the model's choice of log entry 9
the LANE_EVENT goes after the PASS_FRAME, and a
STATION_ACTIVE before both. -/
def Obligations.ConsoleReleaseAndOutput : Prop :=
  ∀ (seg : Seg) (s : State) (f : RxFrame) (rest : List RxFrame), Consumed s seg f rest →
    let ix := stationIx seg f.src
    let l := (sender s seg f).lane
    let held : Prop := (s.lane l).mode = .manual ∧ (s.lane l).holder = some ix
    let u := forwardedUplink s seg f
    (f.msg = .consoleRelease → held →
      ∃ t, exec (.consoleRelease seg) s = .next t ∧
        PagesOnly (fun g => if g = seg then takenPort s seg f else s.port g)
          (fun j => if j = ix then heardEntry s seg f else s.station j) (fun j => j = ix ∨ SignOf s l j) t ∧
        t = { s with
          ports := t.ports, stations := t.stations
          lanes := upd s.lanes l fun x => { x with mode := .suspended, holder := none }
          uplink := classB u (.modeChange l .manual .suspended .consoleRelease none) }) ∧
    (∀ b g p : Option Bool, f.msg = .consoleOutput b g p → held →
      ∃ t, exec (.consoleOutput seg) s = .next t ∧ LinkOnly s t seg f ∧
        t = { s with
          ports := t.ports, stations := t.stations, uplink := u
          lanes := upd s.lanes l fun x => { x with
            barrier := { x.barrier with consoleValue := b.getD x.barrier.consoleValue }
            go := { x.go with consoleValue := g.getD x.go.consoleValue }
            stop := { x.stop with consoleValue := p.getD x.stop.consoleValue } } }) ∧
    ((f.msg = .consoleRelease ∨ ∃ b g p, f.msg = .consoleOutput b g p) → ¬ held →
      ∃ t, exec (frameCommand f.msg.kind seg) s = .next t ∧ LinkOnly s t seg f ∧
        t = { s with
          ports := t.ports, stations := t.stations, uplink := u
          lanes := upd s.lanes l fun x =>
            { x with counters := { x.counters with consoleRefusals := bump x.counters.consoleRefusals } } })

/-! ### Lane inputs (chapter 2) and the pool (chapter 3) -/

/-- R23, R24: a change of a pin. A disabled input keeps its read level and its stopped timer; an enabled one whose sensed
level returns to its read level has its filter timer stopped; one whose sensed level differs starts it, and a filter time
of 0 takes the level at once, as the end of a filter does. R24, R26, R45: the end of a filter gives the input its level. The
_OFF events of ENTRY and BARRIER_DOWN, and that of EXIT where the release edge is EXIT_ON or the lane's front context is not in
RELEASING, do nothing more; a POSITION_OFF takes the approach timers of the lane's contexts anew. Nothing else changes. By the
model's choice of log entry 4 a pin that already has the level, and the expiry of a stopped timer, change nothing. -/
def Obligations.InputLevelsPassTheirFilters : Prop :=
  (∀ (l : LaneId) (inp : Input) (high : Bool) (s : State), s.resetHeld = false →
     let i := s.input l inp
     let after (timer : Timer) : State :=
       { s with lanes := upd s.lanes l fun x =>
           { x with inputs := upd x.inputs (inputIx inp) fun y => { y with pin := high, timer := timer } } }
     let on := high != i.activeLow
     (i.pin = high → exec (.inputLevelChange l inp high) s = .next s) ∧
     (i.pin ≠ high → i.enabled = false → exec (.inputLevelChange l inp high) s = .next (after i.timer)) ∧
     (i.pin ≠ high → i.enabled = true →
       (on = i.level → exec (.inputLevelChange l inp high) s = .next (after none)) ∧
       (on ≠ i.level → i.filter ≠ 0 → exec (.inputLevelChange l inp high) s = .next (after (some i.filter))) ∧
       (on ≠ i.level → i.filter = 0 →
         exec (.inputLevelChange l inp high) s = exec (.inputFilterExpiry l inp) (after (some 0))))) ∧
  ∀ (l : LaneId) (inp : Input) (s : State),
    ((s.input l inp).timer = none → exec (.inputFilterExpiry l inp) s = .next s) ∧
    (FilterEnds s l inp false →
      let t : State := { s with lanes := upd s.lanes l fun x => taken x inp false }
      (inp = .entry ∨ inp = .barrierDown ∨
          (inp = .exit ∧ ((s.lane l).exitOnEdge = true ∨
            ∀ id, (s.lane l).front = some id → (s.ctx id).state ≠ .releasing)) →
        exec (.inputFilterExpiry l inp) s = .next t) ∧
      (inp = .position → ∃ u, exec (.inputFilterExpiry l inp) s = .next u ∧ u = { t with pool := u.pool } ∧
        ∀ id : CtxId, u.ctx id =
          if id ∈ (s.lane l).ctxs then { s.ctx id with approachTimer := approachOf t l (s.ctx id) } else s.ctx id))

/-- R28, R39 to R41, R45: an ENTRY_ON. Outside OPEN it is counted as refused. In OPEN it takes the lowest FREE context (the
choice of log entry 6) where there is one and the lane holds fewer than two: ARRIVING, with the visit counter's number, the
arrival minute, and an approach timer where the lane holds no other context and its POSITION is INACTIVE. Else it is pending
up to 3, and then lost. -/
def Obligations.EntryOnIsServedOrCounted : Prop :=
  ∀ (l : LaneId) (s : State), FilterEnds s l .entry true →
    let x := s.lane l
    let after (f : LaneState → LaneState) : State := { s with lanes := upd s.lanes l fun x => f (taken x .entry true) }
    (x.mode ≠ .open →
      exec (.inputFilterExpiry l .entry) s = .next
        (after fun x => { x with counters := { x.counters with refusedEntries := bump x.counters.refusedEntries } })) ∧
    (x.mode = .open → (2 ≤ x.ctxs.length ∨ ∀ id : CtxId, (s.ctx id).state ≠ .free) →
      exec (.inputFilterExpiry l .entry) s = .next
        (if x.pendingArrivals < 3 then after fun x => { x with pendingArrivals := x.pendingArrivals + 1 }
        else after fun x => { x with counters := { x.counters with arrivalsLost := bump x.counters.arrivalsLost } })) ∧
    ∀ id : CtxId, x.mode = .open → x.ctxs.length < 2 → (s.ctx id).state = .free →
      (∀ j : CtxId, j < id → (s.ctx j).state ≠ .free) →
      ∃ t, exec (.inputFilterExpiry l .entry) s = .next t ∧
        t = { after (fun x => { x with ctxs := x.ctxs ++ [id] }) with
          pool := t.pool, visitCounter := s.visitCounter + 1 } ∧
        t.ctx id =
          { state := .arriving, visit := s.visitCounter, lane := l, arrival := s.now
            approachTimer :=
              if x.ctxs = [] ∧ s.reads l .position = false then some s.params.approachLimit else none } ∧
        ∀ j, j ≠ id → t.ctx j = if j ∈ x.ctxs then { s.ctx j with approachTimer := none } else s.ctx j

/-- R41, R42, R45, R46: a POSITION_ON on a lane that holds no context at the position. The oldest ARRIVING context enters
IDENTIFYING and becomes the front, with its position minute and its identification timer; R51, R52: one that has completed its
identification goes on into LOOKUP in the same event (`Advanced`; by the model's choices of log entries 7, 10 and 41, the
lookups are those of `LookedUp`). With none, an OPEN lane takes the lowest FREE context (log entry 6) straight into IDENTIFYING
where it holds fewer than two, and else counts the arrival as pending up to 3, and then as lost; a lane in another mode counts
it as refused. With a context at the position no context changes state. Every approach timer of the lane stops. -/
def Obligations.PositionOnAdvancesTheOldest : Prop :=
  ∀ (l : LaneId) (s : State), FilterEnds s l .position true →
    let x := s.lane l
    let others (t : State) (id : Option CtxId) : Prop := ∀ j : CtxId, some j ≠ id →
      t.ctx j = if j ∈ x.ctxs then { s.ctx j with approachTimer := none } else s.ctx j
    ((∃ j ∈ x.ctxs, (s.ctx j).state.atPosition = true) →
      ∃ t, exec (.inputFilterExpiry l .position) s = .next t ∧ others t none ∧
        t = { s with lanes := upd s.lanes l fun x => taken x .position true, pool := t.pool }) ∧
    ((∀ j ∈ x.ctxs, (s.ctx j).state.atPosition = false) →
      (∀ (id : CtxId) (before after : List CtxId), x.ctxs = before ++ id :: after → (s.ctx id).state = .arriving →
        (∀ j ∈ before, (s.ctx j).state ≠ .arriving) → (s.ctx id).lane = l → (s.ctx id).identified = false →
        ∃ t, exec (.inputFilterExpiry l .position) s = .next t ∧ others t (some id) ∧
          t = { s with
            ports := t.ports, stations := t.stations, pool := t.pool
            lanes := upd s.lanes l fun x => { taken x .position true with front := some id } } ∧
          PagesOnly s.port s.station (SignOf s l) t ∧
          t.ctx id = { s.ctx id with
            state := .identifying, position := some s.now, approachTimer := none
            identTimer := some s.params.identWindow }) ∧
      (∀ (id : CtxId) (before after : List CtxId), x.ctxs = before ++ id :: after → (s.ctx id).state = .arriving →
        (∀ j ∈ before, (s.ctx j).state ≠ .arriving) → (s.ctx id).lane = l → (s.ctx id).identified = true →
        ∃ b t, exec (.inputFilterExpiry l .position) s = .next t ∧ others b none ∧
          b = { s with lanes := upd s.lanes l fun x => taken x .position true, pool := b.pool } ∧
          Advanced b t l (some id)) ∧
      ((∀ j ∈ x.ctxs, (s.ctx j).state ≠ .arriving) →
        (x.mode ≠ .open →
          ∃ t, exec (.inputFilterExpiry l .position) s = .next t ∧ others t none ∧
            t = { s with
              pool := t.pool
              lanes := upd s.lanes l fun x => { taken x .position true with
                counters := { x.counters with refusedEntries := bump x.counters.refusedEntries } } }) ∧
        (x.mode = .open → (2 ≤ x.ctxs.length ∨ ∀ id : CtxId, (s.ctx id).state ≠ .free) →
          ∃ t, exec (.inputFilterExpiry l .position) s = .next t ∧ others t none ∧
            t = { s with
              pool := t.pool
              lanes := upd s.lanes l fun x =>
                let y := taken x .position true
                if x.pendingArrivals < 3 then { y with pendingArrivals := x.pendingArrivals + 1 }
                else { y with counters := { x.counters with arrivalsLost := bump x.counters.arrivalsLost } } }) ∧
        ∀ id : CtxId, x.mode = .open → x.ctxs.length < 2 → (s.ctx id).state = .free →
          (∀ j : CtxId, j < id → (s.ctx j).state ≠ .free) →
          ∃ t, exec (.inputFilterExpiry l .position) s = .next t ∧ others t (some id) ∧
            t = { s with
              ports := t.ports, stations := t.stations, pool := t.pool, visitCounter := s.visitCounter + 1
              lanes := upd s.lanes l fun x => { taken x .position true with
                ctxs := x.ctxs ++ [id], front := some id } } ∧
            PagesOnly s.port s.station (SignOf s l) t ∧
            t.ctx id =
              { state := .identifying, visit := s.visitCounter, lane := l, arrival := s.now, position := some s.now
                identTimer := some s.params.identWindow }))

/-- R27, R54: an EXIT_ON whose front context is not in RELEASING is a manual pass in MANUAL and an unauthorised pass, with one
LANE_EVENT, in any other mode; one whose front context is in RELEASING is authorised, and with the release edge EXIT_OFF nothing
is counted and nothing else changes (with EXIT_ON it is the release edge, which commits). A BARRIER_DOWN_ON takes a front
context in DECIDED to RELEASING and does nothing more where the front is in another state. -/
def Obligations.PassesAndTheBarrier : Prop :=
  ∀ (l : LaneId) (s : State),
    (FilterEnds s l .exit true → (∀ id, (s.lane l).front = some id → (s.ctx id).state ≠ .releasing) →
      ((s.lane l).mode = .manual →
        exec (.inputFilterExpiry l .exit) s = .next
          { s with lanes := upd s.lanes l fun x => { taken x .exit true with
            counters := { x.counters with manualPasses := bump x.counters.manualPasses } } }) ∧
      ((s.lane l).mode ≠ .manual →
        exec (.inputFilterExpiry l .exit) s = .next
          { s with
            lanes := upd s.lanes l fun x => { taken x .exit true with
              counters := { x.counters with unauthorisedPasses := bump x.counters.unauthorisedPasses } }
            uplink := classB s.uplink (.unauthorisedPass l (s.lane l).mode (s.frontState l)) })) ∧
    (FilterEnds s l .exit true → (∃ id, (s.lane l).front = some id ∧ (s.ctx id).state = .releasing) →
      (s.lane l).exitOnEdge = false →
      exec (.inputFilterExpiry l .exit) s = .next { s with lanes := upd s.lanes l fun x => taken x .exit true }) ∧
    (FilterEnds s l .barrierDown true →
      ((∀ id, (s.lane l).front = some id → (s.ctx id).state ≠ .decided) →
        exec (.inputFilterExpiry l .barrierDown) s = .next
          { s with lanes := upd s.lanes l fun x => taken x .barrierDown true }) ∧
      ∀ id, (s.lane l).front = some id → (s.ctx id).state = .decided → (s.ctx id).lane = l →
        ∃ t, exec (.inputFilterExpiry l .barrierDown) s = .next t ∧
          t = { s with
            ports := t.ports, stations := t.stations
            lanes := upd s.lanes l fun x => taken x .barrierDown true
            pool := upd s.pool id fun c => { c with state := .releasing } } ∧
          PagesOnly s.port s.station (SignOf s l) t)

/-- R26, R56, R57, R61, R127, R158: the release edge of a lane whose front context is in RELEASING commits it: it takes its exit
minute and the outcome COMPLETED and stands in CLOSING; its reservation becomes an admission of its window, or a lost commit; an
override admission without a reservation is counted in the window of the exit minute, or lost; its transit entry takes its
expiry. R102, R104 to R106: its booking links are committed as `LinksCommitted` says: each record is written, left for a lock,
or dropped, and goes back by the write policy. By the model's readings of log entries 17 and 48 a unit link's overrun owes its
update too, a KIOSK link's overrun changes nothing, and a locked record counts no overrun. R109, R111, R112: a link to an entry
or a private copy under recall is committed as `RecalledEntryCommitted` and `RecalledCopyCommitted` say, and where its pin was
the last, or the copy goes, the recall ends. All this is the state `m` below, in which the context is in CLOSING. R43, R46, R51:
with POSITION ACTIVE the oldest ARRIVING context of the lane advances (`Advances`), into IDENTIFYING and to the front, and on
into LOOKUP where it has completed its identification (`Advanced`). R61: the visit report is offered: without room it waits;
with room it is queued, and the context is freed and granted (`Reported`). Stated with no lookup waiting, and for links of
different targets with no recall outstanding, or for one link under the one recall outstanding. That the cache's reports go
first, then the advance, and the visit report last is the model's choice of log entry 14; a RECALL_DONE ends with the last copy
of its own key by that of log entry 12, and the advance's lookups are those of `LookedUp` (log entries 7, 10 and 41). -/
def Obligations.ReleaseEdgeCommits : Prop :=
  ∀ (l : LaneId) (id : CtxId) (next : Option CtxId) (s : State), FilterEnds s l .exit (s.lane l).exitOnEdge →
    let c := s.ctx id
    (s.lane l).front = some id → c.state = .releasing → c.lane = l → Advances s l next →
    let committed (m : State) : Prop :=
      m = { s with
        ports := m.ports, stations := m.stations, slot := m.slot, pool := m.pool, cache := m.cache, uplink := m.uplink
        lanes := upd s.lanes l fun x => taken x .exit x.exitOnEdge
        dest := { s.dest with transit := s.dest.transit.map fun e =>
          match s.now with
          | .at n =>
              if c.inTransit = true ∧ e.visit = c.visit then
                { e with expiry := some (minuteAdd n s.params.transitTimeout) }
              else e
          | .unset => e } } ∧
      PagesOnly s.port s.station (SignOf s l) m ∧
      m.ctx id = { c with
        exit := some s.now, reservation := none, outcome := some .completed, state := .closing
        links := (m.ctx id).links, flags := (m.ctx id).flags, damage := (m.ctx id).damage } ∧
      (∀ j, j ≠ id → m.ctx j = s.ctx j) ∧
      (c.reservation = none → c.flags.overrideAdmission = false → m.slot = s.slot) ∧
      (∀ p : DayIx × Fin 96, c.reservation = none → c.flags.overrideAdmission = true →
        (∃ n, s.now = .at n ∧ s.windowPlace (dayOfMinute n) (windowOfMinute n) = some p) →
        m.windowAt p = { s.windowAt p with overrides := min ((s.windowAt p).overrides + 1) 255 } ∧
        (∀ q, q ≠ p → m.windowAt q = s.windowAt q) ∧ m.slot.counters = s.slot.counters) ∧
      (c.reservation = none → c.flags.overrideAdmission = true →
        (∀ n, s.now = .at n → s.windowPlace (dayOfMinute n) (windowOfMinute n) = none) →
        m.slot = { s.slot with counters := { s.slot.counters with
          overridesLost := bump s.slot.counters.overridesLost } }) ∧
      (∀ (r : Reservation) (p : DayIx × Fin 96), c.reservation = some r → r.lost = false →
        s.windowPlace r.day r.window = some p →
        m.windowAt p = { s.windowAt p with
          reserved := (s.windowAt p).reserved - 1, admitted := min ((s.windowAt p).admitted + 1) 255 } ∧
        (∀ q, q ≠ p → m.windowAt q = s.windowAt q) ∧ m.slot.counters = s.slot.counters) ∧
      ∀ r : Reservation, c.reservation = some r → r.lost = true ∨ s.windowPlace r.day r.window = none →
        m.slot = { s.slot with counters := { s.slot.counters with
          commitsLost := bump s.slot.counters.commitsLost } }
    let goesOn (m : State) : Prop :=
      ∃ a t, exec (.inputFilterExpiry l .exit) s = .next t ∧ Advanced m a l next ∧ Reported a t id
    (s.cache.recalls = [] → c.links = [] ∨ s.cache.waitList = [] → (c.links.filterMap (·.target)).Nodup →
      (∀ k ∈ c.links, TargetQuiet s k) →
      ∃ m, committed m ∧ goesOn m ∧ LinksCommitted s m id ∧ (c.links = [] → m.cache = s.cache ∧ m.uplink = s.uplink)) ∧
    (∀ k i y key released, LinksRecalledEntry s id k i y key released →
      ∃ m, committed m ∧ goesOn m ∧ RecalledEntryCommitted s m id k i y key released) ∧
    ∀ k p x released, LinksRecalledCopy s id k p x released →
      ∃ m, committed m ∧ goesOn m ∧ RecalledCopyCommitted s m id k p x released

/-- R45, R61: an approach timer's expiry ends its context, WITHDRAWN. Without room its visit report waits; with room the
report is queued, and the context leaves its lane and is granted as `Granted` says. R33: a lane in CLOSING that so holds none
enters CLOSED, with one LANE_EVENT of cause CONTEXTS_DRAINED behind the report (`drained`). R45: the context that stays in the
lane has its approach timer taken anew. R44: where no lane waits for a context it is FREE; else it goes to the first lane
after the last served that is OPEN, has a pending arrival and holds fewer than two contexts; the lane has one pending arrival
less and is the last served, and the context is in ARRIVING there, or in IDENTIFYING as its front where the lane holds none at
the position and its POSITION input reads ACTIVE. -/
def Obligations.ApproachExpiryWithdraws : Prop :=
  ∀ (id : CtxId) (s : State), s.resetHeld = false → (s.ctx id).state = .arriving →
    (s.ctx id).approachTimer.isSome = true →
    let d : Ctx := { s.ctx id with
      state := .closing, outcome := some .withdrawn, approachTimer := none, identTimer := none, rulingTimer := none
      noticePending := false }
    (QueueFull s →
      exec (.approachExpiry id) s = .next
        { s with
          pool := upd s.pool id fun _ => d
          uplink := waiting { s.uplink with waiters := s.uplink.waiters.filter (· != .referNotice id) }
            (.visitReport id) }) ∧
    (s.uplink.queue.length < 64 → s.uplink.waiters = [] →
      ∃ t, exec (.approachExpiry id) s = .next t ∧ Configured s t ∧
        t.uplink = drained s id { s.uplink with queue := s.uplink.queue ++ [⟨.visitReport d.report, none⟩] } ∧
        Granted s t id ∧
        ((∀ l : LaneId, (s.lane l).pendingArrivals = 0) →
          (t.ctx id).state = .free ∧ id ∉ (t.lane d.lane).ctxs ∧ t.visitCounter = s.visitCounter))

/-- R51, R52, R78: an identification timer's expiry finalises the fields of its context and takes it into LOOKUP, with the links
its values form. R89 to R93, R102: their lookups are handed to the cache in turn, each as `LookedUp` says, a hit, a miss that
fetches, castout and all, or one that waits (stated, where a link is formed, for no recall outstanding; by the model's choices
of log entries 7, 10 and 41). R53, R149: with no link left PENDING, or none formed, its decision step follows at once, and makes
of it what `Decides` says: the seal results and damage grades, the slot result, the decision with its reasons, the destination
with its token and transit entry, the units and the reservation taken, and the ticket; else it stays in LOOKUP and nothing else
changes but the page sent. FINALISATION of an OPEN field makes it WEAK on its best candidate at half the threshold and half the
margin, ABSENT without candidates, and UNRESOLVED else. -/
def Obligations.IdentificationExpiryEntersLookup : Prop :=
  (∀ (id : CtxId) (s : State), s.resetHeld = false → (s.ctx id).state = .identifying →
    (s.ctx id).identTimer.isSome = true →
    let c := (s.ctx id).finalise s.params
    ∃ t, exec (.identificationExpiry id) s = .next t ∧ Configured s t ∧ t.lanes = s.lanes ∧
      t.visitCounter = s.visitCounter ∧ t.lastServed = s.lastServed ∧
      (t.ctx id).state ∈ [.lookup, .referred, .decided, .releasing] ∧ (t.ctx id).identTimer = none ∧
      (t.ctx id).links.map (·.key) = c.formLinks.map (·.key) ∧
      (t.ctx id).plate = c.plate ∧ (t.ctx id).tag = c.tag ∧ (t.ctx id).unitFwd = c.unitFwd ∧
      (t.ctx id).unitAft = c.unitAft ∧ (t.ctx id).sealFwd = c.sealFwd ∧ (t.ctx id).sealAft = c.sealAft ∧
      (s.cache.recalls = [] → (∀ k ∈ c.formLinks, 4 ≤ k.key.length) →
        let d : Ctx := { c with identTimer := none, links := c.formLinks, state := .lookup }
        ∃ v, LookedUpInTurn ((List.range c.formLinks.length).map fun n => ⟨id, n⟩)
            { s with pool := s.pool.set id d } v ∧ Concludes v t id)) ∧
  ∀ (t m : Nat) (f : ConsField),
    (f.state ≠ .open → f.finalise t m = f) ∧
    (f.state = .open → f.candidates = [] → f.finalise t m = { f with state := .absent }) ∧
    (f.state = .open → ∀ (before after : List Candidate) (b : Candidate), f.candidates = before ++ b :: after →
      (∀ d ∈ before, d.score < b.score) → (∀ d ∈ after, d.score ≤ b.score) →
      (∀ d ∈ before ++ after, d.value ≠ b.value) →
      f.finalise t m =
        if t / 2 ≤ b.score ∧ m / 2 ≤ b.score ∧ ∀ d ∈ before ++ after, d.score + m / 2 ≤ b.score then
          { f with state := .weak, latched := some b.value }
        else { f with state := .unresolved })

/-- R55, R128, R156, R164: a ruling timer's expiry turns its context out: NO_RULING is added, the reservation is given back and
the reserved count of its window falls (`WindowReturned`), the units its links hold are given back (`UnitsGivenBack`), the
destination is the first that the chain from the trouble start finds, with a token and a transit entry there (`Routed`), or the
trouble start itself with none, and the context leaves REFERRED with the new decision minute, at once into RELEASING where its
barrier is down. -/
def Obligations.RulingExpiryTurnsOut : Prop :=
  ∀ (id : CtxId) (s : State), s.resetHeld = false → (s.ctx id).state = .referred →
    (s.ctx id).rulingTimer.isSome = true →
    let c := s.ctx id
    ∃ t, exec (.rulingExpiry id) s = .next t ∧ Configured s t ∧ t.lanes = s.lanes ∧
      t.visitCounter = s.visitCounter ∧ t.check = s.check ∧ t.signs = s.signs ∧
      t.dest.counters.noRulingTurnOuts = bump s.dest.counters.noRulingTurnOuts ∧
      (t.ctx id).decision = some .turnOut ∧ (t.ctx id).reasons = { c.reasons with noRuling := true } ∧
      (t.ctx id).reservation = none ∧ (t.ctx id).rulingTimer = none ∧ (t.ctx id).noticePending = false ∧
      (t.ctx id).decisionMinute = some s.now ∧
      (t.ctx id).destination = some ((s.chain (s.bookingKind c) 4 s.dest.defaults[5]).getD s.dest.defaults[5]) ∧
      Routed s t id (s.chain (s.bookingKind c) 4 s.dest.defaults[5]) ∧ UnitsGivenBack s t id ∧ WindowReturned s t id ∧
      (t.ctx id).state = (if s.reads c.lane .barrierDown then .releasing else .decided) ∧
      ∀ j, j ≠ id → t.ctx j = { s.ctx j with inTransit := (t.ctx j).inTransit }

/-! ### The booking cache (chapter 5) -/

/-- R91: the VICTIM CHOICE. A way is eligible when its pin count is 0, it is not FILLING, its recall mark is NONE and it owes no
report. An eligible INVALID way is chosen, way 0 first; else, of two eligible ways, the one the age marker does not name; else
the eligible one; else none. A way that is chosen is eligible. R88 to R90, R92 to R94, R102: the BOOKING LOOKUP that uses the
choice is that of `LookedUp`: a hit takes a pin and the age marker and is RESOLVED or joins the fill, or waits for a recall; a
miss takes a fetch slot and installs its key in the way chosen, or makes a private copy, or waits; R96: its castout and its
BOOKING_FETCH are accepted at once where the report queue has room and no class A report waits, the slot then sent with its
fetch timer running, and else join the send order. R87: its set is the sum of the eleven character values times 3, 5, 7 and so
on to 23, modulo 1024, for a key of digits and letters (a space has a free value: log entry 5). In the lookup a hit on an entry
under recall is counted and leaves the age marker, and the lowest free slot and place are taken, by the model's choices of log
entries 10, 41 and 7. -/
def Obligations.VictimIsTheEligibleWay : Prop :=
  (∀ c : CacheSet,
    let E (e : Entry) : Prop := e.pins = 0 ∧ e.state ≠ .filling ∧ e.mark = .none ∧ e.owed = .none
    let empty (e : Entry) : Prop := E e ∧ e.state = .invalid
    (empty c.way0 → Work.victim c = some 0) ∧
    (¬ empty c.way0 → empty c.way1 → Work.victim c = some 1) ∧
    (¬ empty c.way0 → ¬ empty c.way1 →
      (E c.way0 → E c.way1 → Work.victim c = some (if c.age = 0 then 1 else 0)) ∧
      (E c.way0 → ¬ E c.way1 → Work.victim c = some 0) ∧ (¬ E c.way0 → E c.way1 → Work.victim c = some 1) ∧
      (¬ E c.way0 → ¬ E c.way1 → Work.victim c = none)) ∧
    ∀ w : Fin 2, Work.victim c = some w → E (c.get w)) ∧
  (∀ c1 c2 c3 c4 c5 c6 c7 c8 c9 c10 c11 : Byte,
    let key : Text := [c1, c2, c3, c4, c5, c6, c7, c8, c9, c10, c11]
    (∀ b ∈ key, Digit b ∨ Letter b) →
    (∀ b ∈ key, charValue b = faceValue b) ∧
    (setIndex key).val =
      (3 * faceValue c1 + 5 * faceValue c2 + 7 * faceValue c3 + 9 * faceValue c4 + 11 * faceValue c5 + 13 * faceValue c6 +
        15 * faceValue c7 + 17 * faceValue c8 + 19 * faceValue c9 + 21 * faceValue c10 + 23 * faceValue c11) % 1024) ∧
  ∀ (s : State) (r : LinkRef) (l : Link), s.link? r = some l → 4 ≤ l.key.length →
    LookedUp s (Work.lookup { st := s } r).st r l.key (s.cache.waitList ++ [r]) s.cache.waitList

/-- R95, R97, R102: a BOOKING_DATA that matches its fetch fills the entry or the private copy the fetch is for: the record is
held, clean, every link that names the target is RESOLVED, and the slot is FREE. Stated with no lookup waiting and no recall
outstanding. R53, R149, R150, R157: a context in LOOKUP whose last PENDING links this resolves, alone among the contexts, makes
its decision step: its seal results and damage grades, its slot result, its decision with its reasons, its destination with the
token and transit entry, the units and the reservation taken, and its ticket are those of `Decides`. R95: with one lookup
waiting, the slot that a fill frees has it tried again, and it leaves the wait list or keeps its place, as `LookedUp` says
(stated for a fill that no link waits for). R97, R110: a fill of an entry marked REFILL keeps nothing of the record: the mark is
cleared and a new fetch for the same key takes the slot, and the entry's part of the recall is done, so the recall is reported
done where no private copy is under it; R96: the BOOKING_FETCH and the RECALL_DONE are accepted at once as far as there is room,
and a recall whose report is accepted leaves the recall table. By the model's choices: both follow in the event of the fill (log
entry 10); the lookup takes the lowest free slot and place (log entry 7) and leaves the age marker at a hit under recall (log
entry 41); the recall ends with the last copy of its own key (log entry 12); the server is PRESENT before a decision step that
the answer sets off reads the server state (log entry 56). -/
def Obligations.MatchedDataFillsItsTarget : Prop :=
  ∀ (h : GateHdr) (b : List Byte) (s : State) (i : Fin 16) (f : Fetch) (r : Record), s.resetHeld = false →
    Outstanding s i f h.tag → b.take 11 = f.key → recordOfBytes b = some r →
    let cache (c : Cache) : Cache := { s.cache with
      slots := s.cache.slots.set i none, counters := { s.cache.counters with fills := bump s.cache.counters.fills }
      sets := c.sets, copies := c.copies }
    let landed (k : Fin 1024) (y : Fin 2) : Cache :=
      let e : Entry := { s.entry k y with state := .valid, record := some r, dirty := false, held := 0 }
      { s.cache with sets := upd s.cache.sets k (·.put y e) }
    (CacheIdle s → (∀ k y, f.target = .way k y → (s.entry k y).mark ≠ .refill) →
      ∃ t, exec (.bookingData h b) s = .next t ∧ Configured s t ∧ t.lanes = s.lanes ∧
        t.visitCounter = s.visitCounter ∧
        t.cache.slots = s.cache.slots.set i none ∧ t.cache.counters.fills = bump s.cache.counters.fills ∧
        (∀ k y, f.target = .way k y →
          (t.entry k y).state = .valid ∧ (t.entry k y).record = some r ∧ (t.entry k y).dirty = false ∧
          (t.entry k y).key = (s.entry k y).key ∧ (t.entry k y).pins = (s.entry k y).pins) ∧
        (∀ p c, f.target = .copy p → s.cache.copies[p] = some c →
          ∃ d, t.cache.copies[p] = some d ∧ d.record = some r ∧ d.key = c.key ∧ d.link = c.link) ∧
        (∀ (id : CtxId) (k : Nat) (l : Link), (s.ctx id).links[k]? = some l → l.target = some f.target →
          ∃ m, (t.ctx id).links[k]? = some m ∧ m.key = l.key ∧ m.state = .resolved ∧ m.target = l.target) ∧
        ∀ id : CtxId, (s.ctx id).state = .lookup → (∃ l ∈ (s.ctx id).links, l.target = some f.target) →
          (∀ l ∈ (s.ctx id).links, l.state = .pending → l.target = some f.target) →
          (∀ j, j ≠ id → ∀ l ∈ (s.ctx j).links, l.target ≠ some f.target) →
          let filled (c : Cache) : State := { s with
            uplink := presence s h, cache := cache c
            pool := upd s.pool id fun d => { d with
              links := d.links.map fun l => if l.target = some f.target then { l with state := .resolved } else l } }
          (∀ k y, f.target = .way k y → Decides (filled (landed k y)) t id) ∧
          ∀ p c, f.target = .copy p → s.cache.copies[p] = some c →
            Decides (filled { s.cache with copies := s.cache.copies.set p (some { c with record := some r }) }) t id) ∧
    (∀ (k : Fin 1024) (y : Fin 2) (q : LinkRef) (l : Link), f.target = .way k y → (s.entry k y).mark ≠ .refill →
      (∀ id : CtxId, ∀ m ∈ (s.ctx id).links, m.target ≠ some f.target) → s.cache.recalls = [] →
      s.cache.waitList = [q] → s.link? q = some l → l.state = .pending → 4 ≤ l.key.length →
      (s.ctx q.ctx).state = .lookup →
      ∃ t v, exec (.bookingData h b) s = .next t ∧
        LookedUp { s with uplink := presence s h, cache := cache (landed k y) } v q l.key [q] [] ∧ Concludes v t q.ctx) ∧
    ∀ (k : Fin 1024) (y : Fin 2) (released : Bool), f.target = .way k y → (s.entry k y).mark = .refill →
      s.cache.waitList = [] → s.cache.recalls = [⟨f.key, released, true, false⟩] →
      (∀ p : Fin 48, ∀ c ∈ s.cache.copies[p], c.key = f.key → c.recalled = false) →
      ∃ tag, TagFor { s with cache := { s.cache with slots := s.cache.slots.set i none } } tag ∧
        exec (.bookingData h b) s = .next
          (reportsMade { s with
            uplink := { presence s h with nextTag := tag + 1 }
            cache := { cache s.cache with
              sets := upd s.cache.sets k (·.put y { s.entry k y with mark := .none })
              slots := s.cache.slots.set i (some (fetchMade s (cacheRoom s) f.key f.target tag none))
              recalls := if 2 ≤ cacheRoom s then [] else [⟨f.key, released, false, true⟩] } }
            (fetchReports i f.key tag none ++ [recallDone f.key released]))

/-- R98, R99: a BOOKING_NONE for the key of its fetch, or the expiry of a fetch timer, ends the fetch without a record: the slot
is FREE, the entry INVALID or the private copy discarded, and every link that named it is NONE_FOUND or FAILED and names no
target (stated with no lookup waiting and no recall outstanding). R110: the same for an entry marked REFILL, whose part of the
recall is then done, so the recall is reported done where no private copy is under it. R95: with one lookup waiting, the slot
freed has it tried again, as `LookedUp` says (stated for a fetch that no link waits for). That they follow in the event of the
answer, what the lookup takes and leaves, when the recall ends, and that the server is PRESENT before a decision step that the
BOOKING_NONE sets off are the model's choices of log entries 10, 7, 41, 12 and 56. R85, R86: the record of a BOOKING_DATA is
read from its 120 bytes by `Holds`, and one that `Holds` gives no record is bad. R97, R99: an answer that matches no outstanding
tag is a late fill; one that matches a tag but not the key of its fetch, or whose record does not have its form, is a bad fill,
and the fetch stays outstanding: each counts for server presence and changes nothing else. -/
def Obligations.FetchesEndOrStayOutstanding : Prop :=
  (∀ (b : List Byte) (r : Record), recordOfBytes b = some r ↔ Holds b r) ∧
  (∀ (h : GateHdr) (s : State) (i : Fin 16) (f : Fetch), s.resetHeld = false →
     let ended (t : State) (st : LinkState) : Prop :=
       Configured s t ∧ t.lanes = s.lanes ∧ t.visitCounter = s.visitCounter ∧
       t.cache.slots = s.cache.slots.set i none ∧
       (∀ k y, f.target = .way k y → t.entry k y = {}) ∧ (∀ p, f.target = .copy p → t.cache.copies[p] = none) ∧
       ∀ (id : CtxId) (k : Nat) (l : Link), (s.ctx id).links[k]? = some l → l.target = some f.target →
         ∃ m, (t.ctx id).links[k]? = some m ∧ m.key = l.key ∧ m.state = st ∧ m.target = none
     let kept (c : CacheCounters) : Cache := { s.cache with slots := s.cache.slots.set i none, counters := c }
     let answered : CacheCounters := { s.cache.counters with noneAnswers := bump s.cache.counters.noneAnswers }
     let late : CacheCounters := { s.cache.counters with fetchTimeouts := bump s.cache.counters.fetchTimeouts }
     let reported (u : Uplink) (t : State) (released : Bool) : Prop :=
       let v := reportsMade { s with uplink := u } [recallDone f.key released]
       t.cache.recalls = (if 0 < cacheRoom s then [] else [⟨f.key, released, false, true⟩]) ∧
       t.cache.sendOrder = v.cache.sendOrder ∧ v.uplink.queue <+: t.uplink.queue ∧ v.uplink.waiters <+: t.uplink.waiters
     let emptied (k : Fin 1024) (y : Fin 2) (u : Uplink) (c : CacheCounters) : State :=
       { s with uplink := u, cache := { kept c with sets := upd s.cache.sets k (·.put y {}) } }
     let refills (released : Bool) : Prop :=
       (∃ k y, f.target = .way k y ∧ (s.entry k y).mark = .refill) ∧ s.cache.waitList = [] ∧
       s.cache.recalls = [⟨f.key, released, true, false⟩] ∧
       ∀ p : Fin 48, ∀ c ∈ s.cache.copies[p], c.key = f.key → c.recalled = false
     let retries (q : LinkRef) (l : Link) : Prop :=
       (∀ id : CtxId, ∀ m ∈ (s.ctx id).links, m.target ≠ some f.target) ∧ s.cache.recalls = [] ∧
       s.cache.waitList = [q] ∧ s.link? q = some l ∧ l.state = .pending ∧ 4 ≤ l.key.length ∧
       (s.ctx q.ctx).state = .lookup
     (Outstanding s i f h.tag →
       (CacheIdle s → ∃ t, exec (.bookingNone h f.key) s = .next t ∧ ended t .noneFound ∧
         t.cache.counters.noneAnswers = answered.noneAnswers) ∧
       (∀ released, refills released →
         ∃ t, exec (.bookingNone h f.key) s = .next t ∧ ended t .noneFound ∧ reported (presence s h) t released) ∧
       ∀ k y q l, f.target = .way k y → retries q l →
         ∃ t v, exec (.bookingNone h f.key) s = .next t ∧
           LookedUp (emptied k y (presence s h) answered) v q l.key [q] [] ∧ Concludes v t q.ctx) ∧
     (s.cache.slots[i] = some f → f.timer.isSome = true →
       (CacheIdle s → ∃ t, exec (.fetchTimeout i) s = .next t ∧ ended t .failed ∧
         t.cache.counters.fetchTimeouts = late.fetchTimeouts) ∧
       (∀ released, refills released →
         ∃ t, exec (.fetchTimeout i) s = .next t ∧ ended t .failed ∧ reported s.uplink t released) ∧
       ∀ k y q l, f.target = .way k y → retries q l →
         ∃ t v, exec (.fetchTimeout i) s = .next t ∧
           LookedUp (emptied k y s.uplink late) v q l.key [q] [] ∧ Concludes v t q.ctx)) ∧
  ∀ (h : GateHdr) (b : List Byte) (key : Text) (s : State), s.resetHeld = false →
    let late : State := { s with
      uplink := presence s h
      cache := { s.cache with counters := { s.cache.counters with lateFills := bump s.cache.counters.lateFills } } }
    let bad : State := { s with
      uplink := presence s h
      cache := { s.cache with counters := { s.cache.counters with badFills := bump s.cache.counters.badFills } } }
    (Unmatched s h.tag → exec (.bookingData h b) s = .next late ∧ exec (.bookingNone h key) s = .next late) ∧
    ∀ (i : Fin 16) (f : Fetch), Outstanding s i f h.tag →
      (b.take 11 ≠ f.key ∨ recordOfBytes b = none → exec (.bookingData h b) s = .next bad) ∧
      (key ≠ f.key → exec (.bookingNone h key) s = .next bad)

/-- R108 to R112: a BOOKING_RECALL. A key of another form is answered BAD_VALUE; a key already under recall OK, with no new
record; with 16 records held it is DENIED and counted. A key the cache holds nowhere gives a RECALL_DONE that says none was
held; a key that only a castout holds gives one that says so. An entry that is not FILLING is marked PENDING: one that is pinned or
owes a report stays; an unpinned clean one becomes INVALID, and the recall is reported done; an unpinned dirty one first has its
BOOKING_WRITEBACK made (`recallTested`). An entry in FILLING whose fetch is not yet sent has its part of the recall done at once;
one whose fetch is sent is marked to be fetched again. A link of a visit in LOOKUP gives its pin back, is PENDING and is looked up
anew, after the entry is so settled. A private copy of a later visit is kept, recalled, to its commit; one of a visit in LOOKUP is
discarded, its fetch cancelled where it is being fetched (R101), and its link looked up anew. R96: the reports made are accepted at
once as far as there is room, the record of a recall leaving the recall table with its RECALL_DONE, and else join the send order.
R88, R89, R113, by the model's choices of log entries 7, 10, 11, 12 and 41: a recall ends with the last copy of its own key, a
lookup takes the lowest free slot and place, the links that a recall returns are looked up last in its event, a lookup that then
hits an entry under recall counts a hit, leaves the age marker and waits, and one that finds the key gone counts a miss. By the
model's reading of log entry 8 the cache acts before the RESPONSE is offered: its reports go first, and where one waits the cache
takes its place in the class A wait order ahead of the uplink port that owes the RESPONSE. All but the first three are stated with
no lookup waiting and no recall outstanding. -/
def Obligations.RecallActsOnTheKey : Prop :=
  ∀ (h : GateHdr) (key : Text) (s : State), Ready s →
    let counted : CacheCounters := { s.cache.counters with recalls := bump s.cache.counters.recalls }
    (isKey key = false → exec (.bookingRecall h key) s = .next { s with uplink := answered s h 3 (only .badValue) }) ∧
    (isKey key = true → (∃ r ∈ s.cache.recalls, r.key = key) →
      exec (.bookingRecall h key) s = .next { s with uplink := answered s h 3 (okay false) }) ∧
    (isKey key = true → (∀ r ∈ s.cache.recalls, r.key ≠ key) → 16 ≤ s.cache.recalls.length →
      exec (.bookingRecall h key) s = .next
        { s with
          uplink := answered s h 3 (only .denied)
          cache := { s.cache with counters := { s.cache.counters with
            recallsDenied := bump s.cache.counters.recallsDenied } } }) ∧
    (isKey key = true → CacheIdle s →
      let base : State := { s with uplink := presence s h, cache := { s.cache with counters := counted } }
      let replied (v : State) : Host.Outcome State Fault Refusal :=
        .next { v with uplink := made v.uplink (response h 3 (okay false)) }
      let tabled (v : State) (r : RecallRec) : State := { v with cache := { v.cache with recalls := [r] } }
      let returns (v : State) (r : LinkRef) (l : Link) : State := { v with
        pool := upd s.pool r.ctx fun d =>
          { d with links := d.links.set r.index { l with state := .pending, target := none } } }
      let noCopy : Prop := ∀ p : Fin 48, ∀ c ∈ s.cache.copies[p], c.key ≠ key
      let noLookup : Prop := ∀ id : CtxId, ∀ l ∈ (s.ctx id).links, l.key = key → (s.ctx id).state ≠ .lookup
      let castout : Prop := ∃ i : Fin 16, ∃ f ∈ s.cache.slots[i], ∃ r ∈ f.castout, r.key = key
      (noCopy → noLookup → Work.wayOf s key = none →
        (¬ castout → exec (.bookingRecall h key) s = replied (recallEnded base key false)) ∧
        (castout → exec (.bookingRecall h key) s = replied (recallEnded base key true))) ∧
      (∀ y : Fin 2, Work.wayOf s key = some y → noCopy →
        let k := setIndex key
        let e := s.entry k y
        let sent : Prop := ∃ i : Fin 16, ∃ f ∈ s.cache.slots[i], f.target = .way k y ∧ f.phase = .sent
        let marked (m : RecallMark) : State := { base with cache := { base.cache with
          sets := upd s.cache.sets k fun c => c.put y { e with mark := m } } }
        (e.state = .filling →
          (∀ id : CtxId, ∀ l ∈ (s.ctx id).links, (s.ctx id).state = .lookup → l.key = key →
            l.target = none ∨ l.target = some (.way k y)) →
          (¬ sent → exec (.bookingRecall h key) s = replied (recallEnded base key true)) ∧
          (sent → exec (.bookingRecall h key) s = replied (tabled (marked .refill) ⟨key, true, true, false⟩))) ∧
        (e.state = .valid → (e.dirty = true → e.record.isSome = true) →
          (noLookup → (∀ id : CtxId, ∀ l ∈ (s.ctx id).links, (s.ctx id).state = .lookup → l.target ≠ some (.way k y)) →
            exec (.bookingRecall h key) s = replied (recallTested base k y key true { e with mark := .pending })) ∧
          ∀ (r : LinkRef) (l : Link), (s.ctx r.ctx).state = .lookup → (s.ctx r.ctx).links[r.index]? = some l →
            l.key = key → l.target = some (.way k y) →
            (∀ (j : CtxId) (m : Nat) (x : Link), (s.ctx j).state = .lookup → (s.ctx j).links[m]? = some x →
              x.key = key ∨ x.target = some (.way k y) → j = r.ctx ∧ m = r.index) →
            (∀ z, z ≠ y → (s.entry k z).key ≠ some key) →
            ∃ v, exec (.bookingRecall h key) s = replied v ∧
              LookedUp (recallTested (returns base r l) k y key true { e with pins := e.pins - 1, mark := .pending }) v
                r key [r] [])) ∧
      ∀ (p : Fin 48) (c : PrivateCopy) (r : LinkRef), s.cache.copies[p] = some c → c.key = key → c.link = some r →
        (∀ q : Fin 48, q ≠ p → ∀ d ∈ s.cache.copies[q], d.key ≠ key) → Work.wayOf s key = none →
        ((s.ctx r.ctx).state ≠ .lookup → noLookup →
          exec (.bookingRecall h key) s = replied (tabled
            { base with cache := { base.cache with copies := s.cache.copies.set p (some { c with recalled := true }) } }
            ⟨key, true, false, false⟩)) ∧
        ∀ l : Link, (s.ctx r.ctx).state = .lookup → (s.ctx r.ctx).links[r.index]? = some l → l.key = key →
          l.target = some (.copy p) →
          (∀ (j : CtxId) (m : Nat) (x : Link), (s.ctx j).state = .lookup → (s.ctx j).links[m]? = some x →
            x.key = key → j = r.ctx ∧ m = r.index) →
          let discarded : State :=
            returns { base with cache := { base.cache with copies := s.cache.copies.set p none } } r l
          ((∀ i : Fin 16, ∀ f ∈ s.cache.slots[i], f.target ≠ .copy p) →
            ∃ v, exec (.bookingRecall h key) s = replied v ∧ LookedUp (recallEnded discarded key true) v r key [r] []) ∧
          ∀ (i : Fin 16) (f : Fetch), s.cache.slots[i] = some f → f.target = .copy p →
            (∀ (j : Fin 16) (g : Fetch), s.cache.slots[j] = some g → g.target = .copy p → j = i) →
            let order := s.cache.sendOrder.filter (· ≠ .fetch i)
            let cancelled : State := { discarded with
              uplink := if order = [] then { presence s h with waiters := s.uplink.waiters.filter (· ≠ .cache) } else presence s h
              cache := { discarded.cache with slots := s.cache.slots.set i none, sendOrder := order } }
            ∃ v, exec (.bookingRecall h key) s = replied v ∧ LookedUp (recallEnded cancelled key true) v r key [r] [])

/-- R107: a FLUSH. While one is still to be reported done it is DENIED. Else every VALID dirty entry that owes no report (`flushed`,
in ascending set index, way 0 before way 1, each once) has its BOOKING_WRITEBACK made, in this order, and FLUSH_DONE is made after
them. R96: as far as there is room they are accepted at once, each leaving its entry clean; the rest join the send order, each entry
owing its report. No other entry changes, no age marker, and nothing else. By the model's reading of log entry 8 the RESPONSE is
offered after them. Stated for entries that hold a record, unpinned ones of them under no recall, and with no recall about to be
reported done. -/
def Obligations.FlushWritesBackEveryDirtyEntry : Prop :=
  ∀ (h : GateHdr) (s : State), Ready s →
    (.flushDone ∈ s.cache.sendOrder →
      exec (.flush h) s = .next { s with uplink := answered s h 0x0A (only .denied) }) ∧
    (∀ i y, (i, y) ∈ flushed s ↔
      (s.entry i y).state = .valid ∧ (s.entry i y).dirty = true ∧ (s.entry i y).owed = .none) ∧
    (flushed s).Pairwise (fun a b => a.1 < b.1 ∨ (a.1 = b.1 ∧ a.2 < b.2)) ∧
    (.flushDone ∉ s.cache.sendOrder → RecallsWait s →
      (∀ x ∈ flushed s, (s.entry x.1 x.2).record.isSome = true ∧
        ((s.entry x.1 x.2).mark = .pending → (s.entry x.1 x.2).pins ≠ 0)) →
      let v := reportsMade { s with uplink := presence s h } (flushReports s)
      ∃ t, exec (.flush h) s = .next t ∧
        t = { v with
          uplink := made v.uplink (response h 0x0A (okay false)), cache := { v.cache with sets := t.cache.sets } } ∧
        (∀ i : Fin 1024, t.cache.sets[i].age = s.cache.sets[i].age) ∧
        ∀ i y, t.entry i y =
          if (i, y) ∈ (flushed s).take (cacheRoom s) then { s.entry i y with dirty := false }
          else if (i, y) ∈ flushed s then { s.entry i y with owed := .writeback }
          else s.entry i y)

/-- R104, R105: the cache's part of a commit under THROUGH, on a visit of one RESOLVED link to an entry under no recall and
owing no report: the record takes what commitRecord makes of it, the entry owes its BOOKING_UPDATE, or, where the report is
accepted at once (R96), is clean, and its pin is dropped with the unit the link holds. By the model's reading of log entry 17 an
update is owed for a unit link's overrun too. R102, R104 to R106: the same for every number of links to different targets, every
write policy, a locked record, a private copy and a visit turned out, as `LinksCommitted` says; a locked record counts no pickup
overrun, by the model's reading of log entry 48. R109, R111, R112: a link to an entry or a private copy under recall is
committed as `RecalledEntryCommitted` and `RecalledCopyCommitted` say, with the end of the recall where its last pin or copy
goes (that it ends with the last copy of its own key is the model's choice of log entry 12). The record's change is GATED_IN for
the three kinds of one container, and one unit less for an EMPTY_PICKUP that has one; a unit link also records the seal check
and appends the marks that fit in 12. -/
def Obligations.CommitWritesTheRecord : Prop :=
  (∀ (s : State) (id : CtxId) (l : Link) (i : Fin 1024) (y : Fin 2) (r : Record),
    let c := s.ctx id
    let e := s.entry i y
    let k := commitRecord c l r e.held
    c.links = [l] → (c.decision = some .admitted ∨ c.decision = some .inspect) → l.target = some (.way i y) →
    l.state = .resolved → e.record = some r → r.customsHold = false → r.lineHold = false → e.mark = .none →
    e.owed = .none → s.params.writePolicy = .through → (k.overrun = false ∨ l.source ≠ .kiosk) →
    let t := (Work.commit { st := s } id).st
    let v := reportsMade s [(.update i y, .bookingUpdate k.record)]
    let sent : Bool := decide (0 < cacheRoom s)
    t.entry i y = { e with
      record := some k.record, owed := if sent then .none else .update, dirty := e.dirty && !sent, pins := e.pins - 1
      held := if l.holdsUnit then e.held - 1 else e.held } ∧
    t.cache.sendOrder = v.cache.sendOrder ∧ t.uplink = v.uplink ∧
    (t.ctx id).links = [{ l with target := none, holdsUnit := false }] ∧
    (∀ j z, (j, z) ≠ (i, y) → t.entry j z = s.entry j z)) ∧
  (∀ (s : State) (id : CtxId), ((s.ctx id).links.filterMap (·.target)).Nodup →
    (∀ l ∈ (s.ctx id).links, TargetQuiet s l) →
    LinksCommitted s (Work.commit { st := s } id).st id) ∧
  (∀ (s : State) (id : CtxId) (l : Link),
    let t := (Work.commit { st := s } id).finish.st
    let kept : Prop := t = { s with pool := t.pool, cache := t.cache, uplink := t.uplink } ∧ ∀ j, j ≠ id → t.ctx j = s.ctx j
    (∀ i y key released, LinksRecalledEntry s id l i y key released →
      kept ∧ RecalledEntryCommitted s t id l i y key released) ∧
    ∀ p x released, LinksRecalledCopy s id l p x released → kept ∧ RecalledCopyCommitted s t id l p x released) ∧
  (∀ (c : Ctx) (l : Link) (r : Record) (held : Nat),
    let k := commitRecord c l r held
    let changed := commitKind r l.holdsUnit held
    let marks (pos : Position) : List Mark := ((c.damage.get pos).map (·.toAppend)).getD []
    k.overrun = changed.2 ∧
    (l.source = .kiosk → k.record = changed.1 ∧ k.appended = 0 ∧ k.listFull = false) ∧
    ∀ pos, (l.source = .unitFwd ∧ pos = .fwd) ∨ (l.source = .unitAft ∧ pos = .aft) →
      k.record = { changed.1 with
        recorded := c.sealChecks.get pos, prior := r.prior ++ (marks pos).take (12 - r.prior.length) } ∧
      k.appended = min (marks pos).length (12 - r.prior.length) ∧
      (k.listFull = true ↔ 12 - r.prior.length < (marks pos).length)) ∧
  ∀ (r : Record) (holds : Bool) (held : Nat),
    (r.kind ≠ .emptyPickup → commitKind r holds held = ({ r with progress := .gatedIn }, false)) ∧
    (r.kind = .emptyPickup → holds = true ∨ held < r.remaining →
      commitKind r holds held = ({ r with remaining := r.remaining - 1 }, false)) ∧
    (r.kind = .emptyPickup → holds = false → r.remaining ≤ held → commitKind r holds held = (r, true))

/-! ### The slot unit (chapter 6) -/

/-- R115, R116, R121, R159: a minute of the RUNNING clock. It takes the next minute of its day, or minute 0 of the next day,
with the second count at 0. Each transit entry that is due leaves, with its report and its count, its token and the reference of
its visit, where no visit has two (`Expires`). At midnight the window table rolls: today's records become yesterday's,
tomorrow's become today's, and the new tomorrow's are made new; a reservation on a day no longer held is lost. An UNSET clock
has no minute. By the model's choice of log entry 3 a step on an empty queue is one second of the clock's time base: it counts
the seconds of a RUNNING clock, makes its next minute after 59, and changes nothing while the clock is UNSET or the reset input
is held. -/
def Obligations.ClockMinuteRollsTheTable : Prop :=
  (∀ s : State, s.resetHeld = false →
     (s.slot.clock = none → exec .clockMinute s = .next s) ∧
     ∀ c : Clock, s.slot.clock = some c →
       let next : Clock := if c.minute < 1439 then ⟨c.day, c.minute + 1, 0⟩ else ⟨c.day + 1, 0, 0⟩
       let gone := s.dest.transit.filter (due (absMinute next.day next.minute))
       ∃ t, exec .clockMinute s = .next t ∧ t = { s with pool := t.pool, slot := t.slot, dest := t.dest, uplink := t.uplink } ∧
         t.slot.clock = some next ∧ t.slot.counters = s.slot.counters ∧ t.dest.defaults = s.dest.defaults ∧
         Expires s t (absMinute next.day next.minute) ∧
         ((s.dest.transit.map (·.visit)).Nodup → t.uplink = gone.foldl (fun u e => classB u (.transitExpired e)) s.uplink) ∧
         (∀ id, t.ctx id = { s.ctx id with inTransit := (t.ctx id).inTransit, reservation := (t.ctx id).reservation }) ∧
         (c.minute < 1439 → t.slot = { s.slot with clock := some next } ∧
           ∀ id, (t.ctx id).reservation = (s.ctx id).reservation) ∧
         (1439 ≤ c.minute → s.slot.yesterday.day = some (c.day - 1) → s.slot.today.day = some c.day →
           s.slot.tomorrow.day = some (c.day + 1) →
           t.slot = { s.slot with
             clock := some next, yesterday := s.slot.today, today := s.slot.tomorrow
             tomorrow := ⟨some (c.day + 2), Vector.replicate 96 {}⟩ } ∧
           ∀ id, (t.ctx id).reservation = rebased (c.day + 1) (s.ctx id).reservation)) ∧
  ∀ s : State, s.pending = [] →
    (s.resetHeld = true → step s = .next s) ∧
    (s.resetHeld = false → s.slot.clock = none → step s = .next s) ∧
    ∀ c : Clock, s.resetHeld = false → s.slot.clock = some c →
      (c.seconds < 59 →
        step s = .next { s with slot := { s.slot with clock := some { c with seconds := c.seconds + 1 } } }) ∧
      (59 ≤ c.seconds → step s = exec .clockMinute s)

/-- R117, R118, R122: a TIME_SET. A minute above 1439 is answered BAD_VALUE and changes nothing. Else the clock runs from the
day and minute with its second count at 0: the windows of an UNSET clock take their days, those of the same day stay, and
those of another day are re-based: each new day keeps the records the table had for it, or takes new ones, and a reservation on a
day no longer held is lost. The minute set is announced: each transit entry that is due leaves with its TRANSIT_EXPIRED, its
count, its token and the reference of its visit, where no visit has two (`Expires`). By the model's
choices the RESPONSE goes after the TRANSIT_EXPIRED reports of the same event (log entry 8), and a TIME_SET to two days back
keeps the old yesterday as tomorrow (log entry 42). -/
def Obligations.TimeSetPlacesTheClock : Prop :=
  ∀ (h : GateHdr) (day minute : BitVec 16) (s : State), Ready s →
    (1439 < minute.toNat →
      exec (.timeSet h day minute) s = .next { s with uplink := answered s h 0x0A (only .badValue) }) ∧
    (minute.toNat ≤ 1439 →
      ∃ t, exec (.timeSet h day minute) s = .next t ∧ Responded t (response h 0x0A (okay false)) ∧
        t = { s with pool := t.pool, slot := t.slot, dest := t.dest, uplink := t.uplink } ∧
        t.slot.clock = some ⟨day, minute.toNat, 0⟩ ∧
        t.slot.counters = { s.slot.counters with clockSets := bump s.slot.counters.clockSets } ∧
        let gone := s.dest.transit.filter (due (absMinute day minute.toNat))
        Expires s t (absMinute day minute.toNat) ∧
        ((s.dest.transit.map (·.visit)).Nodup →
          t.uplink = made (gone.foldl (fun u e => classB u (.transitExpired e)) (presence s h)) (response h 0x0A (okay false))) ∧
        t.dest.defaults = s.dest.defaults ∧
        (∀ id, t.ctx id = { s.ctx id with
          inTransit := (t.ctx id).inTransit
          reservation :=
            if ∃ c ∈ s.slot.clock, c.day ≠ day then rebased day (s.ctx id).reservation else (s.ctx id).reservation }) ∧
        (s.slot.clock = none →
          t.slot.yesterday = ⟨some (day - 1), s.slot.yesterday.windows⟩ ∧
          t.slot.today = ⟨some day, s.slot.today.windows⟩ ∧ t.slot.tomorrow = ⟨some (day + 1), s.slot.tomorrow.windows⟩) ∧
        ∀ c : Clock, s.slot.clock = some c →
          (c.day = day → t.slot.yesterday = s.slot.yesterday ∧ t.slot.today = s.slot.today ∧
            t.slot.tomorrow = s.slot.tomorrow) ∧
          (c.day ≠ day → s.slot.yesterday.day = some (c.day - 1) → s.slot.today.day = some c.day →
            s.slot.tomorrow.day = some (c.day + 1) →
            let kept (d : BitVec 16) : DayTable :=
              if d = c.day - 1 then s.slot.yesterday
              else if d = c.day then s.slot.today
              else if d = c.day + 1 then s.slot.tomorrow
              else ⟨some d, Vector.replicate 96 {}⟩
            t.slot.yesterday = kept (day - 1) ∧ t.slot.today = kept day ∧ t.slot.tomorrow = kept (day + 1)))

/-- R119: the maximum and the open limit of a window, floored eighths; they lie in 0..510, the open limit never above the
maximum; an on-time truck is held while the places taken are below the maximum, any other while they are below the open
limit; capacity 0 takes no truck and open share 0 no early, late or walk-in truck. R123 to R125: the classification: UNCHECKED
for an UNSET clock or arrival minute or a PROVISIONAL visit, NONE without a record, an on-time truck against its booked
window, any other against its current one, and CLOSED or MISSED where that window is not held or not OPEN. -/
def Obligations.WindowLimitsHold : Prop :=
  (∀ w : Window,
    w.max = w.capacity + w.capacity * w.overbook / 8 ∧ w.openLimit = w.max * w.openShare / 8 ∧
    (w.capacity ≤ 255 → w.overbook ≤ 8 → w.openShare ≤ 8 → w.max ≤ 510 ∧ w.openLimit ≤ 510 ∧ w.openLimit ≤ w.max) ∧
    (w.capacity = 0 → w.max = 0 ∧ w.openLimit = 0) ∧ (w.openShare = 0 → w.openLimit = 0)) ∧
  (∀ (s : State) (d : BitVec 16) (n : Nat) (p : DayIx × Fin 96), s.windowPlace d n = some p →
    (s.windowAt p).isOpen = true →
    s.classOnTime d n =
      if (s.windowAt p).admitted + (s.windowAt p).reserved < (s.windowAt p).max then (.onTime, some (d, n))
      else (.full, none)) ∧
  (∀ (s : State) (c : Ctx) (prov : Bool),
    (s.slot.clock = none ∨ c.arrival = .unset ∨ prov = true → s.classify c prov = (.unchecked, none)) ∧
    ∀ a : Nat, s.slot.clock.isSome = true → c.arrival = .at a → prov = false →
      (s.firstRecord c = none → s.classify c prov = (.none, none)) ∧
      ∀ r, s.firstRecord c = some r →
        (r.slot = none → s.classify c prov = s.classOther a .walkIn) ∧
        ∀ d w, r.slot = some (d, w) →
          let diff := minuteDiff a (absMinute d (15 * w))
          s.classify c prov =
            if -(s.params.earlyTolerance : Int) ≤ diff ∧ diff < 15 + (s.params.lateTolerance : Int) then s.classOnTime d w
            else s.classOther a .reslotted) ∧
  (∀ (s : State) (d : BitVec 16) (n : Nat),
    (∀ p, s.windowPlace d n = some p → (s.windowAt p).isOpen = false) → s.classOnTime d n = (.closed, none)) ∧
  (∀ (s : State) (m : Nat) (result : SlotResult),
    (∀ p, s.windowPlace (dayOfMinute m) (windowOfMinute m) = some p → (s.windowAt p).isOpen = false) →
    s.classOther m result = (.missed, none)) ∧
  ∀ (s : State) (m : Nat) (result : SlotResult) (p : DayIx × Fin 96),
    s.windowPlace (dayOfMinute m) (windowOfMinute m) = some p → (s.windowAt p).isOpen = true →
    s.classOther m result =
      if (s.windowAt p).admitted + (s.windowAt p).reserved < (s.windowAt p).openLimit then
        (result, some (dayOfMinute m, windowOfMinute m))
      else (.missed, none)

/-! ### The check unit (chapter 7) -/

/-- R132: the seal result of a position whose booking is EXPORT_FULL: the first of OK for a value equal to a declared seal,
NEAR for one near a declared seal, OK for an unread field against an empty list, MISSING for an unread field against any
other list, and MISMATCH. A value is near a seal of the same length that differs in one place by a confusable pair. MISSING
and MISMATCH raise the seal reason, OK and NEAR do not; a NEAR is counted. R131, R133, R148: under EMPTY_RETURN a read field is
UNEXPECTED, which raises no reason, and an unread one OK; under the other kinds and without a record there is no seal result;
each result but OK is counted. -/
def Obligations.ExportSealsAreCompared : Prop :=
  let pairs : List (Byte × Byte) :=
    [(0x4F, 0x30), (0x49, 0x31), (0x42, 0x38), (0x53, 0x35), (0x5A, 0x32), (0x47, 0x36)]
  let near (v d : Text) : Prop :=
    ∃ before after a b, v = before ++ a :: after ∧ d = before ++ b :: after ∧ ((a, b) ∈ pairs ∨ (b, a) ∈ pairs)
  (∀ (declared : List Text) (v : Text),
    (v ∈ declared → exportSeal declared (some v) = .ok) ∧
    (v ∉ declared → (∃ d ∈ declared, near v d) → exportSeal declared (some v) = .near) ∧
    (v ∉ declared → (∀ d ∈ declared, ¬ near v d) → exportSeal declared (some v) = .mismatch) ∧
    (declared = [] → exportSeal declared none = .ok) ∧ (declared ≠ [] → exportSeal declared none = .missing)) ∧
  (∀ (s : State) (c : Ctx) (pos : Position) (r : Record), s.positionRecord c pos = some r → r.kind = .exportFull →
    s.sealOf c pos =
      some ⟨exportSeal r.seals (c.field (sealField pos)).readValue, (c.field (sealField pos)).readValue⟩) ∧
  (∀ (s : State) (c : Ctx) (pos : Position),
    let v := (c.field (sealField pos)).readValue
    (s.positionRecord c pos = none → s.sealOf c pos = none) ∧
    ∀ r, s.positionRecord c pos = some r →
      (r.kind = .emptyReturn → s.sealOf c pos = some ⟨if v.isSome then .unexpected else .ok, v⟩) ∧
      (r.kind = .importFull ∨ r.kind = .emptyPickup → s.sealOf c pos = none)) ∧
  (∀ (n : CheckCounters) (v : Option Text),
    sealFails (some ⟨.unexpected, v⟩) = false ∧ sealFails none = false ∧
    countSeal n (some ⟨.unexpected, v⟩) = { n with sealUnexpected := bump n.sealUnexpected } ∧
    countSeal n (some ⟨.missing, v⟩) = { n with sealMissing := bump n.sealMissing } ∧
    countSeal n (some ⟨.mismatch, v⟩) = { n with sealMismatch := bump n.sealMismatch } ∧
    countSeal n (some ⟨.ok, v⟩) = n ∧ countSeal n none = n) ∧
  (∀ (k : SealCheck), k.result ≠ .unexpected →
    (sealFails (some k) = true ↔ k.result = .missing ∨ k.result = .mismatch)) ∧
  ∀ (n : CheckCounters) (v : Option Text),
    countSeal n (some ⟨.near, v⟩) = { n with sealNear := bump n.sealNear }

/-- R140: the two tables of the transform, by the door end; a door end taken as DOORS_AFT uses the first. The kind and
severity are kept, and marks of one face at different places within the grid stay at different places. -/
def Obligations.TransformIsOneToOne : Prop :=
  (∀ (n : Nat) (m : RawMark),
    transform n false m =
      (match m.face with
      | .laneLeft => ⟨.left, n - 1 - m.column, m.row, m.kind, m.severity⟩
      | .laneRight => ⟨.right, n - 1 - m.column, m.row, m.kind, m.severity⟩
      | .top => ⟨.roof, n - 1 - m.column, m.row, m.kind, m.severity⟩
      | .rearEnd => ⟨.door, m.column, m.row, m.kind, m.severity⟩
      | .frontEnd => ⟨.front, m.column, m.row, m.kind, m.severity⟩) ∧
    transform n true m =
      (match m.face with
      | .laneLeft => ⟨.right, m.column, m.row, m.kind, m.severity⟩
      | .laneRight => ⟨.left, m.column, m.row, m.kind, m.severity⟩
      | .top => ⟨.roof, m.column, 2 - m.row, m.kind, m.severity⟩
      | .frontEnd => ⟨.door, 2 - m.column, m.row, m.kind, m.severity⟩
      | .rearEnd => ⟨.front, 2 - m.column, m.row, m.kind, m.severity⟩)) ∧
  (∀ (c : LengthClass) (r : Option Record), (geometry (some (c, .unknown)) r).fore = false ∧
    (geometry none r).fore = false) ∧
  ∀ (c : LengthClass) (fore : Bool) (a b : RawMark), a.face = b.face →
    let n := columnsOf c
    let within (m : RawMark) : Prop :=
      m.row ≤ 2 ∧ m.column ≤ (match m.face with | .laneLeft | .laneRight | .top => n - 1 | .frontEnd | .rearEnd => 2)
    within a → within b → (a.column, a.row) ≠ (b.column, b.row) →
    ((transform n fore a).column, (transform n fore a).row) ≠ ((transform n fore b).column, (transform n fore b).row)

/-! ### Decisions and destinations (chapter 8) -/

/-- R150, R151: the reasons of rows 1 to 8, each from its own condition, and the decision of the first row that holds. R152: a
visit is PROVISIONAL where row 1 does not hold, row 2 does, the server is LOST and the offline policy is PROVISIONAL. -/
def Obligations.DecisionTableByRows : Prop :=
  (∀ (s : State) (c : Ctx),
    let r := s.reasonsOf c
    let good (f : ConsField) : Prop := f.state = .settled ∨ f.state = .weak
    let units : Nat := (c.layout.map (·.units)).getD 0
    let record (l : Link) (x : Record) : Prop := l ∈ c.links ∧ s.linkRecord l = some x
    (r.identity = true ↔
      (¬ good c.plate ∧ ¬ good c.tag) ∨ (1 ≤ units ∧ ¬ good c.unitFwd) ∨ (2 ≤ units ∧ ¬ good c.unitAft) ∨
      (∃ f ∈ [c.plate, c.tag, c.unitFwd, c.unitAft, c.sealFwd, c.sealAft], f.state = .contested) ∨
      c.layout = none ∨ c.layoutConflict = true ∨ c.links = []) ∧
    (r.bookingUnavailable = true ↔ ∃ l ∈ c.links, l.state = .failed) ∧
    (r.noBooking = true ↔ (∃ l ∈ c.links, l.state = .noneFound) ∨ ∃ l x, record l x ∧ x.progress = .cancelled) ∧
    (r.hold = true ↔ ∃ l x, record l x ∧ (x.customsHold = true ∨ x.lineHold = true)) ∧
    (r.mismatch = true ↔ ∃ l x, record l x ∧ c.mismatch l x = true) ∧
    (r.exhausted = true ↔ ∃ l x g, record l x ∧ x.kind = .emptyPickup ∧ l.target = some g ∧
      x.remaining ≤ s.targetHeld g) ∧
    (r.slot = true ↔ c.slotResult = some .full ∨ c.slotResult = some .missed ∨ c.slotResult = some .closed) ∧
    (r.sealFail = true ↔ ∃ pos k, c.sealChecks.get pos = some k ∧ (k.result = .missing ∨ k.result = .mismatch)) ∧
    (r.damage = true ↔ ∃ pos k, c.damage.get pos = some k ∧ k.result = .inspect) ∧
    r.noDestination = false ∧ r.noRuling = false ∧
    (s.provisional c = true ↔ r.identity = false ∧ r.bookingUnavailable = true ∧ s.uplink.serverPresent = false ∧
      s.params.offlineProvisional = true)) ∧
  (∀ (c : Ctx) (l : Link) (r : Record),
    c.mismatch l r = true ↔
      (match l.source with
      | .kiosk => r.kind = .exportFull ∨ r.kind = .emptyReturn
      | .unitFwd => r.kind = .importFull ∨ r.kind = .emptyPickup ∨ ∃ x, c.layoutOf .fwd = some x ∧ x.1 ≠ r.length
      | .unitAft => r.kind = .importFull ∨ r.kind = .emptyPickup ∨ ∃ x, c.layoutOf .aft = some x ∧ x.1 ≠ r.length)) ∧
  ∀ (r : Reasons) (slot : Option SlotResult),
    State.decisionOf r slot =
      if r.identity ∨ r.bookingUnavailable then .refer
      else if r.noBooking then .turnOut
      else if r.hold ∨ r.mismatch then .refer
      else if r.exhausted then .turnOut
      else if r.slot then (if slot = some .closed then .refer else .turnOut)
      else if r.sealFail ∨ r.damage then .inspect
      else .admitted

/-- R155: the DESTINATION CHAIN. It ends with the first destination that can take the visit: OPEN, of another kind than YARD
or accepting the visit's booking kind or the visit has none, and with room; it passes to the alternate at most 4 times, and
ends with none where there is no alternate. R154: the chain of an ADMIT starts at the destination hint of the record of the
visit's first RESOLVED link, or, without a hint, at the default of the record's booking kind; a visit with no RESOLVED link has
none. The chain of an INSPECT starts at the default for it. -/
def Obligations.ChainFindsTheFirstThatCanTake : Prop :=
  (∀ (d : Dest) (kind : Option BookingKind),
    d.canTake kind = true ↔
      d.isOpen = true ∧
      (d.kind ≠ .yard ∨ kind = none ∨ (kind = some .exportFull ∧ d.acceptsExportFull = true) ∨
        (kind = some .emptyReturn ∧ d.acceptsEmptyReturn = true) ∨
        (kind = some .importFull ∧ d.acceptsImportFull = true) ∨
        (kind = some .emptyPickup ∧ d.acceptsEmptyPickup = true)) ∧
      (d.capacity = 0 ∨ d.inTransit < d.capacity)) ∧
  ∀ (s : State) (kind : Option BookingKind) (start : Fin 64) (c : Ctx),
    (∀ d, s.chain kind 4 start = some d ↔
      ∃ path : List (Fin 64), path.length ≤ 4 ∧ (s.destAt d).canTake kind = true ∧
        (∀ x ∈ path, (s.destAt x).canTake kind = false) ∧ (path ++ [d]).head? = some start ∧
        ∀ i x y, (path ++ [d])[i]? = some x → (path ++ [d])[i + 1]? = some y → (s.destAt x).alternate = some y) ∧
    s.findDest c .inspect = s.chain (s.bookingKind c) 4 s.dest.defaults[4] ∧
    (∀ (before after : List Link) (l : Link) (r : Record), c.links = before ++ l :: after →
      (∀ x ∈ before, s.linkRecord x = none) → s.linkRecord l = some r →
      s.bookingKind c = some r.kind ∧
      s.findDest c .admitted = s.chain (some r.kind) 4 (match r.hint, r.kind with
        | some x, _ => x
        | none, .exportFull => s.dest.defaults[0]
        | none, .emptyReturn => s.dest.defaults[1]
        | none, .importFull => s.dest.defaults[2]
        | none, .emptyPickup => s.dest.defaults[3])) ∧
    ((∀ l ∈ c.links, s.linkRecord l = none) → s.bookingKind c = none ∧ s.findDest c .admitted = none)

/-! ### Visits, tickets and requests (chapters 8 to 10) -/

/-- R160: an ARRIVED_AT for a visit with a transit entry removes the entry, frees its token, makes the reference of the
visit's context none and is answered OK; for any other visit it is counted and answered UNKNOWN_VISIT. -/
def Obligations.ArrivedAtFreesTheToken : Prop :=
  ∀ (h : GateHdr) (visit : BitVec 16) (s : State), Ready s →
    (∀ (before after : List TransitEntry) (e : TransitEntry), s.dest.transit = before ++ e :: after → e.visit = visit →
      (∀ x ∈ before ++ after, x.visit ≠ visit) →
      ∃ t, exec (.arrivedAt h visit) s = .next t ∧
        t = { s with
          pool := t.pool, uplink := answered s h 5 (okay false)
          dest := { s.dest with
            transit := before ++ after
            dests := upd s.dest.dests e.dest fun d => { d with inTransit := d.inTransit - 1 } } } ∧
        ∀ id : CtxId, t.ctx id =
          if (s.ctx id).state ≠ .free ∧ (s.ctx id).visit = visit then { s.ctx id with inTransit := false } else s.ctx id) ∧
    ((∀ e ∈ s.dest.transit, e.visit ≠ visit) →
      exec (.arrivedAt h visit) s = .next
        { s with
          uplink := answered s h 5 (only .unknownVisit)
          dest := { s.dest with counters := { s.dest.counters with
            arrivalsUnknown := bump s.dest.counters.arrivalsUnknown } } })

/-- R162 to R164: a VISIT_RULING, its conditions in their order. A ruling or an override outside its list is answered BAD_VALUE;
a visit no context holds UNKNOWN_VISIT; a context that is not REFERRED is DENIED with its state, and an ADMIT or INSPECT that
finds no destination is DENIED with NO_DESTINATION, both counted. Else the ruling is applied and counted: the context leaves
REFERRED with the decision and the override, or the destination of its chain; an ADMIT or INSPECT takes the token and transit
entry there (`Routed`), the units of its links (`UnitsTaken`), and its ticket is issued (`Ticketed`); a TURN_OUT gives back the
reservation with its place (`WindowReturned`, R128) and the units (`UnitsGivenBack`), and takes the token and transit entry at
its override, or where the chain from the trouble start finds a destination, and none where it finds none. By the model's choice
of log entry 8 the RESPONSE goes after a TRANSIT_DISPLACED of the same event. -/
def Obligations.RulingsAreAppliedInOrder : Prop :=
  ∀ (h : GateHdr) (visit : BitVec 16) (ruling dest : Byte) (s : State), Ready s →
    let denied (d : Detail) : State := { s with
      uplink := answered s h 4 { status := .denied, detail := d }
      dest := { s.dest with counters := { s.dest.counters with rulingsDenied := bump s.dest.counters.rulingsDenied } } }
    (2 < ruling.toNat ∨ (64 ≤ dest.toNat ∧ dest.toNat ≠ 255) →
      exec (.visitRuling h visit ruling dest) s = .next { s with uplink := answered s h 4 (only .badValue) }) ∧
    ∀ (d : Decision) (override : Option (Fin 64)), rulingOf ruling = some d → hintOf dest = some override →
      ((∀ id, (s.ctx id).state ≠ .free → (s.ctx id).visit ≠ visit) →
        exec (.visitRuling h visit ruling dest) s = .next { s with uplink := answered s h 4 (only .unknownVisit) }) ∧
      ∀ id : CtxId, (s.ctx id).visit = visit → (s.ctx id).state ≠ .free →
        (∀ j, (s.ctx j).state ≠ .free → (s.ctx j).visit = visit → j = id) →
        let c := s.ctx id
        let leaves (t : State) : Prop :=
          Responded t (response h 4 (okay false)) ∧ Configured s t ∧ t.lanes = s.lanes ∧
          t.dest.counters.rulingsApplied = bump s.dest.counters.rulingsApplied ∧
          (t.ctx id).decision = some d ∧ (t.ctx id).rulingTimer = none ∧ (t.ctx id).noticePending = false ∧
          (t.ctx id).decisionMinute = some s.now ∧ (t.ctx id).reasons = c.reasons ∧
          (t.ctx id).state = if s.reads c.lane .barrierDown then .releasing else .decided
        (c.state ≠ .referred → exec (.visitRuling h visit ruling dest) s = .next (denied (.state c.state))) ∧
        (c.state = .referred → d ≠ .turnOut → override = none → s.findDest c d = none →
          exec (.visitRuling h visit ruling dest) s = .next (denied .noDestination)) ∧
        (c.state = .referred → d ≠ .turnOut → ∀ x, override = some x ∨ (override = none ∧ s.findDest c d = some x) →
          ∃ t, exec (.visitRuling h visit ruling dest) s = .next t ∧ leaves t ∧ (t.ctx id).destination = some x ∧
            Routed s t id (some x) ∧ UnitsTaken s t id true ∧ Ticketed s t id ∧ (t.ctx id).reservation = c.reservation ∧
            ((t.ctx id).flags.overrideAdmission = true ↔
              c.flags.overrideAdmission = true ∨ (d = .admitted ∧ c.reservation = none))) ∧
        (c.state = .referred → d = .turnOut →
          let found := override.or (s.chain (s.bookingKind c) 4 s.dest.defaults[5])
          ∃ t, exec (.visitRuling h visit ruling dest) s = .next t ∧ leaves t ∧ (t.ctx id).reservation = none ∧
            (t.ctx id).destination = some (found.getD s.dest.defaults[5]) ∧
            Routed s t id found ∧ UnitsGivenBack s t id ∧ WindowReturned s t id)

/-- R174, R176: the expiry of a sign channel's acknowledge timer drops the page in flight, keeps it as the pending page where
none is held, and puts the channel in FAULT, counted, and reported where it was OK; the expiry of a ticket's timer removes the
ticket and is counted. Nothing else changes. By the model's choice of log entry 4 the command changes nothing for a stopped
timer or a ticket place that is empty. -/
def Obligations.AcknowledgeTimersExpire : Prop :=
  ∀ (seg : Seg) (addr : Addr) (s : State), s.resetHeld = false →
    let ix := stationIx seg addr
    let e := s.station ix
    ((∀ ch, e.channel = some ch → ch.timer = none) → exec (.signAckExpiry seg addr) s = .next s) ∧
    (∀ ch : SignChannel, e.channel = some ch → ch.timer.isSome = true →
      exec (.signAckExpiry seg addr) s = .next
        { s with
          stations := upd s.stations ix fun e => { e with channel := some { ch with
            inFlight := none, timer := none, fault := true
            waiting := if ch.waiting.isSome then ch.waiting else ch.inFlight.map (·.page) } }
          signs := { s.signs with counters := { s.signs.counters with signFaults := bump s.signs.counters.signFaults } }
          uplink := if ch.fault then s.uplink else classB s.uplink (.stationEvent ix .signFault none none) }) ∧
    ∀ place : Fin 2,
      ((∀ k, e.tickets[place.val]? = some k → k.timer = none) → exec (.ticketAckExpiry seg addr place) s = .next s) ∧
      ∀ k : Ticket, e.tickets[place.val]? = some k → k.timer.isSome = true →
        exec (.ticketAckExpiry seg addr place) s = .next
          { s with
            stations := upd s.stations ix fun e => { e with tickets := e.tickets.eraseIdx place }
            signs := { s.signs with counters := { s.signs.counters with
              ticketFaults := bump s.signs.counters.ticketFaults } } }

/-- R178, R179, R182: while 8 RESPONSEs are owed every request is dropped and counted, with its presence taken; a HEARTBEAT is
answered OK, an unknown kind BAD_KIND, counted, and a LANE_COMMAND or PART_COMMAND outside its list BAD_VALUE; a gate frame
that fails a test is counted by the first test that fails: protocol type and check sequence, node, length (R190). Nothing
else changes. By the model's choices: no command but POWER_ON has an effect while the reset input is held (log entry 22); an
unknown kind dropped while 8 RESPONSEs are owed is not counted as unknown (log entry 35); a frame of type 0x88B5 with fewer
than six header bytes is malformed (log entry 46); a TABLE_WRITE whose body does not name its table has no allowed length (log
entry 30); an Ethernet frame of fewer than 18 bytes, too short for a protocol type and a check sequence, is discarded and not
counted (log entry 53). -/
def Obligations.RequestsAreTakenOrDropped : Prop :=
  (∀ (c : Instr) (s : State), s.resetHeld = true → (∀ p h, c ≠ .powerOn p h) → exec c s = .next s) ∧
  (∀ (c : Instr) (h : GateHdr) (s : State), c.wf = true → requestOf c = some h → s.resetHeld = false →
    8 ≤ s.responsesOwed →
    exec c s = .next { s with uplink := { counted s with counters := { s.uplink.counters with
      requestsDropped := bump s.uplink.counters.requestsDropped } } }) ∧
  (∀ (h : GateHdr) (kind command : Byte) (s : State), Ready s →
    exec (.heartbeat h) s = .next { s with uplink := answered s h 0x0B (okay false) } ∧
    (isGateKind kind.toNat = false →
      exec (.gateFrameUnknownKind h kind) s = .next
        { s with
          uplink :=
            made { presence s h with counters := { s.uplink.counters with
              unknownKinds := bump s.uplink.counters.unknownKinds } } (response h kind (only .badKind)) }) ∧
    (3 < command.toNat →
      exec (.laneCommandBadValue h command) s = .next { s with uplink := answered s h 9 (only .badValue) } ∧
      exec (.partCommandBadValue h command) s = .next { s with uplink := answered s h 0x0A (only .badValue) })) ∧
  (∀ (bytes : List Byte) (s : State), s.resetHeld = false →
    (frameFate s.uplink.node bytes = .malformed →
      exec (.gateFrameDiscarded bytes) s = .next { s with uplink := { s.uplink with counters := { s.uplink.counters with
        malformed := bump s.uplink.counters.malformed } } }) ∧
    (frameFate s.uplink.node bytes = .foreign →
      exec (.gateFrameDiscarded bytes) s = .next { s with uplink := { s.uplink with counters := { s.uplink.counters with
        foreign := bump s.uplink.counters.foreign } } }) ∧
    (frameFate s.uplink.node bytes = .ignored → exec (.gateFrameDiscarded bytes) s = .next s)) ∧
  (∀ (node : Fin 16) (bytes : List Byte), bytes.length < 18 → frameFate node bytes = .ignored) ∧
  (∀ (node : Fin 16) (dst data tail : List Byte) (a b c d e f y z : Byte), dst.length = 6 → tail.length = 4 →
    let frame := dst ++ [a, b, c, d, e, f] ++ [y, z] ++ data
    let typed : Prop := y = 0x88 ∧ z = 0xB5
    let right : Prop := tail = fcsBytes frame
    let fate := frameFate node (frame ++ tail)
    (¬ typed → fate = .ignored) ∧ (typed → ¬ right → fate = .malformed) ∧
    (typed → right → data.length < 6 → fate = .malformed) ∧
    ∀ (n kind t1 t0 l1 l0 : Byte) (body : List Byte), data = n :: kind :: t1 :: t0 :: l1 :: l0 :: body →
      typed → right →
      let len := 256 * l1.toNat + l0.toNat
      let lengthFails : Prop := body.length < len ∨ (frame.length ≠ 60 ∧ body.length ≠ len) ∨
        lengthAllowed kind (body.take len) = false
      (n.toNat ≠ node.val → fate = .foreign) ∧ (n.toNat = node.val → lengthFails → fate = .malformed) ∧
      (n.toNat = node.val → ¬ lengthFails →
        fate = .valid (gateCommand ⟨a ++ b ++ c ++ d ++ e ++ f, t1 ++ t0⟩ kind (body.take len)))) ∧
  ∀ (kind : Byte) (body : List Byte),
    lengthAllowed kind body = true ↔
      (match kind.toNat with
      | 1 => body.length = 120
      | 2 | 3 => body.length = 11
      | 4 => body.length = 4
      | 5 => body.length = 2
      | 6 => ∃ table more, body = table :: more ∧ ∀ n, tableRecordSize table.toNat = some n → body.length = 3 + n
      | 7 => body.length = 3
      | 8 => body.length = 2
      | 9 | 10 => body.length = 5
      | 11 => body.length = 0
      | _ => True)

/-- R180, R182, R183: the expiry of the heartbeat timer and the loss of the link put a PRESENT server in LOST, with the timer
stopped and the loss counted; a link that comes up makes one PART_HELLO of cause LINK_UP. Nothing else changes. By the model's
choice of log entry 45 a PART_HELLO that waits for room shows the clock and the write policies of its making. -/
def Obligations.PresenceFollowsHeartbeatAndLink : Prop :=
  ∀ s : State, s.resetHeld = false →
    let lost (u : Uplink) : Uplink := { u with
      serverPresent := false, heartbeatTimer := none
      counters := { u.counters with serverLosses := bump u.counters.serverLosses } }
    (s.uplink.serverPresent = true → s.uplink.heartbeatTimer.isSome = true →
      exec .heartbeatExpiry s = .next { s with uplink := lost s.uplink }) ∧
    (s.uplink.linkUp = true →
      exec .uplinkLinkDown s = .next
        { s with uplink :=
          if s.uplink.serverPresent then { lost s.uplink with linkUp := false } else { s.uplink with linkUp := false } }) ∧
    (s.uplink.linkUp = false →
      exec .uplinkLinkUp s = .next
        { s with
          uplink := made { s.uplink with linkUp := true }
            (.partHello s.uplink.node .linkUp s.slot.clock s.params.writePolicy s.params.offlineProvisional) })

/-- R96, R180, R181: a report sent leaves the queue, and the first maker of the class A wait order takes its place: the uplink
port with its oldest owed report, a context with its REFER_NOTICE, whose acceptance starts the ruling timer (by the model's
choice of log entry 52 it shows the context as it then stands), or with its visit report, which frees it for the waiting lanes
(R44, `Granted`) and lets a lane in CLOSING that it was the last to leave enter CLOSED (R33, R61), with the LANE_EVENT of cause
CONTEXTS_DRAINED (`drained`), and the cache with its oldest owed report; a maker that owes more takes a new place at the end.
R94, R96, R102, R107, R108: each kind of report of the cache, with what its acceptance does: a castout's slot owes its fetch, a
fetch is outstanding with its timer, an entry owes nothing and is clean, a private copy owes nothing and is discarded where no
link names it, a recall's record leaves the recall table. R109, R111, R112: an unpinned entry under recall whose report is
accepted becomes INVALID, and with it, or with a recalled private copy so discarded, the recall ends (`recallEnded`). R95: with
one lookup waiting, the end of the recall, or the place freed, has it tried again, as `LookedUp` says, in the event of the
acceptance. By the model's choices: the retry stands last in the event (log entry 10), the lookup takes the lowest free slot and
place (log entry 7) and leaves the age marker at a hit under recall (log entry 41), and the recall ends with the last copy of
its own key (log entry 12). Stated where no other recall is about to be reported done. -/
def Obligations.ReportSentServesTheOldestWaiter : Prop :=
  ∀ (s : State) (r : QueuedReport) (rest : List QueuedReport), s.resetHeld = false → s.uplink.linkUp = true →
    s.uplink.queue = r :: rest →
    (s.uplink.waiters = [] → exec .reportSent s = .next { s with uplink := { s.uplink with queue := rest } }) ∧
    (∀ ws x more, s.uplink.waiters = .uplink :: ws → s.uplink.owed = x :: more →
      exec .reportSent s = .next
        { s with uplink := { s.uplink with
          queue := rest ++ [⟨x, none⟩], owed := more
          waiters := if more = [] ∨ .uplink ∈ ws then ws else ws ++ [.uplink] } }) ∧
    (∀ ws id, s.uplink.waiters = .referNotice id :: ws →
      exec .reportSent s = .next
        { s with
          uplink := { s.uplink with queue := rest ++ [⟨.referNotice (s.ctx id).report, none⟩], waiters := ws }
          pool := upd s.pool id fun c =>
            { c with noticePending := false, rulingTimer := some s.params.rulingDeadline } }) ∧
    (∀ ws id, s.uplink.waiters = .visitReport id :: ws →
      ∃ t, exec .reportSent s = .next t ∧ Configured s t ∧
        t.uplink = drained s id { s.uplink with
          queue := rest ++ [⟨.visitReport (s.ctx id).report, none⟩], waiters := ws } ∧
        Granted s t id ∧
        ((∀ l : LaneId, (s.lane l).pendingArrivals = 0) →
          (t.ctx id).state = .free ∧ id ∉ (t.lane (s.ctx id).lane).ctxs)) ∧
    ∀ ws o os, s.uplink.waiters = .cache :: ws → s.cache.sendOrder = o :: os →
      let turn (x : Report) (c : Cache) : State := { s with
        uplink := { s.uplink with
          queue := rest ++ [⟨x, none⟩], waiters := if os = [] ∨ .cache ∈ ws then ws else ws ++ [.cache] }
        cache := { c with sendOrder := os } }
      let becomes (i : Fin 1024) (y : Fin 2) (e : Entry) : Cache := { s.cache with
        sets := upd s.cache.sets i fun c => c.put y e }
      let retried (b : State) : Prop :=
        (s.cache.waitList = [] → exec .reportSent s = .next b) ∧
        ∀ (q : LinkRef) (l : Link), s.cache.waitList = [q] → s.link? q = some l → l.state = .pending →
          4 ≤ l.key.length → (s.ctx q.ctx).state = .lookup →
          ∃ v t, exec .reportSent s = .next t ∧ LookedUp b v q l.key [q] [] ∧ Concludes v t q.ctx
      (∀ i y x r, o = .update i y ∧ x = .bookingUpdate r ∨ o = .writeback i y ∧ x = .bookingWriteback r →
        let e := s.entry i y
        e.record = some r →
        (RecallsWait s → (e.mark = .pending → e.pins ≠ 0) →
          exec .reportSent s = .next (turn x (becomes i y { e with owed := .none, dirty := false }))) ∧
        ∀ key released, e.state = .valid → e.mark = .pending → e.pins = 0 → e.key = some key →
          s.cache.recalls = [⟨key, released, true, false⟩] → NoCopyRecalled s key →
          retried (recallEnded (turn x (becomes i y {})) key released)) ∧
      (∀ i f x, o = .castout i → s.cache.slots[i] = some f → f.castout = some x → RecallsWait s →
        exec .reportSent s = .next (turn (.bookingWriteback x) { s.cache with
          slots := s.cache.slots.set i (some { f with castout := none, phase := .fetchOwed }) })) ∧
      (∀ i f, o = .fetch i → s.cache.slots[i] = some f → RecallsWait s →
        exec .reportSent s = .next (turn (.bookingFetch f.key f.tag) { s.cache with
          slots := s.cache.slots.set i (some { f with phase := .sent, timer := some s.params.fetchTimeout }) })) ∧
      (∀ p c r, o = .copyUpdate p → s.cache.copies[p] = some c → c.record = some r →
        let left (d : Option PrivateCopy) : State :=
          turn (.bookingUpdate r) { s.cache with copies := s.cache.copies.set p d }
        (c.link.isSome = true → RecallsWait s → exec .reportSent s = .next (left (some { c with updateOwed := false }))) ∧
        (c.link = none → c.recalled = false → RecallsWait s → retried (left none)) ∧
        ∀ released, c.link = none → c.recalled = true → s.cache.recalls = [⟨c.key, released, false, false⟩] →
          (∀ q : Fin 48, q ≠ p → ∀ d ∈ s.cache.copies[q], d.key = c.key → d.recalled = false) →
          retried (recallEnded (left none) c.key released)) ∧
      (∀ key released, o = .recallDone key released → RecallsWait s →
        exec .reportSent s = .next (turn (.recallDone key released) { s.cache with
          recalls := s.cache.recalls.filter (·.key != key) })) ∧
      (o = .flushDone → RecallsWait s → exec .reportSent s = .next (turn .flushDone s.cache))

/-! ### Tables and lane commands (chapters 1, 2, 10) -/

/-- R10, R35, R172, R176: a write of a station map entry. An index beyond the map is answered BAD_INDEX, a code outside its list
or a FROZEN entry without identity BAD_VALUE, and nothing is changed. Else the entry takes the values written, lane and weight
clamped, MATCHED, its mismatch count at 0 and its tickets gone; an entry that was or becomes EMPTY is SILENT, any other keeps
its silence; its sequence record is NONE; a lane its console held is SUSPENDED, with one LANE_EVENT of cause CONSOLE_REWRITTEN
(R35, R37, `holdsEnded`; lanes in ascending order by the choice of log entry 50); no other entry's values change. R182: the
server is PRESENT. R171: where the entry becomes a SIGN the page of its lane is composed, and every SIGN of the lane, the new
one among them, comes to show it. R172: the new channel is OK and sends the page at once where its entry is ACTIVE, and in FAULT
with the page pending where it is SILENT. By the model's choices: an identity present byte above 1 is BAD_VALUE (log entry 18),
the LANE_EVENT of an ended hold goes before the RESPONSE (log entry 8), the entry is written before the hold ends and the page
is composed, and a write that gives a former SIGN entry another role, or state EMPTY, composes no page (log entry 37). -/
def Obligations.StationWriteRemakesTheEntry : Prop :=
  ∀ (h : GateHdr) (index : BitVec 16) (state idPresent : Byte) (identity : BitVec 32)
    (lane role zone weight forward : Byte) (s : State), Ready s →
    let c : Instr := .tableWriteStationMap h index state idPresent identity lane role zone weight forward
    (124 ≤ index.toNat → exec c s = .next { s with uplink := answered s h 6 (only .badIndex) }) ∧
    (index.toNat < 124 →
      2 < state.toNat ∨ 1 < idPresent.toNat ∨ 8 < role.toNat ∨ 1 < zone.toNat ∨ 1 < forward.toNat ∨
        (state.toNat = 2 ∧ idPresent.toNat = 0) →
      exec c s = .next { s with uplink := answered s h 6 (only .badValue) }) ∧
    ∀ (ix : StationIx) (st : MapState) (r : Role) (z : Zone) (present fwd : Bool), index.toNat = ix.val →
      mapStateOf state = some st → boolOf idPresent = some present → roleOf role = some r → zoneOf zone = some z →
      boolOf forward = some fwd → (st = .frozen → present = true) →
      let e := s.station ix
      let keeps : Prop := e.state ≠ .empty ∧ st ≠ .empty
      ∃ t, exec c s = .next t ∧
        t = { s with
          ports := t.ports, stations := t.stations, lanes := t.lanes
          uplink := made (holdsEnded s ix .consoleRewritten (presence s h))
            (response h 6 (okay (decide (15 < lane.toNat) || decide (8 < weight.toNat)))) } ∧
        (t.station ix).state = st ∧ (t.station ix).mismatched = false ∧ (t.station ix).role = r ∧
        (t.station ix).identity = (if st ≠ .empty ∧ present = true then some identity else none) ∧
        (t.station ix).lane.val = min lane.toNat 15 ∧ (t.station ix).weight = min weight.toNat 8 ∧
        (t.station ix).zone = z ∧ (t.station ix).forward = fwd ∧ (t.station ix).mismatchCount = 0 ∧
        (t.station ix).tickets = [] ∧
        (keeps → (t.station ix).silent = e.silent ∧ (t.station ix).silenceTimer = e.silenceTimer) ∧
        (¬ keeps → (t.station ix).silent = true ∧ (t.station ix).silenceTimer = none) ∧
        ((t.station ix).channel.isSome = true ↔ st ≠ .empty ∧ r = .sign) ∧
        (∀ ch, (t.station ix).channel = some ch →
          let page := t.page (t.station ix).lane
          ch.fault = (t.station ix).silent ∧ ch.lastAcked = none ∧
          ((t.station ix).silent = true → ch.inFlight = none ∧ ch.timer = none ∧ ch.waiting = some page) ∧
          ((t.station ix).silent = false →
            (∃ fl, ch.inFlight = some fl ∧ fl.page = page ∧ fl.upperMarked = false ∧ fl.lowerMarked = false) ∧
            ch.timer = some s.params.signAck ∧
            (¬ ((s.lane (t.station ix).lane).mode = .manual ∧ (s.lane (t.station ix).lane).holder = some ix) →
              ch.waiting = none))) ∧
        (t.port (segOf ix)).seqRecord = (s.port (segOf ix)).seqRecord.set (addrOf ix) none ∧
        (∀ j, j ≠ ix → t.station j = { s.station j with channel := (t.station j).channel }) ∧
        PagesOnly
          (fun g => if g = segOf ix then
              { s.port g with seqRecord := (s.port g).seqRecord.set (addrOf ix) none }
            else s.port g)
          (fun j => if j = ix then t.station ix else s.station j)
          (fun j => j = ix ∨ (st ≠ .empty ∧ r = .sign ∧ SignOf t (t.station ix).lane j) ∨
            ∃ l, (s.lane l).mode = .manual ∧ (s.lane l).holder = some ix ∧ SignOf t l j) t ∧
        (st ≠ .empty → r = .sign → ∀ j : StationIx, SignOf t (t.station ix).lane j →
          (j = ix ∨ ∃ ch, (s.station j).channel = some ch ∧ Orderly ch) →
          ∃ d, (t.station j).channel = some d ∧ shownPage d = some (t.page (t.station ix).lane)) ∧
        ∀ l : LaneId, t.lane l =
          if (s.lane l).mode = .manual ∧ (s.lane l).holder = some ix then
            { s.lane l with mode := .suspended, holder := none }
          else s.lane l

/-- R93, R120, R147, R153, R154: writes of the window, destination, default, weight and prefix tables: an index beyond the
table is answered BAD_INDEX, a code outside its list BAD_VALUE, a window under an UNSET clock or of another day DENIED; else
the record takes the values written, brought into their ranges, and keeps its counts. Nothing else changes. By the model's
choices a present byte above 1 is BAD_VALUE (log entry 18), the upper bits of the accepted kinds are ignored (log entry 19),
the characters of an absent range are not examined (log entry 28), and a window write with a state outside its list is BAD_VALUE
whatever the clock and the day (log entry 57). -/
def Obligations.PlainTableWrites : Prop :=
  ∀ (h : GateHdr) (index : BitVec 16) (s : State), Ready s →
    let answer (a : Answer) : State := { s with uplink := answered s h 6 a }
    (∀ (day : BitVec 16) (state capacity overbook share : Byte),
      let c : Instr := .tableWriteSlotWindows h index day state capacity overbook share
      (288 ≤ index.toNat → exec c s = .next (answer (only .badIndex))) ∧
      ∀ p : DayIx × Fin 96, windowIx index.toNat = some p →
        (1 < state.toNat → exec c s = .next (answer (only .badValue))) ∧
        (state.toNat ≤ 1 → s.slot.clock = none ∨ (s.dayTable p.1).day ≠ some day →
          exec c s = .next (answer (only .denied))) ∧
        (state.toNat ≤ 1 → s.slot.clock.isSome = true → (s.dayTable p.1).day = some day →
          exec c s = .next
            { s.updWindow p.1 p.2 (fun w => { w with
                isOpen := decide (state.toNat = 1), capacity := capacity.toNat
                overbook := min overbook.toNat 8, openShare := min share.toNat 8 }) with
              uplink := answered s h 6 (okay (decide (8 < overbook.toNat) || decide (8 < share.toNat))) })) ∧
    (∀ (kind state capacity accepts alternate phrase : Byte),
      let c : Instr := .tableWriteDestinations h index kind state capacity accepts alternate phrase
      (64 ≤ index.toNat → exec c s = .next (answer (only .badIndex))) ∧
      ∀ d : Fin 64, index.toNat = d.val →
        (2 < kind.toNat ∨ 1 < state.toNat ∨ (64 ≤ alternate.toNat ∧ alternate.toNat ≠ 255) →
          exec c s = .next (answer (only .badValue))) ∧
        ∀ (k : DestKind) (alt : Option (Fin 64)), destKindOf kind = some k → hintOf alternate = some alt →
          state.toNat ≤ 1 →
          exec c s = .next
            { s with
              uplink := answered s h 6 (okay (decide (63 < capacity.toNat)))
              dest := { s.dest with dests := upd s.dest.dests d fun x => { x with
                kind := k, isOpen := decide (state.toNat = 1), capacity := min capacity.toNat 63
                acceptsExportFull := accepts.getLsbD 0, acceptsEmptyReturn := accepts.getLsbD 1
                acceptsImportFull := accepts.getLsbD 2, acceptsEmptyPickup := accepts.getLsbD 3
                alternate := alt, phrase := phrase.toNat } } }) ∧
    (∀ value : Byte,
      (6 ≤ index.toNat → exec (.tableWriteDefaults h index value) s = .next (answer (only .badIndex))) ∧
      (5 ≤ index.toNat → exec (.tableWriteDamageWeights h index value) s = .next (answer (only .badIndex))) ∧
      (∀ i : Fin 6, index.toNat = i.val →
        exec (.tableWriteDefaults h index value) s = .next
          { s with
            uplink := answered s h 6 (okay (decide (63 < value.toNat)))
            dest := { s.dest with defaults := s.dest.defaults.set i ⟨min value.toNat 63, by omega⟩ } }) ∧
      ∀ i : Fin 5, index.toNat = i.val →
        exec (.tableWriteDamageWeights h index value) s = .next
          { s with
            uplink := answered s h 6 (okay (decide (15 < value.toNat)))
            check := { s.check with weights := s.check.weights.set i (min value.toNat 15) } }) ∧
    ∀ (present : Byte) (first last : Vector Byte 4),
      let c : Instr := .tableWriteUncachedPrefixes h index present first last
      (2 ≤ index.toNat → exec c s = .next (answer (only .badIndex))) ∧
      ∀ i : Fin 2, index.toNat = i.val →
        (1 < present.toNat ∨ (present.toNat = 1 ∧ (first.toList ++ last.toList).all isKeyChar = false) →
          exec c s = .next (answer (only .badValue))) ∧
        (present.toNat = 0 ∨ (present.toNat = 1 ∧ (first.toList ++ last.toList).all isKeyChar = true) →
          exec c s = .next
            { s with
              uplink := answered s h 6 (okay false)
              cache := { s.cache with
                uncached := s.cache.uncached.set i (if present.toNat = 0 then none else some ⟨first, last⟩) } })

/-- R25, R26, R167, R185, R186: writes of a phrase, of the transparency character, of a parameter, of a release edge
and of an input entry. A value outside its list is answered BAD_VALUE, a number is brought into its range, the clock's index
and those beyond the table are answered BAD_INDEX; a phrase and a transparency character show on the signs at once; an input
whose enable or polarity changes is re-armed, with the approach timers of its lane. The ranges of the numbers and the values of
the write policy, the offline policy and the unmapped policy are those of the list. By the model's choice of log entry 20 an
input re-armed with a filter time of 0 takes its level at the expiry that follows. -/
def Obligations.PhraseAndParameterWrites : Prop :=
  ∀ (h : GateHdr) (index value : BitVec 16) (third : Byte) (s : State), Ready s →
    let answer (a : Answer) : State := { s with uplink := answered s h 6 a }
    (∀ chars : Vector Byte 20,
      let good : Prop := ∀ b ∈ chars.toList, isTextChar b = true ∨ b = s.params.transparency
      (256 ≤ index.toNat → exec (.tableWritePhrases h index chars) s = .next (answer (only .badIndex))) ∧
      ∀ i : Fin 256, index.toNat = i.val →
        (¬ good → exec (.tableWritePhrases h index chars) s = .next (answer (only .badValue))) ∧
        (good → ∃ t, exec (.tableWritePhrases h index chars) s = .next t ∧
          t = { s with
            ports := t.ports, stations := t.stations, uplink := answered s h 6 (okay false)
            signs := { s.signs with phrases := s.signs.phrases.set i chars } } ∧
          PagesOnly s.port s.station (fun j => ∃ l, SignOf s l j) t ∧ ∀ l, Shows s t l)) ∧
    (let good : Prop := 0x21 ≤ value.toNat ∧ value.toNat ≤ 0x7E ∧ isKeyChar (value.setWidth 8) = false;
      (¬ good → exec (.tableWriteTransparency h value) s = .next (answer (only .badValue))) ∧
      (good → ∃ t, exec (.tableWriteTransparency h value) s = .next t ∧
        t = { s with
          ports := t.ports, stations := t.stations, uplink := answered s h 6 (okay false)
          params := { s.params with transparency := value.setWidth 8 } } ∧
        PagesOnly s.port s.station (fun j => ∃ l, SignOf s l j) t ∧ ∀ l, Shows s t l) ∧
      (index.toNat = 14 →
        exec (.tableWriteParameters h index value third) s = exec (.tableWriteTransparency h value) s)) ∧
    (index.toNat = 31 ∨ 112 ≤ index.toNat →
      exec (.tableWriteParameters h index value third) s = .next (answer (only .badIndex))) ∧
    (let n := value.toNat
      let numbers : List (Nat × Nat × Nat × (Params → Nat → Params)) :=
        [(0, 1, 255, fun p n => { p with identWindow := n }), (1, 10, 255, fun p n => { p with approachLimit := n }),
          (2, 1, 255, fun p n => { p with fetchTimeout := n }), (3, 5, 255, fun p n => { p with rulingDeadline := n }),
          (4, 1, 127, fun p n => { p with signAck := n }), (5, 1, 127, fun p n => { p with ticketAck := n }),
          (6, 1, 60, fun p n => { p with silenceLimit := n }), (7, 1, 60, fun p n => { p with heartbeat := n }),
          (8, 1, 255, fun p n => { p with transitTimeout := n }),
          (10, 0, 64, fun p n => { p with adaptiveThreshold := n }),
          (12, 0, 63, fun p n => { p with provisionalDest := ⟨min n 63, by omega⟩ }),
          (15, 0, 60, fun p n => { p with earlyTolerance := n }), (16, 0, 60, fun p n => { p with lateTolerance := n }),
          (17, 0, 255, fun p n => { p with recordThreshold := n }),
          (18, 0, 255, fun p n => { p with inspectThreshold := n })] ++
        [(19, 0, 255, fun p n => { p with segThreshold := p.segThreshold.set 0 n }),
          (20, 0, 255, fun p n => { p with segThreshold := p.segThreshold.set 1 n }),
          (21, 0, 255, fun p n => { p with segThreshold := p.segThreshold.set 2 n }),
          (22, 0, 255, fun p n => { p with segThreshold := p.segThreshold.set 3 n }),
          (23, 0, 1023, fun p n => { p with plateT := n }), (24, 0, 1023, fun p n => { p with plateM := n }),
          (25, 0, 1023, fun p n => { p with tagT := n }), (26, 0, 1023, fun p n => { p with tagM := n }),
          (27, 0, 1023, fun p n => { p with unitT := n }), (28, 0, 1023, fun p n => { p with unitM := n }),
          (29, 0, 1023, fun p n => { p with sealT := n }), (30, 0, 1023, fun p n => { p with sealM := n })]
      let listed : List (Nat × Nat × Params) :=
        [(9, 0, { s.params with writePolicy := .through }), (9, 1, { s.params with writePolicy := .back }),
          (9, 2, { s.params with writePolicy := .adaptive }), (11, 0, { s.params with offlineProvisional := false }),
          (11, 1, { s.params with offlineProvisional := true }), (13, 0, { s.params with passUnmapped := false }),
          (13, 1, { s.params with passUnmapped := true })]
      (∀ x ∈ numbers, index.toNat = x.1 →
        exec (.tableWriteParameters h index value third) s = .next
          { s with
            uplink := answered s h 6 (okay (decide (n < x.2.1 ∨ x.2.2.1 < n)))
            params := x.2.2.2 s.params (max x.2.1 (min n x.2.2.1)) }) ∧
      (∀ x ∈ listed, index.toNat = x.1 → n = x.2.1 →
        exec (.tableWriteParameters h index value third) s = .next
          { s with uplink := answered s h 6 (okay false), params := x.2.2 }) ∧
      (index.toNat = 9 ∧ 2 < n ∨ (index.toNat = 11 ∨ index.toNat = 13) ∧ 1 < n →
        exec (.tableWriteParameters h index value third) s = .next (answer (only .badValue)))) ∧
    (∀ (l : LaneId) (inp : Input), index.toNat = 32 + 5 * l.val + (inputIx inp).val →
      exec (.tableWriteParameters h index value third) s =
        exec (.tableWriteInputEntry h l inp (value.extractLsb' 8 8) (value.extractLsb' 0 8) third) s) ∧
    (∀ l : LaneId, index.toNat = 36 + 5 * l.val →
      (1 < value.toNat → exec (.tableWriteParameters h index value third) s = .next (answer (only .badValue))) ∧
      (value.toNat ≤ 1 →
        exec (.tableWriteParameters h index value third) s = .next
          { s with
            uplink := answered s h 6 (okay false)
            lanes := upd s.lanes l fun x => { x with exitOnEdge := decide (value.toNat = 0) } })) ∧
    ∀ (l : LaneId) (inp : Input) (enable polarity filter : Byte),
      let c : Instr := .tableWriteInputEntry h l inp enable polarity filter
      let i := s.input l inp
      let en : Bool := decide (enable.toNat = 1)
      let low : Bool := decide (polarity.toNat = 1)
      let a := answered s h 6 (okay (decide (15 < filter.toNat)))
      (1 < enable.toNat ∨ 1 < polarity.toNat → exec c s = .next (answer (only .badValue))) ∧
      (enable.toNat ≤ 1 → polarity.toNat ≤ 1 →
        (i.enabled = en → i.activeLow = low →
          exec c s = .next
            { s with
              uplink := a
              lanes := upd s.lanes l fun x => { x with
                inputs := upd x.inputs (inputIx inp) fun y => { y with filter := min filter.toNat 15 } } }) ∧
        (i.enabled ≠ en ∨ i.activeLow ≠ low →
          let t : State := { s with
            uplink := a
            lanes := upd s.lanes l fun x => { x with
              inputs := upd x.inputs (inputIx inp) fun y => { y with
                enabled := en, activeLow := low, filter := min filter.toNat 15, level := false
                timer := if en = true ∧ y.pin ≠ low then some (min filter.toNat 15) else none } } }
          ∃ u, exec c s = .next u ∧ u = { t with pool := u.pool } ∧
            ∀ id : CtxId, u.ctx id =
              if id ∈ (s.lane l).ctxs then { s.ctx id with approachTimer := approachOf t l (s.ctx id) } else s.ctx id))

/-- R178, R185, R187: a TABLE_WRITE by its table number is the write of that table, one of another length than its table's
is malformed, and one of a table that is not written is answered BAD_TABLE; a TABLE_READ gives the record at its index, or
BAD_TABLE or BAD_INDEX; a COUNTER_READ gives the counters of its group, each group those of its owner in the order of their rule,
and clears them where it says so, and nothing else changes; a group beyond the list is answered BAD_INDEX and a clear option beyond
off and on BAD_VALUE, BAD_INDEX where both hold, by the model's choice of log entry 55. Every TABLE_WRITE that
is taken is answered; one of a default destination, of a damage weight or of a destination writes its record. That the row
TABLE_WRITE acts by its table number is the model's choice of log entry 29. -/
def Obligations.TablesAndCountersByNumber : Prop :=
  (∀ (h : GateHdr) (table : Byte) (index : BitVec 16) (b : List Byte) (s : State),
    let x (i : Nat) : Byte := b.getD i 0
    (∀ n, s.resetHeld = false → tableRecordSize table.toNat = some n → b.length ≠ n →
      exec (.tableWrite h table index b) s = .next { s with uplink := { s.uplink with counters := { s.uplink.counters with
        malformed := bump s.uplink.counters.malformed } } }) ∧
    (table = 0 → b.length = 15 → exec (.tableWrite h table index b) s =
      exec (.tableWriteStationMap h index (x 0) (x 1) (x 2 ++ x 3 ++ x 4 ++ x 5) (x 6) (x 7) (x 8) (x 9) (x 10)) s) ∧
    (table = 1 → b.length = 13 → exec (.tableWrite h table index b) s =
      exec (.tableWriteSlotWindows h index (x 0 ++ x 1) (x 2) (x 3) (x 4) (x 5)) s) ∧
    (table = 2 → b.length = 8 → exec (.tableWrite h table index b) s =
      exec (.tableWriteDestinations h index (x 0) (x 1) (x 2) (x 3) (x 4) (x 5)) s) ∧
    (table = 3 → b.length = 1 → exec (.tableWrite h table index b) s = exec (.tableWriteDefaults h index (x 0)) s) ∧
    (table = 4 → b.length = 20 → exec (.tableWrite h table index b) s =
      exec (.tableWritePhrases h index (Vector.ofFn fun k => x k.val)) s) ∧
    (table = 5 → b.length = 1 → exec (.tableWrite h table index b) s =
      exec (.tableWriteDamageWeights h index (x 0)) s) ∧
    (table = 6 → b.length = 9 → exec (.tableWrite h table index b) s =
      exec (.tableWriteUncachedPrefixes h index (x 0) (Vector.ofFn fun k => x (1 + k.val))
        (Vector.ofFn fun k => x (5 + k.val))) s) ∧
    (table = 7 → b.length = 5 → exec (.tableWrite h table index b) s =
      exec (.tableWriteParameters h index (x 0 ++ x 1) (x 2)) s) ∧
    (7 < table.toNat → Ready s →
      exec (.tableWrite h table index b) s = .next { s with uplink := answered s h 6 (only .badTable) }) ∧
    (Ready s → (∀ n, tableRecordSize table.toNat = some n → b.length = n) →
      ∃ t a, exec (.tableWrite h table index b) s = .next t ∧ Responded t (response h 6 a) ∧
        t.pending = s.pending ∧ t.resetHeld = s.resetHeld ∧ t.visitCounter = s.visitCounter ∧
        t.slot.clock = s.slot.clock) ∧
    (∀ (i : Fin 6) (v : Byte), Ready s → table = 3 → index.toNat = i.val → b = [v] →
      exec (.tableWrite h table index b) s = .next
        { s with
          uplink := answered s h 6 (okay (decide (63 < v.toNat)))
          dest := { s.dest with defaults := s.dest.defaults.set i ⟨min v.toNat 63, by omega⟩ } }) ∧
    (∀ (i : Fin 5) (v : Byte), Ready s → table = 5 → index.toNat = i.val → b = [v] →
      exec (.tableWrite h table index b) s = .next
        { s with
          uplink := answered s h 6 (okay (decide (15 < v.toNat)))
          check := { s.check with weights := s.check.weights.set i (min v.toNat 15) } }) ∧
    ∀ (d : Fin 64) (kind state capacity accepts alternate phrase x y : Byte) (k : DestKind) (alt : Option (Fin 64)),
      Ready s → table = 2 → index.toNat = d.val → b = [kind, state, capacity, accepts, alternate, phrase, x, y] →
      destKindOf kind = some k → hintOf alternate = some alt → state.toNat ≤ 1 →
      exec (.tableWrite h table index b) s = .next
        { s with
          uplink := answered s h 6 (okay (decide (63 < capacity.toNat)))
          dest := { s.dest with dests := upd s.dest.dests d fun x => { x with
            kind := k, isOpen := decide (state.toNat = 1), capacity := min capacity.toNat 63
            acceptsExportFull := accepts.getLsbD 0, acceptsEmptyReturn := accepts.getLsbD 1
            acceptsImportFull := accepts.getLsbD 2, acceptsEmptyPickup := accepts.getLsbD 3
            alternate := alt, phrase := phrase.toNat } } }) ∧
  (∀ (h : GateHdr) (table : Byte) (index : BitVec 16) (s : State), Ready s →
    (10 < table.toNat →
      exec (.tableRead h table index) s = .next { s with uplink := answered s h 7 (only .badTable) }) ∧
    (table.toNat ≤ 10 → readTable s table.toNat index.toNat = none →
      exec (.tableRead h table index) s = .next { s with uplink := answered s h 7 (only .badIndex) }) ∧
    (∀ r, table.toNat ≤ 10 → readTable s table.toNat index.toNat = some r →
      exec (.tableRead h table index) s = .next
        { s with uplink := answered s h 7 { status := .ok, body := .record r } }) ∧
    (∀ ix : StationIx, readTable s 0 ix.val = some (.stationMap (s.station ix))) ∧
    (∀ d : Fin 64, readTable s 2 d.val = some (.destination (s.destAt d))) ∧
    (∀ id : CtxId, readTable s 8 id.val = some (.context (if (s.ctx id).state = .free then {} else s.ctx id))) ∧
    (∀ i : Fin 1024, readTable s 9 (2 * i.val) = some (.cacheEntry s.cache.sets[i].way0 s.cache.sets[i].age) ∧
      readTable s 9 (2 * i.val + 1) = some (.cacheEntry s.cache.sets[i].way1 s.cache.sets[i].age)) ∧
    (∀ n < 256, readTable s 10 n = some (.transit s.dest.transit[n]?)) ∧
    (∀ i : Fin 96,
      let shown (d : DayIx) : TableRecord :=
        let w := s.windowAt (d, i)
        .slotWindow (s.dayTable d).day w w.max w.openLimit
      readTable s 1 i.val = some (shown .yesterday) ∧ readTable s 1 (96 + i.val) = some (shown .today) ∧
      readTable s 1 (192 + i.val) = some (shown .tomorrow)) ∧
    (∀ i : Fin 6, readTable s 3 i.val = some (.number s.dest.defaults[i].val)) ∧
    (∀ n : Fin 256, readTable s 4 n.val = some (.phrase s.signs.phrases[n])) ∧
    (∀ i : Fin 5, readTable s 5 i.val = some (.number s.check.weights[i])) ∧
    (∀ i : Fin 2, readTable s 6 i.val = some (.keyRange s.cache.uncached[i])) ∧
    (let p := s.params
      let shown : List (Nat × Nat) :=
        [(0, p.identWindow), (1, p.approachLimit), (2, p.fetchTimeout), (3, p.rulingDeadline), (4, p.signAck),
          (5, p.ticketAck), (6, p.silenceLimit), (7, p.heartbeat), (8, p.transitTimeout),
          (9, match p.writePolicy with | .through => 0 | .back => 1 | .adaptive => 2), (10, p.adaptiveThreshold),
          (11, if p.offlineProvisional then 1 else 0), (12, p.provisionalDest.val),
          (13, if p.passUnmapped then 1 else 0), (14, p.transparency.toNat), (15, p.earlyTolerance)] ++
        [(16, p.lateTolerance), (17, p.recordThreshold), (18, p.inspectThreshold), (19, p.segThreshold[0]),
          (20, p.segThreshold[1]), (21, p.segThreshold[2]), (22, p.segThreshold[3]), (23, p.plateT), (24, p.plateM),
          (25, p.tagT), (26, p.tagM), (27, p.unitT), (28, p.unitM), (29, p.sealT), (30, p.sealM)]
      (∀ x ∈ shown, readTable s 7 x.1 = some (.parameter x.2)) ∧ readTable s 7 31 = some (.clock s.slot.clock) ∧
      ∀ l : LaneId,
        (∀ inp : Input, readTable s 7 (32 + 5 * l.val + (inputIx inp).val) =
          some (.inputEntry (s.input l inp).enabled (s.input l inp).activeLow (s.input l inp).filter)) ∧
        readTable s 7 (36 + 5 * l.val) = some (.parameter (if (s.lane l).exitOnEdge then 0 else 1)) ∧
        readTable s 8 (24 + l.val) = some (.lane {
          mode := (s.lane l).mode, holder := (s.lane l).holder, pendingArrivals := (s.lane l).pendingArrivals
          levels := [s.reads l .entry, s.reads l .position, s.reads l .exit, s.reads l .barrierDown]
          outputs := [((s.lane l).barrier.remote, s.driven l .barrier), ((s.lane l).go.remote, s.driven l .go),
            ((s.lane l).stop.remote, s.driven l .stop)] })) ∧
    ∀ x ∈ [(0, 124), (1, 288), (2, 64), (3, 6), (4, 256), (5, 5), (6, 2), (7, 112), (8, 40), (9, 2048), (10, 256)],
      ∀ n, x.2 ≤ n → readTable s x.1 n = none) ∧
  ∀ (h : GateHdr) (group clear : Byte) (s : State), Ready s →
    (25 < group.toNat →
      exec (.counterRead h group clear) s = .next { s with uplink := answered s h 8 (only .badIndex) }) ∧
    (group.toNat ≤ 25 → 1 < clear.toNat →
      exec (.counterRead h group clear) s = .next { s with uplink := answered s h 8 (only .badValue) }) ∧
    (group.toNat ≤ 25 → clear.toNat = 0 →
      exec (.counterRead h group clear) s = .next
        { s with uplink := answered s h 8 { status := .ok, body := .counters (s.counters group.toNat) } }) ∧
    (group.toNat ≤ 25 → clear.toNat = 1 →
      ∃ t, exec (.counterRead h group clear) s = .next t ∧
        Responded t (response h 8 { status := .ok, body := .counters (s.counters group.toNat) }) ∧
        (∀ k ∈ t.counters group.toNat, k = 0) ∧
        (∀ g, g ≤ 25 → g ≠ group.toNat → t.counters g = s.counters g) ∧
        t = { s with
          ports := t.ports, lanes := t.lanes
          cache := { s.cache with counters := t.cache.counters }, slot := { s.slot with counters := t.slot.counters }
          check := { s.check with counters := t.check.counters }, dest := { s.dest with counters := t.dest.counters }
          signs := { s.signs with counters := t.signs.counters }
          uplink := { answered s h 8 { status := .ok, body := .counters (s.counters group.toNat) } with
            counters := t.uplink.counters } } ∧
        (∀ g, t.port g = { s.port g with counters := (t.port g).counters }) ∧
        ∀ l, t.lane l = { s.lane l with counters := (t.lane l).counters }) ∧
    (∀ g : Seg, let k := (s.port g).counters
      s.counters g.val = [k.crcErrors, k.formatErrors, k.foreignFrames, k.overruns, k.duplicates, k.sequenceErrors,
        k.unmappedDropped, k.roleRefusals, k.transmitDrops]) ∧
    (∀ l : LaneId, let k := (s.lane l).counters
      s.counters (4 + l.val) = [k.refusedEntries, k.unauthorisedPasses, k.manualPasses, k.consoleRefusals, k.orphanReads,
        k.arrivalsLost, k.lateFrames, k.unitFormErrors]) ∧
    (let k := s.cache.counters;
      s.counters 20 = [k.hits, k.misses, k.fills, k.noneAnswers, k.fetchTimeouts, k.lateFills, k.badFills, k.castouts,
        k.castoutsLost, k.privateCopies, k.lockedDiscards, k.pickupOverruns, k.updatesLost, k.recalls, k.recallsDenied]) ∧
    (let k := s.slot.counters;
      s.counters 21 = [k.commitsLost, k.overridesLost, k.refusals, k.clockSets]) ∧
    (let k := s.check.counters;
      s.counters 22 = [k.sealNear, k.sealUnexpected, k.sealMissing, k.sealMismatch, k.marksIgnored, k.overflows, k.clamps,
        k.inspections]) ∧
    (let k := s.dest.counters;
      s.counters 23 = [k.transitExpired, k.transitDisplaced, k.arrivalsUnknown, k.tokensWithout, k.provisionals,
        k.noDestination, k.rulingsApplied, k.rulingsDenied, k.noRulingTurnOuts]) ∧
    (let k := s.signs.counters;
      s.counters 24 = [k.signFaults, k.straySignAcks, k.ticketsRefused, k.ticketFaults, k.strayTicketAcks]) ∧
    let k := s.uplink.counters
    s.counters 25 = [k.classBDrops, k.malformed, k.foreign, k.unknownKinds, k.requestsDropped, k.serverLosses]

/-- R29, R32, R33, R36, R58: the LANE_COMMANDs. OPEN and CLOSE move the mode, with one LANE_EVENT, are DENIED in MANUAL, and
change nothing where the lane already stands so; CLOSE of an OPEN lane that holds contexts is CLOSING, and leaving OPEN clears
the pending arrivals. OUTPUT_SET gives an output its source and, for REMOTE, its remote value. RESET clears the pending
arrivals and, with no room for their reports, every context of the lane stands in CLOSING, those not there before with the
outcome ABORTED. R60, R101, R128: the one context it aborts gives back what it holds in the shared records (`Released`: the
place of its window, its transit entry and token, the pins, units and waiting lookups of its links, its private copies and their
fetches); without room it stands in CLOSING as `ended` says, and with room its visit report is queued and it is freed and granted
(R61, `Granted`). A lane beyond the sixteen is answered BAD_INDEX. By the model's choice of log entry 8 the LANE_EVENT and the
visit report go before the RESPONSE, and by that of log entry 57 an OUTPUT_SET with a lane beyond the sixteen and a code outside
its list is BAD_INDEX. -/
def Obligations.LaneCommandsMoveTheLane : Prop :=
  ∀ (h : GateHdr) (lane output source value : Byte) (s : State), Ready s →
    (16 ≤ lane.toNat → ∀ c ∈ [Instr.laneCommandOpen h lane, .laneCommandClose h lane, .laneCommandReset h lane,
        .outputSet h lane output source value],
      exec c s = .next { s with uplink := answered s h 9 (only .badIndex) }) ∧
    ∀ l : LaneId, lane.toNat = l.val →
      let x := s.lane l
      let moved (t : State) (mode : LaneMode) : Prop :=
        t = { s with
          ports := t.ports, stations := t.stations
          lanes := upd s.lanes l fun x => { x with
            mode := mode, holder := none, pendingArrivals := if x.mode = .open then 0 else x.pendingArrivals }
          uplink := made (classB (presence s h) (.modeChange l x.mode mode .command none)) (response h 9 (okay false)) } ∧
        PagesOnly s.port s.station (SignOf s l) t
      (x.mode = .manual →
        exec (.laneCommandOpen h lane) s = .next { s with uplink := answered s h 9 (only .denied) } ∧
        exec (.laneCommandClose h lane) s = .next { s with uplink := answered s h 9 (only .denied) }) ∧
      (x.mode = .open →
        exec (.laneCommandOpen h lane) s = .next { s with uplink := answered s h 9 (okay false) } ∧
        ∃ t, exec (.laneCommandClose h lane) s = .next t ∧ moved t (if x.ctxs = [] then .closed else .closing)) ∧
      (x.mode = .closed ∨ x.mode = .closing →
        exec (.laneCommandClose h lane) s = .next { s with uplink := answered s h 9 (okay false) }) ∧
      (x.mode = .closed ∨ x.mode = .closing ∨ x.mode = .suspended →
        ∃ t, exec (.laneCommandOpen h lane) s = .next t ∧ moved t .open) ∧
      (x.mode = .suspended → ∃ t, exec (.laneCommandClose h lane) s = .next t ∧ moved t .closed) ∧
      (2 < output.toNat ∨ 1 < source.toNat ∨ 1 < value.toNat →
        exec (.outputSet h lane output source value) s = .next { s with uplink := answered s h 9 (only .badValue) }) ∧
      (∀ (o : Output) (remote v : Bool), outputOf output = some o → boolOf source = some remote →
        boolOf value = some v →
        exec (.outputSet h lane output source value) s = .next
          { s with
            uplink := answered s h 9 (okay false)
            lanes := upd s.lanes l fun x => x.updOutput o fun y =>
              { y with remote := remote, remoteValue := if remote then v else y.remoteValue } }) ∧
      (QueueFull s →
        ∃ t, exec (.laneCommandReset h lane) s = .next t ∧ Responded t (response h 9 (okay false)) ∧ Configured s t ∧
          t.lanes = upd s.lanes l (fun x => { x with pendingArrivals := 0 }) ∧
          ∀ id ∈ x.ctxs, (t.ctx id).state = .closing ∧
            ((s.ctx id).state ≠ .closing → (t.ctx id).outcome = some .aborted)) ∧
      ∀ id : CtxId, x.ctxs.filter (fun j => (s.ctx j).state != .closing) = [id] → (s.ctx id).lane = l → Abortable s id →
        (QueueFull s →
          ∃ t, exec (.laneCommandReset h lane) s = .next t ∧ Released s t id ∧ t.ctx id = ended (s.ctx id) .aborted ∧
            ∀ j, j ≠ id → t.ctx j = s.ctx j) ∧
        (s.uplink.queue.length < 64 → s.uplink.waiters = [] →
          let cleared : State := { s with lanes := upd s.lanes l fun x => { x with pendingArrivals := 0 } }
          let report : Report := .visitReport (ended (s.ctx id) .aborted).report
          ∃ t, exec (.laneCommandReset h lane) s = .next t ∧ Released s t id ∧ Configured s t ∧
            t.uplink = made (drained cleared id { presence s h with queue := s.uplink.queue ++ [⟨report, none⟩] })
              (response h 9 (okay false)) ∧
            Granted cleared t id)

/-! ### Resets (R188) -/

/-- R21, R22, R38, R64, R114, R130, R166, R177, R188: the resets. POWER_ON leaves the values of reset with the ports, lanes
and uplink as their pins show, and nothing queued and every output OFF while the reset input is held. RESET_ALL leaves what a
power-on with the pins as they stand leaves, but for the report queue: the RESPONSE OK to the command's address, a
PART_HELLO of cause RESET_ALL, the SEGMENT_EVENTs, and a LANE_EVENT of each lane that was not CLOSED. By the model's choice of
log entry 39 the SEGMENT_EVENTs stand in the order A, B, C, D and the LANE_EVENTs in ascending lane order. RESET_DYNAMIC keeps
the tables, the parameters, the clock, the counters, the visit counter and the VALID entries, and clears what is in motion; each
port is placed anew, each sign channel is OK or in FAULT as its station is ACTIVE or SILENT and is offered its lane's page, which
an OK channel sends at once; by the model's choice of log entry 43 the channels take their pages in station map order. R114: the
castouts and the updates discarded are counted. R166: the tokens of the transit entries removed are given back. -/
def Obligations.ResetsLeaveTheirValues : Prop :=
  (∀ (p : Pins) (held : Bool) (s : State), ∃ t, exec (.powerOn p held) s = .next t ∧
    t = { State.reset with
      ports := t.ports, lanes := t.lanes, resetHeld := held, pending := s.pending
      uplink := { Uplink.initial p.node p.linkUp with queue := if held then [] else powerOnQueue p } } ∧
    (∀ seg, t.port seg = SegPort.initial p.signal[seg]) ∧ (∀ l, t.lane l = LaneState.initial p.levels[l]) ∧
    (held = true → ∀ l o, t.driven l o = false)) ∧
  (∀ (h : GateHdr) (s : State), Ready s →
    let resp : Report := .response ⟨h.tag, 0x0A, .ok, .none, false, .none⟩
    ∃ u, exec (.powerOn s.pins false) s = .next u ∧
      exec (.resetAll h) s = .next { u with
        uplink := { u.uplink with
          queue :=
            [⟨resp, some h.src⟩, ⟨.partHello s.uplink.node .resetAll none .through false, none⟩] ++
            ((List.finRange 4).map fun seg =>
              ⟨.segmentEvent seg none (if (s.port seg).signal then .up else .down) 0, none⟩) ++
            (List.finRange 16).filterMap fun l =>
              if (s.lane l).mode = .closed then none
              else some ⟨.modeChange l (s.lane l).mode .closed .reset none, none⟩ } }) ∧
  ∀ (h : GateHdr) (s : State), Ready s →
    let resp : Report := .response ⟨h.tag, 0x0A, .ok, .none, false, .none⟩
    let mode (m : LaneMode) : LaneMode := match m with | .manual => .suspended | .closing => .closed | m => m
    ∃ t, exec (.resetDynamic h) s = .next t ∧
      t = { s with
        ports := t.ports, stations := t.stations, lanes := t.lanes, pool := t.pool, lastServed := 15, cache := t.cache
        slot := t.slot, dest := t.dest, uplink := t.uplink } ∧
      t.uplink = { presence s h with
        waiters := [], owed := []
        queue :=
          [⟨resp, none⟩, ⟨.partHello s.uplink.node .resetDynamic s.slot.clock s.params.writePolicy
            s.params.offlineProvisional, none⟩] ++
          ((List.finRange 4).map fun seg =>
            ⟨.segmentEvent seg none (if (s.port seg).signal then .up else .down) 0, none⟩) ++
          (List.finRange 16).filterMap fun l =>
            if (s.lane l).mode = mode (s.lane l).mode then none
            else some ⟨.modeChange l (s.lane l).mode (mode (s.lane l).mode) .reset none, none⟩ } ∧
      (∀ seg : Seg,
        let live := (s.port seg).signal
        let placed : SegPort :=
          { signal := live, state := if live then .up else .down, windowCount := 0, windowTimer := live
            rxQueue := [], txQueue := [], seqRecord := Vector.replicate 31 none, txSeq := Vector.replicate 31 0
            counters := (s.port seg).counters }
        let entry (a : Addr) : Station :=
          let e := s.station (stationIx seg a)
          let silent := e.silent || !live
          { e with
            silent := silent, silenceTimer := if silent then none else some s.params.silenceLimit
            channel := e.channel.map fun _ =>
              { fault := silent, inFlight := none, waiting := none, lastAcked := none, timer := none }
            tickets := [] }
        let shown (a : Addr) (p : SegPort) : SegPort × Station :=
          offered s.params.signAck a (t.page (entry a).lane) (p, entry a)
        let upTo (n : Nat) : SegPort := ((List.finRange 31).take n).foldl (fun p a => (shown a p).1) placed
        t.port seg = upTo 31 ∧ ∀ a : Addr, t.station (stationIx seg a) = (shown a (upTo a.val)).2) ∧
      (∀ l, t.lane l = { s.lane l with
        mode := mode (s.lane l).mode, holder := none, ctxs := [], front := none, pendingArrivals := 0 }) ∧
      (∀ id, t.ctx id = {}) ∧ (∀ i : Fin 1024, t.cache.sets[i].age = s.cache.sets[i].age) ∧
      (∀ i y, t.entry i y =
        if (s.entry i y).state = .valid then { s.entry i y with
          dirty := (s.entry i y).dirty || decide ((s.entry i y).owed ≠ .none), owed := .none, pins := 0, held := 0
          mark := .none }
        else {}) ∧
      (∀ i : Fin 16, t.cache.slots[i] = none) ∧ (∀ p : Fin 48, t.cache.copies[p] = none) ∧ t.cache.waitList = [] ∧
      t.cache.recalls = [] ∧ t.cache.sendOrder = [] ∧ t.cache.uncached = s.cache.uncached ∧
      t.cache.counters = { s.cache.counters with
        castoutsLost := bumpBy s.cache.counters.castoutsLost
          ((List.finRange 16).filter fun i => s.cache.slots[i].any (·.castout.isSome)).length
        updatesLost := bumpBy s.cache.counters.updatesLost
          ((List.finRange 48).filter fun i => s.cache.copies[i].any (·.updateOwed)).length } ∧
      (∀ i, (t.dayTable i).day = (s.dayTable i).day) ∧ t.slot.clock = s.slot.clock ∧ t.slot.counters = s.slot.counters ∧
      (∀ p, t.windowAt p = { s.windowAt p with reserved := 0 }) ∧
      t.dest.defaults = s.dest.defaults ∧ t.dest.counters = s.dest.counters ∧
      t.dest.transit = s.dest.transit.filter (·.expiry.isSome) ∧
      ∀ d, t.destAt d = { s.destAt d with
        inTransit := (s.destAt d).inTransit - (s.dest.transit.filter fun e => e.expiry.isNone && e.dest == d).length }

/-! ### Invariants of every step -/

/-- R2, R7, R180: every step keeps the receive queues to 16 frames, the transmit queues to 32 and the report queue to 64
reports. -/
def Obligations.QueuesStayBounded : Prop :=
  ∀ s t : State, QueuesBounded s → step s = .next t → QueuesBounded t

/-- R23: every step keeps the inputs whose enable is off at the read level INACTIVE with a stopped filter timer. -/
def Obligations.DisabledInputsStayQuiet : Prop :=
  ∀ s t : State, DisabledInputsQuiet s → step s = .next t → DisabledInputsQuiet t

/-- R34, R35, R40, R41: every step keeps every lane held by a console exactly in MANUAL, with at most two contexts and at
most 3 pending arrivals. -/
def Obligations.LanesStayInOrder : Prop :=
  ∀ s t : State, LanesInOrder s → step s = .next t → LanesInOrder t

/-- R153, R158, R161: every step keeps one transit entry a visit, at most 256 in all, and each destination's in-transit
count at the number of entries that name it. -/
def Obligations.TransitStaysCounted : Prop :=
  ∀ s t : State, TransitCounted s → step s = .next t → TransitCounted t

/-- The four invariants hold right after reset. -/
def Obligations.InvariantsHoldAtReset : Prop :=
  QueuesBounded State.reset ∧ DisabledInputsQuiet State.reset ∧ LanesInOrder State.reset ∧ TransitCounted State.reset

end Statements
end

