-- ==== Sys2Proof/Laws/State.lean ====
section
/-! SUPPORT. What each update of a record of State does to each field and to each record read back: simp lemmas, so that
no later proof unfolds a record update. -/

namespace Sys2Proof.Machine

/-! ### Tables of records -/

@[simp] theorem upd_getElem {α : Type} {n : Nat} (v : Vector α n) (i : Fin n) (f : α → α) (j : Nat) (h : j < n) :
    (upd v i f)[j] = if j = i.val then f (v[i.val]) else v[j] := by
  unfold upd
  rw [Vector.getElem_set]
  by_cases e : i.val = j
  · simp [e]
  · simp [e, Ne.symm e]

theorem upd_get {α : Type} {n : Nat} (v : Vector α n) (i j : Fin n) (f : α → α) :
    (upd v i f)[j] = if j = i then f v[i] else v[j] := by
  simp [Fin.ext_iff]

@[simp] theorem mapAll_getElem {α β : Type} {n : Nat} (v : Vector α n) (f : α → β) (j : Nat) (h : j < n) :
    (mapAll v f)[j] = f v[j] := by simp [mapAll, Vector.getElem_mk]

namespace State

/-! ### Updates, field by field -/

@[simp] theorem updPort_ports (s : State) (seg : Seg) (f : SegPort → SegPort) : (s.updPort seg f).ports = upd s.ports seg f := rfl
@[simp] theorem updPort_stations (s : State) (seg : Seg) (f : SegPort → SegPort) : (s.updPort seg f).stations = s.stations := rfl
@[simp] theorem updPort_lanes (s : State) (seg : Seg) (f : SegPort → SegPort) : (s.updPort seg f).lanes = s.lanes := rfl
@[simp] theorem updPort_pool (s : State) (seg : Seg) (f : SegPort → SegPort) : (s.updPort seg f).pool = s.pool := rfl
@[simp] theorem updPort_visitCounter (s : State) (seg : Seg) (f : SegPort → SegPort) : (s.updPort seg f).visitCounter = s.visitCounter := rfl
@[simp] theorem updPort_lastServed (s : State) (seg : Seg) (f : SegPort → SegPort) : (s.updPort seg f).lastServed = s.lastServed := rfl
@[simp] theorem updPort_cache (s : State) (seg : Seg) (f : SegPort → SegPort) : (s.updPort seg f).cache = s.cache := rfl
@[simp] theorem updPort_slot (s : State) (seg : Seg) (f : SegPort → SegPort) : (s.updPort seg f).slot = s.slot := rfl
@[simp] theorem updPort_check (s : State) (seg : Seg) (f : SegPort → SegPort) : (s.updPort seg f).check = s.check := rfl
@[simp] theorem updPort_dest (s : State) (seg : Seg) (f : SegPort → SegPort) : (s.updPort seg f).dest = s.dest := rfl
@[simp] theorem updPort_signs (s : State) (seg : Seg) (f : SegPort → SegPort) : (s.updPort seg f).signs = s.signs := rfl
@[simp] theorem updPort_uplink (s : State) (seg : Seg) (f : SegPort → SegPort) : (s.updPort seg f).uplink = s.uplink := rfl
@[simp] theorem updPort_params (s : State) (seg : Seg) (f : SegPort → SegPort) : (s.updPort seg f).params = s.params := rfl
@[simp] theorem updPort_resetHeld (s : State) (seg : Seg) (f : SegPort → SegPort) : (s.updPort seg f).resetHeld = s.resetHeld := rfl
@[simp] theorem updPort_pending (s : State) (seg : Seg) (f : SegPort → SegPort) : (s.updPort seg f).pending = s.pending := rfl

@[simp] theorem updStation_ports (s : State) (ix : StationIx) (f : Station → Station) : (s.updStation ix f).ports = s.ports := rfl
@[simp] theorem updStation_stations (s : State) (ix : StationIx) (f : Station → Station) : (s.updStation ix f).stations = upd s.stations ix f := rfl
@[simp] theorem updStation_lanes (s : State) (ix : StationIx) (f : Station → Station) : (s.updStation ix f).lanes = s.lanes := rfl
@[simp] theorem updStation_pool (s : State) (ix : StationIx) (f : Station → Station) : (s.updStation ix f).pool = s.pool := rfl
@[simp] theorem updStation_visitCounter (s : State) (ix : StationIx) (f : Station → Station) : (s.updStation ix f).visitCounter = s.visitCounter := rfl
@[simp] theorem updStation_lastServed (s : State) (ix : StationIx) (f : Station → Station) : (s.updStation ix f).lastServed = s.lastServed := rfl
@[simp] theorem updStation_cache (s : State) (ix : StationIx) (f : Station → Station) : (s.updStation ix f).cache = s.cache := rfl
@[simp] theorem updStation_slot (s : State) (ix : StationIx) (f : Station → Station) : (s.updStation ix f).slot = s.slot := rfl
@[simp] theorem updStation_check (s : State) (ix : StationIx) (f : Station → Station) : (s.updStation ix f).check = s.check := rfl
@[simp] theorem updStation_dest (s : State) (ix : StationIx) (f : Station → Station) : (s.updStation ix f).dest = s.dest := rfl
@[simp] theorem updStation_signs (s : State) (ix : StationIx) (f : Station → Station) : (s.updStation ix f).signs = s.signs := rfl
@[simp] theorem updStation_uplink (s : State) (ix : StationIx) (f : Station → Station) : (s.updStation ix f).uplink = s.uplink := rfl
@[simp] theorem updStation_params (s : State) (ix : StationIx) (f : Station → Station) : (s.updStation ix f).params = s.params := rfl
@[simp] theorem updStation_resetHeld (s : State) (ix : StationIx) (f : Station → Station) : (s.updStation ix f).resetHeld = s.resetHeld := rfl
@[simp] theorem updStation_pending (s : State) (ix : StationIx) (f : Station → Station) : (s.updStation ix f).pending = s.pending := rfl

@[simp] theorem updLane_ports (s : State) (l : LaneId) (f : LaneState → LaneState) : (s.updLane l f).ports = s.ports := rfl
@[simp] theorem updLane_stations (s : State) (l : LaneId) (f : LaneState → LaneState) : (s.updLane l f).stations = s.stations := rfl
@[simp] theorem updLane_lanes (s : State) (l : LaneId) (f : LaneState → LaneState) : (s.updLane l f).lanes = upd s.lanes l f := rfl
@[simp] theorem updLane_pool (s : State) (l : LaneId) (f : LaneState → LaneState) : (s.updLane l f).pool = s.pool := rfl
@[simp] theorem updLane_visitCounter (s : State) (l : LaneId) (f : LaneState → LaneState) : (s.updLane l f).visitCounter = s.visitCounter := rfl
@[simp] theorem updLane_lastServed (s : State) (l : LaneId) (f : LaneState → LaneState) : (s.updLane l f).lastServed = s.lastServed := rfl
@[simp] theorem updLane_cache (s : State) (l : LaneId) (f : LaneState → LaneState) : (s.updLane l f).cache = s.cache := rfl
@[simp] theorem updLane_slot (s : State) (l : LaneId) (f : LaneState → LaneState) : (s.updLane l f).slot = s.slot := rfl
@[simp] theorem updLane_check (s : State) (l : LaneId) (f : LaneState → LaneState) : (s.updLane l f).check = s.check := rfl
@[simp] theorem updLane_dest (s : State) (l : LaneId) (f : LaneState → LaneState) : (s.updLane l f).dest = s.dest := rfl
@[simp] theorem updLane_signs (s : State) (l : LaneId) (f : LaneState → LaneState) : (s.updLane l f).signs = s.signs := rfl
@[simp] theorem updLane_uplink (s : State) (l : LaneId) (f : LaneState → LaneState) : (s.updLane l f).uplink = s.uplink := rfl
@[simp] theorem updLane_params (s : State) (l : LaneId) (f : LaneState → LaneState) : (s.updLane l f).params = s.params := rfl
@[simp] theorem updLane_resetHeld (s : State) (l : LaneId) (f : LaneState → LaneState) : (s.updLane l f).resetHeld = s.resetHeld := rfl
@[simp] theorem updLane_pending (s : State) (l : LaneId) (f : LaneState → LaneState) : (s.updLane l f).pending = s.pending := rfl

@[simp] theorem updCtx_ports (s : State) (c : CtxId) (f : Ctx → Ctx) : (s.updCtx c f).ports = s.ports := rfl
@[simp] theorem updCtx_stations (s : State) (c : CtxId) (f : Ctx → Ctx) : (s.updCtx c f).stations = s.stations := rfl
@[simp] theorem updCtx_lanes (s : State) (c : CtxId) (f : Ctx → Ctx) : (s.updCtx c f).lanes = s.lanes := rfl
@[simp] theorem updCtx_pool (s : State) (c : CtxId) (f : Ctx → Ctx) : (s.updCtx c f).pool = upd s.pool c f := rfl
@[simp] theorem updCtx_visitCounter (s : State) (c : CtxId) (f : Ctx → Ctx) : (s.updCtx c f).visitCounter = s.visitCounter := rfl
@[simp] theorem updCtx_lastServed (s : State) (c : CtxId) (f : Ctx → Ctx) : (s.updCtx c f).lastServed = s.lastServed := rfl
@[simp] theorem updCtx_cache (s : State) (c : CtxId) (f : Ctx → Ctx) : (s.updCtx c f).cache = s.cache := rfl
@[simp] theorem updCtx_slot (s : State) (c : CtxId) (f : Ctx → Ctx) : (s.updCtx c f).slot = s.slot := rfl
@[simp] theorem updCtx_check (s : State) (c : CtxId) (f : Ctx → Ctx) : (s.updCtx c f).check = s.check := rfl
@[simp] theorem updCtx_dest (s : State) (c : CtxId) (f : Ctx → Ctx) : (s.updCtx c f).dest = s.dest := rfl
@[simp] theorem updCtx_signs (s : State) (c : CtxId) (f : Ctx → Ctx) : (s.updCtx c f).signs = s.signs := rfl
@[simp] theorem updCtx_uplink (s : State) (c : CtxId) (f : Ctx → Ctx) : (s.updCtx c f).uplink = s.uplink := rfl
@[simp] theorem updCtx_params (s : State) (c : CtxId) (f : Ctx → Ctx) : (s.updCtx c f).params = s.params := rfl
@[simp] theorem updCtx_resetHeld (s : State) (c : CtxId) (f : Ctx → Ctx) : (s.updCtx c f).resetHeld = s.resetHeld := rfl
@[simp] theorem updCtx_pending (s : State) (c : CtxId) (f : Ctx → Ctx) : (s.updCtx c f).pending = s.pending := rfl

@[simp] theorem updCache_ports (s : State) (f : Cache → Cache) : (s.updCache f).ports = s.ports := rfl
@[simp] theorem updCache_stations (s : State) (f : Cache → Cache) : (s.updCache f).stations = s.stations := rfl
@[simp] theorem updCache_lanes (s : State) (f : Cache → Cache) : (s.updCache f).lanes = s.lanes := rfl
@[simp] theorem updCache_pool (s : State) (f : Cache → Cache) : (s.updCache f).pool = s.pool := rfl
@[simp] theorem updCache_visitCounter (s : State) (f : Cache → Cache) : (s.updCache f).visitCounter = s.visitCounter := rfl
@[simp] theorem updCache_lastServed (s : State) (f : Cache → Cache) : (s.updCache f).lastServed = s.lastServed := rfl
@[simp] theorem updCache_cache (s : State) (f : Cache → Cache) : (s.updCache f).cache = f s.cache := rfl
@[simp] theorem updCache_slot (s : State) (f : Cache → Cache) : (s.updCache f).slot = s.slot := rfl
@[simp] theorem updCache_check (s : State) (f : Cache → Cache) : (s.updCache f).check = s.check := rfl
@[simp] theorem updCache_dest (s : State) (f : Cache → Cache) : (s.updCache f).dest = s.dest := rfl
@[simp] theorem updCache_signs (s : State) (f : Cache → Cache) : (s.updCache f).signs = s.signs := rfl
@[simp] theorem updCache_uplink (s : State) (f : Cache → Cache) : (s.updCache f).uplink = s.uplink := rfl
@[simp] theorem updCache_params (s : State) (f : Cache → Cache) : (s.updCache f).params = s.params := rfl
@[simp] theorem updCache_resetHeld (s : State) (f : Cache → Cache) : (s.updCache f).resetHeld = s.resetHeld := rfl
@[simp] theorem updCache_pending (s : State) (f : Cache → Cache) : (s.updCache f).pending = s.pending := rfl

@[simp] theorem updSlot_ports (s : State) (f : SlotUnit → SlotUnit) : (s.updSlot f).ports = s.ports := rfl
@[simp] theorem updSlot_stations (s : State) (f : SlotUnit → SlotUnit) : (s.updSlot f).stations = s.stations := rfl
@[simp] theorem updSlot_lanes (s : State) (f : SlotUnit → SlotUnit) : (s.updSlot f).lanes = s.lanes := rfl
@[simp] theorem updSlot_pool (s : State) (f : SlotUnit → SlotUnit) : (s.updSlot f).pool = s.pool := rfl
@[simp] theorem updSlot_visitCounter (s : State) (f : SlotUnit → SlotUnit) : (s.updSlot f).visitCounter = s.visitCounter := rfl
@[simp] theorem updSlot_lastServed (s : State) (f : SlotUnit → SlotUnit) : (s.updSlot f).lastServed = s.lastServed := rfl
@[simp] theorem updSlot_cache (s : State) (f : SlotUnit → SlotUnit) : (s.updSlot f).cache = s.cache := rfl
@[simp] theorem updSlot_slot (s : State) (f : SlotUnit → SlotUnit) : (s.updSlot f).slot = f s.slot := rfl
@[simp] theorem updSlot_check (s : State) (f : SlotUnit → SlotUnit) : (s.updSlot f).check = s.check := rfl
@[simp] theorem updSlot_dest (s : State) (f : SlotUnit → SlotUnit) : (s.updSlot f).dest = s.dest := rfl
@[simp] theorem updSlot_signs (s : State) (f : SlotUnit → SlotUnit) : (s.updSlot f).signs = s.signs := rfl
@[simp] theorem updSlot_uplink (s : State) (f : SlotUnit → SlotUnit) : (s.updSlot f).uplink = s.uplink := rfl
@[simp] theorem updSlot_params (s : State) (f : SlotUnit → SlotUnit) : (s.updSlot f).params = s.params := rfl
@[simp] theorem updSlot_resetHeld (s : State) (f : SlotUnit → SlotUnit) : (s.updSlot f).resetHeld = s.resetHeld := rfl
@[simp] theorem updSlot_pending (s : State) (f : SlotUnit → SlotUnit) : (s.updSlot f).pending = s.pending := rfl

@[simp] theorem updCheck_ports (s : State) (f : CheckUnit → CheckUnit) : (s.updCheck f).ports = s.ports := rfl
@[simp] theorem updCheck_stations (s : State) (f : CheckUnit → CheckUnit) : (s.updCheck f).stations = s.stations := rfl
@[simp] theorem updCheck_lanes (s : State) (f : CheckUnit → CheckUnit) : (s.updCheck f).lanes = s.lanes := rfl
@[simp] theorem updCheck_pool (s : State) (f : CheckUnit → CheckUnit) : (s.updCheck f).pool = s.pool := rfl
@[simp] theorem updCheck_visitCounter (s : State) (f : CheckUnit → CheckUnit) : (s.updCheck f).visitCounter = s.visitCounter := rfl
@[simp] theorem updCheck_lastServed (s : State) (f : CheckUnit → CheckUnit) : (s.updCheck f).lastServed = s.lastServed := rfl
@[simp] theorem updCheck_cache (s : State) (f : CheckUnit → CheckUnit) : (s.updCheck f).cache = s.cache := rfl
@[simp] theorem updCheck_slot (s : State) (f : CheckUnit → CheckUnit) : (s.updCheck f).slot = s.slot := rfl
@[simp] theorem updCheck_check (s : State) (f : CheckUnit → CheckUnit) : (s.updCheck f).check = f s.check := rfl
@[simp] theorem updCheck_dest (s : State) (f : CheckUnit → CheckUnit) : (s.updCheck f).dest = s.dest := rfl
@[simp] theorem updCheck_signs (s : State) (f : CheckUnit → CheckUnit) : (s.updCheck f).signs = s.signs := rfl
@[simp] theorem updCheck_uplink (s : State) (f : CheckUnit → CheckUnit) : (s.updCheck f).uplink = s.uplink := rfl
@[simp] theorem updCheck_params (s : State) (f : CheckUnit → CheckUnit) : (s.updCheck f).params = s.params := rfl
@[simp] theorem updCheck_resetHeld (s : State) (f : CheckUnit → CheckUnit) : (s.updCheck f).resetHeld = s.resetHeld := rfl
@[simp] theorem updCheck_pending (s : State) (f : CheckUnit → CheckUnit) : (s.updCheck f).pending = s.pending := rfl

@[simp] theorem updDest_ports (s : State) (f : DestUnit → DestUnit) : (s.updDest f).ports = s.ports := rfl
@[simp] theorem updDest_stations (s : State) (f : DestUnit → DestUnit) : (s.updDest f).stations = s.stations := rfl
@[simp] theorem updDest_lanes (s : State) (f : DestUnit → DestUnit) : (s.updDest f).lanes = s.lanes := rfl
@[simp] theorem updDest_pool (s : State) (f : DestUnit → DestUnit) : (s.updDest f).pool = s.pool := rfl
@[simp] theorem updDest_visitCounter (s : State) (f : DestUnit → DestUnit) : (s.updDest f).visitCounter = s.visitCounter := rfl
@[simp] theorem updDest_lastServed (s : State) (f : DestUnit → DestUnit) : (s.updDest f).lastServed = s.lastServed := rfl
@[simp] theorem updDest_cache (s : State) (f : DestUnit → DestUnit) : (s.updDest f).cache = s.cache := rfl
@[simp] theorem updDest_slot (s : State) (f : DestUnit → DestUnit) : (s.updDest f).slot = s.slot := rfl
@[simp] theorem updDest_check (s : State) (f : DestUnit → DestUnit) : (s.updDest f).check = s.check := rfl
@[simp] theorem updDest_dest (s : State) (f : DestUnit → DestUnit) : (s.updDest f).dest = f s.dest := rfl
@[simp] theorem updDest_signs (s : State) (f : DestUnit → DestUnit) : (s.updDest f).signs = s.signs := rfl
@[simp] theorem updDest_uplink (s : State) (f : DestUnit → DestUnit) : (s.updDest f).uplink = s.uplink := rfl
@[simp] theorem updDest_params (s : State) (f : DestUnit → DestUnit) : (s.updDest f).params = s.params := rfl
@[simp] theorem updDest_resetHeld (s : State) (f : DestUnit → DestUnit) : (s.updDest f).resetHeld = s.resetHeld := rfl
@[simp] theorem updDest_pending (s : State) (f : DestUnit → DestUnit) : (s.updDest f).pending = s.pending := rfl

@[simp] theorem updSigns_ports (s : State) (f : SignUnit → SignUnit) : (s.updSigns f).ports = s.ports := rfl
@[simp] theorem updSigns_stations (s : State) (f : SignUnit → SignUnit) : (s.updSigns f).stations = s.stations := rfl
@[simp] theorem updSigns_lanes (s : State) (f : SignUnit → SignUnit) : (s.updSigns f).lanes = s.lanes := rfl
@[simp] theorem updSigns_pool (s : State) (f : SignUnit → SignUnit) : (s.updSigns f).pool = s.pool := rfl
@[simp] theorem updSigns_visitCounter (s : State) (f : SignUnit → SignUnit) : (s.updSigns f).visitCounter = s.visitCounter := rfl
@[simp] theorem updSigns_lastServed (s : State) (f : SignUnit → SignUnit) : (s.updSigns f).lastServed = s.lastServed := rfl
@[simp] theorem updSigns_cache (s : State) (f : SignUnit → SignUnit) : (s.updSigns f).cache = s.cache := rfl
@[simp] theorem updSigns_slot (s : State) (f : SignUnit → SignUnit) : (s.updSigns f).slot = s.slot := rfl
@[simp] theorem updSigns_check (s : State) (f : SignUnit → SignUnit) : (s.updSigns f).check = s.check := rfl
@[simp] theorem updSigns_dest (s : State) (f : SignUnit → SignUnit) : (s.updSigns f).dest = s.dest := rfl
@[simp] theorem updSigns_signs (s : State) (f : SignUnit → SignUnit) : (s.updSigns f).signs = f s.signs := rfl
@[simp] theorem updSigns_uplink (s : State) (f : SignUnit → SignUnit) : (s.updSigns f).uplink = s.uplink := rfl
@[simp] theorem updSigns_params (s : State) (f : SignUnit → SignUnit) : (s.updSigns f).params = s.params := rfl
@[simp] theorem updSigns_resetHeld (s : State) (f : SignUnit → SignUnit) : (s.updSigns f).resetHeld = s.resetHeld := rfl
@[simp] theorem updSigns_pending (s : State) (f : SignUnit → SignUnit) : (s.updSigns f).pending = s.pending := rfl

@[simp] theorem updUplink_ports (s : State) (f : Uplink → Uplink) : (s.updUplink f).ports = s.ports := rfl
@[simp] theorem updUplink_stations (s : State) (f : Uplink → Uplink) : (s.updUplink f).stations = s.stations := rfl
@[simp] theorem updUplink_lanes (s : State) (f : Uplink → Uplink) : (s.updUplink f).lanes = s.lanes := rfl
@[simp] theorem updUplink_pool (s : State) (f : Uplink → Uplink) : (s.updUplink f).pool = s.pool := rfl
@[simp] theorem updUplink_visitCounter (s : State) (f : Uplink → Uplink) : (s.updUplink f).visitCounter = s.visitCounter := rfl
@[simp] theorem updUplink_lastServed (s : State) (f : Uplink → Uplink) : (s.updUplink f).lastServed = s.lastServed := rfl
@[simp] theorem updUplink_cache (s : State) (f : Uplink → Uplink) : (s.updUplink f).cache = s.cache := rfl
@[simp] theorem updUplink_slot (s : State) (f : Uplink → Uplink) : (s.updUplink f).slot = s.slot := rfl
@[simp] theorem updUplink_check (s : State) (f : Uplink → Uplink) : (s.updUplink f).check = s.check := rfl
@[simp] theorem updUplink_dest (s : State) (f : Uplink → Uplink) : (s.updUplink f).dest = s.dest := rfl
@[simp] theorem updUplink_signs (s : State) (f : Uplink → Uplink) : (s.updUplink f).signs = s.signs := rfl
@[simp] theorem updUplink_uplink (s : State) (f : Uplink → Uplink) : (s.updUplink f).uplink = f s.uplink := rfl
@[simp] theorem updUplink_params (s : State) (f : Uplink → Uplink) : (s.updUplink f).params = s.params := rfl
@[simp] theorem updUplink_resetHeld (s : State) (f : Uplink → Uplink) : (s.updUplink f).resetHeld = s.resetHeld := rfl
@[simp] theorem updUplink_pending (s : State) (f : Uplink → Uplink) : (s.updUplink f).pending = s.pending := rfl

@[simp] theorem updParams_ports (s : State) (f : Params → Params) : (s.updParams f).ports = s.ports := rfl
@[simp] theorem updParams_stations (s : State) (f : Params → Params) : (s.updParams f).stations = s.stations := rfl
@[simp] theorem updParams_lanes (s : State) (f : Params → Params) : (s.updParams f).lanes = s.lanes := rfl
@[simp] theorem updParams_pool (s : State) (f : Params → Params) : (s.updParams f).pool = s.pool := rfl
@[simp] theorem updParams_visitCounter (s : State) (f : Params → Params) : (s.updParams f).visitCounter = s.visitCounter := rfl
@[simp] theorem updParams_lastServed (s : State) (f : Params → Params) : (s.updParams f).lastServed = s.lastServed := rfl
@[simp] theorem updParams_cache (s : State) (f : Params → Params) : (s.updParams f).cache = s.cache := rfl
@[simp] theorem updParams_slot (s : State) (f : Params → Params) : (s.updParams f).slot = s.slot := rfl
@[simp] theorem updParams_check (s : State) (f : Params → Params) : (s.updParams f).check = s.check := rfl
@[simp] theorem updParams_dest (s : State) (f : Params → Params) : (s.updParams f).dest = s.dest := rfl
@[simp] theorem updParams_signs (s : State) (f : Params → Params) : (s.updParams f).signs = s.signs := rfl
@[simp] theorem updParams_uplink (s : State) (f : Params → Params) : (s.updParams f).uplink = s.uplink := rfl
@[simp] theorem updParams_params (s : State) (f : Params → Params) : (s.updParams f).params = f s.params := rfl
@[simp] theorem updParams_resetHeld (s : State) (f : Params → Params) : (s.updParams f).resetHeld = s.resetHeld := rfl
@[simp] theorem updParams_pending (s : State) (f : Params → Params) : (s.updParams f).pending = s.pending := rfl

/-! ### Updates, read back -/

@[simp] theorem port_updPort (s : State) (seg : Seg) (f : SegPort → SegPort) (g : Seg) :
    (s.updPort seg f).port g = if g = seg then f (s.port seg) else s.port g :=
  upd_get _ _ _ _
@[simp] theorem port_updStation (s : State) (ix : StationIx) (f : Station → Station) (g : Seg) : (s.updStation ix f).port g = s.port g := rfl
@[simp] theorem port_updLane (s : State) (l : LaneId) (f : LaneState → LaneState) (g : Seg) : (s.updLane l f).port g = s.port g := rfl
@[simp] theorem port_updCtx (s : State) (c : CtxId) (f : Ctx → Ctx) (g : Seg) : (s.updCtx c f).port g = s.port g := rfl
@[simp] theorem port_updCache (s : State) (f : Cache → Cache) (g : Seg) : (s.updCache f).port g = s.port g := rfl
@[simp] theorem port_updSlot (s : State) (f : SlotUnit → SlotUnit) (g : Seg) : (s.updSlot f).port g = s.port g := rfl
@[simp] theorem port_updCheck (s : State) (f : CheckUnit → CheckUnit) (g : Seg) : (s.updCheck f).port g = s.port g := rfl
@[simp] theorem port_updDest (s : State) (f : DestUnit → DestUnit) (g : Seg) : (s.updDest f).port g = s.port g := rfl
@[simp] theorem port_updSigns (s : State) (f : SignUnit → SignUnit) (g : Seg) : (s.updSigns f).port g = s.port g := rfl
@[simp] theorem port_updUplink (s : State) (f : Uplink → Uplink) (g : Seg) : (s.updUplink f).port g = s.port g := rfl
@[simp] theorem port_updParams (s : State) (f : Params → Params) (g : Seg) : (s.updParams f).port g = s.port g := rfl

@[simp] theorem station_updPort (s : State) (seg : Seg) (f : SegPort → SegPort) (i : StationIx) : (s.updPort seg f).station i = s.station i := rfl
@[simp] theorem station_updStation (s : State) (ix : StationIx) (f : Station → Station) (i : StationIx) :
    (s.updStation ix f).station i = if i = ix then f (s.station ix) else s.station i :=
  upd_get _ _ _ _
@[simp] theorem station_updLane (s : State) (l : LaneId) (f : LaneState → LaneState) (i : StationIx) : (s.updLane l f).station i = s.station i := rfl
@[simp] theorem station_updCtx (s : State) (c : CtxId) (f : Ctx → Ctx) (i : StationIx) : (s.updCtx c f).station i = s.station i := rfl
@[simp] theorem station_updCache (s : State) (f : Cache → Cache) (i : StationIx) : (s.updCache f).station i = s.station i := rfl
@[simp] theorem station_updSlot (s : State) (f : SlotUnit → SlotUnit) (i : StationIx) : (s.updSlot f).station i = s.station i := rfl
@[simp] theorem station_updCheck (s : State) (f : CheckUnit → CheckUnit) (i : StationIx) : (s.updCheck f).station i = s.station i := rfl
@[simp] theorem station_updDest (s : State) (f : DestUnit → DestUnit) (i : StationIx) : (s.updDest f).station i = s.station i := rfl
@[simp] theorem station_updSigns (s : State) (f : SignUnit → SignUnit) (i : StationIx) : (s.updSigns f).station i = s.station i := rfl
@[simp] theorem station_updUplink (s : State) (f : Uplink → Uplink) (i : StationIx) : (s.updUplink f).station i = s.station i := rfl
@[simp] theorem station_updParams (s : State) (f : Params → Params) (i : StationIx) : (s.updParams f).station i = s.station i := rfl

@[simp] theorem lane_updPort (s : State) (seg : Seg) (f : SegPort → SegPort) (k : LaneId) : (s.updPort seg f).lane k = s.lane k := rfl
@[simp] theorem lane_updStation (s : State) (ix : StationIx) (f : Station → Station) (k : LaneId) : (s.updStation ix f).lane k = s.lane k := rfl
@[simp] theorem lane_updLane (s : State) (l : LaneId) (f : LaneState → LaneState) (k : LaneId) :
    (s.updLane l f).lane k = if k = l then f (s.lane l) else s.lane k :=
  upd_get _ _ _ _
@[simp] theorem lane_updCtx (s : State) (c : CtxId) (f : Ctx → Ctx) (k : LaneId) : (s.updCtx c f).lane k = s.lane k := rfl
@[simp] theorem lane_updCache (s : State) (f : Cache → Cache) (k : LaneId) : (s.updCache f).lane k = s.lane k := rfl
@[simp] theorem lane_updSlot (s : State) (f : SlotUnit → SlotUnit) (k : LaneId) : (s.updSlot f).lane k = s.lane k := rfl
@[simp] theorem lane_updCheck (s : State) (f : CheckUnit → CheckUnit) (k : LaneId) : (s.updCheck f).lane k = s.lane k := rfl
@[simp] theorem lane_updDest (s : State) (f : DestUnit → DestUnit) (k : LaneId) : (s.updDest f).lane k = s.lane k := rfl
@[simp] theorem lane_updSigns (s : State) (f : SignUnit → SignUnit) (k : LaneId) : (s.updSigns f).lane k = s.lane k := rfl
@[simp] theorem lane_updUplink (s : State) (f : Uplink → Uplink) (k : LaneId) : (s.updUplink f).lane k = s.lane k := rfl
@[simp] theorem lane_updParams (s : State) (f : Params → Params) (k : LaneId) : (s.updParams f).lane k = s.lane k := rfl

@[simp] theorem ctx_updPort (s : State) (seg : Seg) (f : SegPort → SegPort) (d : CtxId) : (s.updPort seg f).ctx d = s.ctx d := rfl
@[simp] theorem ctx_updStation (s : State) (ix : StationIx) (f : Station → Station) (d : CtxId) : (s.updStation ix f).ctx d = s.ctx d := rfl
@[simp] theorem ctx_updLane (s : State) (l : LaneId) (f : LaneState → LaneState) (d : CtxId) : (s.updLane l f).ctx d = s.ctx d := rfl
@[simp] theorem ctx_updCtx (s : State) (c : CtxId) (f : Ctx → Ctx) (d : CtxId) :
    (s.updCtx c f).ctx d = if d = c then f (s.ctx c) else s.ctx d :=
  upd_get _ _ _ _
@[simp] theorem ctx_updCache (s : State) (f : Cache → Cache) (d : CtxId) : (s.updCache f).ctx d = s.ctx d := rfl
@[simp] theorem ctx_updSlot (s : State) (f : SlotUnit → SlotUnit) (d : CtxId) : (s.updSlot f).ctx d = s.ctx d := rfl
@[simp] theorem ctx_updCheck (s : State) (f : CheckUnit → CheckUnit) (d : CtxId) : (s.updCheck f).ctx d = s.ctx d := rfl
@[simp] theorem ctx_updDest (s : State) (f : DestUnit → DestUnit) (d : CtxId) : (s.updDest f).ctx d = s.ctx d := rfl
@[simp] theorem ctx_updSigns (s : State) (f : SignUnit → SignUnit) (d : CtxId) : (s.updSigns f).ctx d = s.ctx d := rfl
@[simp] theorem ctx_updUplink (s : State) (f : Uplink → Uplink) (d : CtxId) : (s.updUplink f).ctx d = s.ctx d := rfl
@[simp] theorem ctx_updParams (s : State) (f : Params → Params) (d : CtxId) : (s.updParams f).ctx d = s.ctx d := rfl

end State

end Sys2Proof.Machine
end

