-- ==== Sys2Proof/Laws/Answers.lean ====
section
/-! SUPPORT. The shared operations of reports and requests in the vocabulary of the statements: each says once all that
its operation does to the state. -/

namespace Sys2Proof.Laws

open Sys2Proof.Machine Sys2Proof.Safety

/-- A command with the reset input released answers what its effect makes of the state. -/
theorem whenRunning_released (s : State) (f : State → State) (h : s.resetHeld = false) : whenRunning s f = .next (f s) := by
  simp [whenRunning, h]

/-- R180: a class B report offered changes the uplink port alone. -/
theorem offerB_eq (s : State) (r : Report) : s.offerB r = { s with uplink := classB s.uplink r } := by
  unfold State.offerB classB State.countUplink State.updUplink
  simp only [Config.classBLimit]
  by_cases h : s.uplink.queue.length < 56 <;> simp [h]

/-- R181: a maker that takes its place in the wait order changes the uplink port alone. -/
theorem wait_eq (s : State) (w : Waiter) : s.wait w = { s with uplink := waiting s.uplink w } := by
  unfold State.wait waiting State.updUplink
  by_cases h : w ∈ s.uplink.waiters <;> simp [h]

/-- R179, R181: a RESPONSE or a PART_HELLO made changes the uplink port alone. -/
theorem uplinkMake_eq (s : State) (r : Report) : s.uplinkMake r = { s with uplink := made s.uplink r } := by
  unfold State.uplinkMake made State.roomA State.accept State.wait State.updUplink
  simp only [List.isEmpty_iff, Bool.and_eq_true, Config.reportQueueSize]
  by_cases h1 : s.uplink.owed = [] <;> by_cases h2 : s.uplink.queue.length < 64 <;>
    by_cases h3 : s.uplink.waiters = [] <;> simp [h1, h2, h3]
  all_goals (split <;> simp_all)

/-- R182, R184: a valid gate frame heard changes the uplink port alone. -/
theorem gateHeard_eq (s : State) (h : GateHdr) : s.gateHeard h = { s with uplink := presence s h } := rfl

/-- R179, R182: a request dropped changes the uplink port alone. -/
theorem dropRequest_eq (s : State) :
    s.dropRequest = { s with uplink := { counted s with counters := { s.uplink.counters with
      requestsDropped := bump s.uplink.counters.requestsDropped } } } := rfl

/-- R178, R179: a request that is taken is answered with what its owner says, after its owner has acted. -/
theorem request_ready (s : State) (h : GateHdr) (kind : Byte) (act : State → Answer × State) (hr : Ready s) :
    s.request h kind act =
      let r := act { s with uplink := presence s h }
      { r.2 with uplink := made r.2.uplink (response h kind r.1) } := by
  have hn : ¬ Config.responseListSize ≤ s.responsesOwed := by
    simp only [Config.responseListSize]
    have := hr.2
    omega
  unfold State.request
  rw [gateHeard_eq]
  simp only [hn, if_false, State.respond, uplinkMake_eq]
  rfl

end Sys2Proof.Laws
end

