-- ==== Sys2Proof/Laws/Ops.lean ====
section
/-! SUPPORT. One lemma for each shared operation that says which blocks of State it leaves as they are, and what the
operations on the report queue make of it. -/

set_option linter.all false

namespace Sys2Proof.Machine

/-- A fold keeps what each of its steps keeps. -/
theorem foldl_keeps {α β γ : Type} (p : α → β) (f : α → γ → α) (h : ∀ a x, p (f a x) = p a) (l : List γ) (a : α) :
    p (l.foldl f a) = p a := by
  induction l generalizing a with
  | nil => rfl
  | cons x xs ih => rw [List.foldl_cons, ih, h]

/-! ### The report queue and requests -/

@[simp] theorem whenRunning_held (s : State) (f : State → State) (h : s.resetHeld = true) : whenRunning s f = .next s := by
  simp [whenRunning, h]

@[simp] theorem whenRunning_running (s : State) (f : State → State) (h : s.resetHeld = false) :
    whenRunning s f = .next (f s) := by simp [whenRunning, h]

/-- Every command but POWER_ON answers a next state. -/
theorem whenRunning_next (s : State) (f : State → State) : ∃ t, whenRunning s f = .next t := by
  unfold whenRunning; split <;> exact ⟨_, rfl⟩

/-- `State.countPort` changes `ports` alone. -/
@[simp] theorem State.countPort_frame (s : State) (seg : Seg) (f : SegCounters → SegCounters) :
    (State.countPort s seg f).stations = s.stations ∧ (State.countPort s seg f).lanes = s.lanes ∧ (State.countPort s seg f).pool = s.pool ∧
    (State.countPort s seg f).visitCounter = s.visitCounter ∧ (State.countPort s seg f).lastServed = s.lastServed ∧ (State.countPort s seg f).cache = s.cache ∧
    (State.countPort s seg f).slot = s.slot ∧ (State.countPort s seg f).check = s.check ∧ (State.countPort s seg f).dest = s.dest ∧
    (State.countPort s seg f).signs = s.signs ∧ (State.countPort s seg f).uplink = s.uplink ∧ (State.countPort s seg f).params = s.params ∧
    (State.countPort s seg f).resetHeld = s.resetHeld ∧ (State.countPort s seg f).pending = s.pending ∧ (∀ ix_ : StationIx, (State.countPort s seg f).station ix_ = s.station ix_) ∧
    (∀ lane_ : LaneId, (State.countPort s seg f).lane lane_ = s.lane lane_) ∧ (∀ ctx_ : CtxId, (State.countPort s seg f).ctx ctx_ = s.ctx ctx_) := by
  unfold State.countPort
  first
  | (simp [State.port, State.station, State.lane, State.ctx]; done)
  | ((repeat' split) <;> (simp [State.port, State.station, State.lane, State.ctx]; done))
  | (dsimp only
     and_intros <;> intros <;> (repeat' split) <;> simp [State.port, State.station, State.lane, State.ctx])

/-- `State.countLane` changes `lanes` alone. -/
@[simp] theorem State.countLane_frame (s : State) (l : LaneId) (f : LaneCounters → LaneCounters) :
    (State.countLane s l f).ports = s.ports ∧ (State.countLane s l f).stations = s.stations ∧ (State.countLane s l f).pool = s.pool ∧
    (State.countLane s l f).visitCounter = s.visitCounter ∧ (State.countLane s l f).lastServed = s.lastServed ∧ (State.countLane s l f).cache = s.cache ∧
    (State.countLane s l f).slot = s.slot ∧ (State.countLane s l f).check = s.check ∧ (State.countLane s l f).dest = s.dest ∧
    (State.countLane s l f).signs = s.signs ∧ (State.countLane s l f).uplink = s.uplink ∧ (State.countLane s l f).params = s.params ∧
    (State.countLane s l f).resetHeld = s.resetHeld ∧ (State.countLane s l f).pending = s.pending ∧ (∀ seg_ : Seg, (State.countLane s l f).port seg_ = s.port seg_) ∧
    (∀ ix_ : StationIx, (State.countLane s l f).station ix_ = s.station ix_) ∧ (∀ ctx_ : CtxId, (State.countLane s l f).ctx ctx_ = s.ctx ctx_) := by
  unfold State.countLane
  first
  | (simp [State.port, State.station, State.lane, State.ctx]; done)
  | ((repeat' split) <;> (simp [State.port, State.station, State.lane, State.ctx]; done))
  | (dsimp only
     and_intros <;> intros <;> (repeat' split) <;> simp [State.port, State.station, State.lane, State.ctx])

/-- `State.countCache` changes `cache` alone. -/
@[simp] theorem State.countCache_frame (s : State) (f : CacheCounters → CacheCounters) :
    (State.countCache s f).ports = s.ports ∧ (State.countCache s f).stations = s.stations ∧ (State.countCache s f).lanes = s.lanes ∧
    (State.countCache s f).pool = s.pool ∧ (State.countCache s f).visitCounter = s.visitCounter ∧ (State.countCache s f).lastServed = s.lastServed ∧
    (State.countCache s f).slot = s.slot ∧ (State.countCache s f).check = s.check ∧ (State.countCache s f).dest = s.dest ∧
    (State.countCache s f).signs = s.signs ∧ (State.countCache s f).uplink = s.uplink ∧ (State.countCache s f).params = s.params ∧
    (State.countCache s f).resetHeld = s.resetHeld ∧ (State.countCache s f).pending = s.pending ∧ (∀ seg_ : Seg, (State.countCache s f).port seg_ = s.port seg_) ∧
    (∀ ix_ : StationIx, (State.countCache s f).station ix_ = s.station ix_) ∧ (∀ lane_ : LaneId, (State.countCache s f).lane lane_ = s.lane lane_) ∧ (∀ ctx_ : CtxId, (State.countCache s f).ctx ctx_ = s.ctx ctx_) := by
  unfold State.countCache
  first
  | (simp [State.port, State.station, State.lane, State.ctx]; done)
  | ((repeat' split) <;> (simp [State.port, State.station, State.lane, State.ctx]; done))
  | (dsimp only
     and_intros <;> intros <;> (repeat' split) <;> simp [State.port, State.station, State.lane, State.ctx])

/-- `State.countSlot` changes `slot` alone. -/
@[simp] theorem State.countSlot_frame (s : State) (f : SlotCounters → SlotCounters) :
    (State.countSlot s f).ports = s.ports ∧ (State.countSlot s f).stations = s.stations ∧ (State.countSlot s f).lanes = s.lanes ∧
    (State.countSlot s f).pool = s.pool ∧ (State.countSlot s f).visitCounter = s.visitCounter ∧ (State.countSlot s f).lastServed = s.lastServed ∧
    (State.countSlot s f).cache = s.cache ∧ (State.countSlot s f).check = s.check ∧ (State.countSlot s f).dest = s.dest ∧
    (State.countSlot s f).signs = s.signs ∧ (State.countSlot s f).uplink = s.uplink ∧ (State.countSlot s f).params = s.params ∧
    (State.countSlot s f).resetHeld = s.resetHeld ∧ (State.countSlot s f).pending = s.pending ∧ (∀ seg_ : Seg, (State.countSlot s f).port seg_ = s.port seg_) ∧
    (∀ ix_ : StationIx, (State.countSlot s f).station ix_ = s.station ix_) ∧ (∀ lane_ : LaneId, (State.countSlot s f).lane lane_ = s.lane lane_) ∧ (∀ ctx_ : CtxId, (State.countSlot s f).ctx ctx_ = s.ctx ctx_) := by
  unfold State.countSlot
  first
  | (simp [State.port, State.station, State.lane, State.ctx]; done)
  | ((repeat' split) <;> (simp [State.port, State.station, State.lane, State.ctx]; done))
  | (dsimp only
     and_intros <;> intros <;> (repeat' split) <;> simp [State.port, State.station, State.lane, State.ctx])

/-- `State.countCheck` changes `check` alone. -/
@[simp] theorem State.countCheck_frame (s : State) (f : CheckCounters → CheckCounters) :
    (State.countCheck s f).ports = s.ports ∧ (State.countCheck s f).stations = s.stations ∧ (State.countCheck s f).lanes = s.lanes ∧
    (State.countCheck s f).pool = s.pool ∧ (State.countCheck s f).visitCounter = s.visitCounter ∧ (State.countCheck s f).lastServed = s.lastServed ∧
    (State.countCheck s f).cache = s.cache ∧ (State.countCheck s f).slot = s.slot ∧ (State.countCheck s f).dest = s.dest ∧
    (State.countCheck s f).signs = s.signs ∧ (State.countCheck s f).uplink = s.uplink ∧ (State.countCheck s f).params = s.params ∧
    (State.countCheck s f).resetHeld = s.resetHeld ∧ (State.countCheck s f).pending = s.pending ∧ (∀ seg_ : Seg, (State.countCheck s f).port seg_ = s.port seg_) ∧
    (∀ ix_ : StationIx, (State.countCheck s f).station ix_ = s.station ix_) ∧ (∀ lane_ : LaneId, (State.countCheck s f).lane lane_ = s.lane lane_) ∧ (∀ ctx_ : CtxId, (State.countCheck s f).ctx ctx_ = s.ctx ctx_) := by
  unfold State.countCheck
  first
  | (simp [State.port, State.station, State.lane, State.ctx]; done)
  | ((repeat' split) <;> (simp [State.port, State.station, State.lane, State.ctx]; done))
  | (dsimp only
     and_intros <;> intros <;> (repeat' split) <;> simp [State.port, State.station, State.lane, State.ctx])

/-- `State.countDest` changes `dest` alone. -/
@[simp] theorem State.countDest_frame (s : State) (f : DestCounters → DestCounters) :
    (State.countDest s f).ports = s.ports ∧ (State.countDest s f).stations = s.stations ∧ (State.countDest s f).lanes = s.lanes ∧
    (State.countDest s f).pool = s.pool ∧ (State.countDest s f).visitCounter = s.visitCounter ∧ (State.countDest s f).lastServed = s.lastServed ∧
    (State.countDest s f).cache = s.cache ∧ (State.countDest s f).slot = s.slot ∧ (State.countDest s f).check = s.check ∧
    (State.countDest s f).signs = s.signs ∧ (State.countDest s f).uplink = s.uplink ∧ (State.countDest s f).params = s.params ∧
    (State.countDest s f).resetHeld = s.resetHeld ∧ (State.countDest s f).pending = s.pending ∧ (∀ seg_ : Seg, (State.countDest s f).port seg_ = s.port seg_) ∧
    (∀ ix_ : StationIx, (State.countDest s f).station ix_ = s.station ix_) ∧ (∀ lane_ : LaneId, (State.countDest s f).lane lane_ = s.lane lane_) ∧ (∀ ctx_ : CtxId, (State.countDest s f).ctx ctx_ = s.ctx ctx_) := by
  unfold State.countDest
  first
  | (simp [State.port, State.station, State.lane, State.ctx]; done)
  | ((repeat' split) <;> (simp [State.port, State.station, State.lane, State.ctx]; done))
  | (dsimp only
     and_intros <;> intros <;> (repeat' split) <;> simp [State.port, State.station, State.lane, State.ctx])

/-- `State.countSigns` changes `signs` alone. -/
@[simp] theorem State.countSigns_frame (s : State) (f : SignCounters → SignCounters) :
    (State.countSigns s f).ports = s.ports ∧ (State.countSigns s f).stations = s.stations ∧ (State.countSigns s f).lanes = s.lanes ∧
    (State.countSigns s f).pool = s.pool ∧ (State.countSigns s f).visitCounter = s.visitCounter ∧ (State.countSigns s f).lastServed = s.lastServed ∧
    (State.countSigns s f).cache = s.cache ∧ (State.countSigns s f).slot = s.slot ∧ (State.countSigns s f).check = s.check ∧
    (State.countSigns s f).dest = s.dest ∧ (State.countSigns s f).uplink = s.uplink ∧ (State.countSigns s f).params = s.params ∧
    (State.countSigns s f).resetHeld = s.resetHeld ∧ (State.countSigns s f).pending = s.pending ∧ (∀ seg_ : Seg, (State.countSigns s f).port seg_ = s.port seg_) ∧
    (∀ ix_ : StationIx, (State.countSigns s f).station ix_ = s.station ix_) ∧ (∀ lane_ : LaneId, (State.countSigns s f).lane lane_ = s.lane lane_) ∧ (∀ ctx_ : CtxId, (State.countSigns s f).ctx ctx_ = s.ctx ctx_) := by
  unfold State.countSigns
  first
  | (simp [State.port, State.station, State.lane, State.ctx]; done)
  | ((repeat' split) <;> (simp [State.port, State.station, State.lane, State.ctx]; done))
  | (dsimp only
     and_intros <;> intros <;> (repeat' split) <;> simp [State.port, State.station, State.lane, State.ctx])

/-- `State.countUplink` changes `uplink` alone. -/
@[simp] theorem State.countUplink_frame (s : State) (f : UplinkCounters → UplinkCounters) :
    (State.countUplink s f).ports = s.ports ∧ (State.countUplink s f).stations = s.stations ∧ (State.countUplink s f).lanes = s.lanes ∧
    (State.countUplink s f).pool = s.pool ∧ (State.countUplink s f).visitCounter = s.visitCounter ∧ (State.countUplink s f).lastServed = s.lastServed ∧
    (State.countUplink s f).cache = s.cache ∧ (State.countUplink s f).slot = s.slot ∧ (State.countUplink s f).check = s.check ∧
    (State.countUplink s f).dest = s.dest ∧ (State.countUplink s f).signs = s.signs ∧ (State.countUplink s f).params = s.params ∧
    (State.countUplink s f).resetHeld = s.resetHeld ∧ (State.countUplink s f).pending = s.pending ∧ (∀ seg_ : Seg, (State.countUplink s f).port seg_ = s.port seg_) ∧
    (∀ ix_ : StationIx, (State.countUplink s f).station ix_ = s.station ix_) ∧ (∀ lane_ : LaneId, (State.countUplink s f).lane lane_ = s.lane lane_) ∧ (∀ ctx_ : CtxId, (State.countUplink s f).ctx ctx_ = s.ctx ctx_) := by
  unfold State.countUplink
  first
  | (simp [State.port, State.station, State.lane, State.ctx]; done)
  | ((repeat' split) <;> (simp [State.port, State.station, State.lane, State.ctx]; done))
  | (dsimp only
     and_intros <;> intros <;> (repeat' split) <;> simp [State.port, State.station, State.lane, State.ctx])

/-- `State.offerB` changes `uplink` alone. -/
@[simp] theorem State.offerB_frame (s : State) (q : Report) :
    (State.offerB s q).ports = s.ports ∧ (State.offerB s q).stations = s.stations ∧ (State.offerB s q).lanes = s.lanes ∧
    (State.offerB s q).pool = s.pool ∧ (State.offerB s q).visitCounter = s.visitCounter ∧ (State.offerB s q).lastServed = s.lastServed ∧
    (State.offerB s q).cache = s.cache ∧ (State.offerB s q).slot = s.slot ∧ (State.offerB s q).check = s.check ∧
    (State.offerB s q).dest = s.dest ∧ (State.offerB s q).signs = s.signs ∧ (State.offerB s q).params = s.params ∧
    (State.offerB s q).resetHeld = s.resetHeld ∧ (State.offerB s q).pending = s.pending ∧ (∀ seg_ : Seg, (State.offerB s q).port seg_ = s.port seg_) ∧
    (∀ ix_ : StationIx, (State.offerB s q).station ix_ = s.station ix_) ∧ (∀ lane_ : LaneId, (State.offerB s q).lane lane_ = s.lane lane_) ∧ (∀ ctx_ : CtxId, (State.offerB s q).ctx ctx_ = s.ctx ctx_) := by
  unfold State.offerB
  first
  | (simp [State.port, State.station, State.lane, State.ctx]; done)
  | ((repeat' split) <;> (simp [State.port, State.station, State.lane, State.ctx]; done))
  | (dsimp only
     and_intros <;> intros <;> (repeat' split) <;> simp [State.port, State.station, State.lane, State.ctx])

/-- `State.accept` changes `uplink` alone. -/
@[simp] theorem State.accept_frame (s : State) (q : Report) :
    (State.accept s q).ports = s.ports ∧ (State.accept s q).stations = s.stations ∧ (State.accept s q).lanes = s.lanes ∧
    (State.accept s q).pool = s.pool ∧ (State.accept s q).visitCounter = s.visitCounter ∧ (State.accept s q).lastServed = s.lastServed ∧
    (State.accept s q).cache = s.cache ∧ (State.accept s q).slot = s.slot ∧ (State.accept s q).check = s.check ∧
    (State.accept s q).dest = s.dest ∧ (State.accept s q).signs = s.signs ∧ (State.accept s q).params = s.params ∧
    (State.accept s q).resetHeld = s.resetHeld ∧ (State.accept s q).pending = s.pending ∧ (∀ seg_ : Seg, (State.accept s q).port seg_ = s.port seg_) ∧
    (∀ ix_ : StationIx, (State.accept s q).station ix_ = s.station ix_) ∧ (∀ lane_ : LaneId, (State.accept s q).lane lane_ = s.lane lane_) ∧ (∀ ctx_ : CtxId, (State.accept s q).ctx ctx_ = s.ctx ctx_) := by
  unfold State.accept
  first
  | (simp [State.port, State.station, State.lane, State.ctx]; done)
  | ((repeat' split) <;> (simp [State.port, State.station, State.lane, State.ctx]; done))
  | (dsimp only
     and_intros <;> intros <;> (repeat' split) <;> simp [State.port, State.station, State.lane, State.ctx])

/-- `State.wait` changes `uplink` alone. -/
@[simp] theorem State.wait_frame (s : State) (w : Waiter) :
    (State.wait s w).ports = s.ports ∧ (State.wait s w).stations = s.stations ∧ (State.wait s w).lanes = s.lanes ∧
    (State.wait s w).pool = s.pool ∧ (State.wait s w).visitCounter = s.visitCounter ∧ (State.wait s w).lastServed = s.lastServed ∧
    (State.wait s w).cache = s.cache ∧ (State.wait s w).slot = s.slot ∧ (State.wait s w).check = s.check ∧
    (State.wait s w).dest = s.dest ∧ (State.wait s w).signs = s.signs ∧ (State.wait s w).params = s.params ∧
    (State.wait s w).resetHeld = s.resetHeld ∧ (State.wait s w).pending = s.pending ∧ (∀ seg_ : Seg, (State.wait s w).port seg_ = s.port seg_) ∧
    (∀ ix_ : StationIx, (State.wait s w).station ix_ = s.station ix_) ∧ (∀ lane_ : LaneId, (State.wait s w).lane lane_ = s.lane lane_) ∧ (∀ ctx_ : CtxId, (State.wait s w).ctx ctx_ = s.ctx ctx_) := by
  unfold State.wait
  first
  | (simp [State.port, State.station, State.lane, State.ctx]; done)
  | ((repeat' split) <;> (simp [State.port, State.station, State.lane, State.ctx]; done))
  | (dsimp only
     and_intros <;> intros <;> (repeat' split) <;> simp [State.port, State.station, State.lane, State.ctx])

/-- `State.unwait` changes `uplink` alone. -/
@[simp] theorem State.unwait_frame (s : State) (w : Waiter) :
    (State.unwait s w).ports = s.ports ∧ (State.unwait s w).stations = s.stations ∧ (State.unwait s w).lanes = s.lanes ∧
    (State.unwait s w).pool = s.pool ∧ (State.unwait s w).visitCounter = s.visitCounter ∧ (State.unwait s w).lastServed = s.lastServed ∧
    (State.unwait s w).cache = s.cache ∧ (State.unwait s w).slot = s.slot ∧ (State.unwait s w).check = s.check ∧
    (State.unwait s w).dest = s.dest ∧ (State.unwait s w).signs = s.signs ∧ (State.unwait s w).params = s.params ∧
    (State.unwait s w).resetHeld = s.resetHeld ∧ (State.unwait s w).pending = s.pending ∧ (∀ seg_ : Seg, (State.unwait s w).port seg_ = s.port seg_) ∧
    (∀ ix_ : StationIx, (State.unwait s w).station ix_ = s.station ix_) ∧ (∀ lane_ : LaneId, (State.unwait s w).lane lane_ = s.lane lane_) ∧ (∀ ctx_ : CtxId, (State.unwait s w).ctx ctx_ = s.ctx ctx_) := by
  unfold State.unwait
  first
  | (simp [State.port, State.station, State.lane, State.ctx]; done)
  | ((repeat' split) <;> (simp [State.port, State.station, State.lane, State.ctx]; done))
  | (dsimp only
     and_intros <;> intros <;> (repeat' split) <;> simp [State.port, State.station, State.lane, State.ctx])

/-- `State.uplinkMake` changes `uplink` alone. -/
@[simp] theorem State.uplinkMake_frame (s : State) (q : Report) :
    (State.uplinkMake s q).ports = s.ports ∧ (State.uplinkMake s q).stations = s.stations ∧ (State.uplinkMake s q).lanes = s.lanes ∧
    (State.uplinkMake s q).pool = s.pool ∧ (State.uplinkMake s q).visitCounter = s.visitCounter ∧ (State.uplinkMake s q).lastServed = s.lastServed ∧
    (State.uplinkMake s q).cache = s.cache ∧ (State.uplinkMake s q).slot = s.slot ∧ (State.uplinkMake s q).check = s.check ∧
    (State.uplinkMake s q).dest = s.dest ∧ (State.uplinkMake s q).signs = s.signs ∧ (State.uplinkMake s q).params = s.params ∧
    (State.uplinkMake s q).resetHeld = s.resetHeld ∧ (State.uplinkMake s q).pending = s.pending ∧ (∀ seg_ : Seg, (State.uplinkMake s q).port seg_ = s.port seg_) ∧
    (∀ ix_ : StationIx, (State.uplinkMake s q).station ix_ = s.station ix_) ∧ (∀ lane_ : LaneId, (State.uplinkMake s q).lane lane_ = s.lane lane_) ∧ (∀ ctx_ : CtxId, (State.uplinkMake s q).ctx ctx_ = s.ctx ctx_) := by
  unfold State.uplinkMake
  first
  | (simp [State.port, State.station, State.lane, State.ctx]; done)
  | ((repeat' split) <;> (simp [State.port, State.station, State.lane, State.ctx]; done))
  | (dsimp only
     and_intros <;> intros <;> (repeat' split) <;> simp [State.port, State.station, State.lane, State.ctx])

/-- `State.countPresence` changes `uplink` alone. -/
@[simp] theorem State.countPresence_frame (s : State) :
    (State.countPresence s).ports = s.ports ∧ (State.countPresence s).stations = s.stations ∧ (State.countPresence s).lanes = s.lanes ∧
    (State.countPresence s).pool = s.pool ∧ (State.countPresence s).visitCounter = s.visitCounter ∧ (State.countPresence s).lastServed = s.lastServed ∧
    (State.countPresence s).cache = s.cache ∧ (State.countPresence s).slot = s.slot ∧ (State.countPresence s).check = s.check ∧
    (State.countPresence s).dest = s.dest ∧ (State.countPresence s).signs = s.signs ∧ (State.countPresence s).params = s.params ∧
    (State.countPresence s).resetHeld = s.resetHeld ∧ (State.countPresence s).pending = s.pending ∧ (∀ seg_ : Seg, (State.countPresence s).port seg_ = s.port seg_) ∧
    (∀ ix_ : StationIx, (State.countPresence s).station ix_ = s.station ix_) ∧ (∀ lane_ : LaneId, (State.countPresence s).lane lane_ = s.lane lane_) ∧ (∀ ctx_ : CtxId, (State.countPresence s).ctx ctx_ = s.ctx ctx_) := by
  unfold State.countPresence
  first
  | (simp [State.port, State.station, State.lane, State.ctx]; done)
  | ((repeat' split) <;> (simp [State.port, State.station, State.lane, State.ctx]; done))
  | (dsimp only
     and_intros <;> intros <;> (repeat' split) <;> simp [State.port, State.station, State.lane, State.ctx])

/-- `State.gateHeard` changes `uplink` alone. -/
@[simp] theorem State.gateHeard_frame (s : State) (h : GateHdr) :
    (State.gateHeard s h).ports = s.ports ∧ (State.gateHeard s h).stations = s.stations ∧ (State.gateHeard s h).lanes = s.lanes ∧
    (State.gateHeard s h).pool = s.pool ∧ (State.gateHeard s h).visitCounter = s.visitCounter ∧ (State.gateHeard s h).lastServed = s.lastServed ∧
    (State.gateHeard s h).cache = s.cache ∧ (State.gateHeard s h).slot = s.slot ∧ (State.gateHeard s h).check = s.check ∧
    (State.gateHeard s h).dest = s.dest ∧ (State.gateHeard s h).signs = s.signs ∧ (State.gateHeard s h).params = s.params ∧
    (State.gateHeard s h).resetHeld = s.resetHeld ∧ (State.gateHeard s h).pending = s.pending ∧ (∀ seg_ : Seg, (State.gateHeard s h).port seg_ = s.port seg_) ∧
    (∀ ix_ : StationIx, (State.gateHeard s h).station ix_ = s.station ix_) ∧ (∀ lane_ : LaneId, (State.gateHeard s h).lane lane_ = s.lane lane_) ∧ (∀ ctx_ : CtxId, (State.gateHeard s h).ctx ctx_ = s.ctx ctx_) := by
  unfold State.gateHeard
  first
  | (simp [State.port, State.station, State.lane, State.ctx]; done)
  | ((repeat' split) <;> (simp [State.port, State.station, State.lane, State.ctx]; done))
  | (dsimp only
     and_intros <;> intros <;> (repeat' split) <;> simp [State.port, State.station, State.lane, State.ctx])

/-- `State.dropRequest` changes `uplink` alone. -/
@[simp] theorem State.dropRequest_frame (s : State) :
    (State.dropRequest s).ports = s.ports ∧ (State.dropRequest s).stations = s.stations ∧ (State.dropRequest s).lanes = s.lanes ∧
    (State.dropRequest s).pool = s.pool ∧ (State.dropRequest s).visitCounter = s.visitCounter ∧ (State.dropRequest s).lastServed = s.lastServed ∧
    (State.dropRequest s).cache = s.cache ∧ (State.dropRequest s).slot = s.slot ∧ (State.dropRequest s).check = s.check ∧
    (State.dropRequest s).dest = s.dest ∧ (State.dropRequest s).signs = s.signs ∧ (State.dropRequest s).params = s.params ∧
    (State.dropRequest s).resetHeld = s.resetHeld ∧ (State.dropRequest s).pending = s.pending ∧ (∀ seg_ : Seg, (State.dropRequest s).port seg_ = s.port seg_) ∧
    (∀ ix_ : StationIx, (State.dropRequest s).station ix_ = s.station ix_) ∧ (∀ lane_ : LaneId, (State.dropRequest s).lane lane_ = s.lane lane_) ∧ (∀ ctx_ : CtxId, (State.dropRequest s).ctx ctx_ = s.ctx ctx_) := by
  unfold State.dropRequest
  first
  | (simp [State.port, State.station, State.lane, State.ctx]; done)
  | ((repeat' split) <;> (simp [State.port, State.station, State.lane, State.ctx]; done))
  | (dsimp only
     and_intros <;> intros <;> (repeat' split) <;> simp [State.port, State.station, State.lane, State.ctx])

/-- `State.respond` changes `uplink` alone. -/
@[simp] theorem State.respond_frame (s : State) (h : GateHdr) (kind : Byte) (a : Answer) :
    (State.respond s h kind a).ports = s.ports ∧ (State.respond s h kind a).stations = s.stations ∧ (State.respond s h kind a).lanes = s.lanes ∧
    (State.respond s h kind a).pool = s.pool ∧ (State.respond s h kind a).visitCounter = s.visitCounter ∧ (State.respond s h kind a).lastServed = s.lastServed ∧
    (State.respond s h kind a).cache = s.cache ∧ (State.respond s h kind a).slot = s.slot ∧ (State.respond s h kind a).check = s.check ∧
    (State.respond s h kind a).dest = s.dest ∧ (State.respond s h kind a).signs = s.signs ∧ (State.respond s h kind a).params = s.params ∧
    (State.respond s h kind a).resetHeld = s.resetHeld ∧ (State.respond s h kind a).pending = s.pending ∧ (∀ seg_ : Seg, (State.respond s h kind a).port seg_ = s.port seg_) ∧
    (∀ ix_ : StationIx, (State.respond s h kind a).station ix_ = s.station ix_) ∧ (∀ lane_ : LaneId, (State.respond s h kind a).lane lane_ = s.lane lane_) ∧ (∀ ctx_ : CtxId, (State.respond s h kind a).ctx ctx_ = s.ctx ctx_) := by
  unfold State.respond
  first
  | (simp [State.port, State.station, State.lane, State.ctx]; done)
  | ((repeat' split) <;> (simp [State.port, State.station, State.lane, State.ctx]; done))
  | (dsimp only
     and_intros <;> intros <;> (repeat' split) <;> simp [State.port, State.station, State.lane, State.ctx])

/-- R180: what a class B report makes of the queue: the report at its tail, or nothing. -/
theorem State.offerB_queue (s : State) (q : Report) :
    (s.offerB q).uplink.queue =
      if s.uplink.queue.length < 56 then s.uplink.queue ++ [⟨q, none⟩] else s.uplink.queue := by
  unfold State.offerB; split <;> simp_all [State.countUplink, Config.classBLimit]

/-- R181: what a RESPONSE or a PART_HELLO makes of the queue and of the owed list. -/
theorem State.uplinkMake_queue (s : State) (q : Report) :
    (s.uplinkMake q).uplink.queue = s.uplink.queue ++ [⟨q, none⟩] ∧ (s.uplinkMake q).uplink.owed = s.uplink.owed ∨
    (s.uplinkMake q).uplink.queue = s.uplink.queue ∧ (s.uplinkMake q).uplink.owed = s.uplink.owed ++ [q] := by
  unfold State.uplinkMake; split
  · left; simp [State.accept]
  · right
    unfold State.wait
    simp only [State.updUplink_uplink]
    by_cases c : s.uplink.waiters.contains Waiter.uplink = true <;> simp only [c] <;> exact ⟨rfl, rfl⟩

/-- A request taken with fewer than 8 RESPONSEs owed: the owner acts, then the answer is sent. -/
theorem State.request_taken (s : State) (h : GateHdr) (kind : Byte) (act : State → Answer × State)
    (room : s.responsesOwed < 8) :
    s.request h kind act = ((act (s.gateHeard h)).2).respond h kind (act (s.gateHeard h)).1 := by
  have n : ¬ Config.responseListSize ≤ s.responsesOwed := by
    unfold Config.responseListSize; omega
  unfold State.request
  simp only [if_neg n]

/-- A request that finds 8 RESPONSEs owed is dropped. -/
theorem State.request_dropped (s : State) (h : GateHdr) (kind : Byte) (act : State → Answer × State)
    (full : 8 ≤ s.responsesOwed) : s.request h kind act = s.dropRequest := by
  have n : Config.responseListSize ≤ s.responsesOwed := by
    unfold Config.responseListSize; omega
  unfold State.request
  simp only [if_pos n]

/-! ### Segment ports -/

/-- `State.enterSeg` changes `ports`, `uplink` alone. -/
@[simp] theorem State.enterSeg_frame (s : State) (seg : Seg) (st : SegState) :
    (State.enterSeg s seg st).stations = s.stations ∧ (State.enterSeg s seg st).lanes = s.lanes ∧ (State.enterSeg s seg st).pool = s.pool ∧
    (State.enterSeg s seg st).visitCounter = s.visitCounter ∧ (State.enterSeg s seg st).lastServed = s.lastServed ∧ (State.enterSeg s seg st).cache = s.cache ∧
    (State.enterSeg s seg st).slot = s.slot ∧ (State.enterSeg s seg st).check = s.check ∧ (State.enterSeg s seg st).dest = s.dest ∧
    (State.enterSeg s seg st).signs = s.signs ∧ (State.enterSeg s seg st).params = s.params ∧ (State.enterSeg s seg st).resetHeld = s.resetHeld ∧
    (State.enterSeg s seg st).pending = s.pending ∧ (∀ ix_ : StationIx, (State.enterSeg s seg st).station ix_ = s.station ix_) ∧ (∀ lane_ : LaneId, (State.enterSeg s seg st).lane lane_ = s.lane lane_) ∧
    (∀ ctx_ : CtxId, (State.enterSeg s seg st).ctx ctx_ = s.ctx ctx_) := by
  unfold State.enterSeg
  first
  | (simp [State.port, State.station, State.lane, State.ctx]; done)
  | ((repeat' split) <;> (simp [State.port, State.station, State.lane, State.ctx]; done))
  | (dsimp only
     and_intros <;> intros <;> (repeat' split) <;> simp [State.port, State.station, State.lane, State.ctx])

/-- `State.windowRise` changes `ports`, `uplink` alone. -/
@[simp] theorem State.windowRise_frame (s : State) (seg : Seg) :
    (State.windowRise s seg).stations = s.stations ∧ (State.windowRise s seg).lanes = s.lanes ∧ (State.windowRise s seg).pool = s.pool ∧
    (State.windowRise s seg).visitCounter = s.visitCounter ∧ (State.windowRise s seg).lastServed = s.lastServed ∧ (State.windowRise s seg).cache = s.cache ∧
    (State.windowRise s seg).slot = s.slot ∧ (State.windowRise s seg).check = s.check ∧ (State.windowRise s seg).dest = s.dest ∧
    (State.windowRise s seg).signs = s.signs ∧ (State.windowRise s seg).params = s.params ∧ (State.windowRise s seg).resetHeld = s.resetHeld ∧
    (State.windowRise s seg).pending = s.pending ∧ (∀ ix_ : StationIx, (State.windowRise s seg).station ix_ = s.station ix_) ∧ (∀ lane_ : LaneId, (State.windowRise s seg).lane lane_ = s.lane lane_) ∧
    (∀ ctx_ : CtxId, (State.windowRise s seg).ctx ctx_ = s.ctx ctx_) := by
  unfold State.windowRise
  first
  | (simp [State.port, State.station, State.lane, State.ctx]; done)
  | ((repeat' split) <;> (simp [State.port, State.station, State.lane, State.ctx]; done))
  | (dsimp only
     and_intros <;> intros <;> (repeat' split) <;> simp [State.port, State.station, State.lane, State.ctx])

/-- `State.handOff` changes `ports` alone. -/
@[simp] theorem State.handOff_frame (s : State) (seg : Seg) (a : Addr) (kind : TxKind) (p : List Byte) :
    ((State.handOff s seg a kind p).1).stations = s.stations ∧ ((State.handOff s seg a kind p).1).lanes = s.lanes ∧ ((State.handOff s seg a kind p).1).pool = s.pool ∧
    ((State.handOff s seg a kind p).1).visitCounter = s.visitCounter ∧ ((State.handOff s seg a kind p).1).lastServed = s.lastServed ∧ ((State.handOff s seg a kind p).1).cache = s.cache ∧
    ((State.handOff s seg a kind p).1).slot = s.slot ∧ ((State.handOff s seg a kind p).1).check = s.check ∧ ((State.handOff s seg a kind p).1).dest = s.dest ∧
    ((State.handOff s seg a kind p).1).signs = s.signs ∧ ((State.handOff s seg a kind p).1).uplink = s.uplink ∧ ((State.handOff s seg a kind p).1).params = s.params ∧
    ((State.handOff s seg a kind p).1).resetHeld = s.resetHeld ∧ ((State.handOff s seg a kind p).1).pending = s.pending ∧ (∀ ix_ : StationIx, ((State.handOff s seg a kind p).1).station ix_ = s.station ix_) ∧
    (∀ lane_ : LaneId, ((State.handOff s seg a kind p).1).lane lane_ = s.lane lane_) ∧ (∀ ctx_ : CtxId, ((State.handOff s seg a kind p).1).ctx ctx_ = s.ctx ctx_) := by
  unfold State.handOff
  first
  | (simp [State.port, State.station, State.lane, State.ctx]; done)
  | ((repeat' split) <;> (simp [State.port, State.station, State.lane, State.ctx]; done))
  | (dsimp only
     and_intros <;> intros <;> (repeat' split) <;> simp [State.port, State.station, State.lane, State.ctx])

/-! ### Sign and ticket channels -/

/-- `State.updChannel` changes `stations` alone. -/
@[simp] theorem State.updChannel_frame (s : State) (ix : StationIx) (f : SignChannel → SignChannel) :
    (State.updChannel s ix f).ports = s.ports ∧ (State.updChannel s ix f).lanes = s.lanes ∧ (State.updChannel s ix f).pool = s.pool ∧
    (State.updChannel s ix f).visitCounter = s.visitCounter ∧ (State.updChannel s ix f).lastServed = s.lastServed ∧ (State.updChannel s ix f).cache = s.cache ∧
    (State.updChannel s ix f).slot = s.slot ∧ (State.updChannel s ix f).check = s.check ∧ (State.updChannel s ix f).dest = s.dest ∧
    (State.updChannel s ix f).signs = s.signs ∧ (State.updChannel s ix f).uplink = s.uplink ∧ (State.updChannel s ix f).params = s.params ∧
    (State.updChannel s ix f).resetHeld = s.resetHeld ∧ (State.updChannel s ix f).pending = s.pending ∧ (∀ seg_ : Seg, (State.updChannel s ix f).port seg_ = s.port seg_) ∧
    (∀ lane_ : LaneId, (State.updChannel s ix f).lane lane_ = s.lane lane_) ∧ (∀ ctx_ : CtxId, (State.updChannel s ix f).ctx ctx_ = s.ctx ctx_) := by
  unfold State.updChannel
  first
  | (simp [State.port, State.station, State.lane, State.ctx]; done)
  | ((repeat' split) <;> (simp [State.port, State.station, State.lane, State.ctx]; done))
  | (dsimp only
     and_intros <;> intros <;> (repeat' split) <;> simp [State.port, State.station, State.lane, State.ctx])

/-- `State.sendPage` changes `ports`, `stations` alone. -/
@[simp] theorem State.sendPage_frame (s : State) (ix : StationIx) (p : Page) :
    (State.sendPage s ix p).lanes = s.lanes ∧ (State.sendPage s ix p).pool = s.pool ∧ (State.sendPage s ix p).visitCounter = s.visitCounter ∧
    (State.sendPage s ix p).lastServed = s.lastServed ∧ (State.sendPage s ix p).cache = s.cache ∧ (State.sendPage s ix p).slot = s.slot ∧
    (State.sendPage s ix p).check = s.check ∧ (State.sendPage s ix p).dest = s.dest ∧ (State.sendPage s ix p).signs = s.signs ∧
    (State.sendPage s ix p).uplink = s.uplink ∧ (State.sendPage s ix p).params = s.params ∧ (State.sendPage s ix p).resetHeld = s.resetHeld ∧
    (State.sendPage s ix p).pending = s.pending ∧ (∀ lane_ : LaneId, (State.sendPage s ix p).lane lane_ = s.lane lane_) ∧ (∀ ctx_ : CtxId, (State.sendPage s ix p).ctx ctx_ = s.ctx ctx_) := by
  unfold State.sendPage
  first
  | (simp [State.port, State.station, State.lane, State.ctx]; done)
  | ((repeat' split) <;> (simp [State.port, State.station, State.lane, State.ctx]; done))
  | (dsimp only
     and_intros <;> intros <;> (repeat' split) <;> simp [State.port, State.station, State.lane, State.ctx])

/-- `State.offerPage` changes `ports`, `stations` alone. -/
@[simp] theorem State.offerPage_frame (s : State) (ix : StationIx) (p : Page) :
    (State.offerPage s ix p).lanes = s.lanes ∧ (State.offerPage s ix p).pool = s.pool ∧ (State.offerPage s ix p).visitCounter = s.visitCounter ∧
    (State.offerPage s ix p).lastServed = s.lastServed ∧ (State.offerPage s ix p).cache = s.cache ∧ (State.offerPage s ix p).slot = s.slot ∧
    (State.offerPage s ix p).check = s.check ∧ (State.offerPage s ix p).dest = s.dest ∧ (State.offerPage s ix p).signs = s.signs ∧
    (State.offerPage s ix p).uplink = s.uplink ∧ (State.offerPage s ix p).params = s.params ∧ (State.offerPage s ix p).resetHeld = s.resetHeld ∧
    (State.offerPage s ix p).pending = s.pending ∧ (∀ lane_ : LaneId, (State.offerPage s ix p).lane lane_ = s.lane lane_) ∧ (∀ ctx_ : CtxId, (State.offerPage s ix p).ctx ctx_ = s.ctx ctx_) := by
  unfold State.offerPage
  first
  | (simp [State.port, State.station, State.lane, State.ctx]; done)
  | ((repeat' split) <;> (simp [State.port, State.station, State.lane, State.ctx]; done))
  | (dsimp only
     and_intros <;> intros <;> (repeat' split) <;> simp [State.port, State.station, State.lane, State.ctx])

/-- `State.compose` changes `ports`, `stations` alone. -/
@[simp] theorem State.compose_frame (s : State) (l : LaneId) :
    (State.compose s l).lanes = s.lanes ∧ (State.compose s l).pool = s.pool ∧ (State.compose s l).visitCounter = s.visitCounter ∧
    (State.compose s l).lastServed = s.lastServed ∧ (State.compose s l).cache = s.cache ∧ (State.compose s l).slot = s.slot ∧
    (State.compose s l).check = s.check ∧ (State.compose s l).dest = s.dest ∧ (State.compose s l).signs = s.signs ∧
    (State.compose s l).uplink = s.uplink ∧ (State.compose s l).params = s.params ∧ (State.compose s l).resetHeld = s.resetHeld ∧
    (State.compose s l).pending = s.pending ∧ (∀ lane_ : LaneId, (State.compose s l).lane lane_ = s.lane lane_) ∧ (∀ ctx_ : CtxId, (State.compose s l).ctx ctx_ = s.ctx ctx_) := by
  unfold State.compose
  exact ⟨foldl_keeps (fun t : State => t.lanes) _ (by intros; split <;> simp) _ _,
    foldl_keeps (fun t : State => t.pool) _ (by intros; split <;> simp) _ _,
    foldl_keeps (fun t : State => t.visitCounter) _ (by intros; split <;> simp) _ _,
    foldl_keeps (fun t : State => t.lastServed) _ (by intros; split <;> simp) _ _,
    foldl_keeps (fun t : State => t.cache) _ (by intros; split <;> simp) _ _,
    foldl_keeps (fun t : State => t.slot) _ (by intros; split <;> simp) _ _,
    foldl_keeps (fun t : State => t.check) _ (by intros; split <;> simp) _ _,
    foldl_keeps (fun t : State => t.dest) _ (by intros; split <;> simp) _ _,
    foldl_keeps (fun t : State => t.signs) _ (by intros; split <;> simp) _ _,
    foldl_keeps (fun t : State => t.uplink) _ (by intros; split <;> simp) _ _,
    foldl_keeps (fun t : State => t.params) _ (by intros; split <;> simp) _ _,
    foldl_keeps (fun t : State => t.resetHeld) _ (by intros; split <;> simp) _ _,
    foldl_keeps (fun t : State => t.pending) _ (by intros; split <;> simp) _ _,
    fun lane_ => foldl_keeps (fun t : State => t.lane lane_) _ (by intros; split <;> simp) _ _,
    fun ctx_ => foldl_keeps (fun t : State => t.ctx ctx_) _ (by intros; split <;> simp) _ _⟩

/-- `State.composeAll` changes `ports`, `stations` alone. -/
@[simp] theorem State.composeAll_frame (s : State)  :
    (State.composeAll s).lanes = s.lanes ∧ (State.composeAll s).pool = s.pool ∧ (State.composeAll s).visitCounter = s.visitCounter ∧
    (State.composeAll s).lastServed = s.lastServed ∧ (State.composeAll s).cache = s.cache ∧ (State.composeAll s).slot = s.slot ∧
    (State.composeAll s).check = s.check ∧ (State.composeAll s).dest = s.dest ∧ (State.composeAll s).signs = s.signs ∧
    (State.composeAll s).uplink = s.uplink ∧ (State.composeAll s).params = s.params ∧ (State.composeAll s).resetHeld = s.resetHeld ∧
    (State.composeAll s).pending = s.pending ∧ (∀ lane_ : LaneId, (State.composeAll s).lane lane_ = s.lane lane_) ∧ (∀ ctx_ : CtxId, (State.composeAll s).ctx ctx_ = s.ctx ctx_) := by
  unfold State.composeAll
  exact ⟨foldl_keeps (fun t : State => t.lanes) _ (by intros; simp) _ _,
    foldl_keeps (fun t : State => t.pool) _ (by intros; simp) _ _,
    foldl_keeps (fun t : State => t.visitCounter) _ (by intros; simp) _ _,
    foldl_keeps (fun t : State => t.lastServed) _ (by intros; simp) _ _,
    foldl_keeps (fun t : State => t.cache) _ (by intros; simp) _ _,
    foldl_keeps (fun t : State => t.slot) _ (by intros; simp) _ _,
    foldl_keeps (fun t : State => t.check) _ (by intros; simp) _ _,
    foldl_keeps (fun t : State => t.dest) _ (by intros; simp) _ _,
    foldl_keeps (fun t : State => t.signs) _ (by intros; simp) _ _,
    foldl_keeps (fun t : State => t.uplink) _ (by intros; simp) _ _,
    foldl_keeps (fun t : State => t.params) _ (by intros; simp) _ _,
    foldl_keeps (fun t : State => t.resetHeld) _ (by intros; simp) _ _,
    foldl_keeps (fun t : State => t.pending) _ (by intros; simp) _ _,
    fun lane_ => foldl_keeps (fun t : State => t.lane lane_) _ (by intros; simp) _ _,
    fun ctx_ => foldl_keeps (fun t : State => t.ctx ctx_) _ (by intros; simp) _ _⟩

/-- `State.sendWaiting` changes `ports`, `stations` alone. -/
@[simp] theorem State.sendWaiting_frame (s : State) (ix : StationIx) :
    (State.sendWaiting s ix).lanes = s.lanes ∧ (State.sendWaiting s ix).pool = s.pool ∧ (State.sendWaiting s ix).visitCounter = s.visitCounter ∧
    (State.sendWaiting s ix).lastServed = s.lastServed ∧ (State.sendWaiting s ix).cache = s.cache ∧ (State.sendWaiting s ix).slot = s.slot ∧
    (State.sendWaiting s ix).check = s.check ∧ (State.sendWaiting s ix).dest = s.dest ∧ (State.sendWaiting s ix).signs = s.signs ∧
    (State.sendWaiting s ix).uplink = s.uplink ∧ (State.sendWaiting s ix).params = s.params ∧ (State.sendWaiting s ix).resetHeld = s.resetHeld ∧
    (State.sendWaiting s ix).pending = s.pending ∧ (∀ lane_ : LaneId, (State.sendWaiting s ix).lane lane_ = s.lane lane_) ∧ (∀ ctx_ : CtxId, (State.sendWaiting s ix).ctx ctx_ = s.ctx ctx_) := by
  unfold State.sendWaiting
  first
  | (simp [State.port, State.station, State.lane, State.ctx]; done)
  | ((repeat' split) <;> (simp [State.port, State.station, State.lane, State.ctx]; done))
  | (dsimp only
     and_intros <;> intros <;> (repeat' split) <;> simp [State.port, State.station, State.lane, State.ctx])

/-- `State.signHearing` changes `ports`, `stations` alone. -/
@[simp] theorem State.signHearing_frame (s : State) (ix : StationIx) :
    (State.signHearing s ix).lanes = s.lanes ∧ (State.signHearing s ix).pool = s.pool ∧ (State.signHearing s ix).visitCounter = s.visitCounter ∧
    (State.signHearing s ix).lastServed = s.lastServed ∧ (State.signHearing s ix).cache = s.cache ∧ (State.signHearing s ix).slot = s.slot ∧
    (State.signHearing s ix).check = s.check ∧ (State.signHearing s ix).dest = s.dest ∧ (State.signHearing s ix).signs = s.signs ∧
    (State.signHearing s ix).uplink = s.uplink ∧ (State.signHearing s ix).params = s.params ∧ (State.signHearing s ix).resetHeld = s.resetHeld ∧
    (State.signHearing s ix).pending = s.pending ∧ (∀ lane_ : LaneId, (State.signHearing s ix).lane lane_ = s.lane lane_) ∧ (∀ ctx_ : CtxId, (State.signHearing s ix).ctx ctx_ = s.ctx ctx_) := by
  unfold State.signHearing
  first
  | (simp [State.port, State.station, State.lane, State.ctx]; done)
  | ((repeat' split) <;> (simp [State.port, State.station, State.lane, State.ctx]; done))
  | (dsimp only
     and_intros <;> intros <;> (repeat' split) <;> simp [State.port, State.station, State.lane, State.ctx])

/-- `State.stationEvent` changes `uplink` alone. -/
@[simp] theorem State.stationEvent_frame (s : State) (ix : StationIx) (c : StationCause) (a b : Option (BitVec 32)) :
    (State.stationEvent s ix c a b).ports = s.ports ∧ (State.stationEvent s ix c a b).stations = s.stations ∧ (State.stationEvent s ix c a b).lanes = s.lanes ∧
    (State.stationEvent s ix c a b).pool = s.pool ∧ (State.stationEvent s ix c a b).visitCounter = s.visitCounter ∧ (State.stationEvent s ix c a b).lastServed = s.lastServed ∧
    (State.stationEvent s ix c a b).cache = s.cache ∧ (State.stationEvent s ix c a b).slot = s.slot ∧ (State.stationEvent s ix c a b).check = s.check ∧
    (State.stationEvent s ix c a b).dest = s.dest ∧ (State.stationEvent s ix c a b).signs = s.signs ∧ (State.stationEvent s ix c a b).params = s.params ∧
    (State.stationEvent s ix c a b).resetHeld = s.resetHeld ∧ (State.stationEvent s ix c a b).pending = s.pending ∧ (∀ seg_ : Seg, (State.stationEvent s ix c a b).port seg_ = s.port seg_) ∧
    (∀ ix_ : StationIx, (State.stationEvent s ix c a b).station ix_ = s.station ix_) ∧ (∀ lane_ : LaneId, (State.stationEvent s ix c a b).lane lane_ = s.lane lane_) ∧ (∀ ctx_ : CtxId, (State.stationEvent s ix c a b).ctx ctx_ = s.ctx ctx_) := by
  unfold State.stationEvent
  first
  | (simp [State.port, State.station, State.lane, State.ctx]; done)
  | ((repeat' split) <;> (simp [State.port, State.station, State.lane, State.ctx]; done))
  | (dsimp only
     and_intros <;> intros <;> (repeat' split) <;> simp [State.port, State.station, State.lane, State.ctx])

/-- `State.signAck` changes `ports`, `stations`, `signs`, `uplink` alone. -/
@[simp] theorem State.signAck_frame (s : State) (ix : StationIx) (n : Nat) :
    (State.signAck s ix n).lanes = s.lanes ∧ (State.signAck s ix n).pool = s.pool ∧ (State.signAck s ix n).visitCounter = s.visitCounter ∧
    (State.signAck s ix n).lastServed = s.lastServed ∧ (State.signAck s ix n).cache = s.cache ∧ (State.signAck s ix n).slot = s.slot ∧
    (State.signAck s ix n).check = s.check ∧ (State.signAck s ix n).dest = s.dest ∧ (State.signAck s ix n).params = s.params ∧
    (State.signAck s ix n).resetHeld = s.resetHeld ∧ (State.signAck s ix n).pending = s.pending ∧ (∀ lane_ : LaneId, (State.signAck s ix n).lane lane_ = s.lane lane_) ∧
    (∀ ctx_ : CtxId, (State.signAck s ix n).ctx ctx_ = s.ctx ctx_) := by
  unfold State.signAck
  first
  | (simp [State.port, State.station, State.lane, State.ctx]; done)
  | ((repeat' split) <;> (simp [State.port, State.station, State.lane, State.ctx]; done))
  | (dsimp only
     and_intros <;> intros <;> (repeat' split) <;> simp [State.port, State.station, State.lane, State.ctx])

/-- `State.signExpiry` changes `stations`, `signs`, `uplink` alone. -/
@[simp] theorem State.signExpiry_frame (s : State) (ix : StationIx) :
    (State.signExpiry s ix).ports = s.ports ∧ (State.signExpiry s ix).lanes = s.lanes ∧ (State.signExpiry s ix).pool = s.pool ∧
    (State.signExpiry s ix).visitCounter = s.visitCounter ∧ (State.signExpiry s ix).lastServed = s.lastServed ∧ (State.signExpiry s ix).cache = s.cache ∧
    (State.signExpiry s ix).slot = s.slot ∧ (State.signExpiry s ix).check = s.check ∧ (State.signExpiry s ix).dest = s.dest ∧
    (State.signExpiry s ix).params = s.params ∧ (State.signExpiry s ix).resetHeld = s.resetHeld ∧ (State.signExpiry s ix).pending = s.pending ∧
    (∀ seg_ : Seg, (State.signExpiry s ix).port seg_ = s.port seg_) ∧ (∀ lane_ : LaneId, (State.signExpiry s ix).lane lane_ = s.lane lane_) ∧ (∀ ctx_ : CtxId, (State.signExpiry s ix).ctx ctx_ = s.ctx ctx_) := by
  unfold State.signExpiry
  first
  | (simp [State.port, State.station, State.lane, State.ctx]; done)
  | ((repeat' split) <;> (simp [State.port, State.station, State.lane, State.ctx]; done))
  | (dsimp only
     and_intros <;> intros <;> (repeat' split) <;> simp [State.port, State.station, State.lane, State.ctx])

/-- `State.signSilent` changes `stations` alone. -/
@[simp] theorem State.signSilent_frame (s : State) (ix : StationIx) :
    (State.signSilent s ix).ports = s.ports ∧ (State.signSilent s ix).lanes = s.lanes ∧ (State.signSilent s ix).pool = s.pool ∧
    (State.signSilent s ix).visitCounter = s.visitCounter ∧ (State.signSilent s ix).lastServed = s.lastServed ∧ (State.signSilent s ix).cache = s.cache ∧
    (State.signSilent s ix).slot = s.slot ∧ (State.signSilent s ix).check = s.check ∧ (State.signSilent s ix).dest = s.dest ∧
    (State.signSilent s ix).signs = s.signs ∧ (State.signSilent s ix).uplink = s.uplink ∧ (State.signSilent s ix).params = s.params ∧
    (State.signSilent s ix).resetHeld = s.resetHeld ∧ (State.signSilent s ix).pending = s.pending ∧ (∀ seg_ : Seg, (State.signSilent s ix).port seg_ = s.port seg_) ∧
    (∀ lane_ : LaneId, (State.signSilent s ix).lane lane_ = s.lane lane_) ∧ (∀ ctx_ : CtxId, (State.signSilent s ix).ctx ctx_ = s.ctx ctx_) := by
  unfold State.signSilent
  first
  | (simp [State.port, State.station, State.lane, State.ctx]; done)
  | ((repeat' split) <;> (simp [State.port, State.station, State.lane, State.ctx]; done))
  | (dsimp only
     and_intros <;> intros <;> (repeat' split) <;> simp [State.port, State.station, State.lane, State.ctx])

/-- `State.issueTicket` changes `ports`, `stations`, `signs`, `pool` alone. -/
@[simp] theorem State.issueTicket_frame (s : State) (id : CtxId) :
    (State.issueTicket s id).lanes = s.lanes ∧ (State.issueTicket s id).visitCounter = s.visitCounter ∧ (State.issueTicket s id).lastServed = s.lastServed ∧
    (State.issueTicket s id).cache = s.cache ∧ (State.issueTicket s id).slot = s.slot ∧ (State.issueTicket s id).check = s.check ∧
    (State.issueTicket s id).dest = s.dest ∧ (State.issueTicket s id).uplink = s.uplink ∧ (State.issueTicket s id).params = s.params ∧
    (State.issueTicket s id).resetHeld = s.resetHeld ∧ (State.issueTicket s id).pending = s.pending ∧ (∀ lane_ : LaneId, (State.issueTicket s id).lane lane_ = s.lane lane_) := by
  unfold State.issueTicket
  first
  | (simp [State.port, State.station, State.lane, State.ctx]; done)
  | ((repeat' split) <;> (simp [State.port, State.station, State.lane, State.ctx]; done))
  | (dsimp only
     and_intros <;> intros <;> (repeat' split) <;> simp [State.port, State.station, State.lane, State.ctx])

/-- `State.ticketAck` changes `stations`, `signs` alone. -/
@[simp] theorem State.ticketAck_frame (s : State) (ix : StationIx) (n : Nat) :
    (State.ticketAck s ix n).ports = s.ports ∧ (State.ticketAck s ix n).lanes = s.lanes ∧ (State.ticketAck s ix n).pool = s.pool ∧
    (State.ticketAck s ix n).visitCounter = s.visitCounter ∧ (State.ticketAck s ix n).lastServed = s.lastServed ∧ (State.ticketAck s ix n).cache = s.cache ∧
    (State.ticketAck s ix n).slot = s.slot ∧ (State.ticketAck s ix n).check = s.check ∧ (State.ticketAck s ix n).dest = s.dest ∧
    (State.ticketAck s ix n).uplink = s.uplink ∧ (State.ticketAck s ix n).params = s.params ∧ (State.ticketAck s ix n).resetHeld = s.resetHeld ∧
    (State.ticketAck s ix n).pending = s.pending ∧ (∀ seg_ : Seg, (State.ticketAck s ix n).port seg_ = s.port seg_) ∧ (∀ lane_ : LaneId, (State.ticketAck s ix n).lane lane_ = s.lane lane_) ∧
    (∀ ctx_ : CtxId, (State.ticketAck s ix n).ctx ctx_ = s.ctx ctx_) := by
  unfold State.ticketAck
  first
  | (simp [State.port, State.station, State.lane, State.ctx]; done)
  | ((repeat' split) <;> (simp [State.port, State.station, State.lane, State.ctx]; done))
  | (dsimp only
     and_intros <;> intros <;> (repeat' split) <;> simp [State.port, State.station, State.lane, State.ctx])

/-- `State.ticketExpiry` changes `stations`, `signs` alone. -/
@[simp] theorem State.ticketExpiry_frame (s : State) (ix : StationIx) (n : Nat) :
    (State.ticketExpiry s ix n).ports = s.ports ∧ (State.ticketExpiry s ix n).lanes = s.lanes ∧ (State.ticketExpiry s ix n).pool = s.pool ∧
    (State.ticketExpiry s ix n).visitCounter = s.visitCounter ∧ (State.ticketExpiry s ix n).lastServed = s.lastServed ∧ (State.ticketExpiry s ix n).cache = s.cache ∧
    (State.ticketExpiry s ix n).slot = s.slot ∧ (State.ticketExpiry s ix n).check = s.check ∧ (State.ticketExpiry s ix n).dest = s.dest ∧
    (State.ticketExpiry s ix n).uplink = s.uplink ∧ (State.ticketExpiry s ix n).params = s.params ∧ (State.ticketExpiry s ix n).resetHeld = s.resetHeld ∧
    (State.ticketExpiry s ix n).pending = s.pending ∧ (∀ seg_ : Seg, (State.ticketExpiry s ix n).port seg_ = s.port seg_) ∧ (∀ lane_ : LaneId, (State.ticketExpiry s ix n).lane lane_ = s.lane lane_) ∧
    (∀ ctx_ : CtxId, (State.ticketExpiry s ix n).ctx ctx_ = s.ctx ctx_) := by
  unfold State.ticketExpiry
  first
  | (simp [State.port, State.station, State.lane, State.ctx]; done)
  | ((repeat' split) <;> (simp [State.port, State.station, State.lane, State.ctx]; done))
  | (dsimp only
     and_intros <;> intros <;> (repeat' split) <;> simp [State.port, State.station, State.lane, State.ctx])

/-! ### Lane modes and silence -/

/-- `State.changeMode` changes `ports`, `stations`, `lanes`, `uplink` alone. -/
@[simp] theorem State.changeMode_frame (s : State) (l : LaneId) (m : LaneMode) (c : ModeCause) (h : Option StationIx) :
    (State.changeMode s l m c h).pool = s.pool ∧ (State.changeMode s l m c h).visitCounter = s.visitCounter ∧ (State.changeMode s l m c h).lastServed = s.lastServed ∧
    (State.changeMode s l m c h).cache = s.cache ∧ (State.changeMode s l m c h).slot = s.slot ∧ (State.changeMode s l m c h).check = s.check ∧
    (State.changeMode s l m c h).dest = s.dest ∧ (State.changeMode s l m c h).signs = s.signs ∧ (State.changeMode s l m c h).params = s.params ∧
    (State.changeMode s l m c h).resetHeld = s.resetHeld ∧ (State.changeMode s l m c h).pending = s.pending ∧ (∀ ctx_ : CtxId, (State.changeMode s l m c h).ctx ctx_ = s.ctx ctx_) := by
  unfold State.changeMode
  first
  | (simp [State.port, State.station, State.lane, State.ctx]; done)
  | ((repeat' split) <;> (simp [State.port, State.station, State.lane, State.ctx]; done))
  | (dsimp only
     and_intros <;> intros <;> (repeat' split) <;> simp [State.port, State.station, State.lane, State.ctx])

/-- `State.latchOutputs` changes `lanes` alone. -/
@[simp] theorem State.latchOutputs_frame (s : State) (l : LaneId) :
    (State.latchOutputs s l).ports = s.ports ∧ (State.latchOutputs s l).stations = s.stations ∧ (State.latchOutputs s l).pool = s.pool ∧
    (State.latchOutputs s l).visitCounter = s.visitCounter ∧ (State.latchOutputs s l).lastServed = s.lastServed ∧ (State.latchOutputs s l).cache = s.cache ∧
    (State.latchOutputs s l).slot = s.slot ∧ (State.latchOutputs s l).check = s.check ∧ (State.latchOutputs s l).dest = s.dest ∧
    (State.latchOutputs s l).signs = s.signs ∧ (State.latchOutputs s l).uplink = s.uplink ∧ (State.latchOutputs s l).params = s.params ∧
    (State.latchOutputs s l).resetHeld = s.resetHeld ∧ (State.latchOutputs s l).pending = s.pending ∧ (∀ seg_ : Seg, (State.latchOutputs s l).port seg_ = s.port seg_) ∧
    (∀ ix_ : StationIx, (State.latchOutputs s l).station ix_ = s.station ix_) ∧ (∀ ctx_ : CtxId, (State.latchOutputs s l).ctx ctx_ = s.ctx ctx_) := by
  unfold State.latchOutputs
  first
  | (simp [State.port, State.station, State.lane, State.ctx]; done)
  | ((repeat' split) <;> (simp [State.port, State.station, State.lane, State.ctx]; done))
  | (dsimp only
     and_intros <;> intros <;> (repeat' split) <;> simp [State.port, State.station, State.lane, State.ctx])

/-- `State.endHoldOn` changes `ports`, `stations`, `lanes`, `uplink` alone. -/
@[simp] theorem State.endHoldOn_frame (c : ModeCause) (ix : StationIx) (s : State) (l : LaneId) :
    (State.endHoldOn c ix s l).pool = s.pool ∧ (State.endHoldOn c ix s l).visitCounter = s.visitCounter ∧ (State.endHoldOn c ix s l).lastServed = s.lastServed ∧
    (State.endHoldOn c ix s l).cache = s.cache ∧ (State.endHoldOn c ix s l).slot = s.slot ∧ (State.endHoldOn c ix s l).check = s.check ∧
    (State.endHoldOn c ix s l).dest = s.dest ∧ (State.endHoldOn c ix s l).signs = s.signs ∧ (State.endHoldOn c ix s l).params = s.params ∧
    (State.endHoldOn c ix s l).resetHeld = s.resetHeld ∧ (State.endHoldOn c ix s l).pending = s.pending ∧ (∀ ctx_ : CtxId, (State.endHoldOn c ix s l).ctx ctx_ = s.ctx ctx_) := by
  unfold State.endHoldOn
  first
  | (simp [State.port, State.station, State.lane, State.ctx]; done)
  | ((repeat' split) <;> (simp [State.port, State.station, State.lane, State.ctx]; done))
  | (dsimp only
     and_intros <;> intros <;> (repeat' split) <;> simp [State.port, State.station, State.lane, State.ctx])

/-- `State.endHold` changes `ports`, `stations`, `lanes`, `uplink` alone. -/
@[simp] theorem State.endHold_frame (s : State) (ix : StationIx) (c : ModeCause) :
    (State.endHold s ix c).pool = s.pool ∧ (State.endHold s ix c).visitCounter = s.visitCounter ∧ (State.endHold s ix c).lastServed = s.lastServed ∧
    (State.endHold s ix c).cache = s.cache ∧ (State.endHold s ix c).slot = s.slot ∧ (State.endHold s ix c).check = s.check ∧
    (State.endHold s ix c).dest = s.dest ∧ (State.endHold s ix c).signs = s.signs ∧ (State.endHold s ix c).params = s.params ∧
    (State.endHold s ix c).resetHeld = s.resetHeld ∧ (State.endHold s ix c).pending = s.pending ∧ (∀ ctx_ : CtxId, (State.endHold s ix c).ctx ctx_ = s.ctx ctx_) := by
  unfold State.endHold
  exact ⟨foldl_keeps (fun t : State => t.pool) _ (by intros; simp) _ _,
    foldl_keeps (fun t : State => t.visitCounter) _ (by intros; simp) _ _,
    foldl_keeps (fun t : State => t.lastServed) _ (by intros; simp) _ _,
    foldl_keeps (fun t : State => t.cache) _ (by intros; simp) _ _,
    foldl_keeps (fun t : State => t.slot) _ (by intros; simp) _ _,
    foldl_keeps (fun t : State => t.check) _ (by intros; simp) _ _,
    foldl_keeps (fun t : State => t.dest) _ (by intros; simp) _ _,
    foldl_keeps (fun t : State => t.signs) _ (by intros; simp) _ _,
    foldl_keeps (fun t : State => t.params) _ (by intros; simp) _ _,
    foldl_keeps (fun t : State => t.resetHeld) _ (by intros; simp) _ _,
    foldl_keeps (fun t : State => t.pending) _ (by intros; simp) _ _,
    fun ctx_ => foldl_keeps (fun t : State => t.ctx ctx_) _ (by intros; simp) _ _⟩

/-- `State.becomeSilent` changes `ports`, `stations`, `lanes`, `uplink` alone. -/
@[simp] theorem State.becomeSilent_frame (s : State) (ix : StationIx) :
    (State.becomeSilent s ix).pool = s.pool ∧ (State.becomeSilent s ix).visitCounter = s.visitCounter ∧ (State.becomeSilent s ix).lastServed = s.lastServed ∧
    (State.becomeSilent s ix).cache = s.cache ∧ (State.becomeSilent s ix).slot = s.slot ∧ (State.becomeSilent s ix).check = s.check ∧
    (State.becomeSilent s ix).dest = s.dest ∧ (State.becomeSilent s ix).signs = s.signs ∧ (State.becomeSilent s ix).params = s.params ∧
    (State.becomeSilent s ix).resetHeld = s.resetHeld ∧ (State.becomeSilent s ix).pending = s.pending ∧ (∀ ctx_ : CtxId, (State.becomeSilent s ix).ctx ctx_ = s.ctx ctx_) := by
  unfold State.becomeSilent
  first
  | (simp [State.port, State.station, State.lane, State.ctx]; done)
  | ((repeat' split) <;> (simp [State.port, State.station, State.lane, State.ctx]; done))
  | (dsimp only
     and_intros <;> intros <;> (repeat' split) <;> simp [State.port, State.station, State.lane, State.ctx])

/-- `State.clearPending` changes `lanes` alone. -/
@[simp] theorem State.clearPending_frame (s : State) (l : LaneId) :
    (State.clearPending s l).ports = s.ports ∧ (State.clearPending s l).stations = s.stations ∧ (State.clearPending s l).pool = s.pool ∧
    (State.clearPending s l).visitCounter = s.visitCounter ∧ (State.clearPending s l).lastServed = s.lastServed ∧ (State.clearPending s l).cache = s.cache ∧
    (State.clearPending s l).slot = s.slot ∧ (State.clearPending s l).check = s.check ∧ (State.clearPending s l).dest = s.dest ∧
    (State.clearPending s l).signs = s.signs ∧ (State.clearPending s l).uplink = s.uplink ∧ (State.clearPending s l).params = s.params ∧
    (State.clearPending s l).resetHeld = s.resetHeld ∧ (State.clearPending s l).pending = s.pending ∧ (∀ seg_ : Seg, (State.clearPending s l).port seg_ = s.port seg_) ∧
    (∀ ix_ : StationIx, (State.clearPending s l).station ix_ = s.station ix_) ∧ (∀ ctx_ : CtxId, (State.clearPending s l).ctx ctx_ = s.ctx ctx_) := by
  unfold State.clearPending
  first
  | (simp [State.port, State.station, State.lane, State.ctx]; done)
  | ((repeat' split) <;> (simp [State.port, State.station, State.lane, State.ctx]; done))
  | (dsimp only
     and_intros <;> intros <;> (repeat' split) <;> simp [State.port, State.station, State.lane, State.ctx])

end Sys2Proof.Machine
end

