-- ==== Sys2Proof/Laws/Cache.lean ====
section
/-! SUPPORT. The booking cache: each of its operations changes the cache, the links of contexts and the report queue alone. -/

set_option linter.all false

namespace Sys2Proof.Machine

/-- `State.updEntry` changes `cache` alone. -/
@[simp] theorem State.updEntry_frame (s : State) (i : Fin 1024) (y : Fin 2) (f : Entry → Entry) :
    (State.updEntry s i y f).ports = s.ports ∧ (State.updEntry s i y f).stations = s.stations ∧ (State.updEntry s i y f).lanes = s.lanes ∧
    (State.updEntry s i y f).pool = s.pool ∧ (State.updEntry s i y f).visitCounter = s.visitCounter ∧ (State.updEntry s i y f).lastServed = s.lastServed ∧
    (State.updEntry s i y f).slot = s.slot ∧ (State.updEntry s i y f).check = s.check ∧ (State.updEntry s i y f).dest = s.dest ∧
    (State.updEntry s i y f).signs = s.signs ∧ (State.updEntry s i y f).uplink = s.uplink ∧ (State.updEntry s i y f).params = s.params ∧
    (State.updEntry s i y f).resetHeld = s.resetHeld ∧ (State.updEntry s i y f).pending = s.pending ∧ (∀ seg_ : Seg, (State.updEntry s i y f).port seg_ = s.port seg_) ∧
    (∀ ix_ : StationIx, (State.updEntry s i y f).station ix_ = s.station ix_) ∧ (∀ lane_ : LaneId, (State.updEntry s i y f).lane lane_ = s.lane lane_) ∧ (∀ ctx_ : CtxId, (State.updEntry s i y f).ctx ctx_ = s.ctx ctx_) := by
  unfold State.updEntry
  first
  | (simp [State.port, State.station, State.lane, State.ctx]; done)
  | ((repeat' split) <;> (simp [State.port, State.station, State.lane, State.ctx]; done))
  | (dsimp only
     and_intros <;> intros <;> (repeat' split) <;> simp [State.port, State.station, State.lane, State.ctx])

/-- `State.setAge` changes `cache` alone. -/
@[simp] theorem State.setAge_frame (s : State) (i : Fin 1024) (y : Fin 2) :
    (State.setAge s i y).ports = s.ports ∧ (State.setAge s i y).stations = s.stations ∧ (State.setAge s i y).lanes = s.lanes ∧
    (State.setAge s i y).pool = s.pool ∧ (State.setAge s i y).visitCounter = s.visitCounter ∧ (State.setAge s i y).lastServed = s.lastServed ∧
    (State.setAge s i y).slot = s.slot ∧ (State.setAge s i y).check = s.check ∧ (State.setAge s i y).dest = s.dest ∧
    (State.setAge s i y).signs = s.signs ∧ (State.setAge s i y).uplink = s.uplink ∧ (State.setAge s i y).params = s.params ∧
    (State.setAge s i y).resetHeld = s.resetHeld ∧ (State.setAge s i y).pending = s.pending ∧ (∀ seg_ : Seg, (State.setAge s i y).port seg_ = s.port seg_) ∧
    (∀ ix_ : StationIx, (State.setAge s i y).station ix_ = s.station ix_) ∧ (∀ lane_ : LaneId, (State.setAge s i y).lane lane_ = s.lane lane_) ∧ (∀ ctx_ : CtxId, (State.setAge s i y).ctx ctx_ = s.ctx ctx_) := by
  unfold State.setAge
  first
  | (simp [State.port, State.station, State.lane, State.ctx]; done)
  | ((repeat' split) <;> (simp [State.port, State.station, State.lane, State.ctx]; done))
  | (dsimp only
     and_intros <;> intros <;> (repeat' split) <;> simp [State.port, State.station, State.lane, State.ctx])

/-- `State.setSlot` changes `cache` alone. -/
@[simp] theorem State.setSlot_frame (s : State) (i : Fin 16) (f : Option Fetch) :
    (State.setSlot s i f).ports = s.ports ∧ (State.setSlot s i f).stations = s.stations ∧ (State.setSlot s i f).lanes = s.lanes ∧
    (State.setSlot s i f).pool = s.pool ∧ (State.setSlot s i f).visitCounter = s.visitCounter ∧ (State.setSlot s i f).lastServed = s.lastServed ∧
    (State.setSlot s i f).slot = s.slot ∧ (State.setSlot s i f).check = s.check ∧ (State.setSlot s i f).dest = s.dest ∧
    (State.setSlot s i f).signs = s.signs ∧ (State.setSlot s i f).uplink = s.uplink ∧ (State.setSlot s i f).params = s.params ∧
    (State.setSlot s i f).resetHeld = s.resetHeld ∧ (State.setSlot s i f).pending = s.pending ∧ (∀ seg_ : Seg, (State.setSlot s i f).port seg_ = s.port seg_) ∧
    (∀ ix_ : StationIx, (State.setSlot s i f).station ix_ = s.station ix_) ∧ (∀ lane_ : LaneId, (State.setSlot s i f).lane lane_ = s.lane lane_) ∧ (∀ ctx_ : CtxId, (State.setSlot s i f).ctx ctx_ = s.ctx ctx_) := by
  unfold State.setSlot
  first
  | (simp [State.port, State.station, State.lane, State.ctx]; done)
  | ((repeat' split) <;> (simp [State.port, State.station, State.lane, State.ctx]; done))
  | (dsimp only
     and_intros <;> intros <;> (repeat' split) <;> simp [State.port, State.station, State.lane, State.ctx])

/-- `State.setCopy` changes `cache` alone. -/
@[simp] theorem State.setCopy_frame (s : State) (i : Fin 48) (p : Option PrivateCopy) :
    (State.setCopy s i p).ports = s.ports ∧ (State.setCopy s i p).stations = s.stations ∧ (State.setCopy s i p).lanes = s.lanes ∧
    (State.setCopy s i p).pool = s.pool ∧ (State.setCopy s i p).visitCounter = s.visitCounter ∧ (State.setCopy s i p).lastServed = s.lastServed ∧
    (State.setCopy s i p).slot = s.slot ∧ (State.setCopy s i p).check = s.check ∧ (State.setCopy s i p).dest = s.dest ∧
    (State.setCopy s i p).signs = s.signs ∧ (State.setCopy s i p).uplink = s.uplink ∧ (State.setCopy s i p).params = s.params ∧
    (State.setCopy s i p).resetHeld = s.resetHeld ∧ (State.setCopy s i p).pending = s.pending ∧ (∀ seg_ : Seg, (State.setCopy s i p).port seg_ = s.port seg_) ∧
    (∀ ix_ : StationIx, (State.setCopy s i p).station ix_ = s.station ix_) ∧ (∀ lane_ : LaneId, (State.setCopy s i p).lane lane_ = s.lane lane_) ∧ (∀ ctx_ : CtxId, (State.setCopy s i p).ctx ctx_ = s.ctx ctx_) := by
  unfold State.setCopy
  first
  | (simp [State.port, State.station, State.lane, State.ctx]; done)
  | ((repeat' split) <;> (simp [State.port, State.station, State.lane, State.ctx]; done))
  | (dsimp only
     and_intros <;> intros <;> (repeat' split) <;> simp [State.port, State.station, State.lane, State.ctx])

/-- `State.updCopy` changes `cache` alone. -/
@[simp] theorem State.updCopy_frame (s : State) (i : Fin 48) (f : PrivateCopy → PrivateCopy) :
    (State.updCopy s i f).ports = s.ports ∧ (State.updCopy s i f).stations = s.stations ∧ (State.updCopy s i f).lanes = s.lanes ∧
    (State.updCopy s i f).pool = s.pool ∧ (State.updCopy s i f).visitCounter = s.visitCounter ∧ (State.updCopy s i f).lastServed = s.lastServed ∧
    (State.updCopy s i f).slot = s.slot ∧ (State.updCopy s i f).check = s.check ∧ (State.updCopy s i f).dest = s.dest ∧
    (State.updCopy s i f).signs = s.signs ∧ (State.updCopy s i f).uplink = s.uplink ∧ (State.updCopy s i f).params = s.params ∧
    (State.updCopy s i f).resetHeld = s.resetHeld ∧ (State.updCopy s i f).pending = s.pending ∧ (∀ seg_ : Seg, (State.updCopy s i f).port seg_ = s.port seg_) ∧
    (∀ ix_ : StationIx, (State.updCopy s i f).station ix_ = s.station ix_) ∧ (∀ lane_ : LaneId, (State.updCopy s i f).lane lane_ = s.lane lane_) ∧ (∀ ctx_ : CtxId, (State.updCopy s i f).ctx ctx_ = s.ctx ctx_) := by
  unfold State.updCopy
  first
  | (simp [State.port, State.station, State.lane, State.ctx]; done)
  | ((repeat' split) <;> (simp [State.port, State.station, State.lane, State.ctx]; done))
  | (dsimp only
     and_intros <;> intros <;> (repeat' split) <;> simp [State.port, State.station, State.lane, State.ctx])

/-- `State.updLink` changes `pool` alone. -/
@[simp] theorem State.updLink_frame (s : State) (r : LinkRef) (f : Link → Link) :
    (State.updLink s r f).ports = s.ports ∧ (State.updLink s r f).stations = s.stations ∧ (State.updLink s r f).lanes = s.lanes ∧
    (State.updLink s r f).visitCounter = s.visitCounter ∧ (State.updLink s r f).lastServed = s.lastServed ∧ (State.updLink s r f).cache = s.cache ∧
    (State.updLink s r f).slot = s.slot ∧ (State.updLink s r f).check = s.check ∧ (State.updLink s r f).dest = s.dest ∧
    (State.updLink s r f).signs = s.signs ∧ (State.updLink s r f).uplink = s.uplink ∧ (State.updLink s r f).params = s.params ∧
    (State.updLink s r f).resetHeld = s.resetHeld ∧ (State.updLink s r f).pending = s.pending ∧ (∀ seg_ : Seg, (State.updLink s r f).port seg_ = s.port seg_) ∧
    (∀ ix_ : StationIx, (State.updLink s r f).station ix_ = s.station ix_) ∧ (∀ lane_ : LaneId, (State.updLink s r f).lane lane_ = s.lane lane_) := by
  unfold State.updLink
  first
  | (simp [State.port, State.station, State.lane, State.ctx]; done)
  | ((repeat' split) <;> (simp [State.port, State.station, State.lane, State.ctx]; done))
  | (dsimp only
     and_intros <;> intros <;> (repeat' split) <;> simp [State.port, State.station, State.lane, State.ctx])

/-- `State.setHeld` changes `cache` alone. -/
@[simp] theorem State.setHeld_frame (s : State) (t : Target) (n : Nat) :
    (State.setHeld s t n).ports = s.ports ∧ (State.setHeld s t n).stations = s.stations ∧ (State.setHeld s t n).lanes = s.lanes ∧
    (State.setHeld s t n).pool = s.pool ∧ (State.setHeld s t n).visitCounter = s.visitCounter ∧ (State.setHeld s t n).lastServed = s.lastServed ∧
    (State.setHeld s t n).slot = s.slot ∧ (State.setHeld s t n).check = s.check ∧ (State.setHeld s t n).dest = s.dest ∧
    (State.setHeld s t n).signs = s.signs ∧ (State.setHeld s t n).uplink = s.uplink ∧ (State.setHeld s t n).params = s.params ∧
    (State.setHeld s t n).resetHeld = s.resetHeld ∧ (State.setHeld s t n).pending = s.pending ∧ (∀ seg_ : Seg, (State.setHeld s t n).port seg_ = s.port seg_) ∧
    (∀ ix_ : StationIx, (State.setHeld s t n).station ix_ = s.station ix_) ∧ (∀ lane_ : LaneId, (State.setHeld s t n).lane lane_ = s.lane lane_) ∧ (∀ ctx_ : CtxId, (State.setHeld s t n).ctx ctx_ = s.ctx ctx_) := by
  unfold State.setHeld
  first
  | (simp [State.port, State.station, State.lane, State.ctx]; done)
  | ((repeat' split) <;> (simp [State.port, State.station, State.lane, State.ctx]; done))
  | (dsimp only
     and_intros <;> intros <;> (repeat' split) <;> simp [State.port, State.station, State.lane, State.ctx])

/-- `State.setRecord` changes `cache` alone. -/
@[simp] theorem State.setRecord_frame (s : State) (t : Target) (r : Record) :
    (State.setRecord s t r).ports = s.ports ∧ (State.setRecord s t r).stations = s.stations ∧ (State.setRecord s t r).lanes = s.lanes ∧
    (State.setRecord s t r).pool = s.pool ∧ (State.setRecord s t r).visitCounter = s.visitCounter ∧ (State.setRecord s t r).lastServed = s.lastServed ∧
    (State.setRecord s t r).slot = s.slot ∧ (State.setRecord s t r).check = s.check ∧ (State.setRecord s t r).dest = s.dest ∧
    (State.setRecord s t r).signs = s.signs ∧ (State.setRecord s t r).uplink = s.uplink ∧ (State.setRecord s t r).params = s.params ∧
    (State.setRecord s t r).resetHeld = s.resetHeld ∧ (State.setRecord s t r).pending = s.pending ∧ (∀ seg_ : Seg, (State.setRecord s t r).port seg_ = s.port seg_) ∧
    (∀ ix_ : StationIx, (State.setRecord s t r).station ix_ = s.station ix_) ∧ (∀ lane_ : LaneId, (State.setRecord s t r).lane lane_ = s.lane lane_) ∧ (∀ ctx_ : CtxId, (State.setRecord s t r).ctx ctx_ = s.ctx ctx_) := by
  unfold State.setRecord
  first
  | (simp [State.port, State.station, State.lane, State.ctx]; done)
  | ((repeat' split) <;> (simp [State.port, State.station, State.lane, State.ctx]; done))
  | (dsimp only
     and_intros <;> intros <;> (repeat' split) <;> simp [State.port, State.station, State.lane, State.ctx])

@[simp] theorem Work.upd_st (w : Work) (f : State → State) : (w.upd f).st = f w.st := rfl
@[simp] theorem Work.upd_retry (w : Work) (f : State → State) : (w.upd f).retry = w.retry := rfl
@[simp] theorem Work.upd_touched (w : Work) (f : State → State) : (w.upd f).touched = w.touched := rfl

/-- `Work.entryPartDone` changes `cache` alone. -/
@[simp] theorem Work.entryPartDone_frame (w : Work) (k : Text) :
    ((Work.entryPartDone w k).st).ports = w.st.ports ∧ ((Work.entryPartDone w k).st).stations = w.st.stations ∧ ((Work.entryPartDone w k).st).lanes = w.st.lanes ∧
    ((Work.entryPartDone w k).st).pool = w.st.pool ∧ ((Work.entryPartDone w k).st).visitCounter = w.st.visitCounter ∧ ((Work.entryPartDone w k).st).lastServed = w.st.lastServed ∧
    ((Work.entryPartDone w k).st).slot = w.st.slot ∧ ((Work.entryPartDone w k).st).check = w.st.check ∧ ((Work.entryPartDone w k).st).dest = w.st.dest ∧
    ((Work.entryPartDone w k).st).signs = w.st.signs ∧ ((Work.entryPartDone w k).st).uplink = w.st.uplink ∧ ((Work.entryPartDone w k).st).params = w.st.params ∧
    ((Work.entryPartDone w k).st).resetHeld = w.st.resetHeld ∧ ((Work.entryPartDone w k).st).pending = w.st.pending ∧ (∀ seg_ : Seg, ((Work.entryPartDone w k).st).port seg_ = w.st.port seg_) ∧
    (∀ ix_ : StationIx, ((Work.entryPartDone w k).st).station ix_ = w.st.station ix_) ∧ (∀ lane_ : LaneId, ((Work.entryPartDone w k).st).lane lane_ = w.st.lane lane_) ∧ (∀ ctx_ : CtxId, ((Work.entryPartDone w k).st).ctx ctx_ = w.st.ctx ctx_) := by
  unfold Work.entryPartDone
  first
  | (simp [State.port, State.station, State.lane, State.ctx]; done)
  | ((repeat' split) <;> (simp [State.port, State.station, State.lane, State.ctx]; done))
  | (dsimp only
     and_intros <;> intros <;> (repeat' split) <;> simp [State.port, State.station, State.lane, State.ctx])

/-- `Work.invalidate` changes `cache` alone. -/
@[simp] theorem Work.invalidate_frame (w : Work) (i : Fin 1024) (y : Fin 2) :
    ((Work.invalidate w i y).st).ports = w.st.ports ∧ ((Work.invalidate w i y).st).stations = w.st.stations ∧ ((Work.invalidate w i y).st).lanes = w.st.lanes ∧
    ((Work.invalidate w i y).st).pool = w.st.pool ∧ ((Work.invalidate w i y).st).visitCounter = w.st.visitCounter ∧ ((Work.invalidate w i y).st).lastServed = w.st.lastServed ∧
    ((Work.invalidate w i y).st).slot = w.st.slot ∧ ((Work.invalidate w i y).st).check = w.st.check ∧ ((Work.invalidate w i y).st).dest = w.st.dest ∧
    ((Work.invalidate w i y).st).signs = w.st.signs ∧ ((Work.invalidate w i y).st).uplink = w.st.uplink ∧ ((Work.invalidate w i y).st).params = w.st.params ∧
    ((Work.invalidate w i y).st).resetHeld = w.st.resetHeld ∧ ((Work.invalidate w i y).st).pending = w.st.pending ∧ (∀ seg_ : Seg, ((Work.invalidate w i y).st).port seg_ = w.st.port seg_) ∧
    (∀ ix_ : StationIx, ((Work.invalidate w i y).st).station ix_ = w.st.station ix_) ∧ (∀ lane_ : LaneId, ((Work.invalidate w i y).st).lane lane_ = w.st.lane lane_) ∧ (∀ ctx_ : CtxId, ((Work.invalidate w i y).st).ctx ctx_ = w.st.ctx ctx_) := by
  unfold Work.invalidate
  first
  | (simp [State.port, State.station, State.lane, State.ctx]; done)
  | ((repeat' split) <;> (simp [State.port, State.station, State.lane, State.ctx]; done))
  | (dsimp only
     and_intros <;> intros <;> (repeat' split) <;> simp [State.port, State.station, State.lane, State.ctx])

/-- `Work.discardCopy` changes `cache` alone. -/
@[simp] theorem Work.discardCopy_frame (w : Work) (p : Fin 48) :
    ((Work.discardCopy w p).st).ports = w.st.ports ∧ ((Work.discardCopy w p).st).stations = w.st.stations ∧ ((Work.discardCopy w p).st).lanes = w.st.lanes ∧
    ((Work.discardCopy w p).st).pool = w.st.pool ∧ ((Work.discardCopy w p).st).visitCounter = w.st.visitCounter ∧ ((Work.discardCopy w p).st).lastServed = w.st.lastServed ∧
    ((Work.discardCopy w p).st).slot = w.st.slot ∧ ((Work.discardCopy w p).st).check = w.st.check ∧ ((Work.discardCopy w p).st).dest = w.st.dest ∧
    ((Work.discardCopy w p).st).signs = w.st.signs ∧ ((Work.discardCopy w p).st).uplink = w.st.uplink ∧ ((Work.discardCopy w p).st).params = w.st.params ∧
    ((Work.discardCopy w p).st).resetHeld = w.st.resetHeld ∧ ((Work.discardCopy w p).st).pending = w.st.pending ∧ (∀ seg_ : Seg, ((Work.discardCopy w p).st).port seg_ = w.st.port seg_) ∧
    (∀ ix_ : StationIx, ((Work.discardCopy w p).st).station ix_ = w.st.station ix_) ∧ (∀ lane_ : LaneId, ((Work.discardCopy w p).st).lane lane_ = w.st.lane lane_) ∧ (∀ ctx_ : CtxId, ((Work.discardCopy w p).st).ctx ctx_ = w.st.ctx ctx_) := by
  unfold Work.discardCopy
  first
  | (simp [State.port, State.station, State.lane, State.ctx]; done)
  | ((repeat' split) <;> (simp [State.port, State.station, State.lane, State.ctx]; done))
  | (dsimp only
     and_intros <;> intros <;> (repeat' split) <;> simp [State.port, State.station, State.lane, State.ctx])

/-- `Work.acceptEntry` changes `cache`, `uplink` alone. -/
@[simp] theorem Work.acceptEntry_frame (w : Work) (i : Fin 1024) (y : Fin 2) (m : Record → Report) :
    ((Work.acceptEntry w i y m).st).ports = w.st.ports ∧ ((Work.acceptEntry w i y m).st).stations = w.st.stations ∧ ((Work.acceptEntry w i y m).st).lanes = w.st.lanes ∧
    ((Work.acceptEntry w i y m).st).pool = w.st.pool ∧ ((Work.acceptEntry w i y m).st).visitCounter = w.st.visitCounter ∧ ((Work.acceptEntry w i y m).st).lastServed = w.st.lastServed ∧
    ((Work.acceptEntry w i y m).st).slot = w.st.slot ∧ ((Work.acceptEntry w i y m).st).check = w.st.check ∧ ((Work.acceptEntry w i y m).st).dest = w.st.dest ∧
    ((Work.acceptEntry w i y m).st).signs = w.st.signs ∧ ((Work.acceptEntry w i y m).st).params = w.st.params ∧ ((Work.acceptEntry w i y m).st).resetHeld = w.st.resetHeld ∧
    ((Work.acceptEntry w i y m).st).pending = w.st.pending ∧ (∀ seg_ : Seg, ((Work.acceptEntry w i y m).st).port seg_ = w.st.port seg_) ∧ (∀ ix_ : StationIx, ((Work.acceptEntry w i y m).st).station ix_ = w.st.station ix_) ∧
    (∀ lane_ : LaneId, ((Work.acceptEntry w i y m).st).lane lane_ = w.st.lane lane_) ∧ (∀ ctx_ : CtxId, ((Work.acceptEntry w i y m).st).ctx ctx_ = w.st.ctx ctx_) := by
  unfold Work.acceptEntry
  first
  | (simp [State.port, State.station, State.lane, State.ctx]; done)
  | ((repeat' split) <;> (simp [State.port, State.station, State.lane, State.ctx]; done))
  | (dsimp only
     and_intros <;> intros <;> (repeat' split) <;> simp [State.port, State.station, State.lane, State.ctx])

/-- `Work.acceptOwed` changes `cache`, `uplink` alone. -/
@[simp] theorem Work.acceptOwed_frame (w : Work) (o : Owed) :
    ((Work.acceptOwed w o).st).ports = w.st.ports ∧ ((Work.acceptOwed w o).st).stations = w.st.stations ∧ ((Work.acceptOwed w o).st).lanes = w.st.lanes ∧
    ((Work.acceptOwed w o).st).pool = w.st.pool ∧ ((Work.acceptOwed w o).st).visitCounter = w.st.visitCounter ∧ ((Work.acceptOwed w o).st).lastServed = w.st.lastServed ∧
    ((Work.acceptOwed w o).st).slot = w.st.slot ∧ ((Work.acceptOwed w o).st).check = w.st.check ∧ ((Work.acceptOwed w o).st).dest = w.st.dest ∧
    ((Work.acceptOwed w o).st).signs = w.st.signs ∧ ((Work.acceptOwed w o).st).params = w.st.params ∧ ((Work.acceptOwed w o).st).resetHeld = w.st.resetHeld ∧
    ((Work.acceptOwed w o).st).pending = w.st.pending ∧ (∀ seg_ : Seg, ((Work.acceptOwed w o).st).port seg_ = w.st.port seg_) ∧ (∀ ix_ : StationIx, ((Work.acceptOwed w o).st).station ix_ = w.st.station ix_) ∧
    (∀ lane_ : LaneId, ((Work.acceptOwed w o).st).lane lane_ = w.st.lane lane_) ∧ (∀ ctx_ : CtxId, ((Work.acceptOwed w o).st).ctx ctx_ = w.st.ctx ctx_) := by
  unfold Work.acceptOwed
  first
  | (simp [State.port, State.station, State.lane, State.ctx]; done)
  | ((repeat' split) <;> (simp [State.port, State.station, State.lane, State.ctx]; done))
  | (dsimp only
     and_intros <;> intros <;> (repeat' split) <;> simp [State.port, State.station, State.lane, State.ctx])

/-- `Work.make` changes `cache`, `uplink` alone. -/
@[simp] theorem Work.make_frame (w : Work) (o : Owed) :
    ((Work.make w o).st).ports = w.st.ports ∧ ((Work.make w o).st).stations = w.st.stations ∧ ((Work.make w o).st).lanes = w.st.lanes ∧
    ((Work.make w o).st).pool = w.st.pool ∧ ((Work.make w o).st).visitCounter = w.st.visitCounter ∧ ((Work.make w o).st).lastServed = w.st.lastServed ∧
    ((Work.make w o).st).slot = w.st.slot ∧ ((Work.make w o).st).check = w.st.check ∧ ((Work.make w o).st).dest = w.st.dest ∧
    ((Work.make w o).st).signs = w.st.signs ∧ ((Work.make w o).st).params = w.st.params ∧ ((Work.make w o).st).resetHeld = w.st.resetHeld ∧
    ((Work.make w o).st).pending = w.st.pending ∧ (∀ seg_ : Seg, ((Work.make w o).st).port seg_ = w.st.port seg_) ∧ (∀ ix_ : StationIx, ((Work.make w o).st).station ix_ = w.st.station ix_) ∧
    (∀ lane_ : LaneId, ((Work.make w o).st).lane lane_ = w.st.lane lane_) ∧ (∀ ctx_ : CtxId, ((Work.make w o).st).ctx ctx_ = w.st.ctx ctx_) := by
  unfold Work.make
  first
  | (simp [State.port, State.station, State.lane, State.ctx]; done)
  | ((repeat' split) <;> (simp [State.port, State.station, State.lane, State.ctx]; done))
  | (dsimp only
     and_intros <;> intros <;> (repeat' split) <;> simp [State.port, State.station, State.lane, State.ctx])

/-- `Work.withdraw` changes `cache`, `uplink` alone. -/
@[simp] theorem Work.withdraw_frame (w : Work) (o : Owed) :
    ((Work.withdraw w o).st).ports = w.st.ports ∧ ((Work.withdraw w o).st).stations = w.st.stations ∧ ((Work.withdraw w o).st).lanes = w.st.lanes ∧
    ((Work.withdraw w o).st).pool = w.st.pool ∧ ((Work.withdraw w o).st).visitCounter = w.st.visitCounter ∧ ((Work.withdraw w o).st).lastServed = w.st.lastServed ∧
    ((Work.withdraw w o).st).slot = w.st.slot ∧ ((Work.withdraw w o).st).check = w.st.check ∧ ((Work.withdraw w o).st).dest = w.st.dest ∧
    ((Work.withdraw w o).st).signs = w.st.signs ∧ ((Work.withdraw w o).st).params = w.st.params ∧ ((Work.withdraw w o).st).resetHeld = w.st.resetHeld ∧
    ((Work.withdraw w o).st).pending = w.st.pending ∧ (∀ seg_ : Seg, ((Work.withdraw w o).st).port seg_ = w.st.port seg_) ∧ (∀ ix_ : StationIx, ((Work.withdraw w o).st).station ix_ = w.st.station ix_) ∧
    (∀ lane_ : LaneId, ((Work.withdraw w o).st).lane lane_ = w.st.lane lane_) ∧ (∀ ctx_ : CtxId, ((Work.withdraw w o).st).ctx ctx_ = w.st.ctx ctx_) := by
  unfold Work.withdraw Work.upd
  first
  | (simp [State.port, State.station, State.lane, State.ctx]; done)
  | ((repeat' split) <;> (simp [State.port, State.station, State.lane, State.ctx]; done))
  | (dsimp only
     and_intros <;> intros <;> (repeat' split) <;> simp [State.port, State.station, State.lane, State.ctx])

/-- `Work.settleEntry` changes `cache`, `uplink` alone. -/
@[simp] theorem Work.settleEntry_frame (w : Work) (i : Fin 1024) (y : Fin 2) :
    ((Work.settleEntry w i y).st).ports = w.st.ports ∧ ((Work.settleEntry w i y).st).stations = w.st.stations ∧ ((Work.settleEntry w i y).st).lanes = w.st.lanes ∧
    ((Work.settleEntry w i y).st).pool = w.st.pool ∧ ((Work.settleEntry w i y).st).visitCounter = w.st.visitCounter ∧ ((Work.settleEntry w i y).st).lastServed = w.st.lastServed ∧
    ((Work.settleEntry w i y).st).slot = w.st.slot ∧ ((Work.settleEntry w i y).st).check = w.st.check ∧ ((Work.settleEntry w i y).st).dest = w.st.dest ∧
    ((Work.settleEntry w i y).st).signs = w.st.signs ∧ ((Work.settleEntry w i y).st).params = w.st.params ∧ ((Work.settleEntry w i y).st).resetHeld = w.st.resetHeld ∧
    ((Work.settleEntry w i y).st).pending = w.st.pending ∧ (∀ seg_ : Seg, ((Work.settleEntry w i y).st).port seg_ = w.st.port seg_) ∧ (∀ ix_ : StationIx, ((Work.settleEntry w i y).st).station ix_ = w.st.station ix_) ∧
    (∀ lane_ : LaneId, ((Work.settleEntry w i y).st).lane lane_ = w.st.lane lane_) ∧ (∀ ctx_ : CtxId, ((Work.settleEntry w i y).st).ctx ctx_ = w.st.ctx ctx_) := by
  unfold Work.settleEntry
  first
  | (simp [State.port, State.station, State.lane, State.ctx]; done)
  | ((repeat' split) <;> (simp [State.port, State.station, State.lane, State.ctx]; done))
  | (dsimp only
     and_intros <;> intros <;> (repeat' split) <;> simp [State.port, State.station, State.lane, State.ctx])

/-- `Work.takeTag` changes `uplink` alone. -/
@[simp] theorem Work.takeTag_frame (n : Nat) (s : State) :
    ((Work.takeTag n s).1).ports = s.ports ∧ ((Work.takeTag n s).1).stations = s.stations ∧ ((Work.takeTag n s).1).lanes = s.lanes ∧
    ((Work.takeTag n s).1).pool = s.pool ∧ ((Work.takeTag n s).1).visitCounter = s.visitCounter ∧ ((Work.takeTag n s).1).lastServed = s.lastServed ∧
    ((Work.takeTag n s).1).cache = s.cache ∧ ((Work.takeTag n s).1).slot = s.slot ∧ ((Work.takeTag n s).1).check = s.check ∧
    ((Work.takeTag n s).1).dest = s.dest ∧ ((Work.takeTag n s).1).signs = s.signs ∧ ((Work.takeTag n s).1).params = s.params ∧
    ((Work.takeTag n s).1).resetHeld = s.resetHeld ∧ ((Work.takeTag n s).1).pending = s.pending ∧ (∀ seg_ : Seg, ((Work.takeTag n s).1).port seg_ = s.port seg_) ∧
    (∀ ix_ : StationIx, ((Work.takeTag n s).1).station ix_ = s.station ix_) ∧ (∀ lane_ : LaneId, ((Work.takeTag n s).1).lane lane_ = s.lane lane_) ∧ (∀ ctx_ : CtxId, ((Work.takeTag n s).1).ctx ctx_ = s.ctx ctx_) := by
  induction n generalizing s with
  | zero => simp [Work.takeTag, State.port, State.station, State.lane, State.ctx]
  | succ n ih => unfold Work.takeTag; dsimp only; split <;> simp [ih, State.port, State.station, State.lane, State.ctx]

/-- `Work.fetch` changes `cache`, `uplink` alone. -/
@[simp] theorem Work.fetch_frame (w : Work) (i : Fin 16) (k : Text) (t : Target) (c : Option Record) :
    ((Work.fetch w i k t c).st).ports = w.st.ports ∧ ((Work.fetch w i k t c).st).stations = w.st.stations ∧ ((Work.fetch w i k t c).st).lanes = w.st.lanes ∧
    ((Work.fetch w i k t c).st).pool = w.st.pool ∧ ((Work.fetch w i k t c).st).visitCounter = w.st.visitCounter ∧ ((Work.fetch w i k t c).st).lastServed = w.st.lastServed ∧
    ((Work.fetch w i k t c).st).slot = w.st.slot ∧ ((Work.fetch w i k t c).st).check = w.st.check ∧ ((Work.fetch w i k t c).st).dest = w.st.dest ∧
    ((Work.fetch w i k t c).st).signs = w.st.signs ∧ ((Work.fetch w i k t c).st).params = w.st.params ∧ ((Work.fetch w i k t c).st).resetHeld = w.st.resetHeld ∧
    ((Work.fetch w i k t c).st).pending = w.st.pending ∧ (∀ seg_ : Seg, ((Work.fetch w i k t c).st).port seg_ = w.st.port seg_) ∧ (∀ ix_ : StationIx, ((Work.fetch w i k t c).st).station ix_ = w.st.station ix_) ∧
    (∀ lane_ : LaneId, ((Work.fetch w i k t c).st).lane lane_ = w.st.lane lane_) ∧ (∀ ctx_ : CtxId, ((Work.fetch w i k t c).st).ctx ctx_ = w.st.ctx ctx_) := by
  unfold Work.fetch
  first
  | (simp [State.port, State.station, State.lane, State.ctx]; done)
  | ((repeat' split) <;> (simp [State.port, State.station, State.lane, State.ctx]; done))
  | (dsimp only
     and_intros <;> intros <;> (repeat' split) <;> simp [State.port, State.station, State.lane, State.ctx])

/-- `Work.install` changes `cache`, `pool`, `uplink` alone. -/
@[simp] theorem Work.install_frame (w : Work) (r : LinkRef) (k : Text) (y : Fin 2) (i : Fin 16) :
    ((Work.install w r k y i).st).ports = w.st.ports ∧ ((Work.install w r k y i).st).stations = w.st.stations ∧ ((Work.install w r k y i).st).lanes = w.st.lanes ∧
    ((Work.install w r k y i).st).visitCounter = w.st.visitCounter ∧ ((Work.install w r k y i).st).lastServed = w.st.lastServed ∧ ((Work.install w r k y i).st).slot = w.st.slot ∧
    ((Work.install w r k y i).st).check = w.st.check ∧ ((Work.install w r k y i).st).dest = w.st.dest ∧ ((Work.install w r k y i).st).signs = w.st.signs ∧
    ((Work.install w r k y i).st).params = w.st.params ∧ ((Work.install w r k y i).st).resetHeld = w.st.resetHeld ∧ ((Work.install w r k y i).st).pending = w.st.pending ∧
    (∀ seg_ : Seg, ((Work.install w r k y i).st).port seg_ = w.st.port seg_) ∧ (∀ ix_ : StationIx, ((Work.install w r k y i).st).station ix_ = w.st.station ix_) ∧ (∀ lane_ : LaneId, ((Work.install w r k y i).st).lane lane_ = w.st.lane lane_) := by
  unfold Work.install
  first
  | (simp [State.port, State.station, State.lane, State.ctx]; done)
  | ((repeat' split) <;> (simp [State.port, State.station, State.lane, State.ctx]; done))
  | (dsimp only
     and_intros <;> intros <;> (repeat' split) <;> simp [State.port, State.station, State.lane, State.ctx])

/-- `Work.makeCopy` changes `cache`, `pool`, `uplink` alone. -/
@[simp] theorem Work.makeCopy_frame (w : Work) (r : LinkRef) (k : Text) (p : Fin 48) (i : Fin 16) :
    ((Work.makeCopy w r k p i).st).ports = w.st.ports ∧ ((Work.makeCopy w r k p i).st).stations = w.st.stations ∧ ((Work.makeCopy w r k p i).st).lanes = w.st.lanes ∧
    ((Work.makeCopy w r k p i).st).visitCounter = w.st.visitCounter ∧ ((Work.makeCopy w r k p i).st).lastServed = w.st.lastServed ∧ ((Work.makeCopy w r k p i).st).slot = w.st.slot ∧
    ((Work.makeCopy w r k p i).st).check = w.st.check ∧ ((Work.makeCopy w r k p i).st).dest = w.st.dest ∧ ((Work.makeCopy w r k p i).st).signs = w.st.signs ∧
    ((Work.makeCopy w r k p i).st).params = w.st.params ∧ ((Work.makeCopy w r k p i).st).resetHeld = w.st.resetHeld ∧ ((Work.makeCopy w r k p i).st).pending = w.st.pending ∧
    (∀ seg_ : Seg, ((Work.makeCopy w r k p i).st).port seg_ = w.st.port seg_) ∧ (∀ ix_ : StationIx, ((Work.makeCopy w r k p i).st).station ix_ = w.st.station ix_) ∧ (∀ lane_ : LaneId, ((Work.makeCopy w r k p i).st).lane lane_ = w.st.lane lane_) := by
  unfold Work.makeCopy
  first
  | (simp [State.port, State.station, State.lane, State.ctx]; done)
  | ((repeat' split) <;> (simp [State.port, State.station, State.lane, State.ctx]; done))
  | (dsimp only
     and_intros <;> intros <;> (repeat' split) <;> simp [State.port, State.station, State.lane, State.ctx])

/-- `Work.miss` changes `cache`, `pool`, `uplink` alone. -/
@[simp] theorem Work.miss_frame (w : Work) (r : LinkRef) (k : Text) :
    ((Work.miss w r k).1.st).ports = w.st.ports ∧ ((Work.miss w r k).1.st).stations = w.st.stations ∧ ((Work.miss w r k).1.st).lanes = w.st.lanes ∧
    ((Work.miss w r k).1.st).visitCounter = w.st.visitCounter ∧ ((Work.miss w r k).1.st).lastServed = w.st.lastServed ∧ ((Work.miss w r k).1.st).slot = w.st.slot ∧
    ((Work.miss w r k).1.st).check = w.st.check ∧ ((Work.miss w r k).1.st).dest = w.st.dest ∧ ((Work.miss w r k).1.st).signs = w.st.signs ∧
    ((Work.miss w r k).1.st).params = w.st.params ∧ ((Work.miss w r k).1.st).resetHeld = w.st.resetHeld ∧ ((Work.miss w r k).1.st).pending = w.st.pending ∧
    (∀ seg_ : Seg, ((Work.miss w r k).1.st).port seg_ = w.st.port seg_) ∧ (∀ ix_ : StationIx, ((Work.miss w r k).1.st).station ix_ = w.st.station ix_) ∧ (∀ lane_ : LaneId, ((Work.miss w r k).1.st).lane lane_ = w.st.lane lane_) := by
  unfold Work.miss
  first
  | (simp [State.port, State.station, State.lane, State.ctx]; done)
  | ((repeat' split) <;> (simp [State.port, State.station, State.lane, State.ctx]; done))
  | (dsimp only
     and_intros <;> intros <;> (repeat' split) <;> simp [State.port, State.station, State.lane, State.ctx])

/-- `Work.lookupOnce` changes `cache`, `pool`, `uplink` alone. -/
@[simp] theorem Work.lookupOnce_frame (w : Work) (r : LinkRef) :
    ((Work.lookupOnce w r).1.st).ports = w.st.ports ∧ ((Work.lookupOnce w r).1.st).stations = w.st.stations ∧ ((Work.lookupOnce w r).1.st).lanes = w.st.lanes ∧
    ((Work.lookupOnce w r).1.st).visitCounter = w.st.visitCounter ∧ ((Work.lookupOnce w r).1.st).lastServed = w.st.lastServed ∧ ((Work.lookupOnce w r).1.st).slot = w.st.slot ∧
    ((Work.lookupOnce w r).1.st).check = w.st.check ∧ ((Work.lookupOnce w r).1.st).dest = w.st.dest ∧ ((Work.lookupOnce w r).1.st).signs = w.st.signs ∧
    ((Work.lookupOnce w r).1.st).params = w.st.params ∧ ((Work.lookupOnce w r).1.st).resetHeld = w.st.resetHeld ∧ ((Work.lookupOnce w r).1.st).pending = w.st.pending ∧
    (∀ seg_ : Seg, ((Work.lookupOnce w r).1.st).port seg_ = w.st.port seg_) ∧ (∀ ix_ : StationIx, ((Work.lookupOnce w r).1.st).station ix_ = w.st.station ix_) ∧ (∀ lane_ : LaneId, ((Work.lookupOnce w r).1.st).lane lane_ = w.st.lane lane_) := by
  unfold Work.lookupOnce
  first
  | (simp [State.port, State.station, State.lane, State.ctx]; done)
  | ((repeat' split) <;> (simp [State.port, State.station, State.lane, State.ctx]; done))
  | (dsimp only
     and_intros <;> intros <;> (repeat' split) <;> simp [State.port, State.station, State.lane, State.ctx])

/-- `Work.lookup` changes `cache`, `pool`, `uplink` alone. -/
@[simp] theorem Work.lookup_frame (w : Work) (r : LinkRef) :
    ((Work.lookup w r).st).ports = w.st.ports ∧ ((Work.lookup w r).st).stations = w.st.stations ∧ ((Work.lookup w r).st).lanes = w.st.lanes ∧
    ((Work.lookup w r).st).visitCounter = w.st.visitCounter ∧ ((Work.lookup w r).st).lastServed = w.st.lastServed ∧ ((Work.lookup w r).st).slot = w.st.slot ∧
    ((Work.lookup w r).st).check = w.st.check ∧ ((Work.lookup w r).st).dest = w.st.dest ∧ ((Work.lookup w r).st).signs = w.st.signs ∧
    ((Work.lookup w r).st).params = w.st.params ∧ ((Work.lookup w r).st).resetHeld = w.st.resetHeld ∧ ((Work.lookup w r).st).pending = w.st.pending ∧
    (∀ seg_ : Seg, ((Work.lookup w r).st).port seg_ = w.st.port seg_) ∧ (∀ ix_ : StationIx, ((Work.lookup w r).st).station ix_ = w.st.station ix_) ∧ (∀ lane_ : LaneId, ((Work.lookup w r).st).lane lane_ = w.st.lane lane_) := by
  unfold Work.lookup
  first
  | (simp [State.port, State.station, State.lane, State.ctx]; done)
  | ((repeat' split) <;> (simp [State.port, State.station, State.lane, State.ctx]; done))
  | (dsimp only
     and_intros <;> intros <;> (repeat' split) <;> simp [State.port, State.station, State.lane, State.ctx])

/-- `Work.retryOne` changes `cache`, `pool`, `uplink` alone. -/
@[simp] theorem Work.retryOne_frame (w : Work) (r : LinkRef) :
    ((Work.retryOne w r).st).ports = w.st.ports ∧ ((Work.retryOne w r).st).stations = w.st.stations ∧ ((Work.retryOne w r).st).lanes = w.st.lanes ∧
    ((Work.retryOne w r).st).visitCounter = w.st.visitCounter ∧ ((Work.retryOne w r).st).lastServed = w.st.lastServed ∧ ((Work.retryOne w r).st).slot = w.st.slot ∧
    ((Work.retryOne w r).st).check = w.st.check ∧ ((Work.retryOne w r).st).dest = w.st.dest ∧ ((Work.retryOne w r).st).signs = w.st.signs ∧
    ((Work.retryOne w r).st).params = w.st.params ∧ ((Work.retryOne w r).st).resetHeld = w.st.resetHeld ∧ ((Work.retryOne w r).st).pending = w.st.pending ∧
    (∀ seg_ : Seg, ((Work.retryOne w r).st).port seg_ = w.st.port seg_) ∧ (∀ ix_ : StationIx, ((Work.retryOne w r).st).station ix_ = w.st.station ix_) ∧ (∀ lane_ : LaneId, ((Work.retryOne w r).st).lane lane_ = w.st.lane lane_) := by
  unfold Work.retryOne
  first
  | (simp [State.port, State.station, State.lane, State.ctx]; done)
  | ((repeat' split) <;> (simp [State.port, State.station, State.lane, State.ctx]; done))
  | (dsimp only
     and_intros <;> intros <;> (repeat' split) <;> simp [State.port, State.station, State.lane, State.ctx])

/-- `Work.checkRecall` changes `cache`, `uplink` alone. -/
@[simp] theorem Work.checkRecall_frame (w : Work) (r : RecallRec) :
    ((Work.checkRecall w r).st).ports = w.st.ports ∧ ((Work.checkRecall w r).st).stations = w.st.stations ∧ ((Work.checkRecall w r).st).lanes = w.st.lanes ∧
    ((Work.checkRecall w r).st).pool = w.st.pool ∧ ((Work.checkRecall w r).st).visitCounter = w.st.visitCounter ∧ ((Work.checkRecall w r).st).lastServed = w.st.lastServed ∧
    ((Work.checkRecall w r).st).slot = w.st.slot ∧ ((Work.checkRecall w r).st).check = w.st.check ∧ ((Work.checkRecall w r).st).dest = w.st.dest ∧
    ((Work.checkRecall w r).st).signs = w.st.signs ∧ ((Work.checkRecall w r).st).params = w.st.params ∧ ((Work.checkRecall w r).st).resetHeld = w.st.resetHeld ∧
    ((Work.checkRecall w r).st).pending = w.st.pending ∧ (∀ seg_ : Seg, ((Work.checkRecall w r).st).port seg_ = w.st.port seg_) ∧ (∀ ix_ : StationIx, ((Work.checkRecall w r).st).station ix_ = w.st.station ix_) ∧
    (∀ lane_ : LaneId, ((Work.checkRecall w r).st).lane lane_ = w.st.lane lane_) ∧ (∀ ctx_ : CtxId, ((Work.checkRecall w r).st).ctx ctx_ = w.st.ctx ctx_) := by
  unfold Work.checkRecall
  first
  | (simp [State.port, State.station, State.lane, State.ctx]; done)
  | ((repeat' split) <;> (simp [State.port, State.station, State.lane, State.ctx]; done))
  | (dsimp only
     and_intros <;> intros <;> (repeat' split) <;> simp [State.port, State.station, State.lane, State.ctx])

/-- `Work.finish` changes `cache`, `pool`, `uplink` alone. -/
@[simp] theorem Work.finish_frame (w : Work)  :
    ((Work.finish w ).st).ports = w.st.ports ∧ ((Work.finish w ).st).stations = w.st.stations ∧ ((Work.finish w ).st).lanes = w.st.lanes ∧
    ((Work.finish w ).st).visitCounter = w.st.visitCounter ∧ ((Work.finish w ).st).lastServed = w.st.lastServed ∧ ((Work.finish w ).st).slot = w.st.slot ∧
    ((Work.finish w ).st).check = w.st.check ∧ ((Work.finish w ).st).dest = w.st.dest ∧ ((Work.finish w ).st).signs = w.st.signs ∧
    ((Work.finish w ).st).params = w.st.params ∧ ((Work.finish w ).st).resetHeld = w.st.resetHeld ∧ ((Work.finish w ).st).pending = w.st.pending ∧
    (∀ seg_ : Seg, ((Work.finish w ).st).port seg_ = w.st.port seg_) ∧ (∀ ix_ : StationIx, ((Work.finish w ).st).station ix_ = w.st.station ix_) ∧ (∀ lane_ : LaneId, ((Work.finish w ).st).lane lane_ = w.st.lane lane_) := by
  exact ⟨by
      unfold Work.finish; dsimp only; split
      · exact (foldl_keeps (fun t : Work => t.st.ports) _ (by intros; simp) _ _).trans (foldl_keeps (fun t : Work => t.st.ports) _ (by intros; simp) _ _)
      · exact foldl_keeps (fun t : Work => t.st.ports) _ (by intros; simp) _ _,
    by
      unfold Work.finish; dsimp only; split
      · exact (foldl_keeps (fun t : Work => t.st.stations) _ (by intros; simp) _ _).trans (foldl_keeps (fun t : Work => t.st.stations) _ (by intros; simp) _ _)
      · exact foldl_keeps (fun t : Work => t.st.stations) _ (by intros; simp) _ _,
    by
      unfold Work.finish; dsimp only; split
      · exact (foldl_keeps (fun t : Work => t.st.lanes) _ (by intros; simp) _ _).trans (foldl_keeps (fun t : Work => t.st.lanes) _ (by intros; simp) _ _)
      · exact foldl_keeps (fun t : Work => t.st.lanes) _ (by intros; simp) _ _,
    by
      unfold Work.finish; dsimp only; split
      · exact (foldl_keeps (fun t : Work => t.st.visitCounter) _ (by intros; simp) _ _).trans (foldl_keeps (fun t : Work => t.st.visitCounter) _ (by intros; simp) _ _)
      · exact foldl_keeps (fun t : Work => t.st.visitCounter) _ (by intros; simp) _ _,
    by
      unfold Work.finish; dsimp only; split
      · exact (foldl_keeps (fun t : Work => t.st.lastServed) _ (by intros; simp) _ _).trans (foldl_keeps (fun t : Work => t.st.lastServed) _ (by intros; simp) _ _)
      · exact foldl_keeps (fun t : Work => t.st.lastServed) _ (by intros; simp) _ _,
    by
      unfold Work.finish; dsimp only; split
      · exact (foldl_keeps (fun t : Work => t.st.slot) _ (by intros; simp) _ _).trans (foldl_keeps (fun t : Work => t.st.slot) _ (by intros; simp) _ _)
      · exact foldl_keeps (fun t : Work => t.st.slot) _ (by intros; simp) _ _,
    by
      unfold Work.finish; dsimp only; split
      · exact (foldl_keeps (fun t : Work => t.st.check) _ (by intros; simp) _ _).trans (foldl_keeps (fun t : Work => t.st.check) _ (by intros; simp) _ _)
      · exact foldl_keeps (fun t : Work => t.st.check) _ (by intros; simp) _ _,
    by
      unfold Work.finish; dsimp only; split
      · exact (foldl_keeps (fun t : Work => t.st.dest) _ (by intros; simp) _ _).trans (foldl_keeps (fun t : Work => t.st.dest) _ (by intros; simp) _ _)
      · exact foldl_keeps (fun t : Work => t.st.dest) _ (by intros; simp) _ _,
    by
      unfold Work.finish; dsimp only; split
      · exact (foldl_keeps (fun t : Work => t.st.signs) _ (by intros; simp) _ _).trans (foldl_keeps (fun t : Work => t.st.signs) _ (by intros; simp) _ _)
      · exact foldl_keeps (fun t : Work => t.st.signs) _ (by intros; simp) _ _,
    by
      unfold Work.finish; dsimp only; split
      · exact (foldl_keeps (fun t : Work => t.st.params) _ (by intros; simp) _ _).trans (foldl_keeps (fun t : Work => t.st.params) _ (by intros; simp) _ _)
      · exact foldl_keeps (fun t : Work => t.st.params) _ (by intros; simp) _ _,
    by
      unfold Work.finish; dsimp only; split
      · exact (foldl_keeps (fun t : Work => t.st.resetHeld) _ (by intros; simp) _ _).trans (foldl_keeps (fun t : Work => t.st.resetHeld) _ (by intros; simp) _ _)
      · exact foldl_keeps (fun t : Work => t.st.resetHeld) _ (by intros; simp) _ _,
    by
      unfold Work.finish; dsimp only; split
      · exact (foldl_keeps (fun t : Work => t.st.pending) _ (by intros; simp) _ _).trans (foldl_keeps (fun t : Work => t.st.pending) _ (by intros; simp) _ _)
      · exact foldl_keeps (fun t : Work => t.st.pending) _ (by intros; simp) _ _,
    fun seg_ => by
      unfold Work.finish; dsimp only; split
      · exact (foldl_keeps (fun t : Work => t.st.port seg_) _ (by intros; simp) _ _).trans (foldl_keeps (fun t : Work => t.st.port seg_) _ (by intros; simp) _ _)
      · exact foldl_keeps (fun t : Work => t.st.port seg_) _ (by intros; simp) _ _,
    fun ix_ => by
      unfold Work.finish; dsimp only; split
      · exact (foldl_keeps (fun t : Work => t.st.station ix_) _ (by intros; simp) _ _).trans (foldl_keeps (fun t : Work => t.st.station ix_) _ (by intros; simp) _ _)
      · exact foldl_keeps (fun t : Work => t.st.station ix_) _ (by intros; simp) _ _,
    fun lane_ => by
      unfold Work.finish; dsimp only; split
      · exact (foldl_keeps (fun t : Work => t.st.lane lane_) _ (by intros; simp) _ _).trans (foldl_keeps (fun t : Work => t.st.lane lane_) _ (by intros; simp) _ _)
      · exact foldl_keeps (fun t : Work => t.st.lane lane_) _ (by intros; simp) _ _⟩

/-- `Work.setLinks` changes `pool` alone. -/
@[simp] theorem Work.setLinks_frame (w : Work) (t : Target) (f : Link → Link) :
    ((Work.setLinks w t f).st).ports = w.st.ports ∧ ((Work.setLinks w t f).st).stations = w.st.stations ∧ ((Work.setLinks w t f).st).lanes = w.st.lanes ∧
    ((Work.setLinks w t f).st).visitCounter = w.st.visitCounter ∧ ((Work.setLinks w t f).st).lastServed = w.st.lastServed ∧ ((Work.setLinks w t f).st).cache = w.st.cache ∧
    ((Work.setLinks w t f).st).slot = w.st.slot ∧ ((Work.setLinks w t f).st).check = w.st.check ∧ ((Work.setLinks w t f).st).dest = w.st.dest ∧
    ((Work.setLinks w t f).st).signs = w.st.signs ∧ ((Work.setLinks w t f).st).uplink = w.st.uplink ∧ ((Work.setLinks w t f).st).params = w.st.params ∧
    ((Work.setLinks w t f).st).resetHeld = w.st.resetHeld ∧ ((Work.setLinks w t f).st).pending = w.st.pending ∧ (∀ seg_ : Seg, ((Work.setLinks w t f).st).port seg_ = w.st.port seg_) ∧
    (∀ ix_ : StationIx, ((Work.setLinks w t f).st).station ix_ = w.st.station ix_) ∧ (∀ lane_ : LaneId, ((Work.setLinks w t f).st).lane lane_ = w.st.lane lane_) := by
  unfold Work.setLinks
  exact ⟨foldl_keeps (fun t : State => t.ports) _ (by intros; simp) _ _,
    foldl_keeps (fun t : State => t.stations) _ (by intros; simp) _ _,
    foldl_keeps (fun t : State => t.lanes) _ (by intros; simp) _ _,
    foldl_keeps (fun t : State => t.visitCounter) _ (by intros; simp) _ _,
    foldl_keeps (fun t : State => t.lastServed) _ (by intros; simp) _ _,
    foldl_keeps (fun t : State => t.cache) _ (by intros; simp) _ _,
    foldl_keeps (fun t : State => t.slot) _ (by intros; simp) _ _,
    foldl_keeps (fun t : State => t.check) _ (by intros; simp) _ _,
    foldl_keeps (fun t : State => t.dest) _ (by intros; simp) _ _,
    foldl_keeps (fun t : State => t.signs) _ (by intros; simp) _ _,
    foldl_keeps (fun t : State => t.uplink) _ (by intros; simp) _ _,
    foldl_keeps (fun t : State => t.params) _ (by intros; simp) _ _,
    foldl_keeps (fun t : State => t.resetHeld) _ (by intros; simp) _ _,
    foldl_keeps (fun t : State => t.pending) _ (by intros; simp) _ _,
    fun seg_ => foldl_keeps (fun t : State => t.port seg_) _ (by intros; simp) _ _,
    fun ix_ => foldl_keeps (fun t : State => t.station ix_) _ (by intros; simp) _ _,
    fun lane_ => foldl_keeps (fun t : State => t.lane lane_) _ (by intros; simp) _ _⟩

/-- `Work.freeFetch` changes `cache` alone. -/
@[simp] theorem Work.freeFetch_frame (w : Work) (i : Fin 16) :
    ((Work.freeFetch w i).st).ports = w.st.ports ∧ ((Work.freeFetch w i).st).stations = w.st.stations ∧ ((Work.freeFetch w i).st).lanes = w.st.lanes ∧
    ((Work.freeFetch w i).st).pool = w.st.pool ∧ ((Work.freeFetch w i).st).visitCounter = w.st.visitCounter ∧ ((Work.freeFetch w i).st).lastServed = w.st.lastServed ∧
    ((Work.freeFetch w i).st).slot = w.st.slot ∧ ((Work.freeFetch w i).st).check = w.st.check ∧ ((Work.freeFetch w i).st).dest = w.st.dest ∧
    ((Work.freeFetch w i).st).signs = w.st.signs ∧ ((Work.freeFetch w i).st).uplink = w.st.uplink ∧ ((Work.freeFetch w i).st).params = w.st.params ∧
    ((Work.freeFetch w i).st).resetHeld = w.st.resetHeld ∧ ((Work.freeFetch w i).st).pending = w.st.pending ∧ (∀ seg_ : Seg, ((Work.freeFetch w i).st).port seg_ = w.st.port seg_) ∧
    (∀ ix_ : StationIx, ((Work.freeFetch w i).st).station ix_ = w.st.station ix_) ∧ (∀ lane_ : LaneId, ((Work.freeFetch w i).st).lane lane_ = w.st.lane lane_) ∧ (∀ ctx_ : CtxId, ((Work.freeFetch w i).st).ctx ctx_ = w.st.ctx ctx_) := by
  unfold Work.freeFetch
  first
  | (simp [State.port, State.station, State.lane, State.ctx]; done)
  | ((repeat' split) <;> (simp [State.port, State.station, State.lane, State.ctx]; done))
  | (dsimp only
     and_intros <;> intros <;> (repeat' split) <;> simp [State.port, State.station, State.lane, State.ctx])

/-- `Work.failFetch` changes `cache`, `pool`, `uplink` alone. -/
@[simp] theorem Work.failFetch_frame (w : Work) (i : Fin 16) (f : Fetch) (l : LinkState) :
    ((Work.failFetch w i f l).st).ports = w.st.ports ∧ ((Work.failFetch w i f l).st).stations = w.st.stations ∧ ((Work.failFetch w i f l).st).lanes = w.st.lanes ∧
    ((Work.failFetch w i f l).st).visitCounter = w.st.visitCounter ∧ ((Work.failFetch w i f l).st).lastServed = w.st.lastServed ∧ ((Work.failFetch w i f l).st).slot = w.st.slot ∧
    ((Work.failFetch w i f l).st).check = w.st.check ∧ ((Work.failFetch w i f l).st).dest = w.st.dest ∧ ((Work.failFetch w i f l).st).signs = w.st.signs ∧
    ((Work.failFetch w i f l).st).params = w.st.params ∧ ((Work.failFetch w i f l).st).resetHeld = w.st.resetHeld ∧ ((Work.failFetch w i f l).st).pending = w.st.pending ∧
    (∀ seg_ : Seg, ((Work.failFetch w i f l).st).port seg_ = w.st.port seg_) ∧ (∀ ix_ : StationIx, ((Work.failFetch w i f l).st).station ix_ = w.st.station ix_) ∧ (∀ lane_ : LaneId, ((Work.failFetch w i f l).st).lane lane_ = w.st.lane lane_) := by
  unfold Work.failFetch
  first
  | (simp [State.port, State.station, State.lane, State.ctx]; done)
  | ((repeat' split) <;> (simp [State.port, State.station, State.lane, State.ctx]; done))
  | (dsimp only
     and_intros <;> intros <;> (repeat' split) <;> simp [State.port, State.station, State.lane, State.ctx])

/-- `Work.fill` changes `cache`, `pool`, `uplink` alone. -/
@[simp] theorem Work.fill_frame (w : Work) (i : Fin 16) (f : Fetch) (r : Record) :
    ((Work.fill w i f r).st).ports = w.st.ports ∧ ((Work.fill w i f r).st).stations = w.st.stations ∧ ((Work.fill w i f r).st).lanes = w.st.lanes ∧
    ((Work.fill w i f r).st).visitCounter = w.st.visitCounter ∧ ((Work.fill w i f r).st).lastServed = w.st.lastServed ∧ ((Work.fill w i f r).st).slot = w.st.slot ∧
    ((Work.fill w i f r).st).check = w.st.check ∧ ((Work.fill w i f r).st).dest = w.st.dest ∧ ((Work.fill w i f r).st).signs = w.st.signs ∧
    ((Work.fill w i f r).st).params = w.st.params ∧ ((Work.fill w i f r).st).resetHeld = w.st.resetHeld ∧ ((Work.fill w i f r).st).pending = w.st.pending ∧
    (∀ seg_ : Seg, ((Work.fill w i f r).st).port seg_ = w.st.port seg_) ∧ (∀ ix_ : StationIx, ((Work.fill w i f r).st).station ix_ = w.st.station ix_) ∧ (∀ lane_ : LaneId, ((Work.fill w i f r).st).lane lane_ = w.st.lane lane_) := by
  unfold Work.fill
  first
  | (simp [State.port, State.station, State.lane, State.ctx]; done)
  | ((repeat' split) <;> (simp [State.port, State.station, State.lane, State.ctx]; done))
  | (dsimp only
     and_intros <;> intros <;> (repeat' split) <;> simp [State.port, State.station, State.lane, State.ctx])

/-- `Work.bookingData` changes `cache`, `pool`, `uplink` alone. -/
@[simp] theorem Work.bookingData_frame (w : Work) (t : BitVec 16) (b : List Byte) :
    ((Work.bookingData w t b).st).ports = w.st.ports ∧ ((Work.bookingData w t b).st).stations = w.st.stations ∧ ((Work.bookingData w t b).st).lanes = w.st.lanes ∧
    ((Work.bookingData w t b).st).visitCounter = w.st.visitCounter ∧ ((Work.bookingData w t b).st).lastServed = w.st.lastServed ∧ ((Work.bookingData w t b).st).slot = w.st.slot ∧
    ((Work.bookingData w t b).st).check = w.st.check ∧ ((Work.bookingData w t b).st).dest = w.st.dest ∧ ((Work.bookingData w t b).st).signs = w.st.signs ∧
    ((Work.bookingData w t b).st).params = w.st.params ∧ ((Work.bookingData w t b).st).resetHeld = w.st.resetHeld ∧ ((Work.bookingData w t b).st).pending = w.st.pending ∧
    (∀ seg_ : Seg, ((Work.bookingData w t b).st).port seg_ = w.st.port seg_) ∧ (∀ ix_ : StationIx, ((Work.bookingData w t b).st).station ix_ = w.st.station ix_) ∧ (∀ lane_ : LaneId, ((Work.bookingData w t b).st).lane lane_ = w.st.lane lane_) := by
  unfold Work.bookingData
  first
  | (simp [State.port, State.station, State.lane, State.ctx]; done)
  | ((repeat' split) <;> (simp [State.port, State.station, State.lane, State.ctx]; done))
  | (dsimp only
     and_intros <;> intros <;> (repeat' split) <;> simp [State.port, State.station, State.lane, State.ctx])

/-- `Work.bookingNone` changes `cache`, `pool`, `uplink` alone. -/
@[simp] theorem Work.bookingNone_frame (w : Work) (t : BitVec 16) (k : Text) :
    ((Work.bookingNone w t k).st).ports = w.st.ports ∧ ((Work.bookingNone w t k).st).stations = w.st.stations ∧ ((Work.bookingNone w t k).st).lanes = w.st.lanes ∧
    ((Work.bookingNone w t k).st).visitCounter = w.st.visitCounter ∧ ((Work.bookingNone w t k).st).lastServed = w.st.lastServed ∧ ((Work.bookingNone w t k).st).slot = w.st.slot ∧
    ((Work.bookingNone w t k).st).check = w.st.check ∧ ((Work.bookingNone w t k).st).dest = w.st.dest ∧ ((Work.bookingNone w t k).st).signs = w.st.signs ∧
    ((Work.bookingNone w t k).st).params = w.st.params ∧ ((Work.bookingNone w t k).st).resetHeld = w.st.resetHeld ∧ ((Work.bookingNone w t k).st).pending = w.st.pending ∧
    (∀ seg_ : Seg, ((Work.bookingNone w t k).st).port seg_ = w.st.port seg_) ∧ (∀ ix_ : StationIx, ((Work.bookingNone w t k).st).station ix_ = w.st.station ix_) ∧ (∀ lane_ : LaneId, ((Work.bookingNone w t k).st).lane lane_ = w.st.lane lane_) := by
  unfold Work.bookingNone
  first
  | (simp [State.port, State.station, State.lane, State.ctx]; done)
  | ((repeat' split) <;> (simp [State.port, State.station, State.lane, State.ctx]; done))
  | (dsimp only
     and_intros <;> intros <;> (repeat' split) <;> simp [State.port, State.station, State.lane, State.ctx])

/-- `Work.fetchTimeout` changes `cache`, `pool`, `uplink` alone. -/
@[simp] theorem Work.fetchTimeout_frame (w : Work) (i : Fin 16) :
    ((Work.fetchTimeout w i).st).ports = w.st.ports ∧ ((Work.fetchTimeout w i).st).stations = w.st.stations ∧ ((Work.fetchTimeout w i).st).lanes = w.st.lanes ∧
    ((Work.fetchTimeout w i).st).visitCounter = w.st.visitCounter ∧ ((Work.fetchTimeout w i).st).lastServed = w.st.lastServed ∧ ((Work.fetchTimeout w i).st).slot = w.st.slot ∧
    ((Work.fetchTimeout w i).st).check = w.st.check ∧ ((Work.fetchTimeout w i).st).dest = w.st.dest ∧ ((Work.fetchTimeout w i).st).signs = w.st.signs ∧
    ((Work.fetchTimeout w i).st).params = w.st.params ∧ ((Work.fetchTimeout w i).st).resetHeld = w.st.resetHeld ∧ ((Work.fetchTimeout w i).st).pending = w.st.pending ∧
    (∀ seg_ : Seg, ((Work.fetchTimeout w i).st).port seg_ = w.st.port seg_) ∧ (∀ ix_ : StationIx, ((Work.fetchTimeout w i).st).station ix_ = w.st.station ix_) ∧ (∀ lane_ : LaneId, ((Work.fetchTimeout w i).st).lane lane_ = w.st.lane lane_) := by
  unfold Work.fetchTimeout
  first
  | (simp [State.port, State.station, State.lane, State.ctx]; done)
  | ((repeat' split) <;> (simp [State.port, State.station, State.lane, State.ctx]; done))
  | (dsimp only
     and_intros <;> intros <;> (repeat' split) <;> simp [State.port, State.station, State.lane, State.ctx])

/-- `Work.cancelCopy` changes `cache`, `uplink` alone. -/
@[simp] theorem Work.cancelCopy_frame (w : Work) (p : Fin 48) :
    ((Work.cancelCopy w p).st).ports = w.st.ports ∧ ((Work.cancelCopy w p).st).stations = w.st.stations ∧ ((Work.cancelCopy w p).st).lanes = w.st.lanes ∧
    ((Work.cancelCopy w p).st).pool = w.st.pool ∧ ((Work.cancelCopy w p).st).visitCounter = w.st.visitCounter ∧ ((Work.cancelCopy w p).st).lastServed = w.st.lastServed ∧
    ((Work.cancelCopy w p).st).slot = w.st.slot ∧ ((Work.cancelCopy w p).st).check = w.st.check ∧ ((Work.cancelCopy w p).st).dest = w.st.dest ∧
    ((Work.cancelCopy w p).st).signs = w.st.signs ∧ ((Work.cancelCopy w p).st).params = w.st.params ∧ ((Work.cancelCopy w p).st).resetHeld = w.st.resetHeld ∧
    ((Work.cancelCopy w p).st).pending = w.st.pending ∧ (∀ seg_ : Seg, ((Work.cancelCopy w p).st).port seg_ = w.st.port seg_) ∧ (∀ ix_ : StationIx, ((Work.cancelCopy w p).st).station ix_ = w.st.station ix_) ∧
    (∀ lane_ : LaneId, ((Work.cancelCopy w p).st).lane lane_ = w.st.lane lane_) ∧ (∀ ctx_ : CtxId, ((Work.cancelCopy w p).st).ctx ctx_ = w.st.ctx ctx_) := by
  unfold Work.cancelCopy
  first
  | (simp [State.port, State.station, State.lane, State.ctx]; done)
  | ((repeat' split) <;> (simp [State.port, State.station, State.lane, State.ctx]; done))
  | (dsimp only
     and_intros <;> intros <;> (repeat' split) <;> simp [State.port, State.station, State.lane, State.ctx])

/-- `Work.unpin` changes `cache`, `uplink` alone. -/
@[simp] theorem Work.unpin_frame (w : Work) (i : Fin 1024) (y : Fin 2) (u : Bool) :
    ((Work.unpin w i y u).st).ports = w.st.ports ∧ ((Work.unpin w i y u).st).stations = w.st.stations ∧ ((Work.unpin w i y u).st).lanes = w.st.lanes ∧
    ((Work.unpin w i y u).st).pool = w.st.pool ∧ ((Work.unpin w i y u).st).visitCounter = w.st.visitCounter ∧ ((Work.unpin w i y u).st).lastServed = w.st.lastServed ∧
    ((Work.unpin w i y u).st).slot = w.st.slot ∧ ((Work.unpin w i y u).st).check = w.st.check ∧ ((Work.unpin w i y u).st).dest = w.st.dest ∧
    ((Work.unpin w i y u).st).signs = w.st.signs ∧ ((Work.unpin w i y u).st).params = w.st.params ∧ ((Work.unpin w i y u).st).resetHeld = w.st.resetHeld ∧
    ((Work.unpin w i y u).st).pending = w.st.pending ∧ (∀ seg_ : Seg, ((Work.unpin w i y u).st).port seg_ = w.st.port seg_) ∧ (∀ ix_ : StationIx, ((Work.unpin w i y u).st).station ix_ = w.st.station ix_) ∧
    (∀ lane_ : LaneId, ((Work.unpin w i y u).st).lane lane_ = w.st.lane lane_) ∧ (∀ ctx_ : CtxId, ((Work.unpin w i y u).st).ctx ctx_ = w.st.ctx ctx_) := by
  unfold Work.unpin
  first
  | (simp [State.port, State.station, State.lane, State.ctx]; done)
  | ((repeat' split) <;> (simp [State.port, State.station, State.lane, State.ctx]; done))
  | (dsimp only
     and_intros <;> intros <;> (repeat' split) <;> simp [State.port, State.station, State.lane, State.ctx])

/-- `Work.abortLink` changes `cache`, `pool`, `uplink` alone. -/
@[simp] theorem Work.abortLink_frame (w : Work) (r : LinkRef) :
    ((Work.abortLink w r).st).ports = w.st.ports ∧ ((Work.abortLink w r).st).stations = w.st.stations ∧ ((Work.abortLink w r).st).lanes = w.st.lanes ∧
    ((Work.abortLink w r).st).visitCounter = w.st.visitCounter ∧ ((Work.abortLink w r).st).lastServed = w.st.lastServed ∧ ((Work.abortLink w r).st).slot = w.st.slot ∧
    ((Work.abortLink w r).st).check = w.st.check ∧ ((Work.abortLink w r).st).dest = w.st.dest ∧ ((Work.abortLink w r).st).signs = w.st.signs ∧
    ((Work.abortLink w r).st).params = w.st.params ∧ ((Work.abortLink w r).st).resetHeld = w.st.resetHeld ∧ ((Work.abortLink w r).st).pending = w.st.pending ∧
    (∀ seg_ : Seg, ((Work.abortLink w r).st).port seg_ = w.st.port seg_) ∧ (∀ ix_ : StationIx, ((Work.abortLink w r).st).station ix_ = w.st.station ix_) ∧ (∀ lane_ : LaneId, ((Work.abortLink w r).st).lane lane_ = w.st.lane lane_) := by
  unfold Work.abortLink
  first
  | (simp [State.port, State.station, State.lane, State.ctx]; done)
  | ((repeat' split) <;> (simp [State.port, State.station, State.lane, State.ctx]; done))
  | (dsimp only
     and_intros <;> intros <;> (repeat' split) <;> simp [State.port, State.station, State.lane, State.ctx])

/-- `Work.commitDrop` changes `cache`, `pool`, `uplink` alone. -/
@[simp] theorem Work.commitDrop_frame (w : Work) (r : LinkRef) :
    ((Work.commitDrop w r).st).ports = w.st.ports ∧ ((Work.commitDrop w r).st).stations = w.st.stations ∧ ((Work.commitDrop w r).st).lanes = w.st.lanes ∧
    ((Work.commitDrop w r).st).visitCounter = w.st.visitCounter ∧ ((Work.commitDrop w r).st).lastServed = w.st.lastServed ∧ ((Work.commitDrop w r).st).slot = w.st.slot ∧
    ((Work.commitDrop w r).st).check = w.st.check ∧ ((Work.commitDrop w r).st).dest = w.st.dest ∧ ((Work.commitDrop w r).st).signs = w.st.signs ∧
    ((Work.commitDrop w r).st).params = w.st.params ∧ ((Work.commitDrop w r).st).resetHeld = w.st.resetHeld ∧ ((Work.commitDrop w r).st).pending = w.st.pending ∧
    (∀ seg_ : Seg, ((Work.commitDrop w r).st).port seg_ = w.st.port seg_) ∧ (∀ ix_ : StationIx, ((Work.commitDrop w r).st).station ix_ = w.st.station ix_) ∧ (∀ lane_ : LaneId, ((Work.commitDrop w r).st).lane lane_ = w.st.lane lane_) := by
  unfold Work.commitDrop
  first
  | (simp [State.port, State.station, State.lane, State.ctx]; done)
  | ((repeat' split) <;> (simp [State.port, State.station, State.lane, State.ctx]; done))
  | (dsimp only
     and_intros <;> intros <;> (repeat' split) <;> simp [State.port, State.station, State.lane, State.ctx])

/-- `Work.returnEntry` changes `cache`, `uplink` alone. -/
@[simp] theorem Work.returnEntry_frame (w : Work) (i : Fin 1024) (y : Fin 2) (a b : Bool) :
    ((Work.returnEntry w i y a b).st).ports = w.st.ports ∧ ((Work.returnEntry w i y a b).st).stations = w.st.stations ∧ ((Work.returnEntry w i y a b).st).lanes = w.st.lanes ∧
    ((Work.returnEntry w i y a b).st).pool = w.st.pool ∧ ((Work.returnEntry w i y a b).st).visitCounter = w.st.visitCounter ∧ ((Work.returnEntry w i y a b).st).lastServed = w.st.lastServed ∧
    ((Work.returnEntry w i y a b).st).slot = w.st.slot ∧ ((Work.returnEntry w i y a b).st).check = w.st.check ∧ ((Work.returnEntry w i y a b).st).dest = w.st.dest ∧
    ((Work.returnEntry w i y a b).st).signs = w.st.signs ∧ ((Work.returnEntry w i y a b).st).params = w.st.params ∧ ((Work.returnEntry w i y a b).st).resetHeld = w.st.resetHeld ∧
    ((Work.returnEntry w i y a b).st).pending = w.st.pending ∧ (∀ seg_ : Seg, ((Work.returnEntry w i y a b).st).port seg_ = w.st.port seg_) ∧ (∀ ix_ : StationIx, ((Work.returnEntry w i y a b).st).station ix_ = w.st.station ix_) ∧
    (∀ lane_ : LaneId, ((Work.returnEntry w i y a b).st).lane lane_ = w.st.lane lane_) ∧ (∀ ctx_ : CtxId, ((Work.returnEntry w i y a b).st).ctx ctx_ = w.st.ctx ctx_) := by
  unfold Work.returnEntry
  first
  | (simp [State.port, State.station, State.lane, State.ctx]; done)
  | ((repeat' split) <;> (simp [State.port, State.station, State.lane, State.ctx]; done))
  | (dsimp only
     and_intros <;> intros <;> (repeat' split) <;> simp [State.port, State.station, State.lane, State.ctx])

/-- `State.discardCommit` changes `cache`, `pool` alone. -/
@[simp] theorem State.discardCommit_frame (s : State) (r : LinkRef) :
    (State.discardCommit s r).ports = s.ports ∧ (State.discardCommit s r).stations = s.stations ∧ (State.discardCommit s r).lanes = s.lanes ∧
    (State.discardCommit s r).visitCounter = s.visitCounter ∧ (State.discardCommit s r).lastServed = s.lastServed ∧ (State.discardCommit s r).slot = s.slot ∧
    (State.discardCommit s r).check = s.check ∧ (State.discardCommit s r).dest = s.dest ∧ (State.discardCommit s r).signs = s.signs ∧
    (State.discardCommit s r).uplink = s.uplink ∧ (State.discardCommit s r).params = s.params ∧ (State.discardCommit s r).resetHeld = s.resetHeld ∧
    (State.discardCommit s r).pending = s.pending ∧ (∀ seg_ : Seg, (State.discardCommit s r).port seg_ = s.port seg_) ∧ (∀ ix_ : StationIx, (State.discardCommit s r).station ix_ = s.station ix_) ∧
    (∀ lane_ : LaneId, (State.discardCommit s r).lane lane_ = s.lane lane_) := by
  unfold State.discardCommit
  first
  | (simp [State.port, State.station, State.lane, State.ctx]; done)
  | ((repeat' split) <;> (simp [State.port, State.station, State.lane, State.ctx]; done))
  | (dsimp only
     and_intros <;> intros <;> (repeat' split) <;> simp [State.port, State.station, State.lane, State.ctx])

/-- `State.applyCommit` changes `cache`, `pool` alone. -/
@[simp] theorem State.applyCommit_frame (s : State) (r : LinkRef) (l : Link) (t : Target) (k : Committed) :
    (State.applyCommit s r l t k).ports = s.ports ∧ (State.applyCommit s r l t k).stations = s.stations ∧ (State.applyCommit s r l t k).lanes = s.lanes ∧
    (State.applyCommit s r l t k).visitCounter = s.visitCounter ∧ (State.applyCommit s r l t k).lastServed = s.lastServed ∧ (State.applyCommit s r l t k).slot = s.slot ∧
    (State.applyCommit s r l t k).check = s.check ∧ (State.applyCommit s r l t k).dest = s.dest ∧ (State.applyCommit s r l t k).signs = s.signs ∧
    (State.applyCommit s r l t k).uplink = s.uplink ∧ (State.applyCommit s r l t k).params = s.params ∧ (State.applyCommit s r l t k).resetHeld = s.resetHeld ∧
    (State.applyCommit s r l t k).pending = s.pending ∧ (∀ seg_ : Seg, (State.applyCommit s r l t k).port seg_ = s.port seg_) ∧ (∀ ix_ : StationIx, (State.applyCommit s r l t k).station ix_ = s.station ix_) ∧
    (∀ lane_ : LaneId, (State.applyCommit s r l t k).lane lane_ = s.lane lane_) := by
  unfold State.applyCommit
  first
  | (simp [State.port, State.station, State.lane, State.ctx]; done)
  | ((repeat' split) <;> (simp [State.port, State.station, State.lane, State.ctx]; done))
  | (dsimp only
     and_intros <;> intros <;> (repeat' split) <;> simp [State.port, State.station, State.lane, State.ctx])

/-- `Work.returnCommit` changes `cache`, `uplink` alone. -/
@[simp] theorem Work.returnCommit_frame (w : Work) (t : Target) (a b : Bool) :
    ((Work.returnCommit w t a b).st).ports = w.st.ports ∧ ((Work.returnCommit w t a b).st).stations = w.st.stations ∧ ((Work.returnCommit w t a b).st).lanes = w.st.lanes ∧
    ((Work.returnCommit w t a b).st).pool = w.st.pool ∧ ((Work.returnCommit w t a b).st).visitCounter = w.st.visitCounter ∧ ((Work.returnCommit w t a b).st).lastServed = w.st.lastServed ∧
    ((Work.returnCommit w t a b).st).slot = w.st.slot ∧ ((Work.returnCommit w t a b).st).check = w.st.check ∧ ((Work.returnCommit w t a b).st).dest = w.st.dest ∧
    ((Work.returnCommit w t a b).st).signs = w.st.signs ∧ ((Work.returnCommit w t a b).st).params = w.st.params ∧ ((Work.returnCommit w t a b).st).resetHeld = w.st.resetHeld ∧
    ((Work.returnCommit w t a b).st).pending = w.st.pending ∧ (∀ seg_ : Seg, ((Work.returnCommit w t a b).st).port seg_ = w.st.port seg_) ∧ (∀ ix_ : StationIx, ((Work.returnCommit w t a b).st).station ix_ = w.st.station ix_) ∧
    (∀ lane_ : LaneId, ((Work.returnCommit w t a b).st).lane lane_ = w.st.lane lane_) ∧ (∀ ctx_ : CtxId, ((Work.returnCommit w t a b).st).ctx ctx_ = w.st.ctx ctx_) := by
  unfold Work.returnCommit
  first
  | (simp [State.port, State.station, State.lane, State.ctx]; done)
  | ((repeat' split) <;> (simp [State.port, State.station, State.lane, State.ctx]; done))
  | (dsimp only
     and_intros <;> intros <;> (repeat' split) <;> simp [State.port, State.station, State.lane, State.ctx])

/-- `Work.commitLink` changes `cache`, `pool`, `uplink` alone. -/
@[simp] theorem Work.commitLink_frame (b : Bool) (w : Work) (r : LinkRef) :
    ((Work.commitLink b w r).st).ports = w.st.ports ∧ ((Work.commitLink b w r).st).stations = w.st.stations ∧ ((Work.commitLink b w r).st).lanes = w.st.lanes ∧
    ((Work.commitLink b w r).st).visitCounter = w.st.visitCounter ∧ ((Work.commitLink b w r).st).lastServed = w.st.lastServed ∧ ((Work.commitLink b w r).st).slot = w.st.slot ∧
    ((Work.commitLink b w r).st).check = w.st.check ∧ ((Work.commitLink b w r).st).dest = w.st.dest ∧ ((Work.commitLink b w r).st).signs = w.st.signs ∧
    ((Work.commitLink b w r).st).params = w.st.params ∧ ((Work.commitLink b w r).st).resetHeld = w.st.resetHeld ∧ ((Work.commitLink b w r).st).pending = w.st.pending ∧
    (∀ seg_ : Seg, ((Work.commitLink b w r).st).port seg_ = w.st.port seg_) ∧ (∀ ix_ : StationIx, ((Work.commitLink b w r).st).station ix_ = w.st.station ix_) ∧ (∀ lane_ : LaneId, ((Work.commitLink b w r).st).lane lane_ = w.st.lane lane_) := by
  unfold Work.commitLink
  first
  | (simp [State.port, State.station, State.lane, State.ctx]; done)
  | ((repeat' split) <;> (simp [State.port, State.station, State.lane, State.ctx]; done))
  | (dsimp only
     and_intros <;> intros <;> (repeat' split) <;> simp [State.port, State.station, State.lane, State.ctx])

/-- `Work.commit` changes `cache`, `pool`, `uplink` alone. -/
@[simp] theorem Work.commit_frame (w : Work) (id : CtxId) :
    ((Work.commit w id).st).ports = w.st.ports ∧ ((Work.commit w id).st).stations = w.st.stations ∧ ((Work.commit w id).st).lanes = w.st.lanes ∧
    ((Work.commit w id).st).visitCounter = w.st.visitCounter ∧ ((Work.commit w id).st).lastServed = w.st.lastServed ∧ ((Work.commit w id).st).slot = w.st.slot ∧
    ((Work.commit w id).st).check = w.st.check ∧ ((Work.commit w id).st).dest = w.st.dest ∧ ((Work.commit w id).st).signs = w.st.signs ∧
    ((Work.commit w id).st).params = w.st.params ∧ ((Work.commit w id).st).resetHeld = w.st.resetHeld ∧ ((Work.commit w id).st).pending = w.st.pending ∧
    (∀ seg_ : Seg, ((Work.commit w id).st).port seg_ = w.st.port seg_) ∧ (∀ ix_ : StationIx, ((Work.commit w id).st).station ix_ = w.st.station ix_) ∧ (∀ lane_ : LaneId, ((Work.commit w id).st).lane lane_ = w.st.lane lane_) := by
  exact ⟨by
      unfold Work.commit; dsimp only; split
      · exact (foldl_keeps (fun t : Work => t.st.ports) _ (by intros; simp) _ _).trans (foldl_keeps (fun t : Work => t.st.ports) _ (by intros; simp) _ _)
      · exact foldl_keeps (fun t : Work => t.st.ports) _ (by intros; simp) _ _,
    by
      unfold Work.commit; dsimp only; split
      · exact (foldl_keeps (fun t : Work => t.st.stations) _ (by intros; simp) _ _).trans (foldl_keeps (fun t : Work => t.st.stations) _ (by intros; simp) _ _)
      · exact foldl_keeps (fun t : Work => t.st.stations) _ (by intros; simp) _ _,
    by
      unfold Work.commit; dsimp only; split
      · exact (foldl_keeps (fun t : Work => t.st.lanes) _ (by intros; simp) _ _).trans (foldl_keeps (fun t : Work => t.st.lanes) _ (by intros; simp) _ _)
      · exact foldl_keeps (fun t : Work => t.st.lanes) _ (by intros; simp) _ _,
    by
      unfold Work.commit; dsimp only; split
      · exact (foldl_keeps (fun t : Work => t.st.visitCounter) _ (by intros; simp) _ _).trans (foldl_keeps (fun t : Work => t.st.visitCounter) _ (by intros; simp) _ _)
      · exact foldl_keeps (fun t : Work => t.st.visitCounter) _ (by intros; simp) _ _,
    by
      unfold Work.commit; dsimp only; split
      · exact (foldl_keeps (fun t : Work => t.st.lastServed) _ (by intros; simp) _ _).trans (foldl_keeps (fun t : Work => t.st.lastServed) _ (by intros; simp) _ _)
      · exact foldl_keeps (fun t : Work => t.st.lastServed) _ (by intros; simp) _ _,
    by
      unfold Work.commit; dsimp only; split
      · exact (foldl_keeps (fun t : Work => t.st.slot) _ (by intros; simp) _ _).trans (foldl_keeps (fun t : Work => t.st.slot) _ (by intros; simp) _ _)
      · exact foldl_keeps (fun t : Work => t.st.slot) _ (by intros; simp) _ _,
    by
      unfold Work.commit; dsimp only; split
      · exact (foldl_keeps (fun t : Work => t.st.check) _ (by intros; simp) _ _).trans (foldl_keeps (fun t : Work => t.st.check) _ (by intros; simp) _ _)
      · exact foldl_keeps (fun t : Work => t.st.check) _ (by intros; simp) _ _,
    by
      unfold Work.commit; dsimp only; split
      · exact (foldl_keeps (fun t : Work => t.st.dest) _ (by intros; simp) _ _).trans (foldl_keeps (fun t : Work => t.st.dest) _ (by intros; simp) _ _)
      · exact foldl_keeps (fun t : Work => t.st.dest) _ (by intros; simp) _ _,
    by
      unfold Work.commit; dsimp only; split
      · exact (foldl_keeps (fun t : Work => t.st.signs) _ (by intros; simp) _ _).trans (foldl_keeps (fun t : Work => t.st.signs) _ (by intros; simp) _ _)
      · exact foldl_keeps (fun t : Work => t.st.signs) _ (by intros; simp) _ _,
    by
      unfold Work.commit; dsimp only; split
      · exact (foldl_keeps (fun t : Work => t.st.params) _ (by intros; simp) _ _).trans (foldl_keeps (fun t : Work => t.st.params) _ (by intros; simp) _ _)
      · exact foldl_keeps (fun t : Work => t.st.params) _ (by intros; simp) _ _,
    by
      unfold Work.commit; dsimp only; split
      · exact (foldl_keeps (fun t : Work => t.st.resetHeld) _ (by intros; simp) _ _).trans (foldl_keeps (fun t : Work => t.st.resetHeld) _ (by intros; simp) _ _)
      · exact foldl_keeps (fun t : Work => t.st.resetHeld) _ (by intros; simp) _ _,
    by
      unfold Work.commit; dsimp only; split
      · exact (foldl_keeps (fun t : Work => t.st.pending) _ (by intros; simp) _ _).trans (foldl_keeps (fun t : Work => t.st.pending) _ (by intros; simp) _ _)
      · exact foldl_keeps (fun t : Work => t.st.pending) _ (by intros; simp) _ _,
    fun seg_ => by
      unfold Work.commit; dsimp only; split
      · exact (foldl_keeps (fun t : Work => t.st.port seg_) _ (by intros; simp) _ _).trans (foldl_keeps (fun t : Work => t.st.port seg_) _ (by intros; simp) _ _)
      · exact foldl_keeps (fun t : Work => t.st.port seg_) _ (by intros; simp) _ _,
    fun ix_ => by
      unfold Work.commit; dsimp only; split
      · exact (foldl_keeps (fun t : Work => t.st.station ix_) _ (by intros; simp) _ _).trans (foldl_keeps (fun t : Work => t.st.station ix_) _ (by intros; simp) _ _)
      · exact foldl_keeps (fun t : Work => t.st.station ix_) _ (by intros; simp) _ _,
    fun lane_ => by
      unfold Work.commit; dsimp only; split
      · exact (foldl_keeps (fun t : Work => t.st.lane lane_) _ (by intros; simp) _ _).trans (foldl_keeps (fun t : Work => t.st.lane lane_) _ (by intros; simp) _ _)
      · exact foldl_keeps (fun t : Work => t.st.lane lane_) _ (by intros; simp) _ _⟩

/-- `Work.abort` changes `cache`, `pool`, `uplink` alone. -/
@[simp] theorem Work.abort_frame (w : Work) (id : CtxId) :
    ((Work.abort w id).st).ports = w.st.ports ∧ ((Work.abort w id).st).stations = w.st.stations ∧ ((Work.abort w id).st).lanes = w.st.lanes ∧
    ((Work.abort w id).st).visitCounter = w.st.visitCounter ∧ ((Work.abort w id).st).lastServed = w.st.lastServed ∧ ((Work.abort w id).st).slot = w.st.slot ∧
    ((Work.abort w id).st).check = w.st.check ∧ ((Work.abort w id).st).dest = w.st.dest ∧ ((Work.abort w id).st).signs = w.st.signs ∧
    ((Work.abort w id).st).params = w.st.params ∧ ((Work.abort w id).st).resetHeld = w.st.resetHeld ∧ ((Work.abort w id).st).pending = w.st.pending ∧
    (∀ seg_ : Seg, ((Work.abort w id).st).port seg_ = w.st.port seg_) ∧ (∀ ix_ : StationIx, ((Work.abort w id).st).station ix_ = w.st.station ix_) ∧ (∀ lane_ : LaneId, ((Work.abort w id).st).lane lane_ = w.st.lane lane_) := by
  unfold Work.abort
  exact ⟨foldl_keeps (fun t : Work => t.st.ports) _ (by intros; simp) _ _,
    foldl_keeps (fun t : Work => t.st.stations) _ (by intros; simp) _ _,
    foldl_keeps (fun t : Work => t.st.lanes) _ (by intros; simp) _ _,
    foldl_keeps (fun t : Work => t.st.visitCounter) _ (by intros; simp) _ _,
    foldl_keeps (fun t : Work => t.st.lastServed) _ (by intros; simp) _ _,
    foldl_keeps (fun t : Work => t.st.slot) _ (by intros; simp) _ _,
    foldl_keeps (fun t : Work => t.st.check) _ (by intros; simp) _ _,
    foldl_keeps (fun t : Work => t.st.dest) _ (by intros; simp) _ _,
    foldl_keeps (fun t : Work => t.st.signs) _ (by intros; simp) _ _,
    foldl_keeps (fun t : Work => t.st.params) _ (by intros; simp) _ _,
    foldl_keeps (fun t : Work => t.st.resetHeld) _ (by intros; simp) _ _,
    foldl_keeps (fun t : Work => t.st.pending) _ (by intros; simp) _ _,
    fun seg_ => foldl_keeps (fun t : Work => t.st.port seg_) _ (by intros; simp) _ _,
    fun ix_ => foldl_keeps (fun t : Work => t.st.station ix_) _ (by intros; simp) _ _,
    fun lane_ => foldl_keeps (fun t : Work => t.st.lane lane_) _ (by intros; simp) _ _⟩

/-- `State.takeUnit` changes `cache`, `pool` alone. -/
@[simp] theorem State.takeUnit_frame (s : State) (r : LinkRef) :
    (State.takeUnit s r).ports = s.ports ∧ (State.takeUnit s r).stations = s.stations ∧ (State.takeUnit s r).lanes = s.lanes ∧
    (State.takeUnit s r).visitCounter = s.visitCounter ∧ (State.takeUnit s r).lastServed = s.lastServed ∧ (State.takeUnit s r).slot = s.slot ∧
    (State.takeUnit s r).check = s.check ∧ (State.takeUnit s r).dest = s.dest ∧ (State.takeUnit s r).signs = s.signs ∧
    (State.takeUnit s r).uplink = s.uplink ∧ (State.takeUnit s r).params = s.params ∧ (State.takeUnit s r).resetHeld = s.resetHeld ∧
    (State.takeUnit s r).pending = s.pending ∧ (∀ seg_ : Seg, (State.takeUnit s r).port seg_ = s.port seg_) ∧ (∀ ix_ : StationIx, (State.takeUnit s r).station ix_ = s.station ix_) ∧
    (∀ lane_ : LaneId, (State.takeUnit s r).lane lane_ = s.lane lane_) := by
  unfold State.takeUnit
  first
  | (simp [State.port, State.station, State.lane, State.ctx]; done)
  | ((repeat' split) <;> (simp [State.port, State.station, State.lane, State.ctx]; done))
  | (dsimp only
     and_intros <;> intros <;> (repeat' split) <;> simp [State.port, State.station, State.lane, State.ctx])

/-- `State.takeUnits` changes `cache`, `pool` alone. -/
@[simp] theorem State.takeUnits_frame (s : State) (id : CtxId) :
    (State.takeUnits s id).ports = s.ports ∧ (State.takeUnits s id).stations = s.stations ∧ (State.takeUnits s id).lanes = s.lanes ∧
    (State.takeUnits s id).visitCounter = s.visitCounter ∧ (State.takeUnits s id).lastServed = s.lastServed ∧ (State.takeUnits s id).slot = s.slot ∧
    (State.takeUnits s id).check = s.check ∧ (State.takeUnits s id).dest = s.dest ∧ (State.takeUnits s id).signs = s.signs ∧
    (State.takeUnits s id).uplink = s.uplink ∧ (State.takeUnits s id).params = s.params ∧ (State.takeUnits s id).resetHeld = s.resetHeld ∧
    (State.takeUnits s id).pending = s.pending ∧ (∀ seg_ : Seg, (State.takeUnits s id).port seg_ = s.port seg_) ∧ (∀ ix_ : StationIx, (State.takeUnits s id).station ix_ = s.station ix_) ∧
    (∀ lane_ : LaneId, (State.takeUnits s id).lane lane_ = s.lane lane_) := by
  unfold State.takeUnits
  exact ⟨foldl_keeps (fun t : State => t.ports) _ (by intros; simp) _ _,
    foldl_keeps (fun t : State => t.stations) _ (by intros; simp) _ _,
    foldl_keeps (fun t : State => t.lanes) _ (by intros; simp) _ _,
    foldl_keeps (fun t : State => t.visitCounter) _ (by intros; simp) _ _,
    foldl_keeps (fun t : State => t.lastServed) _ (by intros; simp) _ _,
    foldl_keeps (fun t : State => t.slot) _ (by intros; simp) _ _,
    foldl_keeps (fun t : State => t.check) _ (by intros; simp) _ _,
    foldl_keeps (fun t : State => t.dest) _ (by intros; simp) _ _,
    foldl_keeps (fun t : State => t.signs) _ (by intros; simp) _ _,
    foldl_keeps (fun t : State => t.uplink) _ (by intros; simp) _ _,
    foldl_keeps (fun t : State => t.params) _ (by intros; simp) _ _,
    foldl_keeps (fun t : State => t.resetHeld) _ (by intros; simp) _ _,
    foldl_keeps (fun t : State => t.pending) _ (by intros; simp) _ _,
    fun seg_ => foldl_keeps (fun t : State => t.port seg_) _ (by intros; simp) _ _,
    fun ix_ => foldl_keeps (fun t : State => t.station ix_) _ (by intros; simp) _ _,
    fun lane_ => foldl_keeps (fun t : State => t.lane lane_) _ (by intros; simp) _ _⟩

/-- `State.releaseUnit` changes `cache`, `pool` alone. -/
@[simp] theorem State.releaseUnit_frame (s : State) (r : LinkRef) :
    (State.releaseUnit s r).ports = s.ports ∧ (State.releaseUnit s r).stations = s.stations ∧ (State.releaseUnit s r).lanes = s.lanes ∧
    (State.releaseUnit s r).visitCounter = s.visitCounter ∧ (State.releaseUnit s r).lastServed = s.lastServed ∧ (State.releaseUnit s r).slot = s.slot ∧
    (State.releaseUnit s r).check = s.check ∧ (State.releaseUnit s r).dest = s.dest ∧ (State.releaseUnit s r).signs = s.signs ∧
    (State.releaseUnit s r).uplink = s.uplink ∧ (State.releaseUnit s r).params = s.params ∧ (State.releaseUnit s r).resetHeld = s.resetHeld ∧
    (State.releaseUnit s r).pending = s.pending ∧ (∀ seg_ : Seg, (State.releaseUnit s r).port seg_ = s.port seg_) ∧ (∀ ix_ : StationIx, (State.releaseUnit s r).station ix_ = s.station ix_) ∧
    (∀ lane_ : LaneId, (State.releaseUnit s r).lane lane_ = s.lane lane_) := by
  unfold State.releaseUnit
  first
  | (simp [State.port, State.station, State.lane, State.ctx]; done)
  | ((repeat' split) <;> (simp [State.port, State.station, State.lane, State.ctx]; done))
  | (dsimp only
     and_intros <;> intros <;> (repeat' split) <;> simp [State.port, State.station, State.lane, State.ctx])

/-- `State.releaseUnits` changes `cache`, `pool` alone. -/
@[simp] theorem State.releaseUnits_frame (s : State) (id : CtxId) :
    (State.releaseUnits s id).ports = s.ports ∧ (State.releaseUnits s id).stations = s.stations ∧ (State.releaseUnits s id).lanes = s.lanes ∧
    (State.releaseUnits s id).visitCounter = s.visitCounter ∧ (State.releaseUnits s id).lastServed = s.lastServed ∧ (State.releaseUnits s id).slot = s.slot ∧
    (State.releaseUnits s id).check = s.check ∧ (State.releaseUnits s id).dest = s.dest ∧ (State.releaseUnits s id).signs = s.signs ∧
    (State.releaseUnits s id).uplink = s.uplink ∧ (State.releaseUnits s id).params = s.params ∧ (State.releaseUnits s id).resetHeld = s.resetHeld ∧
    (State.releaseUnits s id).pending = s.pending ∧ (∀ seg_ : Seg, (State.releaseUnits s id).port seg_ = s.port seg_) ∧ (∀ ix_ : StationIx, (State.releaseUnits s id).station ix_ = s.station ix_) ∧
    (∀ lane_ : LaneId, (State.releaseUnits s id).lane lane_ = s.lane lane_) := by
  unfold State.releaseUnits
  exact ⟨foldl_keeps (fun t : State => t.ports) _ (by intros; simp) _ _,
    foldl_keeps (fun t : State => t.stations) _ (by intros; simp) _ _,
    foldl_keeps (fun t : State => t.lanes) _ (by intros; simp) _ _,
    foldl_keeps (fun t : State => t.visitCounter) _ (by intros; simp) _ _,
    foldl_keeps (fun t : State => t.lastServed) _ (by intros; simp) _ _,
    foldl_keeps (fun t : State => t.slot) _ (by intros; simp) _ _,
    foldl_keeps (fun t : State => t.check) _ (by intros; simp) _ _,
    foldl_keeps (fun t : State => t.dest) _ (by intros; simp) _ _,
    foldl_keeps (fun t : State => t.signs) _ (by intros; simp) _ _,
    foldl_keeps (fun t : State => t.uplink) _ (by intros; simp) _ _,
    foldl_keeps (fun t : State => t.params) _ (by intros; simp) _ _,
    foldl_keeps (fun t : State => t.resetHeld) _ (by intros; simp) _ _,
    foldl_keeps (fun t : State => t.pending) _ (by intros; simp) _ _,
    fun seg_ => foldl_keeps (fun t : State => t.port seg_) _ (by intros; simp) _ _,
    fun ix_ => foldl_keeps (fun t : State => t.station ix_) _ (by intros; simp) _ _,
    fun lane_ => foldl_keeps (fun t : State => t.lane lane_) _ (by intros; simp) _ _⟩

/-- `Work.recallCopy` changes `cache`, `pool`, `uplink` alone. -/
@[simp] theorem Work.recallCopy_frame (w : Work) (k : Text) (p : Fin 48) :
    ((Work.recallCopy w k p).st).ports = w.st.ports ∧ ((Work.recallCopy w k p).st).stations = w.st.stations ∧ ((Work.recallCopy w k p).st).lanes = w.st.lanes ∧
    ((Work.recallCopy w k p).st).visitCounter = w.st.visitCounter ∧ ((Work.recallCopy w k p).st).lastServed = w.st.lastServed ∧ ((Work.recallCopy w k p).st).slot = w.st.slot ∧
    ((Work.recallCopy w k p).st).check = w.st.check ∧ ((Work.recallCopy w k p).st).dest = w.st.dest ∧ ((Work.recallCopy w k p).st).signs = w.st.signs ∧
    ((Work.recallCopy w k p).st).params = w.st.params ∧ ((Work.recallCopy w k p).st).resetHeld = w.st.resetHeld ∧ ((Work.recallCopy w k p).st).pending = w.st.pending ∧
    (∀ seg_ : Seg, ((Work.recallCopy w k p).st).port seg_ = w.st.port seg_) ∧ (∀ ix_ : StationIx, ((Work.recallCopy w k p).st).station ix_ = w.st.station ix_) ∧ (∀ lane_ : LaneId, ((Work.recallCopy w k p).st).lane lane_ = w.st.lane lane_) := by
  unfold Work.recallCopy
  first
  | (simp [State.port, State.station, State.lane, State.ctx]; done)
  | ((repeat' split) <;> (simp [State.port, State.station, State.lane, State.ctx]; done))
  | (dsimp only
     and_intros <;> intros <;> (repeat' split) <;> simp [State.port, State.station, State.lane, State.ctx])

/-- `Work.recallEntry` changes `cache`, `pool`, `uplink` alone. -/
@[simp] theorem Work.recallEntry_frame (w : Work) (k : Text) (y : Fin 2) :
    ((Work.recallEntry w k y).st).ports = w.st.ports ∧ ((Work.recallEntry w k y).st).stations = w.st.stations ∧ ((Work.recallEntry w k y).st).lanes = w.st.lanes ∧
    ((Work.recallEntry w k y).st).visitCounter = w.st.visitCounter ∧ ((Work.recallEntry w k y).st).lastServed = w.st.lastServed ∧ ((Work.recallEntry w k y).st).slot = w.st.slot ∧
    ((Work.recallEntry w k y).st).check = w.st.check ∧ ((Work.recallEntry w k y).st).dest = w.st.dest ∧ ((Work.recallEntry w k y).st).signs = w.st.signs ∧
    ((Work.recallEntry w k y).st).params = w.st.params ∧ ((Work.recallEntry w k y).st).resetHeld = w.st.resetHeld ∧ ((Work.recallEntry w k y).st).pending = w.st.pending ∧
    (∀ seg_ : Seg, ((Work.recallEntry w k y).st).port seg_ = w.st.port seg_) ∧ (∀ ix_ : StationIx, ((Work.recallEntry w k y).st).station ix_ = w.st.station ix_) ∧ (∀ lane_ : LaneId, ((Work.recallEntry w k y).st).lane lane_ = w.st.lane lane_) := by
  exact ⟨by
      unfold Work.recallEntry; dsimp only; split
      · split <;> simp
      · simp only [Work.settleEntry_frame, Work.upd_st, State.updEntry_frame]
        exact foldl_keeps (fun t : State => t.ports) _ (by intros; simp) _ _,
    by
      unfold Work.recallEntry; dsimp only; split
      · split <;> simp
      · simp only [Work.settleEntry_frame, Work.upd_st, State.updEntry_frame]
        exact foldl_keeps (fun t : State => t.stations) _ (by intros; simp) _ _,
    by
      unfold Work.recallEntry; dsimp only; split
      · split <;> simp
      · simp only [Work.settleEntry_frame, Work.upd_st, State.updEntry_frame]
        exact foldl_keeps (fun t : State => t.lanes) _ (by intros; simp) _ _,
    by
      unfold Work.recallEntry; dsimp only; split
      · split <;> simp
      · simp only [Work.settleEntry_frame, Work.upd_st, State.updEntry_frame]
        exact foldl_keeps (fun t : State => t.visitCounter) _ (by intros; simp) _ _,
    by
      unfold Work.recallEntry; dsimp only; split
      · split <;> simp
      · simp only [Work.settleEntry_frame, Work.upd_st, State.updEntry_frame]
        exact foldl_keeps (fun t : State => t.lastServed) _ (by intros; simp) _ _,
    by
      unfold Work.recallEntry; dsimp only; split
      · split <;> simp
      · simp only [Work.settleEntry_frame, Work.upd_st, State.updEntry_frame]
        exact foldl_keeps (fun t : State => t.slot) _ (by intros; simp) _ _,
    by
      unfold Work.recallEntry; dsimp only; split
      · split <;> simp
      · simp only [Work.settleEntry_frame, Work.upd_st, State.updEntry_frame]
        exact foldl_keeps (fun t : State => t.check) _ (by intros; simp) _ _,
    by
      unfold Work.recallEntry; dsimp only; split
      · split <;> simp
      · simp only [Work.settleEntry_frame, Work.upd_st, State.updEntry_frame]
        exact foldl_keeps (fun t : State => t.dest) _ (by intros; simp) _ _,
    by
      unfold Work.recallEntry; dsimp only; split
      · split <;> simp
      · simp only [Work.settleEntry_frame, Work.upd_st, State.updEntry_frame]
        exact foldl_keeps (fun t : State => t.signs) _ (by intros; simp) _ _,
    by
      unfold Work.recallEntry; dsimp only; split
      · split <;> simp
      · simp only [Work.settleEntry_frame, Work.upd_st, State.updEntry_frame]
        exact foldl_keeps (fun t : State => t.params) _ (by intros; simp) _ _,
    by
      unfold Work.recallEntry; dsimp only; split
      · split <;> simp
      · simp only [Work.settleEntry_frame, Work.upd_st, State.updEntry_frame]
        exact foldl_keeps (fun t : State => t.resetHeld) _ (by intros; simp) _ _,
    by
      unfold Work.recallEntry; dsimp only; split
      · split <;> simp
      · simp only [Work.settleEntry_frame, Work.upd_st, State.updEntry_frame]
        exact foldl_keeps (fun t : State => t.pending) _ (by intros; simp) _ _,
    fun seg_ => by
      unfold Work.recallEntry; dsimp only; split
      · split <;> simp
      · simp only [Work.settleEntry_frame, Work.upd_st, State.updEntry_frame]
        exact foldl_keeps (fun t : State => t.port seg_) _ (by intros; simp) _ _,
    fun ix_ => by
      unfold Work.recallEntry; dsimp only; split
      · split <;> simp
      · simp only [Work.settleEntry_frame, Work.upd_st, State.updEntry_frame]
        exact foldl_keeps (fun t : State => t.station ix_) _ (by intros; simp) _ _,
    fun lane_ => by
      unfold Work.recallEntry; dsimp only; split
      · split <;> simp
      · simp only [Work.settleEntry_frame, Work.upd_st, State.updEntry_frame]
        exact foldl_keeps (fun t : State => t.lane lane_) _ (by intros; simp) _ _⟩

/-- `Work.takeRecall` changes `cache`, `pool`, `uplink` alone. -/
@[simp] theorem Work.takeRecall_frame (w : Work) (k : Text) :
    ((Work.takeRecall w k).st).ports = w.st.ports ∧ ((Work.takeRecall w k).st).stations = w.st.stations ∧ ((Work.takeRecall w k).st).lanes = w.st.lanes ∧
    ((Work.takeRecall w k).st).visitCounter = w.st.visitCounter ∧ ((Work.takeRecall w k).st).lastServed = w.st.lastServed ∧ ((Work.takeRecall w k).st).slot = w.st.slot ∧
    ((Work.takeRecall w k).st).check = w.st.check ∧ ((Work.takeRecall w k).st).dest = w.st.dest ∧ ((Work.takeRecall w k).st).signs = w.st.signs ∧
    ((Work.takeRecall w k).st).params = w.st.params ∧ ((Work.takeRecall w k).st).resetHeld = w.st.resetHeld ∧ ((Work.takeRecall w k).st).pending = w.st.pending ∧
    (∀ seg_ : Seg, ((Work.takeRecall w k).st).port seg_ = w.st.port seg_) ∧ (∀ ix_ : StationIx, ((Work.takeRecall w k).st).station ix_ = w.st.station ix_) ∧ (∀ lane_ : LaneId, ((Work.takeRecall w k).st).lane lane_ = w.st.lane lane_) := by
  exact ⟨by
      unfold Work.takeRecall; dsimp only
      refine (foldl_keeps (fun t : Work => t.st.ports) _ (by intros; simp) _ _).trans ?_
      simp only [Work.finish_frame]
      refine (foldl_keeps (fun t : Work => t.st.ports) _ (by intros; simp) _ _).trans ?_
      split <;> simp,
    by
      unfold Work.takeRecall; dsimp only
      refine (foldl_keeps (fun t : Work => t.st.stations) _ (by intros; simp) _ _).trans ?_
      simp only [Work.finish_frame]
      refine (foldl_keeps (fun t : Work => t.st.stations) _ (by intros; simp) _ _).trans ?_
      split <;> simp,
    by
      unfold Work.takeRecall; dsimp only
      refine (foldl_keeps (fun t : Work => t.st.lanes) _ (by intros; simp) _ _).trans ?_
      simp only [Work.finish_frame]
      refine (foldl_keeps (fun t : Work => t.st.lanes) _ (by intros; simp) _ _).trans ?_
      split <;> simp,
    by
      unfold Work.takeRecall; dsimp only
      refine (foldl_keeps (fun t : Work => t.st.visitCounter) _ (by intros; simp) _ _).trans ?_
      simp only [Work.finish_frame]
      refine (foldl_keeps (fun t : Work => t.st.visitCounter) _ (by intros; simp) _ _).trans ?_
      split <;> simp,
    by
      unfold Work.takeRecall; dsimp only
      refine (foldl_keeps (fun t : Work => t.st.lastServed) _ (by intros; simp) _ _).trans ?_
      simp only [Work.finish_frame]
      refine (foldl_keeps (fun t : Work => t.st.lastServed) _ (by intros; simp) _ _).trans ?_
      split <;> simp,
    by
      unfold Work.takeRecall; dsimp only
      refine (foldl_keeps (fun t : Work => t.st.slot) _ (by intros; simp) _ _).trans ?_
      simp only [Work.finish_frame]
      refine (foldl_keeps (fun t : Work => t.st.slot) _ (by intros; simp) _ _).trans ?_
      split <;> simp,
    by
      unfold Work.takeRecall; dsimp only
      refine (foldl_keeps (fun t : Work => t.st.check) _ (by intros; simp) _ _).trans ?_
      simp only [Work.finish_frame]
      refine (foldl_keeps (fun t : Work => t.st.check) _ (by intros; simp) _ _).trans ?_
      split <;> simp,
    by
      unfold Work.takeRecall; dsimp only
      refine (foldl_keeps (fun t : Work => t.st.dest) _ (by intros; simp) _ _).trans ?_
      simp only [Work.finish_frame]
      refine (foldl_keeps (fun t : Work => t.st.dest) _ (by intros; simp) _ _).trans ?_
      split <;> simp,
    by
      unfold Work.takeRecall; dsimp only
      refine (foldl_keeps (fun t : Work => t.st.signs) _ (by intros; simp) _ _).trans ?_
      simp only [Work.finish_frame]
      refine (foldl_keeps (fun t : Work => t.st.signs) _ (by intros; simp) _ _).trans ?_
      split <;> simp,
    by
      unfold Work.takeRecall; dsimp only
      refine (foldl_keeps (fun t : Work => t.st.params) _ (by intros; simp) _ _).trans ?_
      simp only [Work.finish_frame]
      refine (foldl_keeps (fun t : Work => t.st.params) _ (by intros; simp) _ _).trans ?_
      split <;> simp,
    by
      unfold Work.takeRecall; dsimp only
      refine (foldl_keeps (fun t : Work => t.st.resetHeld) _ (by intros; simp) _ _).trans ?_
      simp only [Work.finish_frame]
      refine (foldl_keeps (fun t : Work => t.st.resetHeld) _ (by intros; simp) _ _).trans ?_
      split <;> simp,
    by
      unfold Work.takeRecall; dsimp only
      refine (foldl_keeps (fun t : Work => t.st.pending) _ (by intros; simp) _ _).trans ?_
      simp only [Work.finish_frame]
      refine (foldl_keeps (fun t : Work => t.st.pending) _ (by intros; simp) _ _).trans ?_
      split <;> simp,
    fun seg_ => by
      unfold Work.takeRecall; dsimp only
      refine (foldl_keeps (fun t : Work => t.st.port seg_) _ (by intros; simp) _ _).trans ?_
      simp only [Work.finish_frame]
      refine (foldl_keeps (fun t : Work => t.st.port seg_) _ (by intros; simp) _ _).trans ?_
      split <;> simp,
    fun ix_ => by
      unfold Work.takeRecall; dsimp only
      refine (foldl_keeps (fun t : Work => t.st.station ix_) _ (by intros; simp) _ _).trans ?_
      simp only [Work.finish_frame]
      refine (foldl_keeps (fun t : Work => t.st.station ix_) _ (by intros; simp) _ _).trans ?_
      split <;> simp,
    fun lane_ => by
      unfold Work.takeRecall; dsimp only
      refine (foldl_keeps (fun t : Work => t.st.lane lane_) _ (by intros; simp) _ _).trans ?_
      simp only [Work.finish_frame]
      refine (foldl_keeps (fun t : Work => t.st.lane lane_) _ (by intros; simp) _ _).trans ?_
      split <;> simp⟩

/-- `Work.flushEntry` changes `cache`, `uplink` alone. -/
@[simp] theorem Work.flushEntry_frame (w : Work) (i : Fin 1024) (y : Fin 2) :
    ((Work.flushEntry w i y).st).ports = w.st.ports ∧ ((Work.flushEntry w i y).st).stations = w.st.stations ∧ ((Work.flushEntry w i y).st).lanes = w.st.lanes ∧
    ((Work.flushEntry w i y).st).pool = w.st.pool ∧ ((Work.flushEntry w i y).st).visitCounter = w.st.visitCounter ∧ ((Work.flushEntry w i y).st).lastServed = w.st.lastServed ∧
    ((Work.flushEntry w i y).st).slot = w.st.slot ∧ ((Work.flushEntry w i y).st).check = w.st.check ∧ ((Work.flushEntry w i y).st).dest = w.st.dest ∧
    ((Work.flushEntry w i y).st).signs = w.st.signs ∧ ((Work.flushEntry w i y).st).params = w.st.params ∧ ((Work.flushEntry w i y).st).resetHeld = w.st.resetHeld ∧
    ((Work.flushEntry w i y).st).pending = w.st.pending ∧ (∀ seg_ : Seg, ((Work.flushEntry w i y).st).port seg_ = w.st.port seg_) ∧ (∀ ix_ : StationIx, ((Work.flushEntry w i y).st).station ix_ = w.st.station ix_) ∧
    (∀ lane_ : LaneId, ((Work.flushEntry w i y).st).lane lane_ = w.st.lane lane_) ∧ (∀ ctx_ : CtxId, ((Work.flushEntry w i y).st).ctx ctx_ = w.st.ctx ctx_) := by
  unfold Work.flushEntry
  first
  | (simp [State.port, State.station, State.lane, State.ctx]; done)
  | ((repeat' split) <;> (simp [State.port, State.station, State.lane, State.ctx]; done))
  | (dsimp only
     and_intros <;> intros <;> (repeat' split) <;> simp [State.port, State.station, State.lane, State.ctx])

/-- `Work.flush` changes `cache`, `pool`, `uplink` alone. -/
@[simp] theorem Work.flush_frame (w : Work)  :
    ((Work.flush w ).st).ports = w.st.ports ∧ ((Work.flush w ).st).stations = w.st.stations ∧ ((Work.flush w ).st).lanes = w.st.lanes ∧
    ((Work.flush w ).st).visitCounter = w.st.visitCounter ∧ ((Work.flush w ).st).lastServed = w.st.lastServed ∧ ((Work.flush w ).st).slot = w.st.slot ∧
    ((Work.flush w ).st).check = w.st.check ∧ ((Work.flush w ).st).dest = w.st.dest ∧ ((Work.flush w ).st).signs = w.st.signs ∧
    ((Work.flush w ).st).params = w.st.params ∧ ((Work.flush w ).st).resetHeld = w.st.resetHeld ∧ ((Work.flush w ).st).pending = w.st.pending ∧
    (∀ seg_ : Seg, ((Work.flush w ).st).port seg_ = w.st.port seg_) ∧ (∀ ix_ : StationIx, ((Work.flush w ).st).station ix_ = w.st.station ix_) ∧ (∀ lane_ : LaneId, ((Work.flush w ).st).lane lane_ = w.st.lane lane_) := by
  exact ⟨by
      unfold Work.flush
      simp only [Work.finish_frame, Work.make_frame]
      exact foldl_keeps (fun t : Work => t.st.ports) _ (by intros; simp) _ _,
    by
      unfold Work.flush
      simp only [Work.finish_frame, Work.make_frame]
      exact foldl_keeps (fun t : Work => t.st.stations) _ (by intros; simp) _ _,
    by
      unfold Work.flush
      simp only [Work.finish_frame, Work.make_frame]
      exact foldl_keeps (fun t : Work => t.st.lanes) _ (by intros; simp) _ _,
    by
      unfold Work.flush
      simp only [Work.finish_frame, Work.make_frame]
      exact foldl_keeps (fun t : Work => t.st.visitCounter) _ (by intros; simp) _ _,
    by
      unfold Work.flush
      simp only [Work.finish_frame, Work.make_frame]
      exact foldl_keeps (fun t : Work => t.st.lastServed) _ (by intros; simp) _ _,
    by
      unfold Work.flush
      simp only [Work.finish_frame, Work.make_frame]
      exact foldl_keeps (fun t : Work => t.st.slot) _ (by intros; simp) _ _,
    by
      unfold Work.flush
      simp only [Work.finish_frame, Work.make_frame]
      exact foldl_keeps (fun t : Work => t.st.check) _ (by intros; simp) _ _,
    by
      unfold Work.flush
      simp only [Work.finish_frame, Work.make_frame]
      exact foldl_keeps (fun t : Work => t.st.dest) _ (by intros; simp) _ _,
    by
      unfold Work.flush
      simp only [Work.finish_frame, Work.make_frame]
      exact foldl_keeps (fun t : Work => t.st.signs) _ (by intros; simp) _ _,
    by
      unfold Work.flush
      simp only [Work.finish_frame, Work.make_frame]
      exact foldl_keeps (fun t : Work => t.st.params) _ (by intros; simp) _ _,
    by
      unfold Work.flush
      simp only [Work.finish_frame, Work.make_frame]
      exact foldl_keeps (fun t : Work => t.st.resetHeld) _ (by intros; simp) _ _,
    by
      unfold Work.flush
      simp only [Work.finish_frame, Work.make_frame]
      exact foldl_keeps (fun t : Work => t.st.pending) _ (by intros; simp) _ _,
    fun seg_ => by
      unfold Work.flush
      simp only [Work.finish_frame, Work.make_frame]
      exact foldl_keeps (fun t : Work => t.st.port seg_) _ (by intros; simp) _ _,
    fun ix_ => by
      unfold Work.flush
      simp only [Work.finish_frame, Work.make_frame]
      exact foldl_keeps (fun t : Work => t.st.station ix_) _ (by intros; simp) _ _,
    fun lane_ => by
      unfold Work.flush
      simp only [Work.finish_frame, Work.make_frame]
      exact foldl_keeps (fun t : Work => t.st.lane lane_) _ (by intros; simp) _ _⟩

/-- `Work.turn` changes `cache`, `pool`, `uplink` alone. -/
@[simp] theorem Work.turn_frame (w : Work)  :
    ((Work.turn w ).st).ports = w.st.ports ∧ ((Work.turn w ).st).stations = w.st.stations ∧ ((Work.turn w ).st).lanes = w.st.lanes ∧
    ((Work.turn w ).st).visitCounter = w.st.visitCounter ∧ ((Work.turn w ).st).lastServed = w.st.lastServed ∧ ((Work.turn w ).st).slot = w.st.slot ∧
    ((Work.turn w ).st).check = w.st.check ∧ ((Work.turn w ).st).dest = w.st.dest ∧ ((Work.turn w ).st).signs = w.st.signs ∧
    ((Work.turn w ).st).params = w.st.params ∧ ((Work.turn w ).st).resetHeld = w.st.resetHeld ∧ ((Work.turn w ).st).pending = w.st.pending ∧
    (∀ seg_ : Seg, ((Work.turn w ).st).port seg_ = w.st.port seg_) ∧ (∀ ix_ : StationIx, ((Work.turn w ).st).station ix_ = w.st.station ix_) ∧ (∀ lane_ : LaneId, ((Work.turn w ).st).lane lane_ = w.st.lane lane_) := by
  unfold Work.turn
  split
  · simp
  · and_intros <;> intros <;> simp only [Work.finish_frame, Work.upd_st] <;> split <;> simp

end Sys2Proof.Machine
end

