-- ==== Sys2Proof/Laws/Units.lean ====
section
/-! SUPPORT. The slot, check and destination units: the blocks that each of their operations leaves as they are. -/

set_option linter.all false

namespace Sys2Proof.Machine

/-- `State.updDay` changes `slot` alone. -/
@[simp] theorem State.updDay_frame (s : State) (i : DayIx) (f : DayTable → DayTable) :
    (State.updDay s i f).ports = s.ports ∧ (State.updDay s i f).stations = s.stations ∧ (State.updDay s i f).lanes = s.lanes ∧
    (State.updDay s i f).pool = s.pool ∧ (State.updDay s i f).visitCounter = s.visitCounter ∧ (State.updDay s i f).lastServed = s.lastServed ∧
    (State.updDay s i f).cache = s.cache ∧ (State.updDay s i f).check = s.check ∧ (State.updDay s i f).dest = s.dest ∧
    (State.updDay s i f).signs = s.signs ∧ (State.updDay s i f).uplink = s.uplink ∧ (State.updDay s i f).params = s.params ∧
    (State.updDay s i f).resetHeld = s.resetHeld ∧ (State.updDay s i f).pending = s.pending ∧ (∀ seg_ : Seg, (State.updDay s i f).port seg_ = s.port seg_) ∧
    (∀ ix_ : StationIx, (State.updDay s i f).station ix_ = s.station ix_) ∧ (∀ lane_ : LaneId, (State.updDay s i f).lane lane_ = s.lane lane_) ∧ (∀ ctx_ : CtxId, (State.updDay s i f).ctx ctx_ = s.ctx ctx_) := by
  unfold State.updDay
  first
  | (simp [State.port, State.station, State.lane, State.ctx]; done)
  | ((repeat' split) <;> (simp [State.port, State.station, State.lane, State.ctx]; done))
  | (dsimp only
     and_intros <;> intros <;> (repeat' split) <;> simp [State.port, State.station, State.lane, State.ctx])

/-- `State.updWindow` changes `slot` alone. -/
@[simp] theorem State.updWindow_frame (s : State) (i : DayIx) (w : Fin 96) (f : Window → Window) :
    (State.updWindow s i w f).ports = s.ports ∧ (State.updWindow s i w f).stations = s.stations ∧ (State.updWindow s i w f).lanes = s.lanes ∧
    (State.updWindow s i w f).pool = s.pool ∧ (State.updWindow s i w f).visitCounter = s.visitCounter ∧ (State.updWindow s i w f).lastServed = s.lastServed ∧
    (State.updWindow s i w f).cache = s.cache ∧ (State.updWindow s i w f).check = s.check ∧ (State.updWindow s i w f).dest = s.dest ∧
    (State.updWindow s i w f).signs = s.signs ∧ (State.updWindow s i w f).uplink = s.uplink ∧ (State.updWindow s i w f).params = s.params ∧
    (State.updWindow s i w f).resetHeld = s.resetHeld ∧ (State.updWindow s i w f).pending = s.pending ∧ (∀ seg_ : Seg, (State.updWindow s i w f).port seg_ = s.port seg_) ∧
    (∀ ix_ : StationIx, (State.updWindow s i w f).station ix_ = s.station ix_) ∧ (∀ lane_ : LaneId, (State.updWindow s i w f).lane lane_ = s.lane lane_) ∧ (∀ ctx_ : CtxId, (State.updWindow s i w f).ctx ctx_ = s.ctx ctx_) := by
  unfold State.updWindow
  first
  | (simp [State.port, State.station, State.lane, State.ctx]; done)
  | ((repeat' split) <;> (simp [State.port, State.station, State.lane, State.ctx]; done))
  | (dsimp only
     and_intros <;> intros <;> (repeat' split) <;> simp [State.port, State.station, State.lane, State.ctx])

/-- `State.rebase` changes `slot`, `pool` alone. -/
@[simp] theorem State.rebase_frame (s : State) (d : BitVec 16) :
    (State.rebase s d).ports = s.ports ∧ (State.rebase s d).stations = s.stations ∧ (State.rebase s d).lanes = s.lanes ∧
    (State.rebase s d).visitCounter = s.visitCounter ∧ (State.rebase s d).lastServed = s.lastServed ∧ (State.rebase s d).cache = s.cache ∧
    (State.rebase s d).check = s.check ∧ (State.rebase s d).dest = s.dest ∧ (State.rebase s d).signs = s.signs ∧
    (State.rebase s d).uplink = s.uplink ∧ (State.rebase s d).params = s.params ∧ (State.rebase s d).resetHeld = s.resetHeld ∧
    (State.rebase s d).pending = s.pending ∧ (∀ seg_ : Seg, (State.rebase s d).port seg_ = s.port seg_) ∧ (∀ ix_ : StationIx, (State.rebase s d).station ix_ = s.station ix_) ∧
    (∀ lane_ : LaneId, (State.rebase s d).lane lane_ = s.lane lane_) := by
  unfold State.rebase
  first
  | (simp [State.port, State.station, State.lane, State.ctx]; done)
  | ((repeat' split) <;> (simp [State.port, State.station, State.lane, State.ctx]; done))
  | (dsimp only
     and_intros <;> intros <;> (repeat' split) <;> simp [State.port, State.station, State.lane, State.ctx])

/-- `State.takeDays` changes `slot` alone. -/
@[simp] theorem State.takeDays_frame (s : State) (d : BitVec 16) :
    (State.takeDays s d).ports = s.ports ∧ (State.takeDays s d).stations = s.stations ∧ (State.takeDays s d).lanes = s.lanes ∧
    (State.takeDays s d).pool = s.pool ∧ (State.takeDays s d).visitCounter = s.visitCounter ∧ (State.takeDays s d).lastServed = s.lastServed ∧
    (State.takeDays s d).cache = s.cache ∧ (State.takeDays s d).check = s.check ∧ (State.takeDays s d).dest = s.dest ∧
    (State.takeDays s d).signs = s.signs ∧ (State.takeDays s d).uplink = s.uplink ∧ (State.takeDays s d).params = s.params ∧
    (State.takeDays s d).resetHeld = s.resetHeld ∧ (State.takeDays s d).pending = s.pending ∧ (∀ seg_ : Seg, (State.takeDays s d).port seg_ = s.port seg_) ∧
    (∀ ix_ : StationIx, (State.takeDays s d).station ix_ = s.station ix_) ∧ (∀ lane_ : LaneId, (State.takeDays s d).lane lane_ = s.lane lane_) ∧ (∀ ctx_ : CtxId, (State.takeDays s d).ctx ctx_ = s.ctx ctx_) := by
  unfold State.takeDays
  first
  | (simp [State.port, State.station, State.lane, State.ctx]; done)
  | ((repeat' split) <;> (simp [State.port, State.station, State.lane, State.ctx]; done))
  | (dsimp only
     and_intros <;> intros <;> (repeat' split) <;> simp [State.port, State.station, State.lane, State.ctx])

/-- `State.reserve` changes `slot`, `pool` alone. -/
@[simp] theorem State.reserve_frame (s : State) (id : CtxId) (d : BitVec 16) (w : Nat) :
    (State.reserve s id d w).ports = s.ports ∧ (State.reserve s id d w).stations = s.stations ∧ (State.reserve s id d w).lanes = s.lanes ∧
    (State.reserve s id d w).visitCounter = s.visitCounter ∧ (State.reserve s id d w).lastServed = s.lastServed ∧ (State.reserve s id d w).cache = s.cache ∧
    (State.reserve s id d w).check = s.check ∧ (State.reserve s id d w).dest = s.dest ∧ (State.reserve s id d w).signs = s.signs ∧
    (State.reserve s id d w).uplink = s.uplink ∧ (State.reserve s id d w).params = s.params ∧ (State.reserve s id d w).resetHeld = s.resetHeld ∧
    (State.reserve s id d w).pending = s.pending ∧ (∀ seg_ : Seg, (State.reserve s id d w).port seg_ = s.port seg_) ∧ (∀ ix_ : StationIx, (State.reserve s id d w).station ix_ = s.station ix_) ∧
    (∀ lane_ : LaneId, (State.reserve s id d w).lane lane_ = s.lane lane_) := by
  unfold State.reserve
  first
  | (simp [State.port, State.station, State.lane, State.ctx]; done)
  | ((repeat' split) <;> (simp [State.port, State.station, State.lane, State.ctx]; done))
  | (dsimp only
     and_intros <;> intros <;> (repeat' split) <;> simp [State.port, State.station, State.lane, State.ctx])

/-- `State.releaseSlot` changes `slot`, `pool` alone. -/
@[simp] theorem State.releaseSlot_frame (s : State) (id : CtxId) :
    (State.releaseSlot s id).ports = s.ports ∧ (State.releaseSlot s id).stations = s.stations ∧ (State.releaseSlot s id).lanes = s.lanes ∧
    (State.releaseSlot s id).visitCounter = s.visitCounter ∧ (State.releaseSlot s id).lastServed = s.lastServed ∧ (State.releaseSlot s id).cache = s.cache ∧
    (State.releaseSlot s id).check = s.check ∧ (State.releaseSlot s id).dest = s.dest ∧ (State.releaseSlot s id).signs = s.signs ∧
    (State.releaseSlot s id).uplink = s.uplink ∧ (State.releaseSlot s id).params = s.params ∧ (State.releaseSlot s id).resetHeld = s.resetHeld ∧
    (State.releaseSlot s id).pending = s.pending ∧ (∀ seg_ : Seg, (State.releaseSlot s id).port seg_ = s.port seg_) ∧ (∀ ix_ : StationIx, (State.releaseSlot s id).station ix_ = s.station ix_) ∧
    (∀ lane_ : LaneId, (State.releaseSlot s id).lane lane_ = s.lane lane_) := by
  unfold State.releaseSlot
  first
  | (simp [State.port, State.station, State.lane, State.ctx]; done)
  | ((repeat' split) <;> (simp [State.port, State.station, State.lane, State.ctx]; done))
  | (dsimp only
     and_intros <;> intros <;> (repeat' split) <;> simp [State.port, State.station, State.lane, State.ctx])

/-- `State.commitSlot` changes `slot`, `pool` alone. -/
@[simp] theorem State.commitSlot_frame (s : State) (id : CtxId) :
    (State.commitSlot s id).ports = s.ports ∧ (State.commitSlot s id).stations = s.stations ∧ (State.commitSlot s id).lanes = s.lanes ∧
    (State.commitSlot s id).visitCounter = s.visitCounter ∧ (State.commitSlot s id).lastServed = s.lastServed ∧ (State.commitSlot s id).cache = s.cache ∧
    (State.commitSlot s id).check = s.check ∧ (State.commitSlot s id).dest = s.dest ∧ (State.commitSlot s id).signs = s.signs ∧
    (State.commitSlot s id).uplink = s.uplink ∧ (State.commitSlot s id).params = s.params ∧ (State.commitSlot s id).resetHeld = s.resetHeld ∧
    (State.commitSlot s id).pending = s.pending ∧ (∀ seg_ : Seg, (State.commitSlot s id).port seg_ = s.port seg_) ∧ (∀ ix_ : StationIx, (State.commitSlot s id).station ix_ = s.station ix_) ∧
    (∀ lane_ : LaneId, (State.commitSlot s id).lane lane_ = s.lane lane_) := by
  unfold State.commitSlot
  first
  | (simp [State.port, State.station, State.lane, State.ctx]; done)
  | ((repeat' split) <;> (simp [State.port, State.station, State.lane, State.ctx]; done))
  | (dsimp only
     and_intros <;> intros <;> (repeat' split) <;> simp [State.port, State.station, State.lane, State.ctx])

/-- `State.takeMark` changes `check`, `pool` alone. -/
@[simp] theorem State.takeMark_frame (id : CtxId) (pos : Position) (s : State) (m : RawMark) :
    (State.takeMark id pos s m).ports = s.ports ∧ (State.takeMark id pos s m).stations = s.stations ∧ (State.takeMark id pos s m).lanes = s.lanes ∧
    (State.takeMark id pos s m).visitCounter = s.visitCounter ∧ (State.takeMark id pos s m).lastServed = s.lastServed ∧ (State.takeMark id pos s m).cache = s.cache ∧
    (State.takeMark id pos s m).slot = s.slot ∧ (State.takeMark id pos s m).dest = s.dest ∧ (State.takeMark id pos s m).signs = s.signs ∧
    (State.takeMark id pos s m).uplink = s.uplink ∧ (State.takeMark id pos s m).params = s.params ∧ (State.takeMark id pos s m).resetHeld = s.resetHeld ∧
    (State.takeMark id pos s m).pending = s.pending ∧ (∀ seg_ : Seg, (State.takeMark id pos s m).port seg_ = s.port seg_) ∧ (∀ ix_ : StationIx, (State.takeMark id pos s m).station ix_ = s.station ix_) ∧
    (∀ lane_ : LaneId, (State.takeMark id pos s m).lane lane_ = s.lane lane_) := by
  unfold State.takeMark
  first
  | (simp [State.port, State.station, State.lane, State.ctx]; done)
  | ((repeat' split) <;> (simp [State.port, State.station, State.lane, State.ctx]; done))
  | (dsimp only
     and_intros <;> intros <;> (repeat' split) <;> simp [State.port, State.station, State.lane, State.ctx])

/-- `State.takeMarks` changes `check`, `pool` alone. -/
@[simp] theorem State.takeMarks_frame (s : State) (id : CtxId) (pos : Position) (l : List RawMark) :
    (State.takeMarks s id pos l).ports = s.ports ∧ (State.takeMarks s id pos l).stations = s.stations ∧ (State.takeMarks s id pos l).lanes = s.lanes ∧
    (State.takeMarks s id pos l).visitCounter = s.visitCounter ∧ (State.takeMarks s id pos l).lastServed = s.lastServed ∧ (State.takeMarks s id pos l).cache = s.cache ∧
    (State.takeMarks s id pos l).slot = s.slot ∧ (State.takeMarks s id pos l).dest = s.dest ∧ (State.takeMarks s id pos l).signs = s.signs ∧
    (State.takeMarks s id pos l).uplink = s.uplink ∧ (State.takeMarks s id pos l).params = s.params ∧ (State.takeMarks s id pos l).resetHeld = s.resetHeld ∧
    (State.takeMarks s id pos l).pending = s.pending ∧ (∀ seg_ : Seg, (State.takeMarks s id pos l).port seg_ = s.port seg_) ∧ (∀ ix_ : StationIx, (State.takeMarks s id pos l).station ix_ = s.station ix_) ∧
    (∀ lane_ : LaneId, (State.takeMarks s id pos l).lane lane_ = s.lane lane_) := by
  unfold State.takeMarks
  exact ⟨foldl_keeps (fun t : State => t.ports) _ (by intros; simp) _ _,
    foldl_keeps (fun t : State => t.stations) _ (by intros; simp) _ _,
    foldl_keeps (fun t : State => t.lanes) _ (by intros; simp) _ _,
    foldl_keeps (fun t : State => t.visitCounter) _ (by intros; simp) _ _,
    foldl_keeps (fun t : State => t.lastServed) _ (by intros; simp) _ _,
    foldl_keeps (fun t : State => t.cache) _ (by intros; simp) _ _,
    foldl_keeps (fun t : State => t.slot) _ (by intros; simp) _ _,
    foldl_keeps (fun t : State => t.dest) _ (by intros; simp) _ _,
    foldl_keeps (fun t : State => t.signs) _ (by intros; simp) _ _,
    foldl_keeps (fun t : State => t.uplink) _ (by intros; simp) _ _,
    foldl_keeps (fun t : State => t.params) _ (by intros; simp) _ _,
    foldl_keeps (fun t : State => t.resetHeld) _ (by intros; simp) _ _,
    foldl_keeps (fun t : State => t.pending) _ (by intros; simp) _ _,
    fun seg_ => foldl_keeps (fun t : State => t.port seg_) _ (by intros; simp) _ _,
    fun ix_ => foldl_keeps (fun t : State => t.station ix_) _ (by intros; simp) _ _,
    fun lane_ => foldl_keeps (fun t : State => t.lane lane_) _ (by intros; simp) _ _⟩

/-- `State.gradePosition` changes `check`, `pool` alone. -/
@[simp] theorem State.gradePosition_frame (s : State) (id : CtxId) (pos : Position) (b : Bool) :
    (State.gradePosition s id pos b).ports = s.ports ∧ (State.gradePosition s id pos b).stations = s.stations ∧ (State.gradePosition s id pos b).lanes = s.lanes ∧
    (State.gradePosition s id pos b).visitCounter = s.visitCounter ∧ (State.gradePosition s id pos b).lastServed = s.lastServed ∧ (State.gradePosition s id pos b).cache = s.cache ∧
    (State.gradePosition s id pos b).slot = s.slot ∧ (State.gradePosition s id pos b).dest = s.dest ∧ (State.gradePosition s id pos b).signs = s.signs ∧
    (State.gradePosition s id pos b).uplink = s.uplink ∧ (State.gradePosition s id pos b).params = s.params ∧ (State.gradePosition s id pos b).resetHeld = s.resetHeld ∧
    (State.gradePosition s id pos b).pending = s.pending ∧ (∀ seg_ : Seg, (State.gradePosition s id pos b).port seg_ = s.port seg_) ∧ (∀ ix_ : StationIx, (State.gradePosition s id pos b).station ix_ = s.station ix_) ∧
    (∀ lane_ : LaneId, (State.gradePosition s id pos b).lane lane_ = s.lane lane_) := by
  unfold State.gradePosition
  first
  | (simp [State.port, State.station, State.lane, State.ctx]; done)
  | ((repeat' split) <;> (simp [State.port, State.station, State.lane, State.ctx]; done))
  | (dsimp only
     and_intros <;> intros <;> (repeat' split) <;> simp [State.port, State.station, State.lane, State.ctx])

/-- `State.checkSeal` changes `check`, `pool` alone. -/
@[simp] theorem State.checkSeal_frame (s : State) (id : CtxId) (pos : Position) :
    (State.checkSeal s id pos).ports = s.ports ∧ (State.checkSeal s id pos).stations = s.stations ∧ (State.checkSeal s id pos).lanes = s.lanes ∧
    (State.checkSeal s id pos).visitCounter = s.visitCounter ∧ (State.checkSeal s id pos).lastServed = s.lastServed ∧ (State.checkSeal s id pos).cache = s.cache ∧
    (State.checkSeal s id pos).slot = s.slot ∧ (State.checkSeal s id pos).dest = s.dest ∧ (State.checkSeal s id pos).signs = s.signs ∧
    (State.checkSeal s id pos).uplink = s.uplink ∧ (State.checkSeal s id pos).params = s.params ∧ (State.checkSeal s id pos).resetHeld = s.resetHeld ∧
    (State.checkSeal s id pos).pending = s.pending ∧ (∀ seg_ : Seg, (State.checkSeal s id pos).port seg_ = s.port seg_) ∧ (∀ ix_ : StationIx, (State.checkSeal s id pos).station ix_ = s.station ix_) ∧
    (∀ lane_ : LaneId, (State.checkSeal s id pos).lane lane_ = s.lane lane_) := by
  unfold State.checkSeal
  first
  | (simp [State.port, State.station, State.lane, State.ctx]; done)
  | ((repeat' split) <;> (simp [State.port, State.station, State.lane, State.ctx]; done))
  | (dsimp only
     and_intros <;> intros <;> (repeat' split) <;> simp [State.port, State.station, State.lane, State.ctx])

/-- `State.runChecks` changes `check`, `pool` alone. -/
@[simp] theorem State.runChecks_frame (s : State) (id : CtxId) (b : Bool) :
    (State.runChecks s id b).ports = s.ports ∧ (State.runChecks s id b).stations = s.stations ∧ (State.runChecks s id b).lanes = s.lanes ∧
    (State.runChecks s id b).visitCounter = s.visitCounter ∧ (State.runChecks s id b).lastServed = s.lastServed ∧ (State.runChecks s id b).cache = s.cache ∧
    (State.runChecks s id b).slot = s.slot ∧ (State.runChecks s id b).dest = s.dest ∧ (State.runChecks s id b).signs = s.signs ∧
    (State.runChecks s id b).uplink = s.uplink ∧ (State.runChecks s id b).params = s.params ∧ (State.runChecks s id b).resetHeld = s.resetHeld ∧
    (State.runChecks s id b).pending = s.pending ∧ (∀ seg_ : Seg, (State.runChecks s id b).port seg_ = s.port seg_) ∧ (∀ ix_ : StationIx, (State.runChecks s id b).station ix_ = s.station ix_) ∧
    (∀ lane_ : LaneId, (State.runChecks s id b).lane lane_ = s.lane lane_) := by
  unfold State.runChecks
  first
  | (simp [State.port, State.station, State.lane, State.ctx]; done)
  | ((repeat' split) <;> (simp [State.port, State.station, State.lane, State.ctx]; done))
  | (dsimp only
     and_intros <;> intros <;> (repeat' split) <;> simp [State.port, State.station, State.lane, State.ctx])

/-- `State.updDestAt` changes `dest` alone. -/
@[simp] theorem State.updDestAt_frame (s : State) (d : Fin 64) (f : Dest → Dest) :
    (State.updDestAt s d f).ports = s.ports ∧ (State.updDestAt s d f).stations = s.stations ∧ (State.updDestAt s d f).lanes = s.lanes ∧
    (State.updDestAt s d f).pool = s.pool ∧ (State.updDestAt s d f).visitCounter = s.visitCounter ∧ (State.updDestAt s d f).lastServed = s.lastServed ∧
    (State.updDestAt s d f).cache = s.cache ∧ (State.updDestAt s d f).slot = s.slot ∧ (State.updDestAt s d f).check = s.check ∧
    (State.updDestAt s d f).signs = s.signs ∧ (State.updDestAt s d f).uplink = s.uplink ∧ (State.updDestAt s d f).params = s.params ∧
    (State.updDestAt s d f).resetHeld = s.resetHeld ∧ (State.updDestAt s d f).pending = s.pending ∧ (∀ seg_ : Seg, (State.updDestAt s d f).port seg_ = s.port seg_) ∧
    (∀ ix_ : StationIx, (State.updDestAt s d f).station ix_ = s.station ix_) ∧ (∀ lane_ : LaneId, (State.updDestAt s d f).lane lane_ = s.lane lane_) ∧ (∀ ctx_ : CtxId, (State.updDestAt s d f).ctx ctx_ = s.ctx ctx_) := by
  unfold State.updDestAt
  first
  | (simp [State.port, State.station, State.lane, State.ctx]; done)
  | ((repeat' split) <;> (simp [State.port, State.station, State.lane, State.ctx]; done))
  | (dsimp only
     and_intros <;> intros <;> (repeat' split) <;> simp [State.port, State.station, State.lane, State.ctx])

/-- `State.forgetTransit` changes `pool` alone. -/
@[simp] theorem State.forgetTransit_frame (s : State) (v : BitVec 16) :
    (State.forgetTransit s v).ports = s.ports ∧ (State.forgetTransit s v).stations = s.stations ∧ (State.forgetTransit s v).lanes = s.lanes ∧
    (State.forgetTransit s v).visitCounter = s.visitCounter ∧ (State.forgetTransit s v).lastServed = s.lastServed ∧ (State.forgetTransit s v).cache = s.cache ∧
    (State.forgetTransit s v).slot = s.slot ∧ (State.forgetTransit s v).check = s.check ∧ (State.forgetTransit s v).dest = s.dest ∧
    (State.forgetTransit s v).signs = s.signs ∧ (State.forgetTransit s v).uplink = s.uplink ∧ (State.forgetTransit s v).params = s.params ∧
    (State.forgetTransit s v).resetHeld = s.resetHeld ∧ (State.forgetTransit s v).pending = s.pending ∧ (∀ seg_ : Seg, (State.forgetTransit s v).port seg_ = s.port seg_) ∧
    (∀ ix_ : StationIx, (State.forgetTransit s v).station ix_ = s.station ix_) ∧ (∀ lane_ : LaneId, (State.forgetTransit s v).lane lane_ = s.lane lane_) := by
  unfold State.forgetTransit
  first
  | (simp [State.port, State.station, State.lane, State.ctx]; done)
  | ((repeat' split) <;> (simp [State.port, State.station, State.lane, State.ctx]; done))
  | (dsimp only
     and_intros <;> intros <;> (repeat' split) <;> simp [State.port, State.station, State.lane, State.ctx])

/-- `State.removeTransit` changes `dest`, `pool` alone. -/
@[simp] theorem State.removeTransit_frame (s : State) (e : TransitEntry) :
    (State.removeTransit s e).ports = s.ports ∧ (State.removeTransit s e).stations = s.stations ∧ (State.removeTransit s e).lanes = s.lanes ∧
    (State.removeTransit s e).visitCounter = s.visitCounter ∧ (State.removeTransit s e).lastServed = s.lastServed ∧ (State.removeTransit s e).cache = s.cache ∧
    (State.removeTransit s e).slot = s.slot ∧ (State.removeTransit s e).check = s.check ∧ (State.removeTransit s e).signs = s.signs ∧
    (State.removeTransit s e).uplink = s.uplink ∧ (State.removeTransit s e).params = s.params ∧ (State.removeTransit s e).resetHeld = s.resetHeld ∧
    (State.removeTransit s e).pending = s.pending ∧ (∀ seg_ : Seg, (State.removeTransit s e).port seg_ = s.port seg_) ∧ (∀ ix_ : StationIx, (State.removeTransit s e).station ix_ = s.station ix_) ∧
    (∀ lane_ : LaneId, (State.removeTransit s e).lane lane_ = s.lane lane_) := by
  unfold State.removeTransit
  first
  | (simp [State.port, State.station, State.lane, State.ctx]; done)
  | ((repeat' split) <;> (simp [State.port, State.station, State.lane, State.ctx]; done))
  | (dsimp only
     and_intros <;> intros <;> (repeat' split) <;> simp [State.port, State.station, State.lane, State.ctx])

/-- `State.displace` changes `dest`, `pool`, `uplink` alone. -/
@[simp] theorem State.displace_frame (s : State) (e : TransitEntry) :
    (State.displace s e).ports = s.ports ∧ (State.displace s e).stations = s.stations ∧ (State.displace s e).lanes = s.lanes ∧
    (State.displace s e).visitCounter = s.visitCounter ∧ (State.displace s e).lastServed = s.lastServed ∧ (State.displace s e).cache = s.cache ∧
    (State.displace s e).slot = s.slot ∧ (State.displace s e).check = s.check ∧ (State.displace s e).signs = s.signs ∧
    (State.displace s e).params = s.params ∧ (State.displace s e).resetHeld = s.resetHeld ∧ (State.displace s e).pending = s.pending ∧
    (∀ seg_ : Seg, (State.displace s e).port seg_ = s.port seg_) ∧ (∀ ix_ : StationIx, (State.displace s e).station ix_ = s.station ix_) ∧ (∀ lane_ : LaneId, (State.displace s e).lane lane_ = s.lane lane_) := by
  unfold State.displace
  first
  | (simp [State.port, State.station, State.lane, State.ctx]; done)
  | ((repeat' split) <;> (simp [State.port, State.station, State.lane, State.ctx]; done))
  | (dsimp only
     and_intros <;> intros <;> (repeat' split) <;> simp [State.port, State.station, State.lane, State.ctx])

/-- `State.takeToken` changes `dest`, `pool`, `uplink` alone. -/
@[simp] theorem State.takeToken_frame (s : State) (id : CtxId) (d : Fin 64) :
    (State.takeToken s id d).ports = s.ports ∧ (State.takeToken s id d).stations = s.stations ∧ (State.takeToken s id d).lanes = s.lanes ∧
    (State.takeToken s id d).visitCounter = s.visitCounter ∧ (State.takeToken s id d).lastServed = s.lastServed ∧ (State.takeToken s id d).cache = s.cache ∧
    (State.takeToken s id d).slot = s.slot ∧ (State.takeToken s id d).check = s.check ∧ (State.takeToken s id d).signs = s.signs ∧
    (State.takeToken s id d).params = s.params ∧ (State.takeToken s id d).resetHeld = s.resetHeld ∧ (State.takeToken s id d).pending = s.pending ∧
    (∀ seg_ : Seg, (State.takeToken s id d).port seg_ = s.port seg_) ∧ (∀ ix_ : StationIx, (State.takeToken s id d).station ix_ = s.station ix_) ∧ (∀ lane_ : LaneId, (State.takeToken s id d).lane lane_ = s.lane lane_) := by
  unfold State.takeToken
  first
  | (simp [State.port, State.station, State.lane, State.ctx]; done)
  | ((repeat' split) <;> (simp [State.port, State.station, State.lane, State.ctx]; done))
  | (dsimp only
     and_intros <;> intros <;> (repeat' split) <;> simp [State.port, State.station, State.lane, State.ctx])

/-- `State.releaseToken` changes `dest`, `pool` alone. -/
@[simp] theorem State.releaseToken_frame (s : State) (id : CtxId) :
    (State.releaseToken s id).ports = s.ports ∧ (State.releaseToken s id).stations = s.stations ∧ (State.releaseToken s id).lanes = s.lanes ∧
    (State.releaseToken s id).visitCounter = s.visitCounter ∧ (State.releaseToken s id).lastServed = s.lastServed ∧ (State.releaseToken s id).cache = s.cache ∧
    (State.releaseToken s id).slot = s.slot ∧ (State.releaseToken s id).check = s.check ∧ (State.releaseToken s id).signs = s.signs ∧
    (State.releaseToken s id).uplink = s.uplink ∧ (State.releaseToken s id).params = s.params ∧ (State.releaseToken s id).resetHeld = s.resetHeld ∧
    (State.releaseToken s id).pending = s.pending ∧ (∀ seg_ : Seg, (State.releaseToken s id).port seg_ = s.port seg_) ∧ (∀ ix_ : StationIx, (State.releaseToken s id).station ix_ = s.station ix_) ∧
    (∀ lane_ : LaneId, (State.releaseToken s id).lane lane_ = s.lane lane_) := by
  unfold State.releaseToken
  first
  | (simp [State.port, State.station, State.lane, State.ctx]; done)
  | ((repeat' split) <;> (simp [State.port, State.station, State.lane, State.ctx]; done))
  | (dsimp only
     and_intros <;> intros <;> (repeat' split) <;> simp [State.port, State.station, State.lane, State.ctx])

/-- `State.commitTransit` changes `dest` alone. -/
@[simp] theorem State.commitTransit_frame (s : State) (id : CtxId) :
    (State.commitTransit s id).ports = s.ports ∧ (State.commitTransit s id).stations = s.stations ∧ (State.commitTransit s id).lanes = s.lanes ∧
    (State.commitTransit s id).pool = s.pool ∧ (State.commitTransit s id).visitCounter = s.visitCounter ∧ (State.commitTransit s id).lastServed = s.lastServed ∧
    (State.commitTransit s id).cache = s.cache ∧ (State.commitTransit s id).slot = s.slot ∧ (State.commitTransit s id).check = s.check ∧
    (State.commitTransit s id).signs = s.signs ∧ (State.commitTransit s id).uplink = s.uplink ∧ (State.commitTransit s id).params = s.params ∧
    (State.commitTransit s id).resetHeld = s.resetHeld ∧ (State.commitTransit s id).pending = s.pending ∧ (∀ seg_ : Seg, (State.commitTransit s id).port seg_ = s.port seg_) ∧
    (∀ ix_ : StationIx, (State.commitTransit s id).station ix_ = s.station ix_) ∧ (∀ lane_ : LaneId, (State.commitTransit s id).lane lane_ = s.lane lane_) ∧ (∀ ctx_ : CtxId, (State.commitTransit s id).ctx ctx_ = s.ctx ctx_) := by
  unfold State.commitTransit
  first
  | (simp [State.port, State.station, State.lane, State.ctx]; done)
  | ((repeat' split) <;> (simp [State.port, State.station, State.lane, State.ctx]; done))
  | (dsimp only
     and_intros <;> intros <;> (repeat' split) <;> simp [State.port, State.station, State.lane, State.ctx])

/-- `State.expireEntry` changes `dest`, `pool`, `uplink` alone. -/
@[simp] theorem State.expireEntry_frame (m : Nat) (s : State) (e : TransitEntry) :
    (State.expireEntry m s e).ports = s.ports ∧ (State.expireEntry m s e).stations = s.stations ∧ (State.expireEntry m s e).lanes = s.lanes ∧
    (State.expireEntry m s e).visitCounter = s.visitCounter ∧ (State.expireEntry m s e).lastServed = s.lastServed ∧ (State.expireEntry m s e).cache = s.cache ∧
    (State.expireEntry m s e).slot = s.slot ∧ (State.expireEntry m s e).check = s.check ∧ (State.expireEntry m s e).signs = s.signs ∧
    (State.expireEntry m s e).params = s.params ∧ (State.expireEntry m s e).resetHeld = s.resetHeld ∧ (State.expireEntry m s e).pending = s.pending ∧
    (∀ seg_ : Seg, (State.expireEntry m s e).port seg_ = s.port seg_) ∧ (∀ ix_ : StationIx, (State.expireEntry m s e).station ix_ = s.station ix_) ∧ (∀ lane_ : LaneId, (State.expireEntry m s e).lane lane_ = s.lane lane_) := by
  unfold State.expireEntry
  first
  | (simp [State.port, State.station, State.lane, State.ctx]; done)
  | ((repeat' split) <;> (simp [State.port, State.station, State.lane, State.ctx]; done))
  | (dsimp only
     and_intros <;> intros <;> (repeat' split) <;> simp [State.port, State.station, State.lane, State.ctx])

/-- `State.announce` changes `dest`, `pool`, `uplink` alone. -/
@[simp] theorem State.announce_frame (s : State) (m : Nat) :
    (State.announce s m).ports = s.ports ∧ (State.announce s m).stations = s.stations ∧ (State.announce s m).lanes = s.lanes ∧
    (State.announce s m).visitCounter = s.visitCounter ∧ (State.announce s m).lastServed = s.lastServed ∧ (State.announce s m).cache = s.cache ∧
    (State.announce s m).slot = s.slot ∧ (State.announce s m).check = s.check ∧ (State.announce s m).signs = s.signs ∧
    (State.announce s m).params = s.params ∧ (State.announce s m).resetHeld = s.resetHeld ∧ (State.announce s m).pending = s.pending ∧
    (∀ seg_ : Seg, (State.announce s m).port seg_ = s.port seg_) ∧ (∀ ix_ : StationIx, (State.announce s m).station ix_ = s.station ix_) ∧ (∀ lane_ : LaneId, (State.announce s m).lane lane_ = s.lane lane_) := by
  unfold State.announce
  exact ⟨foldl_keeps (fun t : State => t.ports) _ (by intros; simp) _ _,
    foldl_keeps (fun t : State => t.stations) _ (by intros; simp) _ _,
    foldl_keeps (fun t : State => t.lanes) _ (by intros; simp) _ _,
    foldl_keeps (fun t : State => t.visitCounter) _ (by intros; simp) _ _,
    foldl_keeps (fun t : State => t.lastServed) _ (by intros; simp) _ _,
    foldl_keeps (fun t : State => t.cache) _ (by intros; simp) _ _,
    foldl_keeps (fun t : State => t.slot) _ (by intros; simp) _ _,
    foldl_keeps (fun t : State => t.check) _ (by intros; simp) _ _,
    foldl_keeps (fun t : State => t.signs) _ (by intros; simp) _ _,
    foldl_keeps (fun t : State => t.params) _ (by intros; simp) _ _,
    foldl_keeps (fun t : State => t.resetHeld) _ (by intros; simp) _ _,
    foldl_keeps (fun t : State => t.pending) _ (by intros; simp) _ _,
    fun seg_ => foldl_keeps (fun t : State => t.port seg_) _ (by intros; simp) _ _,
    fun ix_ => foldl_keeps (fun t : State => t.station ix_) _ (by intros; simp) _ _,
    fun lane_ => foldl_keeps (fun t : State => t.lane lane_) _ (by intros; simp) _ _⟩

/-- `State.sendTo` changes `dest`, `pool`, `uplink` alone. -/
@[simp] theorem State.sendTo_frame (s : State) (id : CtxId) (d : Fin 64) :
    (State.sendTo s id d).ports = s.ports ∧ (State.sendTo s id d).stations = s.stations ∧ (State.sendTo s id d).lanes = s.lanes ∧
    (State.sendTo s id d).visitCounter = s.visitCounter ∧ (State.sendTo s id d).lastServed = s.lastServed ∧ (State.sendTo s id d).cache = s.cache ∧
    (State.sendTo s id d).slot = s.slot ∧ (State.sendTo s id d).check = s.check ∧ (State.sendTo s id d).signs = s.signs ∧
    (State.sendTo s id d).params = s.params ∧ (State.sendTo s id d).resetHeld = s.resetHeld ∧ (State.sendTo s id d).pending = s.pending ∧
    (∀ seg_ : Seg, (State.sendTo s id d).port seg_ = s.port seg_) ∧ (∀ ix_ : StationIx, (State.sendTo s id d).station ix_ = s.station ix_) ∧ (∀ lane_ : LaneId, (State.sendTo s id d).lane lane_ = s.lane lane_) := by
  unfold State.sendTo
  first
  | (simp [State.port, State.station, State.lane, State.ctx]; done)
  | ((repeat' split) <;> (simp [State.port, State.station, State.lane, State.ctx]; done))
  | (dsimp only
     and_intros <;> intros <;> (repeat' split) <;> simp [State.port, State.station, State.lane, State.ctx])

/-- `State.turnOutRoute` changes `dest`, `pool`, `uplink` alone. -/
@[simp] theorem State.turnOutRoute_frame (s : State) (id : CtxId) :
    (State.turnOutRoute s id).ports = s.ports ∧ (State.turnOutRoute s id).stations = s.stations ∧ (State.turnOutRoute s id).lanes = s.lanes ∧
    (State.turnOutRoute s id).visitCounter = s.visitCounter ∧ (State.turnOutRoute s id).lastServed = s.lastServed ∧ (State.turnOutRoute s id).cache = s.cache ∧
    (State.turnOutRoute s id).slot = s.slot ∧ (State.turnOutRoute s id).check = s.check ∧ (State.turnOutRoute s id).signs = s.signs ∧
    (State.turnOutRoute s id).params = s.params ∧ (State.turnOutRoute s id).resetHeld = s.resetHeld ∧ (State.turnOutRoute s id).pending = s.pending ∧
    (∀ seg_ : Seg, (State.turnOutRoute s id).port seg_ = s.port seg_) ∧ (∀ ix_ : StationIx, (State.turnOutRoute s id).station ix_ = s.station ix_) ∧ (∀ lane_ : LaneId, (State.turnOutRoute s id).lane lane_ = s.lane lane_) := by
  unfold State.turnOutRoute
  first
  | (simp [State.port, State.station, State.lane, State.ctx]; done)
  | ((repeat' split) <;> (simp [State.port, State.station, State.lane, State.ctx]; done))
  | (dsimp only
     and_intros <;> intros <;> (repeat' split) <;> simp [State.port, State.station, State.lane, State.ctx])

/-- `State.classifyStep` changes `slot`, `pool` alone. -/
@[simp] theorem State.classifyStep_frame (s : State) (id : CtxId) (b : Bool) :
    ((State.classifyStep s id b).1).ports = s.ports ∧ ((State.classifyStep s id b).1).stations = s.stations ∧ ((State.classifyStep s id b).1).lanes = s.lanes ∧
    ((State.classifyStep s id b).1).visitCounter = s.visitCounter ∧ ((State.classifyStep s id b).1).lastServed = s.lastServed ∧ ((State.classifyStep s id b).1).cache = s.cache ∧
    ((State.classifyStep s id b).1).check = s.check ∧ ((State.classifyStep s id b).1).dest = s.dest ∧ ((State.classifyStep s id b).1).signs = s.signs ∧
    ((State.classifyStep s id b).1).uplink = s.uplink ∧ ((State.classifyStep s id b).1).params = s.params ∧ ((State.classifyStep s id b).1).resetHeld = s.resetHeld ∧
    ((State.classifyStep s id b).1).pending = s.pending ∧ (∀ seg_ : Seg, ((State.classifyStep s id b).1).port seg_ = s.port seg_) ∧ (∀ ix_ : StationIx, ((State.classifyStep s id b).1).station ix_ = s.station ix_) ∧
    (∀ lane_ : LaneId, ((State.classifyStep s id b).1).lane lane_ = s.lane lane_) := by
  unfold State.classifyStep
  first
  | (simp [State.port, State.station, State.lane, State.ctx]; done)
  | ((repeat' split) <;> (simp [State.port, State.station, State.lane, State.ctx]; done))
  | (dsimp only
     and_intros <;> intros <;> (repeat' split) <;> simp [State.port, State.station, State.lane, State.ctx])

/-- `State.takeOffer` changes `slot`, `pool` alone. -/
@[simp] theorem State.takeOffer_frame (s : State) (id : CtxId) (o : Option (BitVec 16 × Nat)) :
    (State.takeOffer s id o).ports = s.ports ∧ (State.takeOffer s id o).stations = s.stations ∧ (State.takeOffer s id o).lanes = s.lanes ∧
    (State.takeOffer s id o).visitCounter = s.visitCounter ∧ (State.takeOffer s id o).lastServed = s.lastServed ∧ (State.takeOffer s id o).cache = s.cache ∧
    (State.takeOffer s id o).check = s.check ∧ (State.takeOffer s id o).dest = s.dest ∧ (State.takeOffer s id o).signs = s.signs ∧
    (State.takeOffer s id o).uplink = s.uplink ∧ (State.takeOffer s id o).params = s.params ∧ (State.takeOffer s id o).resetHeld = s.resetHeld ∧
    (State.takeOffer s id o).pending = s.pending ∧ (∀ seg_ : Seg, (State.takeOffer s id o).port seg_ = s.port seg_) ∧ (∀ ix_ : StationIx, (State.takeOffer s id o).station ix_ = s.station ix_) ∧
    (∀ lane_ : LaneId, (State.takeOffer s id o).lane lane_ = s.lane lane_) := by
  unfold State.takeOffer
  first
  | (simp [State.port, State.station, State.lane, State.ctx]; done)
  | ((repeat' split) <;> (simp [State.port, State.station, State.lane, State.ctx]; done))
  | (dsimp only
     and_intros <;> intros <;> (repeat' split) <;> simp [State.port, State.station, State.lane, State.ctx])

/-- `State.decideProvisional` changes `dest`, `pool`, `uplink`, `cache` alone. -/
@[simp] theorem State.decideProvisional_frame (s : State) (id : CtxId) :
    (State.decideProvisional s id).ports = s.ports ∧ (State.decideProvisional s id).stations = s.stations ∧ (State.decideProvisional s id).lanes = s.lanes ∧
    (State.decideProvisional s id).visitCounter = s.visitCounter ∧ (State.decideProvisional s id).lastServed = s.lastServed ∧ (State.decideProvisional s id).slot = s.slot ∧
    (State.decideProvisional s id).check = s.check ∧ (State.decideProvisional s id).signs = s.signs ∧ (State.decideProvisional s id).params = s.params ∧
    (State.decideProvisional s id).resetHeld = s.resetHeld ∧ (State.decideProvisional s id).pending = s.pending ∧ (∀ seg_ : Seg, (State.decideProvisional s id).port seg_ = s.port seg_) ∧
    (∀ ix_ : StationIx, (State.decideProvisional s id).station ix_ = s.station ix_) ∧ (∀ lane_ : LaneId, (State.decideProvisional s id).lane lane_ = s.lane lane_) := by
  unfold State.decideProvisional
  first
  | (simp [State.port, State.station, State.lane, State.ctx]; done)
  | ((repeat' split) <;> (simp [State.port, State.station, State.lane, State.ctx]; done))
  | (dsimp only
     and_intros <;> intros <;> (repeat' split) <;> simp [State.port, State.station, State.lane, State.ctx])

/-- `State.decideByTable` changes `dest`, `pool`, `uplink`, `cache`, `slot` alone. -/
@[simp] theorem State.decideByTable_frame (s : State) (id : CtxId) (o : Option (BitVec 16 × Nat)) :
    (State.decideByTable s id o).ports = s.ports ∧ (State.decideByTable s id o).stations = s.stations ∧ (State.decideByTable s id o).lanes = s.lanes ∧
    (State.decideByTable s id o).visitCounter = s.visitCounter ∧ (State.decideByTable s id o).lastServed = s.lastServed ∧ (State.decideByTable s id o).check = s.check ∧
    (State.decideByTable s id o).signs = s.signs ∧ (State.decideByTable s id o).params = s.params ∧ (State.decideByTable s id o).resetHeld = s.resetHeld ∧
    (State.decideByTable s id o).pending = s.pending ∧ (∀ seg_ : Seg, (State.decideByTable s id o).port seg_ = s.port seg_) ∧ (∀ ix_ : StationIx, (State.decideByTable s id o).station ix_ = s.station ix_) ∧
    (∀ lane_ : LaneId, (State.decideByTable s id o).lane lane_ = s.lane lane_) := by
  unfold State.decideByTable
  first
  | (simp [State.port, State.station, State.lane, State.ctx]; done)
  | ((repeat' split) <;> (simp [State.port, State.station, State.lane, State.ctx]; done))
  | (dsimp only
     and_intros <;> intros <;> (repeat' split) <;> simp [State.port, State.station, State.lane, State.ctx])

/-- `State.decisionStep` changes `dest`, `pool`, `uplink`, `cache`, `slot`, `check` alone. -/
@[simp] theorem State.decisionStep_frame (s : State) (id : CtxId) :
    (State.decisionStep s id).ports = s.ports ∧ (State.decisionStep s id).stations = s.stations ∧ (State.decisionStep s id).lanes = s.lanes ∧
    (State.decisionStep s id).visitCounter = s.visitCounter ∧ (State.decisionStep s id).lastServed = s.lastServed ∧ (State.decisionStep s id).signs = s.signs ∧
    (State.decisionStep s id).params = s.params ∧ (State.decisionStep s id).resetHeld = s.resetHeld ∧ (State.decisionStep s id).pending = s.pending ∧
    (∀ seg_ : Seg, (State.decisionStep s id).port seg_ = s.port seg_) ∧ (∀ ix_ : StationIx, (State.decisionStep s id).station ix_ = s.station ix_) ∧ (∀ lane_ : LaneId, (State.decisionStep s id).lane lane_ = s.lane lane_) := by
  unfold State.decisionStep
  first
  | (simp [State.port, State.station, State.lane, State.ctx]; done)
  | ((repeat' split) <;> (simp [State.port, State.station, State.lane, State.ctx]; done))
  | (dsimp only
     and_intros <;> intros <;> (repeat' split) <;> simp [State.port, State.station, State.lane, State.ctx])

end Sys2Proof.Machine
end

