-- ==== Sys2Proof/Laws/Sequencer.lean ====
section
/-! SUPPORT. The lane sequencer: the blocks that each of its operations leaves as they are. None of them changes the parameters, the
reset input or the queue of commands. -/

set_option linter.all false

namespace Sys2Proof.Machine

/-- `State.moveTo` changes `ports`, `stations`, `pool` alone. -/
@[simp] theorem State.moveTo_frame (s : State) (id : CtxId) (c : CtxState) :
    (State.moveTo s id c).lanes = s.lanes ∧ (State.moveTo s id c).visitCounter = s.visitCounter ∧ (State.moveTo s id c).lastServed = s.lastServed ∧
    (State.moveTo s id c).cache = s.cache ∧ (State.moveTo s id c).slot = s.slot ∧ (State.moveTo s id c).check = s.check ∧
    (State.moveTo s id c).dest = s.dest ∧ (State.moveTo s id c).signs = s.signs ∧ (State.moveTo s id c).uplink = s.uplink ∧
    (State.moveTo s id c).params = s.params ∧ (State.moveTo s id c).resetHeld = s.resetHeld ∧ (State.moveTo s id c).pending = s.pending ∧
    (∀ lane_ : LaneId, (State.moveTo s id c).lane lane_ = s.lane lane_) := by
  unfold State.moveTo
  first
  | (simp [State.port, State.station, State.lane, State.ctx]; done)
  | ((repeat' split) <;> (simp [State.port, State.station, State.lane, State.ctx]; done))
  | (dsimp only
     and_intros <;> intros <;> (repeat' split) <;> simp [State.port, State.station, State.lane, State.ctx])

/-- `State.releaseTest` changes `ports`, `stations`, `pool` alone. -/
@[simp] theorem State.releaseTest_frame (s : State) (id : CtxId) :
    (State.releaseTest s id).lanes = s.lanes ∧ (State.releaseTest s id).visitCounter = s.visitCounter ∧ (State.releaseTest s id).lastServed = s.lastServed ∧
    (State.releaseTest s id).cache = s.cache ∧ (State.releaseTest s id).slot = s.slot ∧ (State.releaseTest s id).check = s.check ∧
    (State.releaseTest s id).dest = s.dest ∧ (State.releaseTest s id).signs = s.signs ∧ (State.releaseTest s id).uplink = s.uplink ∧
    (State.releaseTest s id).params = s.params ∧ (State.releaseTest s id).resetHeld = s.resetHeld ∧ (State.releaseTest s id).pending = s.pending ∧
    (∀ lane_ : LaneId, (State.releaseTest s id).lane lane_ = s.lane lane_) := by
  unfold State.releaseTest
  first
  | (simp [State.port, State.station, State.lane, State.ctx]; done)
  | ((repeat' split) <;> (simp [State.port, State.station, State.lane, State.ctx]; done))
  | (dsimp only
     and_intros <;> intros <;> (repeat' split) <;> simp [State.port, State.station, State.lane, State.ctx])

/-- `State.enterDecided` changes `ports`, `stations`, `pool`, `signs` alone. -/
@[simp] theorem State.enterDecided_frame (s : State) (id : CtxId) :
    (State.enterDecided s id).lanes = s.lanes ∧ (State.enterDecided s id).visitCounter = s.visitCounter ∧ (State.enterDecided s id).lastServed = s.lastServed ∧
    (State.enterDecided s id).cache = s.cache ∧ (State.enterDecided s id).slot = s.slot ∧ (State.enterDecided s id).check = s.check ∧
    (State.enterDecided s id).dest = s.dest ∧ (State.enterDecided s id).uplink = s.uplink ∧ (State.enterDecided s id).params = s.params ∧
    (State.enterDecided s id).resetHeld = s.resetHeld ∧ (State.enterDecided s id).pending = s.pending ∧ (∀ lane_ : LaneId, (State.enterDecided s id).lane lane_ = s.lane lane_) := by
  unfold State.enterDecided
  first
  | (simp [State.port, State.station, State.lane, State.ctx]; done)
  | ((repeat' split) <;> (simp [State.port, State.station, State.lane, State.ctx]; done))
  | (dsimp only
     and_intros <;> intros <;> (repeat' split) <;> simp [State.port, State.station, State.lane, State.ctx])

/-- `State.noticeAccepted` changes `pool`, `uplink` alone. -/
@[simp] theorem State.noticeAccepted_frame (s : State) (id : CtxId) :
    (State.noticeAccepted s id).ports = s.ports ∧ (State.noticeAccepted s id).stations = s.stations ∧ (State.noticeAccepted s id).lanes = s.lanes ∧
    (State.noticeAccepted s id).visitCounter = s.visitCounter ∧ (State.noticeAccepted s id).lastServed = s.lastServed ∧ (State.noticeAccepted s id).cache = s.cache ∧
    (State.noticeAccepted s id).slot = s.slot ∧ (State.noticeAccepted s id).check = s.check ∧ (State.noticeAccepted s id).dest = s.dest ∧
    (State.noticeAccepted s id).signs = s.signs ∧ (State.noticeAccepted s id).params = s.params ∧ (State.noticeAccepted s id).resetHeld = s.resetHeld ∧
    (State.noticeAccepted s id).pending = s.pending ∧ (∀ seg_ : Seg, (State.noticeAccepted s id).port seg_ = s.port seg_) ∧ (∀ ix_ : StationIx, (State.noticeAccepted s id).station ix_ = s.station ix_) ∧
    (∀ lane_ : LaneId, (State.noticeAccepted s id).lane lane_ = s.lane lane_) := by
  unfold State.noticeAccepted
  first
  | (simp [State.port, State.station, State.lane, State.ctx]; done)
  | ((repeat' split) <;> (simp [State.port, State.station, State.lane, State.ctx]; done))
  | (dsimp only
     and_intros <;> intros <;> (repeat' split) <;> simp [State.port, State.station, State.lane, State.ctx])

/-- `State.enterReferred` changes `ports`, `stations`, `pool`, `uplink` alone. -/
@[simp] theorem State.enterReferred_frame (s : State) (id : CtxId) :
    (State.enterReferred s id).lanes = s.lanes ∧ (State.enterReferred s id).visitCounter = s.visitCounter ∧ (State.enterReferred s id).lastServed = s.lastServed ∧
    (State.enterReferred s id).cache = s.cache ∧ (State.enterReferred s id).slot = s.slot ∧ (State.enterReferred s id).check = s.check ∧
    (State.enterReferred s id).dest = s.dest ∧ (State.enterReferred s id).signs = s.signs ∧ (State.enterReferred s id).params = s.params ∧
    (State.enterReferred s id).resetHeld = s.resetHeld ∧ (State.enterReferred s id).pending = s.pending ∧ (∀ lane_ : LaneId, (State.enterReferred s id).lane lane_ = s.lane lane_) := by
  unfold State.enterReferred
  first
  | (simp [State.port, State.station, State.lane, State.ctx]; done)
  | ((repeat' split) <;> (simp [State.port, State.station, State.lane, State.ctx]; done))
  | (dsimp only
     and_intros <;> intros <;> (repeat' split) <;> simp [State.port, State.station, State.lane, State.ctx])

/-- `State.decideTest` changes `ports`, `stations`, `pool`, `signs`, `uplink`, `cache`, `slot`, `check`, `dest` alone. -/
@[simp] theorem State.decideTest_frame (s : State) (id : CtxId) :
    (State.decideTest s id).lanes = s.lanes ∧ (State.decideTest s id).visitCounter = s.visitCounter ∧ (State.decideTest s id).lastServed = s.lastServed ∧
    (State.decideTest s id).params = s.params ∧ (State.decideTest s id).resetHeld = s.resetHeld ∧ (State.decideTest s id).pending = s.pending ∧
    (∀ lane_ : LaneId, (State.decideTest s id).lane lane_ = s.lane lane_) := by
  unfold State.decideTest
  first
  | (simp [State.port, State.station, State.lane, State.ctx]; done)
  | ((repeat' split) <;> (simp [State.port, State.station, State.lane, State.ctx]; done))
  | (dsimp only
     and_intros <;> intros <;> (repeat' split) <;> simp [State.port, State.station, State.lane, State.ctx])

/-- `State.settle` changes `ports`, `stations`, `pool`, `signs`, `uplink`, `cache`, `slot`, `check`, `dest` alone. -/
@[simp] theorem State.settle_frame (w : Work) :
    (State.settle w).lanes = w.st.lanes ∧ (State.settle w).visitCounter = w.st.visitCounter ∧ (State.settle w).lastServed = w.st.lastServed ∧
    (State.settle w).params = w.st.params ∧ (State.settle w).resetHeld = w.st.resetHeld ∧ (State.settle w).pending = w.st.pending ∧
    (∀ lane_ : LaneId, (State.settle w).lane lane_ = w.st.lane lane_) := by
  unfold State.settle
  exact ⟨foldl_keeps (fun t : State => t.lanes) _ (by intros; simp) _ _,
    foldl_keeps (fun t : State => t.visitCounter) _ (by intros; simp) _ _,
    foldl_keeps (fun t : State => t.lastServed) _ (by intros; simp) _ _,
    foldl_keeps (fun t : State => t.params) _ (by intros; simp) _ _,
    foldl_keeps (fun t : State => t.resetHeld) _ (by intros; simp) _ _,
    foldl_keeps (fun t : State => t.pending) _ (by intros; simp) _ _,
    fun lane_ => foldl_keeps (fun t : State => t.lane lane_) _ (by intros; simp) _ _⟩

/-- `State.enterLookup` changes `ports`, `stations`, `pool`, `signs`, `uplink`, `cache`, `slot`, `check`, `dest` alone. -/
@[simp] theorem State.enterLookup_frame (s : State) (id : CtxId) :
    (State.enterLookup s id).lanes = s.lanes ∧ (State.enterLookup s id).visitCounter = s.visitCounter ∧ (State.enterLookup s id).lastServed = s.lastServed ∧
    (State.enterLookup s id).params = s.params ∧ (State.enterLookup s id).resetHeld = s.resetHeld ∧ (State.enterLookup s id).pending = s.pending ∧
    (∀ lane_ : LaneId, (State.enterLookup s id).lane lane_ = s.lane lane_) := by
  exact ⟨by
      unfold State.enterLookup; dsimp only
      simp only [State.decideTest_frame, State.settle_frame, Work.finish_frame]
      refine (foldl_keeps (fun t : Work => t.st.lanes) _ (by intros; simp) _ _).trans ?_
      simp,
    by
      unfold State.enterLookup; dsimp only
      simp only [State.decideTest_frame, State.settle_frame, Work.finish_frame]
      refine (foldl_keeps (fun t : Work => t.st.visitCounter) _ (by intros; simp) _ _).trans ?_
      simp,
    by
      unfold State.enterLookup; dsimp only
      simp only [State.decideTest_frame, State.settle_frame, Work.finish_frame]
      refine (foldl_keeps (fun t : Work => t.st.lastServed) _ (by intros; simp) _ _).trans ?_
      simp,
    by
      unfold State.enterLookup; dsimp only
      simp only [State.decideTest_frame, State.settle_frame, Work.finish_frame]
      refine (foldl_keeps (fun t : Work => t.st.params) _ (by intros; simp) _ _).trans ?_
      simp,
    by
      unfold State.enterLookup; dsimp only
      simp only [State.decideTest_frame, State.settle_frame, Work.finish_frame]
      refine (foldl_keeps (fun t : Work => t.st.resetHeld) _ (by intros; simp) _ _).trans ?_
      simp,
    by
      unfold State.enterLookup; dsimp only
      simp only [State.decideTest_frame, State.settle_frame, Work.finish_frame]
      refine (foldl_keeps (fun t : Work => t.st.pending) _ (by intros; simp) _ _).trans ?_
      simp,
    fun lane_ => by
      unfold State.enterLookup; dsimp only
      simp only [State.decideTest_frame, State.settle_frame, Work.finish_frame]
      refine (foldl_keeps (fun t : Work => t.st.lane lane_) _ (by intros; simp) _ _).trans ?_
      simp⟩

/-- `State.identifyTest` changes `ports`, `stations`, `pool`, `signs`, `uplink`, `cache`, `slot`, `check`, `dest` alone. -/
@[simp] theorem State.identifyTest_frame (s : State) (id : CtxId) :
    (State.identifyTest s id).lanes = s.lanes ∧ (State.identifyTest s id).visitCounter = s.visitCounter ∧ (State.identifyTest s id).lastServed = s.lastServed ∧
    (State.identifyTest s id).params = s.params ∧ (State.identifyTest s id).resetHeld = s.resetHeld ∧ (State.identifyTest s id).pending = s.pending ∧
    (∀ lane_ : LaneId, (State.identifyTest s id).lane lane_ = s.lane lane_) := by
  unfold State.identifyTest
  first
  | (simp [State.port, State.station, State.lane, State.ctx]; done)
  | ((repeat' split) <;> (simp [State.port, State.station, State.lane, State.ctx]; done))
  | (dsimp only
     and_intros <;> intros <;> (repeat' split) <;> simp [State.port, State.station, State.lane, State.ctx])

/-- `State.enterIdentifying` changes `ports`, `stations`, `pool`, `signs`, `uplink`, `cache`, `slot`, `check`, `dest`, `lanes` alone. -/
@[simp] theorem State.enterIdentifying_frame (s : State) (id : CtxId) :
    (State.enterIdentifying s id).visitCounter = s.visitCounter ∧ (State.enterIdentifying s id).lastServed = s.lastServed ∧ (State.enterIdentifying s id).params = s.params ∧
    (State.enterIdentifying s id).resetHeld = s.resetHeld ∧ (State.enterIdentifying s id).pending = s.pending := by
  unfold State.enterIdentifying
  first
  | (simp [State.port, State.station, State.lane, State.ctx]; done)
  | ((repeat' split) <;> (simp [State.port, State.station, State.lane, State.ctx]; done))
  | (dsimp only
     and_intros <;> intros <;> (repeat' split) <;> simp [State.port, State.station, State.lane, State.ctx])

/-- `State.retimeCtx` changes `pool` alone. -/
@[simp] theorem State.retimeCtx_frame (b : Bool) (s : State) (id : CtxId) :
    (State.retimeCtx b s id).ports = s.ports ∧ (State.retimeCtx b s id).stations = s.stations ∧ (State.retimeCtx b s id).lanes = s.lanes ∧
    (State.retimeCtx b s id).visitCounter = s.visitCounter ∧ (State.retimeCtx b s id).lastServed = s.lastServed ∧ (State.retimeCtx b s id).cache = s.cache ∧
    (State.retimeCtx b s id).slot = s.slot ∧ (State.retimeCtx b s id).check = s.check ∧ (State.retimeCtx b s id).dest = s.dest ∧
    (State.retimeCtx b s id).signs = s.signs ∧ (State.retimeCtx b s id).uplink = s.uplink ∧ (State.retimeCtx b s id).params = s.params ∧
    (State.retimeCtx b s id).resetHeld = s.resetHeld ∧ (State.retimeCtx b s id).pending = s.pending ∧ (∀ seg_ : Seg, (State.retimeCtx b s id).port seg_ = s.port seg_) ∧
    (∀ ix_ : StationIx, (State.retimeCtx b s id).station ix_ = s.station ix_) ∧ (∀ lane_ : LaneId, (State.retimeCtx b s id).lane lane_ = s.lane lane_) := by
  unfold State.retimeCtx
  first
  | (simp [State.port, State.station, State.lane, State.ctx]; done)
  | ((repeat' split) <;> (simp [State.port, State.station, State.lane, State.ctx]; done))
  | (dsimp only
     and_intros <;> intros <;> (repeat' split) <;> simp [State.port, State.station, State.lane, State.ctx])

/-- `State.retime` changes `pool` alone. -/
@[simp] theorem State.retime_frame (s : State) (l : LaneId) :
    (State.retime s l).ports = s.ports ∧ (State.retime s l).stations = s.stations ∧ (State.retime s l).lanes = s.lanes ∧
    (State.retime s l).visitCounter = s.visitCounter ∧ (State.retime s l).lastServed = s.lastServed ∧ (State.retime s l).cache = s.cache ∧
    (State.retime s l).slot = s.slot ∧ (State.retime s l).check = s.check ∧ (State.retime s l).dest = s.dest ∧
    (State.retime s l).signs = s.signs ∧ (State.retime s l).uplink = s.uplink ∧ (State.retime s l).params = s.params ∧
    (State.retime s l).resetHeld = s.resetHeld ∧ (State.retime s l).pending = s.pending ∧ (∀ seg_ : Seg, (State.retime s l).port seg_ = s.port seg_) ∧
    (∀ ix_ : StationIx, (State.retime s l).station ix_ = s.station ix_) ∧ (∀ lane_ : LaneId, (State.retime s l).lane lane_ = s.lane lane_) := by
  unfold State.retime
  exact ⟨foldl_keeps (fun t : State => t.ports) _ (by intros; simp) _ _,
    foldl_keeps (fun t : State => t.stations) _ (by intros; simp) _ _,
    foldl_keeps (fun t : State => t.lanes) _ (by intros; simp) _ _,
    foldl_keeps (fun t : State => t.visitCounter) _ (by intros; simp) _ _,
    foldl_keeps (fun t : State => t.lastServed) _ (by intros; simp) _ _,
    foldl_keeps (fun t : State => t.cache) _ (by intros; simp) _ _,
    foldl_keeps (fun t : State => t.slot) _ (by intros; simp) _ _,
    foldl_keeps (fun t : State => t.check) _ (by intros; simp) _ _,
    foldl_keeps (fun t : State => t.dest) _ (by intros; simp) _ _,
    foldl_keeps (fun t : State => t.signs) _ (by intros; simp) _ _,
    foldl_keeps (fun t : State => t.uplink) _ (by intros; simp) _ _,
    foldl_keeps (fun t : State => t.params) _ (by intros; simp) _ _,
    foldl_keeps (fun t : State => t.resetHeld) _ (by intros; simp) _ _,
    foldl_keeps (fun t : State => t.pending) _ (by intros; simp) _ _,
    fun seg_ => foldl_keeps (fun t : State => t.port seg_) _ (by intros; simp) _ _,
    fun ix_ => foldl_keeps (fun t : State => t.station ix_) _ (by intros; simp) _ _,
    fun lane_ => foldl_keeps (fun t : State => t.lane lane_) _ (by intros; simp) _ _⟩

/-- `State.allocate` changes `pool`, `lanes`, `visitCounter` alone. -/
@[simp] theorem State.allocate_frame (s : State) (id : CtxId) (l : LaneId) :
    (State.allocate s id l).ports = s.ports ∧ (State.allocate s id l).stations = s.stations ∧ (State.allocate s id l).lastServed = s.lastServed ∧
    (State.allocate s id l).cache = s.cache ∧ (State.allocate s id l).slot = s.slot ∧ (State.allocate s id l).check = s.check ∧
    (State.allocate s id l).dest = s.dest ∧ (State.allocate s id l).signs = s.signs ∧ (State.allocate s id l).uplink = s.uplink ∧
    (State.allocate s id l).params = s.params ∧ (State.allocate s id l).resetHeld = s.resetHeld ∧ (State.allocate s id l).pending = s.pending ∧
    (∀ seg_ : Seg, (State.allocate s id l).port seg_ = s.port seg_) ∧ (∀ ix_ : StationIx, (State.allocate s id l).station ix_ = s.station ix_) := by
  unfold State.allocate
  first
  | (simp [State.port, State.station, State.lane, State.ctx]; done)
  | ((repeat' split) <;> (simp [State.port, State.station, State.lane, State.ctx]; done))
  | (dsimp only
     and_intros <;> intros <;> (repeat' split) <;> simp [State.port, State.station, State.lane, State.ctx])

/-- `State.admitArrival` changes `ports`, `stations`, `pool`, `signs`, `uplink`, `cache`, `slot`, `check`, `dest`, `lanes`, `visitCounter` alone. -/
@[simp] theorem State.admitArrival_frame (s : State) (id : CtxId) (l : LaneId) (b : Bool) :
    (State.admitArrival s id l b).lastServed = s.lastServed ∧ (State.admitArrival s id l b).params = s.params ∧ (State.admitArrival s id l b).resetHeld = s.resetHeld ∧
    (State.admitArrival s id l b).pending = s.pending := by
  unfold State.admitArrival
  first
  | (simp [State.port, State.station, State.lane, State.ctx]; done)
  | ((repeat' split) <;> (simp [State.port, State.station, State.lane, State.ctx]; done))
  | (dsimp only
     and_intros <;> intros <;> (repeat' split) <;> simp [State.port, State.station, State.lane, State.ctx])

/-- `State.grant` changes `ports`, `stations`, `pool`, `signs`, `uplink`, `cache`, `slot`, `check`, `dest`, `lanes`, `visitCounter`, `lastServed` alone. -/
@[simp] theorem State.grant_frame (s : State) (id : CtxId) :
    (State.grant s id).params = s.params ∧ (State.grant s id).resetHeld = s.resetHeld ∧ (State.grant s id).pending = s.pending := by
  unfold State.grant
  first
  | (simp [State.port, State.station, State.lane, State.ctx]; done)
  | ((repeat' split) <;> (simp [State.port, State.station, State.lane, State.ctx]; done))
  | (dsimp only
     and_intros <;> intros <;> (repeat' split) <;> simp [State.port, State.station, State.lane, State.ctx])

/-- `State.freeCtx` changes `ports`, `stations`, `pool`, `signs`, `uplink`, `cache`, `slot`, `check`, `dest`, `lanes`, `visitCounter`, `lastServed` alone. -/
@[simp] theorem State.freeCtx_frame (s : State) (id : CtxId) :
    (State.freeCtx s id).params = s.params ∧ (State.freeCtx s id).resetHeld = s.resetHeld ∧ (State.freeCtx s id).pending = s.pending := by
  unfold State.freeCtx
  first
  | (simp [State.port, State.station, State.lane, State.ctx]; done)
  | ((repeat' split) <;> (simp [State.port, State.station, State.lane, State.ctx]; done))
  | (dsimp only
     and_intros <;> intros <;> (repeat' split) <;> simp [State.port, State.station, State.lane, State.ctx])

/-- `State.reportAccepted` changes `ports`, `stations`, `pool`, `signs`, `uplink`, `cache`, `slot`, `check`, `dest`, `lanes`, `visitCounter`, `lastServed` alone. -/
@[simp] theorem State.reportAccepted_frame (s : State) (id : CtxId) :
    (State.reportAccepted s id).params = s.params ∧ (State.reportAccepted s id).resetHeld = s.resetHeld ∧ (State.reportAccepted s id).pending = s.pending := by
  unfold State.reportAccepted
  first
  | (simp [State.port, State.station, State.lane, State.ctx]; done)
  | ((repeat' split) <;> (simp [State.port, State.station, State.lane, State.ctx]; done))
  | (dsimp only
     and_intros <;> intros <;> (repeat' split) <;> simp [State.port, State.station, State.lane, State.ctx])

/-- `State.offerReport` changes `ports`, `stations`, `pool`, `signs`, `uplink`, `cache`, `slot`, `check`, `dest`, `lanes`, `visitCounter`, `lastServed` alone. -/
@[simp] theorem State.offerReport_frame (s : State) (id : CtxId) :
    (State.offerReport s id).params = s.params ∧ (State.offerReport s id).resetHeld = s.resetHeld ∧ (State.offerReport s id).pending = s.pending := by
  unfold State.offerReport
  first
  | (simp [State.port, State.station, State.lane, State.ctx]; done)
  | ((repeat' split) <;> (simp [State.port, State.station, State.lane, State.ctx]; done))
  | (dsimp only
     and_intros <;> intros <;> (repeat' split) <;> simp [State.port, State.station, State.lane, State.ctx])

/-- `State.countArrival` changes `lanes` alone. -/
@[simp] theorem State.countArrival_frame (s : State) (l : LaneId) :
    (State.countArrival s l).ports = s.ports ∧ (State.countArrival s l).stations = s.stations ∧ (State.countArrival s l).pool = s.pool ∧
    (State.countArrival s l).visitCounter = s.visitCounter ∧ (State.countArrival s l).lastServed = s.lastServed ∧ (State.countArrival s l).cache = s.cache ∧
    (State.countArrival s l).slot = s.slot ∧ (State.countArrival s l).check = s.check ∧ (State.countArrival s l).dest = s.dest ∧
    (State.countArrival s l).signs = s.signs ∧ (State.countArrival s l).uplink = s.uplink ∧ (State.countArrival s l).params = s.params ∧
    (State.countArrival s l).resetHeld = s.resetHeld ∧ (State.countArrival s l).pending = s.pending ∧ (∀ seg_ : Seg, (State.countArrival s l).port seg_ = s.port seg_) ∧
    (∀ ix_ : StationIx, (State.countArrival s l).station ix_ = s.station ix_) ∧ (∀ ctx_ : CtxId, (State.countArrival s l).ctx ctx_ = s.ctx ctx_) := by
  unfold State.countArrival
  first
  | (simp [State.port, State.station, State.lane, State.ctx]; done)
  | ((repeat' split) <;> (simp [State.port, State.station, State.lane, State.ctx]; done))
  | (dsimp only
     and_intros <;> intros <;> (repeat' split) <;> simp [State.port, State.station, State.lane, State.ctx])

/-- `State.arrive` changes `ports`, `stations`, `pool`, `signs`, `uplink`, `cache`, `slot`, `check`, `dest`, `lanes`, `visitCounter` alone. -/
@[simp] theorem State.arrive_frame (s : State) (l : LaneId) (b : Bool) :
    (State.arrive s l b).lastServed = s.lastServed ∧ (State.arrive s l b).params = s.params ∧ (State.arrive s l b).resetHeld = s.resetHeld ∧
    (State.arrive s l b).pending = s.pending := by
  unfold State.arrive
  first
  | (simp [State.port, State.station, State.lane, State.ctx]; done)
  | ((repeat' split) <;> (simp [State.port, State.station, State.lane, State.ctx]; done))
  | (dsimp only
     and_intros <;> intros <;> (repeat' split) <;> simp [State.port, State.station, State.lane, State.ctx])

/-- `State.refuseEntry` changes `lanes` alone. -/
@[simp] theorem State.refuseEntry_frame (s : State) (l : LaneId) :
    (State.refuseEntry s l).ports = s.ports ∧ (State.refuseEntry s l).stations = s.stations ∧ (State.refuseEntry s l).pool = s.pool ∧
    (State.refuseEntry s l).visitCounter = s.visitCounter ∧ (State.refuseEntry s l).lastServed = s.lastServed ∧ (State.refuseEntry s l).cache = s.cache ∧
    (State.refuseEntry s l).slot = s.slot ∧ (State.refuseEntry s l).check = s.check ∧ (State.refuseEntry s l).dest = s.dest ∧
    (State.refuseEntry s l).signs = s.signs ∧ (State.refuseEntry s l).uplink = s.uplink ∧ (State.refuseEntry s l).params = s.params ∧
    (State.refuseEntry s l).resetHeld = s.resetHeld ∧ (State.refuseEntry s l).pending = s.pending ∧ (∀ seg_ : Seg, (State.refuseEntry s l).port seg_ = s.port seg_) ∧
    (∀ ix_ : StationIx, (State.refuseEntry s l).station ix_ = s.station ix_) ∧ (∀ ctx_ : CtxId, (State.refuseEntry s l).ctx ctx_ = s.ctx ctx_) := by
  unfold State.refuseEntry
  first
  | (simp [State.port, State.station, State.lane, State.ctx]; done)
  | ((repeat' split) <;> (simp [State.port, State.station, State.lane, State.ctx]; done))
  | (dsimp only
     and_intros <;> intros <;> (repeat' split) <;> simp [State.port, State.station, State.lane, State.ctx])

/-- `State.entryOn` changes `ports`, `stations`, `pool`, `signs`, `uplink`, `cache`, `slot`, `check`, `dest`, `lanes`, `visitCounter` alone. -/
@[simp] theorem State.entryOn_frame (s : State) (l : LaneId) :
    (State.entryOn s l).lastServed = s.lastServed ∧ (State.entryOn s l).params = s.params ∧ (State.entryOn s l).resetHeld = s.resetHeld ∧
    (State.entryOn s l).pending = s.pending := by
  unfold State.entryOn
  first
  | (simp [State.port, State.station, State.lane, State.ctx]; done)
  | ((repeat' split) <;> (simp [State.port, State.station, State.lane, State.ctx]; done))
  | (dsimp only
     and_intros <;> intros <;> (repeat' split) <;> simp [State.port, State.station, State.lane, State.ctx])

/-- `State.positionOn` changes `ports`, `stations`, `pool`, `signs`, `uplink`, `cache`, `slot`, `check`, `dest`, `lanes`, `visitCounter` alone. -/
@[simp] theorem State.positionOn_frame (s : State) (l : LaneId) :
    (State.positionOn s l).lastServed = s.lastServed ∧ (State.positionOn s l).params = s.params ∧ (State.positionOn s l).resetHeld = s.resetHeld ∧
    (State.positionOn s l).pending = s.pending := by
  unfold State.positionOn
  first
  | (simp [State.port, State.station, State.lane, State.ctx]; done)
  | ((repeat' split) <;> (simp [State.port, State.station, State.lane, State.ctx]; done))
  | (dsimp only
     and_intros <;> intros <;> (repeat' split) <;> simp [State.port, State.station, State.lane, State.ctx])

/-- `State.barrierDownOn` changes `ports`, `stations`, `pool` alone. -/
@[simp] theorem State.barrierDownOn_frame (s : State) (l : LaneId) :
    (State.barrierDownOn s l).lanes = s.lanes ∧ (State.barrierDownOn s l).visitCounter = s.visitCounter ∧ (State.barrierDownOn s l).lastServed = s.lastServed ∧
    (State.barrierDownOn s l).cache = s.cache ∧ (State.barrierDownOn s l).slot = s.slot ∧ (State.barrierDownOn s l).check = s.check ∧
    (State.barrierDownOn s l).dest = s.dest ∧ (State.barrierDownOn s l).signs = s.signs ∧ (State.barrierDownOn s l).uplink = s.uplink ∧
    (State.barrierDownOn s l).params = s.params ∧ (State.barrierDownOn s l).resetHeld = s.resetHeld ∧ (State.barrierDownOn s l).pending = s.pending ∧
    (∀ lane_ : LaneId, (State.barrierDownOn s l).lane lane_ = s.lane lane_) := by
  unfold State.barrierDownOn
  first
  | (simp [State.port, State.station, State.lane, State.ctx]; done)
  | ((repeat' split) <;> (simp [State.port, State.station, State.lane, State.ctx]; done))
  | (dsimp only
     and_intros <;> intros <;> (repeat' split) <;> simp [State.port, State.station, State.lane, State.ctx])

/-- `State.advance` changes `ports`, `stations`, `pool`, `signs`, `uplink`, `cache`, `slot`, `check`, `dest`, `lanes` alone. -/
@[simp] theorem State.advance_frame (s : State) (l : LaneId) :
    (State.advance s l).visitCounter = s.visitCounter ∧ (State.advance s l).lastServed = s.lastServed ∧ (State.advance s l).params = s.params ∧
    (State.advance s l).resetHeld = s.resetHeld ∧ (State.advance s l).pending = s.pending := by
  unfold State.advance
  first
  | (simp [State.port, State.station, State.lane, State.ctx]; done)
  | ((repeat' split) <;> (simp [State.port, State.station, State.lane, State.ctx]; done))
  | (dsimp only
     and_intros <;> intros <;> (repeat' split) <;> simp [State.port, State.station, State.lane, State.ctx])

/-- `State.commit` changes `ports`, `stations`, `pool`, `signs`, `uplink`, `cache`, `slot`, `check`, `dest`, `lanes`, `visitCounter`, `lastServed` alone. -/
@[simp] theorem State.commit_frame (s : State) (id : CtxId) :
    (State.commit s id).params = s.params ∧ (State.commit s id).resetHeld = s.resetHeld ∧ (State.commit s id).pending = s.pending := by
  unfold State.commit
  first
  | (simp [State.port, State.station, State.lane, State.ctx]; done)
  | ((repeat' split) <;> (simp [State.port, State.station, State.lane, State.ctx]; done))
  | (dsimp only
     and_intros <;> intros <;> (repeat' split) <;> simp [State.port, State.station, State.lane, State.ctx])

/-- `State.releaseEdge` changes `ports`, `stations`, `pool`, `signs`, `uplink`, `cache`, `slot`, `check`, `dest`, `lanes`, `visitCounter`, `lastServed` alone. -/
@[simp] theorem State.releaseEdge_frame (s : State) (l : LaneId) :
    (State.releaseEdge s l).params = s.params ∧ (State.releaseEdge s l).resetHeld = s.resetHeld ∧ (State.releaseEdge s l).pending = s.pending := by
  unfold State.releaseEdge
  first
  | (simp [State.port, State.station, State.lane, State.ctx]; done)
  | ((repeat' split) <;> (simp [State.port, State.station, State.lane, State.ctx]; done))
  | (dsimp only
     and_intros <;> intros <;> (repeat' split) <;> simp [State.port, State.station, State.lane, State.ctx])

/-- `State.abortShared` changes `slot`, `dest`, `pool` alone. -/
@[simp] theorem State.abortShared_frame (s : State) (id : CtxId) :
    (State.abortShared s id).ports = s.ports ∧ (State.abortShared s id).stations = s.stations ∧ (State.abortShared s id).lanes = s.lanes ∧
    (State.abortShared s id).visitCounter = s.visitCounter ∧ (State.abortShared s id).lastServed = s.lastServed ∧ (State.abortShared s id).cache = s.cache ∧
    (State.abortShared s id).check = s.check ∧ (State.abortShared s id).signs = s.signs ∧ (State.abortShared s id).uplink = s.uplink ∧
    (State.abortShared s id).params = s.params ∧ (State.abortShared s id).resetHeld = s.resetHeld ∧ (State.abortShared s id).pending = s.pending ∧
    (∀ seg_ : Seg, (State.abortShared s id).port seg_ = s.port seg_) ∧ (∀ ix_ : StationIx, (State.abortShared s id).station ix_ = s.station ix_) ∧ (∀ lane_ : LaneId, (State.abortShared s id).lane lane_ = s.lane lane_) := by
  unfold State.abortShared
  first
  | (simp [State.port, State.station, State.lane, State.ctx]; done)
  | ((repeat' split) <;> (simp [State.port, State.station, State.lane, State.ctx]; done))
  | (dsimp only
     and_intros <;> intros <;> (repeat' split) <;> simp [State.port, State.station, State.lane, State.ctx])

/-- `State.endCtx` changes `pool`, `uplink` alone. -/
@[simp] theorem State.endCtx_frame (o : Outcome) (s : State) (id : CtxId) :
    (State.endCtx o s id).ports = s.ports ∧ (State.endCtx o s id).stations = s.stations ∧ (State.endCtx o s id).lanes = s.lanes ∧
    (State.endCtx o s id).visitCounter = s.visitCounter ∧ (State.endCtx o s id).lastServed = s.lastServed ∧ (State.endCtx o s id).cache = s.cache ∧
    (State.endCtx o s id).slot = s.slot ∧ (State.endCtx o s id).check = s.check ∧ (State.endCtx o s id).dest = s.dest ∧
    (State.endCtx o s id).signs = s.signs ∧ (State.endCtx o s id).params = s.params ∧ (State.endCtx o s id).resetHeld = s.resetHeld ∧
    (State.endCtx o s id).pending = s.pending ∧ (∀ seg_ : Seg, (State.endCtx o s id).port seg_ = s.port seg_) ∧ (∀ ix_ : StationIx, (State.endCtx o s id).station ix_ = s.station ix_) ∧
    (∀ lane_ : LaneId, (State.endCtx o s id).lane lane_ = s.lane lane_) := by
  unfold State.endCtx
  first
  | (simp [State.port, State.station, State.lane, State.ctx]; done)
  | ((repeat' split) <;> (simp [State.port, State.station, State.lane, State.ctx]; done))
  | (dsimp only
     and_intros <;> intros <;> (repeat' split) <;> simp [State.port, State.station, State.lane, State.ctx])

/-- `State.leaveReferred` changes `ports`, `stations`, `pool`, `signs`, `uplink` alone. -/
@[simp] theorem State.leaveReferred_frame (s : State) (id : CtxId) :
    (State.leaveReferred s id).lanes = s.lanes ∧ (State.leaveReferred s id).visitCounter = s.visitCounter ∧ (State.leaveReferred s id).lastServed = s.lastServed ∧
    (State.leaveReferred s id).cache = s.cache ∧ (State.leaveReferred s id).slot = s.slot ∧ (State.leaveReferred s id).check = s.check ∧
    (State.leaveReferred s id).dest = s.dest ∧ (State.leaveReferred s id).params = s.params ∧ (State.leaveReferred s id).resetHeld = s.resetHeld ∧
    (State.leaveReferred s id).pending = s.pending ∧ (∀ lane_ : LaneId, (State.leaveReferred s id).lane lane_ = s.lane lane_) := by
  unfold State.leaveReferred
  first
  | (simp [State.port, State.station, State.lane, State.ctx]; done)
  | ((repeat' split) <;> (simp [State.port, State.station, State.lane, State.ctx]; done))
  | (dsimp only
     and_intros <;> intros <;> (repeat' split) <;> simp [State.port, State.station, State.lane, State.ctx])

/-- `State.ruleIn` changes `ports`, `stations`, `pool`, `signs`, `uplink`, `cache`, `slot`, `check`, `dest` alone. -/
@[simp] theorem State.ruleIn_frame (s : State) (id : CtxId) (d : Decision) (x : Fin 64) :
    (State.ruleIn s id d x).lanes = s.lanes ∧ (State.ruleIn s id d x).visitCounter = s.visitCounter ∧ (State.ruleIn s id d x).lastServed = s.lastServed ∧
    (State.ruleIn s id d x).params = s.params ∧ (State.ruleIn s id d x).resetHeld = s.resetHeld ∧ (State.ruleIn s id d x).pending = s.pending ∧
    (∀ lane_ : LaneId, (State.ruleIn s id d x).lane lane_ = s.lane lane_) := by
  unfold State.ruleIn
  first
  | (simp [State.port, State.station, State.lane, State.ctx]; done)
  | ((repeat' split) <;> (simp [State.port, State.station, State.lane, State.ctx]; done))
  | (dsimp only
     and_intros <;> intros <;> (repeat' split) <;> simp [State.port, State.station, State.lane, State.ctx])

/-- `State.turnOut` changes `ports`, `stations`, `pool`, `signs`, `uplink`, `cache`, `slot`, `check`, `dest` alone. -/
@[simp] theorem State.turnOut_frame (s : State) (id : CtxId) (x : Option (Fin 64)) :
    (State.turnOut s id x).lanes = s.lanes ∧ (State.turnOut s id x).visitCounter = s.visitCounter ∧ (State.turnOut s id x).lastServed = s.lastServed ∧
    (State.turnOut s id x).params = s.params ∧ (State.turnOut s id x).resetHeld = s.resetHeld ∧ (State.turnOut s id x).pending = s.pending ∧
    (∀ lane_ : LaneId, (State.turnOut s id x).lane lane_ = s.lane lane_) := by
  unfold State.turnOut
  first
  | (simp [State.port, State.station, State.lane, State.ctx]; done)
  | ((repeat' split) <;> (simp [State.port, State.station, State.lane, State.ctx]; done))
  | (dsimp only
     and_intros <;> intros <;> (repeat' split) <;> simp [State.port, State.station, State.lane, State.ctx])

/-- `State.rule` changes `ports`, `stations`, `pool`, `signs`, `uplink`, `cache`, `slot`, `check`, `dest` alone. -/
@[simp] theorem State.rule_frame (s : State) (id : CtxId) (d : Decision) (x : Option (Fin 64)) :
    ((State.rule s id d x).2).lanes = s.lanes ∧ ((State.rule s id d x).2).visitCounter = s.visitCounter ∧ ((State.rule s id d x).2).lastServed = s.lastServed ∧
    ((State.rule s id d x).2).params = s.params ∧ ((State.rule s id d x).2).resetHeld = s.resetHeld ∧ ((State.rule s id d x).2).pending = s.pending ∧
    (∀ lane_ : LaneId, ((State.rule s id d x).2).lane lane_ = s.lane lane_) := by
  unfold State.rule State.rulingApplied State.rulingDenied
  first
  | (simp [State.port, State.station, State.lane, State.ctx]; done)
  | ((repeat' split) <;> (simp [State.port, State.station, State.lane, State.ctx]; done))
  | (dsimp only
     and_intros <;> intros <;> (repeat' split) <;> simp [State.port, State.station, State.lane, State.ctx])

/-- `State.abortAll` changes `ports`, `stations`, `pool`, `signs`, `uplink`, `cache`, `slot`, `check`, `dest`, `lanes`, `visitCounter`, `lastServed` alone. -/
@[simp] theorem State.abortAll_frame (s : State) (l : LaneId) (ids : List CtxId) (o : Outcome) :
    (State.abortAll s l ids o).params = s.params ∧ (State.abortAll s l ids o).resetHeld = s.resetHeld ∧ (State.abortAll s l ids o).pending = s.pending := by
  exact ⟨by
      unfold State.abortAll; dsimp only
      refine (foldl_keeps (fun t : State => t.params) _ (by intros; simp) _ _).trans ?_
      simp only [State.settle_frame, Work.finish_frame, Work.upd_st]
      split
      · simp only [State.compose_frame]
        refine (foldl_keeps (fun t : State => t.params) _ (by intros; simp) _ _).trans ?_
        refine (foldl_keeps (fun t : Work => t.st.params) _ (by intros; simp) _ _).trans ?_
        exact foldl_keeps (fun t : State => t.params) _ (by intros; simp) _ _
      · refine (foldl_keeps (fun t : State => t.params) _ (by intros; simp) _ _).trans ?_
        refine (foldl_keeps (fun t : Work => t.st.params) _ (by intros; simp) _ _).trans ?_
        exact foldl_keeps (fun t : State => t.params) _ (by intros; simp) _ _,
    by
      unfold State.abortAll; dsimp only
      refine (foldl_keeps (fun t : State => t.resetHeld) _ (by intros; simp) _ _).trans ?_
      simp only [State.settle_frame, Work.finish_frame, Work.upd_st]
      split
      · simp only [State.compose_frame]
        refine (foldl_keeps (fun t : State => t.resetHeld) _ (by intros; simp) _ _).trans ?_
        refine (foldl_keeps (fun t : Work => t.st.resetHeld) _ (by intros; simp) _ _).trans ?_
        exact foldl_keeps (fun t : State => t.resetHeld) _ (by intros; simp) _ _
      · refine (foldl_keeps (fun t : State => t.resetHeld) _ (by intros; simp) _ _).trans ?_
        refine (foldl_keeps (fun t : Work => t.st.resetHeld) _ (by intros; simp) _ _).trans ?_
        exact foldl_keeps (fun t : State => t.resetHeld) _ (by intros; simp) _ _,
    by
      unfold State.abortAll; dsimp only
      refine (foldl_keeps (fun t : State => t.pending) _ (by intros; simp) _ _).trans ?_
      simp only [State.settle_frame, Work.finish_frame, Work.upd_st]
      split
      · simp only [State.compose_frame]
        refine (foldl_keeps (fun t : State => t.pending) _ (by intros; simp) _ _).trans ?_
        refine (foldl_keeps (fun t : Work => t.st.pending) _ (by intros; simp) _ _).trans ?_
        exact foldl_keeps (fun t : State => t.pending) _ (by intros; simp) _ _
      · refine (foldl_keeps (fun t : State => t.pending) _ (by intros; simp) _ _).trans ?_
        refine (foldl_keeps (fun t : Work => t.st.pending) _ (by intros; simp) _ _).trans ?_
        exact foldl_keeps (fun t : State => t.pending) _ (by intros; simp) _ _⟩

/-- `State.orphan` changes `lanes`, `uplink` alone. -/
@[simp] theorem State.orphan_frame (s : State) (g : Seg) (a : Addr) (e : Station) (m : LaneMsg) :
    (State.orphan s g a e m).ports = s.ports ∧ (State.orphan s g a e m).stations = s.stations ∧ (State.orphan s g a e m).pool = s.pool ∧
    (State.orphan s g a e m).visitCounter = s.visitCounter ∧ (State.orphan s g a e m).lastServed = s.lastServed ∧ (State.orphan s g a e m).cache = s.cache ∧
    (State.orphan s g a e m).slot = s.slot ∧ (State.orphan s g a e m).check = s.check ∧ (State.orphan s g a e m).dest = s.dest ∧
    (State.orphan s g a e m).signs = s.signs ∧ (State.orphan s g a e m).params = s.params ∧ (State.orphan s g a e m).resetHeld = s.resetHeld ∧
    (State.orphan s g a e m).pending = s.pending ∧ (∀ seg_ : Seg, (State.orphan s g a e m).port seg_ = s.port seg_) ∧ (∀ ix_ : StationIx, (State.orphan s g a e m).station ix_ = s.station ix_) ∧
    (∀ ctx_ : CtxId, (State.orphan s g a e m).ctx ctx_ = s.ctx ctx_) := by
  unfold State.orphan
  first
  | (simp [State.port, State.station, State.lane, State.ctx]; done)
  | ((repeat' split) <;> (simp [State.port, State.station, State.lane, State.ctx]; done))
  | (dsimp only
     and_intros <;> intros <;> (repeat' split) <;> simp [State.port, State.station, State.lane, State.ctx])

end Sys2Proof.Machine
end

