-- ==== Sys2Proof/Laws/Decision.lean ====
section
/-! SUPPORT. The decision step (R149 to R157): what each of its parts can do, and that the test of a context in LOOKUP
makes the relation `Decides` of Safety.lean. -/

open Sys2Proof.Machine Sys2Proof.Safety
namespace Sys2Proof.Laws

/-- The records that targets hold are read from the cache alone. -/
theorem targetRecord_congr (s t : State) (h : t.cache = s.cache) (g : Target) : t.targetRecord g = s.targetRecord g := by
  cases g <;> simp only [State.targetRecord, State.entry, h]
theorem targetHeld_congr (s t : State) (h : t.cache = s.cache) (g : Target) : t.targetHeld g = s.targetHeld g := by
  cases g <;> simp only [State.targetHeld, State.entry, h]
theorem linkRecord_congr (s t : State) (h : t.cache = s.cache) : t.linkRecord = s.linkRecord := by
  funext l; unfold State.linkRecord; split <;> simp [targetRecord_congr s t h]
theorem positionRecord_congr (s t : State) (h : t.cache = s.cache) : t.positionRecord = s.positionRecord := by
  funext c pos; unfold State.positionRecord; rw [linkRecord_congr s t h]
theorem sealOf_congr (s t : State) (h : t.cache = s.cache) : t.sealOf = s.sealOf := by
  funext c pos; unfold State.sealOf; rw [positionRecord_congr s t h]
theorem firstRecord_congr (s t : State) (h : t.cache = s.cache) : t.firstRecord = s.firstRecord := by
  funext c; unfold State.firstRecord; rw [linkRecord_congr s t h]

/-- The check unit's working state in the decision step: one context and the counters. -/
def put (s : State) (id : CtxId) (c : Ctx) (k : CheckCounters) : State :=
  { s with pool := s.pool.set id c, check := { s.check with counters := k } }

theorem put_ctx (s : State) (id : CtxId) (c : Ctx) (k : CheckCounters) : (put s id c k).ctx id = c := by
  simp [put, State.ctx]
theorem put_upd (s : State) (id : CtxId) (c : Ctx) (k : CheckCounters) (f : Ctx → Ctx) :
    (put s id c k).updCtx id f = put s id (f c) k := by
  simp [put, State.updCtx, upd]
theorem put_count (s : State) (id : CtxId) (c : Ctx) (k : CheckCounters) (f : CheckCounters → CheckCounters) :
    (put s id c k).countCheck f = put s id c (f k) := rfl

theorem checkSeal_put (s : State) (id : CtxId) (c : Ctx) (k : CheckCounters) (pos : Position) :
    (put s id c k).checkSeal id pos =
      put s id { c with sealChecks := c.sealChecks.put pos (s.sealOf c pos) } (countSeal k (s.sealOf c pos)) := by
  simp only [State.checkSeal, put_ctx, put_upd, put_count, sealOf_congr s (put s id c k) rfl]

theorem bumpBy_ite (c : Counter) (p : Prop) [Decidable p] :
    bumpBy c (if p then 1 else 0) = if p then bump c else c := by
  split <;> rfl

theorem gradePosition_put (s : State) (id : CtxId) (c : Ctx) (k : CheckCounters) (pos : Position) (prov : Bool) :
    (put s id c k).gradePosition id pos prov =
      put s id { c with
          damage := c.damage.put pos (some (damageOf s c prov pos))
          flags := { c.flags with
            lengthFromBooking := c.flags.lengthFromBooking || (gradedGeometry s c pos).any (·.fromBooking)
            orientationAssumed := c.flags.orientationAssumed || (gradedGeometry s c pos).any (·.assumed) } }
        { k with
          clamps := bumpBy k.clamps (clampsOf s c pos)
          inspections := bumpBy k.inspections (if (damageOf s c prov pos).result = .inspect then 1 else 0) } := by
  have hp : (if prov then [] else ((s.positionRecord c pos).map (·.prior)).getD []) =
      (if prov then [] else match s.positionRecord c pos with | some r => r.prior | none => []) := by
    cases s.positionRecord c pos <;> rfl
  simp only [State.gradePosition, put_ctx, put_upd, positionRecord_congr s (put s id c k) rfl, clampsOf, damageOf, hp]
  unfold gradedGeometry RawList.graded
  by_cases h : (c.raw.get pos).marks = [] ∧ (c.raw.get pos).overflow = false
  · simp [h, bumpBy]
  · have h' : (!(c.raw.get pos).marks.isEmpty || (c.raw.get pos).overflow) = true := by
      by_contra hh; apply h; simpa using hh
    simp only [h', if_true, if_neg h, put_count, Option.any_some, bumpBy_ite]
    rfl

theorem gradedGeometry_congr (s : State) (c d : Ctx) (pos : Position) (h : d.raw = c.raw) (hl : d.layout = c.layout)
    (hk : d.links = c.links) : gradedGeometry s d pos = gradedGeometry s c pos := by
  simp only [gradedGeometry, Ctx.layoutOf, State.positionRecord, Ctx.positionLink, h, hl, hk]
theorem damageOf_congr (s : State) (c d : Ctx) (prov : Bool) (pos : Position) (h : d.raw = c.raw)
    (hl : d.layout = c.layout) (hk : d.links = c.links) : damageOf s d prov pos = damageOf s c prov pos := by
  simp only [damageOf, gradedGeometry_congr s c d pos h hl hk, State.positionRecord, Ctx.positionLink, h, hk]
theorem clampsOf_congr (s : State) (c d : Ctx) (pos : Position) (h : d.raw = c.raw)
    (hl : d.layout = c.layout) (hk : d.links = c.links) : clampsOf s d pos = clampsOf s c pos := by
  simp only [clampsOf, gradedGeometry_congr s c d pos h hl hk, h]
theorem bumpBy_bumpBy (c : Counter) (m n : Nat) : bumpBy (bumpBy c m) n = bumpBy c (m + n) := by
  induction m generalizing c with
  | zero => simp [bumpBy]
  | succ m ih => rw [show m + 1 + n = (m + n) + 1 by omega]; simp only [bumpBy, ih]

theorem runChecks_put (s : State) (id : CtxId) (c : Ctx) (k : CheckCounters) (prov : Bool) :
    (put s id c k).runChecks id prov =
      put s id { c with
          sealChecks := ⟨s.sealOf c .fwd, s.sealOf c .aft⟩
          damage := ⟨some (damageOf s c prov .fwd), some (damageOf s c prov .aft)⟩
          flags := { c.flags with
            lengthFromBooking := c.flags.lengthFromBooking || (gradedGeometry s c .fwd).any (·.fromBooking) ||
              (gradedGeometry s c .aft).any (·.fromBooking)
            orientationAssumed := c.flags.orientationAssumed || (gradedGeometry s c .fwd).any (·.assumed) ||
              (gradedGeometry s c .aft).any (·.assumed) } }
        { countSeal (countSeal k (s.sealOf c .fwd)) (s.sealOf c .aft) with
          clamps := bumpBy k.clamps (clampsOf s c .fwd + clampsOf s c .aft)
          inspections := bumpBy k.inspections
            ((if (damageOf s c prov .fwd).result = .inspect then 1 else 0) +
              if (damageOf s c prov .aft).result = .inspect then 1 else 0) } := by
  have hc : ∀ k x, (countSeal k x).clamps = k.clamps ∧ (countSeal k x).inspections = k.inspections := by
    intro k x; unfold countSeal; split <;> exact ⟨rfl, rfl⟩
  simp only [State.runChecks, checkSeal_put, gradePosition_put]
  have e1 : ∀ x, s.sealOf { c with sealChecks := x } .aft = s.sealOf c .aft := fun x => rfl
  have e2 : ∀ x y z pos, gradedGeometry s { c with sealChecks := x, damage := y, flags := z } pos = gradedGeometry s c pos :=
    fun _ _ _ _ => gradedGeometry_congr s c _ _ rfl rfl rfl
  have e3 : ∀ x y z pos, damageOf s { c with sealChecks := x, damage := y, flags := z } prov pos = damageOf s c prov pos :=
    fun _ _ _ _ => damageOf_congr s c _ _ _ rfl rfl rfl
  have e4 : ∀ x y z pos, clampsOf s { c with sealChecks := x, damage := y, flags := z } pos = clampsOf s c pos :=
    fun _ _ _ _ => clampsOf_congr s c _ _ rfl rfl rfl
  have e2' : ∀ x pos, gradedGeometry s { c with sealChecks := x } pos = gradedGeometry s c pos := fun _ _ => gradedGeometry_congr s c _ _ rfl rfl rfl
  have e3' : ∀ x pos, damageOf s { c with sealChecks := x } prov pos = damageOf s c prov pos := fun _ _ => damageOf_congr s c _ _ _ rfl rfl rfl
  simp only [e1, e2, e3, e4, hc, bumpBy_bumpBy]
  rfl
theorem ctx_updDestAt (s : State) (d : Fin 64) (f : Dest → Dest) (j : CtxId) : (s.updDestAt d f).ctx j = s.ctx j := rfl

theorem forgetTransit_ctx (s : State) (v : BitVec 16) (j : CtxId) :
    (s.forgetTransit v).ctx j = { s.ctx j with inTransit := ((s.forgetTransit v).ctx j).inTransit } := by
  simp only [State.forgetTransit, State.ctx, Fin.getElem_fin, mapAll_getElem]
  split <;> rfl

theorem removeTransit_ctx (s : State) (e : TransitEntry) (j : CtxId) :
    (s.removeTransit e).ctx j = { s.ctx j with inTransit := ((s.removeTransit e).ctx j).inTransit } := by
  unfold State.removeTransit
  exact forgetTransit_ctx _ _ _

theorem displace_ctx (s : State) (e : TransitEntry) (j : CtxId) :
    (s.displace e).ctx j = { s.ctx j with inTransit := ((s.displace e).ctx j).inTransit } := by
  unfold State.displace State.countDest
  simp only [State.ctx_updDest, offerB_eq]
  exact removeTransit_ctx s e j

theorem displace_dest (s : State) (e : TransitEntry) :
    (s.displace e).dest.defaults = s.dest.defaults ∧
    (s.displace e).dest.counters = { s.dest.counters with transitDisplaced := (s.displace e).dest.counters.transitDisplaced } := by
  unfold State.displace State.countDest
  simp only [State.updDest_dest, offerB_eq]
  exact ⟨rfl, rfl⟩

/-- R157, R158, R161: what a token taken does. -/
theorem takeToken_spec (s : State) (id : CtxId) (x : Fin 64) :
    (s.takeToken id x).ctx id = { s.ctx id with inTransit := true } ∧
    (∀ j, j ≠ id → (s.takeToken id x).ctx j = { s.ctx j with inTransit := ((s.takeToken id x).ctx j).inTransit }) ∧
    (s.takeToken id x).dest.defaults = s.dest.defaults ∧
    ((∀ e ∈ s.dest.transit, e.visit ≠ (s.ctx id).visit) → s.dest.transit.length < 256 →
      (s.takeToken id x).dest.transit = s.dest.transit ++ [⟨(s.ctx id).visit, x, none⟩] ∧
      ∀ y, (s.takeToken id x).destAt y = if y = x then { s.destAt y with inTransit := (s.destAt y).inTransit + 1 } else s.destAt y) := by
  have key : ∃ u : State, (∀ j, u.ctx j = { s.ctx j with inTransit := (u.ctx j).inTransit }) ∧
      u.dest.defaults = s.dest.defaults ∧
      ((∀ e ∈ s.dest.transit, e.visit ≠ (s.ctx id).visit) → s.dest.transit.length < 256 → u = s) ∧
      s.takeToken id x = ((u.updDest fun d => { d with transit := d.transit ++ [⟨(s.ctx id).visit, x, none⟩] }).updDestAt x
        fun d => { d with inTransit := d.inTransit + 1 }).updCtx id fun c => { c with inTransit := true } := by
    have step : ∀ s1 : State, (∀ j, s1.ctx j = { s.ctx j with inTransit := (s1.ctx j).inTransit }) →
        s1.dest.defaults = s.dest.defaults →
        ((∀ e ∈ s.dest.transit, e.visit ≠ (s.ctx id).visit) → s.dest.transit.length < 256 → s1 = s) →
        ∀ s2, s2 = (if Config.transitListSize ≤ s1.dest.transit.length then
          match s1.dest.transit with | e :: _ => s1.displace e | [] => s1 else s1) →
        (∀ j, s2.ctx j = { s.ctx j with inTransit := (s2.ctx j).inTransit }) ∧ s2.dest.defaults = s.dest.defaults ∧
        ((∀ e ∈ s.dest.transit, e.visit ≠ (s.ctx id).visit) → s.dest.transit.length < 256 → s2 = s) := by
      intro s1 h1 h2 h3 s2 e
      subst e
      by_cases hl : Config.transitListSize ≤ s1.dest.transit.length
      · simp only [hl, if_true]
        have no : (∀ e ∈ s.dest.transit, e.visit ≠ (s.ctx id).visit) → s.dest.transit.length < 256 → False := by
          intro a b; rw [h3 a b] at hl; simp only [Config.transitListSize] at hl; omega
        split
        · refine ⟨fun j => ?_, ?_, fun a b => (no a b).elim⟩
          · rw [displace_ctx, h1 j]
          · rw [(displace_dest _ _).1, h2]
        · exact ⟨h1, h2, h3⟩
      · simp only [hl, if_false]; exact ⟨h1, h2, h3⟩
    unfold State.takeToken
    cases ht : s.transitOf (s.ctx id).visit with
    | none =>
      have := step s (fun j => rfl) rfl (fun _ _ => rfl) _ rfl
      refine ⟨_, this.1, this.2.1, this.2.2, ?_⟩
      simp only [ht] <;> rfl
    | some e =>
      have hm : e ∈ s.dest.transit ∧ e.visit = (s.ctx id).visit := by
        unfold State.transitOf at ht
        exact ⟨List.mem_of_find?_eq_some ht, by simpa using List.find?_some ht⟩
      have := step (s.displace e) (fun j => displace_ctx s e j) (displace_dest s e).1
        (fun a _ => absurd hm.2 (a e hm.1)) _ rfl
      refine ⟨_, this.1, this.2.1, this.2.2, ?_⟩
      simp only [ht] <;> rfl
  obtain ⟨u, h1, h2, h3, h4⟩ := key
  rw [h4]
  refine ⟨?_, ?_, ?_, ?_⟩
  · simp only [State.ctx_updCtx, if_true, ctx_updDestAt, State.ctx_updDest]
    rw [h1 id]
  · intro j hj
    simp only [State.ctx_updCtx, if_neg hj, ctx_updDestAt, State.ctx_updDest]
    rw [h1 j]
  · exact h2
  · intro a b
    rw [h3 a b]
    refine ⟨rfl, fun y => ?_⟩
    refine (upd_get _ x y _).trans ?_
    split
    · rename_i h; subst h; rfl
    · rfl

theorem sendTo_spec (s : State) (id : CtxId) (x : Fin 64) :
    (s.sendTo id x).ctx id = { s.ctx id with destination := some x, inTransit := true } ∧
    (∀ j, j ≠ id → (s.sendTo id x).ctx j = { s.ctx j with inTransit := ((s.sendTo id x).ctx j).inTransit }) ∧
    (s.sendTo id x).dest.defaults = s.dest.defaults ∧
    ((∀ e ∈ s.dest.transit, e.visit ≠ (s.ctx id).visit) → s.dest.transit.length < 256 →
      (s.sendTo id x).dest.transit = s.dest.transit ++ [⟨(s.ctx id).visit, x, none⟩] ∧
      ∀ y, (s.sendTo id x).destAt y = if y = x then { s.destAt y with inTransit := (s.destAt y).inTransit + 1 } else s.destAt y) := by
  have h := takeToken_spec (s.updCtx id fun c => { c with destination := some x }) id x
  simp only [State.ctx_updCtx, if_true] at h
  refine ⟨h.1, fun j hj => ?_, h.2.2.1, h.2.2.2⟩
  have := h.2.1 j hj
  rwa [if_neg hj] at this


/-! ### Units and reservations -/

theorem setHeld_ctx (s : State) (g : Target) (n : Nat) (j : CtxId) : (s.setHeld g n).ctx j = s.ctx j := by
  cases g <;> rfl
theorem setHeld_record (s : State) (g : Target) (n : Nat) (k : Target) : (s.setHeld g n).targetRecord k = s.targetRecord k := by
  cases g with
  | way i w =>
    cases k with
    | way j z =>
      simp only [State.setHeld, State.targetRecord, State.entry, State.updEntry, State.updCache, Fin.getElem_fin, upd_getElem]
      split
      · rename_i h; have : j = i := Fin.ext h; subst this
        unfold CacheSet.put CacheSet.get; split <;> split <;> simp_all
      · rfl
    | copy p => rfl
  | copy q =>
    cases k with
    | way j z => rfl
    | copy p =>
      simp only [State.setHeld, State.targetRecord, State.updCopy, State.updCache, Fin.getElem_fin, upd_getElem]
      split
      · rename_i h; simp only [h]; cases s.cache.copies[q.val] <;> rfl
      · rfl
theorem setHeld_held (s : State) (g : Target) (n : Nat) (k : Target) (x : Record) (hx : s.targetRecord g = some x) :
    (s.setHeld g n).targetHeld k = if k = g then n else s.targetHeld k := by
  cases g with
  | way i w =>
    cases k with
    | way j z =>
      simp only [State.setHeld, State.targetHeld, State.entry, State.updEntry, State.updCache, Fin.getElem_fin, upd_getElem]
      by_cases h : j = i
      · subst h
        simp only [if_true]
        fin_cases w <;> fin_cases z <;> simp [CacheSet.put, CacheSet.get]
      · have : j.val ≠ i.val := fun e => h (Fin.ext e)
        simp [this, h]
    | copy p => simp [State.setHeld, State.targetHeld, State.updEntry, State.updCache]
  | copy q =>
    cases k with
    | way j z => simp [State.setHeld, State.targetHeld, State.updCopy, State.updCache, State.entry]
    | copy p =>
      simp only [State.setHeld, State.targetHeld, State.updCopy, State.updCache, Fin.getElem_fin, upd_getElem]
      by_cases h : p = q
      · subst h
        simp only [State.targetRecord, Fin.getElem_fin] at hx
        cases hc : s.cache.copies[p.val] with
        | none => rw [hc] at hx; cases hx
        | some c => simp
      · have : p.val ≠ q.val := fun e => h (Fin.ext e)
        simp [this, h]

/-- Links of one visit with distinct targets: a target names its link. -/
theorem nodup_targets {L : List Link} (hn : (L.filterMap (·.target)).Nodup) {i j : Nat} (hi : i < L.length) (hj : j < L.length)
    {g : Target} (h1 : L[i].target = some g) (h2 : L[j].target = some g) : i = j := by
  induction L generalizing i j with
  | nil => simp at hi
  | cons a L ih =>
    have hn' : (L.filterMap (·.target)).Nodup := by
      simp only [List.filterMap_cons] at hn
      split at hn
      · exact hn
      · exact (List.nodup_cons.mp hn).2
    have hmem : ∀ k (hk : k < L.length), L[k].target = some g → a.target = some g → False := by
      intro k hk e1 e2
      simp only [List.filterMap_cons, e2] at hn
      exact (List.nodup_cons.mp hn).1 (List.mem_filterMap.mpr ⟨L[k], List.getElem_mem hk, e1⟩)
    cases i with
    | zero =>
      cases j with
      | zero => rfl
      | succ j => exact (hmem j (by simpa using hj) (by simpa using h2) (by simpa using h1)).elim
    | succ i =>
      cases j with
      | zero => exact (hmem i (by simpa using hi) (by simpa using h1) (by simpa using h2)).elim
      | succ j => exact congrArg (· + 1) (ih hn' (by simpa using hi) (by simpa using hj) (by simpa using h1) (by simpa using h2))

theorem foldl_range_split {α : Type} (f : α → Nat → α) (a : α) (n : Nat) :
    (List.range (n + 1)).foldl f a = f ((List.range n).foldl f a) n := by
  rw [List.range_succ, List.foldl_append]; rfl

theorem takeUnit_ctx (s : State) (r : LinkRef) (j : CtxId) :
    (s.takeUnit r).ctx j = { s.ctx j with links := ((s.takeUnit r).ctx j).links } := by
  unfold State.takeUnit
  split
  · rfl
  · split
    · split
      · simp only [State.updLink, State.ctx_updCtx, setHeld_ctx]
        split
        · rename_i h; subst h; rfl
        · rfl
      · rfl
    · rfl

theorem takeUnit_other (s : State) (r : LinkRef) (j : CtxId) (h : j ≠ r.ctx) : (s.takeUnit r).ctx j = s.ctx j := by
  unfold State.takeUnit
  split
  · rfl
  · split
    · split
      · simp only [State.updLink, State.ctx_updCtx, setHeld_ctx, if_neg h]
      · rfl
    · rfl

theorem takeUnits_ctx (s : State) (id : CtxId) :
    (s.takeUnits id).ctx id = { s.ctx id with links := ((s.takeUnits id).ctx id).links } ∧
    ∀ j, j ≠ id → (s.takeUnits id).ctx j = s.ctx j := by
  unfold State.takeUnits Work.refsOf
  rw [List.foldl_map]
  generalize (s.ctx id).links.length = n
  induction n with
  | zero => exact ⟨rfl, fun _ _ => rfl⟩
  | succ n ih =>
    simp only [foldl_range_split]
    refine ⟨?_, fun j hj => ?_⟩
    · rw [takeUnit_ctx, ih.1]
    · rw [takeUnit_other _ _ _ hj, ih.2 j hj]

theorem lt_succ_ne {k n : Nat} (h : ¬k = n) : k < n + 1 ↔ k < n := by omega

/-- One link's record and units, in a state with the same records. -/
theorem takeUnits_spec (s : State) (id : CtxId) : UnitsTaken s (s.takeUnits id) id true := by
  intro hn
  have key : ∀ n, n ≤ (s.ctx id).links.length →
      let t := (List.range n).foldl (fun (s : State) k => s.takeUnit ⟨id, k⟩) s
      (∀ g, t.targetRecord g = s.targetRecord g) ∧
      (t.ctx id).links.length = (s.ctx id).links.length ∧
      (∀ k (h : k < (s.ctx id).links.length), (t.ctx id).links[k]? =
        some (if k < n ∧ takesUnit s (s.ctx id).links[k] then { (s.ctx id).links[k] with holdsUnit := true } else (s.ctx id).links[k])) ∧
      (∀ k (h : k < (s.ctx id).links.length), ∀ g, (s.ctx id).links[k].target = some g →
        t.targetHeld g = if k < n ∧ takesUnit s (s.ctx id).links[k] then s.targetHeld g + 1 else s.targetHeld g) := by
    intro n
    induction n with
    | zero => intro _; exact ⟨fun _ => rfl, rfl, fun k h => by simp, fun k h g _ => by simp⟩
    | succ n ih =>
      intro hle
      obtain ⟨i1, i2, i3, i4⟩ := ih (by omega)
      simp only [foldl_range_split] at *
      generalize hu : (List.range n).foldl (fun (s : State) k => s.takeUnit ⟨id, k⟩) s = u at *
      have hl : n < (s.ctx id).links.length := by omega
      have e3 := i3 n hl
      simp only [Nat.lt_irrefl, false_and, if_false] at e3
      obtain ⟨L, hL⟩ : ∃ L, (s.ctx id).links[n] = L := ⟨_, rfl⟩
      rw [hL] at e3
      have hrec : ∀ l : Link, u.linkRecord l = s.linkRecord l := by
        intro l; unfold State.linkRecord; split <;> simp [i1]
      have hcase : (takesUnit s L = false ∧ u.takeUnit ⟨id, n⟩ = u) ∨
          ∃ g x, takesUnit s L = true ∧ L.target = some g ∧ s.targetRecord g = some x ∧ u.takeUnit ⟨id, n⟩ =
            (u.setHeld g (u.targetHeld g + 1)).updLink ⟨id, n⟩ fun l => { l with holdsUnit := true } := by
        have hlk : u.link? ⟨id, n⟩ = some L := e3
        unfold State.takeUnit takesUnit
        simp only [hlk, hrec]
        cases hT : L.target with
        | none => left; exact ⟨rfl, rfl⟩
        | some g =>
          have hg := i4 n hl g (by rw [hL]; exact hT)
          simp only [Nat.lt_irrefl, false_and, if_false] at hg
          cases hR : s.linkRecord L with
          | none => left; exact ⟨rfl, rfl⟩
          | some x =>
            simp only [hg]
            by_cases hc : (x.kind == .emptyPickup && !L.holdsUnit && decide (s.targetHeld g < x.remaining)) = true
            · right
              refine ⟨g, x, hc, rfl, ?_, ?_⟩
              · unfold State.linkRecord at hR; simp only [hT] at hR; split at hR <;> simp_all
              · simp only [hc, if_true, hg]
            · left; simp only [hc, Bool.false_eq_true, if_false]; exact ⟨trivial, trivial⟩
      rcases hcase with ⟨hf, he⟩ | ⟨g, x, ht, hT, hR, he⟩
      · rw [he]
        refine ⟨i1, i2, fun k h => ?_, fun k h q hq => ?_⟩
        · rw [i3 k h]
          by_cases hk : k = n
          · subst hk; simp [hL, hf]
          · simp only [lt_succ_ne hk]
        · rw [i4 k h q hq]
          by_cases hk : k = n
          · subst hk; simp [hL, hf]
          · simp only [lt_succ_ne hk]
      · rw [he]
        have hRu : u.targetRecord g = some x := by rw [i1]; exact hR
        refine ⟨fun q => ?_, ?_, fun k h => ?_, fun k h q hq => ?_⟩
        · have : ((u.setHeld g (u.targetHeld g + 1)).updLink ⟨id, n⟩ fun l => { l with holdsUnit := true }).targetRecord q =
              (u.setHeld g (u.targetHeld g + 1)).targetRecord q := by cases q <;> rfl
          rw [this, setHeld_record, i1]
        · simp only [State.updLink, State.ctx_updCtx, if_true, setHeld_ctx, List.length_modify, i2]
        · simp only [State.updLink, State.ctx_updCtx, if_true, setHeld_ctx, List.getElem?_modify, i3 k h]
          by_cases hk : k = n
          · subst hk; simp [hL, ht]
          · have h2 : n ≠ k := fun e => hk e.symm
            simp only [lt_succ_ne hk, h2, if_false]
            rfl
        · have : ((u.setHeld g (u.targetHeld g + 1)).updLink ⟨id, n⟩ fun l => { l with holdsUnit := true }).targetHeld q =
              (u.setHeld g (u.targetHeld g + 1)).targetHeld q := by cases q <;> rfl
          rw [this, setHeld_held u g _ q x hRu]
          by_cases hk : k = n
          · subst hk
            have hqg : q = g := by rw [hL] at hq; rw [hq] at hT; exact Option.some.inj hT
            subst hqg
            have := i4 k hl q (by rw [hL]; exact hT)
            simp only [Nat.lt_irrefl, false_and, if_false] at this
            simp [hL, ht, this]
          · have hqg : q ≠ g := by
              intro e; subst e
              exact hk (nodup_targets hn h hl hq (by rw [hL]; exact hT))
            simp only [hqg, if_false, lt_succ_ne hk]
            exact i4 k h q hq
  have K := key (s.ctx id).links.length (le_refl _)
  have e : (s.takeUnits id) = (List.range (s.ctx id).links.length).foldl (fun (s : State) k => s.takeUnit ⟨id, k⟩) s := by
    unfold State.takeUnits Work.refsOf; rw [List.foldl_map]
  rw [e]
  refine ⟨?_, ?_⟩
  · apply List.ext_getElem?
    intro k
    by_cases h : k < (s.ctx id).links.length
    · rw [K.2.2.1 k h]; simp [h]
    · rw [List.getElem?_eq_none (by rw [K.2.1]; omega), List.getElem?_eq_none (by simp; omega)]
  · intro l hl g hg
    obtain ⟨k, h, rfl⟩ := List.mem_iff_getElem.mp hl
    rw [K.2.2.2 k h g hg]; simp [h]

theorem windowPlace_congr (s t : State) (hd : ∀ i, (t.dayTable i).day = (s.dayTable i).day) (d : BitVec 16) (w : Nat) :
    t.windowPlace d w = s.windowPlace d w := by
  have h1 := hd .yesterday; have h2 := hd .today; have h3 := hd .tomorrow
  unfold State.windowPlace State.dayIx
  unfold State.dayTable at h1 h2 h3
  simp only [h1, h2, h3]

theorem windowAt_updWindow (s : State) (i : DayIx) (w : Fin 96) (f : Window → Window) (p : DayIx × Fin 96) :
    (s.updWindow i w f).windowAt p = if p = (i, w) then f (s.windowAt p) else s.windowAt p := by
  obtain ⟨j, v⟩ := p
  simp only [State.windowAt, State.updWindow, Prod.mk.injEq]
  cases i <;> cases j <;> simp [State.dayTable, State.updDay, State.updSlot] <;>
  (by_cases h : v = w
   · subst h; simp
   · have : v.val ≠ w.val := fun e => h (Fin.ext e)
     simp [h, this])

theorem updWindow_ctx (s : State) (i : DayIx) (w : Fin 96) (f : Window → Window) (j : CtxId) :
    (s.updWindow i w f).ctx j = s.ctx j := by cases i <;> rfl

theorem takeOffer_ctx (s : State) (id : CtxId) (o : Option (BitVec 16 × Nat)) :
    (s.takeOffer id o).ctx id =
      { s.ctx id with reservation := ((s.takeOffer id o).ctx id).reservation, reserved := ((s.takeOffer id o).ctx id).reserved } ∧
    ∀ j, j ≠ id → (s.takeOffer id o).ctx j = s.ctx j := by
  unfold State.takeOffer
  split
  · unfold State.reserve
    refine ⟨?_, fun j hj => ?_⟩
    · simp only [State.ctx_updCtx, if_true]
      split
      · simp only [updWindow_ctx]
      · rfl
    · simp only [State.ctx_updCtx, if_neg hj]
      split
      · simp only [updWindow_ctx]
      · rfl
  · exact ⟨rfl, fun _ _ => rfl⟩

theorem takeOffer_spec (s : State) (id : CtxId) (o : Option (BitVec 16 × Nat)) : Reserved s (s.takeOffer id o) id o := by
  refine ⟨fun d w ho => ?_, fun ho => ?_⟩
  · subst ho
    refine ⟨?_, ?_, fun p => ?_⟩
    · simp [State.takeOffer, State.reserve]
    · simp [State.takeOffer, State.reserve]
    · simp only [State.takeOffer, State.reserve]
      cases hp : s.windowPlace d w with
      | none => simp; rfl
      | some q =>
        show (s.updWindow q.1 q.2 _).windowAt p = _
        rw [windowAt_updWindow]
        simp only [Option.some.injEq, eq_comm]
  · subst ho; exact ⟨rfl, rfl, fun _ => rfl⟩

/-- Two states that agree on what the parts 5 to 7 of the decision step read and write for one context. -/
abbrev Alike (s s' : State) (id : CtxId) : Prop :=
  s'.dest.transit = s.dest.transit ∧ s'.dest.dests = s.dest.dests ∧ s'.cache = s.cache ∧
  (∀ i, s'.dayTable i = s.dayTable i) ∧ (s'.ctx id).visit = (s.ctx id).visit ∧
  (s'.ctx id).inTransit = (s.ctx id).inTransit ∧ (s'.ctx id).destination = (s.ctx id).destination ∧
  (s'.ctx id).links = (s.ctx id).links ∧ (s'.ctx id).reservation = (s.ctx id).reservation ∧
  (s'.ctx id).reserved = (s.ctx id).reserved

theorem alike_windows {s s' : State} {id : CtxId} (h : Alike s s' id) :
    (∀ p, s'.windowAt p = s.windowAt p) ∧ ∀ d w, s'.windowPlace d w = s.windowPlace d w := by
  obtain ⟨-, -, -, h, -⟩ := h
  refine ⟨fun p => ?_, fun d w => windowPlace_congr s s' (fun i => by rw [h]) d w⟩
  simp only [State.windowAt, h]

theorem alike_units {s s' : State} {id : CtxId} (h : Alike s s' id) :
    takesUnit s' = takesUnit s ∧ s'.targetHeld = s.targetHeld := by
  obtain ⟨-, -, h, -⟩ := h
  have e : s'.targetHeld = s.targetHeld := funext (targetHeld_congr s s' h)
  exact ⟨by funext l; unfold takesUnit; simp only [linkRecord_congr s s' h, e], e⟩

theorem routed_congr {s s' t t' : State} {id : CtxId} {dst} (h : Alike s s' id) (k : Alike t t' id)
    (r : Routed s t id dst) : Routed s' t' id dst := by
  have hd : s'.destAt = s.destAt := by funext y; simp only [State.destAt, h.2.1]
  have kd : t'.destAt = t.destAt := by funext y; simp only [State.destAt, k.2.1]
  obtain ⟨h1, h2, -, -, h5, h6, h7, -⟩ := h
  obtain ⟨k1, k2, -, -, k5, k6, k7, -⟩ := k
  simpa only [Routed, h1, h2, h5, h6, h7, k1, k2, k5, k6, k7, hd, kd] using r

theorem reserved_congr {s s' t t' : State} {id : CtxId} {o} (h : Alike s s' id) (k : Alike t t' id)
    (r : Reserved s t id o) : Reserved s' t' id o := by
  have hw := alike_windows h
  have kw := alike_windows k
  obtain ⟨-, -, -, -, -, -, -, -, h9, h10⟩ := h
  obtain ⟨-, -, -, -, -, -, -, -, k9, k10⟩ := k
  simpa only [Reserved, h9, h10, k9, k10, hw.1, hw.2, kw.1, kw.2] using r

theorem unitsTaken_congr {s s' t t' : State} {id : CtxId} {b} (h : Alike s s' id) (k : Alike t t' id)
    (r : UnitsTaken s t id b) : UnitsTaken s' t' id b := by
  have hw := alike_units h
  have kw := alike_units k
  obtain ⟨-, -, -, -, -, -, -, h8, -⟩ := h
  obtain ⟨-, -, -, -, -, -, -, k8, -⟩ := k
  simpa only [UnitsTaken, h8, k8, hw.1, hw.2, kw.2] using r

theorem alike_refl (s : State) (id : CtxId) : Alike s s id :=
  ⟨rfl, rfl, rfl, fun _ => rfl, rfl, rfl, rfl, rfl, rfl, rfl⟩

/-- What parts 6 and 7 may write of a context. -/
abbrev PartsOnly (s t : State) (id : CtxId) : Prop :=
  (t.ctx id = { s.ctx id with
    links := (t.ctx id).links, destination := (t.ctx id).destination, inTransit := (t.ctx id).inTransit
    reservation := (t.ctx id).reservation, reserved := (t.ctx id).reserved }) ∧
  (∀ j, j ≠ id → t.ctx j = { s.ctx j with inTransit := (t.ctx j).inTransit }) ∧ t.dest.defaults = s.dest.defaults

/-- The parts 6 and 7: a destination with its token where one is given, the units, the reservation. -/
theorem parts_spec (s : State) (id : CtxId) (dst : Option (Fin 64)) (o : Option (BitVec 16 × Nat)) (v : State)
    (hv : v = match dst with | some x => s.sendTo id x | none => s) (t : State)
    (ht : t = (v.takeUnits id).takeOffer id o) :
    Routed s t id dst ∧ Reserved s t id o ∧ UnitsTaken s t id true ∧ PartsOnly s t id ∧
    (dst = none → (t.ctx id).destination = (s.ctx id).destination) := by
  have fv : v.cache = s.cache ∧ v.slot = s.slot ∧ PartsOnly s v id ∧ Routed s v id dst ∧
      (v.ctx id).links = (s.ctx id).links ∧ (v.ctx id).reservation = (s.ctx id).reservation ∧
      (v.ctx id).reserved = (s.ctx id).reserved ∧ (dst = none → (v.ctx id).destination = (s.ctx id).destination) := by
    subst hv
    cases dst with
    | none => exact ⟨rfl, rfl, ⟨rfl, fun _ _ => rfl, rfl⟩, ⟨fun _ h => (nomatch h), fun _ => ⟨rfl, rfl, rfl⟩⟩, rfl, rfl, rfl, fun _ => rfl⟩
    | some x =>
      have h := sendTo_spec s id x
      refine ⟨by simp, by simp, ⟨?_, h.2.1, h.2.2.1⟩, ⟨fun y hy => ?_, fun h => (nomatch h)⟩, ?_, ?_, ?_, fun h => (nomatch h)⟩
      · simp only [h.1]
      · cases hy
        exact ⟨by rw [h.1], by rw [h.1], h.2.2.2⟩
      · simp only [h.1]
      · simp only [h.1]
      · simp only [h.1]
  obtain ⟨f1, f2, f3, f4, f5, f6, f7, f8⟩ := fv
  have hu := takeUnits_ctx v id
  have hus := takeUnits_spec v id
  generalize hU : v.takeUnits id = u at *
  have u2 : u.slot = v.slot := by rw [← hU]; simp
  have u3 : u.dest = v.dest := by rw [← hU]; simp
  have ho := takeOffer_ctx u id o
  have hos := takeOffer_spec u id o
  rw [← ht] at ho hos
  have t1 : t.cache = u.cache := by rw [ht]; simp
  have t3 : t.dest = u.dest := by rw [ht]; simp
  have c : (t.ctx id) = { v.ctx id with
      links := (u.ctx id).links, reservation := (t.ctx id).reservation, reserved := (t.ctx id).reserved } := by
    rw [ho.1, hu.1]
  refine ⟨?_, ?_, ?_, ⟨?_, fun j hj => ?_, ?_⟩, fun hn => ?_⟩
  · have hd : ∀ y, t.destAt y = v.destAt y := by intro y; simp only [State.destAt, t3, u3]
    refine ⟨fun x hx => ?_, fun hx => ?_⟩
    · obtain ⟨a, b, r⟩ := f4.1 x hx
      refine ⟨by rw [c]; exact a, by rw [c]; exact b, fun p q => ?_⟩
      obtain ⟨r1, r2⟩ := r p q
      exact ⟨by rw [t3, u3]; exact r1, fun y => by rw [hd]; exact r2 y⟩
    · obtain ⟨a, b, r⟩ := f4.2 hx
      exact ⟨by rw [c]; exact a, by rw [t3, u3]; exact b, by rw [t3, u3]; exact r⟩
  · have al : ∀ p, u.windowAt p = s.windowAt p := by
      intro p; simp only [State.windowAt]; have : ∀ i, u.dayTable i = s.dayTable i := by
        intro i; cases i <;> simp only [State.dayTable, u2, f2]
      rw [this]
    have ap : ∀ d w, u.windowPlace d w = s.windowPlace d w := windowPlace_congr s u (by
      intro i; cases i <;> simp only [State.dayTable, u2, f2])
    have r1 : (u.ctx id).reservation = (s.ctx id).reservation := by rw [hu.1]; exact f6
    have r2 : (u.ctx id).reserved = (s.ctx id).reserved := by rw [hu.1]; exact f7
    simpa only [Reserved, al, ap, r1, r2] using hos
  · have e1 : t.targetHeld = u.targetHeld := funext (targetHeld_congr u t t1)
    have e2 : v.targetHeld = s.targetHeld := funext (targetHeld_congr s v f1)
    have e3 : takesUnit v = takesUnit s := by
      funext l; unfold takesUnit; simp only [linkRecord_congr s v f1, e2]
    have e4 : (t.ctx id).links = (u.ctx id).links := by rw [c]
    simpa only [UnitsTaken, e1, e2, e3, e4, f5] using hus
  · rw [c, f3.1]
  · rw [ho.2 j hj, hu.2 j hj, f3.2.1 j hj]
  · rw [t3, u3, f3.2.2]
  · rw [c]; exact f8 hn

theorem moveTo_ctx (s : State) (id : CtxId) (st : CtxState) (j : CtxId) :
    (s.moveTo id st).ctx j = if j = id then { s.ctx id with state := st } else s.ctx j := by
  unfold State.moveTo
  dsimp only
  split
  · simp only [State.compose_frame, State.ctx_updCtx]
  · simp only [State.ctx_updCtx]

theorem issueTicket_ctx (s : State) (id j : CtxId) :
    (s.issueTicket id).ctx j = if j = id then { s.ctx id with flags := { (s.ctx id).flags with
      noTicket := ((s.issueTicket id).ctx id).flags.noTicket } } else s.ctx j := by
  have key : ∀ t : State, (∀ j, t.ctx j = if j = id then { s.ctx id with flags := { (s.ctx id).flags with
      noTicket := (t.ctx id).flags.noTicket } } else s.ctx j) → s.issueTicket id = t → 
      (s.issueTicket id).ctx j = if j = id then { s.ctx id with flags := { (s.ctx id).flags with
      noTicket := ((s.issueTicket id).ctx id).flags.noTicket } } else s.ctx j := by
    intro t h e; rw [e]; exact h j
  refine key _ ?_ rfl
  intro j
  unfold State.issueTicket
  dsimp only
  split
  · simp only [State.ctx_updCtx, if_true]
    split <;> rfl
  · split
    · simp only [State.ctx_updCtx, if_true]
      split <;> rfl
    · simp only [State.ctx_updStation, State.handOff_frame]
      split
      · rename_i h; subst h; rfl
      · rfl

theorem releaseTest_ctx (s : State) (id j : CtxId) :
    (s.releaseTest id).ctx j = if j = id then { s.ctx id with
      state := if (s.ctx id).state = .decided ∧ s.reads (s.ctx id).lane .barrierDown = true then .releasing else (s.ctx id).state }
      else s.ctx j := by
  unfold State.releaseTest
  split
  · rw [moveTo_ctx]
  · split
    · rename_i h; subst h; rfl
    · rfl

theorem enterDecided_ctx (s : State) (id j : CtxId) :
    (s.enterDecided id).ctx j = if j = id then { s.ctx id with
      state := if s.reads (s.ctx id).lane .barrierDown = true then .releasing else .decided
      flags := { (s.ctx id).flags with noTicket := ((s.enterDecided id).ctx id).flags.noTicket } }
      else s.ctx j := by
  have key : ∀ u : State, u.lanes = s.lanes → (∀ j, u.ctx j = if j = id then { s.ctx id with
      state := .decided, flags := { (s.ctx id).flags with noTicket := (u.ctx id).flags.noTicket } } else s.ctx j) →
      s.enterDecided id = u.releaseTest id →
      (s.enterDecided id).ctx j = if j = id then { s.ctx id with
      state := if s.reads (s.ctx id).lane .barrierDown = true then .releasing else .decided
      flags := { (s.ctx id).flags with noTicket := ((s.enterDecided id).ctx id).flags.noTicket } }
      else s.ctx j := by
    intro u hl hc e
    have hr : u.reads = s.reads := by
      funext l i; simp only [State.reads, State.lane, hl]
    have hid := hc id
    simp only [if_true] at hid
    rw [e]
    simp only [releaseTest_ctx, if_true]
    by_cases hj : j = id
    · simp only [hj, if_true]
      rw [hid]
      simp only [hr, true_and]
    · simp only [hj, if_false]
      rw [hc j]; simp only [hj, if_false]
  refine key _ ?_ ?_ rfl
  · split <;> simp
  · intro j
    split
    · rw [issueTicket_ctx]
      simp only [moveTo_ctx, if_true]
      by_cases hj : j = id <;> simp only [hj, if_true, if_false]
    · rw [moveTo_ctx]
      simp only [moveTo_ctx, if_true]

theorem enterReferred_ctx (s : State) (id j : CtxId) :
    (s.enterReferred id).ctx j = if j = id then { s.ctx id with
      state := .referred, rulingTimer := ((s.enterReferred id).ctx id).rulingTimer
      noticePending := ((s.enterReferred id).ctx id).noticePending } else s.ctx j := by
  have key : ∀ t : State, (∀ j, t.ctx j = if j = id then { s.ctx id with
      state := .referred, rulingTimer := (t.ctx id).rulingTimer, noticePending := (t.ctx id).noticePending } else s.ctx j) →
      s.enterReferred id = t → (s.enterReferred id).ctx j = if j = id then { s.ctx id with
      state := .referred, rulingTimer := ((s.enterReferred id).ctx id).rulingTimer
      noticePending := ((s.enterReferred id).ctx id).noticePending } else s.ctx j := by
    intro t h e; rw [e]; exact h j
  refine key _ ?_ rfl
  intro j
  unfold State.enterReferred State.noticeAccepted
  by_cases hr : (s.moveTo id .referred).roomA = true <;> by_cases hj : j = id <;> simp [hr, hj, moveTo_ctx]

/-! ### Pages and tickets -/

/-- R171: an offer writes the channel of its station alone. -/
theorem offerPage_station (s : State) (ix : StationIx) (p : Page) (j : StationIx) :
    (s.offerPage ix p).station j = { s.station j with channel := ((s.offerPage ix p).station j).channel } := by
  unfold State.offerPage
  split
  · rfl
  · split
    · rfl
    · split
      · unfold State.sendPage
        simp only [State.updChannel, State.station_updStation, State.handOff_frame]
        split
        · rename_i h; subst h; rfl
        · rfl
      · simp only [State.updChannel, State.station_updStation]
        split
        · rename_i h; subst h; rfl
        · rfl

theorem compose_station (s : State) (l : LaneId) (j : StationIx) :
    (s.compose l).station j = { s.station j with channel := ((s.compose l).station j).channel } := by
  unfold State.compose
  generalize s.page l = p
  generalize List.finRange 124 = L
  induction L generalizing s with
  | nil => rfl
  | cons a L ih =>
    simp only [List.foldl_cons]
    rw [ih]
    split
    · rw [offerPage_station]
    · rfl

theorem moveTo_station (s : State) (id : CtxId) (st : CtxState) (j : StationIx) :
    (s.moveTo id st).station j = { s.station j with channel := ((s.moveTo id st).station j).channel } := by
  unfold State.moveTo
  dsimp only
  split
  · exact compose_station _ _ j
  · rfl

/-- R175: the printer that the search finds. -/
theorem printerOf_spec (s : State) (l : LaneId) :
    (∀ ix, s.printerOf l = some ix ↔ PrinterOf s l ix) := by
  intro ix
  unfold State.printerOf PrinterOf
  dsimp only
  have e : ∀ j, ((s.station j).state != .empty && (s.station j).role == .printer && (s.station j).lane == l) = true ↔
      ((s.station j).state ≠ .empty ∧ (s.station j).role = .printer ∧ (s.station j).lane = l) := by
    intro j; simp [and_assoc]
  rw [List.find?_eq_some_iff_getElem]
  simp only [e]
  constructor
  · rintro ⟨h, i, hi, he, hb⟩
    refine ⟨h, fun j hj g => ?_⟩
    have hji : j.val < i := by
      have : (List.finRange 124)[i] = ix := he
      simp at this; subst this; exact hj
    have := hb j.val hji
    simp only [List.getElem_finRange] at this
    have f := (e j).mpr g
    rw [Bool.not_eq_true'] at this
    exact absurd (f.symm.trans this) (by decide)
  · rintro ⟨h, hb⟩
    refine ⟨h, ix.val, by simp, by simp, fun j hj => ?_⟩
    have := hb ⟨j, by omega⟩ hj
    simp only [List.getElem_finRange]
    by_contra g
    exact this ((e _).mp (by simpa using g))

theorem issueTicket_ticketed (s : State) (id : CtxId) : Ticketed s (s.issueTicket id) id := by
  have two : Config.ticketQueueSize = 2 := rfl
  have noPrinter : s.printerOf (s.ctx id).lane = none → s.issueTicket id =
      (s.countSigns fun k => { k with ticketsRefused := bump k.ticketsRefused }).updCtx id fun c =>
        { c with flags := { c.flags with noTicket := true } } := by
    intro h; unfold State.issueTicket; dsimp only; split
    · rfl
    · rename_i g; rw [h] at g; cases g
  have full : ∀ ix, s.printerOf (s.ctx id).lane = some ix → 2 ≤ (s.station ix).tickets.length → s.issueTicket id =
      (s.countSigns fun k => { k with ticketsRefused := bump k.ticketsRefused }).updCtx id fun c =>
        { c with flags := { c.flags with noTicket := true } } := by
    intro ix h k; unfold State.issueTicket; dsimp only; split
    · rfl
    · rename_i g; rw [h] at g; cases g; rw [two, if_pos k]
  have room : ∀ ix, s.printerOf (s.ctx id).lane = some ix → (s.station ix).tickets.length < 2 → s.issueTicket id =
      (s.handOff (segOf ix) (addrOf ix) .ticket (s.ticketPayload (s.ctx id))).1.updStation ix fun e =>
        { e with tickets := e.tickets ++ [⟨(s.ctx id).visit,
          (s.handOff (segOf ix) (addrOf ix) .ticket (s.ticketPayload (s.ctx id))).2, some s.params.ticketAck⟩] } := by
    intro ix h k; unfold State.issueTicket; dsimp only; split
    · rename_i g; rw [h] at g; cases g
    · rename_i g; rw [h] at g; cases g; rw [two, if_neg (by omega)]
  refine ⟨fun ix hp hl => ?_, fun hn => ?_⟩
  · rw [room ix ((printerOf_spec s _ ix).mpr hp) hl]
    refine ⟨by simp, _, by simp; rfl⟩
  · have e : s.issueTicket id = (s.countSigns fun k => { k with ticketsRefused := bump k.ticketsRefused }).updCtx id fun c =>
        { c with flags := { c.flags with noTicket := true } } := by
      cases h : s.printerOf (s.ctx id).lane with
      | none => exact noPrinter h
      | some ix => exact full ix h (hn ix ((printerOf_spec s _ ix).mp h))
    rw [e]
    exact ⟨by simp [State.countSigns], fun ix => rfl, rfl⟩

theorem enterDecided_ticketed (s : State) (id : CtxId) (h : (s.ctx id).decision = some .admitted ∨ (s.ctx id).decision = some .inspect) :
    Ticketed s (s.enterDecided id) id := by
  have hd : ((s.moveTo id .decided).ctx id).decision = some .admitted ∨ ((s.moveTo id .decided).ctx id).decision = some .inspect := by
    rw [moveTo_ctx, if_pos rfl]; exact h
  obtain ⟨u, hu⟩ : ∃ u : State, u = s.moveTo id .decided := ⟨_, rfl⟩
  have e : s.enterDecided id = (u.issueTicket id).releaseTest id := by
    unfold State.enterDecided
    simp only [← hu] at hd ⊢
    rw [if_pos hd]
  have us : ∀ j, u.station j = { s.station j with channel := (u.station j).channel } := by
    intro j; rw [hu]; exact moveTo_station s id _ j
  have uc : (u.ctx id) = { s.ctx id with state := .decided } := by rw [hu, moveTo_ctx, if_pos rfl]
  have up : u.params = s.params := by rw [hu]; simp
  have usg : u.signs = s.signs := by rw [hu]; simp
  have ts : ∀ j, ((s.enterDecided id).station j).tickets = ((u.issueTicket id).station j).tickets := by
    intro j; rw [e]; unfold State.releaseTest; split
    · rw [moveTo_station]
    · rfl
  have tc : ((s.enterDecided id).ctx id).flags = ((u.issueTicket id).ctx id).flags := by
    rw [e, releaseTest_ctx, if_pos rfl]
  have tsg : (s.enterDecided id).signs = (u.issueTicket id).signs := by rw [e]; simp
  have hp : ∀ l ix, PrinterOf u l ix ↔ PrinterOf s l ix := by
    intro l ix
    unfold PrinterOf
    dsimp only
    have : ∀ j, ((u.station j).state ≠ .empty ∧ (u.station j).role = .printer ∧ (u.station j).lane = l) ↔
      ((s.station j).state ≠ .empty ∧ (s.station j).role = .printer ∧ (s.station j).lane = l) := by
      intro j; rw [us j]
    simp only [this]
  have ut : ∀ j, (u.station j).tickets = (s.station j).tickets := by intro j; rw [us j]
  have K := issueTicket_ticketed u id
  unfold Ticketed at K ⊢
  simp only [ts, tc, tsg, ← ut, ← usg, ← up]
  rw [uc] at K
  simp only [hp] at K
  exact K
/-! ### Parts 5 to 7 -/

theorem chain_congr (s t : State) (h : t.dest.dests = s.dest.dests) (k : Option BookingKind) (n : Nat) (d : Fin 64) :
    t.chain k n d = s.chain k n d := by
  have e : t.destAt = s.destAt := by funext y; simp only [State.destAt, h]
  induction n generalizing d with
  | zero => simp only [State.chain, e]
  | succ n ih => simp only [State.chain, e, ih]

theorem findDest_congr (s t : State) (c d : Ctx) (h : t.dest.dests = s.dest.dests) (hd : t.dest.defaults = s.dest.defaults)
    (hc : t.cache = s.cache) (hl : d.links = c.links) (x : Decision) : t.findDest d x = s.findDest c x := by
  have e1 : t.firstRecord d = s.firstRecord c := by
    rw [firstRecord_congr s t hc]; simp only [State.firstRecord, hl]
  have e2 : t.chain = s.chain := by funext k n d; exact chain_congr s t h k n d
  have e3 : t.bookingKind d = s.bookingKind c := by simp only [State.bookingKind, e1]
  have e4 : t.admitStart d = s.admitStart c := by simp only [State.admitStart, e1, hd]
  cases x <;> simp only [State.findDest, e2, e3, e4, State.inspectStart, hd]

theorem reasonsOf_congr (s t : State) (c d : Ctx) (hc : t.cache = s.cache)
    (h : d = { c with flags := d.flags }) : t.reasonsOf d = s.reasonsOf c := by
  have e1 := linkRecord_congr s t hc
  have e2 := targetHeld_congr s t hc
  rw [h]
  simp only [State.reasonsOf, State.anyRecord, State.exhausted, e1, e2]
  rfl

theorem bookingKind_congr (s t : State) (c d : Ctx) (hc : t.cache = s.cache) (hl : d.links = c.links) :
    t.bookingKind d = s.bookingKind c := by
  unfold State.bookingKind
  rw [firstRecord_congr s t hc]
  simp only [State.firstRecord, hl]

/-- What parts 5 to 7 write of a context. -/
abbrev DecisionOnly (s t : State) (id : CtxId) : Prop :=
  (t.ctx id = { s.ctx id with
    decision := (t.ctx id).decision, reasons := (t.ctx id).reasons, flags := (t.ctx id).flags
    links := (t.ctx id).links, destination := (t.ctx id).destination, inTransit := (t.ctx id).inTransit
    reservation := (t.ctx id).reservation, reserved := (t.ctx id).reserved }) ∧
  (∀ j, j ≠ id → t.ctx j = { s.ctx j with inTransit := (t.ctx j).inTransit }) ∧ t.dest.defaults = s.dest.defaults

theorem decideProvisional_spec (s : State) (id : CtxId) :
    let t := s.decideProvisional id
    let bad := State.damageFails (s.ctx id)
    (t.ctx id).decision = some (if bad then .inspect else .admitted) ∧
    (t.ctx id).reasons = { bookingUnavailable := true, damage := bad } ∧
    (t.ctx id).flags = { (s.ctx id).flags with provisional := true } ∧
    Routed s t id (some (if bad then s.dest.defaults[4] else s.params.provisionalDest)) ∧ Reserved s t id none ∧
    UnitsTaken s t id true ∧ DecisionOnly s t id := by
  intro t bad
  obtain ⟨u, ha, hu, ho, hd, e⟩ : ∃ u : State, Alike u s id ∧ (u.ctx id = { s.ctx id with
      decision := some (if bad then .inspect else .admitted), reasons := { bookingUnavailable := true, damage := bad }
      flags := { (s.ctx id).flags with provisional := true } }) ∧ (∀ j, j ≠ id → u.ctx j = s.ctx j) ∧
      u.dest.defaults = s.dest.defaults ∧
      t = (u.sendTo id (if bad then s.dest.defaults[4] else s.params.provisionalDest)).takeUnits id := by
    refine ⟨(s.updCtx id fun c => { c with
      decision := some (if bad then .inspect else .admitted)
      reasons := { bookingUnavailable := true, damage := bad }
      flags := { c.flags with provisional := true } }).countDest fun k => { k with provisionals := bump k.provisionals },
      ?_, ?_, ?_, rfl, rfl⟩
    · refine ⟨rfl, rfl, rfl, fun i => by cases i <;> rfl, ?_⟩
      simp [State.countDest]
    · simp [State.countDest]
    · intro j hj; simp [State.countDest, hj]
  obtain ⟨h1, h2, h3, h4, -⟩ :=
    parts_spec u id (some (if bad then s.dest.defaults[4] else s.params.provisionalDest)) none _ rfl t e
  refine ⟨?_, ?_, ?_, routed_congr ha (alike_refl t id) h1, reserved_congr ha (alike_refl t id) h2,
    unitsTaken_congr ha (alike_refl t id) h3, ?_, fun j hj => ?_, ?_⟩
  · rw [h4.1, hu]
  · rw [h4.1, hu]
  · rw [h4.1, hu]
  · rw [h4.1, hu]
  · rw [h4.2.1 j hj, ho j hj]
  · rw [h4.2.2, hd]

theorem decideByTable_spec (s : State) (id : CtxId) (o : Option (BitVec 16 × Nat)) :
    let t := s.decideByTable id o
    let r := s.reasonsOf (s.ctx id)
    let first := State.decisionOf r (s.ctx id).slotResult
    let trouble := s.chain (s.bookingKind (s.ctx id)) 4 s.dest.defaults[5]
    (first = .turnOut →
      (t.ctx id).decision = some .turnOut ∧ (t.ctx id).reasons = r ∧ Routed s t id trouble ∧ Reserved s t id none ∧
      UnitsTaken s t id false ∧ (trouble = none → (t.ctx id).destination = some s.dest.defaults[5])) ∧
    (first = .refer →
      (t.ctx id).decision = some .refer ∧ (t.ctx id).reasons = r ∧ (t.ctx id).destination = (s.ctx id).destination ∧
      Routed s t id none ∧ Reserved s t id o ∧ UnitsTaken s t id true) ∧
    (first = .admitted ∨ first = .inspect →
      (∀ x, s.findDest (s.ctx id) first = some x →
        (t.ctx id).decision = some first ∧ (t.ctx id).reasons = r ∧ Routed s t id (some x) ∧ Reserved s t id o ∧
        UnitsTaken s t id true) ∧
      (s.findDest (s.ctx id) first = none →
        (t.ctx id).decision = some .refer ∧ (t.ctx id).reasons = { r with noDestination := true } ∧
        (t.ctx id).destination = (s.ctx id).destination ∧ Routed s t id none ∧ Reserved s t id o ∧
        UnitsTaken s t id true)) ∧
    (t.ctx id).flags = (s.ctx id).flags ∧ DecisionOnly s t id := by
  intro t r first trouble
  obtain ⟨u, hu⟩ : ∃ u : State, u = s.updCtx id fun c => { c with decision := some first, reasons := r } := ⟨_, rfl⟩
  have ha : ∀ (f : DestUnit → DestUnit) (g : Ctx → Ctx),
      (∀ d, (f d).transit = d.transit ∧ (f d).dests = d.dests) →
      (∀ c, ∃ x y, g c = { c with decision := x, reasons := y }) → Alike ((s.updCtx id g).updDest f) s id := by
    intro f g hf hg
    obtain ⟨x, y, h⟩ := hg (s.ctx id)
    refine ⟨(hf _).1.symm, (hf _).2.symm, rfl, fun i => by cases i <;> rfl, ?_⟩
    simp [h]
  have route : ∀ (x : Decision) (y : Reasons) (dst : Option (Fin 64)) (o : Option (BitVec 16 × Nat)) (f : DestUnit → DestUnit),
      (∀ d, (f d).transit = d.transit ∧ (f d).dests = d.dests ∧ (f d).defaults = d.defaults) →
      t = ((match dst with
        | some x' => (((s.updCtx id fun c => { c with decision := some x, reasons := y }).updDest f).sendTo id x')
        | none => ((s.updCtx id fun c => { c with decision := some x, reasons := y }).updDest f)).takeUnits id).takeOffer id o →
      (t.ctx id).decision = some x ∧ (t.ctx id).reasons = y ∧ Routed s t id dst ∧ Reserved s t id o ∧ UnitsTaken s t id true ∧
      (dst = none → (t.ctx id).destination = (s.ctx id).destination) ∧
      (t.ctx id).flags = (s.ctx id).flags ∧ DecisionOnly s t id := by
    intro x y dst o f hf e
    have al := ha f (fun c => { c with decision := some x, reasons := y }) (fun d => ⟨(hf d).1, (hf d).2.1⟩) (fun c => ⟨_, _, rfl⟩)
    obtain ⟨h1, h2, h3, h4, h5⟩ := parts_spec _ id dst o _ rfl t e
    have hc : (((s.updCtx id fun c => { c with decision := some x, reasons := y }).updDest f).ctx id) =
        { s.ctx id with decision := some x, reasons := y } := by simp
    refine ⟨by rw [h4.1, hc], by rw [h4.1, hc], routed_congr al (alike_refl t id) h1, reserved_congr al (alike_refl t id) h2,
      unitsTaken_congr al (alike_refl t id) h3, fun hn => by rw [h5 hn, hc], by rw [h4.1, hc], ?_, fun j hj => ?_, ?_⟩
    · rw [h4.1, hc]
    · rw [h4.2.1 j hj]; simp [hj]
    · rw [h4.2.2]; exact (hf _).2.2
  have te : t = (match (generalizing := false) first with
    | .turnOut => u.turnOutRoute id
    | .refer => (u.takeUnits id).takeOffer id o
    | .admitted | .inspect =>
      match u.findDest (u.ctx id) first with
      | some d => ((u.sendTo id d).takeUnits id).takeOffer id o
      | none => (((u.updCtx id fun c =>
            { c with decision := some .refer, reasons := { c.reasons with noDestination := true } }).countDest fun k =>
              { k with noDestination := bump k.noDestination }).takeUnits id).takeOffer id o) := by
    rw [hu]; rfl
  have hfd : ∀ x, u.findDest (u.ctx id) x = s.findDest (s.ctx id) x := by
    intro x; rw [hu]; exact findDest_congr s _ _ _ rfl rfl rfl (by simp) x
  have u2 : ∀ y : Reasons, ((u.updCtx id fun c =>
            { c with decision := some .refer, reasons := { c.reasons with noDestination := true } }).countDest fun k =>
              { k with noDestination := bump k.noDestination }) =
      ((s.updCtx id fun c => { c with decision := some .refer, reasons := { r with noDestination := true } }).updDest fun d =>
        { d with counters := { d.counters with noDestination := bump d.counters.noDestination } }) := by
    intro y
    rw [hu]
    simp only [State.countDest, State.updCtx, State.updDest, upd, Fin.getElem_fin, Vector.getElem_set_self, Vector.set_set]
  have u1 : u = (s.updCtx id fun c => { c with decision := some first, reasons := r }).updDest fun d => d := hu
  have fin : ∀ x : Decision, first = x → (x = .admitted ∨ x = .inspect) →
      (∀ d, s.findDest (s.ctx id) first = some d →
        (t.ctx id).decision = some first ∧ (t.ctx id).reasons = r ∧ Routed s t id (some d) ∧ Reserved s t id o ∧
        UnitsTaken s t id true) ∧
      (s.findDest (s.ctx id) first = none →
        (t.ctx id).decision = some .refer ∧ (t.ctx id).reasons = { r with noDestination := true } ∧
        (t.ctx id).destination = (s.ctx id).destination ∧ Routed s t id none ∧ Reserved s t id o ∧
        UnitsTaken s t id true) ∧
      (t.ctx id).flags = (s.ctx id).flags ∧ DecisionOnly s t id := by
    intro x hx hor
    have te' : t = (match u.findDest (u.ctx id) first with
      | some d => ((u.sendTo id d).takeUnits id).takeOffer id o
      | none => (((u.updCtx id fun c =>
            { c with decision := some .refer, reasons := { c.reasons with noDestination := true } }).countDest fun k =>
              { k with noDestination := bump k.noDestination }).takeUnits id).takeOffer id o) := by
      rcases hor with h | h <;> (rw [te]; simp only [hx, h])
    rw [hfd] at te'
    cases hd : s.findDest (s.ctx id) first with
    | some d =>
      simp only [hd] at te'
      rw [u1] at te'
      obtain ⟨h1, h2, h3, h4, h5, -, h7, h8⟩ := route first r (some d) o _ (fun _ => ⟨rfl, rfl, rfl⟩) te'
      refine ⟨fun d' hd' => ?_, fun h => (nomatch h), h7, h8⟩
      cases hd'; exact ⟨h1, h2, h3, h4, h5⟩
    | none =>
      simp only [hd] at te'
      rw [u2 r] at te'
      obtain ⟨h1, h2, h3, h4, h5, h6, h7, h8⟩ := route .refer { r with noDestination := true } none o
        (fun d => { d with counters := { d.counters with noDestination := bump d.counters.noDestination } }) (fun _ => ⟨rfl, rfl, rfl⟩) te'
      exact ⟨fun d' hd' => (nomatch hd'), fun _ => ⟨h1, h2, h6 rfl, h3, h4, h5⟩, h7, h8⟩
  cases hf : first with
  | admitted =>
    have h := fin .admitted hf (Or.inl rfl)
    rw [hf] at h
    exact ⟨fun h => (nomatch h), fun h => (nomatch h), fun _ => ⟨h.1, h.2.1⟩, h.2.2.1, h.2.2.2⟩
  | inspect =>
    have h := fin .inspect hf (Or.inr rfl)
    rw [hf] at h
    exact ⟨fun h => (nomatch h), fun h => (nomatch h), fun _ => ⟨h.1, h.2.1⟩, h.2.2.1, h.2.2.2⟩
  | refer =>
    simp only [hf] at te
    rw [u1] at te
    obtain ⟨h1, h2, h3, h4, h5, h6, h7, h8⟩ := route first r none o _ (fun _ => ⟨rfl, rfl, rfl⟩) te
    rw [hf] at h1
    exact ⟨fun h => (nomatch h), fun _ => ⟨h1, h2, h6 rfl, h3, h4, h5⟩, (fun h => by rcases h with h | h <;> cases h), h7, h8⟩
  | turnOut =>
    simp only [hf] at te
    have hk : u.chain (u.bookingKind (u.ctx id)) 4 u.dest.defaults[5] = trouble := by
      rw [bookingKind_congr s u (s.ctx id) (u.ctx id) (by rw [hu]; rfl) (by rw [hu]; simp),
        show u.dest.defaults[5] = s.dest.defaults[5] by rw [hu]; rfl]
      exact chain_congr s u (by rw [hu]; rfl) _ _ _
    have al : Alike u s id := by rw [u1]; exact ha _ _ (fun _ => ⟨rfl, rfl⟩) (fun c => ⟨_, _, rfl⟩)
    have uc : u.ctx id = { s.ctx id with decision := some first, reasons := r } := by rw [hu]; simp
    have uo : ∀ j, j ≠ id → u.ctx j = s.ctx j := by intro j hj; rw [hu]; simp [hj]
    have ud : u.dest = s.dest := by rw [hu]; rfl
    have te' : t = match (generalizing := false) trouble with
      | some d => u.sendTo id d
      | none => (u.updCtx id fun c => { c with destination := some u.troubleStart }).countDest fun k =>
        { k with tokensWithout := bump k.tokensWithout } := by
      rw [te]; unfold State.turnOutRoute
      simp only [State.troubleStart, Config.chainSteps, hk] <;> (generalize trouble = z; cases z <;> rfl)
    have uf : ∀ i, (u.updCtx id fun c => { c with destination := some u.troubleStart }).dayTable i = s.dayTable i := by
      intro i; rw [hu]; cases i <;> rfl
    cases htr : trouble with
    | some d =>
      simp only [htr] at te'
      have h := sendTo_spec u id d
      rw [← te'] at h
      have c : t.ctx id = { s.ctx id with decision := some first, reasons := r, destination := some d, inTransit := true } := by
        rw [h.1, uc]
      have t1 : t.cache = s.cache := by rw [te', hu]; simp
      have t2 : t.slot = s.slot := by rw [te', hu]; simp
      have t3 : ∀ i, t.dayTable i = s.dayTable i := by intro i; cases i <;> simp only [State.dayTable, t2]
      refine ⟨fun _ => ⟨by rw [c, hf], by rw [c], ⟨fun x hx => ?_, fun h => (nomatch h)⟩, ⟨fun _ _ h => (nomatch h), fun _ => ?_⟩, fun _ => ?_,
          fun h => (nomatch h)⟩,
        fun h => (nomatch h), (fun h => by rcases h with h | h <;> cases h), by rw [c], by rw [c], fun j hj => ?_, ?_⟩
      · cases hx
        refine ⟨by rw [c], by rw [c], fun a b => ?_⟩
        have k := h.2.2.2 (by rw [ud, uc]; exact a) (by rw [ud]; exact b)
        rw [ud, uc] at k
        refine ⟨k.1, fun y => ?_⟩
        rw [k.2 y]; simp only [State.destAt, ud]
      · refine ⟨by rw [c], by rw [c], fun p => ?_⟩
        simp only [State.windowAt, t3]
      · refine ⟨?_, fun l _ g _ => ?_⟩
        · rw [c]; simp
        · rw [targetHeld_congr s t t1]; simp
      · rw [h.2.1 j hj, uo j hj]
      · rw [h.2.2.1, ud]
    | none =>
      simp only [htr] at te'
      have c : t.ctx id = { s.ctx id with decision := some first, reasons := r, destination := some s.dest.defaults[5] } := by
        rw [te', hu]; simp [State.countDest, State.troubleStart]
      have t1 : t.cache = s.cache := by rw [te', hu]; rfl
      have t2 : t.slot = s.slot := by rw [te', hu]; rfl
      have t3 : ∀ i, t.dayTable i = s.dayTable i := by intro i; cases i <;> simp only [State.dayTable, t2]
      refine ⟨fun _ => ⟨by rw [c, hf], by rw [c], ⟨fun x hx => (nomatch hx), fun _ => ?_⟩, ⟨fun _ _ h => (nomatch h), fun _ => ?_⟩,
          fun _ => ?_, fun _ => by rw [c]⟩,
        fun h => (nomatch h), (fun h => by rcases h with h | h <;> cases h), by rw [c], by rw [c], fun j hj => ?_, ?_⟩
      · refine ⟨by rw [c], ?_, ?_⟩ <;> (rw [te', hu]; rfl)
      · refine ⟨by rw [c], by rw [c], fun p => ?_⟩
        simp only [State.windowAt, t3]
      · refine ⟨?_, fun l _ g _ => ?_⟩
        · rw [c]; simp
        · rw [targetHeld_congr s t t1]; simp
      · rw [te', hu]; simp [State.countDest, hj]
      · rw [te', hu]; rfl

theorem classify_congr (s t : State) (c d : Ctx) (prov : Bool) (hs : t.slot = s.slot) (hc : t.cache = s.cache)
    (hp : t.params = s.params) (hl : d.links = c.links) (ha : d.arrival = c.arrival) : t.classify d prov = s.classify c prov := by
  have hd : ∀ i, t.dayTable i = s.dayTable i := by intro i; cases i <;> simp only [State.dayTable, hs]
  have e1 : t.firstRecord d = s.firstRecord c := by
    rw [firstRecord_congr s t hc]; simp only [State.firstRecord, hl]
  have e2 : t.windowAt = s.windowAt := by funext p; simp only [State.windowAt, hd]
  have e3 : t.windowPlace = s.windowPlace := by
    funext x y; exact windowPlace_congr s t (fun i => by rw [hd]) x y
  have e4 : t.classOnTime = s.classOnTime := by funext x y; simp only [State.classOnTime, e2, e3]
  have e5 : t.classOther = s.classOther := by funext x y; simp only [State.classOther, e2, e3]
  unfold State.classify
  simp only [hs, ha, hp, e1, e4, e5]

theorem takeOffer_now (s : State) (id : CtxId) (o : Option (BitVec 16 × Nat)) : (s.takeOffer id o).now = s.now := by
  unfold State.takeOffer State.reserve
  split
  · dsimp only; split
    · rename_i p _; obtain ⟨i, w⟩ := p; cases i <;> rfl
    · rfl
  · rfl
theorem now_congr (s t : State) (h : t.slot = s.slot) : t.now = s.now := by simp only [State.now, h]
theorem decideProvisional_now (s : State) (id : CtxId) : (s.decideProvisional id).now = s.now := now_congr _ _ (by simp)
theorem decideByTable_now (s : State) (id : CtxId) (o : Option (BitVec 16 × Nat)) : (s.decideByTable id o).now = s.now := by
  unfold State.decideByTable
  dsimp only
  repeat' split
  all_goals first
    | (rw [takeOffer_now]; exact now_congr _ _ (by simp))
    | exact now_congr _ _ (by simp)

/-- R78, R79: finalisation leaves what parts 5 to 7 write. -/
theorem finaliseField_rest (p : Params) (c : Ctx) (n : FieldName) :
    (c.finaliseField p n).visit = c.visit ∧ (c.finaliseField p n).inTransit = c.inTransit ∧
    (c.finaliseField p n).destination = c.destination ∧ (c.finaliseField p n).links = c.links ∧
    (c.finaliseField p n).reservation = c.reservation ∧ (c.finaliseField p n).reserved = c.reserved := by
  unfold Ctx.finaliseField
  dsimp only
  split <;> cases n <;> exact ⟨rfl, rfl, rfl, rfl, rfl, rfl⟩
theorem finaliseField_lane (p : Params) (c : Ctx) (n : FieldName) :
    (c.finaliseField p n).lane = c.lane ∧ (c.finaliseField p n).flags.noTicket = c.flags.noTicket := by
  unfold Ctx.finaliseField
  dsimp only
  split <;> cases n <;> exact ⟨rfl, rfl⟩

theorem finalise_lane (p : Params) (c : Ctx) : (c.finalise p).lane = c.lane := by
  simp only [Ctx.finalise, finaliseField_lane]

theorem finalise_noTicket (p : Params) (c : Ctx) : (c.finalise p).flags.noTicket = c.flags.noTicket := by
  simp only [Ctx.finalise, finaliseField_lane]

theorem finalise_rest (p : Params) (c : Ctx) :
    (c.finalise p).visit = c.visit ∧ (c.finalise p).inTransit = c.inTransit ∧ (c.finalise p).destination = c.destination ∧
    (c.finalise p).links = c.links ∧ (c.finalise p).reservation = c.reservation ∧ (c.finalise p).reserved = c.reserved := by
  simp only [Ctx.finalise, finaliseField_rest, and_self]

/-- R53, R149: what the test of a context in LOOKUP with no PENDING link makes. -/
theorem decideTest_decides (s : State) (id : CtxId) (h1 : (s.ctx id).state = .lookup)
    (h2 : (s.ctx id).links.all (·.state != .pending) = true) : Decides s (s.decideTest id) id := by
  unfold Decides
  intro c
  have hc : c = (s.ctx id).finalise s.params := rfl
  clear_value c
  intro prov v d r first offer trouble
  -- the checks and the classification
  obtain ⟨q, hq⟩ : ∃ q : State, q = (put s id c s.check.counters).runChecks id prov := ⟨_, rfl⟩
  obtain ⟨F, hF⟩ : ∃ F : CtxFlags, F = { c.flags with
            lengthFromBooking := c.flags.lengthFromBooking || (gradedGeometry s c .fwd).any (·.fromBooking) ||
              (gradedGeometry s c .aft).any (·.fromBooking)
            orientationAssumed := c.flags.orientationAssumed || (gradedGeometry s c .fwd).any (·.assumed) ||
              (gradedGeometry s c .aft).any (·.assumed) } := ⟨_, rfl⟩
  obtain ⟨K, hK⟩ : ∃ K : CheckCounters, K = { countSeal (countSeal s.check.counters (s.sealOf c .fwd)) (s.sealOf c .aft) with
          clamps := bumpBy s.check.counters.clamps (clampsOf s c .fwd + clampsOf s c .aft)
          inspections := bumpBy s.check.counters.inspections
            ((if (damageOf s c prov .fwd).result = .inspect then 1 else 0) +
              if (damageOf s c prov .aft).result = .inspect then 1 else 0) } := ⟨_, rfl⟩
  have hq0 := hq
  rw [runChecks_put, ← hF, ← hK] at hq
  obtain ⟨u, hu⟩ : ∃ u : State, u = (q.classifyStep id prov).1 := ⟨_, rfl⟩
  have hcl : q.classify (q.ctx id) prov = s.classify c prov := by
    rw [hq]; exact classify_congr s _ c _ prov rfl rfl rfl (by rw [put_ctx]) (by rw [put_ctx])
  have uctx : u.ctx id = { v with flags := F } := by
    rw [hu]; unfold State.classifyStep
    simp only [hcl]
    have : ∀ w : State, (if (s.classify c prov).1.refuses = true then
        w.countSlot fun k => { k with refusals := bump k.refusals } else w).ctx id = w.ctx id := by
      intro w; split <;> rfl
    rw [this, State.ctx_updCtx, if_pos rfl, hq, put_ctx]
    rfl
  have uoth : ∀ j, j ≠ id → u.ctx j = s.ctx j := by
    intro j hj
    rw [hu]; unfold State.classifyStep
    simp only [hcl]
    have : ∀ w : State, (if (s.classify c prov).1.refuses = true then
        w.countSlot fun k => { k with refusals := bump k.refusals } else w).ctx j = w.ctx j := by
      intro w; split <;> rfl
    rw [this, State.ctx_updCtx, if_neg hj, hq]
    have : id.val ≠ j.val := fun e => hj (Fin.ext e.symm)
    simp [put, State.ctx, this]
  have uday : ∀ i, u.dayTable i = s.dayTable i := by
    intro i
    rw [hu]; unfold State.classifyStep
    simp only [hcl]
    have : ∀ w : State, (if (s.classify c prov).1.refuses = true then
        w.countSlot fun k => { k with refusals := bump k.refusals } else w).dayTable i = w.dayTable i := by
      intro w; split <;> cases i <;> rfl
    rw [this, hq]; cases i <;> rfl
  have unow : u.now = s.now := by
    rw [hu]; unfold State.classifyStep
    simp only [hcl]
    have : ∀ w : State, (if (s.classify c prov).1.refuses = true then
        w.countSlot fun k => { k with refusals := bump k.refusals } else w).now = w.now := by
      intro w; split <;> rfl
    rw [this, hq]; rfl
  have ucache : u.cache = s.cache := by rw [hu, hq]; simp [put]
  have udest : u.dest = s.dest := by rw [hu, hq]; simp [put]
  have ulanes : u.lanes = s.lanes := by rw [hu, hq]; simp [put]
  have uparams : u.params = s.params := by rw [hu, hq]; simp [put]
  have ucheck : u.check = { s.check with counters := K } := by rw [hu, hq]; simp [put]
  have ual : Alike u s id := by
    refine ⟨by rw [udest], by rw [udest], by rw [ucache], fun i => (uday i).symm, ?_⟩
    rw [uctx]
    have f := finalise_rest s.params (s.ctx id)
    rw [← hc] at f
    exact ⟨f.1.symm, f.2.1.symm, f.2.2.1.symm, f.2.2.2.1.symm, f.2.2.2.2.1.symm, f.2.2.2.2.2.symm⟩
  -- parts 5 to 7
  obtain ⟨p, hp⟩ : ∃ p : State, p = if prov then u.decideProvisional id else u.decideByTable id (s.classify c prov).2 := ⟨_, rfl⟩
  have pcheck : p.check = u.check := by rw [hp]; split <;> simp
  have planes : p.lanes = u.lanes := by rw [hp]; split <;> simp
  have pparams : p.params = u.params := by rw [hp]; split <;> simp
  have pnow : p.now = s.now := by
    rw [hp, ← unow]; split
    · exact decideProvisional_now u id
    · exact decideByTable_now u id _
  obtain ⟨w, hw⟩ : ∃ w : State, w = p.updCtx id fun c => { c with decisionMinute := some p.now } := ⟨_, rfl⟩
  have hdec : s.decisionStep id = w := by
    have a1 : s.updCtx id (Ctx.finalise s.params) = put s id c s.check.counters := by rw [hc]; rfl
    have a2 : (put s id c s.check.counters).provisional c = prov := rfl
    have a3 : (q.classifyStep id prov).2 = (s.classify c prov).2 := congrArg Prod.snd hcl
    unfold State.decisionStep
    dsimp only
    rw [a1, put_ctx, a2, ← hq0, a3, ← hu, ← hp, hw]
  have wctx : w.ctx id = { p.ctx id with decisionMinute := some s.now } := by rw [hw, ← pnow]; simp
  have woth : ∀ j, j ≠ id → w.ctx j = p.ctx j := by intro j hj; rw [hw]; simp [hj]
  have wlanes : w.lanes = s.lanes := by rw [hw, ← ulanes, ← planes]; rfl
  obtain ⟨t, ht⟩ : ∃ t : State, t = s.decideTest id := ⟨_, rfl⟩
  have hte : t = if (w.ctx id).decision = some .refer then w.enterReferred id else w.enterDecided id := by
    rw [ht]; unfold State.decideTest; rw [if_pos ⟨h1, h2⟩, hdec]
  have hd : d = t.ctx id := by rw [ht]
  clear_value d
  subst hd
  rw [← ht]
  -- what the entry leaves
  have e1 : t.cache = p.cache := by rw [hte]; split <;> (simp [hw])
  have e2 : t.slot = p.slot := by rw [hte]; split <;> (simp [hw])
  have e3 : t.dest = p.dest := by rw [hte]; split <;> (simp [hw])
  have e4 : t.lanes = s.lanes := by rw [hte, ← wlanes]; split <;> simp
  have e5 : t.check = { s.check with counters := K } := by
    rw [hte, ← ucheck, ← pcheck]; split <;> (simp [hw])
  have e6 : t.params = s.params := by rw [hte, ← uparams, ← pparams]; split <;> (simp [hw])
  have tctx : t.ctx id = { p.ctx id with
      decisionMinute := some s.now
      state := if (p.ctx id).decision = some .refer then .referred
        else if s.reads (p.ctx id).lane .barrierDown then .releasing else .decided
      flags := { (p.ctx id).flags with noTicket := (t.ctx id).flags.noTicket }
      rulingTimer := (t.ctx id).rulingTimer, noticePending := (t.ctx id).noticePending } := by
    have hr : w.reads = s.reads := by funext l i; simp only [State.reads, State.lane, wlanes]
    have dw : (w.ctx id).decision = (p.ctx id).decision := by rw [wctx]
    by_cases hd : (p.ctx id).decision = some .refer
    · rw [hte, if_pos (dw.trans hd), enterReferred_ctx, if_pos rfl, if_pos hd, wctx]
    · rw [hte, if_neg (fun h => hd (dw.symm.trans h)), enterDecided_ctx, if_pos rfl, if_neg hd, wctx, hr]
  have toth : ∀ j, j ≠ id → t.ctx j = p.ctx j := by
    intro j hj
    rw [hte]; split
    · rw [enterReferred_ctx, if_neg hj, woth j hj]
    · rw [enterDecided_ctx, if_neg hj, woth j hj]
  have pal : Alike p t id := by
    refine ⟨by rw [e3], by rw [e3], by rw [e1], fun i => by cases i <;> simp only [State.dayTable, e2], ?_⟩
    rw [tctx]
    exact ⟨rfl, rfl, rfl, rfl, rfl, rfl⟩
  have only : DecisionOnly u p id := by
    rw [hp]; split
    · exact (decideProvisional_spec u id).2.2.2.2.2.2
    · exact (decideByTable_spec u id _).2.2.2.2
  have pc := only.1
  rw [uctx] at pc
  have fl : (p.ctx id).flags = { F with provisional := F.provisional || prov } := by
    rw [hp]; split
    · rename_i hpr
      rw [(decideProvisional_spec u id).2.2.1, uctx, hpr, Bool.or_true]
    · rename_i hpr
      rw [(decideByTable_spec u id _).2.2.2.1, uctx, show prov = false by simpa using hpr, Bool.or_false]
  have udec : (u.dest.defaults = s.dest.defaults) := by rw [udest]
  have rr : u.reasonsOf (u.ctx id) = r := reasonsOf_congr s u v _ ucache (by rw [uctx])
  have usr : (u.ctx id).slotResult = v.slotResult := by rw [uctx]
  have tdef : t.dest.defaults = s.dest.defaults := by rw [e3, only.2.2, udec]
  have ulk : (u.ctx id).links = v.links := by rw [uctx]
  refine ⟨?_, ?_, ?_, ?_, ?_, ?_, ?_, ?_, ?_, ?_, ?_, ?_, ?_, ?_, ?_, ?_, ?_, ?_, ?_, ?_, ?_, ?_, ?_, ?_, e4, ?_, tdef, e6, ?_⟩
  · rw [tctx, pc]; rfl
  · rw [tctx, pc]; rfl
  · rw [tctx, pc]; rfl
  · rw [tctx, pc]; rfl
  · rw [tctx, pc]; rfl
  · rw [tctx, pc]; rfl
  · rw [tctx, pc]; rfl
  · rw [tctx, pc]; rfl
  · rw [tctx, pc]; rfl
  · rw [tctx, pc]; rfl
  · rw [tctx, pc]; rfl
  · rw [tctx, pc]; rfl
  · rw [tctx, pc]
  · rw [tctx, pc]
  · rw [tctx, pc]
  · rw [tctx]
  · refine (congrArg Ctx.flags tctx).trans ?_
    show ({ (p.ctx id).flags with noTicket := (t.ctx id).flags.noTicket } : CtxFlags) = _
    rw [fl, hF]
  · have hl : (p.ctx id).lane = c.lane := by rw [pc]; rfl
    rw [tctx]
    show (if (p.ctx id).decision = some .refer then _ else if s.reads (p.ctx id).lane .barrierDown = true then _ else _) = _
    rw [hl]
  · intro hpr bad
    rw [if_pos hpr] at hp
    obtain ⟨g1, g2, -, g4, g5, g6, -⟩ := decideProvisional_spec u id
    rw [← hp] at g1 g2 g4 g5 g6
    have hb : State.damageFails (u.ctx id) = bad := by rw [uctx]; rfl
    rw [hb, udec, uparams] at g4
    rw [hb] at g1 g2
    exact ⟨by rw [tctx]; exact g1, by rw [tctx]; exact g2, routed_congr ual pal g4, reserved_congr ual pal g5,
      unitsTaken_congr ual pal g6⟩
  · intro hpr hfirst
    rw [if_neg (by rw [hpr]; simp)] at hp
    obtain ⟨g, -⟩ := decideByTable_spec u id (s.classify c prov).2
    rw [← hp] at g
    obtain ⟨g1, g2, g3, g4, g5, g6⟩ := g (by rw [rr, usr]; exact hfirst)
    have htr : u.chain (u.bookingKind (u.ctx id)) 4 u.dest.defaults[5] = trouble := by
      rw [bookingKind_congr s u c (u.ctx id) ucache (by rw [ulk]; rfl)]
      rw [show u.dest.defaults[5] = s.dest.defaults[5] by rw [udest]]
      exact chain_congr s u (by rw [udest]) _ _ _
    rw [htr] at g3 g6
    rw [rr] at g2
    refine ⟨by rw [tctx]; exact g1, by rw [tctx]; exact g2, routed_congr ual pal g3, reserved_congr ual pal g4,
      unitsTaken_congr ual pal g5, fun h => ?_⟩
    rw [tctx, ← udec]; exact g6 h
  · intro hpr hfirst
    rw [if_neg (by rw [hpr]; simp)] at hp
    obtain ⟨-, g, -⟩ := decideByTable_spec u id (s.classify c prov).2
    rw [← hp] at g
    obtain ⟨g1, g2, g3, g4, g5, g6⟩ := g (by rw [rr, usr]; exact hfirst)
    rw [rr] at g2
    refine ⟨by rw [tctx]; exact g1, by rw [tctx]; exact g2, ?_, routed_congr ual pal g4, reserved_congr ual pal g5,
      unitsTaken_congr ual pal g6⟩
    rw [tctx]; exact g3.trans (by rw [uctx]; rfl)
  · intro hpr hfirst
    rw [if_neg (by rw [hpr]; simp)] at hp
    obtain ⟨-, -, g, -⟩ := decideByTable_spec u id (s.classify c prov).2
    rw [← hp] at g
    have hfd : u.findDest (u.ctx id) first = s.findDest v first :=
      findDest_congr s u v (u.ctx id) (by rw [udest]) udec ucache ulk first
    have g := g (by rw [rr, usr]; exact hfirst)
    rw [rr, usr] at g
    refine ⟨fun x hx => ?_, fun hx => ?_⟩
    · obtain ⟨g1, g2, g3, g4, g5⟩ := g.1 x (hfd.trans hx)
      exact ⟨by rw [tctx]; exact g1, by rw [tctx]; exact g2, routed_congr ual pal g3, reserved_congr ual pal g4,
        unitsTaken_congr ual pal g5⟩
    · obtain ⟨g1, g2, g3, g4, g5, g6⟩ := g.2 (hfd.trans hx)
      refine ⟨by rw [tctx]; exact g1, by rw [tctx]; exact g2, ?_, routed_congr ual pal g4, reserved_congr ual pal g5,
        unitsTaken_congr ual pal g6⟩
      rw [tctx]; exact g3.trans (by rw [uctx]; rfl)
  · rw [e5, hK]; rfl
  · intro h
    have hd : (p.ctx id).decision = some .admitted ∨ (p.ctx id).decision = some .inspect := by
      rw [tctx] at h; exact h
    have dw : (w.ctx id).decision = (p.ctx id).decision := by rw [wctx]
    have hn : ¬ (w.ctx id).decision = some .refer := by
      rw [dw]; rcases hd with g | g <;> (rw [g]; simp)
    have K := enterDecided_ticketed w id (by rw [dw]; exact hd)
    rw [if_neg hn] at hte
    rw [← hte] at K
    have pst : p.stations = u.stations := by rw [hp]; split <;> simp
    have wst : w.station = s.station := by
      funext j
      have : w.stations = s.stations := by rw [hw, State.updCtx_stations, pst, hu, hq]; simp [put]
      simp only [State.station, this]
    have wsg : w.signs = s.signs := by
      have psg : p.signs = u.signs := by rw [hp]; split <;> simp
      rw [hw, State.updCtx_signs, psg, hu, hq]; simp [put]
    have wpr : w.params = s.params := by rw [hw, State.updCtx_params, pparams, uparams]
    have wl : (w.ctx id).lane = (s.ctx id).lane := by
      rw [wctx, pc]; show c.lane = _; rw [hc]; exact finalise_lane s.params (s.ctx id)
    have wv : (w.ctx id).visit = (s.ctx id).visit := by
      rw [wctx, pc]; show c.visit = _; rw [hc]; exact (finalise_rest s.params (s.ctx id)).1
    have wf : (w.ctx id).flags.noTicket = (s.ctx id).flags.noTicket := by
      rw [wctx]; show (p.ctx id).flags.noTicket = _
      rw [fl, hF]; show c.flags.noTicket = _; rw [hc]; exact finalise_noTicket s.params (s.ctx id)
    unfold Ticketed PrinterOf at K ⊢
    simp only [wst, wsg, wpr, wl, wv, wf] at K
    exact K
  · rw [e5]
  · intro j hj
    rw [toth j hj, only.2.1 j hj, uoth j hj]

end Sys2Proof.Laws
end

