-- ==== Sys2Proof/Laws/Reports.lean ====
section
/-! SUPPORT. The reports of the cache (R96, R180, R181): what making one can do, said once with `reportsMade` of Safety.lean, for
a report queue with room and for one without. -/

open Sys2Proof.Machine Sys2Proof.Safety
namespace Sys2Proof.Laws

theorem cacheMade_nil (n : Nat) (u : Uplink) : cacheMade n u [] = u := by simp [cacheMade]

theorem reportsMade_nil (s : State) : reportsMade s [] = s := by simp [reportsMade, cacheMade_nil]

/-- R96: a report made is accepted at once where the cache owes none and a class A report is. -/
theorem room_iff (s : State) : (s.cache.sendOrder.isEmpty && s.roomA) = true ↔ 0 < cacheRoom s := by
  unfold cacheRoom State.roomA
  rw [Bool.and_eq_true, Bool.and_eq_true, List.isEmpty_iff, List.isEmpty_iff, decide_eq_true_iff, Config.reportQueueSize]
  split <;> rename_i h
  · exact ⟨fun g => by omega, fun g => ⟨h.1, by omega, h.2⟩⟩
  · exact ⟨fun g => absurd ⟨g.1, g.2.2⟩ h, fun g => absurd g (Nat.lt_irrefl 0)⟩

theorem cacheRoom_of (s t : State) (h1 : t.cache.sendOrder = s.cache.sendOrder) (h2 : t.uplink.waiters = s.uplink.waiters)
    (h3 : t.uplink.queue = s.uplink.queue) : cacheRoom t = cacheRoom s := by
  unfold cacheRoom; rw [h1, h2, h3]

theorem mem_waiting (u : Uplink) (w : Waiter) : (waiting u w).waiters ≠ [] := by
  unfold waiting
  split
  · rename_i h; intro e; rw [e] at h; simp at h
  · simp

/-- The room that is left once reports are made. -/
theorem cacheRoom_made (s : State) (os : List (Owed × Report)) : cacheRoom (reportsMade s os) = cacheRoom s - os.length := by
  cases os with
  | nil => rw [reportsMade_nil]; simp
  | cons o os =>
    obtain ⟨n, hn⟩ : ∃ n, n = cacheRoom s := ⟨_, rfl⟩
    by_cases h : s.cache.sendOrder = [] ∧ s.uplink.waiters = []
    · have e : cacheRoom s = 64 - s.uplink.queue.length := by unfold cacheRoom; rw [if_pos h]
      by_cases g : (o :: os).length ≤ cacheRoom s
      · unfold cacheRoom
        have hs : (reportsMade s (o :: os)).cache.sendOrder = [] := by
          show s.cache.sendOrder ++ _ = []
          rw [h.1, List.nil_append, List.drop_eq_nil_iff]; simpa using g
        have hu : (reportsMade s (o :: os)).uplink =
            { s.uplink with queue := s.uplink.queue ++ ((o :: os).map (·.2)).map fun x => ⟨x, none⟩ } := by
          show cacheMade _ _ _ = _
          unfold cacheMade
          rw [if_pos (by simpa using g), List.take_of_length_le (by simpa using g)]
        rw [hs, hu, if_pos ⟨rfl, h.2⟩, if_pos h]
        simp only [List.length_append, List.length_map]
        omega
      · have hs : (reportsMade s (o :: os)).cache.sendOrder ≠ [] := by
          show s.cache.sendOrder ++ _ ≠ []
          rw [h.1, List.nil_append]
          intro q
          rw [List.drop_eq_nil_iff] at q
          exact g (by simpa using q)
        conv_lhs => unfold cacheRoom
        rw [if_neg (fun q => hs q.1)]
        omega
    · have e : cacheRoom s = 0 := by unfold cacheRoom; rw [if_neg h]
      have hu : (reportsMade s (o :: os)).uplink.waiters ≠ [] := by
        show (cacheMade _ _ _).waiters ≠ []
        unfold cacheMade
        rw [e, if_neg (by simp)]
        exact mem_waiting _ _
      conv_lhs => unfold cacheRoom
      rw [if_neg (fun q => hu q.2), e, Nat.zero_sub]

theorem waiting_twice (u : Uplink) (w : Waiter) (q : List QueuedReport) :
    waiting { waiting u w with queue := q } w = waiting { u with queue := q } w := by
  unfold waiting; split <;> simp_all

theorem cacheMade_append (n : Nat) (u : Uplink) (xs ys : List Report) :
    cacheMade (n - xs.length) (cacheMade n u xs) ys = cacheMade n u (xs ++ ys) := by
  unfold cacheMade
  dsimp only
  by_cases h : xs.length ≤ n
  · rw [if_pos h]
    dsimp only
    have e : (xs ++ ys).take n = xs ++ ys.take (n - xs.length) := by rw [List.take_append, List.take_of_length_le h]
    rw [e, List.take_of_length_le h]
    by_cases g : ys.length ≤ n - xs.length
    · rw [if_pos g, if_pos (by simp; omega)]; simp
    · rw [if_neg g, if_neg (by simp; omega)]; simp
  · rw [if_neg h]
    have e : (xs ++ ys).take n = xs.take n := List.take_append_of_le_length (by omega)
    rw [e, if_neg (show ¬ (xs ++ ys).length ≤ n by simp; omega), show n - xs.length = 0 by omega]
    simp only [List.take_zero, List.map_nil, List.append_nil]
    cases ys with
    | nil => rfl
    | cons y ys =>
      rw [if_neg (by simp)]
      unfold waiting; split <;> simp_all

/-- Reports made after others are the one list of reports made. -/
theorem reportsMade_append (s : State) (xs ys : List (Owed × Report)) :
    reportsMade (reportsMade s xs) ys = reportsMade s (xs ++ ys) := by
  conv_lhs => rw [reportsMade, cacheRoom_made]
  unfold reportsMade
  dsimp only
  congr 1
  · rw [List.append_assoc, List.map_append, List.drop_append, List.length_map]
  · rw [List.map_append, ← cacheMade_append, List.length_map]

/-- R96: a report made without room joins the send order. -/
theorem make_waits (w : Work) (o : Owed) (x : Report) (h : cacheRoom w.st = 0) :
    w.make o = { w with st := reportsMade w.st [(o, x)] } := by
  unfold Work.make
  rw [if_neg (by rw [room_iff, h]; simp)]
  unfold Work.upd reportsMade cacheMade
  dsimp only
  rw [h, wait_eq]
  simp [State.updCache]

/-- R96: a report made with room is accepted at once. -/
theorem make_room (w : Work) (o : Owed) (h : 0 < cacheRoom w.st) : w.make o = w.acceptOwed o := by
  unfold Work.make
  rw [if_pos ((room_iff _).2 h)]

theorem accept_eq (s : State) (o : Owed) (x : Report) (h : 0 < cacheRoom s) : s.accept x = reportsMade s [(o, x)] := by
  obtain ⟨n, hn⟩ : ∃ n, cacheRoom s = n + 1 := ⟨cacheRoom s - 1, by omega⟩
  unfold reportsMade cacheMade State.accept State.updUplink
  rw [hn]
  simp

theorem setSlot_same (s : State) (i : Fin 16) (f : Fetch) (h : s.cache.slots[i] = some f) : s.setSlot i (some f) = s := by
  have e : s.cache.slots.set i (some f) = s.cache.slots := by rw [← h]; simp
  show { s with cache := { s.cache with slots := s.cache.slots.set i (some f) } } = s
  rw [e]

/-- R94, R96: the BOOKING_FETCH of a slot, made. -/
theorem make_fetch (w : Work) (i : Fin 16) (f : Fetch) (h : w.st.cache.slots[i] = some f) :
    w.make (.fetch i) = { w with
      st := (reportsMade w.st [(.fetch i, .bookingFetch f.key f.tag)]).setSlot i (some (if 0 < cacheRoom w.st then { f with phase := .sent, timer := some w.st.params.fetchTimeout } else f)) } := by
  by_cases g : 0 < cacheRoom w.st
  · rw [make_room _ _ g, if_pos g]
    unfold Work.acceptOwed
    simp only [h, Work.upd]
    rw [accept_eq _ (.fetch i) _ g]
  · rw [make_waits _ _ (.bookingFetch f.key f.tag) (by omega), if_neg g]
    congr 1
    exact (setSlot_same (reportsMade w.st _) i f h).symm

/-- R92, R96: the BOOKING_WRITEBACK of a castout, made. -/
theorem make_castout (w : Work) (i : Fin 16) (f : Fetch) (r : Record) (h : w.st.cache.slots[i] = some f)
    (hc : f.castout = some r) :
    w.make (.castout i) = { w with
      st := (reportsMade w.st [(.castout i, .bookingWriteback r)]).setSlot i (some (if 0 < cacheRoom w.st then { f with castout := none, phase := .fetchOwed } else f)) } := by
  by_cases g : 0 < cacheRoom w.st
  · rw [make_room _ _ g, if_pos g]
    unfold Work.acceptOwed
    simp only [h, hc, Work.upd]
    rw [accept_eq _ (.castout i) _ g]
  · rw [make_waits _ _ (.bookingWriteback r) (by omega), if_neg g]
    congr 1
    exact (setSlot_same (reportsMade w.st _) i f h).symm

/-- R108: the RECALL_DONE of a key, made: accepted, it takes the records of the key out of the recall table. -/
theorem make_recallDone (w : Work) (key : Text) (released : Bool) :
    w.make (.recallDone key released) = { w with
      st := (reportsMade w.st [recallDone key released]).updCache fun c => { c with recalls := if 0 < cacheRoom w.st then c.recalls.filter (·.key != key) else c.recalls } } := by
  unfold recallDone
  by_cases g : 0 < cacheRoom w.st
  · rw [make_room _ _ g]
    simp only [if_pos g]
    unfold Work.acceptOwed
    simp only [Work.upd]
    rw [accept_eq _ (.recallDone key released) _ g]
  · rw [make_waits _ _ (.recallDone key released) (by omega)]
    simp only [if_neg g]
    rfl

/-- R96, R105: the BOOKING_UPDATE or BOOKING_WRITEBACK of an entry that is pinned or under no recall, made: accepted, it leaves the
entry clean and owing nothing. -/
theorem make_entry (w : Work) (i : Fin 1024) (y : Fin 2) (r : Record) (h : (w.st.entry i y).record = some r)
    (hq : Work.unpinnedRecall (w.st.entry i y) = false) (o : Owed) (x : Report)
    (ho : (o = .update i y ∧ x = .bookingUpdate r) ∨ (o = .writeback i y ∧ x = .bookingWriteback r)) :
    w.make o = { w with
      st := if 0 < cacheRoom w.st then (reportsMade w.st [(o, x)]).updEntry i y fun e => { e with owed := .none, dirty := false }
        else reportsMade w.st [(o, x)] } := by
  by_cases g : 0 < cacheRoom w.st
  · rw [make_room _ _ g, if_pos g, ← accept_eq _ o _ g]
    rcases ho with ⟨rfl, rfl⟩ | ⟨rfl, rfl⟩ <;>
    · unfold Work.acceptOwed Work.acceptEntry
      simp only [h, hq]
      rfl
  · rw [make_waits _ _ x (by omega), if_neg g]

/-- R102: the BOOKING_UPDATE of a private copy, made: accepted, it leaves the copy owing nothing, and one with no link is
discarded. -/
theorem make_copyUpdate (w : Work) (p : Fin 48) (x : PrivateCopy) (r : Record) (h : w.st.cache.copies[p] = some x)
    (hr : x.record = some r) :
    (w.make (.copyUpdate p)).st =
      let v := reportsMade w.st [(.copyUpdate p, .bookingUpdate r)]
      if 0 < cacheRoom w.st then v.setCopy p (if x.link.isSome then some { x with updateOwed := false } else none) else v := by
  dsimp only
  by_cases g : 0 < cacheRoom w.st
  · rw [make_room _ _ g, if_pos g, ← accept_eq _ (.copyUpdate p) _ g]
    unfold Work.acceptOwed
    simp only [h, hr]
    cases hl : x.link with
    | none =>
      show ((w.st.accept _).updCopy p _).setCopy p none = _
      simp [State.setCopy, State.updCopy, State.updCache, upd]
    | some l =>
      show (w.st.accept _).updCopy p _ = _
      have : (w.st.accept (.bookingUpdate r)).cache.copies[p] = some x := h
      have e : (w.st.accept (.bookingUpdate r)).cache.copies[p.val] = some x := this
      have c : w.st.cache.copies[p.val] = some x := h
      simp [State.setCopy, State.updCopy, State.updCache, upd, e, c, hr, hl]
  · rw [make_waits _ _ (.bookingUpdate r) (by omega), if_neg g]

end Sys2Proof.Laws
end

