-- ==== Sys2Proof/Laws/Commit.lean ====
section
/-! SUPPORT. The commit of a visit's links (R57, R102, R104 to R106): what the cache's part of a commit can do, said once by the
relation `LinksCommitted` of Safety.lean. -/

open Sys2Proof Sys2Proof.Machine Sys2Proof.Safety
namespace Sys2Proof.Laws

theorem entry_upd (s : State) (i : Fin 1024) (y : Fin 2) (f : Entry → Entry) (j : Fin 1024) (z : Fin 2) :
    (s.updEntry i y f).entry j z = if (j, z) = (i, y) then f (s.entry i y) else s.entry j z := by
  simp only [State.updEntry, State.updCache, State.entry, Fin.getElem_fin, upd_getElem, Prod.mk.injEq]
  by_cases h : j = i
  · subst h; fin_cases y <;> fin_cases z <;> simp [CacheSet.put, CacheSet.get]
  · have : j.val ≠ i.val := fun e => h (Fin.ext e)
    simp [this, h]

theorem settle_quiet (w : Work) (i y) (h : (w.st.entry i y).mark = .none) : w.settleEntry i y = w := by
  unfold Work.settleEntry
  simp [Work.unpinnedRecall, h]

theorem eta1 (e : Entry) (a : _) (b : Bool) (h1 : e.owed = a) (h2 : e.dirty = b) : e = { e with owed := a, dirty := b } := by
  subst h1 h2; rfl

theorem eta2 (e : Entry) (b : Bool) (a : _) (h1 : e.owed = a) : { e with dirty := b } = { e with owed := a, dirty := b } := by
  subst h1; rfl

theorem eta3 (e : Entry) (b : Bool) (a : _) (h1 : e.dirty = b) : { e with owed := a } = { e with owed := a, dirty := b } := by
  subst h1; rfl

theorem target_cases (l : Link) :
    l.target = none ∨ (∃ i y, l.target = some (.way i y)) ∨ ∃ p, l.target = some (.copy p) := by
  cases l.target with
  | none => exact .inl rfl
  | some g => cases g with
    | way i y => exact .inr (.inl ⟨i, y, rfl⟩)
    | copy p => exact .inr (.inr ⟨p, rfl⟩)

theorem locked_eq (r : Record) : r.locked = true ↔ r.customsHold = true ∨ r.lineHold = true := by simp [Record.locked]

theorem through_eq (s : State) : s.writesThrough = true ↔ GoesThrough s := by
  unfold State.writesThrough GoesThrough; cases s.params.writePolicy <;> simp

theorem updLink_ctx (s : State) (r : LinkRef) (f : Link → Link) (j : CtxId) :
    (s.updLink r f).ctx j = if j = r.ctx then { s.ctx j with links := (s.ctx j).links.modify r.index f } else s.ctx j := by
  simp only [State.updLink, State.ctx_updCtx]
  split
  · rename_i h; subst h; rfl
  · rfl

theorem copies_upd (s : State) (p : Fin 48) (f : PrivateCopy → PrivateCopy) (q : Fin 48) :
    (s.updCopy p f).cache.copies[q] = if q = p then (s.cache.copies[p]).map f else s.cache.copies[q] := by
  simp only [State.updCopy, State.updCache, Fin.getElem_fin, upd_getElem]
  by_cases h : q = p
  · subst h; simp
  · have : q.val ≠ p.val := fun e => h (Fin.ext e)
    simp [this, h]

theorem copies_set (s : State) (p : Fin 48) (x : Option PrivateCopy) (q : Fin 48) :
    (s.setCopy p x).cache.copies[q] = if q = p then x else s.cache.copies[q] := by
  simp only [State.setCopy, State.updCache, Fin.getElem_fin]
  by_cases h : q = p
  · subst h; simp
  · have : p.val ≠ q.val := fun e => h (Fin.ext e.symm)
    simp [this, h, Vector.getElem_set]

/-- What the commit and the release of links keep, and what they change of the uplink and of the send order: the reports made. -/
abbrev Sends (s t : State) (os : List (Owed × Report)) : Prop :=
  t.params = s.params ∧ t.cache.slots = s.cache.slots ∧ t.cache.recalls = s.cache.recalls ∧
  t.uplink = (reportsMade s os).uplink ∧ t.cache.sendOrder = (reportsMade s os).cache.sendOrder

theorem Sends.refl (s : State) : Sends s s [] := by simp [Sends, reportsMade_nil]

theorem reportsMade_congr {s t : State} (hu : t.uplink = s.uplink) (ho : t.cache.sendOrder = s.cache.sendOrder)
    (os : List (Owed × Report)) :
    (reportsMade t os).uplink = (reportsMade s os).uplink ∧
    (reportsMade t os).cache.sendOrder = (reportsMade s os).cache.sendOrder := by
  have hr : cacheRoom t = cacheRoom s := cacheRoom_of _ _ ho (by rw [hu]) (by rw [hu])
  unfold reportsMade
  rw [hr, hu, ho]
  exact ⟨rfl, rfl⟩

theorem Sends.trans {s t u : State} {xs ys : List (Owed × Report)} (h1 : Sends s t xs) (h2 : Sends t u ys) :
    Sends s u (xs ++ ys) := by
  obtain ⟨a1, a2, a3, a4, a5⟩ := h1
  obtain ⟨b1, b2, b3, b4, b5⟩ := h2
  obtain ⟨e1, e2⟩ := reportsMade_congr a4 a5 ys
  exact ⟨b1.trans a1, b2.trans a2, b3.trans a3, by rw [b4, e1, reportsMade_append], by rw [b5, e2, reportsMade_append]⟩

theorem Sends.room {s t : State} {os : List (Owed × Report)} (h : Sends s t os) :
    cacheRoom t = cacheRoom s - os.length := by
  rw [← cacheRoom_made]
  exact cacheRoom_of _ _ h.2.2.2.2 (by rw [h.2.2.2.1]) (by rw [h.2.2.2.1])

/-! ### The pin dropped (R57, R102, R111) -/

/-- One link's pin dropped: the entry or the private copy it names. -/
theorem commitDrop_step (w : Work) (r : LinkRef) (l : Link) (hl : w.st.link? r = some l)
    (hm : ∀ i y, l.target = some (.way i y) → (w.st.entry i y).mark = .none) :
    let t := (w.commitDrop r).st
    Sends w.st t [] ∧ t.cache.counters = w.st.cache.counters ∧
    (∀ j, t.ctx j = if j = r.ctx then
      { w.st.ctx j with links := (w.st.ctx j).links.modify r.index fun l => { l with target := none, holdsUnit := false } }
      else w.st.ctx j) ∧
    (∀ i y, t.entry i y = if l.target = some (.way i y) then
      { w.st.entry i y with
        pins := (w.st.entry i y).pins - 1
        held := if l.holdsUnit then (w.st.entry i y).held - 1 else (w.st.entry i y).held }
      else w.st.entry i y) ∧
    ∀ p : Fin 48, t.cache.copies[p] = if l.target = some (.copy p) then
      w.st.cache.copies[p].bind fun x => if x.updateOwed then some { x with link := none, held := 0 } else none
      else w.st.cache.copies[p] := by
  intro t
  have et : t = (w.commitDrop r).st := rfl
  clear_value t
  unfold Work.commitDrop at et
  simp only [hl] at et
  obtain ⟨u, hu⟩ : ∃ u : State, u = w.st.updLink r fun l => { l with target := none, holdsUnit := false } := ⟨_, rfl⟩
  have uc : ∀ j, u.ctx j = if j = r.ctx then
      { w.st.ctx j with links := (w.st.ctx j).links.modify r.index fun l => { l with target := none, holdsUnit := false } }
      else w.st.ctx j := by rw [hu]; exact updLink_ctx _ _ _
  have ue : ∀ i y, u.entry i y = w.st.entry i y := by rw [hu]; exact fun _ _ => rfl
  have uk : u.cache = w.st.cache ∧ u.uplink = w.st.uplink ∧ u.params = w.st.params := by rw [hu]; exact ⟨rfl, rfl, rfl⟩
  have kq : ∀ v : State, v.uplink = u.uplink → v.params = u.params → v.cache.slots = u.cache.slots →
      v.cache.recalls = u.cache.recalls → v.cache.sendOrder = u.cache.sendOrder → Sends w.st v [] := by
    intro v h1 h2 h3 h4 h5
    refine ⟨h2.trans uk.2.2, ?_, ?_, ?_, ?_⟩
    · rw [h3, uk.1]
    · rw [h4, uk.1]
    · rw [reportsMade_nil, h1, uk.2.1]
    · rw [reportsMade_nil, h5, uk.1]
  have kc : u.cache.counters = w.st.cache.counters := by rw [uk.1]
  have kp : ∀ q : Fin 48, u.cache.copies[q] = w.st.cache.copies[q] := by rw [uk.1]; exact fun _ => rfl
  have hup : (w.upd fun s => s.updLink r fun l => { l with target := none, holdsUnit := false }) = { w with st := u } := by
    rw [hu]; rfl
  rw [hup] at et
  rcases target_cases l with ht | ⟨i, y, ht⟩ | ⟨p, ht⟩ <;> simp only [ht] at et ⊢
  · subst et
    refine ⟨kq _ rfl rfl rfl rfl rfl, kc, uc, fun i y => ?_, fun p => ?_⟩
    · rw [if_neg (by simp)]; exact ue i y
    · rw [if_neg (by simp)]; exact kp p
  · · have e : (({ w with st := u } : Work).unpin i y l.holdsUnit).st = u.updEntry i y fun e =>
          { e with pins := e.pins - 1, held := if l.holdsUnit then e.held - 1 else e.held } := by
        unfold Work.unpin
        rw [settle_quiet]
        · rfl
        · simp only [Work.upd]
          rw [entry_upd, if_pos rfl]
          show (u.entry i y).mark = _
          rw [ue]; exact hm i y ht
      rw [e] at et; subst et
      refine ⟨kq _ rfl rfl rfl rfl rfl, kc, uc, fun j z => ?_, fun p => ?_⟩
      · rw [entry_upd, ue, ue]
        by_cases h : (j, z) = (i, y)
        · cases h; simp
        · rw [if_neg h, if_neg (by rintro e; cases e; exact h rfl)]
      · rw [if_neg (by simp)]; exact kp p
  · · have hx : u.cache.copies[p] = w.st.cache.copies[p] := by rw [uk.1]
      cases hb : u.cache.copies[p].any (·.updateOwed) with
      | true =>
        have e : (if (({ w with st := u } : Work).st.cache.copies[p].any (·.updateOwed)) = true then
            (({ w with st := u } : Work).upd fun s => s.updCopy p fun c => { c with link := none, held := 0 })
            else ({ w with st := u } : Work).discardCopy p).st = u.updCopy p fun c => { c with link := none, held := 0 } := by
          rw [if_pos hb]; rfl
        rw [e] at et; subst et
        refine ⟨kq _ rfl rfl rfl rfl rfl, kc, uc, fun j z => ?_, fun q => ?_⟩
        · rw [if_neg (by simp)]; exact ue j z
        · rw [copies_upd]
          by_cases h : q = p
          · subst h
            rw [if_pos rfl, if_pos rfl, hx]
            rw [hx] at hb
            cases hc : w.st.cache.copies[q] with
            | none => rfl
            | some x => rw [hc] at hb; simp at hb; simp [hb]
          · rw [if_neg h, if_neg (by rintro e; cases e; exact h rfl)]; exact kp q
      | false =>
        have e : (if (({ w with st := u } : Work).st.cache.copies[p].any (·.updateOwed)) = true then
            (({ w with st := u } : Work).upd fun s => s.updCopy p fun c => { c with link := none, held := 0 })
            else ({ w with st := u } : Work).discardCopy p).st = u.setCopy p none := by
          rw [if_neg (by rw [show ({ w with st := u } : Work).st = u from rfl, hb]; simp)]; rfl
        rw [e] at et; subst et
        refine ⟨kq _ rfl rfl rfl rfl rfl, kc, uc, fun j z => ?_, fun q => ?_⟩
        · rw [if_neg (by simp)]; exact ue j z
        · rw [copies_set]
          by_cases h : q = p
          · subst h
            rw [if_pos rfl, if_pos rfl]
            rw [hx] at hb
            cases hc : w.st.cache.copies[q] with
            | none => rfl
            | some x => rw [hc] at hb; simp at hb; simp [hb]
          · rw [if_neg h, if_neg (by rintro e; cases e; exact h rfl)]; exact kp q

/-! ### One link committed (R104 to R106) -/

/-- An entry once its link is committed and before its pin is dropped. -/
def midEntry (s : State) (c : Ctx) (l : Link) (e : Entry) : Entry :=
  match linkFate s c l with
  | .dropped | .locked => e
  | .written k =>
      let written : Entry := { e with record := some k.record, held := if l.holdsUnit then e.held - 1 else e.held }
      if changes l k = true ∧ GoesThrough s then
        if sentAtOnce s c l then { written with dirty := false } else { written with owed := .update }
      else if changes l k then { written with dirty := true }
      else written

/-- A private copy once its link is committed and before the link is released. -/
def midCopy (s : State) (c : Ctx) (l : Link) (x : PrivateCopy) : Option PrivateCopy :=
  match linkFate s c l with
  | .dropped | .locked => some x
  | .written k =>
      if sentAtOnce s c l = true ∧ x.link.isSome = false then none
      else some { x with
        record := some k.record, held := if l.holdsUnit then x.held - 1 else x.held, updateOwed := !sentAtOnce s c l }

/-- A link once it is committed and before it is released. -/
def midLink (s : State) (c : Ctx) (l : Link) : Link :=
  match linkFate s c l with
  | .dropped | .locked => l
  | .written _ => { l with holdsUnit := false }

theorem set_same {α : Type} (L : List α) (n : Nat) (x : α) (h : L[n]? = some x) : L.set n x = L := by
  obtain ⟨hn, rfl⟩ := List.getElem?_eq_some_iff.1 h
  simp

theorem modify_set {α : Type} (L : List α) (n : Nat) (x : α) (f : α → α) (h : L[n]? = some x) :
    L.modify n f = L.set n (f x) := by
  obtain ⟨hn, rfl⟩ := List.getElem?_eq_some_iff.1 h
  apply List.ext_getElem?
  intro m
  rw [List.getElem?_modify, List.getElem?_set]
  by_cases hm : n = m
  · subst hm; simp [hn]
  · simp [hm]

/-- What `returnEntry` makes of an entry under no recall that owes nothing. -/
theorem returnEntry_quiet (w : Work) (i : Fin 1024) (y : Fin 2) (through changed : Bool) (r : Record)
    (hr : (w.st.entry i y).record = some r) (hm : (w.st.entry i y).mark = .none) (ho : (w.st.entry i y).owed = .none) :
    let t := (w.returnEntry i y through changed).st
    Sends w.st t (if changed && through then [(.update i y, .bookingUpdate r)] else []) ∧
    t.cache.counters = w.st.cache.counters ∧ (∀ j, t.ctx j = w.st.ctx j) ∧ t.cache.copies = w.st.cache.copies ∧
    ∀ j z, t.entry j z = if (j, z) = (i, y) then
      (if changed && through then
        if 0 < cacheRoom w.st then { w.st.entry i y with dirty := false } else { w.st.entry i y with owed := .update }
       else if changed then { w.st.entry i y with dirty := true } else w.st.entry i y)
      else w.st.entry j z := by
  intro t
  have et : t = (w.returnEntry i y through changed).st := rfl
  clear_value t
  unfold Work.returnEntry at et
  simp only [hm, ho] at et
  have idle : t = w.st → (changed && through) = false → changed = false →
      Sends w.st t (if changed && through then [(.update i y, .bookingUpdate r)] else []) ∧
      t.cache.counters = w.st.cache.counters ∧ (∀ j, t.ctx j = w.st.ctx j) ∧ t.cache.copies = w.st.cache.copies ∧
      ∀ j z, t.entry j z = if (j, z) = (i, y) then
        (if changed && through then
          if 0 < cacheRoom w.st then { w.st.entry i y with dirty := false } else { w.st.entry i y with owed := .update }
         else if changed then { w.st.entry i y with dirty := true } else w.st.entry i y)
        else w.st.entry j z := by
    intro e h1 h2
    subst e
    refine ⟨by rw [h1]; exact Sends.refl _, rfl, fun _ => rfl, rfl, fun j z => ?_⟩
    rw [h1, h2]
    by_cases h : (j, z) = (i, y)
    · cases h; simp
    · rw [if_neg h]
  cases changed with
  | false => exact idle (by cases through <;> exact et) (by simp) rfl
  | true =>
    cases through with
    | false =>
      have e : t = w.st.updEntry i y fun e => { e with dirty := true } := et
      subst e
      refine ⟨?_, rfl, fun _ => rfl, rfl, fun j z => entry_upd _ _ _ _ _ _⟩
      have := Sends.refl w.st
      exact this
    | true =>
      obtain ⟨U, hU⟩ : ∃ U : State, U = w.st.updEntry i y fun e => { e with owed := .update } := ⟨_, rfl⟩
      have Ue : ∀ j z, U.entry j z = if (j, z) = (i, y) then { w.st.entry i y with owed := .update } else w.st.entry j z := by
        rw [hU]; exact fun j z => entry_upd _ _ _ _ _ _
      have Ur : cacheRoom U = cacheRoom w.st := by rw [hU]; exact cacheRoom_of _ _ rfl rfl rfl
      have h : t = (({ w with st := U } : Work).make (.update i y)).st := by rw [hU]; exact et
      rw [make_entry _ i y r (by show (U.entry i y).record = _; rw [Ue, if_pos rfl]; exact hr)
        (by unfold Work.unpinnedRecall; show ((U.entry i y).state == .valid && (U.entry i y).mark == .pending && _) = _
            rw [Ue, if_pos rfl]; simp [hm]) (.update i y) (.bookingUpdate r) (.inl ⟨rfl, rfl⟩)] at h
      dsimp only at h
      rw [Ur] at h
      have sd : Sends w.st (reportsMade U [(.update i y, .bookingUpdate r)]) [(.update i y, .bookingUpdate r)] := by
        have hc := reportsMade_congr (s := w.st) (t := U) (by rw [hU]; rfl) (by rw [hU]; rfl)
          [(.update i y, .bookingUpdate r)]
        refine ⟨?_, ?_, ?_, hc.1, hc.2⟩ <;> (show _ = _; rw [hU]; rfl)
      have te : ∀ j z, (reportsMade U [(.update i y, .bookingUpdate r)]).entry j z = U.entry j z := fun _ _ => rfl
      by_cases g : 0 < cacheRoom w.st
      · rw [if_pos g] at h
        refine ⟨by rw [h]; exact sd, by rw [h, hU]; rfl, by rw [h, hU]; exact fun _ => rfl, by rw [h, hU]; rfl, fun j z => ?_⟩
        rw [h, entry_upd, te, te, Ue, Ue]
        simp only [Bool.and_self, if_true, if_pos g]
        by_cases q : (j, z) = (i, y)
        · rw [if_pos q, if_pos q, eta1 _ _ _ ho rfl]
        · rw [if_neg q, if_neg q, if_neg q]
      · rw [if_neg g] at h
        refine ⟨by rw [h]; exact sd, by rw [h, hU]; rfl, by rw [h, hU]; exact fun _ => rfl, by rw [h, hU]; rfl, fun j z => ?_⟩
        rw [h, te, Ue]
        simp only [Bool.and_self, if_true, if_neg g]

/-- One link of a visit decided ADMIT or INSPECT committed, in a work where its target and the visit's results are as in `s`. -/
theorem commitLink_step (s : State) (id : CtxId) (n : Nat) (w : Work) (l : Link)
    (hd : (s.ctx id).decision = some .admitted ∨ (s.ctx id).decision = some .inspect)
    (hl : w.st.link? ⟨id, n⟩ = some l) (hq : TargetQuiet s l)
    (hroom : (committedReport s (s.ctx id) l).isSome = true →
      (sentAtOnce s (s.ctx id) l = true ↔ 0 < cacheRoom w.st))
    (he : ∀ i y, l.target = some (.way i y) → w.st.entry i y = s.entry i y)
    (hp : ∀ p : Fin 48, l.target = some (.copy p) → w.st.cache.copies[p] = s.cache.copies[p])
    (hs : (w.st.ctx id).sealChecks = (s.ctx id).sealChecks)
    (ha : ∀ pos, ((w.st.ctx id).damage.get pos).map (·.toAppend) = ((s.ctx id).damage.get pos).map (·.toAppend)) :
    let c := s.ctx id
    let t := (Work.commitLink s.writesThrough w ⟨id, n⟩).st
    Sends w.st t (committedReport s c l).toList ∧
    t.cache.counters = committedCount s c w.st.cache.counters l ∧
    (∀ j, t.ctx j = if j = id then
      { w.st.ctx j with
        links := (w.st.ctx j).links.set n (midLink s c l)
        flags := committedFlags s c (w.st.ctx j).flags l
        damage := committedDamage s c (w.st.ctx j).damage l }
      else w.st.ctx j) ∧
    (∀ i y, t.entry i y = if l.target = some (.way i y) then midEntry s c l (w.st.entry i y) else w.st.entry i y) ∧
    ∀ p : Fin 48, t.cache.copies[p] =
      if l.target = some (.copy p) then w.st.cache.copies[p].bind (midCopy s c l) else w.st.cache.copies[p] := by
  intro c t
  have et : t = (Work.commitLink s.writesThrough w ⟨id, n⟩).st := rfl
  clear_value t
  have hc : c = s.ctx id := rfl
  clear_value c
  subst hc
  have hd' : ¬ ((s.ctx id).decision ≠ some .admitted ∧ (s.ctx id).decision ≠ some .inspect) := by
    rintro ⟨a, b⟩; rcases hd with h | h
    · exact a h
    · exact b h
  have hrec : w.st.linkRecord l = s.linkRecord l := by
    unfold State.linkRecord
    rcases target_cases l with ht | ⟨i, y, ht⟩ | ⟨p, ht⟩ <;> simp only [ht] <;> cases l.state <;> try rfl
    · simp only [State.targetRecord, he i y ht]
    · simp only [State.targetRecord, hp p ht]
  have hheld : ∀ g, l.target = some g → w.st.targetHeld g = s.targetHeld g := by
    intro g hg
    cases g with
    | way i y => simp only [State.targetHeld, he i y hg]
    | copy p => simp only [State.targetHeld, hp p hg]
  have hlk : (w.st.ctx id).links[n]? = some l := hl
  unfold Work.commitLink at et
  simp only [hl, hrec] at et
  have idle : t = w.st → linkFate s (s.ctx id) l = .dropped →
      Sends w.st t (committedReport s (s.ctx id) l).toList ∧
      t.cache.counters = committedCount s (s.ctx id) w.st.cache.counters l ∧
      (∀ j, t.ctx j = if j = id then
        { w.st.ctx j with
          links := (w.st.ctx j).links.set n (midLink s (s.ctx id) l)
          flags := committedFlags s (s.ctx id) (w.st.ctx j).flags l
          damage := committedDamage s (s.ctx id) (w.st.ctx j).damage l }
        else w.st.ctx j) ∧
      (∀ i y, t.entry i y = if l.target = some (.way i y) then midEntry s (s.ctx id) l (w.st.entry i y) else w.st.entry i y) ∧
      ∀ p : Fin 48, t.cache.copies[p] =
        if l.target = some (.copy p) then w.st.cache.copies[p].bind (midCopy s (s.ctx id) l) else w.st.cache.copies[p] := by
    intro e f
    subst e
    have nr : committedReport s (s.ctx id) l = none := by
      unfold committedReport; rw [f]
      rcases target_cases l with ht | ⟨i, y, ht⟩ | ⟨p, ht⟩ <;> simp only [ht]
    refine ⟨by rw [nr]; exact Sends.refl _, ?_, fun j => ?_, fun i y => ?_, fun p => ?_⟩
    · unfold committedCount; rw [f]
    · split
      · rename_i hj; subst hj
        unfold midLink committedFlags committedDamage
        rw [f, set_same _ _ _ hlk]
      · rfl
    · unfold midEntry; rw [f]; simp
    · have : midCopy s (s.ctx id) l = some := by funext x; unfold midCopy; rw [f]
      rw [this]; simp
  cases hg : l.target with
  | none =>
    simp only [hg] at et
    rw [← hg]
    exact idle et (by unfold linkFate; simp only [hg])
  | some g =>
    rw [← hg]
    cases hr : s.linkRecord l with
    | none =>
      simp only [hg, hr] at et
      exact idle et (by unfold linkFate; simp only [hg, hr])
    | some r =>
      simp only [hg, hr] at et
      by_cases hk : r.locked = true
      · rw [if_pos hk] at et
        have f : linkFate s (s.ctx id) l = .locked := by
          unfold linkFate; simp only [hg, hr]
          rw [if_neg hd', if_pos ((locked_eq r).mp hk)]
        have e : t = w.st.discardCommit ⟨id, n⟩ := et
        subst e
        have nr : committedReport s (s.ctx id) l = none := by
          unfold committedReport; rw [f]
          rcases target_cases l with ht | ⟨i, y, ht⟩ | ⟨p, ht⟩ <;> simp only [ht]
        refine ⟨by rw [nr]; exact Sends.refl w.st, ?_, fun j => ?_, fun i y => ?_, fun p => ?_⟩
        · unfold committedCount; rw [f]; rfl
        · unfold midLink committedFlags committedDamage
          rw [f]
          simp only [State.discardCommit, State.ctx_updCtx]
          by_cases hj : j = id
          · subst hj
            simp only [if_true]
            rw [set_same _ _ _ hlk]; rfl
          · simp only [hj, if_false]; rfl
        · unfold midEntry; rw [f]; simp; rfl
        · have : midCopy s (s.ctx id) l = some := by funext x; unfold midCopy; rw [f]
          rw [this]; simp; rfl
      · rw [if_neg hk] at et
        obtain ⟨k, hkd⟩ : ∃ k, k = commitRecord (w.st.ctx id) l r (w.st.targetHeld g) := ⟨_, rfl⟩
        have hks : k = commitRecord (s.ctx id) l r (s.targetHeld g) := by
          rw [hkd, hheld g hg]
          unfold commitRecord
          cases l.source.position with
          | none => rfl
          | some pos =>
            have := ha pos
            simp only [hs]
            rw [this]
        have f : linkFate s (s.ctx id) l = .written k := by
          unfold linkFate; simp only [hg, hr]
          rw [if_neg hd', if_neg (fun h => hk ((locked_eq r).mpr h)), hks]
        rw [← hkd] at et
        obtain ⟨A, hAd⟩ : ∃ A, A = w.st.applyCommit ⟨id, n⟩ l g k := ⟨_, rfl⟩
        have hW : (w.upd fun s => s.applyCommit ⟨id, n⟩ l g k) = { w with st := A } := by rw [hAd]; rfl
        rw [hW] at et
        have hch : (!(k.overrun && l.source == .kiosk)) = changes l k := rfl
        rw [hch] at et
        have set0 : ∀ v : State, v.ctx id = w.st.ctx id → ∀ j, (v.updLink ⟨id, n⟩ fun l => { l with holdsUnit := false }).ctx j =
            if j = id then { w.st.ctx id with links := (w.st.ctx id).links.set n { l with holdsUnit := false } } else v.ctx j := by
          intro v hv j
          rw [updLink_ctx]
          by_cases hj : j = id
          · subst hj
            rw [if_pos rfl, if_pos rfl, hv]
            simp only [modify_set _ n l _ hlk]
          · rw [if_neg hj, if_neg hj]
        have Actx : ∀ j, A.ctx j = if j = id then
            { w.st.ctx j with
              links := (w.st.ctx j).links.set n (midLink s (s.ctx id) l)
              flags := committedFlags s (s.ctx id) (w.st.ctx j).flags l
              damage := committedDamage s (s.ctx id) (w.st.ctx j).damage l }
            else w.st.ctx j := by
          intro j
          rw [hAd]
          unfold midLink committedFlags committedDamage
          rw [f]
          have c0 : ∀ i, ((if l.holdsUnit then (w.st.setRecord g k.record).setHeld g ((w.st.setRecord g k.record).targetHeld g - 1) else w.st.setRecord g k.record).ctx i) = w.st.ctx i := by
            intro i
            split
            · rw [setHeld_ctx]; cases g <;> rfl
            · cases g <;> rfl
          have c1 := set0 _ (c0 id)
          unfold State.applyCommit
          simp only [State.ctx_updCtx]
          have c2 : ∀ (v : State) i, (if k.overrun then v.countCache fun c => { c with pickupOverruns := bump c.pickupOverruns } else v).ctx i = v.ctx i := by
            intro v i; split <;> rfl
          rw [c2, c2, c1, c1]
          by_cases hj : j = id
          · subst hj
            simp only [if_true]
            cases hlf : k.listFull <;> cases l.source.position <;> simp
          · simp only [hj, if_false]; exact c0 j
        have Aoth : Sends w.st A [] ∧ A.cache.counters = committedCount s (s.ctx id) w.st.cache.counters l := by
          rw [hAd]; unfold committedCount; rw [f]; unfold State.applyCommit
          refine ⟨?_, ?_⟩
          · cases g <;> cases l.holdsUnit <;> cases k.overrun <;> exact Sends.refl w.st
          · cases h : k.overrun <;> cases g <;> cases l.holdsUnit <;> simp [h] <;> rfl
        have Aroom : cacheRoom A = cacheRoom w.st := by rw [Aoth.1.room]; rfl
        have eq1 : ∀ (v : State) (F : Ctx → Ctx) j z, (v.updCtx id F).entry j z = v.entry j z := fun _ _ _ _ => rfl
        have eq2 : ∀ (v : State) j z, (if k.overrun then v.countCache fun c => { c with pickupOverruns := bump c.pickupOverruns } else v).entry j z = v.entry j z := by
          intro v j z; split <;> rfl
        have eq3 : ∀ (v : State) F j z, (v.updLink ⟨id, n⟩ F).entry j z = v.entry j z := fun _ _ _ _ => rfl
        have cq1 : ∀ (v : State) (F : Ctx → Ctx), (v.updCtx id F).cache.copies = v.cache.copies := fun _ _ => rfl
        have cq2 : ∀ (v : State), (if k.overrun then v.countCache fun c => { c with pickupOverruns := bump c.pickupOverruns } else v).cache.copies = v.cache.copies := by
          intro v; split <;> rfl
        have cq3 : ∀ (v : State) F, (v.updLink ⟨id, n⟩ F).cache.copies = v.cache.copies := fun _ _ => rfl
        cases g with
        | way i y =>
          have Aent : ∀ j z, A.entry j z = if (j, z) = (i, y) then
              { w.st.entry i y with
                record := some k.record, held := if l.holdsUnit then (w.st.entry i y).held - 1 else (w.st.entry i y).held }
              else w.st.entry j z := by
            intro j z
            rw [hAd]; unfold State.applyCommit
            simp only [eq1, eq2, eq3]
            cases l.holdsUnit
            · simp only [State.setRecord, entry_upd, Bool.false_eq_true, if_false]
            · simp only [State.setRecord, State.setHeld, State.targetHeld, entry_upd, if_true]
              split <;> rfl
          have Acop : A.cache.copies = w.st.cache.copies := by
            rw [hAd]; unfold State.applyCommit
            cases l.holdsUnit <;> cases k.overrun <;> rfl
          have hmark := hq.1 i y hg
          have hwe := he i y hg
          obtain ⟨b1, b3, b4, b5, b6⟩ := returnEntry_quiet { w with st := A } i y s.writesThrough (changes l k) k.record
            (by show (A.entry i y).record = _; rw [Aent, if_pos rfl])
            (by show (A.entry i y).mark = _; rw [Aent, if_pos rfl, hwe]; exact hmark.1)
            (by show (A.entry i y).owed = _; rw [Aent, if_pos rfl, hwe]; exact hmark.2)
          have e : t = (({ w with st := A } : Work).returnEntry i y s.writesThrough (changes l k)).st := et
          rw [← e] at b1 b3 b4 b5 b6
          dsimp only at b1 b3 b4 b5 b6
          rw [Aroom] at b6
          have hrep : committedReport s (s.ctx id) l =
              if changes l k = true ∧ GoesThrough s then some (.update i y, .bookingUpdate k.record) else none := by
            unfold committedReport; rw [f, hg]
          refine ⟨?_, b3.trans Aoth.2, fun j => (b4 j).trans (Actx j), fun j z => ?_, fun p => ?_⟩
          · have := Aoth.1.trans b1
            rw [List.nil_append] at this
            rw [hrep]
            by_cases h1 : changes l k = true <;> by_cases h2 : s.writesThrough = true
            · simpa [h1, h2, (through_eq s).1 h2] using this
            · have g : ¬ GoesThrough s := fun g => h2 ((through_eq s).2 g)
              simpa [h1, h2, g] using this
            · simpa [h1] using this
            · simpa [h1] using this
          · rw [b6]
            by_cases h : (j, z) = (i, y)
            · cases h
              rw [if_pos rfl, if_pos hg, Aent, if_pos rfl]
              unfold midEntry; rw [f]
              by_cases h1 : changes l k = true <;> by_cases h2 : s.writesThrough = true
              · have := hroom (by rw [hrep, if_pos ⟨h1, (through_eq s).1 h2⟩]; rfl)
                simp [h1, h2, (through_eq s).1 h2, this]
              · have : ¬ GoesThrough s := fun g => h2 ((through_eq s).2 g)
                simp [h1, h2, this]
              · simp [h1]
              · simp [h1]
            · rw [if_neg h, Aent, if_neg h, if_neg]
              intro e2; rw [hg] at e2; cases e2; exact h rfl
          · rw [if_neg (by rw [hg]; simp)]
            have : ∀ (a b : Vector (Option PrivateCopy) 48), a = b → a[p] = b[p] := fun _ _ e => by rw [e]
            exact this _ _ (b5.trans Acop)
        | copy p =>
          obtain ⟨x, hx, hu⟩ := hq.2 p hg
          have hwx := (hp p hg).trans hx
          have Acop : ∀ q : Fin 48, A.cache.copies[q] = if q = p then
              some { x with record := some k.record, held := if l.holdsUnit then x.held - 1 else x.held }
              else w.st.cache.copies[q] := by
            intro q
            have e : A.cache.copies = (if l.holdsUnit then (w.st.setRecord (.copy p) k.record).setHeld (.copy p) ((w.st.setRecord (.copy p) k.record).targetHeld (.copy p) - 1) else w.st.setRecord (.copy p) k.record).cache.copies := by
              rw [hAd]; unfold State.applyCommit
              simp only [cq1, cq2, cq3]
            have : ∀ (a b : Vector (Option PrivateCopy) 48), a = b → a[q] = b[q] := fun _ _ e => by rw [e]
            rw [this _ _ e]
            cases l.holdsUnit
            · simp only [State.setRecord, Bool.false_eq_true, if_false, copies_upd, hwx, Option.map_some]
            · have e2 : (w.st.updCopy p fun c => { c with record := some k.record }).cache.copies[p] =
                  some { x with record := some k.record } := by rw [copies_upd, if_pos rfl, hwx]; rfl
              simp only [State.setRecord, State.setHeld, State.targetHeld, if_true, copies_upd, hwx, Option.map_some]
              split <;> rfl
          have Aent : ∀ j z, A.entry j z = w.st.entry j z := by
            intro j z
            rw [hAd]; unfold State.applyCommit
            simp only [eq1, eq2, eq3]
            cases l.holdsUnit <;> rfl
          have hrep : committedReport s (s.ctx id) l = some (.copyUpdate p, .bookingUpdate k.record) := by
            unfold committedReport; rw [f, hg]
          have hsent := hroom (by rw [hrep]; rfl)
          obtain ⟨B, hB⟩ : ∃ B : State, B = A.updCopy p fun c => { c with updateOwed := true } := ⟨_, rfl⟩
          have Bcop : ∀ q : Fin 48, B.cache.copies[q] = if q = p then
              some { x with
                record := some k.record, held := if l.holdsUnit then x.held - 1 else x.held, updateOwed := true }
              else w.st.cache.copies[q] := by
            intro q
            rw [hB, copies_upd, Acop, Acop, if_pos rfl]
            split <;> rfl
          have Bsend : Sends w.st B [] := by
            have : Sends A B [] := by rw [hB]; exact Sends.refl A
            exact Aoth.1.trans this
          have Broom : cacheRoom B = cacheRoom w.st := by rw [Bsend.room]; rfl
          have h : t = (({ w with st := B } : Work).make (.copyUpdate p)).st := by rw [hB]; exact et
          rw [make_copyUpdate _ p _ k.record (by show B.cache.copies[p] = _; rw [Bcop, if_pos rfl]) rfl] at h
          dsimp only at h
          rw [Broom] at h
          obtain ⟨V, hV⟩ : ∃ V, V = reportsMade B [(.copyUpdate p, .bookingUpdate k.record)] := ⟨_, rfl⟩
          rw [← hV] at h
          have Vs : Sends w.st V [(.copyUpdate p, .bookingUpdate k.record)] := by
            refine Bsend.trans (ys := [(.copyUpdate p, .bookingUpdate k.record)]) ?_
            rw [hV]; exact ⟨rfl, rfl, rfl, rfl, rfl⟩
          have tV : t.cache.counters = A.cache.counters ∧ (∀ j, t.ctx j = A.ctx j) ∧ (∀ j z, t.entry j z = A.entry j z) ∧
              Sends w.st t [(.copyUpdate p, .bookingUpdate k.record)] := by
            rw [h]
            split
            · refine ⟨by rw [hV, hB]; rfl, by rw [hV, hB]; exact fun _ => rfl, by rw [hV, hB]; exact fun _ _ => rfl, Vs⟩
            · refine ⟨by rw [hV, hB]; rfl, by rw [hV, hB]; exact fun _ => rfl, by rw [hV, hB]; exact fun _ _ => rfl, Vs⟩
          refine ⟨by rw [hrep]; exact tV.2.2.2, tV.1.trans Aoth.2, fun j => (tV.2.1 j).trans (Actx j), fun j z => ?_,
            fun q => ?_⟩
          · rw [if_neg (by rw [hg]; simp), tV.2.2.1, Aent]
          · have Vcop : ∀ q : Fin 48, V.cache.copies[q] = B.cache.copies[q] := by rw [hV]; exact fun _ => rfl
            by_cases hr : 0 < cacheRoom w.st
            · rw [if_pos hr] at h
              rw [h, copies_set]
              by_cases hqp : q = p
              · subst hqp
                rw [if_pos rfl, if_pos hg, hwx]
                unfold midCopy; rw [f]
                simp only [Option.bind_some, hsent.2 hr, true_and]
                cases x.link <;> rfl
              · rw [if_neg hqp, Vcop, Bcop, if_neg hqp, if_neg]
                intro e2; rw [hg] at e2; cases e2; exact hqp rfl
            · rw [if_neg hr] at h
              rw [h, Vcop, Bcop]
              by_cases hqp : q = p
              · subst hqp
                rw [if_pos rfl, if_pos hg, hwx]
                unfold midCopy; rw [f]
                have : sentAtOnce s (s.ctx id) l = false := by
                  rw [Bool.eq_false_iff]; exact fun g => hr (hsent.1 g)
                simp [this]
              · rw [if_neg hqp, if_neg]
                intro e2; rw [hg] at e2; cases e2; exact hqp rfl

/-! ### All the links of a visit -/

/-- In a list of links with different targets the search for a target finds the link that names it. -/
theorem find_target {L : List Link} (hn : (L.filterMap (·.target)).Nodup) {n : Nat} {l : Link} (hl : L[n]? = some l)
    {g : Target} (hg : l.target = some g) :
    L.find? (·.target == some g) = some l ∧ (L.take n).find? (·.target == some g) = none := by
  obtain ⟨hlt, rfl⟩ := List.getElem?_eq_some_iff.1 hl
  have no : (L.take n).find? (·.target == some g) = none := by
    rw [List.find?_eq_none]
    intro x hx e
    rw [List.mem_take_iff_getElem] at hx
    obtain ⟨m, hm, rfl⟩ := hx
    have e' : L[m].target = some g := by simpa using e
    have := nodup_targets hn _ hlt e' hg
    omega
  refine ⟨?_, no⟩
  have e : L = L.take n ++ (L[n] :: L.drop (n + 1)) := by
    rw [← List.drop_eq_getElem_cons hlt, List.take_append_drop]
  have e2 : L.find? (·.target == some g) = (L.take n ++ (L[n] :: L.drop (n + 1))).find? (·.target == some g) := by rw [← e]
  rw [e2, List.find?_append, no, List.find?_cons_of_pos (by simp [hg])]
  rfl

theorem take_step {α : Type} {L : List α} {n : Nat} {x : α} (h : L[n]? = some x) : L.take (n + 1) = L.take n ++ [x] := by
  rw [List.take_add_one, h]; rfl

theorem damage_appends (s : State) (c : Ctx) (L : List Link) (m : PerPos (Option DamageCheck)) (pos : Position) :
    ((L.foldl (committedDamage s c) m).get pos).map (·.toAppend) = (m.get pos).map (·.toAppend) := by
  induction L generalizing m with
  | nil => rfl
  | cons l L ih =>
    rw [List.foldl_cons, ih]
    unfold committedDamage
    split
    · rename_i k p _ _
      cases p <;> cases pos <;> simp [PerPos.put, PerPos.get, Option.map_map] <;> rfl
    · rfl

/-- What the commit of the first links of a visit has made of a work. -/
abbrev CommittedSoFar (s : State) (id : CtxId) (n : Nat) (t : State) : Prop :=
  let c := s.ctx id
  let L := c.links.take n
  Sends s t (L.filterMap (committedReport s c)) ∧
  t.cache.counters = L.foldl (committedCount s c) s.cache.counters ∧ (∀ j, j ≠ id → t.ctx j = s.ctx j) ∧
  t.ctx id = { c with
    links := L.map (midLink s c) ++ c.links.drop n
    flags := L.foldl (committedFlags s c) c.flags
    damage := L.foldl (committedDamage s c) c.damage } ∧
  (∀ i y, t.entry i y = match L.find? (·.target == some (.way i y)) with
    | some l => midEntry s c l (s.entry i y)
    | none => s.entry i y) ∧
  ∀ p : Fin 48, t.cache.copies[p] = match L.find? (·.target == some (.copy p)) with
    | some l => s.cache.copies[p].bind (midCopy s c l)
    | none => s.cache.copies[p]

/-- R104 to R106: the commit of one link, or, for a visit that is turned out, nothing. -/
def commitIf (s : State) (id : CtxId) (w : Work) (n : Nat) : Work :=
  if (s.ctx id).decision = some .admitted ∨ (s.ctx id).decision = some .inspect then
    Work.commitLink s.writesThrough w ⟨id, n⟩
  else w

/-- In a list of links with different targets a link that names one stands first where it stands. -/
theorem idxOf_target {L : List Link} (hn : (L.filterMap (·.target)).Nodup) {n : Nat} {l : Link} (hl : L[n]? = some l)
    {g : Target} (hg : l.target = some g) : L.idxOf l = n := by
  obtain ⟨hlt, e⟩ := List.getElem?_eq_some_iff.1 hl
  have hm : l ∈ L := List.mem_of_getElem? hl
  have h1 : L.idxOf l < L.length := List.idxOf_lt_length_of_mem hm
  have h2 : L[L.idxOf l] = l := List.getElem_idxOf h1
  exact nodup_targets hn h1 hlt (g := g) (by rw [h2]; exact hg) (by rw [e]; exact hg)

theorem commitIf_fold (s : State) (id : CtxId) (hn : ((s.ctx id).links.filterMap (·.target)).Nodup)
    (hq : ∀ l ∈ (s.ctx id).links, TargetQuiet s l) (n : Nat) (hle : n ≤ (s.ctx id).links.length) :
    CommittedSoFar s id n ((List.range n).foldl (commitIf s id) { st := s }).st := by
  induction n with
  | zero => exact ⟨Sends.refl s, rfl, fun _ _ => rfl, by simp, fun _ _ => rfl, fun _ => rfl⟩
  | succ n ih =>
    obtain ⟨i1, i3, i4, i5, i6, i7⟩ := ih (by omega)
    rw [foldl_range_split]
    generalize (List.range n).foldl (commitIf s id) { st := s } = w at i1 i3 i4 i5 i6 i7 ⊢
    have hlt : n < (s.ctx id).links.length := by omega
    obtain ⟨l, hl⟩ : ∃ l, (s.ctx id).links[n]? = some l := ⟨_, List.getElem?_eq_getElem hlt⟩
    have hmem : l ∈ (s.ctx id).links := List.mem_of_getElem? hl
    have hlen : ((s.ctx id).links.take n).length = n := by rw [List.length_take]; omega
    have hwl : w.st.link? ⟨id, n⟩ = some l := by
      unfold State.link?
      rw [i5]
      show (_ ++ _)[n]? = _
      rw [List.getElem?_append_right (by simp)]
      simp only [List.length_map, hlen, Nat.sub_self]
      rw [List.getElem?_drop]; simpa using hl
    have step : 
        let c := s.ctx id
        let t := (commitIf s id w n).st
        Sends w.st t (committedReport s c l).toList ∧
        t.cache.counters = committedCount s c w.st.cache.counters l ∧
        (∀ j, t.ctx j = if j = id then
          { w.st.ctx j with
            links := (w.st.ctx j).links.set n (midLink s c l)
            flags := committedFlags s c (w.st.ctx j).flags l
            damage := committedDamage s c (w.st.ctx j).damage l }
          else w.st.ctx j) ∧
        (∀ i y, t.entry i y = if l.target = some (.way i y) then midEntry s c l (w.st.entry i y) else w.st.entry i y) ∧
        ∀ p : Fin 48, t.cache.copies[p] =
          if l.target = some (.copy p) then w.st.cache.copies[p].bind (midCopy s c l) else w.st.cache.copies[p] := by
      unfold commitIf
      by_cases hd : (s.ctx id).decision = some .admitted ∨ (s.ctx id).decision = some .inspect
      · rw [if_pos hd]
        refine commitLink_step s id n w l hd hwl (hq l hmem) ?_ ?_ ?_ ?_ ?_
        · intro hr
          obtain ⟨g, hg⟩ : ∃ g, l.target = some g := by
            unfold committedReport at hr
            cases ht : l.target with
            | none => rw [ht] at hr; simp at hr
            | some g => exact ⟨g, rfl⟩
          unfold sentAtOnce
          rw [idxOf_target hn hl hg, i1.room, decide_eq_true_eq]
          omega
        · intro i y ht
          rw [i6, (find_target hn hl ht).2]
        · intro p ht
          rw [i7, (find_target hn hl ht).2]
        · rw [i5]
        · intro pos; rw [i5]; exact damage_appends _ _ _ _ _
      · rw [if_neg hd]
        have f : linkFate s (s.ctx id) l = .dropped := by
          rw [not_or] at hd
          unfold linkFate
          split
          · rw [if_pos hd]
          · rfl
        intro c t
        have nr : committedReport s (s.ctx id) l = none := by
          unfold committedReport; rw [f]
          rcases target_cases l with ht | ⟨i, y, ht⟩ | ⟨p, ht⟩ <;> simp only [ht]
        refine ⟨by show Sends _ _ (committedReport s (s.ctx id) l).toList; rw [nr]; exact Sends.refl w.st, ?_, fun j => ?_,
          fun i y => ?_, fun p => ?_⟩
        · unfold committedCount; rw [f]
        · split
          · rename_i hj; subst hj
            unfold midLink committedFlags committedDamage
            rw [f, set_same _ _ _ hwl]
          · rfl
        · unfold midEntry; rw [f]; simp; rfl
        · have : midCopy s (s.ctx id) l = some := by funext x; unfold midCopy; rw [f]
          rw [this]; simp; rfl
    generalize (commitIf s id w n).st = t at step ⊢
    obtain ⟨s1, s3, s4, s5, s6⟩ := step
    unfold CommittedSoFar
    simp only [take_step hl]
    refine ⟨?_, ?_, fun j hj => ?_, ?_, fun i y => ?_, fun p => ?_⟩
    · rw [List.filterMap_append]
      have := i1.trans s1
      have e : [l].filterMap (committedReport s (s.ctx id)) = (committedReport s (s.ctx id) l).toList := by
        cases h : committedReport s (s.ctx id) l <;> simp [h]
      rw [e]; exact this
    · rw [s3, i3, List.foldl_append]; rfl
    · rw [s4, if_neg hj, i4 j hj]
    · rw [s4, if_pos rfl, i5, List.foldl_append, List.foldl_append]
      have : ((s.ctx id).links.take n).map (midLink s (s.ctx id)) ++ (s.ctx id).links.drop n =
          ((s.ctx id).links.take n).map (midLink s (s.ctx id)) ++ (l :: (s.ctx id).links.drop (n + 1)) := by
        rw [List.drop_eq_getElem_cons hlt]; rw [List.getElem?_eq_getElem hlt] at hl; cases hl; rfl
      simp only [this, List.map_append, List.map_cons, List.map_nil, List.append_assoc, List.cons_append, List.nil_append,
        List.foldl_cons, List.foldl_nil]
      rw [List.set_append_right _ _ (by simp)]
      simp only [List.length_map, hlen, Nat.sub_self, List.set_cons_zero]
    · rw [s5, i6, List.find?_append]
      by_cases ht : l.target = some (.way i y)
      · rw [if_pos ht, (find_target hn hl ht).2]; simp [ht]
      · rw [if_neg ht]
        cases ((s.ctx id).links.take n).find? (·.target == some (.way i y)) <;> simp [ht]
    · rw [s6, i7, List.find?_append]
      by_cases ht : l.target = some (.copy p)
      · rw [if_pos ht, (find_target hn hl ht).2]; simp [ht]
      · rw [if_neg ht]
        cases ((s.ctx id).links.take n).find? (·.target == some (.copy p)) <;> simp [ht]

/-- What the release of the first links of a committed visit has made of a work. -/
abbrev ReleasedSoFar (s : State) (id : CtxId) (n : Nat) (t : State) : Prop :=
  let c := s.ctx id
  let L := c.links.take n
  Sends s t (c.links.filterMap (committedReport s c)) ∧
  t.cache.counters = c.links.foldl (committedCount s c) s.cache.counters ∧ (∀ j, j ≠ id → t.ctx j = s.ctx j) ∧
  t.ctx id = { c with
    links := L.map (fun l => { l with target := none, holdsUnit := false }) ++ (c.links.drop n).map (midLink s c)
    flags := c.links.foldl (committedFlags s c) c.flags
    damage := c.links.foldl (committedDamage s c) c.damage } ∧
  (∀ i y, t.entry i y = match L.find? (·.target == some (.way i y)), c.links.find? (·.target == some (.way i y)) with
    | some l, _ => committedEntry s c l (s.entry i y)
    | none, some l => midEntry s c l (s.entry i y)
    | none, none => s.entry i y) ∧
  ∀ p : Fin 48, t.cache.copies[p] =
    match L.find? (·.target == some (.copy p)), c.links.find? (·.target == some (.copy p)) with
    | some l, _ => s.cache.copies[p].bind (committedCopy s c l)
    | none, some l => s.cache.copies[p].bind (midCopy s c l)
    | none, none => s.cache.copies[p]

theorem midLink_rest (s : State) (c : Ctx) (l : Link) :
    (midLink s c l).target = l.target ∧
    { midLink s c l with target := none, holdsUnit := false } = { l with target := none, holdsUnit := false } := by
  unfold midLink; split <;> exact ⟨rfl, rfl⟩

theorem midEntry_rest (s : State) (c : Ctx) (l : Link) (e : Entry) :
    (midEntry s c l e).mark = e.mark ∧
    { midEntry s c l e with
      pins := (midEntry s c l e).pins - 1
      held := if (midLink s c l).holdsUnit then (midEntry s c l e).held - 1 else (midEntry s c l e).held } =
      committedEntry s c l e := by
  unfold midEntry midLink committedEntry
  cases linkFate s c l with
  | dropped => exact ⟨rfl, rfl⟩
  | locked => exact ⟨rfl, rfl⟩
  | written k =>
    dsimp only
    split
    · split <;> exact ⟨rfl, rfl⟩
    · split <;> exact ⟨rfl, rfl⟩

theorem midCopy_rest (s : State) (c : Ctx) (l : Link) (x : PrivateCopy) (h : x.updateOwed = false) :
    ((midCopy s c l x).bind fun x => if x.updateOwed then some { x with link := none, held := 0 } else none) =
      committedCopy s c l x := by
  unfold midCopy committedCopy
  cases linkFate s c l with
  | dropped => simp [h]
  | locked => simp [h]
  | written k => cases hs : sentAtOnce s c l <;> cases hx : x.link <;> simp

theorem drop_fold (s : State) (id : CtxId) (hn : ((s.ctx id).links.filterMap (·.target)).Nodup)
    (hq : ∀ l ∈ (s.ctx id).links, TargetQuiet s l) (w : Work)
    (hw : CommittedSoFar s id (s.ctx id).links.length w.st) (n : Nat) (hle : n ≤ (s.ctx id).links.length) :
    ReleasedSoFar s id n ((List.range n).foldl (fun w m => w.commitDrop ⟨id, m⟩) w).st := by
  induction n with
  | zero =>
    obtain ⟨i1, i3, i4, i5, i6, i7⟩ := hw
    simp only [List.take_length] at i1 i3 i5 i6 i7
    refine ⟨i1, i3, i4, ?_, fun i y => ?_, fun p => ?_⟩
    · rw [show (List.range 0).foldl (fun w m => w.commitDrop ⟨id, m⟩) w = w from rfl, i5]
      simp
    · rw [show (List.range 0).foldl (fun w m => w.commitDrop ⟨id, m⟩) w = w from rfl, i6]
      simp only [List.take_zero, List.find?_nil]
      cases (s.ctx id).links.find? (·.target == some (.way i y)) <;> rfl
    · show w.st.cache.copies[p] = _
      rw [i7]
      simp only [List.take_zero, List.find?_nil]
      cases (s.ctx id).links.find? (·.target == some (.copy p)) <;> rfl
  | succ n ih =>
    obtain ⟨i1, i3, i4, i5, i6, i7⟩ := ih (by omega)
    rw [foldl_range_split]
    generalize (List.range n).foldl (fun w m => w.commitDrop ⟨id, m⟩) w = u at i1 i3 i4 i5 i6 i7 ⊢
    have hlt : n < (s.ctx id).links.length := by omega
    obtain ⟨l, hl⟩ : ∃ l, (s.ctx id).links[n]? = some l := ⟨_, List.getElem?_eq_getElem hlt⟩
    have hmem : l ∈ (s.ctx id).links := List.mem_of_getElem? hl
    have hlen : ((s.ctx id).links.take n).length = n := by rw [List.length_take]; omega
    have hml := midLink_rest s (s.ctx id) l
    have hul : u.st.link? ⟨id, n⟩ = some (midLink s (s.ctx id) l) := by
      unfold State.link?
      rw [i5]
      show (_ ++ _)[n]? = _
      rw [List.getElem?_append_right (by simp)]
      simp only [List.length_map, hlen, Nat.sub_self]
      rw [List.getElem?_map, List.getElem?_drop]; simpa using ⟨l, hl, rfl⟩
    have hdrop : (s.ctx id).links.drop n = l :: (s.ctx id).links.drop (n + 1) := by
      rw [List.drop_eq_getElem_cons hlt]; rw [List.getElem?_eq_getElem hlt] at hl; cases hl; rfl
    obtain ⟨s1, s3, s4, s5, s6⟩ := commitDrop_step u ⟨id, n⟩ (midLink s (s.ctx id) l) hul (by
      intro i y ht
      rw [hml.1] at ht
      rw [i6, (find_target hn hl ht).1, (find_target hn hl ht).2]
      dsimp only
      rw [(midEntry_rest _ _ _ _).1]
      exact ((hq l hmem).1 i y ht).1)
    generalize (u.commitDrop ⟨id, n⟩).st = t at s1 s3 s4 s5 s6 ⊢
    rw [hml.1] at s5 s6
    unfold ReleasedSoFar
    simp only [take_step hl]
    refine ⟨by have := i1.trans s1; rwa [List.append_nil] at this, s3.trans i3, fun j hj => ?_, ?_, fun i y => ?_, fun p => ?_⟩
    · rw [s4, if_neg hj, i4 j hj]
    · rw [s4, if_pos rfl, i5]
      simp only [hdrop, List.map_cons, List.map_append, List.map_nil, List.append_assoc, List.cons_append, List.nil_append]
      rw [modify_set _ n (midLink s (s.ctx id) l) _ (by
        rw [List.getElem?_append_right (by simp)]; simp only [List.length_map, hlen, Nat.sub_self]; rfl)]
      rw [List.set_append_right _ _ (by simp)]
      simp only [List.length_map, hlen, Nat.sub_self, List.set_cons_zero, hml.2]
    · rw [s5, i6, List.find?_append]
      by_cases ht : l.target = some (.way i y)
      · rw [if_pos ht, (find_target hn hl ht).2, (find_target hn hl ht).1]
        simp only [List.find?_cons, ht, beq_self_eq_true]
        exact (midEntry_rest _ _ _ _).2
      · rw [if_neg ht]
        cases ((s.ctx id).links.take n).find? (·.target == some (.way i y)) <;> simp [ht]
    · rw [s6, i7, List.find?_append]
      by_cases ht : l.target = some (.copy p)
      · rw [if_pos ht, (find_target hn hl ht).2, (find_target hn hl ht).1]
        simp only [List.find?_cons, ht, beq_self_eq_true]
        obtain ⟨x, hx, hu⟩ := (hq l hmem).2 p ht
        rw [hx]
        exact midCopy_rest _ _ _ _ hu
      · rw [if_neg ht]
        cases ((s.ctx id).links.take n).find? (·.target == some (.copy p)) <;> simp [ht]

/-- R57, R102, R104 to R106, R111: the commit of a visit's links is that of `LinksCommitted`, and changes no other context. -/
theorem commit_links (s : State) (id : CtxId) (hn : ((s.ctx id).links.filterMap (·.target)).Nodup)
    (hq : ∀ l ∈ (s.ctx id).links, TargetQuiet s l) :
    let t := (Work.commit { st := s } id).st
    LinksCommitted s t id ∧ t.params = s.params ∧ (∀ j, j ≠ id → t.ctx j = s.ctx j) ∧
    t.ctx id = { s.ctx id with links := (t.ctx id).links, flags := (t.ctx id).flags, damage := (t.ctx id).damage } := by
  intro t
  have et : t = (Work.commit { st := s } id).st := rfl
  clear_value t
  have e : Work.commit { st := s } id = (List.range (s.ctx id).links.length).foldl (fun w m => w.commitDrop ⟨id, m⟩)
      ((List.range (s.ctx id).links.length).foldl (commitIf s id) { st := s }) := by
    unfold Work.commit Work.refsOf
    simp only [List.foldl_map]
    congr 1
    by_cases hd : (s.ctx id).decision = some .admitted ∨ (s.ctx id).decision = some .inspect
    · rw [if_pos (by simpa using hd)]
      congr 1
      funext w n
      unfold commitIf
      rw [if_pos hd]
    · rw [if_neg (by simpa using hd)]
      have : commitIf s id = fun w _ => w := by funext w n; unfold commitIf; rw [if_neg hd]
      rw [this]
      generalize (List.range (s.ctx id).links.length) = R
      induction R with
      | nil => rfl
      | cons a R ih => exact ih
  rw [e] at et
  have h := drop_fold s id hn hq _ (commitIf_fold s id hn hq _ (le_refl _)) _ (le_refl _)
  rw [← et] at h
  obtain ⟨i1, i3, i4, i5, i6, i7⟩ := h
  simp only [List.take_length, List.drop_length, List.map_nil, List.append_nil] at i5 i6 i7
  refine ⟨⟨by rw [i5], by rw [i5], by rw [i5], i3, i1.2.2.2.2, i1.2.2.2.1, i1.2.1, i1.2.2.1, fun i y => ?_,
    fun p => ?_⟩, i1.1, i4, by rw [i5]⟩
  · rw [i6]
    cases (s.ctx id).links.find? (·.target == some (.way i y)) <;> rfl
  · rw [i7]
    cases (s.ctx id).links.find? (·.target == some (.copy p)) <;> rfl

end Sys2Proof.Laws
end

