-- ==== Sys2Proof/Laws/Pages.lean ====
section
/-! SUPPORT. The links: what a frame handed to a port, a page sent, offered or composed, a hearing and a frame taken leave of the
segment ports and of the station map (R2, R3, R7, R19, R171 to R173, R177), as the vocabulary of Safety.lean says it. -/

open Sys2Proof.Machine Sys2Proof.Safety
namespace Sys2Proof.Laws

@[simp] theorem segOf_stationIx (g : Seg) (a : Addr) : segOf (stationIx g a) = g := by
  apply Fin.ext; simp only [segOf, stationIx]; omega

@[simp] theorem addrOf_stationIx (g : Seg) (a : Addr) : addrOf (stationIx g a) = a := by
  apply Fin.ext; simp only [addrOf, stationIx]; omega

/-- A place of the map is that of its segment and address. -/
theorem stationIx_of (ix : StationIx) : stationIx (segOf ix) (addrOf ix) = ix := by
  apply Fin.ext; simp only [addrOf, stationIx, segOf]; omega

/-- A state with the port of a segment and the entry of one of its addresses replaced. -/
def placed (s : State) (g : Seg) (a : Addr) (x : SegPort × Station) : State :=
  { s with ports := s.ports.set g x.1, stations := s.stations.set (stationIx g a) x.2 }

/-- The port of a segment and the entry of one of its addresses. -/
def linkOf (s : State) (g : Seg) (a : Addr) : SegPort × Station := (s.port g, s.station (stationIx g a))

/-- The ports of a state with one link replaced. -/
theorem placed_port (s : State) (g : Seg) (a : Addr) (x : SegPort × Station) (h : Seg) :
    (placed s g a x).port h = if h = g then x.1 else s.port h := by
  simp only [placed, State.port, Fin.getElem_fin, Vector.getElem_set, Fin.ext_iff, eq_comm]

/-- The entries of a state with one link replaced. -/
theorem placed_station (s : State) (g : Seg) (a : Addr) (x : SegPort × Station) (j : StationIx) :
    (placed s g a x).station j = if j = stationIx g a then x.2 else s.station j := by
  simp only [placed, State.station, Fin.getElem_fin, Vector.getElem_set, Fin.ext_iff, eq_comm]

theorem linkOf_placed (s : State) (g : Seg) (a : Addr) (x : SegPort × Station) : linkOf (placed s g a x) g a = x := by
  unfold linkOf; rw [placed_port, placed_station, if_pos rfl, if_pos rfl]

theorem placed_placed (s : State) (g : Seg) (a : Addr) (x y : SegPort × Station) :
    placed (placed s g a x) g a y = placed s g a y := by
  unfold placed; simp

theorem placed_self (s : State) (g : Seg) (a : Addr) : placed s g a (linkOf s g a) = s := by
  unfold placed linkOf State.port State.station; simp

theorem updPort_placed (s : State) (g : Seg) (a : Addr) (f : SegPort → SegPort) :
    s.updPort g f = placed s g a (f (s.port g), s.station (stationIx g a)) := by
  unfold State.updPort placed upd State.port State.station; simp

theorem updStation_placed (s : State) (g : Seg) (a : Addr) (f : Station → Station) :
    s.updStation (stationIx g a) f = placed s g a (s.port g, f (s.station (stationIx g a))) := by
  unfold State.updStation placed upd State.port State.station; simp

/-- R7: a frame handed to a port. -/
theorem handOff_eq (s : State) (g : Seg) (a : Addr) (k : TxKind) (b : List Byte) :
    s.handOff g a k b = (placed s g a ((handed (s.port g) (s.station (stationIx g a)) a k b).1, s.station (stationIx g a)),
      (handed (s.port g) (s.station (stationIx g a)) a k b).2) := by
  have hr : s.reachable g a = true ↔ (s.station (stationIx g a)).state = .learn ∨
      ((s.station (stationIx g a)).state = .frozen ∧ (s.station (stationIx g a)).mismatched = false) := by
    unfold State.reachable
    cases h : (s.station (stationIx g a)).state <;> simp [h]
  unfold State.handOff handed
  by_cases h : (s.port g).state ≠ .down ∧ ((s.station (stationIx g a)).state = .learn ∨
      ((s.station (stationIx g a)).state = .frozen ∧ (s.station (stationIx g a)).mismatched = false)) ∧
      (s.port g).txQueue.length < 32
  · rw [if_pos h, if_neg]
    · dsimp only; rw [updPort_placed s g a]
    · rintro (e | e | e)
      · exact h.1 e
      · have := hr.2 h.2.1; rw [e] at this; cases this
      · simp only [Config.txQueueSize] at e; omega
  · rw [if_neg h, if_pos]
    · unfold State.countPort; rw [updPort_placed s g a]
    · by_cases h1 : (s.port g).state = .down
      · exact .inl h1
      · by_cases h2 : s.reachable g a = true
        · refine .inr (.inr ?_)
          simp only [Config.txQueueSize]
          have : ¬ (s.port g).txQueue.length < 32 := fun e => h ⟨h1, hr.1 h2, e⟩
          omega
        · exact .inr (.inl (by simpa using h2))

/-- R172: a page sent. -/
theorem sendPage_eq (s : State) (g : Seg) (a : Addr) (p : Page) :
    s.sendPage (stationIx g a) p = placed s g a (paged s.params.signAck a p (linkOf s g a)) := by
  unfold State.sendPage
  simp only [segOf_stationIx, addrOf_stationIx, handOff_eq, placed_port, placed_station, if_true, placed_placed,
    State.updChannel]
  rw [updStation_placed, placed_placed, placed_port, placed_station, if_pos rfl, if_pos rfl]
  rfl

/-- R172: the pending page of a channel sent. -/
theorem sendWaiting_eq (s : State) (g : Seg) (a : Addr) :
    s.sendWaiting (stationIx g a) = placed s g a (pendingSent s.params.signAck a (linkOf s g a)) := by
  unfold State.sendWaiting pendingSent
  show (match (s.station (stationIx g a)).channel with | some ch => _ | none => s) = placed s g a
    (match ((s.station (stationIx g a)).channel).bind (·.waiting) with | some _ => _ | none => linkOf s g a)
  cases hc : (s.station (stationIx g a)).channel with
  | none => exact (placed_self s g a).symm
  | some ch =>
    cases hw : ch.waiting with
    | none => simp only [Option.bind_some, hw]; exact (placed_self s g a).symm
    | some p =>
      simp only [Option.bind_some, hw]
      rw [sendPage_eq, State.updChannel, updStation_placed, placed_placed, linkOf_placed]
      have : (linkOf s g a).2.channel = some ch := hc
      rw [this]
      simp only [hc]
      rfl

/-- R173: a hearing. -/
theorem signHearing_eq (s : State) (g : Seg) (a : Addr) :
    s.signHearing (stationIx g a) = placed s g a (hearing s.params.signAck a (linkOf s g a)) := by
  unfold State.signHearing hearing
  show (match (s.station (stationIx g a)).channel with | some ch => _ | none => s) = placed s g a
    (if ((s.station (stationIx g a)).channel).any _ then _ else linkOf s g a)
  cases hc : (s.station (stationIx g a)).channel with
  | none => exact (placed_self s g a).symm
  | some ch =>
    dsimp only
    rw [Option.any_some]
    split
    · exact sendWaiting_eq s g a
    · exact (placed_self s g a).symm

/-- R2, R3, R19: the frame at the head of a receive queue that is no duplicate is taken: its port takes it, its sender is heard,
the station map acts on it, and the hearing follows. -/
theorem takeFrame_eq (s : State) (g : Seg) (f : RxFrame) (rest : List RxFrame) (consume : State → Taken → State)
    (hq : (s.port g).rxQueue = f :: rest) (hd : (s.port g).seqRecord[f.src] ≠ some f.seq ∨ f.msg.kind = .hello) :
    let e := heardEntry s g f
    let u : State := { placed s g f.src (takenPort s g f, e) with uplink := if (sender s g f).state = .empty then s.uplink else heardUplink s g f }
    s.takeFrame g f.msg.kind consume = (u.mapFrame ⟨g, stationIx g f.src, e, f⟩ consume).signHearing (stationIx g f.src) := by
  intro e u
  have heard_eq : ∀ v : State, v.params = s.params → (v.port g).state = (s.port g).state →
      v.station (stationIx g f.src) = s.station (stationIx g f.src) → v.uplink = s.uplink →
      v.heard g (stationIx g f.src) = { placed v g f.src (v.port g, e) with
        uplink := if (sender s g f).state = .empty then s.uplink else heardUplink s g f } := by
    intro v h1 h2 h3 h4
    unfold State.heard
    simp only [h1, h2, h3]
    by_cases hm : (s.station (stationIx g f.src)).state = .empty ∨ (s.port g).state = .down
    · rw [if_pos hm]
      have he : e = v.station (stationIx g f.src) := by
        rw [h3]
        show heardEntry s g f = _
        unfold heardEntry
        rw [if_neg]
        rintro ⟨a, b⟩; rcases hm with h | h
        · exact a h
        · exact b h
      have hu : (if (sender s g f).state = .empty then s.uplink else heardUplink s g f) = v.uplink := by
        rw [h4]
        split
        · rfl
        · rename_i hne
          unfold heardUplink
          rw [if_neg]
          rintro ⟨-, b⟩
          rcases hm with h | h
          · exact hne h
          · exact b h
      rw [hu, he]
      show v = placed v g f.src (linkOf v g f.src)
      exact (placed_self v g f.src).symm
    · rw [if_neg hm]
      have hne : (sender s g f).state ≠ .empty := fun h => hm (.inl h)
      have hnd : (s.port g).state ≠ .down := fun h => hm (.inr h)
      have he : e = { s.station (stationIx g f.src) with silent := false, silenceTimer := some s.params.silenceLimit } := by
        show heardEntry s g f = _
        unfold heardEntry
        exact if_pos ⟨hne, hnd⟩
      rw [if_neg hne]
      rw [updStation_placed, h3, ← he]
      unfold heardUplink
      by_cases hs : (s.station (stationIx g f.src)).silent = true
      · rw [if_pos hs, if_pos ⟨hs, hnd⟩]
        unfold State.stationEvent
        rw [offerB_eq]
        rw [← h4]; rfl
      · rw [if_neg hs, if_neg (fun h => hs h.1), ← h4]
        rfl
  unfold State.takeFrame
  rw [hq]
  dsimp only
  rw [if_pos rfl]
  have hport : ((s.updPort g fun p => { p with rxQueue := rest }).port g) = { s.port g with rxQueue := rest } := by
    simp
  rw [hport]
  have hck : ∃ gap, seqCheck (s.port g).seqRecord[f.src] f.seq (f.msg.kind == .hello) = .taken gap ∧
      (gap = true ↔ ∃ r, (s.port g).seqRecord[f.src] = some r ∧ ¬ (f.seq = r ∨ f.seq = r + 1)) := by
    cases hr : (s.port g).seqRecord[f.src] with
    | none => exact ⟨false, rfl, by simp⟩
    | some r =>
      unfold seqCheck
      dsimp only
      by_cases h : f.seq = r
      · have hk : f.msg.kind = .hello := by
          rcases hd with hd | hd
          · rw [hr, h] at hd; exact absurd rfl hd
          · exact hd
        exact ⟨false, by rw [if_pos h, hk]; rfl, by simp [h]⟩
      · exact ⟨f.seq != r + 1, by rw [if_neg h], by simp [h]⟩
  obtain ⟨gap, hc, hgap⟩ := hck
  show (match seqCheck (s.port g).seqRecord[f.src] f.seq (f.msg.kind == .hello) with
    | .duplicate => _
    | .taken gap => _) = _
  rw [hc]
  dsimp only
  have hv : (if gap = true then
      ((s.updPort g fun p => { p with rxQueue := rest }).updPort g fun p => { p with seqRecord := p.seqRecord.set f.src (some f.seq) }).countPort g
        fun k => { k with sequenceErrors := bump k.sequenceErrors }
      else (s.updPort g fun p => { p with rxQueue := rest }).updPort g fun p => { p with seqRecord := p.seqRecord.set f.src (some f.seq) }) =
      placed s g f.src (takenPort s g f, s.station (stationIx g f.src)) := by
    unfold State.countPort
    have up : ∀ (v : State) F, v.updPort g F = placed v g f.src (F (v.port g), v.station (stationIx g f.src)) :=
      fun v F => updPort_placed v g f.src F
    simp only [up, placed_placed, placed_port, placed_station, if_true]
    unfold takenPort
    dsimp only
    rw [hq, List.tail_cons]
    cases hr : (s.port g).seqRecord[f.src] with
    | none =>
      have : gap = false := by
        cases gap with
        | false => rfl
        | true => obtain ⟨r, h, -⟩ := hgap.1 rfl; rw [hr] at h; cases h
      rw [this]; rfl
    | some r =>
      dsimp only
      by_cases h : f.seq = r ∨ f.seq = r + 1
      · have : gap = false := by
          cases gap with
          | false => rfl
          | true => obtain ⟨r', h1, h2⟩ := hgap.1 rfl; rw [hr] at h1; cases h1; exact absurd h h2
        rw [this, if_pos h]; rfl
      · have : gap = true := hgap.2 ⟨r, hr, h⟩
        rw [this, if_neg h]; rfl
  rw [hv, heard_eq (placed s g f.src (takenPort s g f, s.station (stationIx g f.src))) rfl (by rw [placed_port, if_pos rfl]; rfl) (by rw [placed_station, if_pos rfl]) rfl, placed_port,
    if_pos rfl, placed_placed]
  have hs : ({ placed s g f.src (takenPort s g f, e) with
      uplink := if (sender s g f).state = .empty then s.uplink else heardUplink s g f } : State).station (stationIx g f.src) = e := by
    show (placed s g f.src (takenPort s g f, e)).station _ = e
    rw [placed_station, if_pos rfl]
  rw [hs]

/-- R171, R172: a page offered to a station. -/
theorem offerPage_eq (s : State) (g : Seg) (a : Addr) (p : Page) :
    s.offerPage (stationIx g a) p = placed s g a (offered s.params.signAck a p (linkOf s g a)) := by
  unfold State.offerPage offered
  show (match (s.station (stationIx g a)).channel with | none => s | some ch => _) = placed s g a
    (match (s.station (stationIx g a)).channel with | none => linkOf s g a | some ch => _)
  cases hc : (s.station (stationIx g a)).channel with
  | none => exact (placed_self s g a).symm
  | some ch =>
    dsimp only
    have hl : State.latestPage ch = ch.waiting.or ((ch.inFlight.map (·.page)).or ch.lastAcked) := by
      unfold State.latestPage
      cases ch.waiting <;> cases ch.inFlight <;> rfl
    by_cases h1 : ch.lastAcked.isSome = true ∧ (ch.waiting.or ((ch.inFlight.map (·.page)).or ch.lastAcked)) = some p
    · rw [if_pos h1, if_pos (by rw [hl]; simp [h1.1, h1.2])]
      exact (placed_self s g a).symm
    · rw [if_neg h1, if_neg (by rw [hl]; simpa using h1)]
      by_cases h2 : ch.fault = false ∧ ch.inFlight = none
      · rw [if_pos h2, if_pos (by simp [h2.1, h2.2])]
        exact sendPage_eq s g a p
      · rw [if_neg h2, if_neg (by simpa using h2), State.updChannel, updStation_placed]
        unfold linkOf
        rw [hc]; rfl

/-- R7: what a frame handed to a port leaves of it. -/
theorem handed_tx (p : SegPort) (e : Station) (a : Addr) (k : TxKind) (b : List Byte) : TxOnly p (handed p e a k b).1 := by
  unfold handed TxOnly; split <;> rfl

theorem tx_trans {p q r : SegPort} (h1 : TxOnly p q) (h2 : TxOnly q r) : TxOnly p r := by
  unfold TxOnly at *; rw [h2, h1]

/-- What a page offered leaves of the port and of the entry. -/
theorem offered_only (limit : Nat) (a : Addr) (g : Page) (x : SegPort × Station) :
    TxOnly x.1 (offered limit a g x).1 ∧
    (offered limit a g x).2 = { x.2 with channel := (offered limit a g x).2.channel } := by
  unfold offered
  cases hc : x.2.channel with
  | none => exact ⟨rfl, rfl⟩
  | some ch =>
    dsimp only
    split
    · exact ⟨rfl, rfl⟩
    · split
      · exact ⟨tx_trans (handed_tx _ _ _ _ _) (handed_tx _ _ _ _ _), rfl⟩
      · exact ⟨rfl, rfl⟩

/-- R171: a page offered to one station. -/
theorem offerPage_pagesOnly (s : State) (ix : StationIx) (p : Page) :
    PagesOnly s.port s.station (· = ix) (s.offerPage ix p) := by
  rw [← stationIx_of ix]
  generalize segOf ix = g
  generalize addrOf ix = a
  rw [offerPage_eq]
  obtain ⟨h1, h2⟩ := offered_only s.params.signAck a p (linkOf s g a)
  generalize offered s.params.signAck a p (linkOf s g a) = y at h1 h2
  refine ⟨fun j => ?_, fun j hj => ?_, fun h => ?_, fun h hn => ?_⟩
  · rw [placed_station]
    split
    · rename_i e; subst e; exact h2
    · rfl
  · rw [placed_station, if_neg hj]
  · rw [placed_port]
    split
    · rename_i e; subst e; exact h1
    · rfl
  · rw [placed_port, if_neg]
    rintro rfl
    exact hn a rfl

/-- Pages composed after pages. -/
theorem PagesOnly.trans {s t u : State} {P Q : StationIx → Prop} (h1 : PagesOnly s.port s.station P t)
    (h2 : PagesOnly t.port t.station Q u) (hq : ∀ j, Q j → P j) : PagesOnly s.port s.station P u := by
  refine ⟨fun j => ?_, fun j hj => ?_, fun g => tx_trans (h1.2.2.1 g) (h2.2.2.1 g), fun g hg => ?_⟩
  · rw [h2.1 j, h1.1 j]
  · rw [h2.2.1 j (fun h => hj (hq j h)), h1.2.1 j hj]
  · rw [h2.2.2.2 g (fun a h => hg a (hq _ h)), h1.2.2.2 g hg]

theorem PagesOnly.refl (s : State) (P : StationIx → Prop) : PagesOnly s.port s.station P s :=
  ⟨fun _ => rfl, fun _ _ => rfl, fun _ => rfl, fun _ _ => rfl⟩

theorem PagesOnly.mono {p : Seg → SegPort} {e : StationIx → Station} {t : State} {P Q : StationIx → Prop} (h : PagesOnly p e P t)
    (hq : ∀ j, P j → Q j) : PagesOnly p e Q t :=
  ⟨h.1, fun j hj => h.2.1 j fun k => hj (hq j k), h.2.2.1, fun g hg => h.2.2.2 g fun a k => hg a (hq _ k)⟩

/-- R171: a composition changes the sign channels of its lane and what their segments send, and no more of the links. -/
theorem compose_pagesOnly (s : State) (l : LaneId) : PagesOnly s.port s.station (SignOf s l) (s.compose l) := by
  unfold State.compose
  generalize s.page l = p
  generalize List.finRange 124 = K
  have gen : ∀ (L : List (Fin 124)) (t : State), PagesOnly s.port s.station (SignOf s l) t →
      PagesOnly s.port s.station (SignOf s l) (L.foldl (fun s ix => if s.isSignOf l ix then s.offerPage ix p else s) t) := by
    intro L
    induction L with
    | nil => exact fun _ h => h
    | cons ix L ih =>
      intro t ht
      rw [List.foldl_cons]
      apply ih
      split
      · rename_i hs
        refine PagesOnly.trans ht (offerPage_pagesOnly t ix p) ?_
        rintro j rfl
        have e := ht.1 j
        unfold State.isSignOf at hs
        rw [e] at hs
        simpa [Station.isSign, SignOf, and_assoc] using hs
      · exact ht
  exact gen K s (PagesOnly.refl s _)

/-- A composition leaves every station a SIGN of its lane or none. -/
theorem SignOf_kept {s t : State} {P : StationIx → Prop} (h : PagesOnly s.port s.station P t) (l : LaneId) (j : StationIx) :
    SignOf t l j ↔ SignOf s l j := by
  unfold SignOf; rw [h.1 j]

/-- R171: the composition of every lane. -/
theorem composeAll_pagesOnly (s : State) : PagesOnly s.port s.station (fun j => ∃ l, SignOf s l j) s.composeAll := by
  unfold State.composeAll
  generalize List.finRange 16 = K
  have gen : ∀ (L : List LaneId) (t : State), PagesOnly s.port s.station (fun j => ∃ l, SignOf s l j) t →
      PagesOnly s.port s.station (fun j => ∃ l, SignOf s l j) (L.foldl State.compose t) := by
    intro L
    induction L with
    | nil => exact fun _ h => h
    | cons l L ih =>
      intro t ht
      rw [List.foldl_cons]
      refine ih _ (PagesOnly.trans (Q := SignOf t l) ht (compose_pagesOnly t l) ?_)
      intro j hj
      exact ⟨l, (SignOf_kept ht l j).1 hj⟩
  exact gen K s (PagesOnly.refl s _)

/-- R2, R3, R19, R173: what a frame taken leaves of the links, where the station map's act on it leaves of the port and of the
sender's entry what `act` makes of them. -/
theorem takeFrame_linkOnly (s : State) (g : Seg) (f : RxFrame) (rest : List RxFrame) (consume : State → Taken → State)
    (act : SegPort × Station → SegPort × Station)
    (hq : (s.port g).rxQueue = f :: rest) (hd : (s.port g).seqRecord[f.src] ≠ some f.seq ∨ f.msg.kind = .hello)
    (hm : let e := heardEntry s g f
      let u : State := { placed s g f.src (takenPort s g f, e) with
        uplink := if (sender s g f).state = .empty then s.uplink else heardUplink s g f }
      let m := u.mapFrame ⟨g, stationIx g f.src, e, f⟩ consume
      let v := placed s g f.src (act (takenPort s g f, e))
      m.ports = v.ports ∧ m.stations = v.stations ∧ m.params = s.params) :
    LinkOnly s (s.takeFrame g f.msg.kind consume) g f act := by
  have ht := takeFrame_eq s g f rest consume hq hd
  dsimp only at hm ht
  generalize State.mapFrame _ _ consume = m at hm ht
  obtain ⟨h1, h2, h3⟩ := hm
  rw [ht, signHearing_eq, h3]
  have hp : ∀ h, m.port h = (placed s g f.src (act (takenPort s g f, heardEntry s g f))).port h := by
    intro h; unfold State.port; rw [h1]
  have hs : ∀ j, m.station j = (placed s g f.src (act (takenPort s g f, heardEntry s g f))).station j := by
    intro j; unfold State.station; rw [h2]
  have hl : linkOf m g f.src = act (takenPort s g f, heardEntry s g f) := by
    unfold linkOf; rw [hp, hs, placed_port, placed_station, if_pos rfl, if_pos rfl]
  rw [hl]
  refine ⟨fun h hne => ?_, fun j hne => ?_, ?_⟩
  · rw [placed_port, if_neg hne, hp, placed_port, if_neg hne]
  · rw [placed_station, if_neg hne, hs, placed_station, if_neg hne]
  · rw [placed_port, placed_station, if_pos rfl, if_pos rfl]

/-- A page does not depend on the links. -/
theorem page_placed (s : State) (g : Seg) (a : Addr) (x : SegPort × Station) (l : LaneId) : (placed s g a x).page l = s.page l := rfl

/-- R177: every sign channel offered its lane's page in station map order: on each segment the channels take their pages in
address order, each from the port as those before it leave it. -/
theorem offerAll_eq (s : State) (g : Seg) :
    let e (a : Addr) : Station := s.station (stationIx g a)
    let x (n : Nat) : SegPort := ((List.finRange 31).take n).foldl
      (fun p a => (offered s.params.signAck a (s.page (e a).lane) (p, e a)).1) (s.port g)
    s.offerAll.port g = x 31 ∧
    ∀ a, s.offerAll.station (stationIx g a) = (offered s.params.signAck a (s.page (e a).lane) (x a.val, e a)).2 := by
  intro e x
  let P (n : Nat) (t : State) : Prop :=
    t.params = s.params ∧ (∀ l, t.page l = s.page l) ∧ t.port g = x (min 31 (n - 31 * g.val)) ∧
    ∀ a, t.station (stationIx g a) =
      if (stationIx g a).val < n then (offered s.params.signAck a (s.page (e a).lane) (x a.val, e a)).2 else e a
  have key : ∀ n ≤ 124, P n (((List.finRange 124).take n).foldl
      (fun s ix => s.offerPage ix (s.page (s.station ix).lane)) s) := by
    intro n
    induction n with
    | zero =>
      intro _
      refine ⟨rfl, fun _ => rfl, ?_, fun a => ?_⟩
      · simp [x]
      · rw [if_neg (by omega)]; rfl
    | succ n ih =>
      intro hn
      obtain ⟨i1, i2, i3, i4⟩ := ih (by omega)
      have hel : (List.finRange 124)[n]? = some ⟨n, by omega⟩ := by
        rw [List.getElem?_eq_getElem (by simp; omega)]; simp
      rw [List.take_add_one, hel, List.foldl_append]
      generalize ((List.finRange 124).take n).foldl (fun s ix => s.offerPage ix (s.page (s.station ix).lane)) s = t at i1 i2 i3 i4 ⊢
      show P (n + 1) (t.offerPage ⟨n, _⟩ (t.page (t.station ⟨n, _⟩).lane))
      obtain ⟨k, hk⟩ : ∃ k : StationIx, k = ⟨n, by omega⟩ := ⟨_, rfl⟩
      have hkv : k.val = n := by rw [hk]
      rw [← hk, i2]
      obtain ⟨h, b, hb⟩ : ∃ h b, k = stationIx h b := ⟨segOf k, addrOf k, (stationIx_of k).symm⟩
      have hv : 31 * h.val + b.val = n := by rw [← hkv, hb]; rfl
      rw [hb, offerPage_eq, i1]
      have hbl := b.isLt
      refine ⟨i1, fun l => (page_placed _ _ _ _ _).trans (i2 l), ?_, fun a => ?_⟩
      · rw [placed_port]
        by_cases hg : g = h
        · subst hg
          have m1 : min 31 (n - 31 * g.val) = b.val := by omega
          have m2 : min 31 (n + 1 - 31 * g.val) = b.val + 1 := by omega
          rw [if_pos rfl, m2]
          have hst : t.station (stationIx g b) = e b := by
            rw [i4, if_neg]; show ¬ 31 * g.val + b.val < n; omega
          unfold linkOf
          rw [hst, i3, m1]
          show _ = ((List.finRange 31).take (b.val + 1)).foldl _ _
          rw [List.take_add_one, List.getElem?_eq_getElem (by simp), List.foldl_append]
          simp [x]
        · have hne : g.val ≠ h.val := fun q => hg (Fin.ext q)
          rw [if_neg hg, i3]
          congr 1; omega
      · rw [placed_station]
        by_cases ha : stationIx g a = stationIx h b
        · have hgv : 31 * g.val + a.val = 31 * h.val + b.val := congrArg Fin.val ha
          have hal := a.isLt
          have hg : g = h := Fin.ext (by omega)
          subst hg
          have hab : a = b := Fin.ext (by omega)
          subst hab
          rw [if_pos rfl, if_pos (by show 31 * g.val + a.val < n + 1; omega)]
          have hst : t.station (stationIx g a) = e a := by
            rw [i4, if_neg]; show ¬ 31 * g.val + a.val < n; omega
          have m1 : min 31 (n - 31 * g.val) = a.val := by omega
          unfold linkOf
          rw [hst, i3, m1]
        · rw [if_neg ha, i4]
          have hne : 31 * g.val + a.val ≠ 31 * h.val + b.val := fun q => ha (Fin.ext q)
          have hiff : (stationIx g a).val < n ↔ (stationIx g a).val < n + 1 := by
            show 31 * g.val + a.val < n ↔ 31 * g.val + a.val < n + 1
            omega
          by_cases hlt : (stationIx g a).val < n
          · rw [if_pos hlt, if_pos (hiff.1 hlt)]
          · rw [if_neg hlt, if_neg (fun q => hlt (hiff.2 q))]
  have h := key 124 (by omega)
  have ht : (List.finRange 124).take 124 = List.finRange 124 := List.take_of_length_le (by simp)
  rw [ht] at h
  change P 124 s.offerAll at h
  obtain ⟨-, -, h3, h4⟩ := h
  refine ⟨?_, fun a => ?_⟩
  · have m : min 31 (124 - 31 * g.val) = 31 := by have := g.isLt; omega
    rw [h3, m]
  · rw [h4, if_pos]
    show 31 * g.val + a.val < 124
    omega
end Sys2Proof.Laws
end

