-- ==== Sys2Proof/Laws/Lookup.lean ====
section
/-! SUPPORT. The BOOKING LOOKUP (R88 to R94, R102): what one lookup can do, said once by the relation `LookedUp` of
Safety.lean. -/

open Sys2Proof Sys2Proof.Machine Sys2Proof.Safety
namespace Sys2Proof.Laws

/-! ### Tags and prefixes -/

theorem takeTag_walk (n : Nat) (s : State)
    (h : ∃ m ≤ n, ∀ i : Fin 16, ∀ f ∈ s.cache.slots[i], f.tag ≠ s.uplink.nextTag + BitVec.ofNat 16 m) :
    ∃ tag, TagFor s tag ∧
      Work.takeTag n s = ({ s with uplink := { s.uplink with nextTag := tag + 1 } }, tag) := by
  induction n generalizing s with
  | zero =>
    obtain ⟨m, hm, hf⟩ := h
    obtain rfl : m = 0 := by omega
    refine ⟨s.uplink.nextTag, ⟨0, by simp, ?_, by simp⟩, rfl⟩
    rintro ⟨i, f, hi, ht⟩
    exact hf i f hi (by simpa using ht)
  | succ n ih =>
    unfold Work.takeTag
    dsimp only
    by_cases hh : ∃ i : Fin 16, ∃ f ∈ s.cache.slots[i], f.tag = s.uplink.nextTag
    · rw [if_pos]
      · obtain ⟨m, hm, hf⟩ := h
        have hm0 : m ≠ 0 := by
          rintro rfl
          obtain ⟨i, f, hi, ht⟩ := hh
          exact hf i f hi (by simpa using ht)
        obtain ⟨m, rfl⟩ : ∃ k, m = k + 1 := ⟨m - 1, by omega⟩
        obtain ⟨tag, ⟨k, h1, h2, h3⟩, h4⟩ := ih (s.updUplink fun u => { u with nextTag := u.nextTag + 1 })
          ⟨m, by omega, fun i f hi => by
            have := hf i f hi
            simpa [State.updUplink, BitVec.add_assoc, Nat.add_comm m 1, BitVec.ofNat_add] using this⟩
        have step : ∀ k : Nat, (s.updUplink fun u => { u with nextTag := u.nextTag + 1 }).uplink.nextTag + BitVec.ofNat 16 k =
            s.uplink.nextTag + BitVec.ofNat 16 (k + 1) := by
          intro k; simp [State.updUplink, BitVec.add_assoc, Nat.add_comm k 1, BitVec.ofNat_add]
        refine ⟨tag, ⟨k + 1, by rw [h1, step], h2, ?_⟩, ?_⟩
        · intro m hm
          cases m with
          | zero => simpa using hh
          | succ m => have := h3 m (by omega); rw [step] at this; exact this
        · rw [h4]; rfl
      · obtain ⟨i, f, hi, ht⟩ := hh
        rw [List.any_eq_true]
        refine ⟨some f, ?_, by simp [ht]⟩
        rw [Vector.mem_toList_iff]
        exact hi ▸ Vector.getElem_mem _
    · rw [if_neg]
      · exact ⟨s.uplink.nextTag, ⟨0, by simp, hh, by simp⟩, rfl⟩
      · intro g
        rw [List.any_eq_true] at g
        obtain ⟨x, hx, hy⟩ := g
        rw [Vector.mem_toList_iff, Vector.mem_iff_getElem] at hx
        obtain ⟨i, hi, rfl⟩ := hx
        simp only [State.updUplink_cache] at hy
        rw [Option.any_eq_true] at hy
        obtain ⟨f, hf, ht⟩ := hy
        exact hh ⟨⟨i, hi⟩, f, hf, by simpa using ht⟩

/-- R94: with a slot free the tag taken is the next that no slot holds. -/
theorem takeTag_spec (s : State) (i : Fin 16) (hi : s.cache.slots[i] = none) :
    ∃ tag, TagFor s tag ∧
      Work.takeTag 16 s = ({ s with uplink := { s.uplink with nextTag := tag + 1 } }, tag) := by
  apply takeTag_walk
  by_contra hn
  have hn : ∀ m : Fin 16, ∃ i : Fin 16, ∃ f, s.cache.slots[i] = some f ∧ f.tag = s.uplink.nextTag + BitVec.ofNat 16 m.val := by
    intro m
    by_contra g
    exact hn ⟨m.val, by omega, fun i f hi ht => g ⟨i, f, hi, ht⟩⟩
  choose f g hg ht using hn
  have inj : Function.Injective f := by
    intro a b e
    have ga := hg a
    have gb := hg b
    rw [e, gb] at ga
    have : g b = g a := by simpa using ga
    have h1 := ht a
    have h2 := ht b
    rw [this, h1] at h2
    have := congrArg BitVec.toNat (BitVec.add_right_inj _ |>.1 h2)
    simp at this
    exact Fin.ext (by omega)
  have sur := Finite.injective_iff_surjective.1 inj
  obtain ⟨m, hm⟩ := sur i
  have := hg m
  rw [hm, hi] at this
  cases this

theorem prefixLe_eq (a b : List Byte) (h : a.length = b.length) :
    Work.prefixLe a b = true ↔ NotAbove (a.map charValue) (b.map charValue) := by
  induction a generalizing b with
  | nil => cases b with
    | nil => exact ⟨fun _ => .inl rfl, fun _ => rfl⟩
    | cons => simp at h
  | cons x xs ih =>
    cases b with
    | nil => simp at h
    | cons y ys =>
      simp only [List.length_cons, Nat.add_right_cancel_iff] at h
      simp only [Work.prefixLe, Bool.or_eq_true, Bool.and_eq_true, decide_eq_true_eq, beq_iff_eq, List.map_cons, ih ys h]
      constructor
      · rintro (hlt | ⟨he, hr | ⟨n, u, v, h1, h2, h3, h4⟩⟩)
        · exact .inr ⟨0, _, _, rfl, rfl, rfl, hlt⟩
        · exact .inl (by rw [he, hr])
        · exact .inr ⟨n + 1, u, v, by simp [h1, he], by simpa using h2, by simpa using h3, h4⟩
      · rintro (he | ⟨n, u, v, h1, h2, h3, h4⟩)
        · exact .inr ⟨(List.cons.inj he).1, .inl (List.cons.inj he).2⟩
        · cases n with
          | zero => simp at h2 h3; subst h2 h3; exact .inl h4
          | succ n =>
            simp only [List.take_succ_cons, List.cons.injEq] at h1
            exact .inr ⟨h1.1, .inr ⟨n, u, v, h1.2, by simpa using h2, by simpa using h3, h4⟩⟩

theorem uncached_eq (s : State) (key : Text) (h : 4 ≤ key.length) :
    Work.uncached s key = true ↔ InUncachedRange s key := by
  have hl : (key.take 4).length = 4 := by simp; omega
  unfold Work.uncached
  rw [List.any_eq_true]
  constructor
  · rintro ⟨x, hx, hy⟩
    rw [Vector.mem_toList_iff, Vector.mem_iff_getElem] at hx
    obtain ⟨i, hi, rfl⟩ := hx
    cases hg : s.cache.uncached[i] with
    | none => simp [hg] at hy
    | some g =>
      simp only [hg, Bool.and_eq_true] at hy
      rw [prefixLe_eq _ _ (by simp [hl]), prefixLe_eq _ _ (by simp [hl])] at hy
      exact ⟨⟨i, hi⟩, g, hg, hy⟩
  · rintro ⟨n, g, hg, h1, h2⟩
    refine ⟨some g, ?_, ?_⟩
    · rw [Vector.mem_toList_iff]; exact hg ▸ Vector.getElem_mem _
    · simp only [Bool.and_eq_true]
      rw [prefixLe_eq _ _ (by simp [hl]), prefixLe_eq _ _ (by simp [hl])]
      exact ⟨h1, h2⟩

theorem heldPrivately_eq (s : State) (key : Text) : Work.heldPrivately s key = true ↔ HeldPrivately s key := by
  unfold Work.heldPrivately
  rw [List.any_eq_true]
  constructor
  · rintro ⟨x, hx, hy⟩
    rw [Vector.mem_toList_iff, Vector.mem_iff_getElem] at hx
    obtain ⟨i, hi, rfl⟩ := hx
    rw [Option.any_eq_true] at hy
    obtain ⟨c, hc, h⟩ := hy
    exact ⟨⟨i, hi⟩, c, hc, by simpa using h⟩
  · rintro ⟨p, c, hc, h⟩
    refine ⟨some c, ?_, by simpa using h⟩
    rw [Vector.mem_toList_iff]; exact hc ▸ Vector.getElem_mem _

theorem find_lowest {n : Nat} (p : Fin n → Bool) :
    ((List.finRange n).find? p = none ↔ ∀ i, p i = false) ∧
    ∀ i, (List.finRange n).find? p = some i ↔ p i = true ∧ ∀ j, j < i → p j = false := by
  refine ⟨by simp [List.find?_eq_none], fun i => ?_⟩
  rw [List.find?_eq_some_iff_append]
  constructor
  · rintro ⟨hp, as, bs, e, h⟩
    refine ⟨hp, fun j hj => ?_⟩
    have hlen : as.length = i.val := by
      have h1 : (List.finRange n)[as.length]? = some i := by rw [e]; simp
      rw [List.getElem?_eq_some_iff] at h1
      obtain ⟨h2, h3⟩ := h1
      simp at h3
      rw [← h3]
    have : j ∈ as := by
      have h1 : (List.finRange n)[j.val]? = some j := by simp
      rw [e, List.getElem?_append_left (by rw [hlen]; exact hj)] at h1
      exact List.mem_of_getElem? h1
    simpa using h j this
  · rintro ⟨hp, h⟩
    refine ⟨hp, (List.finRange n).take i, (List.finRange n).drop (i + 1), ?_, ?_⟩
    · have := List.take_append_drop i.val (List.finRange n)
      rw [List.drop_eq_getElem_cons (by simp)] at this
      simpa using this.symm
    · intro m hmem
      rw [List.mem_take_iff_getElem] at hmem
      obtain ⟨k, hk, rfl⟩ := hmem
      simp at hk ⊢
      exact h _ (Fin.lt_def.2 hk)

theorem freeSlot_none (s : State) : Work.freeSlot s = none ↔ ∀ i : Fin 16, s.cache.slots[i] ≠ none := by
  unfold Work.freeSlot; rw [(find_lowest _).1]; simp [Option.isSome_iff_ne_none]

theorem freeSlot_some (s : State) (i : Fin 16) :
    Work.freeSlot s = some i ↔ s.cache.slots[i] = none ∧ ∀ j : Fin 16, j < i → s.cache.slots[j] ≠ none := by
  unfold Work.freeSlot; rw [(find_lowest _).2 i]; simp [Option.isSome_iff_ne_none]

theorem freePlace_none (s : State) : Work.freePlace s = none ↔ ∀ p : Fin 48, s.cache.copies[p] ≠ none := by
  unfold Work.freePlace; rw [(find_lowest _).1]; simp [Option.isSome_iff_ne_none]

theorem freePlace_some (s : State) (p : Fin 48) :
    Work.freePlace s = some p ↔ s.cache.copies[p] = none ∧ ∀ q : Fin 48, q < p → s.cache.copies[q] ≠ none := by
  unfold Work.freePlace; rw [(find_lowest _).2 p]; simp [Option.isSome_iff_ne_none]

/-! ### One lookup -/

/-- The state after one lookup, its wait list as the caller sets it. -/
def lookedState (x : Work × Bool) (back gone : List LinkRef) : State :=
  x.1.st.updCache fun c => { c with waitList := if x.2 then back else gone }

/-- The contexts to be tested after one lookup of a key: the link's own where the hit resolves it. -/
def resolves (s : State) (key : Text) : Bool :=
  match Work.wayOf s key with
  | some y => (s.entry (setIndex key) y).state != .filling && (s.entry (setIndex key) y).mark != .pending
  | none => false

theorem reportsMade_setSlot (s : State) (os : List (Owed × Report)) (i : Fin 16) (x : Option Fetch) :
    (reportsMade s os).setSlot i x = reportsMade (s.setSlot i x) os := rfl

theorem setSlot_twice (s : State) (i : Fin 16) (x y : Option Fetch) : (s.setSlot i x).setSlot i y = s.setSlot i y := by
  simp [State.setSlot, State.updCache]

/-- R92, R94, R96: a fetch made in a free slot: the tag it takes, the reports made, and the slot as it then stands. -/
theorem fetch_spec (w : Work) (i : Fin 16) (hi : w.st.cache.slots[i] = none) (key : Text) (g : Target)
    (castout : Option Record) :
    ∃ tag, TagFor w.st tag ∧ w.fetch i key g castout = { w with
      st := reportsMade { w.st with
        uplink := { w.st.uplink with nextTag := tag + 1 }
        cache := { w.st.cache with
          slots := w.st.cache.slots.set i (some (fetchMade w.st (cacheRoom w.st) key g tag castout)) } }
        (fetchReports i key tag castout) } := by
  obtain ⟨tag, ht, he⟩ := takeTag_spec w.st i hi
  refine ⟨tag, ht, ?_⟩
  unfold Work.fetch
  rw [he]
  dsimp only
  obtain ⟨S, hS⟩ : ∃ S : State, S = { w.st with uplink := { w.st.uplink with nextTag := tag + 1 } } := ⟨_, rfl⟩
  have hroom : ∀ x, cacheRoom (S.setSlot i x) = cacheRoom w.st := by
    intro x; rw [hS]; exact cacheRoom_of _ _ rfl rfl rfl
  have hpar : ∀ x, (S.setSlot i x).params = w.st.params := by intro x; rw [hS]; rfl
  have slot : ∀ (s : State) x, (s.setSlot i x).cache.slots[i] = x := by
    intro s x; simp [State.setSlot, State.updCache]
  refine Eq.trans (b := ({ w with
    st := reportsMade (S.setSlot i (some (fetchMade w.st (cacheRoom w.st) key g tag castout)))
      (fetchReports i key tag castout) } : Work)) ?_ (by rw [hS]; rfl)
  dsimp only at hS
  rw [← hS]
  cases castout with
  | none =>
    simp only [Option.isSome_none, Bool.false_eq_true, if_false]
    rw [make_fetch _ i _ (slot _ _)]
    dsimp only
    rw [hroom, hpar, reportsMade_setSlot, setSlot_twice]
    rfl
  | some r =>
    simp only [Option.isSome_some, if_true]
    rw [make_castout _ i _ r (slot _ _) rfl]
    dsimp only
    rw [hroom, reportsMade_setSlot, setSlot_twice, make_fetch _ i _ (by
      show (reportsMade (S.setSlot i _) _).cache.slots[i] = _
      exact slot _ _)]
    dsimp only
    rw [cacheRoom_made, hroom, show ∀ s os, (reportsMade s os).params = s.params from fun _ _ => rfl, hpar,
      reportsMade_append, reportsMade_setSlot, setSlot_twice]
    unfold fetchMade
    simp only [fetchReports, Option.map_some, Option.toList_some, List.cons_append, List.nil_append, List.length_cons,
      List.length_nil, Option.isSome_some, true_and, Nat.zero_add]
    by_cases h : 0 < cacheRoom w.st
    · simp only [if_pos h]
      by_cases h2 : 0 < cacheRoom w.st - 1
      · rw [if_pos h2, if_pos (show 1 + 1 ≤ cacheRoom w.st by omega)]
      · rw [if_neg h2, if_neg (show ¬ 1 + 1 ≤ cacheRoom w.st by omega), if_neg (show ¬ cacheRoom w.st = 0 by omega)]
    · simp only [if_neg h]
      rw [if_neg (show ¬ 0 < cacheRoom w.st - 1 by omega), if_neg (show ¬ 1 + 1 ≤ cacheRoom w.st by omega),
        if_pos (show cacheRoom w.st = 0 by omega)]

theorem link_some (s : State) (r : LinkRef) (l : Link) (h : s.link? r = some l) : (s.ctx r.ctx).links[r.index]? = some l := h

/-- R88 to R94, R102: one BOOKING LOOKUP is that of `LookedUp`. It leaves the retry mark, and has its context tested where the
hit resolves the link. -/
theorem lookupOnce_spec (w : Work) (r : LinkRef) (l : Link) (hl : w.st.link? r = some l) (hk : 4 ≤ l.key.length)
    (back gone : List LinkRef) :
    LookedUp w.st (lookedState (w.lookupOnce r) back gone) r l.key back gone ∧
      (w.lookupOnce r).1.retry = w.retry ∧
      (w.lookupOnce r).1.touched = w.touched ++ (if resolves w.st l.key then [r.ctx] else []) ∧
      (w.lookupOnce r).1.st.cache.waitList = w.st.cache.waitList := by
  unfold Work.lookupOnce resolves
  simp only [hl]
  cases hw : Work.wayOf w.st l.key with
  | some y =>
    dsimp only
    cases hs : (w.st.entry (setIndex l.key) y).state == .filling with
    | true =>
      have hs' : (w.st.entry (setIndex l.key) y).state = .filling := by simpa using hs
      refine ⟨⟨fun z hz => ?_, fun h => by rw [hw] at h; cases h⟩, ?_, ?_, ?_⟩
      · rw [hw] at hz; cases hz
        refine ⟨fun _ => ?_, fun h => absurd hs' h, fun h => absurd hs' h⟩
        rw [if_pos rfl]
        unfold lookedState relinked
        simp only [Work.upd, Bool.false_eq_true, if_false]
        simp [State.updLink, State.updCtx, State.setAge, State.updEntry, State.updCache, State.countCache, upd, State.entry]
      · rfl
      · simp [hs', Work.upd]
      · rfl
    | false =>
      have hs' : (w.st.entry (setIndex l.key) y).state ≠ .filling := by simpa using hs
      simp only [Bool.false_eq_true, if_false]
      cases hm : (w.st.entry (setIndex l.key) y).mark == .pending with
      | true =>
        have hm' : (w.st.entry (setIndex l.key) y).mark = .pending := by simpa using hm
        refine ⟨⟨fun z hz => ?_, fun h => by rw [hw] at h; cases h⟩, ?_, ?_, ?_⟩
        · rw [hw] at hz; cases hz
          exact ⟨fun h => absurd h hs', fun _ _ => rfl, fun _ h => absurd hm' h⟩
        · rfl
        · simp [hm', Work.upd]
        · rfl
      | false =>
        have hm' : (w.st.entry (setIndex l.key) y).mark ≠ .pending := by simpa using hm
        simp only [Bool.false_eq_true, if_false]
        refine ⟨⟨fun z hz => ?_, fun h => by rw [hw] at h; cases h⟩, ?_, ?_, ?_⟩
        · rw [hw] at hz; cases hz
          refine ⟨fun h => absurd h hs', fun _ h => absurd h hm', fun _ _ => ?_⟩
          unfold lookedState relinked
          simp only [Work.upd, Bool.false_eq_true, if_false]
          simp [State.updLink, State.updCtx, State.setAge, State.updEntry, State.updCache, State.countCache, upd, State.entry]
        · rfl
        · simp [Work.upd, hs', hm', bne]
        · rfl
  | none =>
    dsimp only
    unfold Work.miss
    dsimp only
    obtain ⟨u, hu⟩ : ∃ u, u = w.upd fun s => s.countCache fun c => { c with misses := bump c.misses } := ⟨_, rfl⟩
    rw [← hu]
    have us : u.st = { w.st with cache := { w.st.cache with counters := { w.st.cache.counters with misses := bump w.st.cache.counters.misses } } } := by
      rw [hu]; rfl
    have uc : u.retry = w.retry ∧ u.touched = w.touched := by rw [hu]; exact ⟨rfl, rfl⟩
    have uslots : u.st.cache.slots = w.st.cache.slots := by rw [us]
    have ucop : u.st.cache.copies = w.st.cache.copies := by rw [us]
    have usets : u.st.cache.sets = w.st.cache.sets := by rw [us]
    have uent : ∀ i y, u.st.entry i y = w.st.entry i y := by rw [us]; exact fun _ _ => rfl
    have fin : ∀ (x : Work × Bool), x.1.retry = u.retry → x.1.touched = u.touched →
        x.1.st.cache.waitList = w.st.cache.waitList →
        LookedUp w.st (lookedState x back gone) r l.key back gone →
        LookedUp w.st (lookedState x back gone) r l.key back gone ∧ x.1.retry = w.retry ∧
          x.1.touched = w.touched ++ (if false = true then [r.ctx] else []) ∧ x.1.st.cache.waitList = w.st.cache.waitList := by
      intro x h1 h2 h3 h4
      exact ⟨h4, h1.trans uc.1, by simp [h2, uc.2], h3⟩
    have waits : lookedState (u, true) back gone = { w.st with cache := { w.st.cache with
        waitList := back, counters := { w.st.cache.counters with misses := bump w.st.cache.counters.misses } } } := by
      unfold lookedState; rw [us]; rfl
    cases hsl : Work.freeSlot u.st with
    | none =>
      refine fin _ rfl rfl (by rw [us]) ⟨fun y h => (nomatch hw.symm.trans h), fun _ => ⟨fun _ => waits, fun i hi => ?_⟩⟩
      rw [freeSlot_none, uslots] at hsl
      exact absurd hi (hsl i)
    | some i =>
      dsimp only
      rw [freeSlot_some, uslots] at hsl
      have only : ∀ j : Fin 16, w.st.cache.slots[j] = none → (∀ k : Fin 16, k < j → w.st.cache.slots[k] ≠ none) → j = i := by
        intro j h1 h2
        rcases lt_trichotomy j i with h | h | h
        · exact absurd h1 (hsl.2 j h)
        · exact h
        · exact absurd hsl.1 (h2 i h)
      have tagU : ∀ tag (v : State), v.cache.slots = w.st.cache.slots → v.uplink = w.st.uplink → TagFor v tag → TagFor w.st tag := by
        intro tag v h1 h2 h
        unfold TagFor at h ⊢
        rw [h1, h2] at h; exact h
      obtain ⟨around, har⟩ : ∃ b : Bool, b = (Work.uncached u.st l.key || Work.heldPrivately u.st l.key) := ⟨_, rfl⟩
      have har' : around = true ↔ InUncachedRange w.st l.key ∨ HeldPrivately w.st l.key := by
        rw [har, Bool.or_eq_true, uncached_eq _ _ hk, heldPrivately_eq]
        unfold InUncachedRange HeldPrivately
        rw [us]
      rw [← har, usets]
      -- no way is chosen
      have none_case : (around = true ∨ Work.victim w.st.cache.sets[setIndex l.key] = none) →
          ∀ x, x = (match Work.freePlace u.st with
            | some p => (u.makeCopy r l.key p i, false)
            | none => (u, true)) →
          LookedUp w.st (lookedState x back gone) r l.key back gone ∧ x.1.retry = w.retry ∧
            x.1.touched = w.touched ++ (if false = true then [r.ctx] else []) ∧ x.1.st.cache.waitList = w.st.cache.waitList := by
        intro hch x hx
        have no : ∀ y, ¬ (InUncachedRange w.st l.key ∨ HeldPrivately w.st l.key) →
            Work.victim w.st.cache.sets[setIndex l.key] = some y → False := by
          intro y h1 h2
          rcases hch with h | h
          · exact h1 (har'.1 h)
          · rw [h2] at h; cases h
        cases hp : Work.freePlace u.st with
        | none =>
          rw [hp] at hx
          subst hx
          rw [freePlace_none, ucop] at hp
          refine fin _ rfl rfl (by rw [us]) ⟨fun y h => (nomatch hw.symm.trans h), fun _ => ⟨fun h => absurd hsl.1 (h i), fun j h1 h2 => ?_⟩⟩
          obtain rfl := only j h1 h2
          exact ⟨fun y h3 h4 => (no y h3 h4).elim, fun _ => ⟨fun _ => waits, fun p h => absurd h (hp p)⟩⟩
        | some p =>
          rw [hp] at hx
          rw [freePlace_some, ucop] at hp
          have onlyp : ∀ q : Fin 48, w.st.cache.copies[q] = none → (∀ k : Fin 48, k < q → w.st.cache.copies[k] ≠ none) → q = p := by
            intro j h1 h2
            rcases lt_trichotomy j p with h | h | h
            · exact absurd h1 (hp.2 j h)
            · exact h
            · exact absurd hp.1 (h2 p h)
          unfold Work.makeCopy at hx
          dsimp only at hx
          obtain ⟨tag, ht, he⟩ := fetch_spec (u.upd fun s =>
            (((s.setCopy p (some ⟨l.key, none, 0, some r, false, false⟩)).updLink r fun l => { l with target := some (.copy p) }).countCache
              fun c => { c with privateCopies := bump c.privateCopies })) i (by
                show u.st.cache.slots[i] = none
                rw [uslots]; exact hsl.1) l.key (.copy p) none
          rw [he] at hx
          have ht' := tagU tag _ (show _ = _ from uslots) (show u.st.uplink = w.st.uplink by rw [us]) ht
          subst hx
          refine fin _ rfl rfl (by simp only [Work.upd]; rw [us]; rfl) ⟨fun y h => (nomatch hw.symm.trans h), fun _ => ⟨fun h => absurd hsl.1 (h i), fun j h1 h2 => ?_⟩⟩
          obtain rfl := only j h1 h2
          refine ⟨fun y h3 h4 => (no y h3 h4).elim, fun _ => ⟨fun h => absurd hp.1 (h p), fun q h1 h2 => ?_⟩⟩
          obtain rfl := onlyp q h1 h2
          refine ⟨tag, ht', ?_⟩
          unfold lookedState relinked
          simp only [Work.upd]
          rw [us]
          rfl
      cases hch : (if around = true then none else Work.victim w.st.cache.sets[setIndex l.key]) with
      | none =>
        refine none_case ?_ _ rfl
        by_cases h : around = true
        · exact .inl h
        · rw [if_neg h] at hch; exact .inr hch
      | some y =>
        have hn : ¬ around = true := by intro h; rw [if_pos h] at hch; cases hch
        rw [if_neg hn] at hch
        dsimp only
        obtain ⟨castout, hco⟩ : ∃ c, c = (if (w.st.entry (setIndex l.key) y).state = .valid ∧ (w.st.entry (setIndex l.key) y).dirty = true then
            (w.st.entry (setIndex l.key) y).record else none) := ⟨_, rfl⟩
        unfold Work.install
        dsimp only
        have hco' : (if ((u.st.entry (setIndex l.key) y).state == .valid && (u.st.entry (setIndex l.key) y).dirty) = true then
            (u.st.entry (setIndex l.key) y).record else none) = castout := by
          rw [hco, uent]; simp only [Bool.and_eq_true, beq_iff_eq]
        rw [hco']
        obtain ⟨v, hv⟩ : ∃ v : Work, v = u.upd fun s =>
          (((if castout.isSome = true then s.countCache fun c => { c with castouts := bump c.castouts } else s).updEntry
            (setIndex l.key) y fun _ => { state := .filling, key := some l.key, pins := 1 }).setAge (setIndex l.key) y).updLink r
              fun l_1 => { l_1 with target := some (.way (setIndex l.key) y) } := ⟨_, rfl⟩
        rw [← hv]
        have vs : v.st = { u.st with
            pool := relinked u.st r fun l_1 => { l_1 with target := some (.way (setIndex l.key) y) }
            cache := { u.st.cache with
              sets := upd u.st.cache.sets (setIndex l.key) fun x =>
                { x.put y { state := .filling, key := some l.key, pins := 1 } with age := y }
              counters := { u.st.cache.counters with
                castouts := (if castout.isSome = true then bump u.st.cache.counters.castouts
                  else u.st.cache.counters.castouts) } } } := by
          rw [hv]
          unfold relinked
          cases castout <;>
            simp [Work.upd, State.updLink, State.updCtx, State.setAge, State.updEntry, State.updCache, State.countCache, upd]
        have vr : v.retry = u.retry ∧ v.touched = u.touched := by rw [hv]; exact ⟨rfl, rfl⟩
        obtain ⟨tag, ht, he⟩ := fetch_spec v i (by rw [vs]; rw [← uslots] at hsl; exact hsl.1)
          l.key (.way (setIndex l.key) y) castout
        rw [he]
        have ht' := tagU tag v.st (by rw [vs]; exact uslots) (by rw [vs, us]) ht
        refine fin _ vr.1 vr.2 (by show v.st.cache.waitList = _; rw [vs, us]) ⟨fun y h => (nomatch hw.symm.trans h),
          fun _ => ⟨fun h => absurd hsl.1 (h i), fun j h1 h2 => ?_⟩⟩
        obtain rfl := only j h1 h2
        refine ⟨fun z h3 h4 => ?_, fun h => ?_⟩
        · rw [hch] at h4; cases h4
          refine ⟨tag, ht', ?_⟩
          rw [← hco]
          unfold lookedState
          dsimp only
          rw [vs, us]
          rfl
        · rcases h with h | h
          · exact absurd (har'.2 h) hn
          · rw [h] at hch; cases hch

/-- R89, R90: a lookup handed to the cache. -/
theorem lookup_spec (w : Work) (r : LinkRef) (l : Link) (hl : w.st.link? r = some l) (hk : 4 ≤ l.key.length) :
    LookedUp w.st (w.lookup r).st r l.key (w.st.cache.waitList ++ [r]) w.st.cache.waitList ∧
      (w.lookup r).retry = w.retry ∧
      (w.lookup r).touched = w.touched ++ (if resolves w.st l.key then [r.ctx] else []) := by
  obtain ⟨h1, h2, h3, h4⟩ := lookupOnce_spec w r l hl hk (w.st.cache.waitList ++ [r]) w.st.cache.waitList
  have e : (w.lookup r).st = lookedState (w.lookupOnce r) (w.st.cache.waitList ++ [r]) w.st.cache.waitList := by
    unfold Work.lookup lookedState
    dsimp only
    split
    · rw [← h4]; rfl
    · rw [← h4]; rfl
  rw [e]
  refine ⟨h1, ?_, ?_⟩
  · rw [← h2]; unfold Work.lookup; dsimp only; split <;> rfl
  · rw [← h3]; unfold Work.lookup; dsimp only; split <;> rfl

/-- R95: a waiting lookup retried, alone in the wait list. -/
theorem retryOne_spec (w : Work) (r : LinkRef) (l : Link) (hl : w.st.link? r = some l) (hk : 4 ≤ l.key.length)
    (hw : w.st.cache.waitList = [r]) :
    LookedUp w.st (w.retryOne r).st r l.key [r] [] ∧ (w.retryOne r).retry = w.retry ∧
      (w.retryOne r).touched = w.touched ++ (if resolves w.st l.key then [r.ctx] else []) := by
  obtain ⟨h1, h2, h3, h4⟩ := lookupOnce_spec w r l hl hk [r] []
  have e : (w.retryOne r).st = lookedState (w.lookupOnce r) [r] [] := by
    unfold Work.retryOne lookedState
    dsimp only
    rw [hw] at h4
    split
    · rw [← h4]; rfl
    · simp only [Work.upd, State.updCache, h4, if_neg]
      simp [*]
  rw [e]
  refine ⟨h1, ?_, ?_⟩
  · rw [← h2]; unfold Work.retryOne; dsimp only; split <;> rfl
  · rw [← h3]; unfold Work.retryOne; dsimp only; split <;> rfl

/-! ### A page composed meanwhile changes nothing of it -/

/-- R171: the stations of a state where a page has been composed: their roles, lanes and tickets are as they were. -/
abbrev SameStations (s t : State) : Prop :=
  ∀ ix, (t.station ix).state = (s.station ix).state ∧ (t.station ix).role = (s.station ix).role ∧
    (t.station ix).lane = (s.station ix).lane ∧ (t.station ix).tickets = (s.station ix).tickets

theorem ticketed_of_stations {s s' t : State} {id : CtxId} (hs : SameStations s s') (h1 : s'.pool = s.pool)
    (h2 : s'.params = s.params) (h3 : s'.signs = s.signs) (h : Ticketed s' t id) : Ticketed s t id := by
  have hc : ∀ j, s'.ctx j = s.ctx j := fun j => by simp [State.ctx, h1]
  have hp : ∀ l ix, PrinterOf s' l ix ↔ PrinterOf s l ix := by
    intro l ix
    unfold PrinterOf
    simp only [(hs _).1, (hs _).2.1, (hs _).2.2.1]
  unfold Ticketed at h ⊢
  simp only [hc, hp, (hs _).2.2.2, h2, h3] at h
  exact h

set_option linter.unusedSimpArgs false in
/-- Where a page has been composed the decision step is the one it is without it. -/
theorem decides_of_stations (s t : State) (p : Vector SegPort 4) (q : Vector Station 124) (id : CtxId)
    (hs : SameStations s { s with ports := p, stations := q }) (h : Decides { s with ports := p, stations := q } t id) :
    Decides s t id := by
  have ch : ∀ k n d, State.chain { s with ports := p, stations := q } k n d = s.chain k n d :=
    chain_congr s { s with ports := p, stations := q } rfl
  have fd : ∀ c d, State.findDest { s with ports := p, stations := q } c d = s.findDest c d :=
    fun c d => findDest_congr s { s with ports := p, stations := q } c c rfl rfl rfl rfl d
  have bk : ∀ c, State.bookingKind { s with ports := p, stations := q } c = s.bookingKind c := fun _ => rfl
  have tk : Ticketed { s with ports := p, stations := q } t id → Ticketed s t id :=
    ticketed_of_stations hs rfl rfl rfl
  have pr : ∀ c, State.provisional { s with ports := p, stations := q } c = s.provisional c := fun _ => rfl
  have ck : ∀ c b, checked { s with ports := p, stations := q } c b = checked s c b := fun _ _ => rfl
  have ro : ∀ c, State.reasonsOf { s with ports := p, stations := q } c = s.reasonsOf c := fun _ => rfl
  have cl : ∀ c b, State.classify { s with ports := p, stations := q } c b = s.classify c b := fun _ _ => rfl
  have gg : ∀ c x, gradedGeometry { s with ports := p, stations := q } c x = gradedGeometry s c x := fun _ _ => rfl
  have cm : ∀ c x, clampsOf { s with ports := p, stations := q } c x = clampsOf s c x := fun _ _ => rfl
  have dm : ∀ c b x, damageOf { s with ports := p, stations := q } c b x = damageOf s c b x := fun _ _ _ => rfl
  have tu : takesUnit { s with ports := p, stations := q } = takesUnit s := rfl
  have fc : ∀ j, State.ctx { s with ports := p, stations := q } j = s.ctx j := fun _ => rfl
  have fw : ∀ j, State.windowAt { s with ports := p, stations := q } j = s.windowAt j := fun _ => rfl
  have fe : ∀ j, State.destAt { s with ports := p, stations := q } j = s.destAt j := fun _ => rfl
  have fr : ∀ l i, State.reads { s with ports := p, stations := q } l i = s.reads l i := fun _ _ => rfl
  unfold Decides at h ⊢
  obtain ⟨h1, h2, h3, h4, h5, h6, h7, h8, h9, h10, h11, h12, h13, h14, h15, h16, h17, h18, h19, h20, h21, h22, h23, h24, h25⟩ := h
  refine ⟨?_, ?_, ?_, ?_, ?_, ?_, ?_, ?_, ?_, ?_, ?_, ?_, ?_, ?_, ?_, ?_, ?_, ?_, ?_, ?_, ?_, ?_, ?_, ?_, ?_⟩
  · exact h1
  · exact h2
  · exact h3
  · exact h4
  · exact h5
  · exact h6
  · exact h7
  · exact h8
  · exact h9
  · exact h10
  · exact h11
  · exact h12
  · simpa only [fc, pr, ck, ro, cl, gg, cm, dm, ch, fd, bk, tu, fw, fe, fr] using h13
  · simpa only [fc, pr, ck, ro, cl, gg, cm, dm, ch, fd, bk, tu, fw, fe, fr] using h14
  · simpa only [fc, pr, ck, ro, cl, gg, cm, dm, ch, fd, bk, tu, fw, fe, fr] using h15
  · exact h16
  · simpa only [fc, pr, ck, ro, cl, gg, cm, dm, ch, fd, bk, tu, fw, fe, fr] using h17
  · simpa only [fc, pr, ck, ro, cl, gg, cm, dm, ch, fd, bk, tu, fw, fe, fr] using h18
  · simp only [fc, pr, ck, ro, cl, gg, cm, dm, ch, fd, bk, tu, fw, fe, fr] at h19 ⊢; exact h19
  · simp only [fc, pr, ck, ro, cl, gg, cm, dm, ch, fd, bk, tu, fw, fe, fr] at h20 ⊢; exact h20
  · simp only [fc, pr, ck, ro, cl, gg, cm, dm, ch, fd, bk, tu, fw, fe, fr] at h21 ⊢; exact h21
  · simp only [fc, pr, ck, ro, cl, gg, cm, dm, ch, fd, bk, tu, fw, fe, fr] at h22 ⊢; exact h22
  · simpa only [fc, pr, ck, ro, cl, gg, cm, dm, ch, fd, bk, tu, fw, fe, fr] using h23
  · exact fun x => tk (h24 x)
  · exact h25

theorem decides_of_pages (s s' t : State) (id : CtxId) (e : s' = { s with ports := s'.ports, stations := s'.stations })
    (hs : SameStations s s') (h : Decides s' t id) : Decides s t id := by
  obtain ⟨p, hp⟩ : ∃ p, p = s'.ports := ⟨_, rfl⟩
  obtain ⟨q, hq⟩ : ∃ q, q = s'.stations := ⟨_, rfl⟩
  rw [← hp, ← hq] at e
  subst e
  exact decides_of_stations s t p q id hs h

/-- R171: a page composed changes the ports and the sign channels alone. -/
theorem compose_pages (s : State) (l : LaneId) :
    s.compose l = { s with ports := (s.compose l).ports, stations := (s.compose l).stations } := by
  have h := State.compose_frame s l
  generalize s.compose l = t at h ⊢
  obtain ⟨h1, h2, h3, h4, h5, h6, h7, h8, h9, h10, h11, h12, h13, -⟩ := h
  cases t; cases s; simp_all

theorem moveTo_pages (s : State) (id : CtxId) (st : CtxState) :
    s.moveTo id st =
      { s.updCtx id fun c => { c with state := st } with
        ports := (s.moveTo id st).ports, stations := (s.moveTo id st).stations } := by
  unfold State.moveTo
  dsimp only
  split
  · exact compose_pages _ _
  · rfl

/-- R171: a change of state composes no more than the page of its lane. -/
theorem moveTo_pagesOnly (s : State) (id : CtxId) (st : CtxState) :
    PagesOnly s.port s.station (fun j => ∃ l, SignOf s l j) (s.moveTo id st) := by
  unfold State.moveTo
  dsimp only
  split
  · exact PagesOnly.mono (compose_pagesOnly (s.updCtx id fun c => { c with state := st }) _) fun j h => ⟨_, h⟩
  · exact PagesOnly.refl (s.updCtx id fun c => { c with state := st }) _

theorem lookedUp_of_pages (s t : State) (p : Vector SegPort 4) (q : Vector Station 124) (r : LinkRef) (key : Text)
    (back gone : List LinkRef) (h : LookedUp { s with ports := p, stations := q } t r key back gone) :
    LookedUp s { t with ports := s.ports, stations := s.stations } r key back gone := by
  obtain ⟨h1, h2⟩ := h
  refine ⟨fun y hy => ?_, fun hn => ⟨fun ha => ?_, fun i h3 h4 => ⟨fun y h5 h6 => ?_, fun h5 => ⟨fun h6 => ?_, fun x h6 h7 => ?_⟩⟩⟩⟩
  · obtain ⟨a, b, c⟩ := h1 y hy
    exact ⟨fun x => by rw [a x]; rfl, fun x z => by rw [b x z], fun x z => by rw [c x z]; rfl⟩
  · rw [(h2 hn).1 ha]
  · obtain ⟨tag, ht, e⟩ := ((h2 hn).2 i h3 h4).1 y h5 h6
    exact ⟨tag, ht, by rw [e]; rfl⟩
  · rw [(((h2 hn).2 i h3 h4).2 h5).1 h6]
  · obtain ⟨tag, ht, e⟩ := (((h2 hn).2 i h3 h4).2 h5).2 x h6 h7
    exact ⟨tag, ht, by rw [e]; rfl⟩

theorem lookedUpInTurn_of_pages (rs : List LinkRef) (a b : State) (p : Vector SegPort 4) (q : Vector Station 124)
    (h : LookedUpInTurn rs { a with ports := p, stations := q } b) :
    LookedUpInTurn rs a { b with ports := a.ports, stations := a.stations } := by
  induction rs generalizing a b p q with
  | nil => rw [show b = _ from h]; rfl
  | cons r rs ih =>
    obtain ⟨v, l, h1, h2, h3⟩ := h
    have hv : v = { { v with ports := a.ports, stations := a.stations } with ports := v.ports, stations := v.stations } := rfl
    rw [hv] at h3
    exact ⟨_, l, h1, lookedUp_of_pages _ _ _ _ _ _ _ _ h2, ih _ _ _ _ h3⟩

/-- What a lookup changes of the pool: at most its own link, whose key it keeps, and whose state where it resolves nothing. -/
theorem lookedUp_cases {s v : State} {r : LinkRef} {key : Text} {back gone : List LinkRef}
    (h : LookedUp s v r key back gone) :
    (v.pool = s.pool ∨ ∃ f : Link → Link, (∀ l, (f l).key = l.key) ∧
      (resolves s key = false → ∀ l, (f l).state = l.state) ∧ v.pool = relinked s r f) ∧
    v.cache.recalls = s.cache.recalls ∧ v.ports = s.ports ∧ v.stations = s.stations := by
  obtain ⟨h1, h2⟩ := h
  cases hw : Work.wayOf s key with
  | some y =>
    obtain ⟨a, b, c⟩ := h1 y hw
    by_cases hs : (s.entry (setIndex key) y).state = .filling
    · rw [a hs]
      exact ⟨.inr ⟨fun l => { l with target := some (.way (setIndex key) y) }, fun _ => rfl, fun _ _ => rfl, rfl⟩, rfl, rfl, rfl⟩
    · by_cases hm : (s.entry (setIndex key) y).mark = .pending
      · rw [b hs hm]; exact ⟨.inl rfl, rfl, rfl, rfl⟩
      · rw [c hs hm]
        refine ⟨.inr ⟨fun l => { l with target := some (.way (setIndex key) y), state := .resolved }, fun _ => rfl, fun e => ?_, rfl⟩,
          rfl, rfl, rfl⟩
        unfold resolves at e
        simp [hw, hs, hm] at e
  | none =>
    obtain ⟨a, b⟩ := h2 hw
    by_cases hf : ∀ i : Fin 16, s.cache.slots[i] ≠ none
    · rw [a hf]; exact ⟨.inl rfl, rfl, rfl, rfl⟩
    · obtain ⟨i, hi⟩ : ∃ i, Work.freeSlot s = some i := by
        cases hfs : Work.freeSlot s with
        | none => exact absurd ((freeSlot_none s).1 hfs) hf
        | some i => exact ⟨i, rfl⟩
      obtain ⟨hi1, hi2⟩ := (freeSlot_some s i).1 hi
      obtain ⟨c, d⟩ := b i hi1 hi2
      by_cases har : (InUncachedRange s key ∨ HeldPrivately s key) ∨ Work.victim s.cache.sets[setIndex key] = none
      · obtain ⟨e, f⟩ := d har
        by_cases hp : ∀ p : Fin 48, s.cache.copies[p] ≠ none
        · rw [e hp]; exact ⟨.inl rfl, rfl, rfl, rfl⟩
        · obtain ⟨p, hpp⟩ : ∃ i, Work.freePlace s = some i := by
            cases hfs : Work.freePlace s with
            | none => exact absurd ((freePlace_none s).1 hfs) hp
            | some i => exact ⟨i, rfl⟩
          obtain ⟨hp1, hp2⟩ := (freePlace_some s p).1 hpp
          obtain ⟨tag, -, g⟩ := f p hp1 hp2
          rw [g]
          exact ⟨.inr ⟨fun l => { l with target := some (.copy p) }, fun _ => rfl, fun _ _ => rfl, rfl⟩, rfl, rfl, rfl⟩
      · rw [not_or] at har
        cases hv : Work.victim s.cache.sets[setIndex key] with
        | none => exact absurd hv har.2
        | some y =>
          obtain ⟨tag, -, g⟩ := c y har.1 hv
          rw [g]
          exact ⟨.inr ⟨fun l => { l with target := some (.way (setIndex key) y) }, fun _ => rfl, fun _ _ => rfl, rfl⟩, rfl, rfl, rfl⟩

theorem relinked_ctx (s u : State) (r : LinkRef) (f : Link → Link) (h : u.pool = relinked s r f) (j : CtxId) :
    u.ctx j = if j = r.ctx then { s.ctx j with links := (s.ctx j).links.modify r.index f } else s.ctx j := by
  unfold State.ctx
  rw [h]; unfold relinked
  simp only [Fin.getElem_fin, upd_getElem]
  by_cases e : j = r.ctx
  · subst e; simp
  · have : j.val ≠ r.ctx.val := fun g => e (Fin.ext g)
    simp [e, this]

/-- What a lookup keeps: every link's key, the recalls, the state of every context, and, where it resolves
nothing, the state of its link. -/
theorem lookedUp_keeps {s v : State} {r : LinkRef} {key : Text} {back gone : List LinkRef}
    (h : LookedUp s v r key back gone) :
    (∀ a, (v.link? a).map (·.key) = (s.link? a).map (·.key)) ∧
    v.cache.recalls = s.cache.recalls ∧ (∀ j, (v.ctx j).state = (s.ctx j).state) ∧
    v.ports = s.ports ∧ v.stations = s.stations ∧
    (resolves s key = false → (v.link? r).map (·.state) = (s.link? r).map (·.state)) := by
  obtain ⟨h1, h3, h4, h5⟩ := lookedUp_cases h
  rcases h1 with hp | ⟨f, hf, hr, hp⟩
  · have hc : ∀ j, v.ctx j = s.ctx j := fun j => by simp [State.ctx, hp]
    exact ⟨fun a => by simp [State.link?, hc], h3, fun j => by rw [hc], h4, h5, fun _ => by simp [State.link?, hc]⟩
  · have hc := relinked_ctx s v r f hp
    refine ⟨fun a => ?_, h3, fun j => by rw [hc]; split <;> rfl, h4, h5, fun e => ?_⟩
    · unfold State.link?
      rw [hc]
      split
      · simp only [List.getElem?_modify]
        split
        · cases (s.ctx a.ctx).links[a.index]? <;> simp [hf]
        · simp
      · rfl
    · unfold State.link?
      rw [hc, if_pos rfl]
      simp only [List.getElem?_modify, if_true]
      cases (s.ctx r.ctx).links[r.index]? <;> simp [hr e]

/-- R52, R89: the lookups of several links of one context, handed to the cache one after the other. -/
theorem lookups_spec (id : CtxId) (rs : List LinkRef) (w : Work) (hid : ∀ r ∈ rs, r.ctx = id)
    (hl : ∀ r ∈ rs, ∃ k, (w.st.link? r).map (·.key) = some k ∧ 4 ≤ k.length) :
    LookedUpInTurn rs w.st (rs.foldl Work.lookup w).st ∧ (rs.foldl Work.lookup w).retry = w.retry ∧
      (∀ j ∈ (rs.foldl Work.lookup w).touched, j ∈ w.touched ∨ j = id) ∧
      (rs.foldl Work.lookup w).st.cache.recalls = w.st.cache.recalls ∧
      (∀ j, ((rs.foldl Work.lookup w).st.ctx j).state = (w.st.ctx j).state) ∧
      (rs.foldl Work.lookup w).st.ports = w.st.ports ∧ (rs.foldl Work.lookup w).st.stations = w.st.stations := by
  induction rs generalizing w with
  | nil => exact ⟨rfl, rfl, fun j h => .inl h, rfl, fun _ => rfl, rfl, rfl⟩
  | cons r rs ih =>
    rw [List.foldl_cons]
    obtain ⟨k, hk1, hk2⟩ := hl r (by simp)
    obtain ⟨l, hl1, rfl⟩ := Option.map_eq_some_iff.1 hk1
    obtain ⟨s1, s2, s3⟩ := lookup_spec w r l hl1 hk2
    obtain ⟨k1, k3, k4, k5, k6, -⟩ := lookedUp_keeps s1
    obtain ⟨i1, i2, i3, i4, i5, i6, i7⟩ := ih (w.lookup r) (fun a ha => hid a (by simp [ha]))
      (fun a ha => by rw [k1]; exact hl a (by simp [ha]))
    refine ⟨⟨_, l, hl1, s1, i1⟩, i2.trans s2, fun j hj => ?_, i4.trans k3, fun j => (i5 j).trans (k4 j), i6.trans k5, i7.trans k6⟩
    rcases i3 j hj with h | h
    · rw [s3, List.mem_append] at h
      rcases h with h | h
      · exact .inl h
      · right
        split at h
        · simp only [List.mem_singleton] at h; rw [h]; exact hid r (by simp)
        · simp at h
    · exact .inr h

theorem decideTest_twice (s : State) (id : CtxId) : (s.decideTest id).decideTest id = s.decideTest id := by
  by_cases h : (s.ctx id).state = .lookup ∧ (s.ctx id).links.all (·.state != .pending) = true
  · have d := decideTest_decides s id h.1 h.2
    have hs : ((s.decideTest id).ctx id).state ≠ .lookup := by
      intro e
      have := d.2.2.2.2.2.2.2.2.2.2.2.2.2.2.2.2.2.1
      rw [e] at this
      split at this
      · cases this
      · split at this <;> cases this
    generalize s.decideTest id = t at hs
    unfold State.decideTest
    rw [if_neg (fun g => hs g.1)]
  · have e : s.decideTest id = s := by unfold State.decideTest; rw [if_neg h]
    rw [e, e]

/-- R53: the tests of one context after the cache's work are one test. -/
theorem settle_one (id : CtxId) (L : List CtxId) (s : State) (h : ∀ j ∈ L, j = id) :
    (L.foldl State.decideTest s).decideTest id = s.decideTest id := by
  induction L generalizing s with
  | nil => rfl
  | cons a L ih =>
    obtain rfl := h a (by simp)
    rw [List.foldl_cons, ih _ (fun j hj => h j (by simp [hj])), decideTest_twice]

/-- R52, R53: LOOKUP entry: the links formed are looked up in turn, and the context is tested. -/
theorem enterLookup_concludes (s : State) (id : CtxId) (hr : s.cache.recalls = [])
    (hk : ∀ l ∈ (s.ctx id).formLinks, 4 ≤ l.key.length) :
    let links := (s.ctx id).formLinks
    let d : Ctx := { s.ctx id with identTimer := none, links := links, state := .lookup }
    ∃ v, LookedUpInTurn ((List.range links.length).map fun n => ⟨id, n⟩) { s with pool := s.pool.set id d } v ∧
      Concludes v (s.enterLookup id) id := by
  intro links d
  obtain ⟨u, hu⟩ : ∃ u : State, u = { s with pool := s.pool.set id d } := ⟨_, rfl⟩
  obtain ⟨m, hm⟩ : ∃ m : State, m = (s.updCtx id fun c => { c with identTimer := none, links := c.formLinks }).moveTo id .lookup := ⟨_, rfl⟩
  have m1 : m = { u with ports := m.ports, stations := m.stations } := by
    rw [hm]
    conv_lhs => rw [moveTo_pages]
    rw [hu]
    simp [State.updCtx, upd, State.ctx, d, links]
  have mst : SameStations u m := by
    intro ix
    have h : (u.station ix) = ((s.updCtx id fun c => { c with identTimer := none, links := c.formLinks }).station ix) := by
      rw [hu]; rfl
    rw [h, hm, moveTo_station]
    exact ⟨rfl, rfl, rfl, rfl⟩
  have uc : u.ctx id = d := by rw [hu]; simp [State.ctx]
  have mc : m.ctx id = d := by rw [m1]; exact uc
  have refs : Work.refsOf m id = (List.range links.length).map fun n => ⟨id, n⟩ := by
    unfold Work.refsOf; rw [mc]
  rw [← hu]
  obtain ⟨L, hL⟩ : ∃ L : List LinkRef, L = (List.range links.length).map fun n => ⟨id, n⟩ := ⟨_, rfl⟩
  rw [← hL]
  have ex : ∀ r ∈ L, ∃ l ∈ links, m.link? r = some l := by
    intro r hrr
    rw [hL, List.mem_map] at hrr
    obtain ⟨n, hn, rfl⟩ := hrr
    have hn' : n < links.length := List.mem_range.1 hn
    refine ⟨links[n], List.getElem_mem _, ?_⟩
    unfold State.link?
    rw [mc]
    simp [d, hn']
  obtain ⟨l1, l2, l3, l4, l5, l6, l7⟩ := lookups_spec id L { st := m }
    (fun r hrr => by rw [hL, List.mem_map] at hrr; obtain ⟨n, -, rfl⟩ := hrr; rfl)
    (fun r hrr => by
      obtain ⟨l, hl, e⟩ := ex r hrr
      exact ⟨l.key, by rw [e]; rfl, hk l hl⟩)
  obtain ⟨w, hw⟩ : ∃ w, w = L.foldl Work.lookup { st := m } := ⟨_, rfl⟩
  rw [← hw] at l1 l2 l3 l4 l5 l6 l7
  have fin : w.finish = w := by
    have h1 : w.st.cache.recalls = [] := by rw [l4, m1, hu]; exact hr
    unfold Work.finish
    rw [h1, List.foldl_nil]
    exact if_neg (by rw [l2]; simp)
  have he : s.enterLookup id = w.st.decideTest id := by
    unfold State.enterLookup
    dsimp only
    rw [← hm, refs, ← hL, ← hw, fin]
    unfold State.settle
    exact settle_one id _ _ (fun j hj => by
      rcases l3 j hj with h | h
      · exact absurd h (by simp)
      · exact h)
  refine ⟨{ w.st with ports := u.ports, stations := u.stations }, ?_, ?_, ?_⟩
  · refine lookedUpInTurn_of_pages L u w.st m.ports m.stations ?_
    rw [← m1]; exact l1
  · intro hp
    rw [he]
    refine decides_of_pages _ w.st _ id rfl ?_ ?_
    · intro ix
      have : w.st.station ix = m.station ix := by unfold State.station; rw [l7]
      rw [this]
      exact mst ix
    · refine decideTest_decides w.st id ?_ ?_
      · rw [l5]; show (m.ctx id).state = _; rw [mc]
      · rw [List.all_eq_true]
        intro l hl
        have := hp l hl
        simpa using this
  · rintro ⟨l, hl, hp⟩
    have e : w.st.decideTest id = w.st := by
      unfold State.decideTest
      rw [if_neg]
      rintro ⟨-, g⟩
      rw [List.all_eq_true] at g
      have := g l hl
      simp [hp] at this
    rw [he, e]
    refine ⟨rfl, ?_⟩
    have pu : PagesOnly u.port u.station (fun j => ∃ l, SignOf u l j) m := by
      rw [hm, hu]
      exact moveTo_pagesOnly _ id .lookup
    have hp : ∀ g, w.st.port g = m.port g := fun g => by unfold State.port; rw [l6]
    have hs : ∀ j, w.st.station j = m.station j := fun j => by unfold State.station; rw [l7]
    unfold PagesOnly at pu ⊢
    simp only [hp, hs]
    exact pu

/-! ### The retry of a waiting lookup (R95) -/

theorem linksWhere_nil (s : State) (p : Ctx → Link → Bool)
    (h : ∀ id : CtxId, ∀ m ∈ (s.ctx id).links, p (s.ctx id) m = false) : s.linksWhere p = [] := by
  unfold State.linksWhere
  rw [List.flatMap_eq_nil_iff]
  intro i _
  rw [List.filterMap_eq_nil_iff]
  intro k _
  cases hk : (s.ctx i).links[k]? with
  | none => rfl
  | some l => simp [h i l (List.mem_of_getElem? hk)]

/-- A target that no link names has no link to settle. -/
theorem setLinks_nil (w : Work) (g : Target) (f : Link → Link)
    (h : ∀ id : CtxId, ∀ m ∈ (w.st.ctx id).links, m.target ≠ some g) : w.setLinks g f = w := by
  unfold Work.setLinks
  have : w.st.linksWhere (fun _ l => l.target == some g) = [] :=
    linksWhere_nil _ _ (fun id m hm => by simpa using h id m hm)
  simp [this, Work.upd]

/-- R53: one test of a context in LOOKUP. -/
theorem decideTest_concludes (v : State) (id : CtxId) (h : (v.ctx id).state = .lookup) : Concludes v (v.decideTest id) id := by
  refine ⟨fun hp => decideTest_decides v id h ?_, ?_⟩
  · rw [List.all_eq_true]
    intro l hl
    have := hp l hl
    simpa using this
  · rintro ⟨l, hl, hp⟩
    have e : v.decideTest id = v := by
      unfold State.decideTest
      rw [if_neg]
      rintro ⟨-, g⟩
      rw [List.all_eq_true] at g
      have := g l hl
      simp [hp] at this
    rw [e]
    exact ⟨rfl, PagesOnly.refl v _⟩

/-- R53, R95: the retry of the one lookup that waits, and the test of its context. -/
theorem retried_concludes (w : Work) (q : LinkRef) (l : Link) (hw : w.st.cache.waitList = [q]) (ht : w.touched = [])
    (hl : w.st.link? q = some l) (hp : l.state = .pending) (hk : 4 ≤ l.key.length) (hc : (w.st.ctx q.ctx).state = .lookup) :
    ∃ v, LookedUp w.st v q l.key [q] [] ∧
      Concludes v (State.settle { w.st.cache.waitList.foldl Work.retryOne w with retry := false }) q.ctx := by
  obtain ⟨r1, r2, r3⟩ := retryOne_spec w q l hl hk hw
  obtain ⟨-, -, k4, -, -, k7⟩ := lookedUp_keeps r1
  refine ⟨(w.retryOne q).st, r1, ?_⟩
  have e : State.settle { w.st.cache.waitList.foldl Work.retryOne w with retry := false } =
      ((w.retryOne q).touched.foldl State.decideTest (w.retryOne q).st) := by
    unfold State.settle
    simp only [hw, List.foldl_cons, List.foldl_nil]
  rw [e, r3, ht, List.nil_append]
  cases hs : resolves w.st l.key with
  | true => exact decideTest_concludes _ _ (by rw [k4]; exact hc)
  | false =>
    refine ⟨fun h => ?_, fun _ => ⟨rfl, PagesOnly.refl _ _⟩⟩
    have := k7 hs
    rw [hl] at this
    obtain ⟨m, hm, hms⟩ := Option.map_eq_some_iff.1 (by simpa using this)
    exact absurd (hms.trans hp) (h m (List.mem_of_getElem? hm))

/-- R53, R95: the end of an event that freed a slot or a place, with one lookup waiting. -/
theorem retry_concludes (w : Work) (q : LinkRef) (l : Link) (hw : w.st.cache.waitList = [q]) (hr : w.st.cache.recalls = [])
    (hy : w.retry = true) (ht : w.touched = []) (hl : w.st.link? q = some l) (hp : l.state = .pending)
    (hk : 4 ≤ l.key.length) (hc : (w.st.ctx q.ctx).state = .lookup) :
    ∃ v, LookedUp w.st v q l.key [q] [] ∧ Concludes v (State.settle w.finish) q.ctx := by
  have e : w.finish = { w.st.cache.waitList.foldl Work.retryOne w with retry := false } := by
    unfold Work.finish
    rw [hr, List.foldl_nil, if_pos hy]
  rw [e]
  exact retried_concludes w q l hw ht hl hp hk hc

/-- R97, R99: the slot that an answer's tag finds is the one outstanding with it. -/
theorem slotOfTag_out (s : State) (i : Fin 16) (f : Fetch) (tag) (h : Outstanding s i f tag) : Work.slotOfTag s tag = some (i, f) := by
  obtain ⟨h1, h2, h3, h4⟩ := h
  unfold Work.slotOfTag
  rw [List.findSome?_eq_some_iff]
  refine ⟨(List.finRange 16).take i, i, (List.finRange 16).drop (i+1), ?_, ?_, ?_⟩
  · have := List.take_append_drop i.val (List.finRange 16)
    rw [List.drop_eq_getElem_cons (by simp)] at this
    simpa using this.symm
  · simp [h1, h2, h3]
  · intro j hj
    rw [List.mem_take_iff_getElem] at hj
    obtain ⟨k, hk, rfl⟩ := hj
    simp at hk ⊢
    have hne : (⟨k, by omega⟩ : Fin 16) ≠ i := by intro e; rw [← e] at hk; simp at hk
    cases hg : s.cache.slots[k] with
    | none => rfl
    | some g =>
      simp only
      rw [if_neg]
      simp
      intro a b
      exact hne (h4 ⟨k, by omega⟩ g (by simpa using hg) a b)

end Sys2Proof.Laws
end

