-- ==== Sys2Proof/Laws/Abort.lean ====
section
/-! SUPPORT. What an abort gives back (R60, R101, R128): the pins, units, waiting lookups, private copies and fetches of a
visit's links, its reservation, its transit entry and token, as `Released` of Safety.lean says. -/

open Sys2Proof Sys2Proof.Machine Sys2Proof.Safety
namespace Sys2Proof.Laws

/-! ### One link released by an abort (R60, R101) -/

/-- The fetch slots once one is set. -/
theorem slots_set (s : State) (i : Fin 16) (x : Option Fetch) (j : Fin 16) :
    (s.setSlot i x).cache.slots[j] = if j = i then x else s.cache.slots[j] := by
  simp only [State.setSlot, State.updCache, Fin.getElem_fin]
  by_cases h : j = i
  · subst h; simp
  · have : i.val ≠ j.val := fun e => h (Fin.ext e.symm)
    simp [this, h]

/-- The slot that fetches a private copy. -/
def copySlot (s : State) (p : Fin 48) : Option (Fin 16) :=
  (List.finRange 16).find? fun i => s.cache.slots[i].any fun f => f.target == .copy p

/-- R101: a private copy cancelled, with its fetch. -/
theorem cancelCopy_step (w : Work) (p : Fin 48) :
    let t := (w.cancelCopy p).st
    t.uplink.queue = w.st.uplink.queue ∧ (w.st.uplink.waiters = [] → t.uplink = w.st.uplink) ∧
    (∀ j, t.ctx j = w.st.ctx j) ∧ (∀ i y, t.entry i y = w.st.entry i y) ∧
    t.cache.recalls = w.st.cache.recalls ∧ t.cache.counters = w.st.cache.counters ∧ t.cache.waitList = w.st.cache.waitList ∧
    t.dest = w.st.dest ∧ t.slot = w.st.slot ∧ t.lanes = w.st.lanes ∧ t.params = w.st.params ∧
    (∀ q : Fin 48, t.cache.copies[q] = if q = p then none else w.st.cache.copies[q]) ∧
    (∀ j : Fin 16, t.cache.slots[j] = if copySlot w.st p = some j then none else w.st.cache.slots[j]) ∧
    t.cache.sendOrder = w.st.cache.sendOrder.filter fun o => match o with
      | .fetch i => decide (copySlot w.st p ≠ some i)
      | _ => true := by
  intro t
  have et : t = (w.cancelCopy p).st := rfl
  clear_value t
  unfold Work.cancelCopy at et
  change t = (Work.discardCopy (match copySlot w.st p with
    | some i => (w.withdraw (.fetch i)).freeFetch i
    | none => w) p).st at et
  cases hc : copySlot w.st p with
  | none =>
    rw [hc] at et
    have e : t = w.st.setCopy p none := et
    subst e
    refine ⟨rfl, fun _ => rfl, fun _ => rfl, fun _ _ => rfl, rfl, rfl, rfl, rfl, rfl, rfl, rfl, fun q => copies_set _ _ _ _,
      fun j => by simp; rfl, ?_⟩
    have : (fun o : Owed => match o with | .fetch i => decide ((none : Option (Fin 16)) ≠ some i) | _ => true) = fun _ => true := by
      funext o; cases o <;> simp
    rw [this]; simp; rfl
  | some i =>
    rw [hc] at et
    obtain ⟨u, hu⟩ : ∃ u : State, u = (w.withdraw (.fetch i)).st := ⟨_, rfl⟩
    have e : t = (u.setSlot i none).setCopy p none := by rw [et, hu]; rfl
    have hw : u = (let s := w.st.updCache fun c => { c with sendOrder := c.sendOrder.filter (· != .fetch i) }
        if s.cache.sendOrder.isEmpty then s.unwait .cache else s) := by rw [hu]; rfl
    have un : ∀ (v : State) x, v.unwait x = { v with uplink := { v.uplink with waiters := v.uplink.waiters.filter (· != x) } } := fun _ _ => rfl
    have hk : u = { w.st with
        uplink := { w.st.uplink with waiters := u.uplink.waiters }
        cache := { w.st.cache with sendOrder := w.st.cache.sendOrder.filter (· != .fetch i) } } ∧
        (w.st.uplink.waiters = [] → u.uplink.waiters = []) := by
      rw [hw]
      dsimp only
      split
      · rw [un]
        refine ⟨rfl, fun h => ?_⟩
        show w.st.uplink.waiters.filter _ = []
        rw [h]; rfl
      · exact ⟨rfl, fun h => h⟩
    obtain ⟨hk, hk2⟩ := hk
    obtain ⟨W, hW⟩ : ∃ W, W = u.uplink.waiters := ⟨_, rfl⟩
    rw [← hW] at hk hk2
    subst hk
    subst e
    refine ⟨rfl, fun h => ?_, fun _ => rfl, fun _ _ => rfl, rfl, rfl, rfl, rfl, rfl, rfl, rfl, fun q => copies_set _ _ _ _,
      fun j => ?_, ?_⟩
    · show ({ w.st.uplink with waiters := W } : Uplink) = _
      rw [hk2 h, ← h]
    · have : (State.setCopy (State.setSlot { w.st with
          uplink := { w.st.uplink with waiters := W }
          cache := { w.st.cache with sendOrder := w.st.cache.sendOrder.filter (· != .fetch i) } } i none) p none).cache.slots[j] = _ :=
        slots_set _ i none j
      rw [this]
      by_cases h : j = i
      · subst h; simp
      · rw [if_neg h, if_neg (by intro e; exact h (Option.some.inj e).symm)]
    · show w.st.cache.sendOrder.filter (· != .fetch i) = _
      congr 1
      funext o
      cases o with
      | fetch j =>
        by_cases h : j = i
        · subst h; simp
        · have e1 : (Owed.fetch j != Owed.fetch i) = true := by simp [h]
          have e2 : decide (some i ≠ some j) = true := by
            rw [decide_eq_true_eq]; exact fun e => h (Option.some.inj e).symm
          rw [e1]; exact e2.symm
      | _ => rfl

/-- The slot found for a private copy fetches it. -/
theorem copySlot_target {s : State} {p : Fin 48} {i : Fin 16} (h : copySlot s p = some i) :
    ∃ f, s.cache.slots[i] = some f ∧ f.target = .copy p := by
  have := List.find?_some h
  cases e : s.cache.slots[i] with
  | none => rw [e] at this; cases this
  | some f => rw [e] at this; exact ⟨f, rfl, by simpa using this⟩

/-- One link released by an abort. -/
theorem abortLink_step (w : Work) (r : LinkRef) (l : Link) (hl : w.st.link? r = some l)
    (hm : ∀ i y, l.target = some (.way i y) → (w.st.entry i y).mark = .none) :
    let t := (w.abortLink r).st
    let slot (j : Fin 16) : Bool := match l.target with
      | some (.copy p) => copySlot w.st p == some j
      | _ => false
    t.uplink.queue = w.st.uplink.queue ∧ (w.st.uplink.waiters = [] → t.uplink = w.st.uplink) ∧
    t.cache.recalls = w.st.cache.recalls ∧ t.cache.counters = w.st.cache.counters ∧
    t.cache.waitList = w.st.cache.waitList.filter (· != r) ∧
    t.dest = w.st.dest ∧ t.slot = w.st.slot ∧ t.lanes = w.st.lanes ∧ t.params = w.st.params ∧
    (∀ j, t.ctx j = if j = r.ctx then
      { w.st.ctx j with links := (w.st.ctx j).links.modify r.index fun l => { l with target := none, holdsUnit := false } }
      else w.st.ctx j) ∧
    (∀ i y, t.entry i y = if l.target = some (.way i y) then
      { w.st.entry i y with
        pins := (w.st.entry i y).pins - 1
        held := if l.holdsUnit then (w.st.entry i y).held - 1 else (w.st.entry i y).held }
      else w.st.entry i y) ∧
    (∀ p : Fin 48, t.cache.copies[p] = if l.target = some (.copy p) then none else w.st.cache.copies[p]) ∧
    (∀ j : Fin 16, t.cache.slots[j] = if slot j then none else w.st.cache.slots[j]) ∧
    t.cache.sendOrder = w.st.cache.sendOrder.filter fun o => match o with
      | .fetch i => !slot i
      | _ => true := by
  intro t slot
  have et : t = (w.abortLink r).st := rfl
  clear_value t
  unfold Work.abortLink at et
  simp only [hl] at et
  obtain ⟨u, hu⟩ : ∃ u : State, u = ((w.st.updCache fun c => { c with waitList := c.waitList.filter (· != r) }).updLink r
    fun l => { l with target := none, holdsUnit := false }) := ⟨_, rfl⟩
  have uc : ∀ j, u.ctx j = if j = r.ctx then
      { w.st.ctx j with links := (w.st.ctx j).links.modify r.index fun l => { l with target := none, holdsUnit := false } }
      else w.st.ctx j := by rw [hu]; exact updLink_ctx _ _ _
  have ue : ∀ i y, u.entry i y = w.st.entry i y := by rw [hu]; exact fun _ _ => rfl
  have uk : u.cache = { w.st.cache with waitList := w.st.cache.waitList.filter (· != r) } := by rw [hu]; rfl
  have uu : u.uplink = w.st.uplink ∧ u.dest = w.st.dest ∧ u.slot = w.st.slot ∧ u.lanes = w.st.lanes ∧
      u.params = w.st.params := by rw [hu]; exact ⟨rfl, rfl, rfl, rfl, rfl⟩
  have hup : (w.upd fun s => (s.updCache fun c => { c with waitList := c.waitList.filter (· != r) }).updLink r
      fun l => { l with target := none, holdsUnit := false }) = { w with st := u } := by
    rw [hu]; rfl
  rw [hup] at et
  clear hup hu
  have all (L : List Owed) : L.filter (fun o => match o with | .fetch _ => !false | _ => true) = L := by
    have : (fun o : Owed => match o with | .fetch _ => !false | _ => true) = fun _ => true := by funext o; cases o <;> rfl
    rw [this]; simp
  obtain ⟨u1, u2, u3, u4, u5⟩ := uu
  have k1 : u.cache.recalls = w.st.cache.recalls := by rw [uk]
  have k2 : u.cache.counters = w.st.cache.counters := by rw [uk]
  have k3 : u.cache.waitList = w.st.cache.waitList.filter (· != r) := by rw [uk]
  have k4 : ∀ p : Fin 48, u.cache.copies[p] = w.st.cache.copies[p] := by rw [uk]; exact fun _ => rfl
  have k5 : ∀ p : Fin 16, u.cache.slots[p] = w.st.cache.slots[p] := by rw [uk]; exact fun _ => rfl
  have k6 : u.cache.sendOrder = w.st.cache.sendOrder := by rw [uk]
  have k7 : ∀ p, copySlot u p = copySlot w.st p := fun p => by unfold copySlot; rw [uk]
  rcases target_cases l with ht | ⟨i, y, ht⟩ | ⟨p, ht⟩ <;> simp only [slot, ht] at et ⊢
  · subst et
    refine ⟨by rw [u1], fun _ => u1, k1, k2, k3, u2, u3, u4, u5, uc, fun i y => ?_, fun p => ?_, fun j => ?_, ?_⟩
    · rw [if_neg (by simp)]; exact ue i y
    · rw [if_neg (by simp)]; exact k4 p
    · rw [if_neg (by simp)]; exact k5 j
    · rw [all]; exact k6
  · have e : (({ w with st := u } : Work).unpin i y l.holdsUnit).st = u.updEntry i y fun e =>
          { e with pins := e.pins - 1, held := if l.holdsUnit then e.held - 1 else e.held } := by
      unfold Work.unpin
      rw [settle_quiet]
      · rfl
      · simp only [Work.upd]
        rw [entry_upd, if_pos rfl]
        show (u.entry i y).mark = _
        rw [ue]; exact hm i y ht
    rw [e] at et; subst et
    refine ⟨by rw [← u1]; rfl, fun _ => u1, k1, k2, k3, u2, u3, u4, u5, uc, fun j z => ?_, fun p => ?_, fun j => ?_, ?_⟩
    · rw [entry_upd, ue, ue]
      by_cases h : (j, z) = (i, y)
      · cases h; simp
      · rw [if_neg h, if_neg (by rintro e; cases e; exact h rfl)]
    · rw [if_neg (by simp)]; exact k4 p
    · rw [if_neg (by simp)]; exact k5 j
    · rw [all]; exact k6
  · obtain ⟨c1, c2, c3, c4, c5, c6, c7, c8, c9, c10, c11, c12, c13, c14⟩ := cancelCopy_step { w with st := u } p
    rw [← et] at c1 c2 c3 c4 c5 c6 c7 c8 c9 c10 c11 c12 c13 c14
    dsimp only at c1 c2 c3 c4 c5 c6 c7 c8 c9 c10 c11 c12 c13 c14
    refine ⟨by rw [c1, u1], fun h => by rw [c2 (by rw [u1]; exact h), u1], c5.trans k1, c6.trans k2, c7.trans k3,
      c8.trans u2, c9.trans u3, c10.trans u4, c11.trans u5, fun j => (c3 j).trans (uc j), fun i y => ?_, fun q => ?_,
      fun j => ?_, ?_⟩
    · rw [if_neg (by simp), c4, ue]
    · rw [c12, k4]
      by_cases h : q = p
      · subst h; simp
      · rw [if_neg h, if_neg (by rintro e; cases e; exact h rfl)]
    · rw [c13, k5, k7]
      by_cases h : copySlot w.st p = some j <;> simp [h]
    · rw [c14, k6, k7]
      congr 1
      funext o
      cases o with
      | fetch j => by_cases h : copySlot w.st p = some j <;> simp [h]
      | _ => rfl

/-! ### All the links of a visit -/

/-- Whether a slot fetches a private copy that one of the links names. -/
def fetchesFor (s : State) (L : List Link) (j : Fin 16) : Bool :=
  L.any fun l => match l.target with
    | some (.copy p) => copySlot s p == some j
    | _ => false

/-- R60, R101: the links of a visit before `n` released. -/
def AbortedSoFar (s : State) (id : CtxId) (n : Nat) (t : State) : Prop :=
  let L := (s.ctx id).links
  (t.uplink.queue = s.uplink.queue ∧ (s.uplink.waiters = [] → t.uplink = s.uplink)) ∧
  (t.cache.recalls = s.cache.recalls ∧ t.cache.counters = s.cache.counters) ∧
  t.cache.waitList = s.cache.waitList.filter (fun r => !decide (r.ctx = id ∧ r.index < n)) ∧
  (t.dest = s.dest ∧ t.slot = s.slot ∧ t.lanes = s.lanes ∧ t.params = s.params) ∧
  (∀ j, t.ctx j = if j = id then
    { s.ctx j with links := (L.take n).map (fun l => { l with target := none, holdsUnit := false }) ++ L.drop n }
    else s.ctx j) ∧
  (∀ i y, t.entry i y = match (L.take n).find? (·.target == some (.way i y)) with
    | some k => { s.entry i y with
        pins := (s.entry i y).pins - 1, held := if k.holdsUnit then (s.entry i y).held - 1 else (s.entry i y).held }
    | none => s.entry i y) ∧
  (∀ p : Fin 48, t.cache.copies[p] =
    if (L.take n).any (·.target == some (.copy p)) then none else s.cache.copies[p]) ∧
  (∀ j : Fin 16, t.cache.slots[j] = if fetchesFor s (L.take n) j then none else s.cache.slots[j]) ∧
  t.cache.sendOrder = s.cache.sendOrder.filter fun o => match o with
    | .fetch j => !fetchesFor s (L.take n) j
    | _ => true

/-- R60, R101: the links of a visit released one after the other. -/
theorem abort_fold (s : State) (id : CtxId) (hn : ((s.ctx id).links.filterMap (·.target)).Nodup)
    (hq : ∀ l ∈ (s.ctx id).links, ∀ i y, l.target = some (.way i y) → (s.entry i y).mark = .none) (w : Work) (hw : w.st = s)
    (n : Nat) (hle : n ≤ (s.ctx id).links.length) :
    AbortedSoFar s id n ((List.range n).foldl (fun w m => w.abortLink ⟨id, m⟩) w).st := by
  induction n with
  | zero =>
    rw [show (List.range 0).foldl (fun w m => w.abortLink ⟨id, m⟩) w = w from rfl, hw]
    refine ⟨⟨rfl, fun _ => rfl⟩, ⟨rfl, rfl⟩, by simp, ⟨rfl, rfl, rfl, rfl⟩, fun j => ?_, fun i y => by simp, fun p => by simp,
      fun j => by simp [fetchesFor], ?_⟩
    · by_cases h : j = id
      · subst h; simp
      · rw [if_neg h]
    · have : (fun o : Owed => match o with | .fetch j => !fetchesFor s ((s.ctx id).links.take 0) j | _ => true) = fun _ => true := by
        funext o; cases o <;> simp [fetchesFor]
      rw [this]; simp
  | succ n ih =>
    obtain ⟨⟨a1, a2⟩, ⟨b1, b2⟩, c1, ⟨d1, d2, d3, d4⟩, i5, i6, i7, i8, i9⟩ := ih (by omega)
    rw [foldl_range_split]
    generalize (List.range n).foldl (fun w m => w.abortLink ⟨id, m⟩) w = u at a1 a2 b1 b2 c1 d1 d2 d3 d4 i5 i6 i7 i8 i9 ⊢
    have hlt : n < (s.ctx id).links.length := by omega
    obtain ⟨l, hl⟩ : ∃ l, (s.ctx id).links[n]? = some l := ⟨_, List.getElem?_eq_getElem hlt⟩
    have hmem : l ∈ (s.ctx id).links := List.mem_of_getElem? hl
    have hlen : ((s.ctx id).links.take n).length = n := by rw [List.length_take]; omega
    have hdrop : (s.ctx id).links.drop n = l :: (s.ctx id).links.drop (n + 1) := by
      rw [List.drop_eq_getElem_cons hlt]; rw [List.getElem?_eq_getElem hlt] at hl; cases hl; rfl
    have hul : u.st.link? ⟨id, n⟩ = some l := by
      unfold State.link?
      rw [i5, if_pos rfl]
      show (_ ++ _)[n]? = _
      rw [List.getElem?_append_right (by simp)]
      simp only [List.length_map, hlen, Nat.sub_self]
      rw [hdrop]; rfl
    obtain ⟨s1, s2, s3, s4, s5, s6, s7, s8, s9, s10, s11, s12, s13, s14⟩ := abortLink_step u ⟨id, n⟩ l hul (by
      intro i y ht
      rw [i6, (find_target hn hl ht).2]
      exact hq l hmem i y ht)
    generalize (u.abortLink ⟨id, n⟩).st = t at s1 s2 s3 s4 s5 s6 s7 s8 s9 s10 s11 s12 s13 s14 ⊢
    have hslot : ∀ p, l.target = some (.copy p) → copySlot u.st p = copySlot s p := by
      intro p hp
      unfold copySlot
      congr 1
      funext j
      rw [i8]
      split
      · rename_i hf
        obtain ⟨k, hk, hk2⟩ := List.any_eq_true.1 hf
        cases hkt : k.target with
        | none => rw [hkt] at hk2; cases hk2
        | some g =>
          cases g with
          | way _ _ => rw [hkt] at hk2; cases hk2
          | copy q =>
            rw [hkt] at hk2
            obtain ⟨f, hf1, hf2⟩ := copySlot_target (by simpa using hk2)
            have hne : q ≠ p := by
              rintro rfl
              have := (find_target hn hl hp).2
              rw [List.find?_eq_none] at this
              exact this k hk (by simp [hkt])
            rw [hf1]; simp [hf2, hne]
      · rfl
    have hfor : ∀ j, fetchesFor s ((s.ctx id).links.take (n + 1)) j = (fetchesFor s ((s.ctx id).links.take n) j ||
        match l.target with | some (.copy p) => copySlot u.st p == some j | _ => false) := by
      intro j
      unfold fetchesFor
      rw [take_step hl, List.any_append]
      rcases target_cases l with ht | ⟨i, y, ht⟩ | ⟨p, ht⟩
      · simp [ht]
      · simp [ht]
      · simp [ht, hslot p ht]
    refine ⟨⟨s1.trans a1, fun h => (s2 (by rw [a2 h]; exact h)).trans (a2 h)⟩, ⟨s3.trans b1, s4.trans b2⟩, ?_,
      ⟨s6.trans d1, s7.trans d2, s8.trans d3, s9.trans d4⟩, fun j => ?_, fun i y => ?_, fun p => ?_, fun j => ?_, ?_⟩
    · rw [s5, c1, List.filter_filter]
      congr 1
      funext r
      obtain ⟨rc, ri⟩ := r
      by_cases h1 : rc = id
      · subst h1
        by_cases h2 : ri = n
        · subst h2; simp
        · have : (LinkRef.mk rc ri != ⟨rc, n⟩) = true := by simp [h2]
          rw [this]
          have : (ri < n + 1) ↔ (ri < n) := by omega
          simp [this]
      · have : (LinkRef.mk rc ri != ⟨id, n⟩) = true := by simp [h1]
        rw [this]; simp [h1]
    · rw [s10, i5]
      by_cases hj : j = id
      · subst hj
        simp only [if_true]
        rw [take_step hl, hdrop]
        congr 1
        rw [modify_set _ n l _ (by
          rw [List.getElem?_append_right (by simp)]; simp only [List.length_map, hlen, Nat.sub_self]; rfl)]
        rw [List.set_append_right _ _ (by simp)]
        simp only [List.length_map, hlen, Nat.sub_self, List.set_cons_zero, List.map_append, List.map_cons, List.map_nil,
          List.append_assoc, List.cons_append, List.nil_append]
      · simp [hj]
    · rw [s11, i6, take_step hl, List.find?_append]
      by_cases ht : l.target = some (.way i y)
      · rw [if_pos ht, (find_target hn hl ht).2]
        simp [ht]
      · rw [if_neg ht]
        cases ((s.ctx id).links.take n).find? (·.target == some (.way i y)) <;> simp [ht]
    · rw [s12, i7, take_step hl, List.any_append]
      by_cases ht : l.target = some (.copy p)
      · simp [ht]
      · rw [if_neg ht]; simp [ht]
    · rw [s13, i8, hfor]
      by_cases h : fetchesFor s ((s.ctx id).links.take n) j = true <;> simp [h]
    · rw [s14, i9, List.filter_filter]
      congr 1
      funext o
      cases o with
      | fetch j =>
        show (!_ && !_) = !_
        rw [hfor, Bool.not_or, Bool.and_comm]
      | _ => rfl

/-- A slot that alone fetches a private copy is the one found for it. -/
theorem copySlot_of {s : State} {p : Fin 48} {i : Fin 16} {f : Fetch} (hf : s.cache.slots[i] = some f) (ht : f.target = .copy p)
    (one : ∀ (j : Fin 16) (g : Fetch), s.cache.slots[j] = some g → g.target = .copy p → j = i) : copySlot s p = some i := by
  cases h : copySlot s p with
  | none =>
    unfold copySlot at h
    have := List.find?_eq_none.1 h i (List.mem_finRange i)
    rw [hf] at this
    simp [ht] at this
  | some j =>
    obtain ⟨g, hg, hg2⟩ := copySlot_target h
    rw [one j g hg hg2]

/-- R60, R101: the cache's part of an abort, with the end of its part of the event: the pins and units of the visit's links, its
waiting lookups, its private copies and their fetches are given back, and nothing else of the cache changes. -/
theorem abort_links (s : State) (id : CtxId) (hn : ((s.ctx id).links.filterMap (·.target)).Nodup)
    (hq : ∀ l ∈ (s.ctx id).links, ∀ i y, l.target = some (.way i y) → (s.entry i y).mark = .none)
    (hr : s.cache.recalls = []) (hw : ∀ r ∈ s.cache.waitList, r.ctx = id ∧ r.index < (s.ctx id).links.length) :
    let c := s.ctx id
    let t := (Work.abort { st := s } id).finish.st
    (t.uplink.queue = s.uplink.queue ∧ (s.uplink.waiters = [] → t.uplink = s.uplink)) ∧
    (t.dest = s.dest ∧ t.slot = s.slot ∧ t.lanes = s.lanes ∧ t.params = s.params) ∧
    (∀ j, t.ctx j = if j = id then
      { c with links := c.links.map fun l => { l with target := none, holdsUnit := false } } else s.ctx j) ∧
    (∀ i y, t.entry i y = match c.links.find? (·.target == some (.way i y)) with
      | some k => { s.entry i y with
          pins := (s.entry i y).pins - 1, held := if k.holdsUnit then (s.entry i y).held - 1 else (s.entry i y).held }
      | none => s.entry i y) ∧
    (∀ p : Fin 48, t.cache.copies[p] =
      if c.links.any (·.target == some (.copy p)) then none else s.cache.copies[p]) ∧
    (∀ (i : Fin 16) (f : Fetch) (p : Fin 48), s.cache.slots[i] = some f → f.target = .copy p →
      c.links.any (·.target == some (.copy p)) = true →
      (∀ (j : Fin 16) (g : Fetch), s.cache.slots[j] = some g → g.target = .copy p → j = i) → t.cache.slots[i] = none) ∧
    (∀ i : Fin 16, (∀ f p, s.cache.slots[i] = some f → f.target = .copy p →
      c.links.any (·.target == some (.copy p)) = false) → t.cache.slots[i] = s.cache.slots[i]) ∧
    (t.cache.sendOrder = s.cache.sendOrder.filter fun o => match o with
      | .fetch i => decide (t.cache.slots[i] = s.cache.slots[i])
      | _ => true) ∧
    t.cache.waitList = [] ∧ t.cache.counters = s.cache.counters ∧ t.cache.recalls = [] := by
  intro c t
  have ha : Work.abort { st := s } id = (List.range c.links.length).foldl (fun w m => w.abortLink ⟨id, m⟩) { st := s } := by
    unfold Work.abort Work.refsOf
    rw [List.foldl_map]
  have inv := abort_fold s id hn hq { st := s } rfl c.links.length (Nat.le_refl _)
  rw [← ha] at inv
  obtain ⟨i1, ⟨b1, b2⟩, c1, i4, i5, i6, i7, i8, i9⟩ := inv
  have wl : (Work.abort { st := s } id).st.cache.waitList = [] := by
    rw [c1, List.filter_eq_nil_iff]
    intro r hrm
    simpa using hw r hrm
  have hfin : t = (Work.abort { st := s } id).st := by
    show (Work.finish _).st = _
    unfold Work.finish
    rw [b1, hr]
    simp only [List.foldl_nil, wl]
    split <;> rfl
  rw [← hfin] at i1 b1 b2 i4 i5 i6 i7 i8 i9 wl
  have et : (s.ctx id).links.take c.links.length = c.links := List.take_length
  have ed : (s.ctx id).links.drop c.links.length = [] := List.drop_length
  simp only [et, ed, List.append_nil] at i5 i6 i7 i8 i9
  have cleared : ∀ j, fetchesFor s c.links j = true → ∃ f p, s.cache.slots[j] = some f ∧ f.target = .copy p ∧
      c.links.any (·.target == some (.copy p)) = true := by
    intro j hj
    obtain ⟨k, hk, hk2⟩ := List.any_eq_true.1 hj
    rcases target_cases k with ht | ⟨i, y, ht⟩ | ⟨p, ht⟩ <;> rw [ht] at hk2
    · cases hk2
    · cases hk2
    · obtain ⟨f, hf, hf2⟩ := copySlot_target (by simpa using hk2)
      exact ⟨f, p, hf, hf2, List.any_eq_true.2 ⟨k, hk, by simp [ht]⟩⟩
  refine ⟨i1, i4, fun j => ?_, i6, i7, ?_, ?_, ?_, wl, b2, b1.trans hr⟩
  · rw [i5]
    by_cases h : j = id
    · subst h; rfl
    · rw [if_neg h, if_neg h]
  · intro i f p hf ht hany one
    rw [i8, if_pos]
    obtain ⟨k, hk, hk2⟩ := List.any_eq_true.1 hany
    refine List.any_eq_true.2 ⟨k, hk, ?_⟩
    have : k.target = some (.copy p) := by simpa using hk2
    rw [this]
    simp [copySlot_of hf ht one]
  · intro i hi
    rw [i8, if_neg]
    intro h
    obtain ⟨f, p, hf, ht, hany⟩ := cleared i h
    rw [hi f p hf ht] at hany; cases hany
  · rw [i9]
    congr 1
    funext o
    cases o with
    | fetch j =>
      show (!_) = decide _
      rw [i8]
      by_cases h : fetchesFor s c.links j = true
      · obtain ⟨f, p, hf, -⟩ := cleared j h
        rw [if_pos h, hf, h]; simp
      · rw [if_neg h]; simp [h]
    | _ => rfl

/-! ### The window, the token and the transit entry (R60, R128, R160) -/

/-- R128: the reservation of a visit is given back. -/
theorem releaseSlot_spec (s : State) (id : CtxId) :
    WindowReturned s (s.releaseSlot id) id ∧ (s.releaseSlot id).dest = s.dest ∧ (s.releaseSlot id).cache = s.cache ∧
    ∀ j, (s.releaseSlot id).ctx j = if j = id then { s.ctx j with reservation := none } else s.ctx j := by
  unfold State.releaseSlot
  cases hr : (s.ctx id).reservation with
  | none =>
    refine ⟨⟨rfl, rfl, fun p => by rw [hr]⟩, rfl, rfl, fun j => ?_⟩
    by_cases h : j = id
    · subst h
      rw [if_pos rfl]
      show s.ctx j = { s.ctx j with reservation := none }
      generalize s.ctx j = x at hr
      cases x; cases hr; rfl
    · rw [if_neg h]
  | some r =>
    have hplace : (s.updCtx id fun c => { c with reservation := none }).reservedPlace r =
        if r.lost then none else s.windowPlace r.day r.window := rfl
    have hctx : ∀ j, (s.updCtx id fun c => { c with reservation := none }).ctx j =
        if j = id then { s.ctx j with reservation := none } else s.ctx j := by
      intro j
      rw [State.ctx_updCtx]
      by_cases h : j = id
      · subst h; simp
      · simp [h]
    dsimp only
    rw [hplace]
    cases hp : (if r.lost then none else s.windowPlace r.day r.window) with
    | none =>
      refine ⟨⟨rfl, rfl, fun p => ?_⟩, rfl, rfl, hctx⟩
      rw [hr]
      dsimp only
      rw [if_neg]
      · rfl
      · rintro ⟨h1, h2⟩; rw [h1] at hp; simp [h2] at hp
    | some q =>
      have hl : r.lost = false := by cases e : r.lost with
        | false => rfl
        | true => rw [e] at hp; simp at hp
      rw [hl] at hp
      simp only [Bool.false_eq_true, if_false] at hp
      refine ⟨⟨?_, ?_, fun p => ?_⟩, ?_, ?_, fun j => ?_⟩
      · obtain ⟨i, w⟩ := q; cases i <;> rfl
      · obtain ⟨i, w⟩ := q; cases i <;> rfl
      · dsimp only
        rw [windowAt_updWindow, hr]
        dsimp only
        by_cases h : p = q
        · subst h; rw [if_pos rfl, if_pos ⟨hl, hp⟩]; rfl
        · rw [if_neg (by simpa using h), if_neg]
          · rfl
          · rintro ⟨-, h2⟩; rw [hp] at h2; cases h2; exact h rfl
      · obtain ⟨i, w⟩ := q; cases i <;> rfl
      · obtain ⟨i, w⟩ := q; cases i <;> rfl
      · rw [← hctx j]; obtain ⟨i, w⟩ := q; cases i <;> rfl

/-- R60: the token and the transit entry of a visit are given back. -/
theorem releaseToken_spec (s : State) (id : CtxId) (hn : (s.dest.transit.map (·.visit)).Nodup) (hf : (s.ctx id).state ≠ .free)
    (ho : ∀ j, j ≠ id → (s.ctx j).state ≠ .free → (s.ctx j).visit ≠ (s.ctx id).visit)
    (he : (s.ctx id).inTransit = true → ∃ e ∈ s.dest.transit, e.visit = (s.ctx id).visit) :
    let c := s.ctx id
    let t := s.releaseToken id
    t.dest.transit = (if c.inTransit then s.dest.transit.filter (·.visit != c.visit) else s.dest.transit) ∧
    (∀ y, t.destAt y =
      if c.inTransit && s.dest.transit.any (fun e => e.visit == c.visit && e.dest == y) then
        { s.destAt y with inTransit := (s.destAt y).inTransit - 1 }
      else s.destAt y) ∧
    ∀ j, t.ctx j = if j = id then { s.ctx j with inTransit := false } else s.ctx j := by
  intro c t
  have et : t = s.releaseToken id := rfl
  clear_value t
  unfold State.releaseToken at et
  change t = if c.inTransit then match s.transitOf c.visit with | some e => s.removeTransit e | none => s else s at et
  by_cases ht : c.inTransit = true
  · rw [if_pos ht] at et
    obtain ⟨e, hem, hev⟩ := he ht
    have hfind : s.transitOf c.visit = some e := by
      unfold State.transitOf
      have : ∀ L : List TransitEntry, (L.map (·.visit)).Nodup → e ∈ L → L.find? (·.visit == c.visit) = some e := by
        intro L
        induction L with
        | nil => intro _ h; cases h
        | cons a L ih =>
          intro h1 h2
          rw [List.map_cons, List.nodup_cons] at h1
          rcases List.mem_cons.1 h2 with rfl | h2
          · rw [List.find?_cons_of_pos]; simpa using hev
          · have : a.visit ≠ c.visit := fun h => h1.1 (List.mem_map.2 ⟨e, h2, by rw [h]; exact hev⟩)
            rw [List.find?_cons_of_neg (by simpa using this)]
            exact ih h1.2 h2
      exact this _ hn hem
    rw [hfind] at et
    dsimp only at et
    subst et
    have hany : ∀ y, s.dest.transit.any (fun e => e.visit == c.visit && e.dest == y) = (e.dest == y) := by
      intro y
      by_cases hy : e.dest = y
      · subst hy
        rw [beq_self_eq_true, List.any_eq_true]
        exact ⟨e, hem, by rw [hev]; simp [c]⟩
      · have : (e.dest == y) = false := by simpa using hy
        rw [this, List.any_eq_false]
        intro g hg
        simp only [Bool.and_eq_true, beq_iff_eq, not_and]
        intro hgv
        have := List.inj_on_of_nodup_map hn hem hg (hev.trans hgv.symm)
        subst this; exact hy
    refine ⟨?_, fun y => ?_, fun j => ?_⟩
    · rw [if_pos ht]
      show s.dest.transit.filter (·.visit != e.visit) = _
      rw [hev]
    · rw [hany, ht, Bool.true_and]
      show (upd s.dest.dests e.dest fun d => { d with inTransit := d.inTransit - 1 })[y] = _
      simp only [Fin.getElem_fin, upd_getElem]
      by_cases hy : e.dest = y
      · subst hy
        rw [if_pos rfl, if_pos (beq_self_eq_true _)]; rfl
      · have : y.val ≠ e.dest.val := fun h => hy (Fin.ext h.symm)
        simp [this, hy]; rfl
    · show (mapAll s.pool fun c => if c.state ≠ .free ∧ c.visit = e.visit then { c with inTransit := false } else c)[j] = _
      have hget : (mapAll s.pool fun c => if c.state ≠ .free ∧ c.visit = e.visit then { c with inTransit := false } else c)[j] =
          if (s.ctx j).state ≠ .free ∧ (s.ctx j).visit = e.visit then { s.ctx j with inTransit := false } else s.ctx j := by
        simp [mapAll, State.ctx]
        rfl
      rw [hget, hev]
      by_cases hj : j = id
      · subst hj; rw [if_pos ⟨hf, rfl⟩, if_pos rfl]
      · rw [if_neg hj, if_neg]
        rintro ⟨h1, h2⟩; exact ho j hj h1 h2
  · have hfalse : c.inTransit = false := by simpa using ht
    rw [if_neg ht] at et
    subst et
    refine ⟨by rw [if_neg ht], fun y => by rw [hfalse]; simp, fun j => ?_⟩
    by_cases hj : j = id
    · subst hj; rw [if_pos rfl]; show t.ctx j = { t.ctx j with inTransit := false }; rw [← hfalse]
    · rw [if_neg hj]
end Sys2Proof.Laws
end

