-- ==== Sys2Proof/Laws/Grant.lean ====
section
/-! SUPPORT. The grant of the pool (R44, R61): what the freeing of a context does to the pool and the lanes that wait. -/

open Sys2Proof Sys2Proof.Machine Sys2Proof.Safety
namespace Sys2Proof.Laws

/-- R45: what the taking anew of the approach timers makes of a context. -/
def retimed (runs : Bool) (limit : Nat) (c : Ctx) : Ctx :=
  { c with approachTimer := if c.state = .arriving ∧ runs = true then some (c.approachTimer.getD limit) else none }

theorem retimeCtx_eq (runs : Bool) (s : State) (id : CtxId) :
    s.retimeCtx runs id = s.updCtx id (retimed runs s.params.approachLimit) := by
  unfold State.retimeCtx
  congr 1
  funext c
  by_cases h : c.state = .arriving ∧ runs = true
  · unfold retimed; simp only [h, and_self, if_true]; cases c.approachTimer <;> rfl
  · unfold retimed; simp only [h, if_false]

theorem retimed_twice (runs : Bool) (limit : Nat) (c : Ctx) : retimed runs limit (retimed runs limit c) = retimed runs limit c := by
  unfold retimed
  by_cases h : c.state = .arriving ∧ runs = true <;> simp [h]

theorem retime_fold (runs : Bool) (ids : List CtxId) (s : State) (j : CtxId) :
    (ids.foldl (State.retimeCtx runs) s).ctx j =
      if j ∈ ids then retimed runs s.params.approachLimit (s.ctx j) else s.ctx j := by
  induction ids generalizing s with
  | nil => simp
  | cons i ids ih =>
    rw [List.foldl_cons, ih, retimeCtx_eq]
    simp only [State.ctx_updCtx, List.mem_cons]
    rw [show (s.updCtx i (retimed runs s.params.approachLimit)).params = s.params from rfl]
    by_cases h : j = i
    · subst h; simp [retimed_twice]
    · simp [h]

theorem retime_ctx (s : State) (l : LaneId) (j : CtxId) :
    (s.retime l).ctx j =
      if j ∈ (s.lane l).ctxs then
        retimed (decide ((s.lane l).ctxs.length = 1) && !s.reads l .position) s.params.approachLimit (s.ctx j)
      else s.ctx j := by
  unfold State.retime
  exact retime_fold _ _ s j

/-- R39, R46: a context allocated to a lane, in ARRIVING or straight in IDENTIFYING. -/
theorem admitArrival_spec (s : State) (id : CtxId) (l : LaneId) (direct : Bool) :
    let t := s.admitArrival id l direct
    t.lastServed = s.lastServed ∧ t.visitCounter = s.visitCounter + 1 ∧ t.uplink = s.uplink ∧
    (∀ g, g ≠ l → t.lane g = s.lane g) ∧
    (∀ j, j ≠ id → t.ctx j = if j ∈ (s.lane l).ctxs then { s.ctx j with approachTimer := none } else s.ctx j) ∧
    (direct = true → t.lane l = { s.lane l with ctxs := (s.lane l).ctxs ++ [id], front := some id } ∧ t.ctx id =
      { state := .identifying, visit := s.visitCounter, lane := l, arrival := s.now, position := some s.now
        identTimer := some s.params.identWindow }) ∧
    (direct = false → t.lane l = { s.lane l with ctxs := (s.lane l).ctxs ++ [id] } ∧ t.ctx id =
      { state := .arriving, visit := s.visitCounter, lane := l, arrival := s.now
        approachTimer :=
          if (s.lane l).ctxs = [] ∧ s.reads l .position = false then some s.params.approachLimit else none }) := by
  obtain ⟨a, ha⟩ : ∃ a, a = s.allocate id l := ⟨_, rfl⟩
  have hc : a.ctx id = { state := .arriving, visit := s.visitCounter, lane := l, arrival := s.now } := by
    subst ha; simp [State.allocate, State.ctx, State.updLane, State.updCtx]
  have hl : a.lane l = { s.lane l with ctxs := (s.lane l).ctxs ++ [id] } := by
    subst ha; simp [State.allocate, State.lane, State.updLane, State.updCtx]
  have hg : ∀ g, g ≠ l → a.lane g = s.lane g := by
    intro g h; subst ha; have : g.val ≠ l.val := fun e => h (Fin.ext e)
    simp [State.allocate, State.lane, State.updLane, State.updCtx, upd_getElem, this]
  have hv : a.visitCounter = s.visitCounter + 1 ∧ a.lastServed = s.lastServed ∧ a.slot = s.slot ∧ a.params = s.params ∧
      a.uplink = s.uplink := by
    subst ha; simp [State.allocate]
  have hj : ∀ j, j ≠ id → a.ctx j = s.ctx j := by
    intro j h; subst ha; have : j.val ≠ id.val := fun e => h (Fin.ext e)
    simp [State.allocate, State.ctx, State.updLane, State.updCtx, upd_getElem, this]
  have stop : ∀ (u : State), u.lane l = a.lane l ∨ (u.lane l).ctxs = (a.lane l).ctxs → (∀ j, j ≠ id → u.ctx j = s.ctx j) →
      ∀ j, j ≠ id → (u.retime l).ctx j =
        if j ∈ (s.lane l).ctxs then { s.ctx j with approachTimer := none } else s.ctx j := by
    intro u hu hc j h
    have hu : (u.lane l).ctxs = (s.lane l).ctxs ++ [id] := by
      rcases hu with e | e
      · rw [e, hl]
      · rw [e, hl]
    rw [retime_ctx, hu, hc j h]
    by_cases m : j ∈ (s.lane l).ctxs
    · have : (s.lane l).ctxs ≠ [] := fun e => by simp [e] at m
      rw [if_pos (by simp [m]), if_pos m]; unfold retimed; simp [this]
    · rw [if_neg (by simp [m, h]), if_neg m]
  have hn : a.now = s.now := by unfold State.now; rw [hv.2.2.1]
  have hr : a.reads l .position = s.reads l .position := by simp only [State.reads, hl]
  dsimp only
  unfold State.admitArrival
  dsimp only
  rw [← ha]
  cases direct with
  | false =>
    simp only [Bool.false_eq_true, if_false, State.retime_frame, hv, hl, true_and, false_imp_iff, forall_const]
    refine ⟨fun g h => hg g h, stop a (.inl rfl) hj, ?_⟩
    rw [retime_ctx, if_pos (by rw [hl]; simp), hc, hl, hr, hv.2.2.2.1]
    unfold retimed
    cases h : s.reads l .position <;> cases h2 : (s.lane l).ctxs <;> simp
  | true =>
    obtain ⟨b, hb⟩ : ∃ b, b = ((a.updCtx id fun c => { c with position := some a.now, approachTimer := none, identTimer := some a.params.identWindow }).updLane l fun x => { x with front := some id }).moveTo id .identifying := ⟨_, rfl⟩
    have bc : b.ctx id = { state := .identifying, visit := s.visitCounter, lane := l, arrival := s.now, position := some s.now
                           identTimer := some s.params.identWindow } := by
      subst hb
      unfold State.moveTo
      dsimp only
      split <;> simp [hc, hn, hv]
    have hb' : a.enterIdentifying id = b := by
      unfold State.enterIdentifying
      dsimp only
      rw [show ((a.updCtx id fun c => { c with position := some a.now, approachTimer := none, identTimer := some a.params.identWindow }).ctx id).lane = l by simp [hc]]
      rw [← hb]
      unfold State.identifyTest
      rw [if_neg]
      rw [bc]
      rintro ⟨-, h⟩
      exact absurd h (by simp [Ctx.identified])
    rw [if_pos rfl, hb']
    have bl : b.lane l = { s.lane l with ctxs := (s.lane l).ctxs ++ [id], front := some id } := by
      subst hb; simp [hl]
    have bg : ∀ g, g ≠ l → b.lane g = s.lane g := by
      intro g h; subst hb; simp [h, hg g h]
    have bv : b.visitCounter = s.visitCounter + 1 ∧ b.lastServed = s.lastServed ∧ b.params = s.params ∧ b.uplink = s.uplink := by
      subst hb; simp [hv]
    have bj : ∀ j, j ≠ id → b.ctx j = s.ctx j := by
      intro j h; subst hb; rw [← hj j h]
      unfold State.moveTo
      dsimp only
      split <;> simp [h]
    simp only [State.retime_frame, bv, bl, true_and, Bool.true_eq_false, false_imp_iff, and_true, forall_const]
    refine ⟨fun g h => bg g h, stop b (.inr (by rw [bl, hl])) bj, ?_⟩
    rw [retime_ctx, if_pos (by rw [bl]; simp), bc]
    unfold retimed
    simp

/-- R33, R45, R61: the part before its freed context is offered: its lane holds it no more, the contexts that stay have
their approach timers taken anew, and a lane in CLOSING that is left with none is CLOSED, with its LANE_EVENT. -/
theorem freeCtx_before (s : State) (id : CtxId) :
    ∃ d : State, s.freeCtx id = d.grant id ∧ d.ctx id = {} ∧ (∀ j, j ≠ id → d.ctx j = staying s id j) ∧
      (∀ l, d.lane l = left s id l) ∧ d.uplink = drained s id s.uplink ∧ d.visitCounter = s.visitCounter ∧
      d.lastServed = s.lastServed ∧ d.slot = s.slot ∧ d.params = s.params := by
  obtain ⟨home, hh⟩ : ∃ home, home = (s.ctx id).lane := ⟨_, rfl⟩
  obtain ⟨a, ha⟩ : ∃ a, a = (s.updCtx id fun _ => {}).updLane home fun x =>
      { x with ctxs := x.ctxs.filter (· != id), front := if x.front = some id then none else x.front } := ⟨_, rfl⟩
  have ac : ∀ j, a.ctx j = if j = id then {} else s.ctx j := by
    intro j; subst ha; simp [State.ctx_updCtx]
  have ah : a.lane home = { s.lane home with
      ctxs := (s.lane home).ctxs.filter (· != id)
      front := if (s.lane home).front = some id then none else (s.lane home).front } := by
    subst ha; rw [State.lane_updLane, if_pos rfl]; rfl
  have ag : ∀ g, g ≠ home → a.lane g = s.lane g := by intro g h; subst ha; simp [h]
  have av : a.visitCounter = s.visitCounter ∧ a.lastServed = s.lastServed ∧ a.slot = s.slot ∧ a.params = s.params ∧
      a.uplink = s.uplink := by
    subst ha; exact ⟨rfl, rfl, rfl, rfl, rfl⟩
  obtain ⟨b, hb⟩ : ∃ b, b = if decide ((s.lane home).front = some id) = true then a.compose home else a := ⟨_, rfl⟩
  have bp : b.pool = a.pool ∧ b.lanes = a.lanes ∧ b.visitCounter = a.visitCounter ∧ b.lastServed = a.lastServed ∧
      b.slot = a.slot ∧ b.params = a.params ∧ b.uplink = a.uplink := by
    subst hb; split <;> simp
  have bl : ∀ l, b.lane l = a.lane l := fun l => by simp [State.lane, bp.2.1]
  have bctx : ∀ j, b.ctx j = a.ctx j := fun j => by simp [State.ctx, bp.1]
  obtain ⟨c, hc⟩ : ∃ c, c = b.retime home := ⟨_, rfl⟩
  have cp : c.lanes = a.lanes ∧ c.visitCounter = a.visitCounter ∧ c.lastServed = a.lastServed ∧
      c.slot = a.slot ∧ c.params = a.params ∧ c.uplink = a.uplink := by
    subst hc; simp [bp]
  have cl : ∀ l, c.lane l = a.lane l := fun l => by simp [State.lane, cp.1]
  have cc : ∀ j, c.ctx j = if j = id then {} else staying s id j := by
    intro j
    subst hc
    rw [retime_ctx, bl, bctx, ac, ah]
    have hr : b.reads home .position = s.reads home .position := by simp only [State.reads, bl, ah]
    have hp : b.params = s.params := by rw [bp.2.2.2.2.2.1, av.2.2.2.1]
    rw [hr, hp]
    by_cases h : j = id
    · subst h; simp
    · simp only [h, if_false, staying, left, ← hh, if_true, retimed]
      split
      · simp only [Bool.and_eq_true, decide_eq_true_eq, Bool.not_eq_true']
      · rfl
  have hd : ((c.lane home).mode = .closing ∧ (c.lane home).ctxs = []) ↔ drains s id = true := by
    rw [cl, ah]; simp only [drains, ← hh, Bool.and_eq_true, beq_iff_eq, List.isEmpty_iff]
  obtain ⟨d, hd'⟩ : ∃ d, d = if (c.lane home).mode = .closing ∧ (c.lane home).ctxs = [] then
    c.changeMode home .closed .contextsDrained none else c := ⟨_, rfl⟩
  refine ⟨d, ?_, ?_, ?_, ?_, ?_, ?_⟩
  · unfold State.freeCtx
    dsimp only
    rw [← hh, ← ha, ← hb, ← hc, ← hd']
  · subst hd'; have := cc id; split <;> simpa using this
  · intro j h; subst hd'; have := cc j; split <;> simpa [h] using this
  · intro l
    subst hd'
    unfold left
    rw [← hh]
    by_cases g : drains s id = true
    · rw [if_pos (hd.2 g)]
      have hm := (hd.2 g).1
      unfold State.changeMode
      dsimp only
      rw [hm]
      simp only [State.compose_frame]
      have e : ∀ (u : State) r, (u.offerB r).lane l = u.lane l := by intro u r; unfold State.offerB; split <;> rfl
      rw [e]
      by_cases hl : l = home
      · subst hl; simp [cl, ah, g]
      · simp [hl, cl, ag l hl]
    · rw [if_neg (fun h => g (hd.1 h)), cl]
      by_cases hl : l = home
      · subst hl; simp [ah, g]
      · simp [hl, ag l hl]
  · subst hd'
    unfold drained
    rw [← hh]
    by_cases g : drains s id = true
    · rw [if_pos (hd.2 g), if_pos g]
      have hm := (hd.2 g).1
      unfold State.changeMode
      dsimp only
      rw [hm]
      simp only [State.compose_frame]
      rw [offerB_eq]
      simp [cp, av]
    · rw [if_neg (fun h => g (hd.1 h)), if_neg g]; simp [cp, av]
  · subst hd'; split <;> simp [cp, av]

theorem freeCtx_all (s : State) (id : CtxId) :
    Granted s (s.freeCtx id) id ∧ (s.freeCtx id).uplink = drained s id s.uplink := by
  obtain ⟨d, hf, d0, dj, dl, du, dv⟩ := freeCtx_before s id
  let eligible (l : LaneId) : Prop :=
    (left s id l).mode = .open ∧ 0 < (left s id l).pendingArrivals ∧ (left s id l).ctxs.length < 2
  have elig : ∀ l, d.grantable l = true ↔ eligible l := by
    intro l
    simp only [State.grantable, Bool.and_eq_true, beq_iff_eq, decide_eq_true_eq, dl, eligible, Config.laneContexts, and_assoc]
  have dn : d.now = s.now := by unfold State.now; rw [dv.2.2.1]
  have li : ∀ l, (left s id l).inputs = (s.lane l).inputs := by
    intro l; unfold left; dsimp only; split <;> rfl
  have dr : ∀ l, d.reads l .position = s.reads l .position := fun l => by simp only [State.reads, dl, li]
  have lid : id ∉ (left s id (s.ctx id).lane).ctxs := by unfold left; simp
  rw [hf]
  by_cases hn : ∀ l, ¬ eligible l
  · have : d.grant id = d := by
      unfold State.grant
      rw [List.find?_eq_none.2]
      intro x _ hx
      exact hn x ((elig x).1 hx)
    rw [this]
    exact ⟨⟨fun _ => ⟨d0, dv.2.1, dv.1, dl, dj⟩, fun n he _ => absurd he (hn _)⟩, du⟩
  have found : ∀ n : Fin 16, eligible (s.lastServed + 1 + n) → (∀ m, m < n → ¬ eligible (s.lastServed + 1 + m)) →
      d.searchOrder.find? d.grantable = some (s.lastServed + 1 + n) := by
    intro n he hm
    unfold State.searchOrder
    rw [List.find?_map, dv.2.1]
    have : (List.finRange 16).find? (d.grantable ∘ fun k => s.lastServed + 1 + k) = some n := by
      rw [List.find?_eq_some_iff_append]
      refine ⟨by simpa using (elig _).2 he, (List.finRange 16).take n, (List.finRange 16).drop (n + 1), ?_, ?_⟩
      · have := List.take_append_drop n.val (List.finRange 16)
        rw [List.drop_eq_getElem_cons (by simp)] at this
        simpa using this.symm
      · intro m hmem
        have : m < n := by
          rw [List.mem_take_iff_getElem] at hmem
          obtain ⟨i, hi, rfl⟩ := hmem
          simp at hi ⊢
          exact Fin.lt_def.2 hi
        have h := hm m this
        simp only [Function.comp, Bool.not_eq_eq_eq_not, Bool.not_true]
        exact Bool.eq_false_iff.2 fun g => h ((elig _).1 g)
    rw [this]; rfl
  have served : ∀ l, d.searchOrder.find? d.grantable = some l →
      let x := left s id l
      let direct : Prop := (∀ j ∈ x.ctxs, j ≠ id → (s.ctx j).state.atPosition = false) ∧ s.reads l .position = true
      let t := d.grant id
      t.lastServed = l ∧ t.visitCounter = s.visitCounter + 1 ∧ (∀ g, g ≠ l → t.lane g = left s id g) ∧
      (∀ j, j ≠ id → t.ctx j = if j ∈ x.ctxs then { s.ctx j with approachTimer := none } else staying s id j) ∧
      (direct →
        t.lane l = { x with ctxs := x.ctxs ++ [id], pendingArrivals := x.pendingArrivals - 1, front := some id } ∧
        t.ctx id =
          { state := .identifying, visit := s.visitCounter, lane := l, arrival := s.now, position := some s.now
            identTimer := some s.params.identWindow }) ∧
      (¬ direct →
        t.lane l = { x with ctxs := x.ctxs ++ [id], pendingArrivals := x.pendingArrivals - 1 } ∧
        t.ctx id =
          { state := .arriving, visit := s.visitCounter, lane := l, arrival := s.now
            approachTimer :=
              if x.ctxs = [] ∧ s.reads l .position = false then some s.params.approachLimit else none }) ∧
      t.uplink = d.uplink := by
    intro l hg x direct t
    obtain ⟨e, he'⟩ : ∃ e, e = ({ d with lastServed := l }.updLane l fun x => { x with pendingArrivals := x.pendingArrivals - 1 } : State) :=
      ⟨_, rfl⟩
    have hgr : t = e.admitArrival id l (!e.positionHeld l && e.reads l .position) := by
      show d.grant id = _
      unfold State.grant
      rw [hg]
      dsimp only
      rw [← he']
    have ex : ∀ j, e.ctx j = d.ctx j := by intro j; subst he'; rfl
    have ell : e.lane l = { x with pendingArrivals := x.pendingArrivals - 1 } := by
      subst he'; rw [State.lane_updLane, if_pos rfl, show State.lane { d with lastServed := l } l = left s id l from dl l]
    have elg : ∀ g, g ≠ l → e.lane g = left s id g := by
      intro g h; subst he'; rw [State.lane_updLane, if_neg h]; exact dl g
    have er : e.reads l .position = s.reads l .position := by simp only [State.reads, ell, x, li]
    have ev : e.visitCounter = s.visitCounter ∧ e.now = s.now ∧ e.params = s.params ∧ e.lastServed = l ∧ e.uplink = d.uplink := by
      refine ⟨?_, ?_, ?_, ?_, ?_⟩
      · subst he'; exact dv.1
      · rw [← dn]; subst he'; rfl
      · subst he'; exact dv.2.2.2
      · subst he'; rfl
      · subst he'; rfl
    have ed : (!e.positionHeld l && s.reads l .position) = true ↔ direct := by
      simp only [Bool.and_eq_true, Bool.not_eq_true', State.positionHeld, List.any_eq_false, er, direct, ell, ex]
      refine and_congr_left fun _ => forall₂_congr fun j hj => ?_
      by_cases h : j = id
      · subst h; simp [d0, CtxState.atPosition]
      · have : (d.ctx j).state = (s.ctx j).state := by rw [dj j h]; unfold staying; dsimp only; split <;> rfl
        simp [h, this]
    have sp := admitArrival_spec e id l (!e.positionHeld l && e.reads l .position)
    rw [← hgr, er] at sp
    obtain ⟨s1, s2, s3, s4, s5, s6, s7⟩ := sp
    rw [ev.1, ev.2.1, ev.2.2.1, ell] at s6 s7
    refine ⟨s1.trans ev.2.2.2.1, by rw [s2, ev.1], fun g h => by rw [s4 g h, elg g h], fun j h => ?_,
      fun h => s6 (ed.2 h), fun h => s7 (Bool.eq_false_iff.2 fun g => h (ed.1 g)), by rw [s3, ev.2.2.2.2]⟩
    rw [s5 j h, ell, ex, dj j h]
    dsimp only
    split
    · unfold staying; dsimp only; split <;> rfl
    · rfl
  refine ⟨⟨fun h => absurd h hn, fun n he hm => ?_⟩, ?_⟩
  · have := served _ (found n he hm)
    exact ⟨this.1, this.2.1, this.2.2.1, this.2.2.2.1, this.2.2.2.2.1, this.2.2.2.2.2.1⟩
  · rw [← du]
    cases hg : d.searchOrder.find? d.grantable with
    | none => unfold State.grant; rw [hg]
    | some l => exact (served l hg).2.2.2.2.2.2

/-- R33, R44, R45, R61: the freeing of a context is the grant of `Granted`. -/
theorem freeCtx_granted (s : State) (id : CtxId) : Granted s (s.freeCtx id) id := (freeCtx_all s id).1

/-- R33: the freeing of a context offers the LANE_EVENT of a lane that becomes CLOSED, and no other report. -/
theorem freeCtx_uplink (s : State) (id : CtxId) : (s.freeCtx id).uplink = drained s id s.uplink := (freeCtx_all s id).2

end Sys2Proof.Laws
end

