-- ==== Sys2Proof/Laws/Advance.lean ====
section
/-! SUPPORT. What becomes of a lane whose front enters CLOSING: the context that advances (R43, R46), said once by `Advanced`, and
the context that offers its visit report (R61), said once by `Reported` of Safety.lean. -/

open Sys2Proof Sys2Proof.Machine Sys2Proof.Safety
namespace Sys2Proof.Laws

/-! ### What the freeing and the grant of a context change (R33, R44, R61) -/

/-- What the sequencer changes as a context leaves a lane or comes to one: the lanes, the pool, the uplink, and the pages sent. -/
structure LaneWork (s t : State) : Prop where
  rest : t = { s with
    ports := t.ports, stations := t.stations, lanes := t.lanes, pool := t.pool, visitCounter := t.visitCounter
    lastServed := t.lastServed, uplink := t.uplink }
  pages : PagesOnly s.port s.station (fun j => ∃ l, SignOf s l j) t

theorem LaneWork.refl (s : State) : LaneWork s s := ⟨rfl, PagesOnly.refl s _⟩

/-- A change of the lanes, the pool and the counters of the pool alone. -/
theorem LaneWork.pool {s t : State} (h : t = { s with
    lanes := t.lanes, pool := t.pool, visitCounter := t.visitCounter, lastServed := t.lastServed }) : LaneWork s t := by
  generalize t.lanes = a at h
  generalize t.pool = b at h
  generalize t.visitCounter = c at h
  generalize t.lastServed = d at h
  subst h
  exact ⟨rfl, PagesOnly.refl s _⟩

theorem LaneWork.trans {s t u : State} (h1 : LaneWork s t) (h2 : LaneWork t u) : LaneWork s u := by
  refine ⟨?_, PagesOnly.trans h1.pages h2.pages ?_⟩
  · have e1 := h1.rest
    have e2 := h2.rest
    generalize u.ports = a at e2 ⊢
    generalize u.stations = b at e2 ⊢
    generalize u.lanes = c at e2 ⊢
    generalize u.pool = d at e2 ⊢
    generalize u.visitCounter = f at e2 ⊢
    generalize u.lastServed = g at e2 ⊢
    generalize u.uplink = k at e2 ⊢
    rw [e2, e1]
  · rintro j ⟨l, hl⟩
    exact ⟨l, (SignOf_kept h1.pages l j).1 hl⟩

theorem laneWork_compose (s : State) (l : LaneId) : LaneWork s (s.compose l) :=
  ⟨by rw [compose_pages], PagesOnly.mono (compose_pagesOnly s l) fun j h => ⟨l, h⟩⟩

theorem laneWork_moveTo (s : State) (id : CtxId) (st : CtxState) : LaneWork s (s.moveTo id st) :=
  ⟨by rw [moveTo_pages]; rfl, moveTo_pagesOnly s id st⟩

theorem laneWork_retime (s : State) (l : LaneId) : LaneWork s (s.retime l) := by
  obtain ⟨h1, h2, h3, h4, h5, h6, h7, h8, h9, h10, h11, h12, h13, h14, -⟩ := State.retime_frame s l
  generalize s.retime l = t at *
  have e : t = { s with pool := t.pool } := by cases t; cases s; simp_all
  refine ⟨by rw [e], ?_⟩
  rw [e]
  exact PagesOnly.refl s _

theorem laneWork_changeMode (s : State) (l : LaneId) (m : LaneMode) (c : ModeCause) (k : Option StationIx) :
    LaneWork s (s.changeMode l m c k) := by
  unfold State.changeMode
  dsimp only
  rw [offerB_eq]
  generalize ha : ({ s.updLane l fun x => { x with
    mode := m, holder := k, pendingArrivals := if (s.lane l).mode = .open then 0 else x.pendingArrivals } with
    uplink := classB (s.updLane l fun x => { x with
      mode := m, holder := k, pendingArrivals := if (s.lane l).mode = .open then 0 else x.pendingArrivals }).uplink
        (.modeChange l (s.lane l).mode m c k) } : State) = a
  have h : LaneWork s a := by rw [← ha]; exact ⟨rfl, PagesOnly.refl s _⟩
  exact LaneWork.trans h (laneWork_compose a l)

/-- R46: a context enters IDENTIFYING. -/
theorem laneWork_front (s : State) (id : CtxId) (h : (s.ctx id).identified = false) : LaneWork s (s.enterIdentifying id) := by
  unfold State.enterIdentifying
  dsimp only
  obtain ⟨m, hm⟩ : ∃ m : State, m = ((s.updCtx id fun c => { c with
      position := some s.now, approachTimer := none, identTimer := some s.params.identWindow }).updLane
      ((s.updCtx id fun c => { c with
        position := some s.now, approachTimer := none, identTimer := some s.params.identWindow }).ctx id).lane
        fun x => { x with front := some id }).moveTo id .identifying := ⟨_, rfl⟩
  rw [← hm]
  have mi : (m.ctx id).identified = false := by
    have c : m.ctx id = { s.ctx id with
        state := .identifying, position := some s.now, approachTimer := none
        identTimer := some s.params.identWindow } := by
      rw [hm, moveTo_pages]
      simp [State.updCtx, State.updLane, upd, State.ctx]
    rw [c]
    exact h
  have : m.identifyTest id = m := by
    unfold State.identifyTest
    rw [if_neg]
    rintro ⟨-, g⟩
    rw [mi] at g
    cases g
  rw [this, hm]
  refine LaneWork.trans ?_ (laneWork_moveTo _ _ _)
  exact LaneWork.pool rfl

theorem laneWork_admit (s : State) (id : CtxId) (l : LaneId) (direct : Bool) : LaneWork s (s.admitArrival id l direct) := by
  unfold State.admitArrival
  dsimp only
  have h1 : LaneWork s (s.allocate id l) := LaneWork.pool rfl
  have h2 : ((s.allocate id l).ctx id).identified = false := by
    simp [State.allocate, State.ctx, State.updLane, State.updCtx, Ctx.identified]
  generalize s.allocate id l = a at h1 h2
  refine LaneWork.trans ?_ (laneWork_retime _ _)
  cases direct with
  | false => exact h1
  | true => exact LaneWork.trans h1 (laneWork_front a id h2)

theorem laneWork_grant (s : State) (id : CtxId) : LaneWork s (s.grant id) := by
  unfold State.grant
  cases s.searchOrder.find? s.grantable with
  | none => exact LaneWork.refl _
  | some l =>
    dsimp only
    have h1 : LaneWork s (State.updLane { s with lastServed := l } l fun x => { x with
      pendingArrivals := x.pendingArrivals - 1 }) := LaneWork.pool rfl
    generalize (State.updLane { s with lastServed := l } l fun x => { x with
      pendingArrivals := x.pendingArrivals - 1 }) = a at h1
    exact LaneWork.trans h1 (laneWork_admit _ _ _ _)

/-- R33, R44, R61: the freeing of a context. -/
theorem laneWork_free (s : State) (id : CtxId) : LaneWork s (s.freeCtx id) := by
  unfold State.freeCtx
  dsimp only
  generalize hl : (s.ctx id).lane = l
  generalize ha : ((s.updCtx id fun _ => {}).updLane l fun x => { x with
    ctxs := x.ctxs.filter (· != id), front := if x.front = some id then none else x.front }) = a
  have h1 : LaneWork s a := by rw [← ha]; exact LaneWork.pool rfl
  generalize hb : (if decide ((s.lane l).front = some id) = true then a.compose l else a) = b
  have h2 : LaneWork s b := by
    rw [← hb]
    split
    · exact LaneWork.trans h1 (laneWork_compose a l)
    · exact h1
  generalize hc : b.retime l = c
  have h3 : LaneWork s c := by rw [← hc]; exact LaneWork.trans h2 (laneWork_retime b l)
  refine LaneWork.trans ?_ (laneWork_grant _ _)
  split
  · exact LaneWork.trans h3 (laneWork_changeMode _ _ _ _ _)
  · exact h3

/-- R61: a context in CLOSING offers its visit report. -/
theorem offerReport_reported (s : State) (id : CtxId) : Reported s (s.offerReport id) id := by
  unfold State.offerReport
  refine ⟨fun h => ?_, fun h1 h2 => ?_⟩
  · rw [if_neg]
    · exact wait_eq _ _
    · intro g
      rw [State.roomA, Bool.and_eq_true, decide_eq_true_iff, List.isEmpty_iff] at g
      rcases h with h | h
      · exact absurd g.1 (Nat.not_lt.2 h)
      · exact h g.2
  · rw [if_pos (by simp [State.roomA, Config.reportQueueSize, h1, h2])]
    unfold State.reportAccepted
    obtain ⟨a, ha⟩ : ∃ a, a = s.accept (.visitReport (s.ctx id).report) := ⟨_, rfl⟩
    rw [← ha]
    have g := freeCtx_granted a id
    have u := freeCtx_uplink a id
    have w := laneWork_free a id
    generalize a.freeCtx id = t at g u w
    have du : drained a id a.uplink = drained s id { s.uplink with
        queue := s.uplink.queue ++ [⟨.visitReport (s.ctx id).report, none⟩] } := by rw [ha]; rfl
    refine ⟨?_, ?_, ?_⟩
    · have e := w.rest
      rw [u, du] at e
      generalize t.ports = x1 at e ⊢
      generalize t.stations = x2 at e ⊢
      generalize t.lanes = x3 at e ⊢
      generalize t.pool = x4 at e ⊢
      generalize t.visitCounter = x5 at e ⊢
      generalize t.lastServed = x6 at e ⊢
      rw [e, ha]
      rfl
    · have e := w.pages
      rw [ha] at e
      exact e
    · rw [ha] at g
      exact g

/-! ### The context that advances (R43, R46, R51) -/

theorem lookedUpInTurn_links {rs : List LinkRef} {s t : State} (h : LookedUpInTurn rs s t) :
    t.ports = s.ports ∧ t.stations = s.stations := by
  induction rs generalizing s with
  | nil => rw [show t = s from h]; exact ⟨rfl, rfl⟩
  | cons r rs ih =>
    obtain ⟨v, l, -, h2, h3⟩ := h
    obtain ⟨-, -, -, e1, e2, -⟩ := lookedUp_keeps h2
    obtain ⟨i1, i2⟩ := ih h3
    exact ⟨i1.trans e1, i2.trans e2⟩

/-- Where a page has been composed a context concludes as it does without it. -/
theorem concludes_of_pages (v w t : State) (id : CtxId) (e : w = { v with ports := w.ports, stations := w.stations })
    (hp : PagesOnly v.port v.station (fun j => ∃ l, SignOf v l j) w) (h : Concludes w t id) : Concludes v t id := by
  have hs : SameStations v w := fun ix => by rw [hp.1 ix]; exact ⟨rfl, rfl, rfl, rfl⟩
  have hc : w.ctx id = v.ctx id := by rw [e]; rfl
  refine ⟨fun hl => decides_of_pages v w t id e hs (h.1 (by rw [hc]; exact hl)), fun hl => ?_⟩
  obtain ⟨h1, h2⟩ := h.2 (by rw [hc]; exact hl)
  refine ⟨?_, PagesOnly.trans hp h2 ?_⟩
  · generalize t.ports = a at h1 ⊢
    generalize t.stations = b at h1 ⊢
    rw [h1, e]
  · rintro j ⟨l, hj⟩
    exact ⟨l, (SignOf_kept hp l j).1 hj⟩

/-- R43, R46, R51: the next truck of a lane advances. -/
theorem advance_spec (s : State) (l : LaneId) (next : Option CtxId) (h : Advances s l next) : Advanced s (s.advance l) l next := by
  unfold State.advance
  cases next with
  | none =>
    show _ = s
    rcases h with h | h
    · rw [if_neg (by rw [h]; simp)]
    · have : s.oldestArriving l = none := by
        unfold State.oldestArriving
        rw [List.find?_eq_none]
        intro j hj
        simpa using h j hj
      rw [this]; simp
  | some j =>
    obtain ⟨h1, h2, h3, before, after, h4, h5⟩ := h
    have ho : s.oldestArriving l = some j := by
      unfold State.oldestArriving
      rw [List.find?_eq_some_iff_append]
      exact ⟨by simpa using h2, before, after, h4, fun k hk => by simpa using h5 k hk⟩
    rw [if_pos h1, ho]
    dsimp only
    unfold State.enterIdentifying
    dsimp only
    generalize hd : ({ s.ctx j with
      state := .identifying, position := some s.now, approachTimer := none
      identTimer := some s.params.identWindow } : Ctx) = d
    obtain ⟨b, hb⟩ : ∃ b : State, b = { s with
      lanes := upd s.lanes l fun x => { x with front := some j }, pool := s.pool.set j d } := ⟨_, rfl⟩
    obtain ⟨k, hk⟩ : ∃ k : State, k = (s.updCtx j fun c => { c with
      position := some s.now, approachTimer := none, identTimer := some s.params.identWindow }) := ⟨_, rfl⟩
    have kl : (k.ctx j).lane = l := by rw [hk]; simp only [State.ctx_updCtx, if_true]; exact h3
    rw [← hk, kl]
    obtain ⟨m, hm⟩ : ∃ m : State, m = (k.updLane l fun x => { x with front := some j }).moveTo j .identifying := ⟨_, rfl⟩
    rw [← hm]
    have mp : m = { b with ports := m.ports, stations := m.stations } := by
      rw [hm, moveTo_pages, hb, hk, ← hd]
      simp [State.updCtx, State.updLane, upd, State.ctx]
    have mpages : PagesOnly s.port s.station (SignOf s l) m := by
      rw [hm]
      unfold State.moveTo
      dsimp only
      split
      · have := compose_pagesOnly ((k.updLane l fun x => { x with front := some j }).updCtx j fun c => { c with state := .identifying })
          (((k.updLane l fun x => { x with front := some j }).updCtx j fun c => { c with state := .identifying }).ctx j).lane
        have e : (((k.updLane l fun x => { x with front := some j }).updCtx j fun c => { c with state := .identifying }).ctx j).lane = l := by
          simp only [State.ctx_updCtx, if_true]
          exact kl
        rw [e] at this ⊢
        rw [hk] at this ⊢
        exact this
      · rw [hk]; exact PagesOnly.refl s _
    have mc : m.ctx j = d := by rw [mp, hb]; simp [State.ctx]
    have idd : d.identified = (s.ctx j).identified := by rw [← hd]; rfl
    refine ⟨fun hi => ?_, fun hi hr hkeys => ?_⟩
    · have : m.identifyTest j = m := by
        unfold State.identifyTest
        rw [if_neg]
        rintro ⟨-, g⟩
        rw [mc, idd, hi] at g
        cases g
      rw [this]
      refine ⟨?_, mpages⟩
      rw [hd]
      conv_lhs => rw [mp, hb]
    · have ht : m.identifyTest j = m.enterLookup j := by
        unfold State.identifyTest
        rw [if_pos]
        rw [mc, idd]
        exact ⟨by rw [← hd], hi⟩
      rw [ht]
      have key := enterLookup_concludes m j (by rw [mp, hb]; exact hr) (by rw [mc]; simpa only [hd] using hkeys)
      dsimp only at key
      rw [mc] at key
      obtain ⟨v, h6, h7⟩ := key
      generalize he : ({ d with identTimer := none, links := d.formLinks, state := .lookup } : Ctx) = d' at h6
      obtain ⟨b', hb'⟩ : ∃ b' : State, b' = { s with
        lanes := upd s.lanes l fun x => { x with front := some j }, pool := s.pool.set j d' } := ⟨_, rfl⟩
      have e1 : ({ m with pool := m.pool.set j d' } : State) = { b' with ports := m.ports, stations := m.stations } := by
        rw [mp, hb, hb']; simp
      rw [e1] at h6
      obtain ⟨p1, p2⟩ := lookedUpInTurn_links h6
      refine ⟨{ v with ports := b'.ports, stations := b'.stations }, ?_, ?_⟩
      · have k1 := lookedUpInTurn_of_pages _ b' v m.ports m.stations h6
        subst he hd hb'
        exact k1
      · refine concludes_of_pages _ v _ j rfl ?_ h7
        have q1 : ∀ g, v.port g = m.port g := fun g => by unfold State.port; rw [p1]
        have q2 : ∀ x, v.station x = m.station x := fun x => by unfold State.station; rw [p2]
        have := PagesOnly.mono mpages (Q := fun x => ∃ l, SignOf s l x) fun x hx => ⟨l, hx⟩
        unfold PagesOnly at this ⊢
        simp only [q1, q2]
        rw [hb']
        exact this

end Sys2Proof.Laws
end

