-- ==== Sys2Proof/Laws/Events.lean ====
section
/-! SUPPORT. What the end of a console's hold (R35), a minute announced (R159), and a frame that completes an identification
(R51 to R53) do, as the vocabulary of Safety.lean says it. -/

open Sys2Proof.Machine Sys2Proof.Safety
namespace Sys2Proof.Laws

/-! ### The end of a hold (R35) -/

/-- R35, R37: a lane's hold ended: the lane is in SUSPENDED, one LANE_EVENT is offered and the lane's page is composed. -/
theorem endHoldOn_held (s : State) (ix : StationIx) (c : ModeCause) (l : LaneId)
    (h : (s.lane l).mode = .manual ∧ (s.lane l).holder = some ix) :
    let t := State.endHoldOn c ix s l
    t.lanes = (upd s.lanes l fun x => { x with mode := .suspended, holder := none }) ∧
    t.uplink = classB s.uplink (.modeChange l .manual .suspended c none) ∧
    PagesOnly s.port s.station (SignOf s l) t := by
  intro t
  have ht : t = (({ s with
      lanes := upd s.lanes l fun x => { x with mode := .suspended, holder := none }
      uplink := classB s.uplink (.modeChange l .manual .suspended c none) } : State).compose l) := by
    show State.endHoldOn c ix s l = _
    unfold State.endHoldOn State.changeMode
    rw [if_pos h]
    dsimp only
    rw [h.1, offerB_eq]
    simp [State.updLane]
  have cp := compose_pagesOnly ({ s with
      lanes := upd s.lanes l fun x => { x with mode := .suspended, holder := none }
      uplink := classB s.uplink (.modeChange l .manual .suspended c none) } : State) l
  rw [← ht] at cp
  refine ⟨by rw [ht]; simp, by rw [ht]; simp, cp⟩

/-- R35: the holds of a console ended on the lanes of a list: those it holds are in SUSPENDED, each with its LANE_EVENT, in the
order of the list, and only their signs come to show another page. -/
theorem endHolds_spec (ix : StationIx) (c : ModeCause) (L : List LaneId) (hn : L.Nodup) (s : State) :
    let held (l : LaneId) : Prop := (s.lane l).mode = .manual ∧ (s.lane l).holder = some ix
    let t := L.foldl (State.endHoldOn c ix) s
    (∀ l, t.lane l = if l ∈ L ∧ held l then { s.lane l with mode := .suspended, holder := none } else s.lane l) ∧
    t.uplink = L.foldl (fun u l => if held l then classB u (.modeChange l .manual .suspended c none) else u) s.uplink ∧
    PagesOnly s.port s.station (fun j => ∃ l, held l ∧ SignOf s l j) t := by
  induction L generalizing s with
  | nil =>
    intro held t
    exact ⟨fun l => by simp [t], rfl, PagesOnly.refl s _⟩
  | cons a L ih =>
    intro held t
    obtain ⟨ha, hn'⟩ := List.nodup_cons.1 hn
    obtain ⟨i1, i2, i3⟩ := ih hn' (State.endHoldOn c ix s a)
    by_cases h : held a
    · obtain ⟨e1, e2, e3⟩ := endHoldOn_held s ix c a h
      generalize hu : State.endHoldOn c ix s a = u at i1 i2 i3 e1 e2 e3
      have ht : t = L.foldl (State.endHoldOn c ix) u := by rw [← hu]; rfl
      have hl : ∀ l, u.lane l = if l = a then { s.lane l with mode := .suspended, holder := none } else s.lane l := by
        intro l
        unfold State.lane
        rw [e1]
        by_cases e : l = a
        · subst e; simp
        · have : a.val ≠ l.val := fun q => e (Fin.ext q.symm)
          simp [upd, e, this]
      have heq : ∀ l ∈ L, (((u.lane l).mode = .manual ∧ (u.lane l).holder = some ix) ↔ held l) := by
        intro l hm
        rw [hl, if_neg (by rintro rfl; exact ha hm)]
      rw [ht]
      refine ⟨fun l => ?_, ?_, ?_⟩
      · rw [i1]
        by_cases e : l = a
        · subst e
          rw [if_neg (fun q => ha q.1), hl, if_pos rfl, if_pos ⟨by simp, h⟩]
        · by_cases hm : l ∈ L
          · by_cases g : held l
            · rw [if_pos ⟨hm, (heq l hm).2 g⟩, if_pos ⟨List.mem_cons_of_mem _ hm, g⟩, hl, if_neg e]
            · rw [if_neg (fun q => g ((heq l hm).1 q.2)), if_neg (fun q => g q.2), hl, if_neg e]
          · rw [if_neg (fun q => hm q.1), hl, if_neg e, if_neg]
            rintro ⟨q, -⟩
            rcases List.mem_cons.1 q with q | q
            · exact e q
            · exact hm q
      · rw [i2, List.foldl_cons, if_pos h, e2]
        generalize classB s.uplink _ = k
        clear i1 i2 i3 ht e1 e2 e3 hu
        clear ih hn hn' ha
        induction L generalizing k with
        | nil => rfl
        | cons b L ihL =>
          rw [List.foldl_cons, List.foldl_cons, ihL (fun l hm => heq l (List.mem_cons_of_mem _ hm))]
          congr 1
          have := heq b (by simp)
          by_cases q : held b
          · rw [if_pos q, if_pos (this.2 q)]
          · rw [if_neg q, if_neg (fun z => q (this.1 z))]
      · refine PagesOnly.trans (P := fun j => ∃ l, held l ∧ SignOf s l j) (PagesOnly.mono e3 (fun j hj => ⟨a, h, hj⟩)) i3 ?_
        rintro j ⟨l, ⟨h1, h2⟩, hj⟩
        have hla : l ≠ a := by
          rintro rfl
          rw [hl, if_pos rfl] at h1
          cases h1
        rw [hl, if_neg hla] at h1 h2
        exact ⟨l, ⟨h1, h2⟩, (SignOf_kept e3 l j).1 hj⟩
    · have hu : State.endHoldOn c ix s a = s := if_neg h
      rw [hu] at i1 i2 i3
      have ht : t = L.foldl (State.endHoldOn c ix) s := by show L.foldl _ (State.endHoldOn c ix s a) = _; rw [hu]
      rw [ht]
      refine ⟨fun l => ?_, ?_, i3⟩
      · rw [i1]
        by_cases e : l = a
        · subst e; rw [if_neg (fun q => h q.2), if_neg (fun q => h q.2)]
        · simp [e, held]
      · rw [i2, List.foldl_cons, if_neg h]

/-- R35: the hold of a console ended by a cause. -/
theorem endHold_ended (s : State) (ix : StationIx) (c : ModeCause) :
    let held (l : LaneId) : Prop := (s.lane l).mode = .manual ∧ (s.lane l).holder = some ix
    let t := s.endHold ix c
    (∀ l, t.lane l = if held l then { s.lane l with mode := .suspended, holder := none } else s.lane l) ∧
    t.uplink = holdsEnded s ix c s.uplink ∧ PagesOnly s.port s.station (fun j => ∃ l, held l ∧ SignOf s l j) t := by
  have fin : ∀ l : LaneId, l ∈ List.finRange 16 := List.mem_finRange
  have nd := List.nodup_finRange 16
  unfold State.endHold holdsEnded
  generalize List.finRange 16 = L at fin nd
  obtain ⟨h1, h2, h3⟩ := endHolds_spec ix c L nd s
  refine ⟨fun l => ?_, h2, h3⟩
  rw [h1 l]
  by_cases h : (s.lane l).mode = .manual ∧ (s.lane l).holder = some ix
  · rw [if_pos ⟨fin l, h⟩, if_pos h]
  · rw [if_neg (fun q => h q.2), if_neg h]

/-! ### A minute announced (R159) -/

/-- R159: one entry at an announced minute, whole. -/
theorem expireEntry_eq (minute : Nat) (s : State) (e : TransitEntry) :
    s.expireEntry minute e = if due minute e then
      { s with
        pool := mapAll s.pool fun c => if c.state ≠ .free ∧ c.visit = e.visit then { c with inTransit := false } else c
        uplink := classB s.uplink (.transitExpired e)
        dest := { s.dest with
          transit := s.dest.transit.filter (·.visit != e.visit)
          dests := upd s.dest.dests e.dest fun d => { d with inTransit := d.inTransit - 1 }
          counters := { s.dest.counters with transitExpired := bump s.dest.counters.transitExpired } } }
    else s := by
  unfold State.expireEntry due
  cases e.expiry with
  | none => rfl
  | some x =>
    dsimp only
    by_cases h : minuteDiff x minute ≤ 0
    · rw [if_pos h, if_pos (by simpa using h), offerB_eq]
      simp [State.removeTransit, State.updDest, State.updDestAt, State.forgetTransit, State.countDest]
    · rw [if_neg h, if_neg (by simpa using h)]

/-- A table with every record replaced, read. -/
theorem mapAll_get {α β : Type} {n : Nat} (v : Vector α n) (f : α → β) (i : Fin n) : (mapAll v f)[i] = f v[i] := by
  simp [mapAll]

/-- R159: the entries of a list examined at an announced minute. -/
theorem expireAll_spec (minute : Nat) (L : List TransitEntry) (s : State) :
    let gone := L.filter (due minute)
    let t := L.foldl (State.expireEntry minute) s
    t = { s with pool := t.pool, dest := t.dest, uplink := t.uplink } ∧
    t.uplink = gone.foldl (fun u e => classB u (.transitExpired e)) s.uplink ∧
    t.dest = { s.dest with
      transit := s.dest.transit.filter fun x => !gone.any (·.visit == x.visit)
      dests := t.dest.dests
      counters := { s.dest.counters with transitExpired := bumpBy s.dest.counters.transitExpired gone.length } } ∧
    (∀ y, t.destAt y =
      { s.destAt y with inTransit := (s.destAt y).inTransit - (gone.filter (·.dest == y)).length }) ∧
    ∀ id, t.ctx id = { s.ctx id with
      inTransit := (s.ctx id).inTransit && !((s.ctx id).state != .free && gone.any (·.visit == (s.ctx id).visit)) } := by
  induction L generalizing s with
  | nil =>
    refine ⟨rfl, rfl, ?_, fun y => ?_, fun id => ?_⟩
    · simp [bumpBy]
    · simp
    · simp
  | cons e L ih =>
    intro gone t
    obtain ⟨i1, i2, i3, i4, i5⟩ := ih (s.expireEntry minute e)
    have ht : t = L.foldl (State.expireEntry minute) (s.expireEntry minute e) := rfl
    rw [← ht] at i1 i2 i3 i4 i5
    have he := expireEntry_eq minute s e
    by_cases h : due minute e = true
    · rw [if_pos h] at he
      have hg : gone = e :: L.filter (due minute) := List.filter_cons_of_pos h
      rw [hg]
      generalize L.filter (due minute) = rest at i1 i2 i3 i4 i5 ⊢
      generalize s.expireEntry minute e = u at he i1 i2 i3 i4 i5
      subst he
      refine ⟨i1, by rw [i2]; rfl, ?_, fun y => ?_, fun id => ?_⟩
      · rw [i3]
        dsimp only
        congr 1
        · rw [List.filter_filter]
          congr 1
          funext x
          rw [List.any_cons, Bool.not_or, Bool.and_comm]
          congr 1
          rw [bne, Bool.beq_comm]
      · rw [i4]
        by_cases q : e.dest = y
        · subst q
          rw [List.filter_cons_of_pos (by simp)]
          simp [State.destAt, Nat.sub_sub, Nat.add_comm]
        · rw [List.filter_cons_of_neg (by simpa using q)]
          have : e.dest.val ≠ y.val := fun z => q (Fin.ext z)
          simp [State.destAt, upd, this]
      · rw [i5]
        have : State.ctx { s with
            pool := mapAll s.pool fun c => if c.state ≠ .free ∧ c.visit = e.visit then { c with inTransit := false } else c
            uplink := classB s.uplink (.transitExpired e)
            dest := { s.dest with
              transit := s.dest.transit.filter (·.visit != e.visit)
              dests := upd s.dest.dests e.dest fun d => { d with inTransit := d.inTransit - 1 }
              counters := { s.dest.counters with transitExpired := bump s.dest.counters.transitExpired } } } id =
            if (s.ctx id).state ≠ .free ∧ (s.ctx id).visit = e.visit then { s.ctx id with inTransit := false } else s.ctx id := by
          unfold State.ctx
          exact mapAll_get _ _ _
        rw [this, List.any_cons]
        by_cases q : (s.ctx id).state ≠ .free ∧ (s.ctx id).visit = e.visit
        · rw [if_pos q]
          have h2 : (e.visit == (s.ctx id).visit) = true := by simp [q.2]
          have h1 : ((s.ctx id).state != .free) = true := by simpa using q.1
          simp [h1, h2]
        · rw [if_neg q]
          by_cases h1 : (s.ctx id).state = .free
          · simp [h1]
          · have h2 : (e.visit == (s.ctx id).visit) = false := by
              rw [beq_eq_false_iff_ne]; exact fun z => q ⟨h1, z.symm⟩
            simp [h2]
    · rw [if_neg h] at he
      have hg : gone = L.filter (due minute) := List.filter_cons_of_neg h
      rw [hg]
      rw [he] at i1 i2 i3 i4 i5
      exact ⟨i1, i2, i3, i4, i5⟩

/-- R159: a minute announced, where no visit has two entries. -/
theorem announce_expires (s : State) (minute : Nat) :
    let t := s.announce minute
    Expires s t minute ∧
    t.uplink = (s.dest.transit.filter (due minute)).foldl (fun u e => classB u (.transitExpired e)) s.uplink ∧
    t = { s with pool := t.pool, dest := t.dest, uplink := t.uplink } ∧ t.dest.defaults = s.dest.defaults ∧
    ∀ id, t.ctx id = { s.ctx id with inTransit := (t.ctx id).inTransit } := by
  intro t
  obtain ⟨h1, h2, h3, h4, h5⟩ := expireAll_spec minute s.dest.transit s
  change t = _ at h1
  change t.uplink = _ at h2
  change t.dest = _ at h3
  refine ⟨fun hn => ⟨?_, by rw [h3], h4, fun id => by rw [show t.ctx id = _ from h5 id]⟩, h2, h1, by rw [h3],
    fun id => by rw [show t.ctx id = _ from h5 id]⟩
  rw [h3]
  refine List.filter_congr fun x hx => ?_
  congr 1
  rw [Bool.eq_iff_iff, List.any_eq_true]
  constructor
  · rintro ⟨e, he, hv⟩
    obtain ⟨he1, he2⟩ := List.mem_filter.1 he
    rwa [← List.inj_on_of_nodup_map hn he1 hx (by simpa using hv)]
  · intro hd
    exact ⟨x, List.mem_filter.2 ⟨hx, hd⟩, by simp⟩

/-! ### A frame consumed (R48 to R53) -/

/-- R2, R3, R19: the links and the uplink once a frame at the head of a receive queue has been taken and heard, with its
PASS_FRAME where its station has the forward flag. -/
def frameTaken (s : State) (seg : Seg) (f : RxFrame) : State :=
  { placed s seg f.src (takenPort s seg f, heardEntry s seg f) with uplink := forwardedUplink s seg f }

/-- R3, R11 to R14, R19, R173: a frame that is consumed is taken and heard, copied upstream for the forward flag, handed to its
consumer, and the hearing follows. -/
theorem takeFrame_consumed (s : State) (seg : Seg) (f : RxFrame) (rest : List RxFrame) (consume : State → Taken → State)
    (h : Consumed s seg f rest) (hk : f.msg.kind ≠ .hello) :
    s.takeFrame seg f.msg.kind consume =
      (consume (frameTaken s seg f) ⟨seg, stationIx seg f.src, heardEntry s seg f, f⟩).signHearing (stationIx seg f.src) := by
  obtain ⟨⟨-, hq⟩, hd, h1, h2, h3, h4⟩ := h
  have ht := takeFrame_eq s seg f rest consume hq (.inl hd)
  dsimp only at ht
  rw [ht]
  congr 1
  rw [if_neg h1]
  have es : (heardEntry s seg f).state = (sender s seg f).state := by unfold heardEntry; dsimp only; split <;> rfl
  have em : (heardEntry s seg f).mismatched = (sender s seg f).mismatched := by unfold heardEntry; dsimp only; split <;> rfl
  have er : (heardEntry s seg f).role = (sender s seg f).role := by unfold heardEntry; dsimp only; split <;> rfl
  have el : (heardEntry s seg f).lane = (sender s seg f).lane := by unfold heardEntry; dsimp only; split <;> rfl
  have ef : (heardEntry s seg f).forward = (sender s seg f).forward := by unfold heardEntry; dsimp only; split <;> rfl
  unfold State.mapFrame
  dsimp only
  rw [es, if_neg h1]
  have hr : State.identityRefuses (heardEntry s seg f) f.msg = false := by
    unfold State.identityRefuses
    cases hm : f.msg <;> simp_all [LaneMsg.kind]
  rw [hr, if_neg (by simp)]
  unfold State.takeAllowed
  dsimp only
  rw [er, if_pos h3, el, ef]
  rw [if_neg]
  · congr 1
    unfold State.passFrame frameTaken forwardedUplink
    rw [offerB_eq]
    split <;> rfl
  · intro q
    rw [Bool.and_eq_true, beq_iff_eq] at q
    exact h4 q.1 q.2

/-- R51 to R53, R173: a frame whose consumption completes the identification of the context it is attached to: the links are
looked up in turn, the context concludes, and the hearing follows. -/
theorem takeFrame_concludes (s : State) (seg : Seg) (f : RxFrame) (rest : List RxFrame) (consume : State → Taken → State)
    (id : CtxId) (c : Ctx) (h : Consumed s seg f rest) (hk : f.msg.kind ≠ .hello)
    (hc : consume (frameTaken s seg f) ⟨seg, stationIx seg f.src, heardEntry s seg f, f⟩ =
      State.enterLookup { frameTaken s seg f with pool := s.pool.set id c } id)
    (hr : s.cache.recalls = []) (hl : ∀ k ∈ c.formLinks, 4 ≤ k.key.length) :
    let t := s.takeFrame seg f.msg.kind consume
    let ix := stationIx seg f.src
    let v0 : State := { s with
      ports := s.ports.set seg (takenPort s seg f), stations := s.stations.set ix (heardEntry s seg f)
      uplink := forwardedUplink s seg f
      pool := s.pool.set id { c with identTimer := none, links := c.formLinks, state := .lookup } }
    ∃ v w, LookedUpInTurn ((List.range c.formLinks.length).map fun n => ⟨id, n⟩) v0 v ∧ Concludes v w id ∧
      t = { w with ports := t.ports, stations := t.stations } ∧
      (∀ g, g ≠ seg → t.port g = w.port g) ∧ (∀ j, j ≠ ix → t.station j = w.station j) ∧
      (t.port seg, t.station ix) = hearing s.params.signAck f.src (w.port seg, w.station ix) := by
  intro t ix v0
  obtain ⟨M, hM⟩ : ∃ M : State, M = { frameTaken s seg f with pool := s.pool.set id c } := ⟨_, rfl⟩
  have ht : t = (M.enterLookup id).signHearing ix := by
    show s.takeFrame seg f.msg.kind consume = _
    rw [takeFrame_consumed s seg f rest consume h hk, hc, hM]
  have mc : M.ctx id = c := by rw [hM]; simp [State.ctx]
  obtain ⟨v, h1, h2⟩ := enterLookup_concludes M id (by rw [hM]; exact hr)
    (by rw [mc]; exact hl)
  rw [mc] at h1
  have hv : { M with pool := M.pool.set id { c with identTimer := none, links := c.formLinks, state := .lookup } } = v0 := by
    rw [hM]; simp [v0, ix, frameTaken, placed]
  rw [hv] at h1
  have hp : (M.enterLookup id).params = s.params := by
    rw [(State.enterLookup_frame M id).2.2.2.1, hM]; rfl
  generalize M.enterLookup id = w at ht h2 hp
  refine ⟨v, w, h1, h2, ?_⟩
  have e := signHearing_eq w seg f.src
  rw [hp] at e
  rw [ht, show w.signHearing ix = _ from e]
  refine ⟨rfl, fun g hg => ?_, fun j hj => ?_, ?_⟩
  · rw [placed_port, if_neg hg]
  · rw [placed_station, if_neg hj]
  · rw [placed_port, placed_station, if_pos rfl, if_pos rfl]; rfl

end Sys2Proof.Laws
end

