-- ==== Sys2Proof/Laws/Forms.lean ====
section
/-! SUPPORT. The forms of lane frames, keys and booking records (R1, R13, R51, R52, R67, R68, R85 to R87): each reading function
of the model, and the relation of Safety.lean that says what it reads. -/

set_option linter.unusedSimpArgs false
set_option linter.unnecessarySeqFocus false
open Sys2Proof.Machine Sys2Proof.Safety
namespace Sys2Proof.Laws

/-- File 00: the digits. -/
theorem isDigit_iff (b : Byte) : isDigit b = true ↔ Digit b := by simp [isDigit, Digit]
/-- File 00: the letters. -/
theorem isLetter_iff (b : Byte) : isLetter b = true ↔ Letter b := by simp [isLetter, Letter]
/-- R1: the characters of a character field. -/
theorem isTextChar_iff (b : Byte) : isTextChar b = true ↔ b.toNat = 0x20 ∨ Digit b ∨ Letter b := by
  simp [isTextChar, isKeyChar, isDigit_iff, isLetter_iff]

/-- File 00: the character value of a digit or a letter. -/
theorem charValue_eq (b : Byte) (h : Digit b ∨ Letter b) : charValue b = faceValue b := by
  unfold charValue faceValue isDigit isLetter
  unfold Digit Letter at h
  rcases h with h | h <;> (split <;> split <;> simp_all <;> omega)

/-- R1: a character field passes exactly where it is written in the text set. -/
theorem chars_some (t v : Text) : chars t = some v ↔ Written t ∧ v = t := by
  unfold chars
  have : t.all isTextChar = true ↔ Written t := by simp [List.all_eq_true, isTextChar_iff, Written]
  by_cases h : t.all isTextChar = true
  · rw [if_pos h]
    exact ⟨fun e => by cases e; exact ⟨this.1 h, rfl⟩, fun e => by rw [e.2]⟩
  · rw [if_neg h]; simp [mt this.2 h]

/-- R13: the kinds accepted for each role. -/
theorem accepts_iff (r : Role) (k : LaneKind) : r.accepts k = true ↔ k = .hello ∨ k = .status ∨
    (match r with
    | .plate => k = .readPlate
    | .tag => k = .readTag
    | .unit => k = .readUnit
    | .seal => k = .readSeal
    | .damage => k = .damageMarks ∨ k = .scanEnd
    | .kiosk => k = .kioskEntry
    | .sign => k = .signAck
    | .printer => k = .ticketAck
    | .console => k = .consoleTake ∨ k = .consoleRelease ∨ k = .consoleOutput) := by
  cases r <;> cases k <;> simp [Role.accepts]

/-- R67: the UNIT FORM CHECK. -/
theorem unitFormOk_iff (code : Text) : unitFormOk code = true ↔
      code.length = 11 ∧ (∀ b ∈ code.take 4, Letter b) ∧ ∀ b ∈ code.drop 4, Digit b := by
  simp [unitFormOk, List.all_eq_true, isDigit_iff, isLetter_iff, and_assoc]

/-- R68: the CHECK DIGIT TEST. -/
theorem checkValid_iff (c1 c2 c3 c4 c5 c6 c7 c8 c9 c10 c11 : Byte) :
      let code : Text := [c1, c2, c3, c4, c5, c6, c7, c8, c9, c10, c11]
      let S : Nat := faceValue c1 + 3 * faceValue c2 + 7 * faceValue c3 + 9 * faceValue c4 + faceValue c5 +
        3 * faceValue c6 + 7 * faceValue c7 + 9 * faceValue c8 + faceValue c9 + 3 * faceValue c10
      unitFormOk code = true → (checkValid code = true ↔ faceValue c11 = S % 10) := by
  intro code S h
  obtain ⟨-, h1, h2⟩ := (unitFormOk_iff code).1 h
  simp only [code, List.take, List.drop, List.mem_cons, List.not_mem_nil, or_false, forall_eq_or_imp, forall_eq] at h1 h2
  have f : ∀ b, Digit b → charValue b = faceValue b := fun b h => charValue_eq b (.inl h)
  have g : ∀ b, Letter b → charValue b = faceValue b := fun b h => charValue_eq b (.inr h)
  simp only [checkValid, checkDigit, code, beq_iff_eq, List.getD, List.getElem?_cons_succ, List.getElem?_cons_zero, Option.getD_some, List.take, weightedSum]
  simp only [f _ h2.1, f _ h2.2.1, f _ h2.2.2.1, f _ h2.2.2.2.1, f _ h2.2.2.2.2.1, f _ h2.2.2.2.2.2.1, f _ h2.2.2.2.2.2.2,
    g _ h1.1, g _ h1.2.1, g _ h1.2.2.1, g _ h1.2.2.2, S]
  constructor <;> intro e <;> rw [e] <;> congr 1 <;> ring

/-- R87: the SET INDEX of a key of digits and letters. -/
theorem setIndex_eq (c1 c2 c3 c4 c5 c6 c7 c8 c9 c10 c11 : Byte) :
    let key : Text := [c1, c2, c3, c4, c5, c6, c7, c8, c9, c10, c11]
    (∀ b ∈ key, Digit b ∨ Letter b) →
    (∀ b ∈ key, charValue b = faceValue b) ∧
    (setIndex key).val =
      (3 * faceValue c1 + 5 * faceValue c2 + 7 * faceValue c3 + 9 * faceValue c4 + 11 * faceValue c5 + 13 * faceValue c6 +
        15 * faceValue c7 + 17 * faceValue c8 + 19 * faceValue c9 + 21 * faceValue c10 + 23 * faceValue c11) % 1024 := by
  intro key h
  refine ⟨fun b hb => charValue_eq b (h b hb), ?_⟩
  simp only [key, List.mem_cons, List.not_mem_nil, or_false, forall_eq_or_imp, forall_eq] at h
  obtain ⟨h1,h2,h3,h4,h5,h6,h7,h8,h9,h10,h11⟩ := h
  simp only [setIndex, key, weightedSum, charValue_eq _ h1, charValue_eq _ h2, charValue_eq _ h3, charValue_eq _ h4,
    charValue_eq _ h5, charValue_eq _ h6, charValue_eq _ h7, charValue_eq _ h8, charValue_eq _ h9, charValue_eq _ h10, charValue_eq _ h11]
  congr 1; ring

/-- R51: identification completion. -/
theorem identified_iff (c : Ctx) : c.identified = true ↔
    (c.plate.state = .settled ∨ c.tag.state = .settled) ∧
    ∃ l, c.layout = some l ∧ (1 ≤ l.units → c.unitFwd.state = .settled) ∧ (2 ≤ l.units → c.unitAft.state = .settled) ∧
      (l.units = 0 → ∃ r, c.kiosk = some r) := by
  unfold Ctx.identified Ctx.expects
  cases hl : c.layout with
  | none => simp
  | some l =>
    simp only [Bool.and_eq_true, Bool.or_eq_true, beq_iff_eq, Bool.not_eq_true', decide_eq_false_iff_not, bne_iff_ne, Option.some.injEq, exists_eq_left', Option.isSome_iff_exists]
    have : ∀ (p q : Prop), (¬ p ∨ q) ↔ (p → q) := fun p q => by tauto
    simp only [this, ne_eq]
    tauto

/-- R52: the links that the values of a context form. -/
theorem formLinks_spec (c : Ctx) :
    let held (f : ConsField) : Option Text :=
      if f.state = .settled ∨ f.state = .weak ∨ f.state = .contested then f.latched else none
    let keys : List (Text × LinkSource) :=
      ((held c.unitFwd).map (·, .unitFwd)).toList ++ ((held c.unitAft).map (·, .unitAft)).toList ++
        (c.kiosk.map (·, .kiosk)).toList
    let link (x : Text × LinkSource) : Link := ⟨x.1, x.2, none, .pending, false⟩
    (keys = [] → c.formLinks = []) ∧
    (∀ x more, keys = x :: more → (∀ y ∈ more, y.1 = x.1) → c.formLinks = [link x]) ∧
    ∀ x same y more, keys = x :: (same ++ y :: more) → (∀ z ∈ same, z.1 = x.1) → y.1 ≠ x.1 →
      c.formLinks = [link x, link y] := by
  intro held keys link
  have hk : ∀ f : ConsField, f.key = held f := by
    intro f; unfold ConsField.key; simp only [held]; cases f.state <;> simp
  unfold Ctx.formLinks
  simp only [hk, keys]
  generalize held c.unitFwd = a
  generalize held c.unitAft = b
  generalize c.kiosk = k
  clear keys hk
  refine ⟨?_, ?_, ?_⟩
  · cases a <;> cases b <;> cases k <;> simp [addLink]
  · intro x more
    rcases a with _ | a <;> rcases b with _ | b <;> rcases k with _ | k <;> simp [addLink] <;> rintro rfl rfl <;>
      simp [link] <;> intro h <;> first | (simp_all [eq_comm]; done) | skip
    obtain rfl := h b .unitAft (.inl ⟨rfl, rfl⟩)
    obtain rfl := h k .kiosk (.inr ⟨rfl, rfl⟩)
    simp
  · intro x same y more
    rcases same with _ | ⟨z, _ | ⟨z2, _ | ⟨z3, same⟩⟩⟩ <;>
    rcases a with _ | a <;> rcases b with _ | b <;> rcases k with _ | k <;> simp [addLink] <;> rintro rfl <;> intros <;> subst_vars <;> simp_all [link, eq_comm]

/-- File 11: positions by their codes. -/
theorem positionOf_some (b : Byte) (q : Position) : positionOf b = some q ↔ b = positionByte q := by
  unfold positionOf
  cases q <;> (split <;> rename_i h <;> simp [positionByte, ← BitVec.toNat_inj, h] <;> assumption)

/-- File 11: lane faces by their codes. -/
theorem laneFaceOf_some (b : Byte) (q : LaneFace) : laneFaceOf b = some q ↔ b = laneFaceByte q := by
  unfold laneFaceOf
  cases q <;> (split <;> rename_i h <;> simp [laneFaceByte, ← BitVec.toNat_inj, h] <;> assumption)

/-- File 11: damage kinds by their codes. -/
theorem damageKindOf_some (b : Byte) (q : DamageKind) : damageKindOf b = some q ↔ b = damageByte q := by
  unfold damageKindOf
  cases q <;> (split <;> rename_i h <;> simp [damageByte, ← BitVec.toNat_inj, h] <;> assumption)

/-- File 11: length classes by their values. -/
theorem lengthClassOf_some (b : Byte) (q : LengthClass) : lengthClassOf b = some q ↔ b = lengthByte q := by
  unfold lengthClassOf
  cases q <;> (split <;> rename_i h <;> simp [lengthByte, ← BitVec.toNat_inj, h] <;> assumption)

/-- File 11: door ends by their codes. -/
theorem doorEndOf_some (b : Byte) (q : DoorEnd) : doorEndOf b = some q ↔ b = doorByte q := by
  unfold doorEndOf
  cases q <;> (split <;> rename_i h <;> simp [doorByte, ← BitVec.toNat_inj, h] <;> assumption)

/-- File 11: output values by their codes. -/
theorem outputValueOf_some (b : Byte) (q : Option Bool) : outputValueOf b = some q ↔ b = outputByte q := by
  unfold outputValueOf
  rcases q with _ | _ | _ <;> (split <;> rename_i h <;> simp [outputByte, ← BitVec.toNat_inj, h] <;> assumption)

/-- R189: the marks of a DAMAGE_MARKS payload, five bytes each. -/
theorem rawMarksOf_some (v : List Byte) (ms : List RawMark) : rawMarksOf v = some ms ↔
    (∀ m ∈ ms, m.column < 256 ∧ m.row < 256 ∧ m.severity < 256) ∧
      v = ms.flatMap fun m =>
        [laneFaceByte m.face, BitVec.ofNat 8 m.column, BitVec.ofNat 8 m.row, damageByte m.kind, BitVec.ofNat 8 m.severity] := by
  induction ms generalizing v with
  | nil =>
    simp only [List.not_mem_nil, false_imp_iff, implies_true, true_and, List.flatMap_nil]
    match v with
    | [] => simp [rawMarksOf]
    | [_] | [_, _] | [_, _, _] | [_, _, _, _] => simp [rawMarksOf]
    | f :: c :: r :: k :: x :: rest =>
      simp only [rawMarksOf, Option.bind_eq_bind, Option.bind_eq_some_iff, reduceCtorEq, iff_false]
      rintro ⟨_, _, _, _, _, _, h⟩
      cases h
  | cons m ms ih =>
    match v with
    | [] => simp [rawMarksOf]
    | [_] | [_, _] | [_, _, _] | [_, _, _, _] => simp [rawMarksOf]
    | f :: c :: r :: k :: x :: rest =>
      have hb := c.isLt; have hr := r.isLt; have hx := x.isLt
      simp only [rawMarksOf, Option.bind_eq_bind, Option.bind_eq_some_iff, Option.pure_def, Option.some.injEq, List.flatMap_cons,
        List.cons_append, List.nil_append, List.cons.injEq, List.mem_cons, forall_eq_or_imp]
      constructor
      · rintro ⟨face, h1, kind, h2, marks, h3, rfl, rfl⟩
        obtain ⟨a, b⟩ := (ih rest).1 h3
        exact ⟨⟨⟨hb, hr, hx⟩, a⟩, (laneFaceOf_some _ _).1 h1, by simp, by simp, (damageKindOf_some _ _).1 h2, by simp, b⟩
      · rintro ⟨⟨⟨a1, a2, a3⟩, a⟩, h1, h2, h3, h4, h5, h6⟩
        refine ⟨m.face, (laneFaceOf_some _ _).2 h1, m.kind, (damageKindOf_some _ _).2 h4, ms, (ih rest).2 ⟨a, h6⟩, ?_, rfl⟩
        subst h2 h3 h5
        simp only [BitVec.toNat_ofNat]
        have : ∀ n < 256, n % 2^8 = n := fun n h => Nat.mod_eq_of_lt (by omega)
        rw [this _ a1, this _ a2, this _ a3]

/-- The bytes of the marks of a DAMAGE_MARKS. -/
theorem marks_length (ms : List RawMark) : (ms.flatMap fun m =>
        [laneFaceByte m.face, BitVec.ofNat 8 m.column, BitVec.ofNat 8 m.row, damageByte m.kind, BitVec.ofNat 8 m.severity]).length = 5 * ms.length := by
  induction ms with
  | nil => rfl
  | cons m ms ih => simp only [List.flatMap_cons, List.length_append, ih, List.length_cons, List.length_nil]; omega

/-- R1, R81: the layout of a SCAN_END. -/
theorem layoutOf_some (u fl fd al ad : Byte) (l : Layout) : layoutOf u fl fd al ad = some l ↔
    (u = 0 ∧ l = ⟨0, none, none⟩) ∨
    (∃ c d, u = 1 ∧ fl = lengthByte c ∧ fd = doorByte d ∧ l = ⟨1, some (c, d), none⟩) ∨
    ∃ c d x y, u = 2 ∧ fl = lengthByte c ∧ fd = doorByte d ∧ al = lengthByte x ∧ ad = doorByte y ∧
      l = ⟨2, some (c, d), some (x, y)⟩ := by
  unfold layoutOf
  split <;> rename_i h
  · simp [← BitVec.toNat_inj, h, eq_comm]
  · simp only [Option.bind_eq_bind, Option.bind_eq_some_iff, Option.pure_def, Option.some.injEq, lengthClassOf_some, doorEndOf_some]
    simp [← BitVec.toNat_inj, h, eq_comm]
  · simp only [Option.bind_eq_bind, Option.bind_eq_some_iff, Option.pure_def, Option.some.injEq, lengthClassOf_some, doorEndOf_some]
    simp [← BitVec.toNat_inj, h, eq_comm]
  · simp only [reduceCtorEq, false_iff, not_or, not_and, not_exists]
    exact ⟨fun e => by simp_all, fun _ _ e => by simp_all, fun _ _ _ _ e => by simp_all⟩

/-- A payload that carries nothing carries no message. -/
theorem no_message {m : LaneMsg} (h : (none : Option LaneMsg) = some m) : False := by cases h

/-- R1: the payload of a READ_PLATE. -/
theorem carries_plate (p : List Byte) (m : LaneMsg) : laneMsgOf 0x01 p = some m ↔ Carries 0x01 p m := by
  constructor
  · intro h
    match p with
    | [] => exact (no_message h).elim
    | k :: v =>
      change (if _ then _ else none) = some m at h
      simp only [Option.ite_none_right_eq_some, Bool.and_eq_true, decide_eq_true_eq, beq_iff_eq, Option.bind_eq_bind,
        Option.bind_eq_some_iff, Option.pure_def, Option.some.injEq, Option.map_eq_some_iff, chars_some, positionOf_some,
        rawMarksOf_some, layoutOf_some, outputValueOf_some] at h
      obtain ⟨⟨h1, h2⟩, w, ⟨h3, rfl⟩, rfl⟩ := h
      exact ⟨rfl, h1, h2, h3, k, rfl, rfl⟩
  · intro h
    cases m
    case readPlate c v =>
      obtain ⟨-, h1, h2, h3, k, rfl, rfl⟩ := h
      change (if _ then _ else none) = some _
      rw [if_pos (by simp [h1, h2]), (chars_some v v).2 ⟨h3, rfl⟩]; rfl
    all_goals exact absurd h.1 (by decide)

/-- R1: the payload of a READ_TAG. -/
theorem carries_tag (p : List Byte) (m : LaneMsg) : laneMsgOf 0x02 p = some m ↔ Carries 0x02 p m := by
  constructor
  · intro h
    match p with
    | [] => exact (no_message h).elim
    | k :: v =>
      change (if _ then _ else none) = some m at h
      simp only [Option.ite_none_right_eq_some, Bool.and_eq_true, decide_eq_true_eq, beq_iff_eq, Option.bind_eq_bind,
        Option.bind_eq_some_iff, Option.pure_def, Option.some.injEq, Option.map_eq_some_iff, chars_some, positionOf_some,
        rawMarksOf_some, layoutOf_some, outputValueOf_some] at h
      obtain ⟨h1, w, ⟨h3, rfl⟩, rfl⟩ := h
      exact ⟨rfl, h1, h3, k, rfl, rfl⟩
  · intro h
    cases m
    case readTag c v =>
      obtain ⟨-, h1, h3, k, rfl, rfl⟩ := h
      change (if _ then _ else none) = some _
      rw [if_pos (by simp [h1]), (chars_some v v).2 ⟨h3, rfl⟩]; rfl
    all_goals exact absurd h.1 (by decide)

/-- R1: the payload of a READ_UNIT. -/
theorem carries_unit (p : List Byte) (m : LaneMsg) : laneMsgOf 0x03 p = some m ↔ Carries 0x03 p m := by
  constructor
  · intro h
    match p with
    | [] => exact (no_message h).elim
    | [_] => exact (no_message h).elim
    | q :: k :: v =>
      change (if _ then _ else none) = some m at h
      simp only [Option.ite_none_right_eq_some, Bool.and_eq_true, decide_eq_true_eq, beq_iff_eq, Option.bind_eq_bind,
        Option.bind_eq_some_iff, Option.pure_def, Option.some.injEq, Option.map_eq_some_iff, chars_some, positionOf_some,
        rawMarksOf_some, layoutOf_some, outputValueOf_some] at h
      obtain ⟨h1, pos, rfl, a, ⟨h2, rfl⟩, b, ⟨h3, rfl⟩, rfl⟩ := h
      refine ⟨rfl, by simp [h1], by simp [h1], ?_, k, rfl, by simp⟩
      intro x hx
      rcases List.mem_append.1 hx with hx | hx
      · exact h2 x hx
      · exact h3 x hx
  · intro h
    cases m
    case readUnit q c code size =>
      obtain ⟨-, h1, h2, h3, k, rfl, rfl⟩ := h
      change (if _ then _ else none) = some _
      rw [if_pos (by simp [h1, h2]), (positionOf_some _ q).2 rfl, List.take_left' h1, List.drop_left' h1,
        (chars_some code code).2 ⟨fun x hx => h3 x (List.mem_append.2 (.inl hx)), rfl⟩,
        (chars_some size size).2 ⟨fun x hx => h3 x (List.mem_append.2 (.inr hx)), rfl⟩]
      rfl
    all_goals exact absurd h.1 (by decide)

/-- R1: the payload of a READ_SEAL. -/
theorem carries_seal (p : List Byte) (m : LaneMsg) : laneMsgOf 0x04 p = some m ↔ Carries 0x04 p m := by
  constructor
  · intro h
    match p with
    | [] => exact (no_message h).elim
    | [_] => exact (no_message h).elim
    | q :: k :: v =>
      change (if _ then _ else none) = some m at h
      simp only [Option.ite_none_right_eq_some, Bool.and_eq_true, decide_eq_true_eq, beq_iff_eq, Option.bind_eq_bind,
        Option.bind_eq_some_iff, Option.pure_def, Option.some.injEq, Option.map_eq_some_iff, chars_some, positionOf_some,
        rawMarksOf_some, layoutOf_some, outputValueOf_some] at h
      obtain ⟨⟨h1, h2⟩, pos, rfl, w, ⟨h3, rfl⟩, rfl⟩ := h
      exact ⟨rfl, h1, h2, h3, k, rfl, rfl⟩
  · intro h
    cases m
    case readSeal q c v =>
      obtain ⟨-, h1, h2, h3, k, rfl, rfl⟩ := h
      change (if _ then _ else none) = some _
      rw [if_pos (by simp [h1, h2]), (positionOf_some _ q).2 rfl, (chars_some v v).2 ⟨h3, rfl⟩]; rfl
    all_goals exact absurd h.1 (by decide)

/-- R1: the payload of a DAMAGE_MARKS. -/
theorem carries_marks (p : List Byte) (m : LaneMsg) : laneMsgOf 0x05 p = some m ↔ Carries 0x05 p m := by
  constructor
  · intro h
    match p with
    | [] => exact (no_message h).elim
    | q :: v =>
      change (if _ then _ else none) = some m at h
      simp only [Option.ite_none_right_eq_some, Bool.and_eq_true, decide_eq_true_eq, beq_iff_eq, Option.bind_eq_bind,
        Option.bind_eq_some_iff, Option.pure_def, Option.some.injEq, Option.map_eq_some_iff, chars_some, positionOf_some,
        rawMarksOf_some, layoutOf_some, outputValueOf_some] at h
      obtain ⟨⟨h1, h2⟩, pos, rfl, ms, ⟨h3, rfl⟩, rfl⟩ := h
      rw [marks_length] at h1 h2
      exact ⟨rfl, by omega, by omega, h3, rfl⟩
  · intro h
    cases m
    case damageMarks q ms =>
      obtain ⟨-, h1, h2, h3, rfl⟩ := h
      change (if _ then _ else none) = some _
      rw [if_pos (by rw [marks_length]; simp; omega), (positionOf_some _ q).2 rfl, (rawMarksOf_some _ ms).2 ⟨h3, rfl⟩]; rfl
    all_goals exact absurd h.1 (by decide)

/-- R1: the payload of a SCAN_END. -/
theorem carries_scan (p : List Byte) (m : LaneMsg) : laneMsgOf 0x06 p = some m ↔ Carries 0x06 p m := by
  constructor
  · intro h
    match p with
    | [] => exact (no_message h).elim
    | [_] => exact (no_message h).elim
    | [_, _] | [_, _, _] | [_, _, _, _] | _ :: _ :: _ :: _ :: _ :: _ :: _ => exact (no_message h).elim
    | [u, fl, fd, al, ad] =>
      change (layoutOf u fl fd al ad).map _ = some m at h
      simp only [Option.ite_none_right_eq_some, Bool.and_eq_true, decide_eq_true_eq, beq_iff_eq, Option.bind_eq_bind,
        Option.bind_eq_some_iff, Option.pure_def, Option.some.injEq, Option.map_eq_some_iff, chars_some, positionOf_some,
        rawMarksOf_some, layoutOf_some, outputValueOf_some] at h
      obtain ⟨l, h1, rfl⟩ := h
      refine ⟨rfl, fl, fd, al, ad, ?_⟩
      rcases h1 with ⟨rfl, rfl⟩ | ⟨c, d, rfl, rfl, rfl, rfl⟩ | ⟨c, d, x, y, rfl, rfl, rfl, rfl, rfl, rfl⟩
      · exact .inl ⟨rfl, rfl⟩
      · exact .inr (.inl ⟨c, d, rfl, rfl⟩)
      · exact .inr (.inr ⟨c, d, x, y, rfl, rfl⟩)
  · intro h
    cases m
    case scanEnd l =>
      obtain ⟨-, fl, fd, al, ad, h⟩ := h
      rcases h with ⟨rfl, rfl⟩ | ⟨c, d, rfl, rfl⟩ | ⟨c, d, x, y, rfl, rfl⟩
      · rfl
      · cases c <;> cases d <;> rfl
      · cases c <;> cases d <;> cases x <;> cases y <;> rfl
    all_goals exact absurd h.1 (by decide)

/-- R1: the payload of a KIOSK_ENTRY. -/
theorem carries_kiosk (p : List Byte) (m : LaneMsg) : laneMsgOf 0x07 p = some m ↔ Carries 0x07 p m := by
  constructor
  · intro h
    change (if _ then _ else none) = some m at h
    simp only [Option.ite_none_right_eq_some, Bool.and_eq_true, decide_eq_true_eq, beq_iff_eq, Option.bind_eq_bind,
        Option.bind_eq_some_iff, Option.pure_def, Option.some.injEq, Option.map_eq_some_iff, chars_some, positionOf_some,
        rawMarksOf_some, layoutOf_some, outputValueOf_some] at h
    obtain ⟨h1, w, ⟨h3, rfl⟩, rfl⟩ := h
    exact ⟨rfl, h1, h3, rfl⟩
  · intro h
    cases m
    case kioskEntry v =>
      obtain ⟨-, h1, h3, rfl⟩ := h
      change (if _ then _ else none) = some _
      rw [if_pos (by simp [h1]), (chars_some p p).2 ⟨h3, rfl⟩]; rfl
    all_goals exact absurd h.1 (by decide)

/-- R1: the payload of a STATION_HELLO. -/
theorem carries_hello (p : List Byte) (m : LaneMsg) : laneMsgOf 0x08 p = some m ↔ Carries 0x08 p m := by
  constructor
  · intro h
    match p with
    | [] => exact (no_message h).elim
    | [_] => exact (no_message h).elim
    | [_, _] | [_, _, _] | _ :: _ :: _ :: _ :: _ :: _ => exact (no_message h).elim
    | [a, b, c, d] =>
      cases Option.some.inj h
      exact ⟨rfl, a, b, c, d, rfl, rfl⟩
  · intro h
    cases m
    case hello i =>
      obtain ⟨-, a, b, c, d, rfl, rfl⟩ := h
      rfl
    all_goals exact absurd h.1 (by decide)

/-- R1: the payload of a STATION_STATUS. -/
theorem carries_status (p : List Byte) (m : LaneMsg) : laneMsgOf 0x09 p = some m ↔ Carries 0x09 p m := by
  constructor
  · intro h
    change (if _ then _ else none) = some m at h
    simp only [Option.ite_none_right_eq_some, Bool.and_eq_true, decide_eq_true_eq, beq_iff_eq, Option.bind_eq_bind,
        Option.bind_eq_some_iff, Option.pure_def, Option.some.injEq, Option.map_eq_some_iff, chars_some, positionOf_some,
        rawMarksOf_some, layoutOf_some, outputValueOf_some] at h
    obtain ⟨h1, rfl⟩ := h
    exact ⟨rfl, h1⟩
  · intro h
    cases m
    case status  =>
      change (if _ then _ else none) = some _
      rw [if_pos h.2]
    all_goals exact absurd h.1 (by decide)

/-- R1: the payload of a SIGN_ACK. -/
theorem carries_signAck (p : List Byte) (m : LaneMsg) : laneMsgOf 0x0A p = some m ↔ Carries 0x0A p m := by
  constructor
  · intro h
    match p with
    | [] => exact (no_message h).elim
    | _ :: _ :: _ => exact (no_message h).elim
    | [b] =>
      cases Option.some.inj h
      exact ⟨rfl, b, rfl, rfl⟩
  · intro h
    cases m
    case signAck q =>
      obtain ⟨-, b, rfl, rfl⟩ := h
      rfl
    all_goals exact absurd h.1 (by decide)

/-- R1: the payload of a TICKET_ACK. -/
theorem carries_ticketAck (p : List Byte) (m : LaneMsg) : laneMsgOf 0x0B p = some m ↔ Carries 0x0B p m := by
  constructor
  · intro h
    match p with
    | [] => exact (no_message h).elim
    | _ :: _ :: _ => exact (no_message h).elim
    | [b] =>
      cases Option.some.inj h
      exact ⟨rfl, b, rfl, rfl⟩
  · intro h
    cases m
    case ticketAck q =>
      obtain ⟨-, b, rfl, rfl⟩ := h
      rfl
    all_goals exact absurd h.1 (by decide)

/-- R1: the payload of a CONSOLE_TAKE. -/
theorem carries_take (p : List Byte) (m : LaneMsg) : laneMsgOf 0x0C p = some m ↔ Carries 0x0C p m := by
  constructor
  · intro h
    match p with
    | _ :: _ => exact (no_message h).elim
    | [] =>
      cases Option.some.inj h
      exact ⟨rfl, rfl⟩
  · intro h
    cases m
    case consoleTake  =>
      obtain ⟨-, rfl⟩ := h
      rfl
    all_goals exact absurd h.1 (by decide)

/-- R1: the payload of a CONSOLE_RELEASE. -/
theorem carries_release (p : List Byte) (m : LaneMsg) : laneMsgOf 0x0D p = some m ↔ Carries 0x0D p m := by
  constructor
  · intro h
    match p with
    | _ :: _ => exact (no_message h).elim
    | [] =>
      cases Option.some.inj h
      exact ⟨rfl, rfl⟩
  · intro h
    cases m
    case consoleRelease  =>
      obtain ⟨-, rfl⟩ := h
      rfl
    all_goals exact absurd h.1 (by decide)

/-- R1: the payload of a CONSOLE_OUTPUT. -/
theorem carries_output (p : List Byte) (m : LaneMsg) : laneMsgOf 0x0E p = some m ↔ Carries 0x0E p m := by
  constructor
  · intro h
    match p with
    | [] => exact (no_message h).elim
    | [_] => exact (no_message h).elim
    | [_, _] | _ :: _ :: _ :: _ :: _ => exact (no_message h).elim
    | [b, g, t] =>
      change (outputValueOf b).bind _ = some m at h
      simp only [Option.ite_none_right_eq_some, Bool.and_eq_true, decide_eq_true_eq, beq_iff_eq, Option.bind_eq_bind,
        Option.bind_eq_some_iff, Option.pure_def, Option.some.injEq, Option.map_eq_some_iff, chars_some, positionOf_some,
        rawMarksOf_some, layoutOf_some, outputValueOf_some] at h
      obtain ⟨b, rfl, g, rfl, t, rfl, rfl⟩ := h
      exact ⟨rfl, rfl⟩
  · intro h
    cases m
    case consoleOutput b g t =>
      obtain ⟨-, rfl⟩ := h
      rcases b with _ | _ | _ <;> rcases g with _ | _ | _ <;> rcases t with _ | _ | _ <;> rfl
    all_goals exact absurd h.1 (by decide)

/-- R1, R189: the form check of a kind code and its payload. -/
theorem laneMsgOf_some (kind : Byte) (p : List Byte) (m : LaneMsg) : laneMsgOf kind p = some m ↔ Carries kind p m := by
  have far : 14 < kind.toNat ∨ kind.toNat = 0 → laneMsgOf kind p = none := by
    intro h
    unfold laneMsgOf
    generalize kind.toNat = n at h ⊢
    rcases h with h | rfl
    · obtain ⟨k, rfl⟩ := Nat.exists_eq_add_of_lt h
      rw [show 14 + k + 1 = k + 15 by omega]
      rfl
    · rfl
  by_cases h : kind.toNat ≤ 14 ∧ kind.toNat ≠ 0
  · obtain ⟨n, hn⟩ : ∃ n, kind = BitVec.ofNat 8 n ∧ n ≤ 14 ∧ n ≠ 0 := ⟨kind.toNat, by simp, h.1, h.2⟩
    obtain ⟨rfl, h1, h2⟩ := hn
    interval_cases n
    · exact absurd rfl h2
    · exact carries_plate p m
    · exact carries_tag p m
    · exact carries_unit p m
    · exact carries_seal p m
    · exact carries_marks p m
    · exact carries_scan p m
    · exact carries_kiosk p m
    · exact carries_hello p m
    · exact carries_status p m
    · exact carries_signAck p m
    · exact carries_ticketAck p m
    · exact carries_take p m
    · exact carries_release p m
    · exact carries_output p m
  · rw [far (by omega)]
    simp only [reduceCtorEq, false_iff]
    intro hc
    have : ∀ n : Nat, 1 ≤ n → n ≤ 14 → kind ≠ BitVec.ofNat 8 n := by
      rintro n h1 h2 rfl
      rw [BitVec.toNat_ofNat, Nat.mod_eq_of_lt (by omega)] at h
      omega
    cases m
    · exact this 1 (by omega) (by omega) hc.1
    · exact this 2 (by omega) (by omega) hc.1
    · exact this 3 (by omega) (by omega) hc.1
    · exact this 4 (by omega) (by omega) hc.1
    · exact this 5 (by omega) (by omega) hc.1
    · exact this 6 (by omega) (by omega) hc.1
    · exact this 7 (by omega) (by omega) hc.1
    · exact this 8 (by omega) (by omega) hc.1
    · exact this 9 (by omega) (by omega) hc.1
    · exact this 10 (by omega) (by omega) hc.1
    · exact this 11 (by omega) (by omega) hc.1
    · exact this 12 (by omega) (by omega) hc.1
    · exact this 13 (by omega) (by omega) hc.1
    · exact this 14 (by omega) (by omega) hc.1


/-! ### The booking record -/

/-- File 11: container faces by their codes. -/
theorem faceOf_some (b : Byte) (q : Face) : faceOf b = some q ↔ b = faceByte q := by
  unfold faceOf
  cases q <;> (split <;> rename_i h <;> simp [faceByte, ← BitVec.toNat_inj, h] <;> assumption)

/-- File 11: booking kinds by their codes. -/
theorem bookingKindOf_some (b : Byte) (q : BookingKind) : bookingKindOf b = some q ↔
    b = (match q with | .exportFull => 0 | .emptyReturn => 1 | .importFull => 2 | .emptyPickup => 3) := by
  unfold bookingKindOf
  cases q <;> (split <;> rename_i h <;> simp [← BitVec.toNat_inj, h] <;> assumption)

/-- File 11: progress by its codes. -/
theorem progressOf_some (b : Byte) (q : Progress) : progressOf b = some q ↔
    b = (match q with | .booked => 0 | .arrived => 1 | .gatedIn => 2 | .cancelled => 3) := by
  unfold progressOf
  cases q <;> (split <;> rename_i h <;> simp [← BitVec.toNat_inj, h] <;> assumption)

/-- File 11: seal results by their codes. -/
theorem sealResultOf_some (b : Byte) (q : SealResult) : sealResultOf b = some q ↔
    b = (match q with | .ok => 0 | .near => 1 | .missing => 2 | .mismatch => 3 | .unexpected => 4) := by
  unfold sealResultOf
  cases q <;> (split <;> rename_i h <;> simp [← BitVec.toNat_inj, h] <;> assumption)

/-- File 11: the slot of a record. -/
theorem slotOf_some (d : BitVec 16) (b : Byte) (x : Option (BitVec 16 × Nat)) : slotOf d b = some x ↔
    (b = 0xFF ∧ x = none) ∨ (b.toNat ≤ 95 ∧ x = some (d, b.toNat)) := by
  unfold slotOf
  have e : b = 0xFF ↔ b.toNat = 255 := by rw [← BitVec.toNat_inj]; rfl
  rw [e]
  by_cases h : b.toNat = 255
  · rw [if_pos (beq_iff_eq.2 h), Option.some.injEq]
    constructor
    · rintro rfl; exact .inl ⟨h, rfl⟩
    · rintro (⟨-, rfl⟩ | ⟨q, -⟩)
      · rfl
      · omega
  · rw [if_neg (fun q => h (beq_iff_eq.1 q))]
    by_cases g : b.toNat ≤ 95
    · rw [if_pos g, Option.some.injEq]
      constructor
      · rintro rfl; exact .inr ⟨g, rfl⟩
      · rintro (⟨q, -⟩ | ⟨-, rfl⟩)
        · exact absurd q h
        · rfl
    · rw [if_neg g]
      constructor
      · intro q; cases q
      · rintro (⟨q, -⟩ | ⟨q, -⟩)
        · exact absurd q h
        · exact absurd q g

/-- File 11: the destination hint of a record. -/
theorem hintOf_some (b : Byte) (x : Option (Fin 64)) : hintOf b = some x ↔
    (b = 0xFF ∧ x = none) ∨ ∃ d : Fin 64, b.toNat = d.val ∧ x = some d := by
  unfold hintOf
  have e : b = 0xFF ↔ b.toNat = 255 := by rw [← BitVec.toNat_inj]; rfl
  rw [e]
  by_cases h : b.toNat = 255
  · rw [if_pos (beq_iff_eq.2 h), Option.some.injEq]
    constructor
    · rintro rfl; exact .inl ⟨h, rfl⟩
    · rintro (⟨-, rfl⟩ | ⟨d, hd, -⟩)
      · rfl
      · have := d.isLt; omega
  · rw [if_neg (fun q => h (beq_iff_eq.1 q))]
    by_cases g : b.toNat < 64
    · rw [dif_pos g, Option.some.injEq]
      constructor
      · rintro rfl; exact .inr ⟨⟨b.toNat, g⟩, rfl, rfl⟩
      · rintro (⟨q, -⟩ | ⟨d, hd, rfl⟩)
        · exact absurd q h
        · congr 1; exact Fin.ext hd
    · rw [dif_neg g]
      constructor
      · intro q; cases q
      · rintro (⟨q, -⟩ | ⟨d, hd, -⟩)
        · exact absurd q h
        · have := d.isLt; omega

/-- R85: a seal of 11 bytes of a record. -/
theorem sealValueOf_some (b : List Byte) (i : Nat) (hi : i + 11 ≤ b.length) (v : Text) :
    sealValueOf ((b.drop i).take 11) = some v ↔ SealAt b i v := by
  have hb : (b.drop i) = b.getD i 0 :: b.drop (i + 1) := by
    rw [List.drop_eq_getElem_cons (by omega)]; simp [List.getD, List.getElem?_eq_getElem (show i < b.length by omega)]
  rw [hb, List.take_succ_cons]
  unfold sealValueOf SealAt
  generalize b.getD i 0 = n
  dsimp only
  have tk : ∀ m ≤ 10, (List.take 10 (b.drop (i+1))).take m = (b.drop (i+1)).take m := fun m h => by
    rw [List.take_take, Nat.min_eq_left h]
  have ln : ∀ m ≤ 10, ((b.drop (i+1)).take m).length = m := fun m h => by
    rw [List.length_take, List.length_drop]; omega
  constructor
  · intro h
    split at h
    · rename_i hn
      obtain ⟨h1, h2⟩ : 1 ≤ n.toNat ∧ n.toNat ≤ 10 := by simpa using hn
      rw [tk _ h2, chars_some] at h
      obtain ⟨hw, rfl⟩ := h
      rw [ln _ h2]
      exact ⟨h1, h2, hw, rfl, rfl⟩
    · cases h
  · rintro ⟨h1, h2, hw, hn, hv⟩
    rw [if_pos (by simp [hn, h1, h2]), hn, tk _ h2, ← hv]
    exact (chars_some v v).2 ⟨hw, rfl⟩

/-- R85: the declared seals of a record. -/
theorem sealsOf_some (b : List Byte) (hb : b.length = 120) (n : Nat) (l : List Text) :
    sealsOf n ((b.drop 20).take 11) ((b.drop 31).take 11) = some l ↔
      n = l.length ∧ l.length ≤ 2 ∧ ∀ k v, l[k]? = some v → SealAt b (20 + 11 * k) v := by
  have s0 := fun v => sealValueOf_some b 20 (by omega) v
  have s1 := fun v => sealValueOf_some b 31 (by omega) v
  have cap : ∀ m, n = m + 3 → sealsOf n ((b.drop 20).take 11) ((b.drop 31).take 11) = none := by rintro m rfl; rfl
  match n with
  | 0 =>
    simp only [sealsOf, Option.some.injEq]
    constructor
    · rintro rfl; simp
    · rintro ⟨h, -, -⟩; exact (List.eq_nil_of_length_eq_zero h.symm).symm
  | 1 =>
    simp only [sealsOf, Option.bind_eq_bind, Option.bind_eq_some_iff, Option.pure_def, Option.some.injEq, s0]
    constructor
    · rintro ⟨v, h, rfl⟩
      refine ⟨rfl, by simp, fun k w hk => ?_⟩
      rcases k with _ | k
      · simp only [List.getElem?_cons_zero, Option.some.injEq] at hk; subst hk; exact h
      · simp at hk
    · rintro ⟨h, -, g⟩
      match l, h with
      | [v], _ => exact ⟨v, g 0 v rfl, rfl⟩
  | 2 =>
    simp only [sealsOf, Option.bind_eq_bind, Option.bind_eq_some_iff, Option.pure_def, Option.some.injEq, s0, s1]
    constructor
    · rintro ⟨v, h, w, h', rfl⟩
      refine ⟨rfl, by simp, fun k x hk => ?_⟩
      rcases k with _ | _ | k
      · simp only [List.getElem?_cons_zero, Option.some.injEq] at hk; subst hk; exact h
      · simp only [List.getElem?_cons_zero, List.getElem?_cons_succ, Option.some.injEq] at hk; subst hk; exact h'
      · simp at hk
    · rintro ⟨h, -, g⟩
      match l, h with
      | [v, w], _ => exact ⟨v, g 0 v rfl, w, g 1 w rfl, rfl⟩
  | m + 3 =>
    rw [cap m rfl]
    constructor
    · intro q; cases q
    · rintro ⟨h, h2, -⟩; omega

/-- R85: the prior marks of a record, from the byte at `i` onward. -/
theorem marksOf_some (n : Nat) (v : List Byte) (hv : 5 * n ≤ v.length) (l : List Mark) : marksOf n v = some l ↔
    n = l.length ∧ ∀ k m, l[k]? = some m →
      v.getD (5 * k) 0 = faceByte m.face ∧ (v.getD (5 * k + 1) 0).toNat = m.column ∧ (v.getD (5 * k + 2) 0).toNat = m.row ∧
      v.getD (5 * k + 3) 0 = damageByte m.kind ∧ (v.getD (5 * k + 4) 0).toNat = m.severity ∧
      m.column ≤ 9 ∧ m.row ≤ 2 ∧ 1 ≤ m.severity ∧ m.severity ≤ 7 := by
  induction n generalizing v l with
  | zero =>
    simp only [marksOf, Option.some.injEq]
    constructor
    · rintro rfl; simp
    · rintro ⟨h, -⟩; exact (List.eq_nil_of_length_eq_zero h.symm).symm
  | succ n ih =>
    match v, hv with
    | f :: c :: r :: k :: x :: rest, hv =>
      have ihr := ih rest (by simp only [List.length_cons] at hv; omega)
      simp only [marksOf, Option.bind_eq_bind, Option.bind_eq_some_iff, faceOf_some, damageKindOf_some]
      constructor
      · rintro ⟨face, rfl, kind, rfl, h⟩
        split at h
        · rename_i hc
          obtain ⟨⟨⟨h1, h2⟩, h3⟩, h4⟩ : ((c.toNat ≤ 9 ∧ r.toNat ≤ 2) ∧ 1 ≤ x.toNat) ∧ x.toNat ≤ 7 := by simpa using hc
          obtain ⟨ms, hm, e⟩ := Option.bind_eq_some_iff.1 h
          cases Option.some.inj e
          obtain ⟨q1, q2⟩ := (ihr ms).1 hm
          refine ⟨by simp [q1], fun j m hj => ?_⟩
          rcases j with _ | j
          · simp only [List.getElem?_cons_zero, Option.some.injEq] at hj
            subst hj
            exact ⟨rfl, rfl, rfl, rfl, rfl, h1, h2, h3, h4⟩
          · simp only [List.getElem?_cons_succ] at hj
            have := q2 j m hj
            rw [show 5 * (j + 1) = 5 * j + 5 by ring]
            exact this
        · cases h
      · rintro ⟨hl, h⟩
        match l, hl with
        | m :: ms, hl =>
          obtain ⟨a1, a2, a3, a4, a5, a6, a7, a8, a9⟩ := h 0 m rfl
          change c.toNat = m.column at a2
          change r.toNat = m.row at a3
          change x.toNat = m.severity at a5
          refine ⟨m.face, a1, m.kind, a4, ?_⟩
          rw [if_pos (by simp [a2, a3, a5, a6, a7, a8, a9]), (ihr ms).2 ⟨by simpa using hl, fun j q hj => ?_⟩]
          · rw [a2, a3, a5]; rfl
          · have := h (j + 1) q (by simpa using hj)
            rw [show 5 * (j + 1) = 5 * j + 5 by ring] at this
            exact this

/-- R85: the key of a record. -/
theorem isKey_eq (t : Text) (h : t.length = 11) : isKey t = true ↔ ∀ x ∈ t, Digit x ∨ Letter x := by
  simp [isKey, h, List.all_eq_true, isKeyChar, isDigit_iff, isLetter_iff]

/-- R85: the recorded seal of a record. -/
theorem recordedOf_some (b : List Byte) (hb : b.length = 120) (x : Option SealCheck) :
    recordedOf (b.getD 107 0) (b.getD 108 0) ((b.drop 109).take 11) = some x ↔
      (b.getD 107 0 = 0 ∧ x = none) ∨ ∃ k v, b.getD 107 0 = 1 ∧ SealAt b 109 v ∧ x = some ⟨k, some v⟩ ∧
        b.getD 108 0 = (match k with | .ok => 0 | .near => 1 | .missing => 2 | .mismatch => 3 | .unexpected => 4) := by
  have s := fun v => sealValueOf_some b 109 (by omega) v
  unfold recordedOf
  have e : ∀ y : Byte, (y = 0 ↔ y.toNat = 0) ∧ (y = 1 ↔ y.toNat = 1) := fun y => by
    constructor <;> (rw [← BitVec.toNat_inj]; rfl)
  rw [(e _).1, (e (b.getD 107 0)).2]
  split <;> rename_i h
  · rw [h, Option.some.injEq]
    constructor
    · rintro rfl; exact .inl (by simp)
    · rintro (⟨-, rfl⟩ | ⟨_, _, q, -⟩)
      · rfl
      · cases q
  · rw [h]
    simp only [Option.bind_eq_bind, Option.bind_eq_some_iff, Option.pure_def, Option.some.injEq, s, sealResultOf_some]
    constructor
    · rintro ⟨k, hk, v, hv, rfl⟩; exact .inr ⟨k, v, by simp, hv, rfl, hk⟩
    · rintro (⟨q, -⟩ | ⟨k, v, -, hv, rfl, hk⟩)
      · cases q
      · exact ⟨k, hk, v, hv, rfl⟩
  · rename_i g
    constructor
    · intro q; cases q
    · rintro (⟨q, -⟩ | ⟨_, _, q, -⟩)
      · exact absurd q g
      · exact absurd q h

/-- R85, R86: the record of a BOOKING_DATA. -/
theorem recordOfBytes_some (b : List Byte) (r : Record) : recordOfBytes b = some r ↔ Holds b r := by
  unfold recordOfBytes
  by_cases hb : b.length = 120
  swap
  · rw [if_pos (by simpa using hb)]
    constructor
    · intro q; cases q
    · intro q; exact absurd q.1 hb
  rw [if_neg (by simpa using hb)]
  have m0 := fun n (hn : n ≤ 12) l => marksOf_some n ((b.drop 43).take 60) (by rw [List.length_take, List.length_drop, hb]; omega) l
  have gd : ∀ i < 60, ((b.drop 43).take 60).getD i 0 = b.getD (43 + i) 0 := fun i hi => by
    rw [List.getD, List.getElem?_take_of_lt hi, List.getElem?_drop]; rfl
  have o : ∀ j n : Nat, 43 + j + 5 * n = 43 + (5 * n + j) := fun j n => by omega
  have kk := isKey_eq (b.take 11) (by rw [List.length_take, hb]; rfl)
  simp (maxSteps := 2000000) only [Option.bind_eq_bind, Option.bind_eq_some_iff, Option.pure_def, Option.some.injEq, Option.ite_none_right_eq_some,
    Option.bind_some, Option.bind_none, bookingKindOf_some, slotOf_some, chars_some, lengthClassOf_some, sealsOf_some b hb, hintOf_some, progressOf_some,
    recordedOf_some b hb, List.drop_zero, kk]
  constructor
  · rintro ⟨h1, kind, h2, slot, h3, op, ⟨h4, rfl⟩, len, h5, seals, ⟨h6, h7, h8⟩, h9, prior, h10, h11, hint, h12, prog, h13,
      h14, rec, h15, rfl⟩
    obtain ⟨p1, p2⟩ := (m0 _ h9 _).1 h10
    have h9' : (b.getD 42 0).toNat ≤ 12 := h9
    refine ⟨hb, rfl, h1, h2, h3, rfl, h4, h5, h6, h7, h8, p1, p1 ▸ h9, fun n m hn => ?_, ?_, h12, h13, rfl, h14, h15⟩
    · change prior[n]? = some m at hn
      have hlt : n < prior.length := by
        by_contra q; rw [List.getElem?_eq_none (by omega)] at hn; cases hn
      have := p2 n m hn
      rw [gd _ (by omega), gd _ (by omega), gd _ (by omega), gd _ (by omega), gd _ (by omega)] at this
      rw [o 1, o 2, o 3, o 4]
      exact this
    · revert h11
      show (b.getD 103 0).toNat ≤ 3 → (b.getD 103 0).toNat = (if ((b.getD 103 0).toNat % 2 == 1) = true then 1 else 0) + (if decide (2 ≤ (b.getD 103 0).toNat) = true then 2 else 0)
      generalize (b.getD 103 0).toNat = n
      intro h
      interval_cases n <;> rfl
  · rintro ⟨-, h0, h1, h2, h3, h4, h4', h5, h6, h7, h8, p1, h9, h10, h11, h12, h13, h14, h14', h15⟩
    replace p1 : (b.getD 42 0).toNat = r.prior.length := p1
    replace h14 : (b.getD 106 0).toNat = r.remaining := h14
    replace h11 : (b.getD 103 0).toNat = (if r.customsHold then 1 else 0) + (if r.lineHold then 2 else 0) := h11
    refine ⟨h0 ▸ h1, r.kind, h2, r.slot, h3, r.operator, ⟨h4 ▸ h4', h4⟩, r.length, h5, r.seals, ⟨h6, h7, h8⟩,
      by show (b.getD 42 0).toNat ≤ 12; omega, r.prior, ?_, ?_, r.hint, h12, r.progress, h13, by omega, r.recorded, h15, ?_⟩
    · refine (m0 _ (by omega) _).2 ⟨p1, fun n m hn => ?_⟩
      have hlt : n < r.prior.length := by
        by_contra q; rw [List.getElem?_eq_none (by omega)] at hn; cases hn
      rw [gd _ (by omega), gd _ (by omega), gd _ (by omega), gd _ (by omega), gd _ (by omega)]
      have := h10 n m hn
      rw [o 1, o 2, o 3, o 4] at this
      exact this
    · rw [h11]; split <;> split <;> simp
    · rw [h11, h14, ← h0]
      obtain ⟨_, _, _, _, _, _, _, c, l, _, _, _, _⟩ := r
      cases c <;> cases l <;> simp

end Sys2Proof.Laws
end

