-- ==== Sys2Proof/Laws/PerInstr.lean ====
section
/-! SUPPORT. One lemma per command: only the rows that carry a length or a code of their own can be ill-formed. -/

namespace Sys2Proof.Laws.IllFormed

/-- Whether the command's row fixes the length of an operand, or leaves values of an operand to other rows. -/
def checked : Instr → Bool
  | .laneFrameReceived _ _ => true
  | .readPlate _ => false
  | .readTag _ => false
  | .readUnit _ => false
  | .readSeal _ => false
  | .damageMarks _ => false
  | .scanEnd _ => false
  | .kioskEntry _ => false
  | .stationHello _ => false
  | .stationStatus _ => false
  | .signAck _ => false
  | .ticketAck _ => false
  | .consoleTake _ => false
  | .consoleRelease _ => false
  | .consoleOutput _ => false
  | .signalLoss _ => false
  | .signalDetect _ => false
  | .errorWindowExpiry _ => false
  | .transmitEnd _ => false
  | .stationSilenceExpiry _ _ => false
  | .inputLevelChange _ _ _ => false
  | .inputFilterExpiry _ _ => false
  | .approachExpiry _ => false
  | .identificationExpiry _ => false
  | .rulingExpiry _ => false
  | .bookingData _ _ => true
  | .bookingNone _ _ => true
  | .fetchTimeout _ => false
  | .bookingRecall _ _ => true
  | .flush _ => false
  | .clockMinute => false
  | .timeSet _ _ _ => false
  | .visitRuling _ _ _ _ => false
  | .arrivedAt _ _ => false
  | .signAckExpiry _ _ => false
  | .ticketAckExpiry _ _ _ => false
  | .gateFrameDiscarded _ => false
  | .gateFrameUnknownKind _ _ => true
  | .heartbeat _ => false
  | .heartbeatExpiry => false
  | .uplinkLinkDown => false
  | .uplinkLinkUp => false
  | .reportSent => false
  | .tableWriteStationMap _ _ _ _ _ _ _ _ _ _ => false
  | .tableWriteSlotWindows _ _ _ _ _ _ _ => false
  | .tableWriteDestinations _ _ _ _ _ _ _ _ => false
  | .tableWriteDefaults _ _ _ => false
  | .tableWritePhrases _ _ _ => false
  | .tableWriteDamageWeights _ _ _ => false
  | .tableWriteUncachedPrefixes _ _ _ _ _ => false
  | .tableWriteParameters _ _ _ _ => true
  | .tableWriteInputEntry _ _ _ _ _ _ => false
  | .tableWriteTransparency _ _ => false
  | .tableWrite _ _ _ _ => true
  | .tableRead _ _ _ => false
  | .counterRead _ _ _ => false
  | .laneCommandOpen _ _ => false
  | .laneCommandClose _ _ => false
  | .laneCommandReset _ _ => false
  | .outputSet _ _ _ _ _ => false
  | .resetDynamic _ => false
  | .resetAll _ => false
  | .powerOn _ _ => false
  | .laneCommandBadValue _ _ => true
  | .partCommandBadValue _ _ => true

/-- A command that is ill-formed is one of a row with a check. -/
def Statement (c : Instr) : Prop := c.wf = false → checked c = true

theorem laneFrameReceived : ∀ a0 a1, Statement (.laneFrameReceived a0 a1) := fun _ _ _ => rfl

theorem readPlate : ∀ a0, Statement (.readPlate a0) := fun _ h => nomatch (h : true = false)

theorem readTag : ∀ a0, Statement (.readTag a0) := fun _ h => nomatch (h : true = false)

theorem readUnit : ∀ a0, Statement (.readUnit a0) := fun _ h => nomatch (h : true = false)

theorem readSeal : ∀ a0, Statement (.readSeal a0) := fun _ h => nomatch (h : true = false)

theorem damageMarks : ∀ a0, Statement (.damageMarks a0) := fun _ h => nomatch (h : true = false)

theorem scanEnd : ∀ a0, Statement (.scanEnd a0) := fun _ h => nomatch (h : true = false)

theorem kioskEntry : ∀ a0, Statement (.kioskEntry a0) := fun _ h => nomatch (h : true = false)

theorem stationHello : ∀ a0, Statement (.stationHello a0) := fun _ h => nomatch (h : true = false)

theorem stationStatus : ∀ a0, Statement (.stationStatus a0) := fun _ h => nomatch (h : true = false)

theorem signAck : ∀ a0, Statement (.signAck a0) := fun _ h => nomatch (h : true = false)

theorem ticketAck : ∀ a0, Statement (.ticketAck a0) := fun _ h => nomatch (h : true = false)

theorem consoleTake : ∀ a0, Statement (.consoleTake a0) := fun _ h => nomatch (h : true = false)

theorem consoleRelease : ∀ a0, Statement (.consoleRelease a0) := fun _ h => nomatch (h : true = false)

theorem consoleOutput : ∀ a0, Statement (.consoleOutput a0) := fun _ h => nomatch (h : true = false)

theorem signalLoss : ∀ a0, Statement (.signalLoss a0) := fun _ h => nomatch (h : true = false)

theorem signalDetect : ∀ a0, Statement (.signalDetect a0) := fun _ h => nomatch (h : true = false)

theorem errorWindowExpiry : ∀ a0, Statement (.errorWindowExpiry a0) := fun _ h => nomatch (h : true = false)

theorem transmitEnd : ∀ a0, Statement (.transmitEnd a0) := fun _ h => nomatch (h : true = false)

theorem stationSilenceExpiry : ∀ a0 a1, Statement (.stationSilenceExpiry a0 a1) := fun _ _ h => nomatch (h : true = false)

theorem inputLevelChange : ∀ a0 a1 a2, Statement (.inputLevelChange a0 a1 a2) := fun _ _ _ h => nomatch (h : true = false)

theorem inputFilterExpiry : ∀ a0 a1, Statement (.inputFilterExpiry a0 a1) := fun _ _ h => nomatch (h : true = false)

theorem approachExpiry : ∀ a0, Statement (.approachExpiry a0) := fun _ h => nomatch (h : true = false)

theorem identificationExpiry : ∀ a0, Statement (.identificationExpiry a0) := fun _ h => nomatch (h : true = false)

theorem rulingExpiry : ∀ a0, Statement (.rulingExpiry a0) := fun _ h => nomatch (h : true = false)

theorem bookingData : ∀ a0 a1, Statement (.bookingData a0 a1) := fun _ _ _ => rfl

theorem bookingNone : ∀ a0 a1, Statement (.bookingNone a0 a1) := fun _ _ _ => rfl

theorem fetchTimeout : ∀ a0, Statement (.fetchTimeout a0) := fun _ h => nomatch (h : true = false)

theorem bookingRecall : ∀ a0 a1, Statement (.bookingRecall a0 a1) := fun _ _ _ => rfl

theorem flush : ∀ a0, Statement (.flush a0) := fun _ h => nomatch (h : true = false)

theorem clockMinute : Statement .clockMinute := fun h => nomatch (h : true = false)

theorem timeSet : ∀ a0 a1 a2, Statement (.timeSet a0 a1 a2) := fun _ _ _ h => nomatch (h : true = false)

theorem visitRuling : ∀ a0 a1 a2 a3, Statement (.visitRuling a0 a1 a2 a3) := fun _ _ _ _ h => nomatch (h : true = false)

theorem arrivedAt : ∀ a0 a1, Statement (.arrivedAt a0 a1) := fun _ _ h => nomatch (h : true = false)

theorem signAckExpiry : ∀ a0 a1, Statement (.signAckExpiry a0 a1) := fun _ _ h => nomatch (h : true = false)

theorem ticketAckExpiry : ∀ a0 a1 a2, Statement (.ticketAckExpiry a0 a1 a2) := fun _ _ _ h => nomatch (h : true = false)

theorem gateFrameDiscarded : ∀ a0, Statement (.gateFrameDiscarded a0) := fun _ h => nomatch (h : true = false)

theorem gateFrameUnknownKind : ∀ a0 a1, Statement (.gateFrameUnknownKind a0 a1) := fun _ _ _ => rfl

theorem heartbeat : ∀ a0, Statement (.heartbeat a0) := fun _ h => nomatch (h : true = false)

theorem heartbeatExpiry : Statement .heartbeatExpiry := fun h => nomatch (h : true = false)

theorem uplinkLinkDown : Statement .uplinkLinkDown := fun h => nomatch (h : true = false)

theorem uplinkLinkUp : Statement .uplinkLinkUp := fun h => nomatch (h : true = false)

theorem reportSent : Statement .reportSent := fun h => nomatch (h : true = false)

theorem tableWriteStationMap : ∀ a0 a1 a2 a3 a4 a5 a6 a7 a8 a9, Statement (.tableWriteStationMap a0 a1 a2 a3 a4 a5 a6 a7 a8 a9) := fun _ _ _ _ _ _ _ _ _ _ h => nomatch (h : true = false)

theorem tableWriteSlotWindows : ∀ a0 a1 a2 a3 a4 a5 a6, Statement (.tableWriteSlotWindows a0 a1 a2 a3 a4 a5 a6) := fun _ _ _ _ _ _ _ h => nomatch (h : true = false)

theorem tableWriteDestinations : ∀ a0 a1 a2 a3 a4 a5 a6 a7, Statement (.tableWriteDestinations a0 a1 a2 a3 a4 a5 a6 a7) := fun _ _ _ _ _ _ _ _ h => nomatch (h : true = false)

theorem tableWriteDefaults : ∀ a0 a1 a2, Statement (.tableWriteDefaults a0 a1 a2) := fun _ _ _ h => nomatch (h : true = false)

theorem tableWritePhrases : ∀ a0 a1 a2, Statement (.tableWritePhrases a0 a1 a2) := fun _ _ _ h => nomatch (h : true = false)

theorem tableWriteDamageWeights : ∀ a0 a1 a2, Statement (.tableWriteDamageWeights a0 a1 a2) := fun _ _ _ h => nomatch (h : true = false)

theorem tableWriteUncachedPrefixes : ∀ a0 a1 a2 a3 a4, Statement (.tableWriteUncachedPrefixes a0 a1 a2 a3 a4) := fun _ _ _ _ _ h => nomatch (h : true = false)

theorem tableWriteParameters : ∀ a0 a1 a2 a3, Statement (.tableWriteParameters a0 a1 a2 a3) := fun _ _ _ _ _ => rfl

theorem tableWriteInputEntry : ∀ a0 a1 a2 a3 a4 a5, Statement (.tableWriteInputEntry a0 a1 a2 a3 a4 a5) := fun _ _ _ _ _ _ h => nomatch (h : true = false)

theorem tableWriteTransparency : ∀ a0 a1, Statement (.tableWriteTransparency a0 a1) := fun _ _ h => nomatch (h : true = false)

theorem tableWrite : ∀ a0 a1 a2 a3, Statement (.tableWrite a0 a1 a2 a3) := fun _ _ _ _ _ => rfl

theorem tableRead : ∀ a0 a1 a2, Statement (.tableRead a0 a1 a2) := fun _ _ _ h => nomatch (h : true = false)

theorem counterRead : ∀ a0 a1 a2, Statement (.counterRead a0 a1 a2) := fun _ _ _ h => nomatch (h : true = false)

theorem laneCommandOpen : ∀ a0 a1, Statement (.laneCommandOpen a0 a1) := fun _ _ h => nomatch (h : true = false)

theorem laneCommandClose : ∀ a0 a1, Statement (.laneCommandClose a0 a1) := fun _ _ h => nomatch (h : true = false)

theorem laneCommandReset : ∀ a0 a1, Statement (.laneCommandReset a0 a1) := fun _ _ h => nomatch (h : true = false)

theorem outputSet : ∀ a0 a1 a2 a3 a4, Statement (.outputSet a0 a1 a2 a3 a4) := fun _ _ _ _ _ h => nomatch (h : true = false)

theorem resetDynamic : ∀ a0, Statement (.resetDynamic a0) := fun _ h => nomatch (h : true = false)

theorem resetAll : ∀ a0, Statement (.resetAll a0) := fun _ h => nomatch (h : true = false)

theorem powerOn : ∀ a0 a1, Statement (.powerOn a0 a1) := fun _ _ h => nomatch (h : true = false)

theorem laneCommandBadValue : ∀ a0 a1, Statement (.laneCommandBadValue a0 a1) := fun _ _ _ => rfl

theorem partCommandBadValue : ∀ a0 a1, Statement (.partCommandBadValue a0 a1) := fun _ _ _ => rfl

end Sys2Proof.Laws.IllFormed
end

