-- ==== Sys2Proof/Laws/Recall.lean ====
section
/-! SUPPORT. Recalls (R108 to R112) and FLUSH (R107): what the test of an entry under recall, the end of a recall and a FLUSH can
do, said once with `recallTested`, `recallEnded` and `reportsMade` of Safety.lean. -/

open Sys2Proof Sys2Proof.Machine Sys2Proof.Safety
namespace Sys2Proof.Laws

/-! ### The end of a recall (R112) -/

theorem copies_any (s : State) (f : PrivateCopy → Bool) :
    s.cache.copies.toList.any (fun c => c.any f) = true ↔ ∃ p : Fin 48, ∃ c, s.cache.copies[p] = some c ∧ f c = true := by
  rw [List.any_eq_true]
  constructor
  · rintro ⟨x, hx, hy⟩
    rw [Vector.mem_toList_iff, Vector.mem_iff_getElem] at hx
    obtain ⟨i, hi, rfl⟩ := hx
    rw [Option.any_eq_true] at hy
    obtain ⟨c, hc, h⟩ := hy
    exact ⟨⟨i, hi⟩, c, hc, h⟩
  · rintro ⟨p, c, hc, h⟩
    refine ⟨some c, ?_, by simpa using h⟩
    rw [Vector.mem_toList_iff]; exact hc ▸ Vector.getElem_mem _

theorem noCopy_any (s : State) (key : Text) (h : NoCopyRecalled s key) :
    s.cache.copies.toList.any (fun c => c.any fun c => c.key == key && c.recalled) = false := by
  rw [Bool.eq_false_iff]
  intro g
  obtain ⟨p, c, hc, hf⟩ := (copies_any s _).1 g
  rw [Bool.and_eq_true, beq_iff_eq] at hf
  have := h p c hc hf.1
  rw [hf.2] at this
  cases this

/-- R112: where no recall is about to be reported done, the test of one does nothing. -/
theorem checkRecall_waits (w : Work) (r : RecallRec) (h : RecallsWait w.st) : w.checkRecall r = w := by
  unfold Work.checkRecall
  rw [if_neg]
  intro g
  rw [Bool.and_eq_true, List.any_eq_true, Bool.not_eq_true'] at g
  obtain ⟨⟨q, hq, hk⟩, hn⟩ := g
  simp only [Bool.and_eq_true, beq_iff_eq, Bool.not_eq_true'] at hk
  rcases h q hq with e | e | ⟨p, c, hc, e1, e2⟩
  · rw [e] at hk; exact absurd hk.1.2 (by simp)
  · rw [e] at hk; exact absurd hk.2 (by simp)
  · rw [Bool.eq_false_iff] at hn
    exact hn ((copies_any w.st _).2 ⟨p, c, hc, by simp [e1, e2, hk.1.1]⟩)

/-- R95, R112: the end of an event of the cache with no recall about to be reported done. -/
theorem finish_waits (w : Work) (h : RecallsWait w.st) :
    w.finish = if w.retry then { w.st.cache.waitList.foldl Work.retryOne w with retry := false } else w := by
  have e : ∀ L : List RecallRec, L.foldl Work.checkRecall w = w := by
    intro L
    induction L with
    | nil => rfl
    | cons a L ih => rw [List.foldl_cons, checkRecall_waits w a h, ih]
  unfold Work.finish
  rw [e]

/-- R95, R112: the end of an event of the cache where the one recall outstanding ends. -/
theorem finish_done (w : Work) (key : Text) (released : Bool) (h : w.st.cache.recalls = [⟨key, released, false, false⟩])
    (hc : NoCopyRecalled w.st key) :
    w.finish =
      let v : Work := { w with st := recallEnded w.st key released }
      if w.retry then { v.st.cache.waitList.foldl Work.retryOne v with retry := false } else v := by
  have e : w.checkRecall ⟨key, released, false, false⟩ = { w with st := recallEnded w.st key released } := by
    unfold Work.checkRecall
    rw [if_pos (by rw [noCopy_any w.st key hc, h]; simp), make_recallDone]
    unfold recallEnded
    have hr : cacheRoom (w.upd fun s => s.updCache fun c =>
        { c with recalls := c.recalls.map fun q => if q.key == key then { q with done := true } else q }).st =
        cacheRoom w.st := cacheRoom_of _ _ rfl rfl rfl
    rw [hr]
    have hm : (w.upd fun s => s.updCache fun c =>
        { c with recalls := c.recalls.map fun q => if q.key == key then { q with done := true } else q }).st =
        { w.st with cache := { w.st.cache with recalls := [⟨key, released, false, true⟩] } } := by
      simp [Work.upd, State.updCache, h]
    rw [hm]
    unfold reportsMade
    have hr2 : cacheRoom { w.st with cache := { w.st.cache with recalls := [⟨key, released, false, true⟩] } } =
      cacheRoom w.st := cacheRoom_of _ _ rfl rfl rfl
    rw [hr2]
    simp [State.updCache, Work.upd]
  unfold Work.finish
  rw [h, List.foldl_cons, List.foldl_nil, e]

/-! ### The test of an entry under recall (R109, R111) -/

theorem put_put (x : CacheSet) (y : Fin 2) (a b : Entry) : (x.put y a).put y b = x.put y b := by
  unfold CacheSet.put; split <;> rfl

theorem put_get (x : CacheSet) (y : Fin 2) : x.put y (x.get y) = x := by
  unfold CacheSet.put CacheSet.get; split <;> rfl

theorem entry_same (s : State) (i : Fin 1024) (y : Fin 2) (e : Entry) (h : s.entry i y = e) :
    (upd s.cache.sets i fun c => c.put y e) = s.cache.sets := by
  subst h
  unfold State.entry upd
  dsimp only
  rw [put_get]
  simp

theorem updEntry_sets (s : State) (i : Fin 1024) (y : Fin 2) (f : Entry → Entry) :
    s.updEntry i y f = { s with cache := { s.cache with sets := upd s.cache.sets i fun c => c.put y (f (s.entry i y)) } } := rfl

theorem upd_upd {α : Type} {n : Nat} (v : Vector α n) (i : Fin n) (f g : α → α) :
    upd (upd v i f) i g = upd v i fun x => g (f x) := by
  simp [upd]

/-- What `recallTested` puts in the place of the entry and of the recall's record does not depend on what stands there. -/
theorem recallTested_over (s : State) (i : Fin 1024) (y : Fin 2) (key : Text) (released : Bool) (e f : Entry)
    (rs : List RecallRec) :
    recallTested { s with cache := { s.cache with sets := upd s.cache.sets i fun c => c.put y f, recalls := rs } }
      i y key released e = recallTested s i y key released e := by
  have hr : cacheRoom { s with cache := { s.cache with sets := upd s.cache.sets i fun c => c.put y f, recalls := rs } } =
    cacheRoom s := cacheRoom_of _ _ rfl rfl rfl
  unfold recallTested
  dsimp only
  rw [hr, upd_upd]
  simp only [put_put]
  unfold reportsMade
  rw [hr]

theorem entry_put (s : State) (i : Fin 1024) (y : Fin 2) (e : Entry) (rs : List RecallRec) :
    State.entry { s with cache := { s.cache with sets := upd s.cache.sets i fun c => c.put y e, recalls := rs } } i y = e := by
  unfold State.entry
  simp only [Fin.getElem_fin, upd_getElem, if_true]
  unfold CacheSet.put CacheSet.get
  split <;> simp_all

/-- R111: an entry under the one recall outstanding made INVALID. -/
theorem invalidate_eq (w : Work) (i : Fin 1024) (y : Fin 2) (key : Text) (released : Bool)
    (hk : (w.st.entry i y).key = some key) (hr : w.st.cache.recalls = [⟨key, released, true, false⟩]) :
    w.invalidate i y = { w with
      st := { w.st with cache := { w.st.cache with
        sets := upd w.st.cache.sets i fun c => c.put y {}, recalls := [⟨key, released, false, false⟩] } }
      retry := true } := by
  unfold Work.invalidate Work.entryPartDone Work.upd
  simp [hk, State.updCache, updEntry_sets, hr]

theorem recallSettled_stays (n : Nat) (i : Fin 1024) (y : Fin 2) (key : Text) (released : Bool) (e : Entry)
    (h : e.pins ≠ 0 ∨ e.owed ≠ .none) : recallSettled n i y key released e = (e, []) := if_pos h

theorem recallSettled_clean (n : Nat) (i : Fin 1024) (y : Fin 2) (key : Text) (released : Bool) (e : Entry)
    (hp : e.pins = 0) (ho : e.owed = .none) (hd : e.dirty = false) :
    recallSettled n i y key released e = ({}, [recallDone key released]) := by simp [recallSettled, hp, ho, hd]

theorem recallSettled_dirty (n : Nat) (i : Fin 1024) (y : Fin 2) (key : Text) (released : Bool) (e : Entry) (r : Record)
    (hp : e.pins = 0) (ho : e.owed = .none) (hd : e.dirty = true) (hr : e.record = some r) :
    recallSettled n i y key released e =
      if 0 < n then ({}, [(.writeback i y, .bookingWriteback r), recallDone key released])
      else ({ e with owed := .writeback }, [(.writeback i y, .bookingWriteback r)]) := by
  simp [recallSettled, hp, ho, hd, hr]

/-- R95, R109, R111, R112: the test of an entry under the one recall outstanding, and what follows in the event. -/
theorem settle_recall (w : Work) (i : Fin 1024) (y : Fin 2) (key : Text) (released : Bool) (e : Entry)
    (he : w.st.entry i y = e) (hs : e.state = .valid) (hm : e.mark = .pending) (hk : e.key = some key)
    (hd : e.dirty = true → e.record.isSome = true)
    (hr : w.st.cache.recalls = [⟨key, released, true, false⟩]) (hc : NoCopyRecalled w.st key) :
    ∃ v : Work, v.st = recallTested w.st i y key released e ∧ v.touched = w.touched ∧
      (w.settleEntry i y).finish = if v.retry then { v.st.cache.waitList.foldl Work.retryOne v with retry := false } else v := by
  have stays : ∀ (u : Work), u.st.cache.recalls = [⟨key, released, true, false⟩] → u.finish =
      if u.retry then { u.st.cache.waitList.foldl Work.retryOne u with retry := false } else u :=
    fun u hu => finish_waits u (by unfold RecallsWait; rw [hu]; simp)
  unfold Work.settleEntry
  rw [he]
  by_cases hp : e.pins ≠ 0 ∨ e.owed ≠ .none
  · refine ⟨w, ?_, rfl, ?_⟩
    · unfold recallTested
      rw [recallSettled_stays _ _ _ _ _ _ hp]
      dsimp only
      rw [reportsMade_nil, entry_same _ _ _ _ he, if_neg (by rw [hs]; simp), ← hr]
    · dsimp only
      rw [if_neg]
      · exact stays w hr
      · intro g
        simp only [Work.unpinnedRecall, Bool.and_eq_true, beq_iff_eq] at g
        rcases hp with h | h
        · exact h g.1.2
        · exact h g.2
  · rw [not_or, not_ne_iff, not_ne_iff] at hp
    have hu : (Work.unpinnedRecall e && e.owed == .none) = true := by
      simp [Work.unpinnedRecall, hs, hm, hp.1, hp.2]
    dsimp only
    rw [if_pos hu]
    cases hdy : e.dirty with
    | false =>
      rw [if_neg (by simp), invalidate_eq w i y key released (by rw [he]; exact hk) hr]
      generalize hS : ({ w.st with cache := { w.st.cache with
        sets := upd w.st.cache.sets i fun c => c.put y {}, recalls := [⟨key, released, false, false⟩] } } : State) = S
      have hcS : NoCopyRecalled S key := by rw [← hS]; exact hc
      have hroom : cacheRoom S = cacheRoom w.st := by rw [← hS]; exact cacheRoom_of _ _ rfl rfl rfl
      refine ⟨{ w with st := recallEnded S key released, retry := true }, ?_, rfl, ?_⟩
      · unfold recallTested
        rw [recallSettled_clean _ _ _ _ _ _ hp.1 hp.2 hdy]
        unfold recallEnded
        dsimp only
        unfold reportsMade
        simp only [hroom]
        rw [← hS]
        rfl
      · rw [finish_done _ key released (by show S.cache.recalls = _; rw [← hS]) hcS]
    | true =>
      rw [if_pos rfl]
      obtain ⟨r, hrec⟩ := Option.isSome_iff_exists.1 (hd hdy)
      generalize hS : (w.st.updEntry i y fun e => { e with owed := .writeback } : State) = S
      have hW : (w.upd fun s => s.updEntry i y fun e => { e with owed := .writeback }) = { w with st := S } := by
        rw [← hS]; rfl
      rw [hW]
      have Sent : S.entry i y = { e with owed := .writeback } := by rw [← hS, entry_upd, if_pos rfl, he]
      have Srec : S.cache.recalls = [⟨key, released, true, false⟩] := by rw [← hS]; exact hr
      have hroom : cacheRoom S = cacheRoom w.st := by rw [← hS]; exact cacheRoom_of _ _ rfl rfl rfl
      by_cases g : 0 < cacheRoom w.st
      · rw [make_room _ _ (by show 0 < cacheRoom S; omega)]
        have hA : Work.acceptOwed { w with st := S } (.writeback i y) = (Work.invalidate { w with
            st := (S.accept (.bookingWriteback r)).updEntry i y fun e => { e with owed := .none, dirty := false } } i y) := by
          unfold Work.acceptOwed Work.acceptEntry
          simp only [Sent, hrec]
          rw [if_pos (by simp [Work.unpinnedRecall, hs, hm, hp.1])]
          rfl
        rw [hA, accept_eq _ (.writeback i y) _ (by omega)]
        generalize hT : ((reportsMade S [(.writeback i y, .bookingWriteback r)]).updEntry i y
          fun e => { e with owed := .none, dirty := false } : State) = T
        have Tkey : (T.entry i y).key = some key := by
          rw [← hT, entry_upd, if_pos rfl]
          show (S.entry i y).key = _
          rw [Sent]; exact hk
        rw [invalidate_eq { w with st := T } i y key released Tkey (by rw [← hT]; exact Srec)]
        generalize hV : ({ T with cache := { T.cache with
          sets := upd T.cache.sets i fun c => c.put y {}, recalls := [⟨key, released, false, false⟩] } } : State) = V
        have hcV : NoCopyRecalled V key := by rw [← hV, ← hT, ← hS]; exact hc
        have vroom : cacheRoom V = cacheRoom w.st - 1 := by
          have : cacheRoom V = cacheRoom (reportsMade S [(.writeback i y, .bookingWriteback r)]) := by
            rw [← hV, ← hT]; exact cacheRoom_of _ _ rfl rfl rfl
          rw [this, cacheRoom_made, hroom]; rfl
        refine ⟨{ w with st := recallEnded V key released, retry := true }, ?_, rfl, ?_⟩
        · unfold recallTested
          rw [recallSettled_dirty _ _ _ _ _ _ r hp.1 hp.2 hdy hrec, if_pos g]
          dsimp only
          simp only [if_true, List.length_cons, List.length_nil]
          rw [show reportsMade w.st [(Owed.writeback i y, Report.bookingWriteback r), recallDone key released] =
            reportsMade (reportsMade w.st [(Owed.writeback i y, Report.bookingWriteback r)]) [recallDone key released] by
              rw [reportsMade_append]; rfl]
          unfold recallEnded
          rw [vroom]
          have e1 : (0 < cacheRoom w.st - 1) ↔ 0 + 1 + 1 ≤ cacheRoom w.st := by omega
          simp only [e1]
          have e2 : ∀ (s : State) c rs os, reportsMade { s with cache := { s.cache with sets := c, recalls := rs } } os =
              { reportsMade s os with cache := { (reportsMade s os).cache with sets := c, recalls := rs } } := by
            intro s c rs os; rfl
          rw [← hV, e2, ← hT, updEntry_sets]
          have e3 : ∀ (s : State) c os, reportsMade { s with cache := { s.cache with sets := c } } os =
              { reportsMade s os with cache := { (reportsMade s os).cache with sets := c } } := by
            intro s c os; rfl
          rw [e3, ← hS, updEntry_sets, e3, e3]
          dsimp only
          have e4 : ∀ (s : State) os, (reportsMade s os).cache.sets = s.cache.sets := fun _ _ => rfl
          simp only [upd_upd, put_put, e4]
          rfl
        · rw [finish_done _ key released (by show V.cache.recalls = _; rw [← hV]) hcV]
      · rw [make_waits _ _ (.bookingWriteback r) (by show cacheRoom S = 0; omega)]
        refine ⟨{ w with st := reportsMade S [(.writeback i y, .bookingWriteback r)] }, ?_, rfl, ?_⟩
        · unfold recallTested
          rw [recallSettled_dirty _ _ _ _ _ _ r hp.1 hp.2 hdy hrec, if_neg g]
          dsimp only
          rw [if_neg (show ¬ e.state = .invalid by rw [hs]; simp), ← hS, updEntry_sets, he, ← hr]
          rfl
        · exact stays _ Srec

/-! ### FLUSH (R107) -/

theorem make_flushDone (w : Work) : w.make .flushDone = { w with st := reportsMade w.st [(.flushDone, .flushDone)] } := by
  by_cases g : 0 < cacheRoom w.st
  · rw [make_room _ _ g, ← accept_eq _ .flushDone _ g]; rfl
  · rw [make_waits _ _ .flushDone (by omega)]

/-- R107: an entry that a FLUSH writes back. -/
abbrev writesBack (s : State) (x : Fin 1024 × Fin 2) : Bool :=
  (s.entry x.1 x.2).state == .valid && (s.entry x.1 x.2).dirty && (s.entry x.1 x.2).owed == .none

/-- R107: the write-back of one entry. -/
abbrev writebackOf (s : State) (x : Fin 1024 × Fin 2) : Option (Owed × Report) :=
  (s.entry x.1 x.2).record.map fun r => (.writeback x.1 x.2, .bookingWriteback r)

theorem age_upd (s : State) (i : Fin 1024) (y : Fin 2) (f : Entry → Entry) (j : Fin 1024) :
    (s.updEntry i y f).cache.sets[j].age = s.cache.sets[j].age := by
  rw [updEntry_sets]
  simp only [Fin.getElem_fin, upd_getElem]
  split
  · rename_i h; unfold CacheSet.put; split <;> simp [h]
  · rfl

/-- R107: the entries of a list examined by a FLUSH. -/
theorem flush_fold (L : List (Fin 1024 × Fin 2)) (hn : L.Nodup) (w : Work)
    (hL : ∀ x ∈ L, writesBack w.st x = true → (w.st.entry x.1 x.2).record.isSome = true ∧
      ((w.st.entry x.1 x.2).mark = .pending → (w.st.entry x.1 x.2).pins ≠ 0)) :
    let W := L.filter (writesBack w.st)
    let v := L.foldl (fun w x => w.flushEntry x.1 x.2) w
    v.retry = w.retry ∧ v.touched = w.touched ∧
    v.st = { reportsMade w.st (W.filterMap (writebackOf w.st)) with
      cache := { (reportsMade w.st (W.filterMap (writebackOf w.st))).cache with sets := v.st.cache.sets } } ∧
    (∀ j : Fin 1024, v.st.cache.sets[j].age = w.st.cache.sets[j].age) ∧
    ∀ j z, v.st.entry j z =
      if (j, z) ∈ W.take (cacheRoom w.st) then { w.st.entry j z with dirty := false }
      else if (j, z) ∈ W then { w.st.entry j z with owed := .writeback }
      else w.st.entry j z := by
  induction L generalizing w with
  | nil => exact ⟨rfl, rfl, by simp [reportsMade_nil], fun _ => rfl, fun j z => by simp⟩
  | cons a L ih =>
    intro W v
    obtain ⟨ha, hn'⟩ := List.nodup_cons.1 hn
    have hv : v = L.foldl (fun w x => w.flushEntry x.1 x.2) (w.flushEntry a.1 a.2) := rfl
    by_cases h : writesBack w.st a = true
    · obtain ⟨hrec, hpin⟩ := hL a (by simp) h
      obtain ⟨r, hr⟩ := Option.isSome_iff_exists.1 hrec
      have h' := h
      simp only [writesBack, Bool.and_eq_true, beq_iff_eq] at h'
      obtain ⟨⟨h1, h2⟩, h3⟩ := h'
      have hW : W = a :: L.filter (writesBack w.st) := List.filter_cons_of_pos h
      have hone : writebackOf w.st a = some (.writeback a.1 a.2, .bookingWriteback r) := by simp [writebackOf, hr]
      -- the one entry
      obtain ⟨u, hu⟩ : ∃ u, u = w.flushEntry a.1 a.2 := ⟨_, rfl⟩
      generalize hS : (w.st.updEntry a.1 a.2 fun e => { e with owed := .writeback } : State) = S
      have Sent : ∀ j z, S.entry j z = if (j, z) = (a.1, a.2) then { w.st.entry a.1 a.2 with owed := .writeback }
          else w.st.entry j z := by rw [← hS]; exact fun j z => entry_upd _ _ _ _ _ _
      have Sroom : cacheRoom S = cacheRoom w.st := by rw [← hS]; exact cacheRoom_of _ _ rfl rfl rfl
      have ue : u = { w with
          st := if 0 < cacheRoom w.st then
            (reportsMade S [(.writeback a.1 a.2, .bookingWriteback r)]).updEntry a.1 a.2 fun e =>
              { e with owed := .none, dirty := false }
            else reportsMade S [(.writeback a.1 a.2, .bookingWriteback r)] } := by
        rw [hu]
        unfold Work.flushEntry
        dsimp only
        rw [if_pos h]
        have e : (w.upd fun s => s.updEntry a.1 a.2 fun e => { e with owed := .writeback }) = { w with st := S } := by
          rw [← hS]; rfl
        rw [e, make_entry _ a.1 a.2 r (by show (S.entry a.1 a.2).record = _; rw [Sent, if_pos rfl]; exact hr) (by
          show Work.unpinnedRecall (S.entry a.1 a.2) = false
          rw [Sent, if_pos rfl, Bool.eq_false_iff]
          intro g
          simp only [Work.unpinnedRecall, Bool.and_eq_true, beq_iff_eq] at g
          exact hpin g.1.2 g.2) (.writeback a.1 a.2) (.bookingWriteback r) (.inr ⟨rfl, rfl⟩)]
        dsimp only
        rw [Sroom]
      have ust : u.st = { reportsMade w.st [(.writeback a.1 a.2, .bookingWriteback r)] with
          cache := { (reportsMade w.st [(.writeback a.1 a.2, .bookingWriteback r)]).cache with sets := u.st.cache.sets } } := by
        rw [ue]
        dsimp only
        split <;> (rw [← hS]; rfl)
      have uage : ∀ j : Fin 1024, u.st.cache.sets[j].age = w.st.cache.sets[j].age := by
        intro j
        have e : S.cache.sets[j].age = w.st.cache.sets[j].age := by rw [← hS]; exact age_upd _ _ _ _ _
        rw [ue]
        dsimp only
        split
        · rw [age_upd]; exact e
        · exact e
      have uent : ∀ j z, u.st.entry j z = if (j, z) = (a.1, a.2) then
          (if 0 < cacheRoom w.st then { w.st.entry j z with dirty := false } else { w.st.entry j z with owed := .writeback })
          else w.st.entry j z := by
        intro j z
        have e : ∀ j z, (reportsMade S [(.writeback a.1 a.2, .bookingWriteback r)]).entry j z = S.entry j z := fun _ _ => rfl
        rw [ue]
        dsimp only
        by_cases g : 0 < cacheRoom w.st
        · rw [if_pos g, entry_upd, e, e, Sent, Sent, if_pos rfl]
          by_cases q : (j, z) = (a.1, a.2)
          · cases q; rw [if_pos rfl, if_pos rfl, if_pos g, eta1 _ _ _ h3 rfl]
          · rw [if_neg q, if_neg q, if_neg q]
        · rw [if_neg g, e, Sent]
          by_cases q : (j, z) = (a.1, a.2)
          · cases q; rw [if_pos rfl, if_pos rfl, if_neg g]
          · rw [if_neg q, if_neg q]
      have urt : u.retry = w.retry ∧ u.touched = w.touched := by rw [ue]; exact ⟨rfl, rfl⟩
      have uroom : cacheRoom u.st = cacheRoom w.st - 1 := by
        have : cacheRoom u.st = cacheRoom (reportsMade w.st [(.writeback a.1 a.2, .bookingWriteback r)]) := by
          rw [ust]; exact cacheRoom_of _ _ rfl rfl rfl
        rw [this, cacheRoom_made]; rfl
      have same : ∀ x ∈ L, u.st.entry x.1 x.2 = w.st.entry x.1 x.2 := by
        intro x hx
        rw [uent, if_neg]
        rintro q
        exact ha (by rw [show a = x from q.symm]; exact hx)
      have sw : ∀ x ∈ L, writesBack u.st x = writesBack w.st x := by
        intro x hx; simp only [writesBack, same x hx]
      have hf : L.filter (writesBack u.st) = L.filter (writesBack w.st) := List.filter_congr sw
      have hm : (L.filter (writesBack w.st)).filterMap (writebackOf u.st) =
          (L.filter (writesBack w.st)).filterMap (writebackOf w.st) := by
        refine List.filterMap_congr fun x hx => ?_
        simp only [writebackOf, same x (List.mem_filter.1 hx).1]
      obtain ⟨i1, i2, i3, i4, i5⟩ := ih hn' u (fun x hx => by
        rw [sw x hx, same x hx]; exact hL x (by simp [hx]))
      rw [hv, ← hu]
      generalize L.foldl (fun w x => w.flushEntry x.1 x.2) u = k at i1 i2 i3 i4 i5
      rw [hf] at i3 i5
      rw [hm] at i3
      refine ⟨i1.trans urt.1, i2.trans urt.2, ?_, fun j => (i4 j).trans (uage j), fun j z => ?_⟩
      · have e : reportsMade w.st (W.filterMap (writebackOf w.st)) =
            reportsMade (reportsMade w.st [(.writeback a.1 a.2, .bookingWriteback r)])
              ((L.filter (writesBack w.st)).filterMap (writebackOf w.st)) := by
          rw [reportsMade_append, hW, List.filterMap_cons, hone]; rfl
        rw [i3, e]
        generalize (L.filter (writesBack w.st)).filterMap (writebackOf w.st) = os
        rw [ust]
        rfl
      · rw [i5, uroom, hW, uent]
        generalize hW' : L.filter (writesBack w.st) = W'
        have nin : a ∉ W' := by rw [← hW']; exact fun q => ha (List.mem_filter.1 q).1
        by_cases g : 0 < cacheRoom w.st
        · obtain ⟨n, hnn⟩ : ∃ n, cacheRoom w.st = n + 1 := ⟨cacheRoom w.st - 1, by omega⟩
          rw [hnn, Nat.add_sub_cancel, List.take_succ_cons]
          by_cases q : (j, z) = (a.1, a.2)
          · have q' : (j, z) = a := q
            rw [q', if_neg (fun c => nin (List.mem_of_mem_take c)), if_neg nin, if_pos rfl, if_pos (by omega),
              if_pos (List.mem_cons_self)]
          · have q' : (j, z) ≠ a := q
            simp only [List.mem_cons, q', false_or, if_false]
        · rw [show cacheRoom w.st = 0 by omega]
          simp only [Nat.zero_sub, List.take_zero, List.not_mem_nil, if_false, Nat.lt_irrefl]
          by_cases q : (j, z) = (a.1, a.2)
          · have q' : (j, z) = a := q
            rw [q', if_neg nin, if_pos rfl, if_pos (List.mem_cons_self)]
          · have q' : (j, z) ≠ a := q
            simp only [List.mem_cons, q', false_or, if_false]
    · have hu : w.flushEntry a.1 a.2 = w := by
        unfold Work.flushEntry
        dsimp only
        rw [if_neg h]
      have hW : W = L.filter (writesBack w.st) := List.filter_cons_of_neg h
      rw [hv, hu, hW]
      exact ih hn' w (fun x hx => hL x (by simp [hx]))

/-- R107: a FLUSH where no recall is about to be reported done. -/
theorem flush_spec (s : State)
    (hW : ∀ x ∈ flushed s, (s.entry x.1 x.2).record.isSome = true ∧
      ((s.entry x.1 x.2).mark = .pending → (s.entry x.1 x.2).pins ≠ 0))
    (hr : RecallsWait s) :
    let v := Work.flush { st := s }
    let m := reportsMade s (flushReports s)
    v.retry = false ∧ v.touched = [] ∧ v.st = { m with cache := { m.cache with sets := v.st.cache.sets } } ∧
    (∀ j : Fin 1024, v.st.cache.sets[j].age = s.cache.sets[j].age) ∧
    ∀ j z, v.st.entry j z =
      if (j, z) ∈ (flushed s).take (cacheRoom s) then { s.entry j z with dirty := false }
      else if (j, z) ∈ flushed s then { s.entry j z with owed := .writeback }
      else s.entry j z := by
  intro v m
  obtain ⟨L, hL⟩ : ∃ L : List (Fin 1024 × Fin 2), L = (List.finRange 1024).flatMap fun i => [(i, 0), (i, 1)] := ⟨_, rfl⟩
  have hn : L.Nodup := by
    rw [hL, List.nodup_flatMap]
    refine ⟨fun i _ => by simp, ?_⟩
    refine (List.nodup_finRange 1024).imp ?_
    intro i j hij x hx hy
    simp only [List.mem_cons, List.not_mem_nil, or_false] at hx hy
    apply hij
    rcases hx with rfl | rfl <;> rcases hy with h | h <;> exact (Prod.mk.inj h).1
  have hf : flushed s = L.filter (writesBack s) := by rw [hL]; rfl
  obtain ⟨i1, i2, i3, i4, i5⟩ := flush_fold L hn { st := s } (fun x hx hw => hW x (by
    rw [hf]; exact List.mem_filter.2 ⟨hx, hw⟩))
  have e : (List.finRange 1024).foldl (fun w i => (Work.flushEntry w i 0).flushEntry i 1) { st := s } =
      L.foldl (fun w x => Work.flushEntry w x.1 x.2) { st := s } := by
    rw [hL, List.foldl_flatMap]; rfl
  generalize hk : L.foldl (fun w x => Work.flushEntry w x.1 x.2) { st := s } = k at i1 i2 i3 i4 i5 e
  have hv : v = { k with st := reportsMade k.st [(.flushDone, .flushDone)] } := by
    show Work.finish ((((List.finRange 1024).foldl (fun w i => (Work.flushEntry w i 0).flushEntry i 1) { st := s }).make
      .flushDone)) = _
    rw [e, make_flushDone, finish_waits]
    · rw [if_neg]; show ¬ k.retry = true; rw [i1]; simp
    · show RecallsWait (reportsMade k.st _)
      unfold RecallsWait
      show ∀ q ∈ k.st.cache.recalls, q.done = true ∨ q.entryPart = true ∨
        ∃ p : Fin 48, ∃ c ∈ k.st.cache.copies[p], c.key = q.key ∧ c.recalled = true
      rw [i3]; exact hr
  dsimp only at i1 i2 i3 i4 i5
  rw [← hf] at i3 i5
  refine ⟨by rw [hv]; exact i1, by rw [hv]; exact i2, ?_, fun j => by rw [hv]; exact i4 j, fun j z => by rw [hv]; exact i5 j z⟩
  have em : m = reportsMade (reportsMade s ((flushed s).filterMap (writebackOf s))) [(.flushDone, .flushDone)] := by
    rw [reportsMade_append]
    rfl
  rw [em, hv]
  dsimp only
  rw [i3]
  rfl

/-! ### The cache's turn in the wait order (R96) -/

/-- R21, R96: a sent report with the cache first in the wait order has the oldest report owed accepted, and the cache waits again
if more is owed. -/
theorem reportSent_turn (s : State) (r : QueuedReport) (rest : List QueuedReport) (ws : List Waiter) (o : Owed) (os : List Owed)
    (h0 : s.resetHeld = false) (h1 : s.uplink.linkUp = true) (h2 : s.uplink.queue = r :: rest)
    (h3 : s.uplink.waiters = .cache :: ws) (h4 : s.cache.sendOrder = o :: os) :
    let w : Work := { st := { s with
      uplink := { s.uplink with queue := rest, waiters := ws }
      cache := { s.cache with sendOrder := os } } }
    exec .reportSent s = .next (State.settle (Work.finish ((w.acceptOwed o).upd fun s =>
      if s.cache.sendOrder.isEmpty then s else s.wait .cache))) := by
  show execReportSent s = _
  unfold execReportSent
  rw [whenRunning_released _ _ h0]
  dsimp only
  rw [if_pos (by rw [h1, h2]; rfl)]
  unfold State.reportSent
  simp only [State.updUplink, h3, h2, List.tail_cons, State.serve, Work.turn, h4]
  rfl

end Sys2Proof.Laws
end

