-- ==== Sys2Proof/Laws/Recalled.lean ====
section
/-! SUPPORT. The commit of the one link of a visit to an entry, or to a private copy, whose key is under the one recall
outstanding (R57, R104, R111, R112): what it writes, owes and makes, and the end of the recall. -/

open Sys2Proof Sys2Proof.Machine Sys2Proof.Safety

namespace Sys2Proof.Laws

/-- What `recallTested` makes depends on the uplink and the cache alone, and not on what stands in the place of the entry and in
the counters. -/
theorem recallTested_congr (s t : State) (i : Fin 1024) (y : Fin 2) (key : Text) (released : Bool) (e f : Entry) (n : CacheCounters)
    (hu : t.uplink = s.uplink)
    (hc : t.cache = { s.cache with sets := upd s.cache.sets i fun c => c.put y f, counters := n }) :
    (recallTested t i y key released e).uplink = (recallTested s i y key released e).uplink ∧
    (recallTested t i y key released e).cache = { (recallTested s i y key released e).cache with counters := n } ∧
    (recallTested t i y key released e).pool = t.pool := by
  have hr : cacheRoom t = cacheRoom s := cacheRoom_of _ _ (by rw [hc]) (by rw [hu]) (by rw [hu])
  unfold recallTested reportsMade
  dsimp only
  rw [hr, hu, hc]
  simp only [upd_upd, put_put, and_self]

/-- Two updates of one entry are one. -/
theorem updEntry_twice (s : State) (i : Fin 1024) (y : Fin 2) (f g : Entry → Entry) :
    (s.updEntry i y f).updEntry i y g = s.updEntry i y fun e => g (f e) := by
  have e := entry_upd s i y f i y
  rw [if_pos rfl] at e
  rw [updEntry_sets (s.updEntry i y f), e, updEntry_sets, updEntry_sets]
  simp only [upd_upd, put_put]

/-- What the commit of one link leaves beside the cache: the uplink, the parameters and the other contexts, and of its own context
all but the unit its link holds, its damage entry and the flag of a full list. -/
theorem applyCommit_rest (s : State) (r : LinkRef) (l : Link) (g : Target) (k : Committed) :
    (s.applyCommit r l g k).uplink = s.uplink ∧
    (s.applyCommit r l g k).params = s.params ∧
    ∀ j, (s.applyCommit r l g k).ctx j = if j = r.ctx then
      { s.ctx j with
        links := (s.ctx j).links.modify r.index fun l => { l with holdsUnit := false }
        flags := { (s.ctx j).flags with damageListFull := (s.ctx j).flags.damageListFull || k.listFull }
        damage := match l.source.position with
          | some pos => (s.ctx j).damage.put pos (((s.ctx j).damage.get pos).map fun d => { d with appended := k.appended })
          | none => (s.ctx j).damage }
      else s.ctx j := by
  have base (b : Bool) (v : State) (hv : ∀ i, v.ctx i = s.ctx i) :
      ∀ j, (if b then (v.updLink r fun l => { l with holdsUnit := false }).countCache
          (fun c => { c with pickupOverruns := bump c.pickupOverruns })
        else v.updLink r fun l => { l with holdsUnit := false }).ctx j =
      if j = r.ctx then { s.ctx j with links := (s.ctx j).links.modify r.index fun l => { l with holdsUnit := false } }
      else s.ctx j := by
    intro j
    have : (v.updLink r fun l => { l with holdsUnit := false }).ctx j =
        if j = r.ctx then { s.ctx j with links := (s.ctx j).links.modify r.index fun l => { l with holdsUnit := false } }
        else s.ctx j := by rw [updLink_ctx, hv]
    cases b <;> exact this
  unfold State.applyCommit
  dsimp only
  refine ⟨?_, ?_, fun j => ?_⟩
  · cases l.holdsUnit <;> cases k.overrun <;> cases g <;> rfl
  · cases l.holdsUnit <;> cases k.overrun <;> cases g <;> rfl
  · have c1 := base k.overrun (if l.holdsUnit = true then (s.setRecord g k.record).setHeld g
        ((s.setRecord g k.record).targetHeld g - 1) else s.setRecord g k.record)
      (fun _ => by cases l.holdsUnit <;> cases g <;> rfl)
    rw [State.ctx_updCtx, c1, c1]
    by_cases hj : j = r.ctx
    · subst hj
      simp only [if_true]
      cases hlf : k.listFull <;> cases l.source.position <;> simp
    · simp only [hj, if_false]

/-- The entry of a link to be committed, its record written with the unit its link holds given back. -/
theorem applyCommit_entry (s : State) (r : LinkRef) (l : Link) (i : Fin 1024) (y : Fin 2) (k : Committed) :
    (s.applyCommit r l (.way i y) k).cache = { s.cache with
      sets := upd s.cache.sets i fun c => c.put y { s.entry i y with
        record := some k.record, held := if l.holdsUnit then (s.entry i y).held - 1 else (s.entry i y).held }
      counters := if k.overrun then { s.cache.counters with pickupOverruns := bump s.cache.counters.pickupOverruns }
        else s.cache.counters } := by
  unfold State.applyCommit
  dsimp only
  have e1 : (s.setRecord (.way i y) k.record).entry i y = { s.entry i y with record := some k.record } := by
    show (s.updEntry i y _).entry i y = _
    rw [entry_upd, if_pos rfl]
  have e2 : (if l.holdsUnit = true then (s.setRecord (.way i y) k.record).setHeld (.way i y)
        ((s.setRecord (.way i y) k.record).targetHeld (.way i y) - 1) else s.setRecord (.way i y) k.record) =
      s.updEntry i y fun e => { e with
        record := some k.record, held := if l.holdsUnit then e.held - 1 else e.held } := by
    cases l.holdsUnit with
    | false => rfl
    | true =>
      rw [if_pos rfl]
      show (s.setRecord (.way i y) k.record).updEntry i y (fun e => { e with
        held := ((s.setRecord (.way i y) k.record).entry i y).held - 1 }) = _
      rw [e1]
      rw [show s.setRecord (.way i y) k.record = s.updEntry i y fun e => { e with record := some k.record } from rfl,
        updEntry_twice, updEntry_sets, updEntry_sets]
      rfl
  rw [e2]
  cases k.overrun <;> rfl

/-- The state beside the uplink and the cache that `recallTested` keeps. -/
theorem recallTested_rest (s : State) (i : Fin 1024) (y : Fin 2) (key : Text) (released : Bool) (e : Entry) :
    recallTested s i y key released e = { s with
      uplink := (recallTested s i y key released e).uplink, cache := (recallTested s i y key released e).cache } ∧
    (recallTested s i y key released e).cache.waitList = s.cache.waitList := ⟨rfl, rfl⟩

/-- R57, R111, R112: the pin of the one link of a visit dropped on an entry under the one recall outstanding. -/
theorem drop_recalled (w : Work) (id : CtxId) (l : Link) (v : State) (i : Fin 1024) (y : Fin 2) (key : Text) (released : Bool)
    (E : Entry) (n : CacheCounters) (hl : w.st.link? ⟨id, 0⟩ = some l) (ht : l.target = some (.way i y))
    (hu : w.st.uplink = v.uplink)
    (hc : w.st.cache = { v.cache with sets := upd v.cache.sets i fun c => c.put y E, counters := n })
    (hs : E.state = .valid) (hm : E.mark = .pending) (hk : E.key = some key) (hd : E.dirty = true → E.record.isSome = true)
    (hr : v.cache.recalls = [⟨key, released, true, false⟩]) (hn : NoCopyRecalled v key) (hw : v.cache.waitList = []) :
    let t := (w.commitDrop ⟨id, 0⟩).finish
    let x := recallTested v i y key released
      { E with pins := E.pins - 1, held := if l.holdsUnit then E.held - 1 else E.held }
    t.touched = w.touched ∧ t.st.uplink = x.uplink ∧ t.st.cache = { x.cache with counters := n } ∧
    t.st = { w.st with pool := t.st.pool, cache := t.st.cache, uplink := t.st.uplink } ∧
    ∀ j, t.st.ctx j = if j = id then
      { w.st.ctx j with links := (w.st.ctx j).links.modify 0 fun l => { l with target := none, holdsUnit := false } }
      else w.st.ctx j := by
  intro t x
  obtain ⟨u, hud⟩ : ∃ u : State, u = w.st.updLink ⟨id, 0⟩ fun l => { l with target := none, holdsUnit := false } := ⟨_, rfl⟩
  obtain ⟨F, hF⟩ : ∃ F : Entry, F = { E with pins := E.pins - 1, held := if l.holdsUnit then E.held - 1 else E.held } := ⟨_, rfl⟩
  have uc : u.cache = w.st.cache := by rw [hud]; rfl
  have ue : u.entry i y = E := by
    have : u.entry i y = (u.cache.sets[i]).get y := rfl
    rw [this, uc, hc]
    simp only [Fin.getElem_fin, upd_getElem, if_true]
    unfold CacheSet.get CacheSet.put
    split <;> rfl
  obtain ⟨q, hq⟩ : ∃ q : State, q = u.updEntry i y fun e =>
    { e with pins := e.pins - 1, held := if l.holdsUnit then e.held - 1 else e.held } := ⟨_, rfl⟩
  have qe : q.entry i y = F := by rw [hq, entry_upd, if_pos rfl, ue, hF]
  have qc : q.cache = { v.cache with sets := upd v.cache.sets i fun c => c.put y F, counters := n } := by
    rw [hq, updEntry_sets, ue, ← hF]
    dsimp only
    rw [uc, hc]
    simp only [upd_upd, put_put]
  have et : t = (Work.settleEntry { w with st := q } i y).finish := by
    show (w.commitDrop ⟨id, 0⟩).finish = _
    unfold Work.commitDrop
    simp only [hl, ht]
    unfold Work.unpin
    rw [hq, hud]
    rfl
  obtain ⟨g, g1, g2, g3⟩ := settle_recall { w with st := q } i y key released F qe (by rw [hF]; exact hs) (by rw [hF]; exact hm)
    (by rw [hF]; exact hk) (by rw [hF]; exact hd) (by show q.cache.recalls = _; rw [qc]; exact hr)
    (by show NoCopyRecalled q key; unfold NoCopyRecalled; rw [qc]; exact hn)
  obtain ⟨c1, c2, c3⟩ := recallTested_congr v q i y key released F F n
    (by rw [hq, hud]; exact hu) qc
  have wl : g.st.cache.waitList = [] := by
    rw [g1]; show q.cache.waitList = []; rw [qc]; exact hw
  have fin : t.st = g.st ∧ t.touched = g.touched := by
    rw [et, g3, wl]
    split <;> exact ⟨rfl, rfl⟩
  have ex : x = recallTested v i y key released F := by rw [hF]
  clear_value t x
  rw [fin.1, fin.2, g2, g1, ex]
  refine ⟨rfl, c1, c2, ?_, fun j => ?_⟩
  · have e1 := (recallTested_rest q i y key released F).1
    conv_lhs => rw [e1]
    rw [hq, hud]
    rfl
  · have : (recallTested q i y key released F).ctx j = u.ctx j := by rw [hq]; rfl
    rw [this, hud, updLink_ctx]

/-- What the commit of the one link of a visit, to an entry under recall, leaves before its pin is dropped: the reports made, the
entry `M`, and the link `m`; with the pin dropped the entry is as `E` so released. -/
abbrev MidCommit (s : State) (W : Work) (id : CtxId) (l : Link) (i : Fin 1024) (y : Fin 2) (key : Text) : Prop :=
  let e := s.entry i y
  ∃ (os : List (Owed × Report)) (E : Entry) (m : Link) (M : Entry),
    W.touched = [] ∧ W.st.uplink = (reportsMade s os).uplink ∧
    W.st.cache = { (reportsMade s os).cache with
      sets := upd s.cache.sets i fun c => c.put y M, counters := committedCount s (s.ctx id) s.cache.counters l } ∧
    W.st = { s with pool := W.st.pool, cache := W.st.cache, uplink := W.st.uplink } ∧
    (∀ j, W.st.ctx j = if j = id then { s.ctx j with
      links := [m], flags := committedFlags s (s.ctx id) (s.ctx id).flags l
      damage := committedDamage s (s.ctx id) (s.ctx id).damage l } else s.ctx j) ∧
    { m with target := none, holdsUnit := false } = ({ l with target := none, holdsUnit := false } : Link) ∧
    m.target = l.target ∧
    { M with pins := M.pins - 1, held := if m.holdsUnit then M.held - 1 else M.held } =
      ({ E with pins := E.pins - 1, held := if l.holdsUnit then E.held - 1 else E.held } : Entry) ∧
    M.state = .valid ∧ M.mark = .pending ∧ M.key = some key ∧ M.record.isSome = true ∧
    match linkFate s (s.ctx id) l with
    | .dropped | .locked => os = [] ∧ E = e
    | .written k =>
        let written : Entry := { e with record := some k.record }
        (e.owed ≠ .none → os = [] ∧ E = written) ∧
        (e.owed = .none → os = [(.update i y, .bookingUpdate k.record)] ∧
          E = if 0 < cacheRoom s then { written with dirty := false } else { written with owed := .update })

theorem mid_recalled (s : State) (id : CtxId) (l : Link) (i : Fin 1024) (y : Fin 2) (key : Text) (released : Bool)
    (h : LinksRecalledEntry s id l i y key released) :
    MidCommit s (if (s.ctx id).decision = some .admitted ∨ (s.ctx id).decision = some .inspect then
        Work.commitLink s.writesThrough { st := s } ⟨id, 0⟩ else { st := s }) id l i y key := by
  obtain ⟨h1, h2, h3, h4, h5, h6, h7, h8, h9, h10⟩ := h
  have hl0 : s.link? ⟨id, 0⟩ = some l := by unfold State.link?; rw [h1]; rfl
  have same : (upd s.cache.sets i fun c => c.put y (s.entry i y)) = s.cache.sets := entry_same s i y _ rfl
  have idle : linkFate s (s.ctx id) l = .dropped → MidCommit s { st := s } id l i y key := by
    intro hf
    refine ⟨[], s.entry i y, l, s.entry i y, rfl, by rw [reportsMade_nil], ?_, rfl, fun j => ?_, rfl, rfl, rfl, h3, h4, h6, h7, ?_⟩
    · rw [reportsMade_nil, same]
      unfold committedCount; rw [hf]
    · unfold committedFlags committedDamage
      rw [hf]
      split
      · rename_i hj; subst hj; rw [← h1]
      · rfl
    · rw [hf]; exact ⟨rfl, rfl⟩
  by_cases hd : (s.ctx id).decision = some .admitted ∨ (s.ctx id).decision = some .inspect
  · rw [if_pos hd]
    have hd' : ¬ ((s.ctx id).decision ≠ some .admitted ∧ (s.ctx id).decision ≠ some .inspect) := by
      rintro ⟨a, b⟩; rcases hd with h | h
      · exact a h
      · exact b h
    unfold Work.commitLink
    simp only [hl0, h2]
    cases hr : s.linkRecord l with
    | none =>
      exact idle (by unfold linkFate; simp only [h2, hr])
    | some r =>
      dsimp only
      by_cases hk : r.locked = true
      · have f : linkFate s (s.ctx id) l = .locked := by
          unfold linkFate; simp only [h2, hr]
          rw [if_neg hd', if_pos ((locked_eq r).mp hk)]
        rw [if_pos hk]
        refine ⟨[], s.entry i y, l, s.entry i y, rfl, by rw [reportsMade_nil]; rfl, ?_, rfl, fun j => ?_, rfl, rfl, rfl, h3, h4, h6, h7, ?_⟩
        · rw [reportsMade_nil, same]
          unfold committedCount; rw [f]; rfl
        · unfold committedFlags committedDamage
          rw [f]
          simp only [Work.upd, State.discardCommit, State.ctx_updCtx]
          by_cases hj : j = id
          · subst hj; simp only [if_true]; rw [← h1]; rfl
          · simp only [hj, if_false]; rfl
        · rw [f]; exact ⟨rfl, rfl⟩
      · rw [if_neg hk]
        obtain ⟨k, hkd⟩ : ∃ k, k = commitRecord (s.ctx id) l r (s.targetHeld (.way i y)) := ⟨_, rfl⟩
        have f : linkFate s (s.ctx id) l = .written k := by
          unfold linkFate; simp only [h2, hr]
          rw [if_neg hd', if_neg (fun h => hk ((locked_eq r).mpr h)), hkd]
        rw [← hkd]
        obtain ⟨A, hA⟩ : ∃ A, A = s.applyCommit ⟨id, 0⟩ l (.way i y) k := ⟨_, rfl⟩
        have hW : (Work.upd { st := s } fun s => s.applyCommit ⟨id, 0⟩ l (.way i y) k) = { st := A } := by rw [hA]; rfl
        rw [hW]
        obtain ⟨a1, a2, a4⟩ := applyCommit_rest s ⟨id, 0⟩ l (.way i y) k
        have a3 := applyCommit_entry s ⟨id, 0⟩ l i y k
        have arest : A = { s with pool := A.pool, cache := A.cache } := by
          rw [hA]; unfold State.applyCommit
          cases l.holdsUnit <;> cases k.overrun <;> rfl
        rw [← hA] at a1 a2 a3 a4
        obtain ⟨N, hN⟩ : ∃ N : Entry, N = { s.entry i y with
          record := some k.record, held := if l.holdsUnit then (s.entry i y).held - 1 else (s.entry i y).held } := ⟨_, rfl⟩
        rw [← hN] at a3
        have Ae : A.entry i y = N := by
          have : A.entry i y = (A.cache.sets[i]).get y := rfl
          rw [this, a3]
          simp only [Fin.getElem_fin, upd_getElem, if_true]
          unfold CacheSet.get CacheSet.put
          split <;> rfl
        have ctxs : ∀ j, A.ctx j = if j = id then { s.ctx j with
            links := [{ l with holdsUnit := false }], flags := committedFlags s (s.ctx id) (s.ctx id).flags l
            damage := committedDamage s (s.ctx id) (s.ctx id).damage l } else s.ctx j := by
          intro j
          rw [a4]
          unfold committedFlags committedDamage
          rw [f]
          by_cases hj : j = id
          · subst hj
            simp only [if_true, h1]
            cases l.source.position <;> rfl
          · simp only [hj, if_false]
        have cnt : (if k.overrun then { s.cache.counters with pickupOverruns := bump s.cache.counters.pickupOverruns }
            else s.cache.counters) = committedCount s (s.ctx id) s.cache.counters l := by
          unfold committedCount; rw [f]
        rw [cnt] at a3
        have room : cacheRoom A = cacheRoom s := cacheRoom_of _ _ (by rw [a3]) (by rw [a1]) (by rw [a1])
        show MidCommit s (Work.returnEntry { st := A } i y _ _) id l i y key
        unfold Work.returnEntry
        dsimp only
        rw [Ae, if_pos (by rw [hN]; simp [h4])]
        by_cases ho : (s.entry i y).owed = .none
        · rw [if_pos (by rw [hN]; simp [ho])]
          obtain ⟨B, hB⟩ : ∃ B, B = A.updEntry i y fun e => { e with owed := .update } := ⟨_, rfl⟩
          have hWB : (Work.upd { st := A } fun s => s.updEntry i y fun e => { e with owed := .update }) = { st := B } := by rw [hB]; rfl
          rw [hWB]
          have Be : B.entry i y = { N with owed := .update } := by rw [hB, entry_upd, if_pos rfl, Ae]
          have broom : cacheRoom B = cacheRoom s := by rw [← room, hB]; exact cacheRoom_of _ _ rfl rfl rfl
          have Bc : B.cache = { s.cache with
              sets := upd s.cache.sets i fun c => c.put y { N with owed := .update }
              counters := committedCount s (s.ctx id) s.cache.counters l } := by
            rw [hB, updEntry_sets, Ae]
            dsimp only
            rw [a3]
            simp only [upd_upd, put_put]
          have Bu : B.uplink = s.uplink := by rw [hB]; exact a1
          have mk := make_entry { st := B } i y k.record (by show (B.entry i y).record = _; rw [Be, hN])
            (by show Work.unpinnedRecall (B.entry i y) = false; rw [Be, hN]; simp [Work.unpinnedRecall, Nat.pos_iff_ne_zero.1 h5])
            (.update i y) (.bookingUpdate k.record) (Or.inl ⟨rfl, rfl⟩)
          rw [mk]
          dsimp only
          rw [broom]
          have c1 := (reportsMade_congr (s := s) (t := B) Bu (by rw [Bc]) [(.update i y, .bookingUpdate k.record)]).1
          have c2 := (reportsMade_congr (s := s) (t := B) Bu (by rw [Bc]) [(.update i y, .bookingUpdate k.record)]).2
          have bctx : ∀ j, B.ctx j = A.ctx j := by rw [hB]; exact fun _ => rfl
          have brest : B = { s with pool := B.pool, cache := B.cache } := by
            rw [hB]; conv_lhs => rw [arest]
            rfl
          generalize hR : reportsMade B [(.update i y, .bookingUpdate k.record)] = R at c1 c2
          have Rc : R.cache = { (reportsMade s [(.update i y, .bookingUpdate k.record)]).cache with
              sets := upd s.cache.sets i fun c => c.put y { N with owed := .update }
              counters := committedCount s (s.ctx id) s.cache.counters l } := by
            have : R.cache = { B.cache with sendOrder := R.cache.sendOrder } := by rw [← hR]; rfl
            rw [this, Bc, c2]; rfl
          have Rctx : ∀ j, R.ctx j = A.ctx j := fun j => by rw [← hR]; exact bctx j
          have Rrest : R = { s with pool := R.pool, cache := R.cache, uplink := R.uplink } := by
            have q : R = { B with uplink := R.uplink, cache := R.cache } := by rw [← hR]; rfl
            have p : R.pool = B.pool := by rw [← hR]; rfl
            rw [p]
            conv_lhs => rw [q, brest]
          have Re : R.entry i y = { N with owed := .update } := by rw [← hR]; exact Be
          by_cases g : 0 < cacheRoom s
          · rw [if_pos g]
            refine ⟨[(.update i y, .bookingUpdate k.record)], { s.entry i y with record := some k.record, dirty := false }, { l with holdsUnit := false },
              { N with owed := .none, dirty := false }, rfl, c1, ?_, ?_, fun j => (Rctx j).trans (ctxs j), rfl, rfl, ?_, ?_, ?_, ?_, ?_, ?_⟩
            · show (R.updEntry i y _).cache = _
              rw [updEntry_sets, Re]
              dsimp only
              rw [Rc]
              simp only [upd_upd, put_put]
            · dsimp only
              conv_lhs => rw [updEntry_sets, Rrest]
              rfl
            · rw [hN]; simp [ho]
            · rw [hN]; exact h3
            · rw [hN]; exact h4
            · rw [hN]; exact h6
            · rw [hN]; rfl
            · rw [f]
              exact ⟨fun q => absurd ho q, fun _ => ⟨rfl, by rw [if_pos g]⟩⟩
          · rw [if_neg g]
            refine ⟨[(.update i y, .bookingUpdate k.record)], { s.entry i y with record := some k.record, owed := .update }, { l with holdsUnit := false },
              { N with owed := .update }, rfl, c1, Rc, Rrest, fun j => (Rctx j).trans (ctxs j), rfl, rfl, ?_, ?_, ?_, ?_, ?_, ?_⟩
            · rw [hN]; simp
            · rw [hN]; exact h3
            · rw [hN]; exact h4
            · rw [hN]; exact h6
            · rw [hN]; rfl
            · rw [f]
              exact ⟨fun q => absurd ho q, fun _ => ⟨rfl, by rw [if_neg g]⟩⟩
        · rw [if_neg (by rw [hN]; simp [ho])]
          refine ⟨[], { s.entry i y with record := some k.record }, { l with holdsUnit := false }, N, rfl, by rw [reportsMade_nil]; exact a1,
            by rw [reportsMade_nil]; exact a3, ?_, ctxs, rfl, rfl, ?_, ?_, ?_, ?_, ?_, ?_⟩
          · dsimp only
            rw [a1]; exact arest
          · rw [hN]; simp
          · rw [hN]; exact h3
          · rw [hN]; exact h4
          · rw [hN]; exact h6
          · rw [hN]; rfl
          · rw [f]
            exact ⟨fun _ => ⟨rfl, rfl⟩, fun q => absurd q ho⟩
  · rw [if_neg hd]
    refine idle ?_
    have hd' : (s.ctx id).decision ≠ some .admitted ∧ (s.ctx id).decision ≠ some .inspect := by
      rw [not_or] at hd; exact hd
    unfold linkFate
    simp only [h2]
    cases s.linkRecord l <;> simp [hd']

/-- R104 to R106, R111, R112: the commit of a visit whose one link names an entry under the one recall outstanding. -/
theorem commit_recalledEntry (s : State) (id : CtxId) (l : Link) (i : Fin 1024) (y : Fin 2) (key : Text) (released : Bool)
    (h : LinksRecalledEntry s id l i y key released) :
    let t := (Work.commit { st := s } id).finish
    t.touched = [] ∧ RecalledEntryCommitted s t.st id l i y key released ∧
    t.st = { s with pool := t.st.pool, cache := t.st.cache, uplink := t.st.uplink } ∧
    (∀ j, j ≠ id → t.st.ctx j = s.ctx j) ∧
    t.st.ctx id = { s.ctx id with links := (t.st.ctx id).links, flags := (t.st.ctx id).flags, damage := (t.st.ctx id).damage } := by
  obtain ⟨os, E, m, M, m1, m2, m3, m4, m5, m6, m7, m8, m9, m10, m11, m12, m13⟩ := mid_recalled s id l i y key released h
  obtain ⟨h1, h2, h3, h4, h5, h6, h7, h8, h9, h10⟩ := h
  intro t
  generalize hW : (if (s.ctx id).decision = some .admitted ∨ (s.ctx id).decision = some .inspect then
        Work.commitLink s.writesThrough { st := s } ⟨id, 0⟩ else { st := s }) = W at m1 m2 m3 m4 m5
  have et : t = (W.commitDrop ⟨id, 0⟩).finish := by
    show (Work.commit { st := s } id).finish = _
    unfold Work.commit Work.refsOf
    rw [h1, ← hW]
    have : (List.map (fun k => (⟨id, k⟩ : LinkRef)) (List.range [l].length)) = [⟨id, 0⟩] := rfl
    rw [this]
    simp only [List.foldl_cons, List.foldl_nil, Bool.or_eq_true, beq_iff_eq]
  clear_value t
  obtain ⟨d1, d2, d3, d4, d5⟩ := drop_recalled W id m (reportsMade s os) i y key released M
    (committedCount s (s.ctx id) s.cache.counters l) (by unfold State.link?; rw [m5, if_pos rfl]; rfl) (m7.trans h2) m2 m3
    m9 m10 m11 (fun _ => m12) h9 h10 h8
  rw [← et] at d1 d2 d3 d4 d5
  have tid : t.st.ctx id = { s.ctx id with
      links := [{ l with target := none, holdsUnit := false }], flags := committedFlags s (s.ctx id) (s.ctx id).flags l
      damage := committedDamage s (s.ctx id) (s.ctx id).damage l } := by
    rw [d5, if_pos rfl, m5, if_pos rfl]
    simp only [List.modify_cons, if_true, m6]
  refine ⟨d1.trans m1, ⟨by rw [tid], by rw [tid], by rw [tid], ?_⟩, ?_, fun j hj => by rw [d5, if_neg hj, m5, if_neg hj], by rw [tid]⟩
  · rw [m8] at d2 d3
    cases hf : linkFate s (s.ctx id) l with
    | dropped =>
      rw [hf] at m13
      obtain ⟨rfl, rfl⟩ := m13
      rw [reportsMade_nil] at d2 d3
      exact ⟨d2, d3⟩
    | locked =>
      rw [hf] at m13
      obtain ⟨rfl, rfl⟩ := m13
      rw [reportsMade_nil] at d2 d3
      exact ⟨d2, d3⟩
    | written k =>
      rw [hf] at m13
      refine ⟨fun q => ?_, fun q => ?_⟩
      · obtain ⟨rfl, rfl⟩ := m13.1 q
        rw [reportsMade_nil] at d2 d3
        exact ⟨d2, d3⟩
      · obtain ⟨rfl, rfl⟩ := m13.2 q
        exact ⟨d2, d3⟩
  · conv_lhs => rw [d4, m4]

/-- What the commit of the one link of a visit, to a private copy, leaves before its pin is dropped. -/
abbrev MidCopy (s : State) (W : Work) (id : CtxId) (l : Link) (p : Fin 48) (x : PrivateCopy) : Prop :=
  ∃ (m : Link) (z : PrivateCopy),
    W.touched = [] ∧ W.st.uplink = (reportsMade s (committedReport s (s.ctx id) l).toList).uplink ∧
    W.st.cache = { (reportsMade s (committedReport s (s.ctx id) l).toList).cache with
      copies := s.cache.copies.set p (some z), counters := committedCount s (s.ctx id) s.cache.counters l } ∧
    W.st = { s with pool := W.st.pool, cache := W.st.cache, uplink := W.st.uplink } ∧
    (∀ j, W.st.ctx j = if j = id then { s.ctx j with
      links := [m], flags := committedFlags s (s.ctx id) (s.ctx id).flags l
      damage := committedDamage s (s.ctx id) (s.ctx id).damage l } else s.ctx j) ∧
    { m with target := none, holdsUnit := false } = ({ l with target := none, holdsUnit := false } : Link) ∧
    m.target = l.target ∧ z.key = x.key ∧ z.recalled = x.recalled ∧
    (if z.updateOwed then some { z with link := none, held := 0 } else none) = committedCopy s (s.ctx id) l x

/-- The private copy of a link to be committed, its record written with the unit its link holds given back. -/
theorem applyCommit_copy (s : State) (r : LinkRef) (l : Link) (p : Fin 48) (x : PrivateCopy) (k : Committed)
    (hx : s.cache.copies[p] = some x) :
    (s.applyCommit r l (.copy p) k).cache = { s.cache with
      copies := s.cache.copies.set p (some { x with record := some k.record, held := if l.holdsUnit then x.held - 1 else x.held })
      counters := if k.overrun then { s.cache.counters with pickupOverruns := bump s.cache.counters.pickupOverruns }
        else s.cache.counters } := by
  have hx' : s.cache.copies[p.val] = some x := hx
  unfold State.applyCommit
  dsimp only
  cases l.holdsUnit <;> cases k.overrun <;>
    simp [State.setRecord, State.setHeld, State.updCopy, State.updCache, State.targetHeld, upd, hx', State.updLink, State.updCtx,
      State.countCache]

theorem mid_copy (s : State) (id : CtxId) (l : Link) (p : Fin 48) (x : PrivateCopy) (h1 : (s.ctx id).links = [l])
    (h2 : l.target = some (.copy p)) (h3 : s.cache.copies[p] = some x) (h4 : x.updateOwed = false) (h5 : x.link.isSome = true) :
    MidCopy s (if (s.ctx id).decision = some .admitted ∨ (s.ctx id).decision = some .inspect then
        Work.commitLink s.writesThrough { st := s } ⟨id, 0⟩ else { st := s }) id l p x := by
  have hl0 : s.link? ⟨id, 0⟩ = some l := by unfold State.link?; rw [h1]; rfl
  have h3' : s.cache.copies[p.val] = some x := h3
  have same : s.cache.copies.set p (some x) = s.cache.copies := by rw [← h3]; simp
  have none' : (∀ k, linkFate s (s.ctx id) l ≠ .written k) → committedReport s (s.ctx id) l = none ∧
      committedCopy s (s.ctx id) l x = none := by
    intro hf
    unfold committedReport committedCopy
    rw [h2]
    cases hq : linkFate s (s.ctx id) l with
    | dropped => exact ⟨rfl, rfl⟩
    | locked => exact ⟨rfl, rfl⟩
    | written k => exact absurd hq (hf k)
  have idle : linkFate s (s.ctx id) l = .dropped → MidCopy s { st := s } id l p x := by
    intro hf
    obtain ⟨n1, n2⟩ := none' (by rw [hf]; intro k; simp)
    refine ⟨l, x, rfl, ?_, ?_, rfl, fun j => ?_, rfl, rfl, rfl, rfl, ?_⟩
    · rw [n1, Option.toList_none, reportsMade_nil]
    · rw [n1, Option.toList_none, reportsMade_nil, same]
      unfold committedCount; rw [hf]
    · unfold committedFlags committedDamage
      rw [hf]
      split
      · rename_i hj; subst hj; rw [← h1]
      · rfl
    · rw [n2, if_neg (by rw [h4]; simp)]
  by_cases hd : (s.ctx id).decision = some .admitted ∨ (s.ctx id).decision = some .inspect
  · rw [if_pos hd]
    have hd' : ¬ ((s.ctx id).decision ≠ some .admitted ∧ (s.ctx id).decision ≠ some .inspect) := by
      rintro ⟨a, b⟩; rcases hd with h | h
      · exact a h
      · exact b h
    unfold Work.commitLink
    simp only [hl0, h2]
    cases hr : s.linkRecord l with
    | none =>
      exact idle (by unfold linkFate; simp only [h2, hr])
    | some r =>
      dsimp only
      by_cases hk : r.locked = true
      · have f : linkFate s (s.ctx id) l = .locked := by
          unfold linkFate; simp only [h2, hr]
          rw [if_neg hd', if_pos ((locked_eq r).mp hk)]
        rw [if_pos hk]
        obtain ⟨n1, n2⟩ := none' (by rw [f]; intro k; simp)
        refine ⟨l, x, rfl, ?_, ?_, rfl, fun j => ?_, rfl, rfl, rfl, rfl, ?_⟩
        · rw [n1, Option.toList_none, reportsMade_nil]; rfl
        · rw [n1, Option.toList_none, reportsMade_nil, same]
          unfold committedCount; rw [f]; rfl
        · unfold committedFlags committedDamage
          rw [f]
          simp only [Work.upd, State.discardCommit, State.ctx_updCtx]
          by_cases hj : j = id
          · subst hj; simp only [if_true]; rw [← h1]; rfl
          · simp only [hj, if_false]; rfl
        · rw [n2, if_neg (by rw [h4]; simp)]
      · rw [if_neg hk]
        obtain ⟨k, hkd⟩ : ∃ k, k = commitRecord (s.ctx id) l r (s.targetHeld (.copy p)) := ⟨_, rfl⟩
        have f : linkFate s (s.ctx id) l = .written k := by
          unfold linkFate; simp only [h2, hr]
          rw [if_neg hd', if_neg (fun h => hk ((locked_eq r).mpr h)), hkd]
        have rep : committedReport s (s.ctx id) l = some (.copyUpdate p, .bookingUpdate k.record) := by
          unfold committedReport; rw [h2, f]
        have cop : committedCopy s (s.ctx id) l x = if 0 < cacheRoom s then none
            else some { x with record := some k.record, updateOwed := true, link := none, held := 0 } := by
          unfold committedCopy sentAtOnce; rw [f, h1]
          simp
        rw [← hkd]
        obtain ⟨A, hA⟩ : ∃ A, A = s.applyCommit ⟨id, 0⟩ l (.copy p) k := ⟨_, rfl⟩
        have hW : (Work.upd { st := s } fun s => s.applyCommit ⟨id, 0⟩ l (.copy p) k) = { st := A } := by rw [hA]; rfl
        rw [hW]
        obtain ⟨a1, a2, a4⟩ := applyCommit_rest s ⟨id, 0⟩ l (.copy p) k
        have a3 := applyCommit_copy s ⟨id, 0⟩ l p x k h3
        have arest : A = { s with pool := A.pool, cache := A.cache } := by
          rw [hA]; unfold State.applyCommit
          cases l.holdsUnit <;> cases k.overrun <;> rfl
        rw [← hA] at a1 a2 a3 a4
        obtain ⟨N, hN⟩ : ∃ N : PrivateCopy, N = { x with
          record := some k.record, held := if l.holdsUnit then x.held - 1 else x.held } := ⟨_, rfl⟩
        rw [← hN] at a3
        have ctxs : ∀ j, A.ctx j = if j = id then { s.ctx j with
            links := [{ l with holdsUnit := false }], flags := committedFlags s (s.ctx id) (s.ctx id).flags l
            damage := committedDamage s (s.ctx id) (s.ctx id).damage l } else s.ctx j := by
          intro j
          rw [a4]
          unfold committedFlags committedDamage
          rw [f]
          by_cases hj : j = id
          · subst hj
            simp only [if_true, h1]
            cases l.source.position <;> rfl
          · simp only [hj, if_false]
        have cnt : (if k.overrun then { s.cache.counters with pickupOverruns := bump s.cache.counters.pickupOverruns }
            else s.cache.counters) = committedCount s (s.ctx id) s.cache.counters l := by
          unfold committedCount; rw [f]
        rw [cnt] at a3
        show MidCopy s (Work.make (Work.upd { st := A } _) (.copyUpdate p)) id l p x
        obtain ⟨B, hB⟩ : ∃ B, B = A.updCopy p fun c => { c with updateOwed := true } := ⟨_, rfl⟩
        have hWB : (Work.upd { st := A } fun s => s.updCopy p fun c => { c with updateOwed := true }) = { st := B } := by rw [hB]; rfl
        rw [hWB]
        have Bc : B.cache = { s.cache with
            copies := s.cache.copies.set p (some { N with updateOwed := true })
            counters := committedCount s (s.ctx id) s.cache.counters l } := by
          have : B.cache = { A.cache with copies := upd A.cache.copies p (Option.map fun c => { c with updateOwed := true }) } := by
            rw [hB]; rfl
          rw [this, a3]
          simp [upd]
        have Bu : B.uplink = s.uplink := by rw [hB]; exact a1
        have Bp : B.cache.copies[p] = some { N with updateOwed := true } := by rw [Bc]; simp
        have broom : cacheRoom B = cacheRoom s := cacheRoom_of _ _ (by rw [Bc]) (by rw [Bu]) (by rw [Bu])
        have mk := make_copyUpdate { st := B } p _ k.record Bp (by rw [hN])
        have mt : (Work.make { st := B } (.copyUpdate p)).touched = [] := by
          unfold Work.make
          split
          · unfold Work.acceptOwed
            have : B.cache.copies[p.val] = some { N with updateOwed := true } := Bp
            simp only [Fin.getElem_fin, this, hN]
            split <;> rfl
          · rfl
        generalize hWW : Work.make { st := B } (.copyUpdate p) = WW at mk mt
        dsimp only at mk
        rw [broom] at mk
        have c1 := (reportsMade_congr (s := s) (t := B) Bu (by rw [Bc]) [(.copyUpdate p, .bookingUpdate k.record)]).1
        have c2 := (reportsMade_congr (s := s) (t := B) Bu (by rw [Bc]) [(.copyUpdate p, .bookingUpdate k.record)]).2
        have bctx : ∀ j, B.ctx j = A.ctx j := by rw [hB]; exact fun _ => rfl
        have brest : B = { s with pool := B.pool, cache := B.cache } := by
          rw [hB]; conv_lhs => rw [arest]
          rfl
        generalize hR : reportsMade B [(.copyUpdate p, .bookingUpdate k.record)] = R at c1 c2 mk
        have Rc : R.cache = { (reportsMade s [(.copyUpdate p, .bookingUpdate k.record)]).cache with
            copies := s.cache.copies.set p (some { N with updateOwed := true })
            counters := committedCount s (s.ctx id) s.cache.counters l } := by
          have : R.cache = { B.cache with sendOrder := R.cache.sendOrder } := by rw [← hR]; rfl
          rw [this, Bc, c2]; rfl
        have Rctx : ∀ j, R.ctx j = A.ctx j := fun j => by rw [← hR]; exact bctx j
        have Rrest : R = { s with pool := R.pool, cache := R.cache, uplink := R.uplink } := by
          have q : R = { B with uplink := R.uplink, cache := R.cache } := by rw [← hR]; rfl
          have p : R.pool = B.pool := by rw [← hR]; rfl
          rw [p]
          conv_lhs => rw [q, brest]
        unfold MidCopy
        rw [rep, cop, Option.toList_some]
        by_cases g : 0 < cacheRoom s
        · rw [if_pos g] at mk ⊢
          have hl : N.link.isSome = true := by rw [hN]; exact h5
          rw [if_pos hl] at mk
          refine ⟨{ l with holdsUnit := false }, { N with updateOwed := false }, mt, by rw [mk]; exact c1, ?_, ?_,
            fun j => by rw [mk]; exact (Rctx j).trans (ctxs j), rfl, rfl, by rw [hN], by rw [hN], by simp⟩
          · rw [mk]
            show ({ R.cache with copies := R.cache.copies.set p _ } : Cache) = _
            rw [Rc]
            simp
          · rw [mk]
            conv_lhs => rw [Rrest]
            rfl
        · rw [if_neg g] at mk ⊢
          refine ⟨{ l with holdsUnit := false }, { N with updateOwed := true }, mt, by rw [mk]; exact c1, by rw [mk]; exact Rc,
            by rw [mk]; exact Rrest, fun j => by rw [mk]; exact (Rctx j).trans (ctxs j), rfl, rfl, by rw [hN], by rw [hN], ?_⟩
          rw [hN]; simp
  · rw [if_neg hd]
    refine idle ?_
    have hd' : (s.ctx id).decision ≠ some .admitted ∧ (s.ctx id).decision ≠ some .inspect := by
      rw [not_or] at hd; exact hd
    unfold linkFate
    simp only [h2]
    cases s.linkRecord l <;> simp [hd']

/-- R102, R105, R112: the commit of a visit whose one link names a private copy under the one recall outstanding. -/
theorem commit_recalledCopy (s : State) (id : CtxId) (l : Link) (p : Fin 48) (x : PrivateCopy) (released : Bool)
    (h : LinksRecalledCopy s id l p x released) :
    let t := (Work.commit { st := s } id).finish
    t.touched = [] ∧ RecalledCopyCommitted s t.st id l p x released ∧
    t.st = { s with pool := t.st.pool, cache := t.st.cache, uplink := t.st.uplink } ∧
    (∀ j, j ≠ id → t.st.ctx j = s.ctx j) ∧
    t.st.ctx id = { s.ctx id with links := (t.st.ctx id).links, flags := (t.st.ctx id).flags, damage := (t.st.ctx id).damage } := by
  obtain ⟨h1, h2, h3, h4, h5, h6, h7, h8, h9⟩ := h
  obtain ⟨m, z, m1, m2, m3, m4, m5, m6, m7, m8, m9, m10⟩ := mid_copy s id l p x h1 h2 h3 h5 h6
  intro t
  generalize hW : (if (s.ctx id).decision = some .admitted ∨ (s.ctx id).decision = some .inspect then
        Work.commitLink s.writesThrough { st := s } ⟨id, 0⟩ else { st := s }) = W at m1 m2 m3 m4 m5
  have et : t = (W.commitDrop ⟨id, 0⟩).finish := by
    show (Work.commit { st := s } id).finish = _
    unfold Work.commit Work.refsOf
    rw [h1, ← hW]
    have : (List.map (fun k => (⟨id, k⟩ : LinkRef)) (List.range [l].length)) = [⟨id, 0⟩] := rfl
    rw [this]
    simp only [List.foldl_cons, List.foldl_nil, Bool.or_eq_true, beq_iff_eq]
  clear_value t
  obtain ⟨v, hv⟩ : ∃ v, v = reportsMade s (committedReport s (s.ctx id) l).toList := ⟨_, rfl⟩
  have vrec : v.cache.recalls = s.cache.recalls := by rw [hv]; rfl
  have vwait : v.cache.waitList = s.cache.waitList := by rw [hv]; rfl
  obtain ⟨d, hd⟩ : ∃ d, d = committedCopy s (s.ctx id) l x := ⟨_, rfl⟩
  -- the pin dropped
  have drop : ∃ g : Work, g = W.commitDrop ⟨id, 0⟩ ∧ g.touched = [] ∧ g.st.uplink = v.uplink ∧
      g.st.cache = { v.cache with copies := s.cache.copies.set p d, counters := committedCount s (s.ctx id) s.cache.counters l } ∧
      g.st = { s with pool := g.st.pool, cache := g.st.cache, uplink := g.st.uplink } ∧
      ∀ j, g.st.ctx j = if j = id then { s.ctx j with
        links := [{ l with target := none, holdsUnit := false }], flags := committedFlags s (s.ctx id) (s.ctx id).flags l
        damage := committedDamage s (s.ctx id) (s.ctx id).damage l } else s.ctx j := by
    have hl0 : W.st.link? ⟨id, 0⟩ = some m := by unfold State.link?; rw [m5, if_pos rfl]; rfl
    obtain ⟨u, hu⟩ : ∃ u : State, u = W.st.updLink ⟨id, 0⟩ fun l => { l with target := none, holdsUnit := false } := ⟨_, rfl⟩
    have uc : u.cache = W.st.cache := by rw [hu]; rfl
    have ucop : u.cache.copies[p] = some z := by rw [uc, m3]; simp
    have ucop' : u.cache.copies[p.val] = some z := ucop
    have uctx : ∀ j, u.ctx j = if j = id then { s.ctx j with
        links := [{ l with target := none, holdsUnit := false }], flags := committedFlags s (s.ctx id) (s.ctx id).flags l
        damage := committedDamage s (s.ctx id) (s.ctx id).damage l } else s.ctx j := by
      intro j
      rw [hu, updLink_ctx]
      by_cases hj : j = id
      · subst hj
        rw [if_pos rfl, if_pos rfl, m5, if_pos rfl]
        simp only [List.modify_cons, if_true, m6]
      · rw [if_neg hj, if_neg hj, m5, if_neg hj]
    have urest : u = { s with pool := u.pool, cache := u.cache, uplink := u.uplink } := by
      rw [hu]; conv_lhs => rw [m4]
      rfl
    refine ⟨_, rfl, ?_⟩
    have e : W.commitDrop ⟨id, 0⟩ =
        if z.updateOwed then { W with st := u.updCopy p fun c => { c with link := none, held := 0 } }
        else { W with st := u.setCopy p none, retry := true } := by
      unfold Work.commitDrop
      simp only [hl0, m7, h2]
      have : (W.upd fun s => s.updLink ⟨id, 0⟩ fun l => { l with target := none, holdsUnit := false }) = { W with st := u } := by
        rw [hu]; rfl
      rw [this]
      simp only [Fin.getElem_fin, ucop', Option.any_some]
      split <;> rfl
    rw [e]
    cases hz : z.updateOwed with
    | true =>
      rw [if_pos rfl]
      rw [hz, if_pos rfl] at m10
      refine ⟨m1, by show u.uplink = _; rw [hu, hv]; exact m2, ?_, ?_, fun j => uctx j⟩
      · show ({ u.cache with copies := upd u.cache.copies p _ } : Cache) = _
        rw [hd, ← m10, hv, uc, m3]
        simp [upd, hz]
      · conv_lhs => rw [urest]
        rfl
    | false =>
      rw [if_neg (by simp)]
      rw [hz, if_neg (by simp)] at m10
      refine ⟨m1, by show u.uplink = _; rw [hu, hv]; exact m2, ?_, ?_, fun j => uctx j⟩
      · show ({ u.cache with copies := u.cache.copies.set p none } : Cache) = _
        rw [hd, ← m10, hv, uc, m3]
        simp
      · conv_lhs => rw [urest]
        rfl
  obtain ⟨g, ge, g1, g2, g3, g4, g5⟩ := drop
  rw [← ge] at et
  have gid := g5 id
  rw [if_pos rfl] at gid
  cases hdd : d with
  | none =>
    rw [hdd] at g3
    have fin := finish_done g x.key released (by rw [g3]; exact vrec.trans h8) (by
      intro q c hc hk
      rw [g3] at hc
      by_cases hqp : q = p
      · subst hqp
        simp at hc
      · have : p.val ≠ q.val := fun e => hqp (Fin.ext e.symm)
        simp only [Fin.getElem_fin, Vector.getElem_set, this, if_false] at hc
        have vc : v.cache.copies = s.cache.copies := by rw [hv]; rfl
        exact h9 q hqp c (by simpa using hc) hk)
    dsimp only at fin
    have wl : (recallEnded g.st x.key released).cache.waitList = [] := by
      show g.st.cache.waitList = []; rw [g3]; exact vwait.trans h7
    rw [wl] at fin
    have tst : t.st = recallEnded g.st x.key released ∧ t.touched = [] := by
      rw [et, fin]; split <;> exact ⟨rfl, g1⟩
    rw [tst.1]
    have room : cacheRoom g.st = cacheRoom v := cacheRoom_of _ _ (by rw [g3]) (by rw [g2]) (by rw [g2])
    have e1 : (recallEnded g.st x.key released).uplink = (recallEnded v x.key released).uplink := by
      unfold recallEnded reportsMade; dsimp only; rw [room, g2]
    have e2 : (recallEnded g.st x.key released).cache = { (recallEnded v x.key released).cache with
        copies := s.cache.copies.set p none, counters := committedCount s (s.ctx id) s.cache.counters l } := by
      unfold recallEnded reportsMade; dsimp only; rw [room, g3]
    refine ⟨tst.2, ⟨by show (g.st.ctx id).links = _; rw [gid], by show (g.st.ctx id).flags = _; rw [gid],
      by show (g.st.ctx id).damage = _; rw [gid], ?_, ?_⟩, ?_, fun j hj => by show g.st.ctx j = _; rw [g5, if_neg hj], ?_⟩
    · rw [← hv, ← hd, hdd, if_pos rfl]; exact e1
    · rw [← hv, ← hd, hdd, if_pos rfl]; exact e2
    · have q : recallEnded g.st x.key released = { g.st with
          uplink := (recallEnded g.st x.key released).uplink, cache := (recallEnded g.st x.key released).cache } := rfl
      have qp : (recallEnded g.st x.key released).pool = g.st.pool := rfl
      rw [qp]
      generalize (recallEnded g.st x.key released).uplink = U at q ⊢
      generalize (recallEnded g.st x.key released).cache = C at q ⊢
      conv_lhs => rw [q, g4]
    · have q2 : (recallEnded g.st x.key released).ctx id = g.st.ctx id := rfl
      rw [q2, gid]
  | some y =>
    rw [hdd] at g3
    have gw : RecallsWait g.st := by
      intro q hq
      rw [g3] at hq
      have : q ∈ s.cache.recalls := by rw [← vrec]; exact hq
      rw [h8, List.mem_singleton] at this
      subst this
      right; right
      refine ⟨p, y, by rw [g3]; simp, ?_⟩
      have hm := m10
      rw [← hd, hdd] at hm
      split at hm
      · have := Option.some.inj hm
        rw [← this]
        exact ⟨m8, m9.trans h4⟩
      · cases hm
    have fin := finish_waits g gw
    rw [show g.st.cache.waitList = [] by rw [g3]; exact vwait.trans h7] at fin
    have tst : t.st = g.st ∧ t.touched = [] := by
      rw [et, fin]; split <;> exact ⟨rfl, g1⟩
    rw [tst.1]
    refine ⟨tst.2, ⟨by rw [gid], by rw [gid], by rw [gid], ?_, ?_⟩, g4, fun j hj => by rw [g5, if_neg hj], ?_⟩
    · rw [← hv, ← hd, hdd, if_neg (by simp)]; exact g2
    · rw [← hv, ← hd, hdd, if_neg (by simp)]; exact g3
    · rw [gid]

end Sys2Proof.Laws
end

