-- ==== Sys2Proof/Tests/Slice0.lean ====
section
/-! SUPPORT. Tests of the model on small states: the well-formedness checks, the codes and check sums of file 11, one
step of the commands, and for every statement with hypotheses a state and operands that meet them. -/

namespace Sys2Proof.Tests

set_option Elab.async false

open Sys2Proof.Machine Sys2Proof.Safety

/-! ### States to start from -/

/-- What a command leaves. -/
def after (c : Instr) (s : State) : State :=
  match exec c s with
  | .next t => t
  | .fault _ => s
  | .refused _ => s

/-- A part whose four segments are UP. -/
def up : State := { State.reset with ports := Vector.replicate 4 (SegPort.initial true) }

/-- Address 1 of segment A is a station of lane 3, ACTIVE, FROZEN and forwarding, of a role and a zone. -/
def mapped (s : State) (r : Role) (z : Zone) : State :=
  s.updStation 0 fun e =>
    { e with
      state := .frozen, identity := some 9, role := r, zone := z, weight := 8, silent := false, lane := 3, forward := true
      silenceTimer := some 10 }

/-- A frame of that station, of sequence 4. -/
def frame (m : LaneMsg) : RxFrame := ⟨0, 4, m, [0, 1]⟩

/-- The frame stands in the receive queue of segment A. -/
def queued (s : State) (m : LaneMsg) : State := s.updPort 0 fun p => { p with rxQueue := [frame m] }

/-- Context 2 is visit 7 on lane 3, as `c` says. -/
def visit (s : State) (c : Ctx) : State :=
  let s := s.updCtx 2 fun _ => { c with visit := 7, lane := 3 }
  s.updLane 3 fun l => { l with
    mode := .open, ctxs := [2], front := if c.state.atPosition then some 2 else none }

/-- The report queue holds 64 reports. -/
def full (s : State) : State := s.updUplink fun u => { u with queue := List.replicate 64 ⟨.flushDone, none⟩ }

/-- The report queue is empty. -/
def emptied (s : State) : State := s.updUplink fun u => { u with queue := [] }

/-- The filter of an input of lane 3 is about to end at the level `on`. -/
def firing (s : State) (inp : Input) (on : Bool) : State :=
  s.updInput 3 inp fun i => { i with enabled := true, pin := on, level := !on, timer := some 2 }

/-- The header of a gate frame. -/
def hdr : GateHdr := ⟨0x020000000001, 0x1234⟩

/-- A text of `n` equal characters. -/
def chars (n : Nat) (b : Byte) : Text := List.replicate n b

/-- The key AAAAAAAAAAA. -/
def keyA : Text := chars 11 0x41

/-- A booking record of that key. -/
def recA (k : BookingKind) : Record where
  key := keyA
  kind := k
  slot := none
  operator := chars 3 0x41
  length := .l20
  seals := []
  prior := []
  customsHold := false
  lineHold := false
  hint := none
  progress := .booked
  remaining := 1
  recorded := none

/-- The bytes of a record of file 11 with no slot, no seals, no marks and nothing recorded. -/
def bytesA : List Byte :=
  keyA ++ [0, 0, 0, 0xFF] ++ chars 3 0x41 ++ [20, 0] ++ List.replicate 22 0 ++ [0] ++ List.replicate 60 0 ++
    [0, 0xFF, 0, 1, 0, 0] ++ List.replicate 11 0

/-- A link of a key to a target. -/
def link (st : LinkState) (t : Option Target) : Link := ⟨keyA, .unitFwd, t, st, false⟩

/-- The key's entry in way 0. -/
def cached (s : State) (e : Entry) : State := s.updEntry (setIndex keyA) 0 fun _ => { e with key := some keyA }

/-- A fetch in slot 0. -/
def fetching (s : State) (t : Target) : State :=
  s.setSlot 0 (some ⟨keyA, t, 0x1234, .sent, none, some 150⟩)

/-! ### Well-formedness: for each check a term it refuses -/

theorem test_wf_refuses_empty_frame : (Instr.laneFrameReceived 0 []).wf = false := by decide
theorem test_wf_refuses_short_record : (Instr.bookingData hdr [0]).wf = false := by decide
theorem test_wf_refuses_short_key : (Instr.bookingNone hdr []).wf = false ∧ (Instr.bookingRecall hdr []).wf = false := by
  decide
theorem test_wf_refuses_known_kind : (Instr.gateFrameUnknownKind hdr 11).wf = false := by decide
theorem test_wf_refuses_parameter_of_another_row :
    (Instr.tableWriteParameters hdr 14 0x7E 0).wf = false ∧ (Instr.tableWriteParameters hdr 35 0 0).wf = false := by decide
theorem test_wf_refuses_wrong_record_length : (Instr.tableWrite hdr 3 0 [0, 0]).wf = false := by decide
theorem test_wf_refuses_listed_commands :
    (Instr.laneCommandBadValue hdr 3).wf = false ∧ (Instr.partCommandBadValue hdr 0).wf = false := by decide
theorem test_wf_takes_the_boundary_terms :
    (Instr.tableWriteParameters hdr 36 1 0).wf = true ∧ (Instr.gateFrameUnknownKind hdr 12).wf = true ∧
      (Instr.tableWrite hdr 99 0 []).wf = true ∧ (Instr.laneCommandBadValue hdr 4).wf = true := by decide

/-! ### Words and bytes (file 11) -/

theorem test_no_word_spells_a_command : decodeTableWord 32 7 = none ∧ State.withFetchWord up 32 7 = up := by
  constructor <;> rfl
theorem test_lane_crc_of_the_nine_digits :
    crc16 [0x31, 0x32, 0x33, 0x34, 0x35, 0x36, 0x37, 0x38, 0x39] = 0x29B1 := by decide +kernel
theorem test_frame_check_sequence_of_the_nine_digits :
    crc32 [0x31, 0x32, 0x33, 0x34, 0x35, 0x36, 0x37, 0x38, 0x39] = 0xCBF43926 := by decide +kernel
theorem test_record_bytes_are_read : bytesA.length = 120 ∧ recordOfBytes bytesA = some (recA .exportFull) := by
  decide +kernel
theorem test_window_limits_of_the_manual :
    ({ capacity := 20, overbook := 2, openShare := 6 } : Window).max = 25 ∧
      ({ capacity := 20, overbook := 2, openShare := 6 } : Window).openLimit = 18 ∧
      ({ capacity := 255, overbook := 8, openShare := 8 } : Window).max = 510 := by decide

/-! ### Hypotheses are met: a state and operands for each clause, with what the command leaves there -/

theorem test_meets_StepTakesTheFrontCommand :
    ({ up with pending := [.clockMinute, .heartbeatExpiry] } : State).pending = .clockMinute :: [.heartbeatExpiry] := rfl

theorem test_meets_OutputsDriveTheirSource :
    let remote := up.updLane 3 fun l => { l with go := { remote := true, remoteValue := true } }
    let manual := up.updLane 3 fun l => { l with mode := .manual, go := { consoleValue := true } }
    let free := visit up { state := .releasing }
    ({ remote with resetHeld := true } : State).driven 3 .go = false ∧ remote.driven 3 .go = true ∧
      manual.driven 3 .go = true ∧ free.driven 3 .go = true ∧ free.driven 3 .stop = false ∧ up.driven 3 .stop = true := by
  decide +kernel

/-- A lane frame of a READ_PLATE with its CRC. -/
def plateBytes (dst src : Byte) : List Byte :=
  let body := [dst, src, 1, 4, 2, 90, 0x41]
  body ++ bytesOf16 (crc16 body)

theorem test_meets_ReceivedFrameIsCountedOrQueued :
    up.resetHeld = false ∧ (up.port 0).state ≠ .down ∧
      ((after (.laneFrameReceived 0 (plateBytes 0 1)) up).port 0).rxQueue.length = 1 ∧
      ((after (.laneFrameReceived 0 (plateBytes 5 1)) up).port 0).counters.foreignFrames = 1 ∧
      ((after (.laneFrameReceived 0 (plateBytes 0 32)) up).port 0).counters.formatErrors = 1 ∧
      ((after (.laneFrameReceived 0 [1, 2]) up).port 0).counters.crcErrors = 1 ∧
      ((after (.laneFrameReceived 0 (plateBytes 0 1)) (up.updPort 0 fun p =>
        { p with rxQueue := List.replicate 16 (frame .status) })).port 0).counters.overruns = 1 := by
  decide +kernel

theorem test_meets_FrameCheckTakesThePartsInOrder :
    let tail (b : List Byte) : List Byte := bytesOf16 (crc16 b)
    (tail [0, 31, 9, 4, 0]).length = 2 ∧ ([0, 0] : List Byte) ≠ tail [0, 31, 9, 4, 0] ∧
      ([] : List Byte).length ≠ (1 : Byte).toNat ∧ (1 : Byte).toNat ≠ 0 ∧ laneMsgOf 0x7F [] = none ∧
      laneMsgOf 9 [] = some .status ∧
      frameCheck ([0, 31, 9, 0x14, 0] ++ tail [0, 31, 9, 0x14, 0]) = .passed ⟨30, 4, .status, [0, 31, 9, 0x14, 0]⟩ ∧
      frameCheck ([0, 1, 9, 4, 1] ++ tail [0, 1, 9, 4, 1]) = .crcError ∧
      frameCheck ([1, 1, 9, 4, 0] ++ tail [1, 1, 9, 4, 0]) = .foreign ∧
      frameCheck ([0, 0, 9, 4, 0] ++ tail [0, 0, 9, 4, 0]) = .formatError := by
  decide +kernel

theorem test_meets_ErrorWindowMovesTheSegment :
    let s := { up with params := { up.params with segThreshold := #v[3, 0, 0, 0] } }
    let four := s.updPort 0 fun p => { p with windowCount := 3 }
    up.resetHeld = false ∧ (up.port 0).windowTimer = true ∧ ((four.windowRise 0).port 0).state = .impaired ∧
      ((after (.errorWindowExpiry 0) (four.updPort 0 fun p => { p with state := .impaired })).port 0).state = .up := by
  decide +kernel

theorem test_meets_SequenceCheckDecidesEachFrame :
    let s := queued up .status
    let dup := s.updPort 0 fun p => { p with seqRecord := p.seqRecord.set 0 (some 4) }
    let gap := s.updPort 0 fun p => { p with seqRecord := p.seqRecord.set 0 (some 2) }
    AtHead s 0 (frame .status) [] ∧ AtHead dup 0 (frame .status) [] ∧ (frame .status).msg.kind = .status ∧
      (s.port 0).seqRecord[(0 : Addr)] = none ∧ (dup.port 0).seqRecord[(0 : Addr)] = some 4 ∧
      ((after (.stationStatus 0) dup).port 0).counters.duplicates = 1 ∧
      ((after (.stationStatus 0) gap).port 0).counters.sequenceErrors = 1 := by
  decide +kernel

theorem test_meets_HelloAndStatusAreHeard :
    let learn := (mapped (queued up (.hello 9)) .plate .approach).updStation 0 fun e =>
      { e with state := .learn, identity := none, silent := true }
    let known := mapped (queued up (.hello 9)) .plate .approach
    let other := mapped (queued up (.hello 8)) .plate .approach
    let status := mapped (queued up .status) .plate .approach
    AtHead learn 0 (frame (.hello 9)) [] ∧ (sender learn 0 (frame (.hello 9))).state = .learn ∧
      (sender known 0 (frame (.hello 9))).identity = some 9 ∧ (sender other 0 (frame (.hello 8))).identity ≠ some 8 ∧
      Consumed status 0 (frame .status) [] ∧ (status.port 0).state ≠ .down ∧
      ((after (.stationHello 0) learn).station 0).identity = some 9 ∧
      ((after (.stationHello 0) learn).station 0).silent = false ∧
      ((after (.stationHello 0) other).station 0).mismatched = true ∧
      ((after (.stationStatus 0) status).station 0).silenceTimer = some 10 := by
  decide +kernel

theorem test_meets_SignalAndSendingMoveTheSegment :
    let s := (mapped up .console .position).updLane 3 fun l => { l with mode := .manual, holder := some 0 }
    let sending := up.updPort 0 fun p => { p with txQueue := [⟨0, .ticket, 0, []⟩] }
    s.resetHeld = false ∧ (s.port 0).state ≠ .down ∧ (State.reset.port 0).state = .down ∧
      s.uplink.queue.length < 56 ∧ (s.station (stationIx 0 0)).state ≠ .empty ∧
      (s.lane 3).mode = .manual ∧ (s.lane 3).holder = some (stationIx 0 0) ∧
      (sending.port 0).txQueue = ⟨0, .ticket, 0, []⟩ :: [] ∧
      ((State.silenceStation 0 s 0).station 0).silent = true ∧ ((State.releaseSilent 0 s 0).lane 3).mode = .suspended ∧
      ((after (.signalDetect 0) State.reset).port 0).state = .up ∧
      ((after (.transmitEnd 0) sending).port 0).txQueue = [] := by
  decide +kernel

theorem test_meets_SilenceExpiryEndsTheHold :
    let s := (mapped up .console .position).updLane 3 fun l => { l with mode := .manual, holder := some 0 }
    s.resetHeld = false ∧ (s.station (stationIx 0 0)).silenceTimer.isSome = true ∧
      ((after (.stationSilenceExpiry 0 0) s).lane 3).mode = .suspended ∧
      ((after (.stationSilenceExpiry 0 0) s).station 0).silent = true := by
  decide +kernel

/-- A plate read at the position of a visit in IDENTIFYING. -/
def plateRead : State := visit (mapped (queued up (.readPlate 90 (chars 6 0x41))) .plate .position) { state := .identifying }

theorem test_meets_IdentityReadIsScored :
    let unit := visit (mapped (queued up (.readUnit .fwd 90 (chars 11 0x30) (chars 4 0x32))) .unit .position)
      { state := .identifying }
    let tag := visit (mapped (queued up (.readTag 90 (chars 12 0x30))) .tag .position) { state := .identifying }
    let lock := visit (mapped (queued up (.readSeal .aft 90 (chars 4 0x30))) .seal .position) { state := .identifying }
    let good : Text := chars 4 0x41 ++ chars 7 0x30
    let right := visit (mapped (queued up (.readUnit .aft 90 good (chars 4 0x32))) .unit .position) { state := .identifying }
    Consumed plateRead 0 (frame (.readPlate 90 (chars 6 0x41))) [] ∧ plateRead.attach 3 .position = some 2 ∧
      scoring (weightOf plateRead 0 (frame (.readPlate 90 (chars 6 0x41)))) (.readPlate 90 (chars 6 0x41)) =
        some (.plate, chars 6 0x41, 90, none) ∧
      Waits ((plateRead.ctx 2).scoreRead plateRead.params .plate (chars 6 0x41) 90 none) ∧
      unitFormOk (chars 11 0x30) = false ∧ Waits (unit.ctx 2) ∧
      ((after (.readPlate 0) plateRead).ctx 2).plate.candidates = [⟨chars 6 0x41, 90, 1, none⟩] ∧
      ((after (.readTag 0) tag).ctx 2).tag.candidates = [⟨chars 12 0x30, 100, 1, none⟩] ∧
      ((after (.readSeal 0) lock).ctx 2).sealAft.candidates = [⟨chars 4 0x30, 90, 1, none⟩] ∧
      ((after (.readUnit 0) right).ctx 2).unitAft.candidates = [⟨good, 90, 1, some (chars 4 0x32)⟩] ∧
      ((after (.readUnit 0) unit).lane 3).counters.unitFormErrors = 1 := by
  decide +kernel

theorem test_meets_OrphanReadsAreCounted :
    let s := mapped (queued up (.readPlate 90 (chars 6 0x41))) .plate .position
    Consumed s 0 (frame (.readPlate 90 (chars 6 0x41))) [] ∧ s.attach 3 .position = none ∧
      ((after (.readPlate 0) s).lane 3).counters.orphanReads = 1 := by
  decide +kernel

theorem test_meets_ReadsScoreAndSettleTheirField :
    let c (b : Byte) (n : Nat) : Candidate := ⟨[b], n, 1, none⟩
    let four : ConsField := { candidates := [c 1 9, c 2 5, c 3 5, c 4 8] }
    let one : ConsField := { candidates := [c 1 200, c 2 100] }
    let held : ConsField := { state := .settled, candidates := [c 1 100, c 2 200], latched := some [1] }
    four.takeRead [9] 6 none = ({ four with candidates := [c 1 9, c 3 5, c 4 8, c 9 6] }, true) ∧
      four.takeRead [9] 5 none = ({ four with discards := 1 }, false) ∧
      one.takeRead [1] 900 none = ({ one with candidates := [⟨[1], 1023, 2, none⟩, c 2 100] }, true) ∧
      one.takeRead [9] 6 none = ({ one with candidates := [c 1 200, c 2 100, c 9 6] }, true) ∧
      (one.ranked 200 100).state = .settled ∧ (one.ranked 200 101).state = .open ∧
      (held.ranked 1 1).state = .contested ∧ (held.ranked 1 1).latched = some [1] ∧
      (({ four with state := .absent } : ConsField).ranked 0 0).state = .absent := by
  decide +kernel

theorem test_meets_RefusedFramesReachNoBlock :
    let s := mapped (queued up (.readPlate 90 (chars 6 0x41))) .tag .position
    let m := (mapped (queued up (.readPlate 90 (chars 6 0x41))) .plate .position).updLane 3 fun l => { l with mode := .manual }
    let f := frame (.readPlate 90 (chars 6 0x41))
    AtHead s 0 f [] ∧ (s.port 0).seqRecord[f.src] ≠ some f.seq ∧ (sender s 0 f).state ≠ .empty ∧
      (sender s 0 f).mismatched = false ∧ f.msg.kind ≠ .hello ∧ (sender s 0 f).role.accepts f.msg.kind = false ∧
      (sender m 0 f).role.accepts f.msg.kind = true ∧ f.msg.kind.isReading = true ∧ (m.lane (sender m 0 f).lane).mode = .manual ∧
      ((after (.readPlate 0) s).port 0).counters.roleRefusals = 1 ∧
      (after (.readPlate 0) m).uplink.queue.getLast? = some ⟨.passFrame 0 0 [0, 1], none⟩ := by
  decide +kernel

theorem test_meets_DamageMarksJoinTheRawList :
    let k (n : Nat) : RawMark := ⟨.top, 1, n, .dent, 9⟩
    let s (st : CtxState) := visit (mapped (queued up (.damageMarks .aft [k 1, { k 2 with severity := 0 }])) .damage .position)
      { state := st }
    let f := frame (.damageMarks .aft [k 1, { k 2 with severity := 0 }])
    let l : RawList := { marks := [k 1] }
    Consumed (s .lookup) 0 f [] ∧ (s .lookup).attach 3 .position = some 2 ∧ Waits ((s .lookup).ctx 2) ∧
      ((s .lookup).ctx 2).state.beforeDecision = true ∧ ((s .decided).ctx 2).state.beforeDecision = false ∧
      Consumed (s .decided) 0 f [] ∧ (s .decided).attach 3 .position = some 2 ∧
      ((after (.damageMarks 0) (s .lookup)).ctx 2).raw.aft.marks = [{ k 1 with severity := 7 }] ∧
      (after (.damageMarks 0) (s .lookup)).check.counters.marksIgnored = 1 ∧
      ((after (.damageMarks 0) (s .decided)).lane 3).counters.lateFrames = 1 ∧
      (∀ y ∈ l.marks, samePlace (k 2) y = false) ∧ samePlace (k 1) (k 1) = true ∧
      (({ marks := List.replicate 24 (k 1) } : RawList).add (k 2)).1.overflow = true := by
  decide +kernel

theorem test_meets_ScanEndGivesTheLayout :
    let s := visit (mapped (queued up (.scanEnd ⟨0, none, none⟩)) .damage .position) { state := .identifying }
    let twice := visit (mapped (queued up (.scanEnd ⟨0, none, none⟩)) .damage .position)
      { state := .decided, layout := some ⟨1, some (.l20, .unknown), none⟩ }
    Consumed s 0 (frame (.scanEnd ⟨0, none, none⟩)) [] ∧ s.attach 3 .position = some 2 ∧
      Waits { s.ctx 2 with layout := some ⟨0, none, none⟩ } ∧
      ((after (.scanEnd 0) s).ctx 2).layout = some ⟨0, none, none⟩ ∧
      ((after (.scanEnd 0) twice).ctx 2).layoutConflict = true ∧
      ((after (.scanEnd 0) twice).ctx 2).flags.contestedLate = true := by
  decide +kernel

theorem test_meets_KioskEntryGivesTheReference :
    let s (st : CtxState) := visit (mapped (queued up (.kioskEntry keyA)) .kiosk .position) { state := st }
    Consumed (s .identifying) 0 (frame (.kioskEntry keyA)) [] ∧ (s .identifying).attach 3 .position = some 2 ∧
      Waits { (s .identifying).ctx 2 with kiosk := some keyA } ∧ Consumed (s .lookup) 0 (frame (.kioskEntry keyA)) [] ∧
      (s .lookup).attach 3 .position = some 2 ∧
      ((after (.kioskEntry 0) (s .identifying)).ctx 2).kiosk = some keyA ∧
      ((after (.kioskEntry 0) (s .lookup)).lane 3).counters.lateFrames = 1 := by
  decide +kernel

/-- A page of four empty lines. -/
def blank : Page := ⟨[], [], [], []⟩

theorem test_meets_SignAckMarksTheHalves :
    let sign (ch : SignChannel) := (mapped (queued up (.signAck 5)) .sign .position).updStation 0 fun e =>
      { e with channel := some ch }
    let g : InFlight := ⟨blank, some 5, some 6, false, false⟩
    let half := sign ⟨true, some g, none, none, some 40⟩
    let whole := sign ⟨true, some ⟨blank, some 4, some 5, true, false⟩, none, none, some 40⟩
    let more := sign ⟨true, some ⟨blank, some 4, some 5, true, false⟩, some blank, none, some 40⟩
    let none' := sign ⟨false, none, none, none, none⟩
    Consumed half 0 (frame (.signAck 5)) [] ∧ Consumed none' 0 (frame (.signAck 5)) [] ∧
      g.mark 5 = some { g with upperMarked := true } ∧
      (InFlight.mark ⟨blank, some 4, some 5, true, false⟩ 5) = some ⟨blank, some 4, some 5, true, true⟩ ∧
      ((after (.signAck 0) half).station 0).channel = some ⟨true, some { g with upperMarked := true }, none, none, some 40⟩ ∧
      ((after (.signAck 0) whole).station 0).channel = some ⟨false, none, none, some blank, none⟩ ∧
      (((after (.signAck 0) more).station 0).channel.map (·.waiting)) = some none ∧
      (after (.signAck 0) none').signs.counters.straySignAcks = 1 := by
  decide +kernel

theorem test_meets_TicketAckTakesTheOldest :
    let s := (mapped (queued up (.ticketAck 5)) .printer .position).updStation 0 fun e =>
      { e with tickets := [⟨7, some 5, some 100⟩, ⟨8, none, some 100⟩] }
    let stray := s.updStation 0 fun e => { e with tickets := [⟨8, none, some 100⟩] }
    Consumed s 0 (frame (.ticketAck 5)) [] ∧ Consumed stray 0 (frame (.ticketAck 5)) [] ∧
      (s.station 0).tickets = ⟨7, some 5, some 100⟩ :: [⟨8, none, some 100⟩] ∧
      ((after (.ticketAck 0) s).station 0).tickets = [⟨8, none, some 100⟩] ∧
      (after (.ticketAck 0) stray).signs.counters.strayTicketAcks = 1 := by
  decide +kernel

theorem test_meets_ConsoleTakeEntersManual :
    let s := full (visit (mapped (queued up .consoleTake) .console .position) { state := .identifying })
    let held (ix : StationIx) := (mapped (queued up .consoleTake) .console .position).updLane 3 fun l =>
      { l with mode := .manual, holder := some ix }
    Consumed s 0 (frame .consoleTake) [] ∧ (s.lane 3).mode ≠ .manual ∧ QueueFull s ∧ 2 ∈ (s.lane 3).ctxs ∧
      Consumed (held 0) 0 (frame .consoleTake) [] ∧ Consumed (held 1) 0 (frame .consoleTake) [] ∧
      ((after (.consoleTake 0) s).lane 3).holder = some 0 ∧ ((after (.consoleTake 0) s).ctx 2).state = .closing ∧
      ((after (.consoleTake 0) (held 1)).lane 3).counters.consoleRefusals = 1 := by
  decide +kernel

theorem test_meets_ConsoleReleaseAndOutput :
    let held (m : LaneMsg) (ix : StationIx) := (mapped (queued up m) .console .position).updLane 3 fun l =>
      { l with mode := .manual, holder := some ix }
    let out : LaneMsg := .consoleOutput (some true) none (some false)
    Consumed (held .consoleRelease 0) 0 (frame .consoleRelease) [] ∧ Consumed (held out 0) 0 (frame out) [] ∧
      Consumed (held out 1) 0 (frame out) [] ∧
      ((after (.consoleRelease 0) (held .consoleRelease 0)).lane 3).mode = .suspended ∧
      ((after (.consoleOutput 0) (held out 0)).lane 3).barrier.consoleValue = true ∧
      ((after (.consoleOutput 0) (held out 1)).lane 3).counters.consoleRefusals = 1 := by
  decide +kernel

theorem test_meets_InputLevelsPassTheirFilters :
    let i (en level : Bool) (filter : Nat) := up.updInput 3 .entry fun x => { x with enabled := en, level := level, filter := filter }
    let on := firing up .entry false
    let pos := firing (visit up { state := .arriving }) .position false
    let edge := (firing up .exit false).updLane 3 fun l => { l with exitOnEdge := true }
    up.resetHeld = false ∧ ((i true false 2).input 3 .entry).pin ≠ true ∧ (true != ((i true true 2).input 3 .entry).activeLow) = true ∧
      FilterEnds on 3 .entry false ∧ FilterEnds pos 3 .position false ∧ FilterEnds edge 3 .exit false ∧
      (edge.lane 3).exitOnEdge = true ∧ (up.input 3 .entry).timer = none ∧
      ((after (.inputLevelChange 3 .entry true) (i false false 2)).input 3 .entry).pin = true ∧
      ((after (.inputLevelChange 3 .entry true) (i true false 2)).input 3 .entry).timer = some 2 ∧
      ((after (.inputLevelChange 3 .entry true) (i true true 2)).input 3 .entry).timer = none ∧
      ((after (.inputLevelChange 3 .entry true) (i true false 0)).input 3 .entry).level = true ∧
      ((after (.inputFilterExpiry 3 .entry) on).input 3 .entry).level = false ∧
      ((after (.inputFilterExpiry 3 .position) pos).ctx 2).approachTimer = some 180 := by
  decide +kernel

theorem test_meets_EntryOnIsServedOrCounted :
    let s (m : LaneMode) (n : Nat) := (firing up .entry true).updLane 3 fun l => { l with mode := m, pendingArrivals := n }
    let two (n : Nat) := (s .open n).updLane 3 fun l => { l with ctxs := [4, 5] }
    FilterEnds (s .open 0) 3 .entry true ∧ FilterEnds (two 3) 3 .entry true ∧ 2 ≤ ((two 3).lane 3).ctxs.length ∧
      (((s .open 0).lane 3).ctxs.length < 2 ∧ ((s .open 0).ctx 0).state = .free ∧
        ∀ j : CtxId, j < 0 → ((s .open 0).ctx j).state ≠ .free) ∧
      ((after (.inputFilterExpiry 3 .entry) (s .closed 0)).lane 3).counters.refusedEntries = 1 ∧
      ((after (.inputFilterExpiry 3 .entry) (two 2)).lane 3).pendingArrivals = 3 ∧
      ((after (.inputFilterExpiry 3 .entry) (two 3)).lane 3).counters.arrivalsLost = 1 ∧
      ((after (.inputFilterExpiry 3 .entry) (s .open 0)).ctx 0).approachTimer = some 180 ∧
      (after (.inputFilterExpiry 3 .entry) (s .open 0)).visitCounter = 2 := by
  decide +kernel

theorem test_meets_PositionOnAdvancesTheOldest :
    let s (st : CtxState) := firing (visit up { state := st, approachTimer := some 180 }) .position true
    let none' (m : LaneMode) := (firing up .position true).updLane 3 fun l => { l with mode := m }
    FilterEnds (s .arriving) 3 .position true ∧ FilterEnds (s .lookup) 3 .position true ∧
      (∃ j ∈ ((s .lookup).lane 3).ctxs, ((s .lookup).ctx j).state.atPosition = true) ∧
      (∀ j ∈ ((s .arriving).lane 3).ctxs, ((s .arriving).ctx j).state.atPosition = false) ∧
      ((s .arriving).lane 3).ctxs = [] ++ 2 :: [] ∧ ((s .arriving).ctx 2).lane = 3 ∧
      ((s .arriving).ctx 2).identified = false ∧ FilterEnds (none' .open) 3 .position true ∧
      ((none' .open).lane 3).ctxs = [] ∧ ((none' .open).ctx 0).state = .free ∧
      ((after (.inputFilterExpiry 3 .position) (s .lookup)).ctx 2).approachTimer = none ∧
      ((after (.inputFilterExpiry 3 .position) (s .arriving)).ctx 2).state = .identifying ∧
      ((after (.inputFilterExpiry 3 .position) (s .arriving)).ctx 2).identTimer = some 60 ∧
      ((after (.inputFilterExpiry 3 .position) (none' .open)).ctx 0).state = .identifying ∧
      ((after (.inputFilterExpiry 3 .position) (none' .closed)).lane 3).counters.refusedEntries = 1 := by
  decide +kernel

theorem test_meets_PassesAndTheBarrier :
    let pass (m : LaneMode) := (firing (visit up { state := .decided }) .exit true).updLane 3 fun l => { l with mode := m }
    let down (st : CtxState) := firing (visit up { state := st }) .barrierDown true
    FilterEnds (pass .open) 3 .exit true ∧ ((pass .open).lane 3).front = some 2 ∧ ((pass .open).ctx 2).state ≠ .releasing ∧
      ((pass .manual).lane 3).mode = .manual ∧ FilterEnds (down .decided) 3 .barrierDown true ∧
      ((down .decided).lane 3).front = some 2 ∧ ((down .decided).ctx 2).lane = 3 ∧ ((down .lookup).ctx 2).state ≠ .decided ∧
      ((after (.inputFilterExpiry 3 .exit) (pass .manual)).lane 3).counters.manualPasses = 1 ∧
      ((after (.inputFilterExpiry 3 .exit) (pass .open)).lane 3).counters.unauthorisedPasses = 1 ∧
      ((after (.inputFilterExpiry 3 .barrierDown) (down .decided)).ctx 2).state = .releasing := by
  decide +kernel

/-- The clock stands at minute 600 of day 5, and window 40 of that day is OPEN with a place reserved. -/
def timed (s : State) : State :=
  let s := (s.setClock ⟨5, 600, 0⟩).takeDays 5
  s.updWindow .today 40 fun _ => { isOpen := true, capacity := 1, reserved := 1 }

theorem test_meets_ReleaseEdgeCommits :
    let s (r : Option Reservation) := full (firing (timed (visit up
      { state := .releasing, reservation := r, inTransit := true })) .exit false)
    let t := (s (some ⟨5, 40, false⟩)).updDest fun u => { u with transit := [⟨7, 0, none⟩] }
    FilterEnds t 3 .exit (t.lane 3).exitOnEdge ∧ (t.lane 3).front = some 2 ∧ (t.ctx 2).state = .releasing ∧
      (t.ctx 2).lane = 3 ∧ (t.ctx 2).links = [] ∧ t.cache.recalls = [] ∧ QueueFull t ∧ t.reads 3 .position = false ∧
      t.windowPlace 5 40 = some (.today, 40) ∧ ((s none).ctx 2).reservation = none ∧
      ((s none).ctx 2).flags.overrideAdmission = false ∧ ((s (some ⟨9, 40, true⟩)).ctx 2).reservation = some ⟨9, 40, true⟩ ∧
      (s none).windowPlace 9 40 = none ∧
      ((after (.inputFilterExpiry 3 .exit) t).ctx 2).outcome = some .completed ∧
      ((after (.inputFilterExpiry 3 .exit) t).windowAt (.today, 40)).admitted = 1 ∧
      (after (.inputFilterExpiry 3 .exit) t).dest.transit = [⟨7, 0, some 7845⟩] ∧
      (after (.inputFilterExpiry 3 .exit) (s (some ⟨9, 40, true⟩))).slot.counters.commitsLost = 1 := by
  decide +kernel

theorem test_meets_ApproachExpiryWithdraws :
    let s := visit (emptied up) { state := .arriving, approachTimer := some 180 }
    s.resetHeld = false ∧ (s.ctx 2).state = .arriving ∧ (s.ctx 2).approachTimer.isSome = true ∧ QueueFull (full s) ∧
      s.uplink.queue.length < 64 ∧ s.uplink.waiters = [] ∧ (∀ l : LaneId, (s.lane l).pendingArrivals = 0) ∧
      ((after (.approachExpiry 2) (full s)).ctx 2).outcome = some .withdrawn ∧
      (after (.approachExpiry 2) (full s)).uplink.waiters = [.visitReport 2] ∧
      ((after (.approachExpiry 2) s).ctx 2).state = .free := by
  decide +kernel

theorem test_meets_IdentificationExpiryEntersLookup :
    let c (b : Byte) (n : Nat) : Candidate := ⟨[b], n, 1, none⟩
    let f : ConsField := { candidates := [c 1 75, c 2 45] }
    let s := visit up { state := .identifying, identTimer := some 60, plate := f, kiosk := some keyA }
    s.resetHeld = false ∧ (s.ctx 2).state = .identifying ∧ (s.ctx 2).identTimer.isSome = true ∧
      (f.finalise 150 60).state = .weak ∧ (f.finalise 152 60).state = .unresolved ∧ (f.finalise 150 62).state = .unresolved ∧
      (({} : ConsField).finalise 0 0).state = .absent ∧
      (({ state := .contested } : ConsField).finalise 0 0).state = .contested ∧
      ((after (.identificationExpiry 2) s).ctx 2).state = .lookup ∧
      ((after (.identificationExpiry 2) s).ctx 2).plate.state = .weak ∧
      ((after (.identificationExpiry 2) s).ctx 2).links.map (·.key) = [keyA] := by
  decide +kernel

theorem test_meets_RulingExpiryTurnsOut :
    let s := visit up { state := .referred, rulingTimer := some 90, decision := some .refer }
    s.resetHeld = false ∧ (s.ctx 2).state = .referred ∧ (s.ctx 2).rulingTimer.isSome = true ∧
      ((after (.rulingExpiry 2) s).ctx 2).decision = some .turnOut ∧
      ((after (.rulingExpiry 2) s).ctx 2).destination = some 0 ∧
      ((after (.rulingExpiry 2) s).ctx 2).state = .decided := by
  decide +kernel

theorem test_meets_VictimIsTheEligibleWay :
    let e (p : Nat) : Entry := { state := .valid, key := some keyA, pins := p }
    Work.victim {} = some 0 ∧ Work.victim { way0 := e 0 } = some 1 ∧ Work.victim ⟨e 0, e 0, 0⟩ = some 1 ∧
      Work.victim ⟨e 0, e 0, 1⟩ = some 0 ∧ Work.victim ⟨e 0, e 1, 0⟩ = some 0 ∧ Work.victim ⟨e 1, e 0, 1⟩ = some 1 ∧
      Work.victim ⟨e 1, { e 0 with owed := .update }, 0⟩ = none := by
  decide

/-- Visit 7 in LOOKUP waits for the entry that slot 0 fetches. -/
def looking : State :=
  let t : Target := .way (setIndex keyA) 0
  fetching (cached (visit up { state := .lookup, links := [link .pending (some t), { link .pending none with key := [] }] })
    { state := .filling, pins := 1 }) t

theorem test_meets_MatchedDataFillsItsTarget :
    let f : Fetch := ⟨keyA, .way (setIndex keyA) 0, 0x1234, .sent, none, some 150⟩
    let copy := fetching ((visit up { state := .lookup, links := [link .pending (some (.copy 5))] }).setCopy 5
      (some ⟨keyA, none, 0, some ⟨2, 0⟩, false, false⟩)) (.copy 5)
    looking.resetHeld = false ∧ Outstanding looking 0 f hdr.tag ∧ bytesA.take 11 = f.key ∧
      recordOfBytes bytesA = some (recA .exportFull) ∧ CacheIdle looking ∧
      (looking.entry (setIndex keyA) 0).mark ≠ .refill ∧ (looking.ctx 2).links[0]? = some (link .pending (some f.target)) ∧
      Outstanding copy 0 { f with target := .copy 5 } hdr.tag ∧ CacheIdle copy ∧
      ((after (.bookingData hdr bytesA) looking).entry (setIndex keyA) 0).record = some (recA .exportFull) ∧
      (((after (.bookingData hdr bytesA) looking).ctx 2).links.map (·.state)) = [.resolved, .pending] ∧
      ((after (.bookingData hdr bytesA) copy).cache.copies[(5 : Fin 48)]).any (·.record.isSome) = true := by
  decide +kernel

theorem test_meets_FetchesEndOrStayOutstanding :
    let f : Fetch := ⟨keyA, .way (setIndex keyA) 0, 0x1234, .sent, none, some 150⟩
    looking.resetHeld = false ∧ CacheIdle looking ∧ Outstanding looking 0 f hdr.tag ∧
      looking.cache.slots[(0 : Fin 16)] = some f ∧ f.timer.isSome = true ∧ Unmatched up hdr.tag ∧
      ([] : List Byte).take 11 ≠ f.key ∧ recordOfBytes keyA = none ∧ ([] : Text) ≠ f.key ∧
      ((after (.bookingNone hdr keyA) looking).entry (setIndex keyA) 0).state = .invalid ∧
      (((after (.bookingNone hdr keyA) looking).ctx 2).links.map (·.state)) = [.noneFound, .pending] ∧
      (((after (.fetchTimeout 0) looking).ctx 2).links.map (·.state)) = [.failed, .pending] ∧
      (after (.bookingData hdr []) up).cache.counters.lateFills = 1 ∧
      (after (.bookingNone hdr []) looking).cache.counters.badFills = 1 := by
  decide +kernel

theorem test_meets_RecallActsOnTheKey :
    let clean := full (cached up { state := .valid, record := some (recA .exportFull) })
    let dirty := full (cached up { state := .valid, record := some (recA .exportFull), dirty := true })
    let many (n : Nat) (k : Text) := up.updCache fun c => { c with recalls := List.replicate n ⟨k, true, true, false⟩ }
    Ready up ∧ isKey [] = false ∧ isKey keyA = true ∧ Ready (many 16 []) ∧ Ready (many 1 keyA) ∧
      (∃ r ∈ (many 1 keyA).cache.recalls, r.key = keyA) ∧ (∀ r ∈ (many 16 []).cache.recalls, r.key ≠ keyA) ∧
      16 ≤ (many 16 []).cache.recalls.length ∧ Ready (full up) ∧ CacheIdle (full up) ∧ QueueFull (full up) ∧
      (∀ p : Fin 48, ∀ c ∈ (full up).cache.copies[p], c.key ≠ keyA) ∧
      (∀ id : CtxId, ∀ l ∈ ((full up).ctx id).links, l.key = keyA → ((full up).ctx id).state ≠ .lookup) ∧
      Work.wayOf (full up) keyA = none ∧ (∀ i : Fin 16, ∀ f ∈ (full up).cache.slots[i], ∀ r ∈ f.castout, r.key ≠ keyA) ∧
      Ready clean ∧ CacheIdle clean ∧ Work.wayOf clean keyA = some 0 ∧ Work.wayOf dirty keyA = some 0 ∧
      (clean.entry (setIndex keyA) 0).state = .valid ∧ (clean.entry (setIndex keyA) 0).pins = 0 ∧
      (∀ id : CtxId, ∀ l ∈ (clean.ctx id).links, l.target ≠ some (.way (setIndex keyA) 0)) ∧
      (after (.bookingRecall hdr keyA) (full up)).cache.sendOrder = [.recallDone keyA false] ∧
      (after (.bookingRecall hdr keyA) clean).cache.sendOrder = [.recallDone keyA true] ∧
      ((after (.bookingRecall hdr keyA) clean).entry (setIndex keyA) 0).state = .invalid ∧
      (after (.bookingRecall hdr keyA) dirty).cache.sendOrder = [.writeback (setIndex keyA) 0] ∧
      (after (.bookingRecall hdr keyA) (many 16 [])).cache.counters.recallsDenied = 1 := by
  decide +kernel

theorem test_meets_FlushWritesBackEveryDirtyEntry :
    let busy := up.updCache fun c => { c with sendOrder := [.flushDone] }
    let dirty := full (cached up { state := .valid, record := some (recA .exportFull), dirty := true })
    Ready busy ∧ .flushDone ∈ busy.cache.sendOrder ∧ Ready dirty ∧ .flushDone ∉ dirty.cache.sendOrder ∧
      dirty.cache.recalls = [] ∧ QueueFull dirty ∧
      ((Work.flushEntry { st := dirty } (setIndex keyA) 0).st.entry (setIndex keyA) 0).owed = .writeback := by
  decide +kernel

theorem test_meets_CommitWritesTheRecord :
    let l := link .resolved (some (.way (setIndex keyA) 0))
    let s := full (cached (visit up { state := .releasing, links := [l], decision := some .admitted })
      { state := .valid, record := some (recA .exportFull), pins := 1 })
    (s.ctx 2).links = [l] ∧ (s.ctx 2).decision = some .admitted ∧ l.state = .resolved ∧
      (s.entry (setIndex keyA) 0).record = some (recA .exportFull) ∧ (s.entry (setIndex keyA) 0).mark = .none ∧
      (s.entry (setIndex keyA) 0).owed = .none ∧ s.params.writePolicy = .through ∧ QueueFull s ∧
      (commitRecord (s.ctx 2) l (recA .exportFull) 0).overrun = false ∧
      (recA .exportFull).kind ≠ .emptyPickup ∧ (recA .emptyPickup).kind = .emptyPickup ∧
      (commitKind (recA .emptyPickup) false 1).2 = true ∧ (commitKind (recA .emptyPickup) false 0).1.remaining = 0 ∧
      ((Work.commit { st := s } 2).st.entry (setIndex keyA) 0).owed = .update ∧
      ((Work.commit { st := s } 2).st.entry (setIndex keyA) 0).pins = 0 := by
  decide +kernel

theorem test_meets_ClockMinuteRollsTheTable :
    let noon := (timed up).updDest fun u => { u with transit := [⟨7, 0, some 7800⟩, ⟨8, 0, none⟩] }
    let late := (timed up).setClock ⟨5, 1439, 0⟩
    let held := late.updCtx 2 fun c => { c with reservation := some ⟨4, 0, false⟩ }
    up.resetHeld = false ∧ up.slot.clock = none ∧ noon.slot.clock = some ⟨5, 600, 0⟩ ∧
      (noon.dest.transit.map (·.visit)).Nodup ∧ late.slot.clock = some ⟨5, 1439, 0⟩ ∧ noon.pending = [] ∧
      late.slot.yesterday.day = some (5 - 1) ∧ late.slot.today.day = some 5 ∧ late.slot.tomorrow.day = some (5 + 1) ∧
      (after .clockMinute noon).slot.clock = some ⟨5, 601, 0⟩ ∧ (after .clockMinute noon).dest.transit = [⟨8, 0, none⟩] ∧
      (after .clockMinute late).slot.yesterday.day = some 5 ∧
      ((after .clockMinute late).windowAt (.yesterday, 40)).reserved = 1 ∧
      ((after .clockMinute held).ctx 2).reservation = some ⟨4, 0, true⟩ := by
  decide +kernel

theorem test_meets_TimeSetPlacesTheClock :
    Ready up ∧ 1439 < (1440 : BitVec 16).toNat ∧ (1439 : BitVec 16).toNat ≤ 1439 ∧ up.slot.clock = none ∧
      ((timed up).dest.transit.map (·.visit)).Nodup ∧ (timed up).slot.clock = some ⟨5, 600, 0⟩ ∧
      (timed up).slot.yesterday.day = some (5 - 1) ∧ (timed up).slot.today.day = some 5 ∧
      (timed up).slot.tomorrow.day = some (5 + 1) ∧ Ready (timed up) ∧
      (after (.timeSet hdr 5 1439) up).slot.clock = some ⟨5, 1439, 0⟩ ∧
      (after (.timeSet hdr 5 1440) up).slot.clock = none ∧
      ((after (.timeSet hdr 6 0) (timed up)).windowAt (.yesterday, 40)).reserved = 1 ∧
      ((after (.timeSet hdr 9 0) (timed up)).windowAt (.today, 40)).reserved = 0 := by
  decide +kernel

theorem test_meets_WindowLimitsHold :
    (timed up).windowPlace 5 40 = some (.today, 40) ∧ ((timed up).windowAt (.today, 40)).isOpen = true ∧
      (timed up).windowPlace (dayOfMinute 7800) (windowOfMinute 7800) = some (.today, 40) ∧
      (timed up).classOnTime 5 40 = (.full, none) := by
  decide +kernel

theorem test_meets_ExportSealsAreCompared :
    exportSeal [[0x41]] (some [0x41]) = .ok ∧ exportSeal [[0x4F, 0x41]] (some [0x30, 0x41]) = .near ∧
      exportSeal [[0x4F]] (some [0x31]) = .mismatch ∧ exportSeal [] none = .ok ∧ exportSeal [[0x41]] none = .missing ∧
      exportSeal [] (some [0x41]) = .mismatch ∧
      (let s := cached (visit up { state := .lookup, links := [link .resolved (some (.way (setIndex keyA) 0))] })
        { state := .valid, record := some (recA .exportFull) }
      s.positionRecord (s.ctx 2) .fwd = some (recA .exportFull)) := by
  decide +kernel

theorem test_meets_TransformIsOneToOne :
    let a : RawMark := ⟨.top, 9, 2, .dent, 1⟩
    a.face = ({ a with column := 0 } : RawMark).face ∧ a.row ≤ 2 ∧ a.column ≤ columnsOf .l40 - 1 ∧
      transform 10 false a = ⟨.roof, 0, 2, .dent, 1⟩ ∧ transform 10 true a = ⟨.roof, 9, 0, .dent, 1⟩ := by
  decide

theorem test_meets_DecisionTableByRows :
    let r : Reasons := {}
    State.decisionOf { r with identity := true, noBooking := true } none = .refer ∧
      State.decisionOf { r with noBooking := true, hold := true } none = .turnOut ∧
      State.decisionOf { r with slot := true } (some .closed) = .refer ∧ State.decisionOf { r with damage := true } none = .inspect ∧
      State.decisionOf r none = .admitted ∧ (up.reasonsOf {}).identity = true := by
  decide +kernel

theorem test_meets_ChainFindsTheFirstThatCanTake :
    let s := up.updDest fun u => { u with dests := (u.dests.set 0 { alternate := some 1 }).set 1 { kind := .trouble, isOpen := true } }
    s.chain none 4 0 = some 1 ∧ up.chain none 4 0 = none := by
  decide +kernel

theorem test_meets_ArrivedAtFreesTheToken :
    let s := (visit up { state := .decided, inTransit := true }).updDest fun u =>
      { u with transit := [⟨7, 3, none⟩], dests := u.dests.set 3 { inTransit := 1 } }
    Ready s ∧ s.dest.transit = [] ++ ⟨7, 3, none⟩ :: [] ∧ (∀ e ∈ s.dest.transit, e.visit ≠ 8) ∧
      ((after (.arrivedAt hdr 7) s).destAt 3).inTransit = 0 ∧ ((after (.arrivedAt hdr 7) s).ctx 2).inTransit = false ∧
      (after (.arrivedAt hdr 8) s).dest.counters.arrivalsUnknown = 1 := by
  decide +kernel

theorem test_meets_RulingsAreAppliedInOrder :
    let s (st : CtxState) := visit up { state := st, decision := some .refer, rulingTimer := some 90 }
    Ready (s .referred) ∧ 2 < (3 : Byte).toNat ∧ rulingOf 0 = some .admitted ∧ rulingOf 2 = some .turnOut ∧
      hintOf 0xFF = some none ∧ hintOf 5 = some (some 5) ∧ ((s .referred).ctx 2).visit = 7 ∧
      ((s .referred).ctx 2).state ≠ .free ∧
      (∀ j, ((s .referred).ctx j).state ≠ .free → ((s .referred).ctx j).visit = 7 → j = 2) ∧
      ((s .decided).ctx 2).state ≠ .referred ∧ (s .referred).findDest ((s .referred).ctx 2) .admitted = none ∧
      (∀ id, ((s .referred).ctx id).state ≠ .free → ((s .referred).ctx id).visit ≠ 8) ∧
      ((after (.visitRuling hdr 7 0 5) (s .referred)).ctx 2).destination = some 5 ∧
      ((after (.visitRuling hdr 7 0 5) (s .referred)).ctx 2).flags.overrideAdmission = true ∧
      ((after (.visitRuling hdr 7 2 0xFF) (s .referred)).ctx 2).decision = some .turnOut ∧
      (after (.visitRuling hdr 7 0 0xFF) (s .referred)).dest.counters.rulingsDenied = 1 ∧
      (after (.visitRuling hdr 7 0 5) (s .decided)).dest.counters.rulingsDenied = 1 := by
  decide +kernel

theorem test_meets_AcknowledgeTimersExpire :
    let s := (mapped up .sign .position).updStation 0 fun e =>
      { e with
        channel := some ⟨false, some ⟨blank, none, none, false, false⟩, none, none, some 40⟩
        tickets := [⟨7, none, some 100⟩, ⟨8, none, some 100⟩] }
    s.resetHeld = false ∧ ((s.station (stationIx 0 0)).channel.any (·.timer.isSome)) = true ∧
      (s.station (stationIx 0 0)).tickets[(1 : Fin 2).val]? = some ⟨8, none, some 100⟩ ∧
      (up.station (stationIx 0 0)).channel = none ∧ (up.station (stationIx 0 0)).tickets[(0 : Fin 2).val]? = none ∧
      ((after (.signAckExpiry 0 0) s).station 0).channel = some ⟨true, none, some blank, none, none⟩ ∧
      ((after (.ticketAckExpiry 0 0 1) s).station 0).tickets = [⟨7, none, some 100⟩] := by
  decide +kernel

theorem test_meets_RequestsAreTakenOrDropped :
    let owing := up.updUplink fun u => { u with owed := List.replicate 8 (.response ⟨0, 0, .ok, .none, false, .none⟩) }
    let other : List Byte := List.replicate 12 0 ++ [0x88, 0xB5, 5, 11, 0, 0, 0, 0] ++ List.replicate 40 0
    let short : List Byte := List.replicate 12 0 ++ [0x88, 0xB5]
    ({ up with resetHeld := true } : State).resetHeld = true ∧ (Instr.heartbeat hdr).wf = true ∧
      requestOf (.heartbeat hdr) = some hdr ∧ owing.resetHeld = false ∧ 8 ≤ owing.responsesOwed ∧ Ready up ∧
      isGateKind (12 : Byte).toNat = false ∧ 3 < (4 : Byte).toNat ∧
      frameFate 0 (other ++ fcsBytes other) = .foreign ∧ frameFate 0 (short ++ [0, 0, 0, 0]) = .malformed ∧
      frameFate 0 [] = .ignored ∧
      (after (.heartbeat hdr) owing).uplink.counters.requestsDropped = 1 ∧
      (after (.heartbeat hdr) up).uplink.serverPresent = true ∧
      (after (.gateFrameUnknownKind hdr 12) up).uplink.counters.unknownKinds = 1 ∧
      (after (.gateFrameDiscarded (short ++ [0, 0, 0, 0])) up).uplink.counters.malformed = 1 ∧
      (after (.laneCommandBadValue hdr 4) up).uplink.queue.getLast? =
        some ⟨.response ⟨0x1234, 9, .badValue, .none, false, .none⟩, none⟩ ∧
      (after (.partCommandBadValue hdr 4) up).uplink.queue.getLast? =
        some ⟨.response ⟨0x1234, 10, .badValue, .none, false, .none⟩, none⟩ := by
  decide +kernel

theorem test_meets_PresenceFollowsHeartbeatAndLink :
    let s := up.updUplink fun u => { u with serverPresent := true, heartbeatTimer := some 5, linkUp := true }
    s.resetHeld = false ∧ s.uplink.serverPresent = true ∧ s.uplink.heartbeatTimer.isSome = true ∧ s.uplink.linkUp = true ∧
      up.uplink.linkUp = false ∧ (after .heartbeatExpiry s).uplink.counters.serverLosses = 1 ∧
      (after .uplinkLinkDown s).uplink.serverPresent = false ∧ (after .uplinkLinkUp up).uplink.queue.length = 6 := by
  decide +kernel

theorem test_meets_ReportSentServesTheOldestWaiter :
    let s (w : List Waiter) := (full up).updUplink fun u => { u with linkUp := true, waiters := w, owed := [.flushDone] }
    let cache := ((cached (s [.cache]) { state := .valid, record := some (recA .exportFull), owed := .update })).updCache
      fun c => { c with sendOrder := [.update (setIndex keyA) 0] }
    (s []).resetHeld = false ∧ (s []).uplink.linkUp = true ∧
      (s []).uplink.queue = ⟨.flushDone, none⟩ :: List.replicate 63 ⟨.flushDone, none⟩ ∧
      (s [.uplink]).uplink.waiters = .uplink :: [] ∧ (s [.uplink]).uplink.owed = .flushDone :: [] ∧
      (∀ l : LaneId, ((s []).lane l).pendingArrivals = 0) ∧ cache.cache.sendOrder = .update (setIndex keyA) 0 :: [] ∧
      (cache.entry (setIndex keyA) 0).mark = .none ∧ cache.cache.recalls = [] ∧
      (after .reportSent (s [])).uplink.queue.length = 63 ∧ (after .reportSent (s [.uplink])).uplink.owed = [] ∧
      ((after .reportSent (visit (s [.referNotice 2]) { state := .referred })).ctx 2).rulingTimer = some 90 ∧
      ((after .reportSent (visit (s [.visitReport 2]) { state := .closing })).ctx 2).state = .free ∧
      ((after .reportSent cache).entry (setIndex keyA) 0).owed = .none := by
  decide +kernel

theorem test_meets_StationWriteRemakesTheEntry :
    let w (index : BitVec 16) (state present : Byte) : Instr := .tableWriteStationMap hdr index state present 5 99 8 1 9 1
    let s := (mapped up .console .position).updLane 3 fun l => { l with mode := .manual, holder := some 0 }
    Ready s ∧ 124 ≤ (124 : BitVec 16).toNat ∧ mapStateOf 2 = some .frozen ∧ boolOf 1 = some true ∧
      roleOf 8 = some .console ∧ zoneOf 1 = some .position ∧ (0 : BitVec 16).toNat = (0 : StationIx).val ∧
      (((after (w 0 2 1) s).station 0).identity = some 5 ∧ ((after (w 0 2 1) s).station 0).weight = 8) ∧
      ((after (w 0 2 1) s).station 0).lane = 15 ∧ ((after (w 0 2 1) s).lane 3).mode = .suspended ∧
      ((after (w 0 2 0) s).station 0).identity = some 9 ∧
      ((after (w 0 0 0) s).station 0).state = .empty ∧ ((after (w 0 0 0) s).station 0).silent = true := by
  decide +kernel

theorem test_meets_PlainTableWrites :
    let s := timed up
    let w (day : BitVec 16) (st : Byte) : Instr := .tableWriteSlotWindows hdr 136 day st 9 9 8
    let zeros : Vector Byte 4 := Vector.replicate 4 0x30
    Ready s ∧ 288 ≤ (288 : BitVec 16).toNat ∧ windowIx 136 = some (.today, 40) ∧ windowIx 287 = some (.tomorrow, 95) ∧
      s.slot.clock.isSome = true ∧ (s.dayTable .today).day = some 5 ∧ up.slot.clock = none ∧
      destKindOf 2 = some .trouble ∧ hintOf 63 = some (some 63) ∧ (zeros.toList ++ zeros.toList).all isKeyChar = true ∧
      ((after (w 5 0) s).windowAt (.today, 40)) =
        { isOpen := false, capacity := 9, overbook := 8, openShare := 8, admitted := 0, reserved := 1, overrides := 0 } ∧
      ((after (w 6 0) s).windowAt (.today, 40)).isOpen = true ∧
      ((after (.tableWriteDestinations hdr 63 2 1 64 5 63 7) s).destAt 63).capacity = 63 ∧
      (after (.tableWriteDefaults hdr 5 64) s).dest.defaults[5] = 63 ∧
      (after (.tableWriteDamageWeights hdr 4 16) s).check.weights[4] = 15 ∧
      (after (.tableWriteUncachedPrefixes hdr 1 1 zeros zeros) s).cache.uncached[1].isSome = true ∧
      (after (.tableWriteUncachedPrefixes hdr 1 2 zeros zeros) s).cache.uncached[1].isSome = false := by
  decide +kernel

theorem test_meets_PhraseAndParameterWrites :
    let bad : Vector Byte 20 := Vector.replicate 20 0x61
    let good : Vector Byte 20 := Vector.replicate 20 0x7E
    let on := up.updInput 3 .entry fun i => { i with enabled := true, pin := true, level := true }
    Ready up ∧ 256 ≤ (256 : BitVec 16).toNat ∧ (∀ b ∈ good.toList, isTextChar b = true ∨ b = up.params.transparency) ∧
      ¬ (∀ b ∈ bad.toList, isTextChar b = true ∨ b = up.params.transparency) ∧ isKeyChar 0x7E = false ∧
      (numParam 0).isSome = true ∧ (36 : BitVec 16).toNat = 36 + 5 * (0 : LaneId).val ∧
      (on.input 3 .entry).enabled = decide ((1 : Byte).toNat = 1) ∧
      (after (.tableWritePhrases hdr 251 bad) up).signs.phrases[251] = Vector.replicate 20 0x20 ∧
      transparencyOk 0x21 = true ∧ ((mapped up .sign .position).compose 3).signs = up.signs ∧
      (after (.tableWriteTransparency hdr 0x41) up).params.transparency = 0x7E ∧
      (after (.tableWriteParameters hdr 0 0 0) up).params.identWindow = 1 ∧
      ((after (.tableWriteParameters hdr 111 0 0) up).lane 15).exitOnEdge = true ∧
      ((after (.tableWriteInputEntry hdr 3 .entry 1 0 16) on).input 3 .entry).filter = 15 ∧
      ((after (.tableWriteInputEntry hdr 3 .entry 1 0 16) on).input 3 .entry).level = true ∧
      ((after (.tableWriteInputEntry hdr 3 .entry 1 1 2) on).input 3 .entry).level = false := by
  decide +kernel

theorem test_meets_TablesAndCountersByNumber :
    let counted := up.countCheck fun k => { k with clamps := 5 }
    tableRecordSize 3 = some 1 ∧ ([] : List Byte).length ≠ 1 ∧ (List.replicate 15 (0 : Byte)).length = 15 ∧ Ready up ∧
      7 < (8 : Byte).toNat ∧ readTable up 3 6 = none ∧ readTable up 3 5 = some (.number 0) ∧
      (after (.tableWrite hdr 3 0 []) up).uplink.counters.malformed = 1 ∧
      (after (.tableWrite hdr 3 5 [7]) up).dest.defaults[5] = 7 ∧
      (after (.tableRead hdr 3 5) up).uplink.queue.getLast? =
        some ⟨.response ⟨0x1234, 7, .ok, .none, false, .record (.number 0)⟩, none⟩ ∧
      (after (.counterRead hdr 22 1) counted).check.counters.clamps = 0 ∧
      (after (.counterRead hdr 22 1) counted).uplink.queue.getLast? =
        some ⟨.response ⟨0x1234, 8, .ok, .none, false, .counters [0, 0, 0, 0, 0, 0, 5, 0]⟩, none⟩ := by
  decide +kernel

theorem test_meets_LaneCommandsMoveTheLane :
    let s (m : LaneMode) := (full (visit up { state := .identifying })).updLane 3 fun l => { l with mode := m, pendingArrivals := 1 }
    Ready (s .open) ∧ 16 ≤ (16 : Byte).toNat ∧ (3 : Byte).toNat = (3 : LaneId).val ∧ ((s .manual).lane 3).mode = .manual ∧
      outputOf 1 = some .go ∧ boolOf 1 = some true ∧ QueueFull (s .open) ∧ 2 ∈ ((s .open).lane 3).ctxs ∧
      ((after (.laneCommandOpen hdr 3) (s .suspended)).lane 3).mode = .open ∧
      ((after (.laneCommandClose hdr 3) (s .open)).lane 3).mode = .closing ∧
      ((after (.laneCommandClose hdr 3) (s .open)).lane 3).pendingArrivals = 0 ∧
      ((after (.laneCommandClose hdr 3) (s .suspended)).lane 3).mode = .closed ∧
      ((after (.outputSet hdr 3 1 1 1) up).lane 3).go = { remote := true, remoteValue := true } ∧
      ((after (.laneCommandReset hdr 3) (s .open)).ctx 2).outcome = some .aborted ∧
      ((after (.laneCommandReset hdr 3) (s .open)).lane 3).pendingArrivals = 0 := by
  decide +kernel

theorem test_meets_ResetsLeaveTheirValues :
    let s := cached (visit up { state := .identifying }) { state := .valid, record := some (recA .exportFull), owed := .update }
    Ready s ∧ (after (.powerOn resetPins true) s).uplink.queue = [] ∧
      (after (.powerOn resetPins false) s).uplink.queue.length = 5 ∧
      (after (.resetAll hdr) s).uplink.queue.length = 7 ∧ ((after (.resetAll hdr) s).port 0).state = .up ∧
      (s.dynamicValues.entry (setIndex keyA) 0).dirty = true ∧ (s.dynamicValues.lane 3).ctxs = [] ∧
      (s.dynamicValues.lane 3).mode = .open ∧ (s.dynamicValues.ctx 2).state = .free := by
  decide +kernel

theorem test_meets_the_invariants :
    let s := { (visit up { state := .identifying }) with pending := [.heartbeatExpiry] }
    QueuesBounded s ∧ DisabledInputsQuiet s ∧ LanesInOrder s ∧ TransitCounted s ∧
      step s = .next { s with pending := [] } := by
  refine ⟨?_, ?_, ?_, ?_, rfl⟩ <;> decide +kernel

/-! ### Hypotheses of the wider clauses are met -/

/-- Address 1 of segment A is a SIGN of lane 3 with a channel. -/
def signed (s : State) (ch : SignChannel) : State :=
  (mapped s .sign .position).updStation 0 fun e => { e with channel := some ch }

theorem test_meets_SignalAndSendingMoveTheSegment_for_a_sign :
    let g : InFlight := ⟨blank, some 5, some 6, false, false⟩
    let s := (signed up ⟨false, some g, none, none, some 40⟩).updPort 0 fun p => { p with txQueue := [⟨0, .ticket, 0, []⟩] }
    (∀ (l : LaneId) (a : Addr), (s.lane l).holder = some (stationIx 0 a) → (s.lane l).mode ≠ .manual) ∧
      (s.station (stationIx 0 0)).silent = false ∧ (s.station (stationIx 0 0)).silenceTimer.isSome = true ∧
      (∀ l : LaneId, (s.lane l).holder = some 0 → (s.lane l).mode ≠ .manual) ∧
      ((State.silenceStation 0 s 0).station 0).channel = some ⟨true, none, some blank, none, none⟩ ∧
      ((after (.stationSilenceExpiry 0 0) s).station 0).channel = some ⟨true, none, some blank, none, none⟩ := by
  decide +kernel

theorem test_meets_RefusedFramesReachNoBlock_for_other_stations :
    let m : LaneMsg := .readPlate 90 (chars 6 0x41)
    let s := queued up m
    let pass := s.updParams fun p => { p with passUnmapped := true }
    let wrong := (mapped s .plate .position).updStation 0 fun e => { e with mismatched := true }
    AtHead s 0 (frame m) [] ∧ (s.port 0).seqRecord[(frame m).src] ≠ some (frame m).seq ∧
      (sender s 0 (frame m)).state = .empty ∧ AtHead wrong 0 (frame m) [] ∧
      (sender wrong 0 (frame m)).state = .frozen ∧ (sender wrong 0 (frame m)).mismatched = true ∧
      (frame m).msg.kind ≠ .hello ∧ ((after (.readPlate 0) s).port 0).counters.unmappedDropped = 1 ∧
      ((after (.readPlate 0) pass).port 0).counters.unmappedDropped = 0 ∧
      (after (.readPlate 0) pass).uplink.queue.getLast? = some ⟨.passFrame 0 0 [0, 1], none⟩ ∧
      ((after (.readPlate 0) wrong).station 0).mismatchCount = 1 := by
  decide +kernel

theorem test_meets_the_completing_reads :
    let done : ConsField := { state := .settled, candidates := [⟨chars 6 0x41, 200, 2, none⟩], latched := some (chars 6 0x41) }
    let near : ConsField := { candidates := [⟨chars 6 0x41, 140, 1, none⟩] }
    let c : Ctx := { state := .identifying, plate := near, tag := done, layout := some ⟨0, none, none⟩, kiosk := some keyA }
    let read := visit (mapped (queued up (.readPlate 90 (chars 6 0x41))) .plate .position) c
    let scan := visit (mapped (queued up (.scanEnd ⟨0, none, none⟩)) .damage .position) { c with plate := done, layout := none }
    let kiosk := visit (mapped (queued up (.kioskEntry keyA)) .kiosk .position) { c with plate := done, kiosk := none }
    let plate := (read.ctx 2).scoreRead read.params .plate (chars 6 0x41) 90 none
    Consumed read 0 (frame (.readPlate 90 (chars 6 0x41))) [] ∧ read.attach 3 .position = some 2 ∧ ¬ Waits plate ∧
      plate.plate.state = .settled ∧
      Consumed scan 0 (frame (.scanEnd ⟨0, none, none⟩)) [] ∧ scan.attach 3 .position = some 2 ∧
      ¬ Waits { scan.ctx 2 with layout := some ⟨0, none, none⟩ } ∧
      Consumed kiosk 0 (frame (.kioskEntry keyA)) [] ∧ kiosk.attach 3 .position = some 2 ∧
      ¬ Waits { kiosk.ctx 2 with kiosk := some keyA } ∧
      ((after (.readPlate 0) read).ctx 2).state = .lookup ∧ ((after (.scanEnd 0) scan).ctx 2).state = .lookup ∧
      ((after (.kioskEntry 0) kiosk).ctx 2).links.map (·.key) = [keyA] := by
  decide +kernel

theorem test_meets_DamageMarksJoinTheRawList_for_the_grade :
    let m (col sev : Nat) : Mark := ⟨.roof, col, 1, .dent, sev⟩
    let w : Vector Nat 5 := #v[2, 6, 3, 2, 1]
    sameSpot (m 1 5) (m 1 2) = true ∧ (∀ y ∈ [m 3 1], sameSpot (m 1 5) y = false) ∧
      mergeMark [m 3 1, m 1 2] (m 1 5) = [m 3 1, m 1 5] ∧ markCost [] (m 1 5) = some 5 ∧
      markCost [m 2 4] (m 1 5) = none ∧ markCost [m 2 3] (m 1 5) = some 2 ∧ markCost [m 3 7] (m 1 5) = some 5 ∧
      gradeOf w [] [m 1 5] = 10 ∧ gradeOf w [] (List.replicate 30 (m 1 5)) = 255 ∧
      (judgeDamage {} 40 false false [m 1 5]).result = .inspect ∧ (judgeDamage {} 39 false false [m 1 5]).result = .recorded ∧
      (judgeDamage {} 8 false true [m 1 5]).toAppend = [] ∧ (judgeDamage {} 7 false false [m 1 5]).result = .minor := by
  decide +kernel

theorem test_meets_SignAckMarksTheHalves_for_a_page :
    let other : Page := ⟨[0x41], [], [], []⟩
    let idle := signed up ⟨false, none, none, some blank, none⟩
    let busy := signed up ⟨false, some ⟨blank, none, none, false, false⟩, none, none, some 40⟩
    SignOf idle 3 0 ∧ Orderly ⟨false, none, none, some blank, none⟩ ∧ shownPage ⟨false, none, none, some blank, none⟩ = some blank ∧
      shownPage ⟨false, none, none, some blank, none⟩ ≠ some other ∧ ((idle.offerPage 0 blank).station 0).channel = (idle.station 0).channel ∧
      ((((idle.offerPage 0 other).station 0).channel.bind (·.inFlight)).map (·.page)) = some other ∧
      (((busy.offerPage 0 other).station 0).channel.bind (·.waiting)) = some other ∧
      (up.page 3).line2 = [0x4C, 0x41, 0x4E, 0x45, 0x20, 0x30, 0x33] ++ List.replicate 13 0x20 := by
  decide +kernel

theorem test_meets_TicketAckTakesTheOldest_for_a_ticket :
    let c : Ctx := { state := .decided, decision := some .admitted }
    let s (k : List Ticket) := (visit (mapped up .printer .position) c).updStation 0 fun e => { e with tickets := k }
    let two := s [⟨5, none, none⟩, ⟨6, none, none⟩]
    PrinterOf (s []) 3 0 ∧ ((s []).station 0).tickets.length < 2 ∧ 2 ≤ (two.station 0).tickets.length ∧
      (((s []).issueTicket 2).station 0).tickets = [⟨7, some 0, some 100⟩] ∧
      (((s []).issueTicket 2).port 0).txQueue.length = 1 ∧ ((two.issueTicket 2).ctx 2).flags.noTicket = true ∧
      (two.issueTicket 2).signs.counters.ticketsRefused = 1 := by
  decide +kernel

theorem test_meets_the_inputs_that_wait :
    let edge := firing (visit up { state := .decided }) .exit false
    let two (n : Nat) := (firing up .position true).updLane 3 fun l => { l with mode := .open, ctxs := [4, 5], pendingArrivals := n }
    FilterEnds edge 3 .exit false ∧ (edge.lane 3).exitOnEdge = false ∧
      (∀ id, (edge.lane 3).front = some id → (edge.ctx id).state ≠ .releasing) ∧
      FilterEnds (two 3) 3 .position true ∧ (∀ j ∈ ((two 3).lane 3).ctxs, ((two 3).ctx j).state.atPosition = false) ∧
      (∀ j ∈ ((two 3).lane 3).ctxs, ((two 3).ctx j).state ≠ .arriving) ∧ 2 ≤ ((two 3).lane 3).ctxs.length ∧
      ((after (.inputFilterExpiry 3 .exit) edge).ctx 2).state = .decided ∧
      ((after (.inputFilterExpiry 3 .position) (two 2)).lane 3).pendingArrivals = 3 ∧
      ((after (.inputFilterExpiry 3 .position) (two 3)).lane 3).pendingArrivals = 3 ∧
      ((after (.inputFilterExpiry 3 .position) (two 3)).lane 3).counters.arrivalsLost = 1 := by
  decide +kernel

theorem test_meets_ApproachExpiryWithdraws_for_a_grant :
    let s (on : Bool) := ((visit (emptied up) { state := .arriving, approachTimer := some 180 }).updLane 5 fun l =>
      { l with mode := .open, pendingArrivals := 2 }).updInput 5 .position fun i => { i with level := on }
    let t (on : Bool) := after (.approachExpiry 2) (s on)
    (s true).lastServed + 1 + 5 = 5 ∧ ((s true).lane 5).mode = .open ∧ 0 < ((s true).lane 5).pendingArrivals ∧
      ((s true).lane 5).ctxs.length < 2 ∧ (∀ m, m < (5 : Fin 16) → ((s true).lane (15 + 1 + m)).pendingArrivals = 0) ∧
      (s true).reads 5 .position = true ∧ (s false).reads 5 .position = false ∧
      (t true).lastServed = 5 ∧ ((t true).lane 5).front = some 2 ∧ ((t true).lane 5).pendingArrivals = 1 ∧
      ((t true).ctx 2) = { state := .identifying, visit := 1, lane := 5, arrival := .unset, position := some .unset, identTimer := some 60 } ∧
      ((t false).ctx 2) = { state := .arriving, visit := 1, lane := 5, arrival := .unset, approachTimer := some 180 } ∧
      ((t false).lane 5).ctxs = [2] ∧ (t false).visitCounter = 2 := by
  decide +kernel

theorem test_meets_ReleaseEdgeCommits_for_one_link :
    let l := link .resolved (some (.way (setIndex keyA) 0))
    let s := full (firing (cached (visit up { state := .releasing, links := [l], decision := some .admitted })
      { state := .valid, record := some (recA .exportFull), pins := 1 }) .exit false)
    let back := s.updParams fun p => { p with writePolicy := .back }
    let p := link .resolved (some (.copy 5))
    let copy := full (firing ((visit up { state := .releasing, links := [p], decision := some .admitted }).setCopy 5
      (some ⟨keyA, some (recA .emptyPickup), 0, some ⟨2, 0⟩, false, false⟩)) .exit false)
    FilterEnds s 3 .exit (s.lane 3).exitOnEdge ∧ (s.lane 3).front = some 2 ∧ (s.ctx 2).links = [l] ∧ TargetQuiet s l ∧
      s.cache.waitList = [] ∧ s.cache.recalls = [] ∧ s.reads 3 .position = false ∧ GoesThrough s ∧ ¬ GoesThrough back ∧
      TargetQuiet copy p ∧ (copy.ctx 2).links = [p] ∧
      ((after (.inputFilterExpiry 3 .exit) s).entry (setIndex keyA) 0).owed = .update ∧
      (after (.inputFilterExpiry 3 .exit) s).cache.sendOrder = [.update (setIndex keyA) 0] ∧
      ((after (.inputFilterExpiry 3 .exit) back).entry (setIndex keyA) 0).dirty = true ∧
      (after (.inputFilterExpiry 3 .exit) back).uplink.waiters = [.visitReport 2] ∧
      (after (.inputFilterExpiry 3 .exit) copy).cache.sendOrder = [.copyUpdate 5] ∧
      ((after (.inputFilterExpiry 3 .exit) copy).cache.copies[(5 : Fin 48)]).map (·.updateOwed) = some true := by
  decide +kernel

theorem test_meets_CommitWritesTheRecord_for_every_fate :
    let l := link .resolved (some (.way (setIndex keyA) 0))
    let s (d : Decision) (hold : Bool) := cached (visit up { state := .releasing, links := [l], decision := some d })
      { state := .valid, record := some { recA .exportFull with customsHold := hold }, pins := 1 }
    let t (d : Decision) (hold : Bool) := (Work.commit { st := s d hold } 2).st
    TargetQuiet (s .turnOut false) l ∧ (linkFate (s .turnOut false) ((s .turnOut false).ctx 2) l matches .dropped) = true ∧
      (linkFate (s .admitted true) ((s .admitted true).ctx 2) l matches .locked) = true ∧
      ((t .turnOut false).entry (setIndex keyA) 0).pins = 0 ∧ ((t .turnOut false).entry (setIndex keyA) 0).owed = .none ∧
      ((t .admitted true).ctx 2).flags.lockedUpdateDiscarded = true ∧ (t .admitted true).cache.counters.lockedDiscards = 1 := by
  decide +kernel

theorem test_meets_the_decision_step :
    let c : Ctx := { state := .lookup, links := [link .pending (some (.way (setIndex keyA) 0))] }
    let last := fetching (cached (visit up c) { state := .filling, pins := 1 }) (.way (setIndex keyA) 0)
    let none' := visit up { state := .identifying, identTimer := some 60 }
    let f : Fetch := ⟨keyA, .way (setIndex keyA) 0, 0x1234, .sent, none, some 150⟩
    Outstanding last 0 f hdr.tag ∧ CacheIdle last ∧ (last.ctx 2).state = .lookup ∧
      (∀ l ∈ (last.ctx 2).links, l.state = .pending → l.target = some f.target) ∧
      (∀ j, j ≠ 2 → ∀ l ∈ (last.ctx j).links, l.target ≠ some f.target) ∧
      ((none'.ctx 2).finalise none'.params).formLinks = [] ∧ none'.cache.recalls = [] ∧
      ((after (.bookingData hdr bytesA) last).ctx 2).decision = some .refer ∧
      ((after (.bookingData hdr bytesA) last).ctx 2).state = .referred ∧
      ((after (.bookingData hdr bytesA) last).ctx 2).reasons.identity = true ∧
      ((after (.identificationExpiry 2) none').ctx 2).decision = some .refer ∧
      ((after (.identificationExpiry 2) none').ctx 2).damage.fwd = some {} := by
  decide +kernel

theorem test_meets_WindowLimitsHold_for_the_classification :
    let r (slot : Option (BitVec 16 × Nat)) : Record := { recA .exportFull with slot := slot }
    let s (slot : Option (BitVec 16 × Nat)) := cached (timed (visit up { state := .lookup, arrival := .at 7800
                                                                         links := [link .resolved (some (.way (setIndex keyA) 0))] }))
      { state := .valid, record := some (r slot), pins := 1 }
    let place := (s none).updWindow .today 40 fun w => { w with reserved := 0, openShare := 8 }
    (s none).slot.clock.isSome = true ∧ ((s none).ctx 2).arrival = .at 7800 ∧
      (s none).firstRecord ((s none).ctx 2) = some (r none) ∧ (s none).firstRecord {} = none ∧
      (s (some (5, 40))).firstRecord ((s (some (5, 40))).ctx 2) = some (r (some (5, 40))) ∧
      (∀ p, (s none).windowPlace 9 40 = some p → ((s none).windowAt p).isOpen = false) ∧
      (s none).classify ((s none).ctx 2) false = (.missed, none) ∧
      (s (some (5, 40))).classify ((s (some (5, 40))).ctx 2) false = (.full, none) ∧
      place.classify (place.ctx 2) false = (.walkIn, some (5, 40)) ∧ (s none).classOnTime 9 40 = (.closed, none) ∧
      (s none).classify ((s none).ctx 2) true = (.unchecked, none) := by
  decide +kernel

theorem test_meets_the_checks_of_a_record :
    let s (k : BookingKind) := cached (visit up { state := .lookup, links := [link .resolved (some (.way (setIndex keyA) 0))] })
      { state := .valid, record := some (recA k) }
    let l := link .resolved (some (.way (setIndex keyA) 0))
    (s .emptyReturn).positionRecord ((s .emptyReturn).ctx 2) .fwd = some (recA .emptyReturn) ∧
      (s .emptyReturn).sealOf ((s .emptyReturn).ctx 2) .fwd = some ⟨.ok, none⟩ ∧
      (s .importFull).sealOf ((s .importFull).ctx 2) .fwd = none ∧ (s .importFull).sealOf {} .fwd = none ∧
      (s .emptyReturn).sealOf { (s .emptyReturn).ctx 2 with
        sealFwd := { state := .settled, candidates := [⟨[0x41], 200, 2, none⟩], latched := some [0x41] } } .fwd =
          some ⟨.unexpected, some [0x41]⟩ ∧
      (s .importFull).linkRecord l = some (recA .importFull) ∧
      ((s .importFull).reasonsOf ((s .importFull).ctx 2)).mismatch = true ∧
      ((s .exportFull).reasonsOf ((s .exportFull).ctx 2)).mismatch = false := by
  decide +kernel

theorem test_meets_RecallActsOnTheKey_for_an_entry_in_use :
    let k := setIndex keyA
    let way := some (Target.way k 0)
    let e (pins : Nat) : Entry := { state := .valid, record := some (recA .exportFull), pins := pins }
    let owed := full ((cached (visit up { state := .lookup, links := [link .pending way] }) { state := .filling, pins := 1 }).setSlot 0
      (some ⟨keyA, .way k 0, 7, .fetchOwed, none, none⟩))
    let sent := full (fetching owed (.way k 0))
    let pinned := full (cached (visit up { state := .decided, links := [link .resolved way] }) (e 1))
    let shared := full (cached (visit up { state := .lookup, links := [link .resolved way] }) (e 2))
    let t (s : State) := after (.bookingRecall hdr keyA) s
    Work.wayOf owed keyA = some 0 ∧ QueueFull owed ∧ CacheIdle owed ∧ Ready owed ∧
      (∀ i : Fin 16, ∀ f ∈ owed.cache.slots[i], f.target = .way k 0 → f.phase ≠ .sent) ∧
      (∀ id : CtxId, ∀ l ∈ (owed.ctx id).links, l.target = none ∨ l.target = way) ∧
      (∃ i : Fin 16, ∃ f ∈ sent.cache.slots[i], f.target = .way k 0 ∧ f.phase = .sent) ∧
      0 < (pinned.entry k 0).pins ∧ (∀ id : CtxId, (pinned.ctx id).state ≠ .lookup) ∧ 2 ≤ (shared.entry k 0).pins ∧
      (shared.ctx 2).links[0]? = some (link .resolved way) ∧ (∀ j, j ≠ 2 → (shared.ctx j).state ≠ .lookup) ∧
      (t owed).cache.recalls = [⟨keyA, true, false, true⟩] ∧ (t owed).cache.sendOrder = [.recallDone keyA true] ∧
      ((t sent).entry k 0).mark = .refill ∧ (t sent).cache.recalls = [⟨keyA, true, true, false⟩] ∧
      ((t pinned).entry k 0).mark = .pending ∧ ((t pinned).entry k 0).pins = 1 ∧
      ((t shared).entry k 0).pins = 1 ∧ (t shared).cache.waitList = [⟨2, 0⟩] ∧
      ((t shared).ctx 2).links = [link .pending none] ∧ (t shared).cache.counters.hits = 1 := by
  decide +kernel

theorem test_meets_RecallActsOnTheKey_for_a_private_copy :
    let c : PrivateCopy := ⟨keyA, none, 0, some ⟨2, 0⟩, false, false⟩
    let s (st : CtxState) := full ((visit up { state := st, links := [link .resolved (some (.copy 5))] }).setCopy 5 (some c))
    let busy := (s .lookup).updCache fun x =>
      { x with slots := Vector.replicate 16 (some ⟨[], .copy 6, 7, .sent, none, some 9⟩) }
    let t (s : State) := after (.bookingRecall hdr keyA) s
    (s .decided).cache.copies[(5 : Fin 48)] = some c ∧ (∀ q : Fin 48, q ≠ 5 → (s .decided).cache.copies[q] = none) ∧
      Work.wayOf busy keyA = none ∧ (∀ j, j ≠ 2 → (busy.ctx j).state ≠ .lookup) ∧
      (∀ i : Fin 16, busy.cache.slots[i].any (fun f => f.target != .copy 5) = true) ∧
      (t (s .decided)).cache.recalls = [⟨keyA, true, false, false⟩] ∧
      ((t (s .decided)).cache.copies[(5 : Fin 48)]).map (·.recalled) = some true ∧
      (t busy).cache.copies[(5 : Fin 48)] = none ∧ (t busy).cache.waitList = [⟨2, 0⟩] ∧
      (t busy).cache.sendOrder = [.recallDone keyA true] ∧ ((t busy).ctx 2).links = [link .pending none] := by
  decide +kernel

theorem test_meets_RulingsAreAppliedInOrder_at_the_last_destination :
    let s := visit up { state := .referred, decision := some .refer, rulingTimer := some 90 }
    hintOf 63 = some (some 63) ∧ 64 ≤ (64 : Byte).toNat ∧ (64 : Byte).toNat ≠ 255 ∧
      ((after (.visitRuling hdr 7 1 63) s).ctx 2).destination = some 63 ∧
      ((after (.visitRuling hdr 7 1 63) s).destAt 63).inTransit = 1 ∧
      ((after (.visitRuling hdr 7 1 63) s).ctx 2).flags.noTicket = true ∧
      ((after (.visitRuling hdr 7 1 64) s).ctx 2).state = .referred := by
  decide +kernel

theorem test_meets_RequestsAreTakenOrDropped_by_the_tests :
    let eth : List Byte := List.replicate 12 0 ++ [0x88, 0xB5]
    let a (node kind len : Byte) (body : List Byte) : List Byte := eth ++ [node, kind, 0, 7, 0, len] ++ body
    let fate (d : List Byte) : FrameFate := frameFate 0 (d ++ fcsBytes d)
    frameFate 0 (a 0 11 0 [] ++ [0, 0, 0, 0]) = .malformed ∧ fate (eth ++ [0, 11, 0, 7, 0]) = .malformed ∧
      fate (a 5 11 0 []) = .foreign ∧ fate (a 0 11 1 []) = .malformed ∧ fate (a 0 11 0 [0]) = .malformed ∧
      fate (a 0 5 3 [0, 7, 0]) = .malformed ∧ (fate (a 0 5 2 [0, 7]) matches .valid (.arrivedAt _ 7)) = true ∧
      lengthAllowed 6 [3, 0, 0, 9] = true ∧ lengthAllowed 6 [3, 0, 0] = false ∧ lengthAllowed 6 [] = false := by
  decide +kernel

theorem test_meets_ReportSentServesTheOldestWaiter_for_the_cache :
    let k := setIndex keyA
    let s (o : List Owed) (f : Cache → Cache) := ((full up).updUplink fun u => { u with linkUp := true, waiters := [.cache] }).updCache
      fun c => f { c with sendOrder := o }
    let entry := cached (s [.writeback k 0] id) { state := .valid, record := some (recA .exportFull), dirty := true, owed := .writeback }
    let g : Fetch := ⟨keyA, .way k 0, 7, .castoutOwed, some (recA .exportFull), none⟩
    let slot (o : List Owed) := s o fun c => { c with slots := c.slots.set 3 (some g) }
    let copy (l : Option LinkRef) := s [.copyUpdate 5] fun c =>
      { c with copies := c.copies.set 5 (some ⟨keyA, some (recA .exportFull), 0, l, true, false⟩) }
    let told := s [.recallDone keyA true] fun c => { c with recalls := [⟨keyA, true, false, true⟩] }
    let t (s : State) := after .reportSent s
    (∀ q ∈ told.cache.recalls, q.done = true ∨ q.entryPart = true) ∧ entry.cache.sendOrder = [.writeback k 0] ∧
      (entry.entry k 0).mark = .none ∧ (slot [.castout 3]).cache.slots[(3 : Fin 16)] = some g ∧ (copy none).cache.waitList = [] ∧
      ((t entry).entry k 0).dirty = false ∧
      (t entry).uplink.queue.getLast? = some ⟨.bookingWriteback (recA .exportFull), none⟩ ∧
      (t (slot [.castout 3, .fetch 3])).cache.slots[(3 : Fin 16)] = some { g with castout := none, phase := .fetchOwed } ∧
      (t (slot [.castout 3, .fetch 3])).uplink.waiters = [.cache] ∧
      (t (slot [.fetch 3])).uplink.queue.getLast? = some ⟨.bookingFetch keyA 7, none⟩ ∧
      ((t (slot [.fetch 3])).cache.slots[(3 : Fin 16)]).map (·.timer) = some (some 150) ∧
      (t (copy none)).cache.copies[(5 : Fin 48)] = none ∧
      ((t (copy (some ⟨2, 0⟩))).cache.copies[(5 : Fin 48)]).map (·.updateOwed) = some false ∧
      (t told).cache.recalls = [] ∧ (t (s [.flushDone] id)).uplink.queue.getLast? = some ⟨.flushDone, none⟩ := by
  decide +kernel

theorem test_meets_the_writes_that_a_sign_shows :
    let s := signed up ⟨false, none, none, some blank, none⟩
    SignOf s 3 0 ∧ (s.station 0).channel = some ⟨false, none, none, some blank, none⟩ ∧
      Orderly ⟨false, none, none, some blank, none⟩ ∧ mapStateOf 2 = some .frozen ∧ roleOf 6 = some .sign ∧
      (((State.isSignOf s 3 0) : Bool) = true) ∧
      (((s.offerPage 0 (s.page 3)).station 0).channel.bind shownPage) = some (s.page 3) := by
  decide +kernel

theorem test_meets_PhraseAndParameterWrites_at_the_ends :
    let w (index value : BitVec 16) := after (.tableWriteParameters hdr index value 0x02) up
    let ends := [⟨.response ⟨0x1234, 6, .badIndex, .none, false, .none⟩, none⟩, ⟨.response ⟨0x1234, 6, .badValue, .none, false, .none⟩, none⟩]
    (31 : BitVec 16).toNat = 31 ∧ 112 ≤ (112 : BitVec 16).toNat ∧ (14 : BitVec 16).toNat = 14 ∧
      (34 : BitVec 16).toNat = 32 + 5 * (0 : LaneId).val + (inputIx .exit).val ∧
      (w 31 0).uplink.queue.getLast? = ends[0]? ∧ (w 112 0).uplink.queue.getLast? = ends[0]? ∧
      (w 9 3).uplink.queue.getLast? = ends[1]? ∧ (w 11 2).uplink.queue.getLast? = ends[1]? ∧
      (w 13 2).uplink.queue.getLast? = ends[1]? ∧ (w 9 2).params.writePolicy = .adaptive ∧
      (w 11 1).params.offlineProvisional = true ∧ (w 13 1).params.passUnmapped = true ∧ (w 1 9).params.approachLimit = 10 ∧
      (w 12 64).params.provisionalDest = 63 ∧ (w 30 1024).params.sealM = 1023 ∧ (w 22 256).params.segThreshold[3] = 255 ∧
      ((w 34 0x0101).input 0 .exit).activeLow = true ∧ ((w 34 0x0101).input 0 .exit).filter = 2 := by
  decide +kernel

theorem test_meets_TablesAndCountersByNumber_for_a_write :
    (0 : BitVec 16).toNat = (0 : Fin 6).val ∧ destKindOf 2 = some .trouble ∧ hintOf 255 = some none ∧
      tableRecordSize 2 = some 8 ∧ (after (.tableWrite hdr 5 4 [16]) up).check.weights[4] = 15 ∧
      ((after (.tableWrite hdr 2 63 [2, 1, 9, 1, 255, 7, 0, 0]) up).destAt 63).capacity = 9 ∧
      readTable up 7 0 = some (.parameter 60) ∧ readTable up 7 31 = some (.clock none) ∧ readTable up 7 112 = none ∧
      readTable up 8 39 = some (.lane ⟨.closed, none, [false, false, false, false],
        [(false, false), (false, false), (false, true)], 0⟩) := by
  decide +kernel

/-! ### Hypotheses of the clauses on lookups, retries, releases and grants are met -/

/-- The key BBBBBBBBBBB. -/
def keyB : Text := chars 11 0x42

/-- Context 5 is visit 9 on lane 3 behind context 2. -/
def followed (s : State) (c : Ctx) : State :=
  (s.updCtx 5 fun _ => { c with visit := 9, lane := 3 }).updLane 3 fun l => { l with ctxs := [2, 5] }

theorem test_meets_PassesAndTheBarrier_for_an_authorised_exit :
    let s := firing (visit up { state := .releasing }) .exit true
    let t := after (.inputFilterExpiry 3 .exit) s
    FilterEnds s 3 .exit true ∧ (s.lane 3).front = some 2 ∧ (s.ctx 2).state = .releasing ∧ (s.lane 3).exitOnEdge = false ∧
      (t.ctx 2).state = .releasing ∧ (t.lane 3).counters.unauthorisedPasses = 0 ∧ (t.lane 3).counters.manualPasses = 0 ∧
      (t.input 3 .exit).level = true ∧ t.uplink.queue.length = s.uplink.queue.length := by
  decide +kernel

theorem test_meets_ReleaseEdgeCommits_for_the_next_one :
    let s := full (firing ((followed (timed (visit up { state := .releasing, flags := { overrideAdmission := true } }))
      { state := .arriving }).updInput 3 .position fun i => { i with level := true }) .exit false)
    let out := s.updSlot fun u => { u with today := { u.today with day := some 9 } }
    let t := after (.inputFilterExpiry 3 .exit) s
    FilterEnds s 3 .exit (s.lane 3).exitOnEdge ∧ s.reads 3 .position = true ∧ (s.ctx 5).state = .arriving ∧
      (s.ctx 5).lane = 3 ∧ (s.ctx 5).identified = false ∧ (s.lane 3).ctxs = [2] ++ 5 :: [] ∧
      (∀ k ∈ [(2 : CtxId)], (s.ctx k).state ≠ .arriving) ∧ (s.ctx 2).links = [] ∧ s.cache.recalls = [] ∧ QueueFull s ∧
      (s.ctx 2).reservation = none ∧ (s.ctx 2).flags.overrideAdmission = true ∧ s.now = .at 7800 ∧
      s.windowPlace (dayOfMinute 7800) (windowOfMinute 7800) = some (.today, 40) ∧
      out.windowPlace (dayOfMinute 7800) (windowOfMinute 7800) = none ∧
      (t.ctx 5).state = .identifying ∧ (t.lane 3).front = some 5 ∧ (t.ctx 5).position = some (.at 7800) ∧
      (t.ctx 2).state = .closing ∧ (t.windowAt (.today, 40)).overrides = 1 ∧
      (after (.inputFilterExpiry 3 .exit) out).slot.counters.overridesLost = 1 := by
  decide +kernel

theorem test_meets_ReleaseEdgeCommits_for_two_links :
    let k := setIndex keyA
    let a := link .resolved (some (.way k 0))
    let b := link .resolved (some (.copy 5))
    let s := full (firing ((cached (visit up { state := .releasing, links := [a, b], decision := some .admitted })
      { state := .valid, record := some (recA .exportFull), pins := 1 }).setCopy 5
        (some ⟨keyA, some { recA .emptyPickup with lineHold := true }, 0, some ⟨2, 1⟩, false, false⟩)) .exit false)
    let t := after (.inputFilterExpiry 3 .exit) s
    FilterEnds s 3 .exit (s.lane 3).exitOnEdge ∧ ((s.ctx 2).links.filterMap (·.target)).Nodup ∧ TargetQuiet s a ∧ TargetQuiet s b ∧
      s.cache.recalls = [] ∧ s.cache.waitList = [] ∧ s.reads 3 .position = false ∧
      (t.entry k 0).pins = 0 ∧ (t.entry k 0).owed = .update ∧ t.cache.copies[(5 : Fin 48)] = none ∧
      (t.ctx 2).links.map (·.target) = [none, none] ∧ (t.ctx 2).flags.lockedUpdateDiscarded = true ∧
      t.cache.counters.lockedDiscards = 1 ∧ t.cache.counters.pickupOverruns = 0 ∧ t.cache.sendOrder = [.update k 0] := by
  decide +kernel

theorem test_meets_ApproachExpiryWithdraws_for_a_closing_lane :
    let s := (visit (emptied up) { state := .arriving, approachTimer := some 180 }).updLane 3 fun l => { l with mode := .closing }
    let two := followed (visit (emptied up) { state := .arriving, approachTimer := some 180 }) { state := .arriving }
    let t := after (.approachExpiry 2) s
    s.uplink.queue.length < 64 ∧ s.uplink.waiters = [] ∧ drains s 2 = true ∧ drains two 2 = false ∧
      (t.lane 3).mode = .closed ∧ (t.lane 3).ctxs = [] ∧
      t.uplink.queue.getLast? = some ⟨.modeChange 3 .closing .closed .contextsDrained none, none⟩ ∧ t.uplink.queue.length = 2 ∧
      ((after (.approachExpiry 2) two).ctx 5).approachTimer = some 180 ∧ ((after (.approachExpiry 2) two).lane 3).ctxs = [5] := by
  decide +kernel

theorem test_meets_ReportSentServesTheOldestWaiter_for_a_closing_lane :
    let s := ((visit (full up) { state := .closing, outcome := some .completed }).updLane 3 fun l => { l with mode := .closing }).updUplink
      fun u => { u with linkUp := true, waiters := [.visitReport 2] }
    let t := after .reportSent s
    drains s 2 = true ∧ (t.lane 3).mode = .closed ∧ (t.ctx 2).state = .free := by
  decide +kernel

theorem test_meets_VictimIsTheEligibleWay_for_a_lookup :
    let k := setIndex keyA
    let s (e : Entry) := full (cached (visit up { state := .lookup, links := [link .pending none] }) e)
    let r : LinkRef := ⟨2, 0⟩
    let hit := s { state := .valid, record := some (recA .exportFull) }
    let recalled := s { state := .valid, record := some (recA .exportFull), mark := .pending, pins := 1 }
    let miss := full (visit up { state := .lookup, links := [link .pending none] })
    let around := miss.updCache fun c => { c with uncached := c.uncached.set 0 (some ⟨#v[0x41, 0x41, 0x41, 0x41], #v[0x41, 0x41, 0x41, 0x5A]⟩) }
    let busy := miss.updCache fun c => { c with slots := Vector.replicate 16 (some ⟨[], .copy 6, 7, .sent, none, some 9⟩) }
    let t (s : State) := (Work.lookup { st := s } r).st
    hit.link? r = some (link .pending none) ∧ 4 ≤ keyA.length ∧ QueueFull hit ∧ Work.wayOf hit keyA = some 0 ∧
      Work.wayOf miss keyA = none ∧ QueueFull miss ∧ Work.victim miss.cache.sets[k] = some 0 ∧ miss.cache.slots[(0 : Fin 16)] = none ∧
      (∀ i : Fin 16, busy.cache.slots[i] ≠ none) ∧ around.cache.copies[(0 : Fin 48)] = none ∧
      ((t hit).entry k 0).pins = 1 ∧ (t hit).cache.counters.hits = 1 ∧
      (t hit).link? r = some (link .resolved (some (.way k 0))) ∧
      (t recalled).cache.waitList = [r] ∧ ((t recalled).entry k 0).pins = 1 ∧ (t recalled).cache.counters.hits = 1 ∧
      ((t miss).entry k 0).state = .filling ∧ (t miss).cache.sendOrder = [.fetch 0] ∧
      (t miss).link? r = some (link .pending (some (.way k 0))) ∧ (t miss).uplink.waiters = [.cache] ∧
      (t around).link? r = some (link .pending (some (.copy 0))) ∧ (t around).cache.counters.privateCopies = 1 ∧
      (t busy).cache.waitList = [r] ∧ (t busy).cache.counters.misses = 1 := by
  decide +kernel

theorem test_meets_IdentificationExpiryEntersLookup_for_a_lookup :
    let s := full (visit up { state := .identifying, identTimer := some 60, kiosk := some keyA })
    let c := (s.ctx 2).finalise s.params
    let t := after (.identificationExpiry 2) s
    s.cache.recalls = [] ∧ QueueFull s ∧ c.formLinks.map (·.key) = [keyA] ∧ (∀ k ∈ c.formLinks, 4 ≤ k.key.length) ∧
      (t.ctx 2).state = .lookup ∧ (t.entry (setIndex keyA) 0).state = .filling ∧ (t.entry (setIndex keyA) 0).pins = 1 ∧
      (t.ctx 2).links.map (·.target) = [some (.way (setIndex keyA) 0)] ∧ t.cache.counters.misses = 1 := by
  decide +kernel

/-- Visit 12 in LOOKUP on lane 4 waits for a lookup of the key BBBBBBBBBBB. -/
def retrying (s : State) : State :=
  let s := s.updCtx 4 fun _ => { state := .lookup, visit := 12, lane := 4, links := [{ link .pending none with key := keyB }] }
  full (s.updCache fun c => { c with waitList := [⟨4, 0⟩] })

theorem test_meets_the_refills_and_the_retries :
    let k := setIndex keyA
    let f : Fetch := ⟨keyA, .way k 0, 0x1234, .sent, none, some 150⟩
    let refill := full ((fetching (cached up { state := .filling, mark := .refill }) (.way k 0)).updCache fun c =>
      { c with recalls := [⟨keyA, true, true, false⟩] })
    let waits := retrying (fetching (cached up { state := .filling }) (.way k 0))
    let fill (s : State) := after (.bookingData hdr bytesA) s
    let none' (s : State) := after (.bookingNone hdr keyA) s
    let late (s : State) := after (.fetchTimeout 0) s
    let took (t : State) : Bool := (t.ctx 4).links.map (·.target) == [some (.way (setIndex keyB) 0)] && t.cache.waitList.isEmpty
    Outstanding refill 0 f hdr.tag ∧ (refill.entry k 0).mark = .refill ∧ QueueFull refill ∧ refill.cache.waitList = [] ∧
      refill.cache.recalls = [⟨f.key, true, true, false⟩] ∧
      (∀ p : Fin 48, ∀ c ∈ refill.cache.copies[p], c.key = f.key → c.recalled = false) ∧
      Outstanding waits 0 f hdr.tag ∧ (waits.entry k 0).mark ≠ .refill ∧
      (∀ id : CtxId, ∀ m ∈ (waits.ctx id).links, m.target ≠ some f.target) ∧ waits.cache.recalls = [] ∧ QueueFull waits ∧
      waits.cache.waitList = [⟨4, 0⟩] ∧ waits.link? ⟨4, 0⟩ = some { link .pending none with key := keyB } ∧
      (waits.ctx 4).state = .lookup ∧ 4 ≤ keyB.length ∧ bytesA.take 11 = f.key ∧ recordOfBytes bytesA = some (recA .exportFull) ∧
      ((fill refill).entry k 0).mark = .none ∧ ((fill refill).entry k 0).state = .filling ∧
      (fill refill).cache.sendOrder = [.fetch 0, .recallDone keyA true] ∧ (fill refill).cache.recalls = [⟨keyA, true, false, true⟩] ∧
      ((fill refill).cache.slots[(0 : Fin 16)]).map (·.phase) = some .fetchOwed ∧
      ((none' refill).entry k 0).state = .invalid ∧ (none' refill).cache.sendOrder = [.recallDone keyA true] ∧
      (late refill).cache.recalls = [⟨keyA, true, false, true⟩] ∧
      took (fill waits) = true ∧ took (none' waits) = true ∧ took (late waits) = true := by
  decide +kernel

theorem test_meets_RecallActsOnTheKey_for_a_castout :
    let g : Fetch := ⟨keyB, .way (setIndex keyB) 0, 7, .castoutOwed, some { recA .exportFull with key := keyA }, none⟩
    let s := full (up.updCache fun c => { c with slots := c.slots.set 3 (some g), sendOrder := [.castout 3, .fetch 3] })
    let t := after (.bookingRecall hdr keyA) s
    Ready s ∧ CacheIdle s ∧ QueueFull s ∧ Work.wayOf s keyA = none ∧ s.cache.slots[(3 : Fin 16)] = some g ∧
      (∀ p : Fin 48, ∀ c ∈ s.cache.copies[p], c.key ≠ keyA) ∧ t.cache.recalls = [⟨keyA, true, false, true⟩] ∧
      t.cache.sendOrder = [.castout 3, .fetch 3, .recallDone keyA true] := by
  decide +kernel

theorem test_meets_RecallActsOnTheKey_for_a_last_pin :
    let k := setIndex keyA
    let way := some (Target.way k 0)
    let s (d : Bool) := full (cached (visit up { state := .lookup, links := [link .resolved way, { link .pending none with key := keyB }] })
      { state := .valid, record := some (recA .exportFull), pins := 1, dirty := d })
    let t (d : Bool) := after (.bookingRecall hdr keyA) (s d)
    Ready (s true) ∧ CacheIdle (s true) ∧ QueueFull (s true) ∧ Work.wayOf (s true) keyA = some 0 ∧ ((s true).entry k 0).pins = 1 ∧
      ((s true).entry k 0).owed = .none ∧ ((s false).entry k 0).dirty = false ∧
      (∀ m : Fin 2, ∀ x ∈ ((s true).ctx 2).links[m]?, x.key = keyA ∨ x.target = way → m = 0) ∧
      (∀ j, j ≠ 2 → ((s true).ctx j).state ≠ .lookup) ∧
      ((t true).entry k 0).owed = .writeback ∧ ((t true).entry k 0).pins = 0 ∧ (t true).cache.waitList = [⟨2, 0⟩] ∧
      (t true).cache.sendOrder = [.writeback k 0] ∧
      ((t false).entry k 0).state = .filling ∧ (t false).cache.waitList = [] ∧
      (t false).cache.sendOrder = [.recallDone keyA true, .fetch 0] ∧ (t false).cache.recalls = [⟨keyA, true, false, true⟩] := by
  decide +kernel

theorem test_meets_ChainFindsTheFirstThatCanTake_for_an_admission :
    let l := link .resolved (some (.way (setIndex keyA) 0))
    let s (h : Option (Fin 64)) := cached (visit up { state := .referred, links := [link .noneFound none, l] })
      { state := .valid, record := some { recA .emptyPickup with hint := h }, pins := 1 }
    let open' (s : State) (d : Fin 64) : State := s.updDestAt d fun x => { x with isOpen := true, kind := .trouble }
    let hinted := open' (s (some 9)) 9
    let default' := (open' (s none) 8).updDest fun u => { u with defaults := u.defaults.set 3 8 }
    (hinted.ctx 2).links = [link .noneFound none] ++ l :: [] ∧ (∀ x ∈ [link .noneFound none], hinted.linkRecord x = none) ∧
      hinted.linkRecord l = some { recA .emptyPickup with hint := some 9 } ∧ hinted.bookingKind (hinted.ctx 2) = some .emptyPickup ∧
      hinted.findDest (hinted.ctx 2) .admitted = some 9 ∧ default'.findDest (default'.ctx 2) .admitted = some 8 ∧
      (s none).findDest {} .admitted = none := by
  decide +kernel

/-- Visit 7 on lane 3 with a reservation, a token, a pinned entry of which it holds a unit, and a private copy being fetched. -/
def holding (st : CtxState) : State :=
  let way := some (Target.way (setIndex keyA) 0)
  let c : Ctx := { state := st, decision := some .refer, rulingTimer := some 90, reservation := some ⟨5, 40, false⟩, inTransit := true,
                   links := [{ link .resolved way with holdsUnit := true }, link .pending (some (.copy 5))] }
  let s := fetching ((cached (timed (visit up c)) { state := .valid, record := some (recA .emptyPickup), pins := 2, held := 2 }).setCopy 5
    (some ⟨keyA, none, 0, some ⟨2, 1⟩, false, false⟩)) (.copy 5)
  s.updDest fun u => { u with transit := [⟨7, 0, none⟩], dests := u.dests.set 0 { u.dests[0] with inTransit := 1 } }

/-- The console of lane 3 is about to take the lane of that visit. -/
def taking : State :=
  mapped ((emptied (holding .referred)).updPort 0 fun p => { p with rxQueue := [frame .consoleTake] }) .console .position

theorem test_meets_Abortable :
    Abortable (full (holding .lookup)) 2 ∧ Abortable (emptied (holding .lookup)) 2 ∧ Abortable taking 2 := by
  refine ⟨⟨?_, ?_, ?_, ?_, ?_, ?_, ?_, ?_⟩, ⟨?_, ?_, ?_, ?_, ?_, ?_, ?_, ?_⟩, ⟨?_, ?_, ?_, ?_, ?_, ?_, ?_, ?_⟩⟩ <;>
    decide +kernel

theorem test_meets_LaneCommandsMoveTheLane_for_an_abort :
    let s := full (holding .lookup)
    let room := (emptied (holding .lookup)).updLane 5 fun l => { l with mode := .open, pendingArrivals := 1 }
    let closing := (emptied (holding .lookup)).updLane 3 fun l => { l with mode := .closing }
    let t := after (.laneCommandReset hdr 3) s
    let u := after (.laneCommandReset hdr 3) room
    Ready s ∧ QueueFull s ∧ (s.lane 3).ctxs.filter (fun j => (s.ctx j).state != .closing) = [2] ∧ (s.ctx 2).lane = 3 ∧
      room.uplink.queue.length < 64 ∧ room.uplink.waiters = [] ∧
      (t.windowAt (.today, 40)).reserved = 0 ∧ t.dest.transit = [] ∧ (t.destAt 0).inTransit = 0 ∧
      (t.entry (setIndex keyA) 0).pins = 1 ∧ (t.entry (setIndex keyA) 0).held = 1 ∧ t.cache.copies[(5 : Fin 48)] = none ∧
      t.cache.slots[(0 : Fin 16)] = none ∧ (t.ctx 2).state = .closing ∧ (t.ctx 2).links.map (·.target) = [none, none] ∧
      (t.ctx 2).outcome = some .aborted ∧ (t.ctx 2).inTransit = false ∧
      (u.ctx 2).lane = 5 ∧ (u.ctx 2).state = .arriving ∧ u.uplink.queue.length = 2 ∧ (u.lane 3).ctxs = [] ∧
      ((after (.laneCommandReset hdr 3) closing).lane 3).mode = .closed := by
  decide +kernel

theorem test_meets_ConsoleTakeEntersManual_for_an_abort :
    let s := taking
    let t := after (.consoleTake 0) s
    Consumed s 0 (frame .consoleTake) [] ∧ (s.ctx 2).lane = 3 ∧
      (s.lane 3).ctxs.filter (fun j => (s.ctx j).state != .closing && (s.ctx j).state != .releasing) = [2] ∧
      (let u := classB (forwardedUplink s 0 (frame .consoleTake)) (.modeChange 3 .open .manual .consoleTake (some 0))
       u.queue.length < 64 ∧ u.waiters = []) ∧
      (t.ctx 2).state = .free ∧ (t.lane 3).mode = .manual ∧ (t.windowAt (.today, 40)).reserved = 0 ∧ t.dest.transit = [] ∧
      (t.entry (setIndex keyA) 0).pins = 1 ∧ t.cache.copies[(5 : Fin 48)] = none ∧
      (t.uplink.queue.getLast?.map fun r => r.report) =
        some (Report.visitReport (ended (s.ctx 2) .abortedManual).report) := by
  decide +kernel

theorem test_meets_the_turn_outs :
    let open' (s : State) (d : Fin 64) : State := s.updDestAt d fun x => { x with isOpen := true, kind := .trouble, capacity := 9 }
    let s := open' ((holding .referred).updDest fun u => { u with
      transit := [], dests := u.dests.set 0 { u.dests[0] with inTransit := 0 }, defaults := u.defaults.set 5 4 }) 4
    let s := s.updCtx 2 fun c => { c with inTransit := false }
    let none' := s.updDestAt 4 fun x => { x with isOpen := false }
    let late (s : State) := after (.rulingExpiry 2) s
    let ruled := after (.visitRuling hdr 7 2 6) s
    (s.ctx 2).state = .referred ∧ (s.ctx 2).rulingTimer.isSome = true ∧ Ready s ∧ rulingOf 2 = some .turnOut ∧
      hintOf 6 = some (some 6) ∧ ((s.ctx 2).links.filterMap (·.target)).Nodup ∧
      s.chain (s.bookingKind (s.ctx 2)) 4 s.dest.defaults[5] = some 4 ∧
      none'.chain (none'.bookingKind (none'.ctx 2)) 4 none'.dest.defaults[5] = none ∧
      (late s).dest.transit = [⟨7, 4, none⟩] ∧ ((late s).destAt 4).inTransit = 1 ∧ ((late s).windowAt (.today, 40)).reserved = 0 ∧
      ((late s).entry (setIndex keyA) 0).held = 1 ∧ ((late s).entry (setIndex keyA) 0).pins = 2 ∧
      ((late s).ctx 2).links.map (·.holdsUnit) = [false, false] ∧
      ((late none').ctx 2).destination = some 4 ∧ (late none').dest.transit = [] ∧
      ruled.dest.transit = [⟨7, 6, none⟩] ∧ (ruled.windowAt (.today, 40)).reserved = 0 ∧
      (ruled.entry (setIndex keyA) 0).held = 1 := by
  decide +kernel

/-! ### Hypotheses of the clauses on the links and the resets are met -/

/-- Address 2 of segment B is an ACTIVE SIGN of lane 3 whose channel is OK. -/
def shownOn (s : State) : State :=
  s.updStation (stationIx 1 1) fun e =>
    { e with
      state := .frozen, identity := some 8, role := .sign, zone := .position, lane := 3, silent := false
      silenceTimer := some 10, channel := some ⟨false, none, none, some blank, none⟩ }

theorem test_meets_HelloAndStatusAreHeard_for_a_hearing :
    let m : LaneMsg := .status
    let e := signed (queued up m) ⟨true, none, some blank, none, none⟩
    let q := e.updPort 0 fun p => { p with seqRecord := p.seqRecord.set 0 (some 4) }
    let t := after (frameCommand m.kind 0) e
    let d := after (frameCommand m.kind 0) q
    Consumed e 0 (frame m) [] ∧ (sender e 0 (frame m)).state ≠ .empty ∧ AtHead q 0 (frame m) [] ∧
      (q.port 0).seqRecord[(frame m).src] = some (frame m).seq ∧
      (t.port 0, t.station 0) = hearing e.params.signAck 0 (takenPort e 0 (frame m), heardEntry e 0 (frame m)) ∧
      (t.port 0).txQueue.length = 2 ∧ (t.port 0).txSeq[0] = 2 ∧ (t.station 0).channel.bind (·.waiting) = none ∧
      (d.port 0).counters.duplicates = 1 ∧ (d.port 0).txQueue.length = 2 := by
  decide +kernel

theorem test_meets_SignalAndSendingMoveTheSegment_for_a_hold :
    let s := (shownOn (mapped up .console .position)).updLane 3 fun l => { l with mode := .manual, holder := some 0 }
    let t := State.releaseSilent 0 (State.silenceStation 0 s 0) 0
    let u := after (.stationSilenceExpiry 0 0) s
    ((s.lane 3).mode = .manual ∧ ∃ a : Addr, (s.lane 3).holder = some (stationIx 0 a)) ∧ SignOf s 3 (stationIx 1 1) ∧
      (s.port 0).state ≠ .down ∧ (t.lane 3).mode = .suspended ∧ (t.station 0).silent = true ∧ (t.station 0).silenceTimer = none ∧
      (t.port 1).txQueue.length = 2 ∧ TxOnly (s.port 1) (t.port 1) ∧ (u.port 1).txQueue.length = 2 ∧
      ((u.station (stationIx 1 1)).channel.bind (·.inFlight)).map (·.page) = some (u.page 3) := by
  decide +kernel

theorem test_meets_SignalAndSendingMoveTheSegment_for_a_silent_entry :
    let g : InFlight := ⟨blank, none, none, false, false⟩
    let s := (signed up ⟨true, some g, none, none, some 40⟩).updStation 0 fun e => { e with silent := true, silenceTimer := none }
    (State.silenceStation 0 s 0).station 0 = s.station 0 ∧
      faulted (s.station 0).channel = some ⟨true, none, some blank, none, none⟩ := by
  decide +kernel

theorem test_meets_ConsoleReleaseAndOutput_for_a_release :
    let m : LaneMsg := .consoleRelease
    let s := (shownOn (mapped (queued up m) .console .position)).updLane 3 fun l => { l with mode := .manual, holder := some 0 }
    let t := after (.consoleRelease 0) s
    Consumed s 0 (frame m) [] ∧ (s.lane 3).mode = .manual ∧ (s.lane 3).holder = some 0 ∧ SignOf s 3 (stationIx 1 1) ∧
      t.port 0 = takenPort s 0 (frame m) ∧ t.station 0 = heardEntry s 0 (frame m) ∧ TxOnly (s.port 1) (t.port 1) ∧
      (t.port 1).txQueue.length = 2 := by
  decide +kernel

theorem test_meets_ResetsLeaveTheirValues_for_the_signs :
    let live := up.updPort 0 fun p => { p with signal := true }
    let live := live.updPort 1 fun p => { p with signal := true, counters := { p.counters with transmitDrops := 5 } }
    let s := (shownOn (signed live ⟨true, none, some blank, none, none⟩)).updStation 0 fun e => { e with silent := true }
    let s := s.updDest fun u => { u with
      transit := [⟨7, 4, none⟩, ⟨8, 4, some 9⟩], dests := u.dests.set 4 { u.dests[4] with inTransit := 2, capacity := 9 } }
    let s := s.updCache fun c => { c with
      slots := c.slots.set 3 (some ⟨keyA, .copy 5, 7, .castoutOwed, some (recA .exportFull), none⟩)
      copies := c.copies.set 5 (some ⟨keyA, none, 0, none, true, false⟩) }
    let d := s.dynamicValues
    let t := d.offerPage (stationIx 1 1) (d.page 3)
    Ready s ∧ (d.port 1).txQueue = [] ∧ (d.port 1).counters.transmitDrops = 5 ∧
      (d.station (stationIx 1 1)).channel = some ⟨false, none, none, none, none⟩ ∧
      (d.station 0).channel = some ⟨true, none, none, none, none⟩ ∧ (d.station 0).silenceTimer = none ∧
      (d.station (stationIx 1 1)).silenceTimer = some 10 ∧ (t.port 1).txQueue.length = 2 ∧
      (t.port 1, t.station (stationIx 1 1)) =
        offered s.params.signAck 1 (d.page 3) (d.port 1, d.station (stationIx 1 1)) ∧
      (d.destAt 4).inTransit = 1 ∧ (d.destAt 4).capacity = 9 ∧ d.dest.transit = [⟨8, 4, some 9⟩] ∧
      d.cache.counters.castoutsLost = 1 ∧ d.cache.counters.updatesLost = 1 := by
  decide +kernel

theorem test_meets_ResetLeavesTheStatedValues_for_the_tables :
    (State.reset.dayTable .today).day = none ∧ (∀ w : Fin 96, (State.reset.dayTable .tomorrow).windows[w] = {}) ∧
      State.reset.uplink.owed = [] ∧ State.reset.uplink.waiters = [] ∧ (∀ ix : StationIx, (State.reset.station ix).channel = none) ∧
      State.reset.uplink.queue = ⟨.partHello State.reset.uplink.node .powerOn none .through false, none⟩ ::
        (List.finRange 4).map (fun seg => ⟨.segmentEvent seg none (State.reset.port seg).state 0, none⟩) := by
  decide +kernel

theorem test_meets_RequestsAreTakenOrDropped_for_a_short_frame :
    let short : List Byte := List.replicate 12 0 ++ [0x88, 0xB5, 0]
    short.length < 18 ∧ frameFate 0 short = .ignored ∧ lengthAllowed 6 [] = false := by
  decide +kernel

/-! ### Hypotheses of the clauses on the forms and on the reports of an ended hold are met -/

theorem test_meets_FrameCheckTakesThePartsInOrder_for_each_kind :
    let q : List Byte := 90 :: chars 10 0x41
    let m : List Byte := [2, 1, 2, 0, 9]
    laneMsgOf 1 q = some (.readPlate 90 (chars 10 0x41)) ∧ laneMsgOf 1 [90] = none ∧ laneMsgOf 1 (q ++ [0x41]) = none ∧
      laneMsgOf 1 [90, 0x2E] = none ∧ laneMsgOf 2 (90 :: chars 12 0x20) = some (.readTag 90 (chars 12 0x20)) ∧
      laneMsgOf 3 (1 :: 90 :: chars 15 0x41) = some (.readUnit .aft 90 (chars 11 0x41) (chars 4 0x41)) ∧
      laneMsgOf 3 (2 :: 90 :: chars 15 0x41) = none ∧ laneMsgOf 4 [0, 90, 0x39] = some (.readSeal .fwd 90 [0x39]) ∧
      laneMsgOf 4 [0, 90] = none ∧ laneMsgOf 5 (0 :: m) = some (.damageMarks .fwd [⟨.top, 1, 2, .dent, 9⟩]) ∧
      laneMsgOf 5 [0] = none ∧ laneMsgOf 5 (0 :: (List.replicate 9 m).flatten) = none ∧ laneMsgOf 5 [0, 5, 1, 2, 0, 9] = none ∧
      laneMsgOf 6 [0, 9, 9, 9, 9] = some (.scanEnd ⟨0, none, none⟩) ∧
      laneMsgOf 6 [1, 40, 2, 9, 9] = some (.scanEnd ⟨1, some (.l40, .unknown), none⟩) ∧ laneMsgOf 6 [3, 40, 2, 40, 2] = none ∧
      laneMsgOf 6 [2, 20, 0, 45, 1] = some (.scanEnd ⟨2, some (.l20, .doorsAft), some (.l45, .doorsFore)⟩) ∧
      laneMsgOf 7 keyA = some (.kioskEntry keyA) ∧ laneMsgOf 8 [1, 2, 3, 4] = some (.hello 0x01020304) ∧
      laneMsgOf 9 (List.replicate 60 0) = some .status ∧ laneMsgOf 9 (List.replicate 61 0) = none ∧
      laneMsgOf 10 [7] = some (.signAck 7) ∧ laneMsgOf 11 [7] = some (.ticketAck 7) ∧ laneMsgOf 12 [] = some .consoleTake ∧
      laneMsgOf 13 [] = some .consoleRelease ∧ laneMsgOf 13 [0] = none ∧
      laneMsgOf 14 [0, 1, 2] = some (.consoleOutput (some false) (some true) none) ∧ laneMsgOf 14 [0, 1, 3] = none := by
  decide +kernel

theorem test_meets_RefusedFramesReachNoBlock_for_each_role :
    Role.plate.accepts .readPlate = true ∧ Role.plate.accepts .readTag = false ∧ Role.damage.accepts .scanEnd = true ∧
      Role.sign.accepts .signAck = true ∧ Role.printer.accepts .ticketAck = true ∧ Role.console.accepts .consoleTake = true ∧
      Role.kiosk.accepts .kioskEntry = true ∧ Role.sign.accepts .status = true := by
  decide

/-- The unit code CSQU3054383: its sum is 649 by the weights 1, 3, 7, 9. -/
def unitCode : Text := [0x43, 0x53, 0x51, 0x55, 0x33, 0x30, 0x35, 0x34, 0x33, 0x38, 0x33]

theorem test_meets_IdentityReadIsScored_for_a_code :
    let sum : Nat := 12 + 3 * 28 + 7 * 26 + 9 * 30 + 3 + 3 * 0 + 7 * 5 + 9 * 4 + 3 + 3 * 8
    unitFormOk unitCode = true ∧ sum % 10 = 9 ∧ checkValid unitCode = false ∧
      checkValid (unitCode.take 10 ++ [0x39]) = true ∧ unitFormOk (unitCode.take 10) = false ∧
      unitFormOk (unitCode.take 10 ++ [0x41]) = false := by
  decide +kernel

theorem test_meets_VictimIsTheEligibleWay_for_a_set :
    (∀ b ∈ unitCode, Digit b ∨ Letter b) ∧ charValue 0x5A = 35 ∧ faceValue 0x5A = 35 ∧
      (setIndex (chars 11 0x5A)).val = 35 * 143 % 1024 ∧ (setIndex (chars 11 0x30)).val = 0 := by
  decide +kernel

theorem test_meets_FetchesEndOrStayOutstanding_for_the_records : Holds bytesA (recA .exportFull) := by
  refine (Laws.recordOfBytes_some bytesA _).mp ?_
  decide +kernel

theorem test_meets_ScanEndGivesTheLayout_for_the_links :
    let f (k : Text) (st : FieldState) : ConsField := { state := st, latched := some k }
    let same : Ctx := { unitFwd := f keyA .settled, unitAft := f keyA .weak, kiosk := some keyA }
    let third : Ctx := { same with kiosk := some keyB }
    let open' : Ctx := { unitFwd := f keyA .unresolved, unitAft := f keyB .contested }
    same.formLinks.map (fun l => (l.key, l.source)) = [(keyA, .unitFwd)] ∧
      third.formLinks.map (fun l => (l.key, l.source)) = [(keyA, .unitFwd), (keyB, .kiosk)] ∧
      open'.formLinks.map (fun l => (l.key, l.source)) = [(keyB, .unitAft)] ∧ ({} : Ctx).formLinks = [] := by
  decide +kernel

theorem test_meets_the_completing_reads_for_a_lookup :
    let done : ConsField := { state := .settled, candidates := [⟨chars 6 0x41, 200, 2, none⟩], latched := some (chars 6 0x41) }
    let c : Ctx := { state := .identifying, plate := done, tag := done, layout := some ⟨0, none, none⟩ }
    let scan := full (visit (mapped (queued up (.scanEnd ⟨0, none, none⟩)) .damage .position)
      { c with layout := none, kiosk := some keyA })
    let kiosk := full (visit (mapped (queued up (.kioskEntry keyA)) .kiosk .position) c)
    let near := { c with plate := { done with state := .open, candidates := [⟨chars 6 0x41, 140, 1, none⟩], latched := none } }
    let read := full (visit (mapped (queued up (.readPlate 90 (chars 6 0x41))) .plate .position)
      { near with tag := {}, kiosk := some keyA })
    let plate := (read.ctx 2).scoreRead read.params .plate (chars 6 0x41) 90 none
    let looks (t : State) : Bool := (t.entry (setIndex keyA) 0).state == .filling && t.cache.counters.misses == 1 &&
      (t.ctx 2).links.map (·.target) == [some (.way (setIndex keyA) 0)]
    Consumed scan 0 (frame (.scanEnd ⟨0, none, none⟩)) [] ∧ scan.attach 3 .position = some 2 ∧ scan.cache.recalls = [] ∧
      QueueFull scan ∧ ¬ Waits { scan.ctx 2 with layout := some ⟨0, none, none⟩ } ∧ (scan.ctx 2).formLinks.map (·.key) = [keyA] ∧
      4 ≤ keyA.length ∧ Consumed kiosk 0 (frame (.kioskEntry keyA)) [] ∧ kiosk.attach 3 .position = some 2 ∧
      QueueFull kiosk ∧ ¬ Waits { kiosk.ctx 2 with kiosk := some keyA } ∧
      Consumed read 0 (frame (.readPlate 90 (chars 6 0x41))) [] ∧ read.attach 3 .position = some 2 ∧ QueueFull read ∧
      ¬ Waits plate ∧ plate.formLinks.map (·.key) = [keyA] ∧
      looks (after (.scanEnd 0) scan) = true ∧ looks (after (.kioskEntry 0) kiosk) = true ∧
      looks (after (.readPlate 0) read) = true := by
  decide +kernel

theorem test_meets_RecallActsOnTheKey_for_a_last_pin_with_a_report_owed :
    let k := setIndex keyA
    let s := full (cached (visit up { state := .lookup, links := [link .resolved (some (.way k 0))] })
      { state := .valid, record := some (recA .exportFull), pins := 1, owed := .update })
    let s := s.updCache fun c => { c with sendOrder := [.update k 0] }
    let t := after (.bookingRecall hdr keyA) s
    Ready s ∧ CacheIdle s ∧ QueueFull s ∧ Work.wayOf s keyA = some 0 ∧ (s.entry k 0).pins = 1 ∧ (s.entry k 0).owed ≠ .none ∧
      (s.ctx 2).links[0]? = some (link .resolved (some (.way k 0))) ∧ (∀ j, j ≠ 2 → (s.ctx j).state ≠ .lookup) ∧
      (t.entry k 0).pins = 0 ∧ (t.entry k 0).mark = .pending ∧ (t.entry k 0).owed = .update ∧ t.cache.waitList = [⟨2, 0⟩] ∧
      t.cache.recalls = [⟨keyA, true, true, false⟩] ∧ t.cache.sendOrder = [.update k 0] ∧ t.cache.counters.hits = 1 := by
  decide +kernel

theorem test_meets_the_reports_of_an_ended_hold :
    let s := (emptied (mapped up .console .position)).updLane 3 fun l => { l with mode := .manual, holder := some 0 }
    let ends : QueuedReport := ⟨.modeChange 3 .manual .suspended .consoleSilent none, none⟩
    (s.lane 3).mode = .manual ∧ (s.lane 3).holder = some (stationIx 0 0) ∧
      (State.releaseSilent 0 (s.enterSeg 0 .down) 0).uplink.queue = [⟨.segmentEvent 0 (some .up) .down 0, none⟩, ends] ∧
      (holdsEnded s (stationIx 0 0) .consoleSilent s.uplink).queue = [ends] ∧
      (holdsEnded s (stationIx 0 1) .consoleSilent s.uplink).queue = [] ∧
      (after (.stationSilenceExpiry 0 0) s).uplink.queue = [⟨.stationEvent 0 .stationSilent none none, none⟩, ends] := by
  decide +kernel

theorem test_meets_TimeSetPlacesTheClock_for_another_day :
    let s := (emptied (timed (visit up { state := .decided, inTransit := true, reservation := some ⟨4, 0, false⟩ }))).updDest fun u =>
      { u with transit := [⟨7, 3, some 7800⟩, ⟨8, 3, none⟩], dests := u.dests.set 3 { inTransit := 2 } }
    let t := after (.timeSet hdr 6 0) s
    Ready s ∧ s.slot.clock = some ⟨5, 600, 0⟩ ∧ (s.dest.transit.map (·.visit)).Nodup ∧ t.dest.transit = [⟨8, 3, none⟩] ∧
      (t.destAt 3).inTransit = 1 ∧ t.dest.counters.transitExpired = 1 ∧ (t.ctx 2).inTransit = false ∧
      (t.ctx 2).reservation = some ⟨4, 0, true⟩ ∧ t.uplink.queue.map (·.report) =
        [.transitExpired ⟨7, 3, some 7800⟩, response hdr 0x0A (okay false)] := by
  decide +kernel

theorem test_meets_ErrorWindowMovesTheSegment_for_the_counts :
    let worn := up.updPort 0 fun p => { p with state := .impaired }
    let deep := up.updPort 0 fun p => { p with rxQueue := List.replicate 16 (frame .status) }
    let good : List Byte := [0, 1, 9, 4, 0]
    up.params.segThreshold[(0 : Seg)] = 0 ∧ frameCheck [1, 2] = .crcError ∧
      frameCheck (good ++ bytesOf16 (crc16 good)) = .passed ⟨0, 4, .status, good⟩ ∧ 16 ≤ (deep.port 0).rxQueue.length ∧
      (worn.port 0).state = .impaired ∧ ((worn.enterSeg 0 .down).port 0).state = .down ∧
      ((after (.laneFrameReceived 0 [1, 2]) up).port 0).windowCount = 1 ∧
      ((after (.laneFrameReceived 0 (good ++ bytesOf16 (crc16 good))) deep).port 0).counters.overruns = 1 := by
  decide +kernel

/-! ### Hypotheses of the clauses with room in the report queue, and of those on recalls, are met -/

/-- The key AAAAAAAAAAA is under recall, with the part of its entry outstanding as `e` says. -/
def recalling (s : State) (e : Bool) : State := s.updCache fun c => { c with recalls := [⟨keyA, true, e, false⟩] }

/-- The reports queued, oldest first. -/
def reports (s : State) : List Report := s.uplink.queue.map (·.report)

theorem test_meets_ConsoleTakeEntersManual_with_none_to_abort :
    let s := recalling (shownOn (emptied (visit (mapped (queued up .consoleTake) .console .position) { state := .releasing }))) true
    let t := after (.consoleTake 0) s
    Consumed s 0 (frame .consoleTake) [] ∧ (s.lane 3).mode ≠ .manual ∧ RecallsWait s ∧ s.cache.recalls ≠ [] ∧
      (s.lane 3).ctxs.filter (fun j => (s.ctx j).state != .closing && (s.ctx j).state != .releasing) = [] ∧
      t.uplink = classB (forwardedUplink s 0 (frame .consoleTake)) (.modeChange 3 .open .manual .consoleTake (some 0)) ∧
      (t.ctx 2).state = .releasing ∧ SignOf s 3 (stationIx 1 1) ∧ (t.port 1).txQueue.length = 2 := by
  decide +kernel

/-- A context that completes its identification while it is on its way: plate and tag settled, no unit, an entry of the kiosk. -/
def known (st : CtxState) : Ctx :=
  let done : ConsField := { state := .settled, candidates := [⟨chars 6 0x41, 200, 2, none⟩], latched := some (chars 6 0x41) }
  { state := st, approachTimer := some 180, plate := done, tag := done, layout := some ⟨0, none, none⟩, kiosk := some keyA }

theorem test_meets_PositionOnAdvancesTheOldest_for_an_identified_one :
    let s := firing (emptied (visit up (known .arriving))) .position true
    let t := after (.inputFilterExpiry 3 .position) s
    FilterEnds s 3 .position true ∧ (s.lane 3).ctxs = [] ++ 2 :: [] ∧ (s.ctx 2).state = .arriving ∧ (s.ctx 2).lane = 3 ∧
      (s.ctx 2).identified = true ∧ s.cache.recalls = [] ∧ (s.ctx 2).formLinks.map (·.key) = [keyA] ∧
      (t.ctx 2).state = .lookup ∧ (t.ctx 2).identTimer = none ∧ (t.ctx 2).position = some .unset ∧ (t.lane 3).front = some 2 ∧
      reports t = [.bookingFetch keyA 0] ∧
      (t.cache.slots[(0 : Fin 16)]).map (·.timer) = some (some t.params.fetchTimeout) := by
  decide +kernel

theorem test_meets_ReleaseEdgeCommits_with_room :
    let s := (firing (emptied (visit up { state := .releasing })) .exit false).updLane 5 fun l =>
      { l with mode := .open, pendingArrivals := 1 }
    let next := ((firing (followed (emptied (visit up { state := .releasing })) (known .arriving)) .exit false)).updInput 3 .position
      fun i => { i with level := true }
    let t := after (.inputFilterExpiry 3 .exit) s
    let u := after (.inputFilterExpiry 3 .exit) next
    FilterEnds s 3 .exit (s.lane 3).exitOnEdge ∧ (s.lane 3).front = some 2 ∧ (s.ctx 2).links = [] ∧ s.cache.recalls = [] ∧
      Advances s 3 none ∧ FilterEnds next 3 .exit (next.lane 3).exitOnEdge ∧ (next.lane 3).front = some 2 ∧
      (next.reads 3 .position = true ∧ (next.ctx 5).state = .arriving ∧ (next.ctx 5).lane = 3 ∧ (next.lane 3).ctxs = [2] ++ 5 :: [] ∧
        ∀ k ∈ [(2 : CtxId)], (next.ctx k).state ≠ .arriving) ∧ (next.ctx 5).identified = true ∧
      (t.ctx 2).lane = 5 ∧ (t.ctx 2).state = .arriving ∧ (t.lane 3).ctxs = [] ∧ t.uplink.queue.length = 1 ∧
      (u.ctx 5).state = .lookup ∧ (u.lane 3).front = some 5 ∧ (u.ctx 2).state = .free ∧ u.uplink.queue.length = 2 ∧
      (reports u).head? = some (.bookingFetch keyA 0) := by
  decide +kernel

/-- Visit 7 of lane 3 has one link, to the key's entry `e`, under the one recall outstanding. -/
def recalledEntry (d : Decision) (e : Entry) : State :=
  recalling (cached (visit up { state := .releasing, links := [link .resolved (some (.way (setIndex keyA) 0))], decision := some d }) e)
    true

/-- Visit 7 of lane 3 has one link, to a private copy under the one recall outstanding. -/
def recalledCopy (d : Decision) : State :=
  recalling ((visit up { state := .releasing, links := [link .resolved (some (.copy 5))], decision := some d }).setCopy 5
    (some ⟨keyA, some (recA .exportFull), 0, some ⟨2, 0⟩, false, true⟩)) false

theorem test_meets_the_commits_of_an_entry_under_recall :
    let k := setIndex keyA
    let l := link .resolved (some (.way k 0))
    let e (owed : ReportOwed) (pins : Nat) : Entry :=
      { state := .valid, record := some (recA .exportFull), mark := .pending, pins := pins, owed := owed }
    let s (d : Decision) (owed : ReportOwed) (pins : Nat) := emptied (recalledEntry d (e owed pins))
    let t (s : State) := (Work.commit { st := s } 2).finish.st
    let gated : Record := { recA .exportFull with progress := .gatedIn }
    LinksRecalledEntry (s .admitted .none 1) 2 l k 0 keyA true ∧ LinksRecalledEntry (s .turnOut .writeback 1) 2 l k 0 keyA true ∧
      LinksRecalledEntry (full (s .admitted .none 2)) 2 l k 0 keyA true ∧
      reports (t (s .admitted .none 1)) = [.bookingUpdate gated, .recallDone keyA true] ∧
      (t (s .admitted .none 1)).entry k 0 = {} ∧ (t (s .admitted .none 1)).cache.recalls = [] ∧
      reports (t (s .turnOut .none 1)) = [.recallDone keyA true] ∧
      (t (s .admitted .none 2)).entry k 0 = { e .none 1 with key := some keyA, record := some gated } ∧
      (t (s .admitted .none 2)).cache.recalls = [⟨keyA, true, true, false⟩] ∧
      ((t (full (s .admitted .none 1))).entry k 0).owed = .update ∧
      (t (full (s .admitted .none 1))).cache.sendOrder = [.update k 0] ∧
      ((t (s .turnOut .writeback 1)).entry k 0).owed = .writeback := by
  decide +kernel

theorem test_meets_the_commits_of_a_copy_under_recall :
    let p := link .resolved (some (.copy 5))
    let x : PrivateCopy := ⟨keyA, some (recA .exportFull), 0, some ⟨2, 0⟩, false, true⟩
    let copy := emptied (recalledCopy .admitted)
    let t (s : State) := (Work.commit { st := s } 2).finish.st
    LinksRecalledCopy copy 2 p 5 x true ∧ cacheRoom (full copy) = 0 ∧
      reports (t copy) = [.bookingUpdate { recA .exportFull with progress := .gatedIn }, .recallDone keyA true] ∧
      (t copy).cache.copies[(5 : Fin 48)] = none ∧
      ((t (full copy)).cache.copies[(5 : Fin 48)]).map (·.updateOwed) = some true ∧
      (t (full copy)).cache.recalls = [⟨keyA, true, false, false⟩] ∧
      reports (t (emptied (recalledCopy .turnOut))) = [.recallDone keyA true] := by
  decide +kernel

theorem test_meets_ReleaseEdgeCommits_under_recall :
    let k := setIndex keyA
    let e : Entry := { state := .valid, record := some (recA .exportFull), mark := .pending, pins := 1 }
    let x : PrivateCopy := ⟨keyA, some (recA .exportFull), 0, some ⟨2, 0⟩, false, true⟩
    let s := firing (emptied (recalledEntry .admitted e)) .exit false
    let copy := firing (emptied (recalledCopy .turnOut)) .exit false
    FilterEnds s 3 .exit (s.lane 3).exitOnEdge ∧ (s.lane 3).front = some 2 ∧
      LinksRecalledEntry s 2 (link .resolved (some (.way k 0))) k 0 keyA true ∧
      LinksRecalledCopy copy 2 (link .resolved (some (.copy 5))) 5 x true ∧
      ((reports (after (.inputFilterExpiry 3 .exit) s)).take 2 =
        [.bookingUpdate { recA .exportFull with progress := .gatedIn }, .recallDone keyA true]) ∧
      ((after (.inputFilterExpiry 3 .exit) s).ctx 2).state = .free ∧
      (reports (after (.inputFilterExpiry 3 .exit) copy)).head? = some (.recallDone keyA true) ∧
      (after (.inputFilterExpiry 3 .exit) copy).cache.copies[(5 : Fin 48)] = none := by
  decide +kernel

theorem test_meets_VictimIsTheEligibleWay_with_room :
    let k := setIndex keyA
    let r : LinkRef := ⟨2, 0⟩
    let miss := emptied (visit up { state := .lookup, links := [link .pending none] })
    let old : Entry := { state := .valid, key := some keyB, record := some (recA .exportFull), dirty := true }
    let both := miss.updCache fun c => { c with sets := c.sets.set k ⟨old, { old with key := some (chars 11 0x43) }, 0⟩ }
    let one := both.updUplink fun u => { u with queue := List.replicate 63 ⟨.flushDone, none⟩ }
    let t (s : State) := (Work.lookup { st := s } r).st
    miss.link? r = some (link .pending none) ∧ Work.wayOf both keyA = none ∧ Work.victim both.cache.sets[k] = some 1 ∧
      cacheRoom miss = 64 ∧ cacheRoom one = 1 ∧ reports (t miss) = [.bookingFetch keyA 0] ∧ (t miss).cache.sendOrder = [] ∧
      ((t miss).cache.slots[(0 : Fin 16)] = some ⟨keyA, .way k 0, 0, .sent, none, some miss.params.fetchTimeout⟩) ∧
      reports (t both) = [.bookingWriteback (recA .exportFull), .bookingFetch keyA 0] ∧ (t both).cache.counters.castouts = 1 ∧
      ((t one).cache.slots[(0 : Fin 16)] = some ⟨keyA, .way k 1, 0, .fetchOwed, none, none⟩) ∧
      (t one).cache.sendOrder = [.fetch 0] ∧ (t one).uplink.queue.length = 64 ∧ (t one).uplink.waiters = [.cache] ∧
      ((t (full both)).cache.slots[(0 : Fin 16)] = some ⟨keyA, .way k 1, 0, .castoutOwed, some (recA .exportFull), none⟩) ∧
      (t (full both)).cache.sendOrder = [.castout 0, .fetch 0] := by
  decide +kernel

theorem test_meets_the_lookups_with_room :
    let c := known .identifying
    let scan := emptied (visit (mapped (queued up (.scanEnd ⟨0, none, none⟩)) .damage .position) { c with layout := none })
    let kiosk := emptied (visit (mapped (queued up (.kioskEntry keyA)) .kiosk .position) { c with kiosk := none })
    let near := { c.plate with state := .open, candidates := [⟨chars 6 0x41, 140, 1, none⟩], latched := none }
    let read := emptied (visit (mapped (queued up (.readPlate 90 (chars 6 0x41))) .plate .position) { c with plate := near })
    let late := emptied (visit up { state := .identifying, identTimer := some 60, kiosk := some keyA })
    let sent (t : State) : Bool := (reports t).getLast? == some (.bookingFetch keyA 0) && t.cache.sendOrder.isEmpty &&
      (t.cache.slots[(0 : Fin 16)]).map (·.phase) == some .sent
    Consumed scan 0 (frame (.scanEnd ⟨0, none, none⟩)) [] ∧ scan.attach 3 .position = some 2 ∧
      ¬ Waits { scan.ctx 2 with layout := some ⟨0, none, none⟩ } ∧
      Consumed kiosk 0 (frame (.kioskEntry keyA)) [] ∧ kiosk.attach 3 .position = some 2 ∧
      ¬ Waits { kiosk.ctx 2 with kiosk := some keyA } ∧
      Consumed read 0 (frame (.readPlate 90 (chars 6 0x41))) [] ∧ read.attach 3 .position = some 2 ∧
      ¬ Waits ((read.ctx 2).scoreRead read.params .plate (chars 6 0x41) 90 none) ∧
      (late.ctx 2).identTimer.isSome = true ∧ sent (after (.scanEnd 0) scan) = true ∧
      sent (after (.kioskEntry 0) kiosk) = true ∧ sent (after (.readPlate 0) read) = true ∧
      sent (after (.identificationExpiry 2) late) = true := by
  decide +kernel

theorem test_meets_the_refills_and_the_retries_with_room :
    let k := setIndex keyA
    let f : Fetch := ⟨keyA, .way k 0, 0x1234, .sent, none, some 150⟩
    let refill := emptied (recalling (fetching (cached up { state := .filling, mark := .refill }) (.way k 0)) true)
    let one := refill.updUplink fun u => { u with queue := List.replicate 63 ⟨.flushDone, none⟩ }
    let waits := emptied (retrying (fetching (cached up { state := .filling }) (.way k 0)))
    let fill (s : State) := after (.bookingData hdr bytesA) s
    let none' (s : State) := after (.bookingNone hdr keyA) s
    let late (s : State) := after (.fetchTimeout 0) s
    Outstanding refill 0 f hdr.tag ∧ NoCopyRecalled refill keyA ∧ Outstanding waits 0 f hdr.tag ∧ cacheRoom refill = 64 ∧
      cacheRoom one = 1 ∧
      reports (fill refill) = [.bookingFetch keyA 0, .recallDone keyA true] ∧ (fill refill).cache.recalls = [] ∧
      ((fill refill).cache.slots[(0 : Fin 16)]).map (·.phase) = some .sent ∧
      (fill one).cache.sendOrder = [.recallDone keyA true] ∧ (fill one).cache.recalls = [⟨keyA, true, false, true⟩] ∧
      reports (none' refill) = [.recallDone keyA true] ∧ reports (late refill) = [.recallDone keyA true] ∧
      (late refill).cache.recalls = [] ∧ reports (fill waits) = [.bookingFetch keyB 0] ∧
      reports (none' waits) = [.bookingFetch keyB 0] ∧ reports (late waits) = [.bookingFetch keyB 0] := by
  decide +kernel

theorem test_meets_RecallActsOnTheKey_with_room :
    let k := setIndex keyA
    let way := some (Target.way k 0)
    let ok := response hdr 3 (okay false)
    let e : Entry := { state := .valid, record := some (recA .exportFull) }
    let s (e : Entry) := emptied (cached up e)
    let castout := (emptied up).updCache fun c => { c with
      slots := c.slots.set 3 (some ⟨keyB, .copy 6, 7, .castoutOwed, some (recA .exportFull), none⟩) }
    let filling (ph : FetchPhase) := (s { state := .filling }).setSlot 0 (some ⟨keyA, .way k 0, 7, ph, none, none⟩)
    let looks := emptied (cached (visit up { state := .lookup, links := [link .resolved way] }) { e with pins := 1 })
    let t (s : State) := after (.bookingRecall hdr keyA) s
    Ready (s e) ∧ CacheIdle (s e) ∧ cacheRoom (s e) = 64 ∧ Work.wayOf castout keyA = none ∧ CacheIdle castout ∧
      (∃ i : Fin 16, ∃ f ∈ castout.cache.slots[i], ∃ r ∈ f.castout, r.key = keyA) ∧
      (∃ i : Fin 16, ∃ f ∈ (filling .sent).cache.slots[i], f.target = .way k 0 ∧ f.phase = .sent) ∧
      (¬ ∃ i : Fin 16, ∃ f ∈ (filling .fetchOwed).cache.slots[i], f.target = .way k 0 ∧ f.phase = .sent) ∧
      (∀ z : Fin 2, z ≠ 0 → (looks.entry k z).key ≠ some keyA) ∧ (looks.ctx 2).links[0]? = some (link .resolved way) ∧
      reports (t (emptied up)) = [.recallDone keyA false, ok] ∧ (t (emptied up)).cache.recalls = [] ∧
      reports (t castout) = [.recallDone keyA true, ok] ∧ reports (t (filling .sent)) = [ok] ∧
      reports (t (filling .fetchOwed)) = [.recallDone keyA true, ok] ∧
      reports (t (s e)) = [.recallDone keyA true, ok] ∧ (t (s e)).entry k 0 = {} ∧
      reports (t (s { e with dirty := true })) = [.bookingWriteback (recA .exportFull), .recallDone keyA true, ok] ∧
      ((t (s { e with pins := 1 })).entry k 0).mark = .pending ∧ reports (t (s { e with owed := .update })) = [ok] ∧
      reports (t looks) = [.recallDone keyA true, .bookingFetch keyA 0, ok] ∧ ((t looks).entry k 0).state = .filling := by
  decide +kernel

theorem test_meets_RecallActsOnTheKey_for_a_copy_with_room :
    let c : PrivateCopy := ⟨keyA, none, 0, some ⟨2, 0⟩, false, false⟩
    let ok := response hdr 3 (okay false)
    let s (ph : FetchPhase) := (emptied ((visit up { state := .lookup, links := [link .pending (some (.copy 5))] }).setCopy 5
      (some c))).setSlot 2 (some ⟨keyA, .copy 5, 7, ph, none, some 9⟩)
    let owed := ((s .fetchOwed).updCache fun x => { x with sendOrder := [.fetch 2] }).updUplink fun u => { u with waiters := [.cache] }
    let t (s : State) := after (.bookingRecall hdr keyA) s
    Ready owed ∧ CacheIdle owed ∧ Work.wayOf owed keyA = none ∧ owed.cache.copies[(5 : Fin 48)] = some c ∧
      (∀ q : Fin 48, q ≠ 5 → owed.cache.copies[q] = none) ∧ owed.cache.sendOrder.filter (· ≠ .fetch 2) = [] ∧
      (∀ (j : Fin 16), ∀ g ∈ owed.cache.slots[j], g.target = .copy 5 → j = 2) ∧ (∀ j, j ≠ 2 → (owed.ctx j).state ≠ .lookup) ∧
      reports (t (s .sent)) = [.recallDone keyA true, .bookingFetch keyA 0, ok] ∧ (t (s .sent)).cache.slots[(2 : Fin 16)] = none ∧
      reports (t owed) = [.recallDone keyA true, .bookingFetch keyA 0, ok] ∧ (t owed).uplink.waiters = [] ∧
      (t owed).cache.sendOrder = [] ∧ ((t owed).ctx 2).links = [link .pending (some (.way (setIndex keyA) 0))] := by
  decide +kernel

theorem test_meets_FlushWritesBackEveryDirtyEntry_in_order :
    let k := setIndex keyA
    let e : Entry := { state := .valid, key := some keyA, record := some (recA .exportFull), dirty := true }
    let s := (emptied up).updCache fun c => { c with sets := c.sets.set k ⟨e, { e with key := some keyB }, 0⟩ }
    let one := s.updUplink fun u => { u with queue := List.replicate 63 ⟨.flushDone, none⟩ }
    let owing (w : Work) : Work := (w.flushEntry k 0).flushEntry k 1
    Ready s ∧ .flushDone ∉ s.cache.sendOrder ∧ RecallsWait (recalling s true) ∧ cacheRoom one = 1 ∧
      (s.entry k 0).mark = .none ∧ (s.entry k 0).record.isSome = true ∧
      reports (owing { st := s }).st = [.bookingWriteback (recA .exportFull), .bookingWriteback (recA .exportFull)] ∧
      ((owing { st := one }).st.entry k 0).dirty = false ∧ ((owing { st := one }).st.entry k 1).owed = .writeback ∧
      (owing { st := one }).st.cache.sendOrder = [.writeback k 1] ∧
      (owing { st := full s }).st.cache.sendOrder = [.writeback k 0, .writeback k 1] := by
  decide +kernel

theorem test_meets_ReportSentServesTheOldestWaiter_for_a_recall :
    let k := setIndex keyA
    let e (pins : Nat) : Entry :=
      { state := .valid, record := some (recA .exportFull), mark := .pending, pins := pins, dirty := true, owed := .writeback }
    let s (o : Owed) (n : Nat) (w : Bool) : State := (((retrying up).updCache fun c =>
      { c with sendOrder := [o], waitList := if w then c.waitList else [] }).updUplink fun u => { u with
        queue := List.replicate n ⟨.flushDone, none⟩, linkUp := true, waiters := [.cache] })
    let entry (pins n : Nat) (w : Bool) := recalling (cached (s (.writeback k 0) n w) (e pins)) true
    let copy (l : Option LinkRef) (n : Nat) (w : Bool) := recalling ((s (.copyUpdate 5) n w).setCopy 5
      (some ⟨keyA, some (recA .exportFull), 0, l, true, true⟩)) false
    let plain := (s (.copyUpdate 5) 2 true).setCopy 5 (some ⟨keyA, some (recA .exportFull), 0, none, true, false⟩)
    let t (s : State) := after .reportSent s
    RecallsWait (entry 1 2 true) ∧ NoCopyRecalled (entry 0 2 true) keyA ∧ (entry 0 2 true).cache.waitList = [⟨4, 0⟩] ∧
      (entry 0 2 false).cache.waitList = [] ∧ (entry 0 2 true).link? ⟨4, 0⟩ = some { link .pending none with key := keyB } ∧
      ((entry 0 2 true).ctx 4).state = .lookup ∧ RecallsWait (copy (some ⟨2, 0⟩) 2 true) ∧ RecallsWait plain ∧
      (∀ q : Fin 48, q ≠ 5 → ∀ d ∈ (copy none 2 true).cache.copies[q], d.key = keyA → d.recalled = false) ∧
      (t (entry 1 2 true)).entry k 0 = { e 1 with key := some keyA, owed := .none, dirty := false } ∧
      reports (t (entry 1 2 true)) = [.flushDone, .bookingWriteback (recA .exportFull)] ∧
      reports (t (entry 0 2 false)) = [.flushDone, .bookingWriteback (recA .exportFull), .recallDone keyA true] ∧
      (t (entry 0 2 false)).entry k 0 = {} ∧ (t (entry 0 2 false)).cache.recalls = [] ∧
      reports (t (entry 0 2 true)) =
        [.flushDone, .bookingWriteback (recA .exportFull), .recallDone keyA true, .bookingFetch keyB 0] ∧
      (t (entry 0 64 true)).cache.sendOrder = [.recallDone keyA true, .fetch 0] ∧
      reports (t (copy none 2 true)) =
        [.flushDone, .bookingUpdate (recA .exportFull), .recallDone keyA true, .bookingFetch keyB 0] ∧
      (t (copy none 2 true)).cache.copies[(5 : Fin 48)] = none ∧
      ((t (copy (some ⟨2, 0⟩) 2 true)).cache.copies[(5 : Fin 48)]).map (·.updateOwed) = some false ∧
      reports (t plain) = [.flushDone, .bookingUpdate (recA .exportFull), .bookingFetch keyB 0] := by
  decide +kernel

theorem test_meets_StationWriteRemakesTheEntry_for_a_sign :
    let w (state lane : Byte) : Instr := .tableWriteStationMap hdr 0 state 1 5 lane 6 1 9 1
    let held := (emptied (mapped up .console .position)).updLane 3 fun l => { l with mode := .manual, holder := some 0 }
    let silent := held.updStation 0 fun e => { e with silent := true, silenceTimer := none }
    let t := after (w 2 3) held
    let u := after (w 2 7) silent
    let ended : Report := .modeChange 3 .manual .suspended .consoleRewritten none
    let ok (clamped : Bool) := response hdr 6 (okay clamped)
    mapStateOf 2 = some .frozen ∧ roleOf 6 = some .sign ∧ (held.station 0).state ≠ .empty ∧
      (held.lane 3).mode = .manual ∧ (held.lane 3).holder = some 0 ∧
      reports t = [ended, ok true] ∧ t.uplink.serverPresent = true ∧ (t.lane 3).mode = .suspended ∧
      ((t.station 0).channel.map (·.fault)) = some false ∧ (((t.station 0).channel.bind (·.inFlight)).map (·.page)) = some (t.page 3) ∧
      ((t.station 0).channel.map (·.timer)) = some (some held.params.signAck) ∧
      (u.station 0).channel = some ⟨true, none, some (u.page 7), none, none⟩ ∧ (u.port 0).txQueue = [] := by
  decide +kernel

theorem test_meets_TablesAndCountersByNumber_for_a_clear :
    let s := ((emptied up).countCheck fun k => { k with clamps := 5 }).countDest fun k => { k with provisionals := 6 }
    let t := after (.counterRead hdr 22 1) s
    1 < (2 : Byte).toNat ∧ 25 < (26 : Byte).toNat ∧ t.counters 22 = List.replicate 8 0 ∧ t.counters 23 = s.counters 23 ∧
      t.check.weights = s.check.weights ∧ (t.lane 3).mode = (s.lane 3).mode ∧
      reports (after (.counterRead hdr 26 2) s) = [response hdr 8 (only .badIndex)] ∧
      reports (after (.counterRead hdr 25 2) s) = [response hdr 8 (only .badValue)] := by
  decide +kernel

theorem test_meets_PlainTableWrites_with_two_faults :
    let s := emptied up
    reports (after (.outputSet hdr 16 1 2 1) s) = [response hdr 9 (only .badIndex)] ∧
      reports (after (.tableWriteSlotWindows hdr 136 5 2 9 9 8) s) = [response hdr 6 (only .badValue)] := by
  decide +kernel

/-- R182, R152, by the choice of log entry 56: the first gate frame after a loss of the server brings it back before the decision
step that the same frame sets off. -/
theorem test_presence_comes_before_the_decision :
    let c : Ctx := { known .lookup with links := [link .pending (some (.way (setIndex keyA) 0))] }
    let s := emptied (fetching (cached (visit up c) { state := .filling, pins := 1 }) (.way (setIndex keyA) 0))
    let t := after (.bookingNone hdr keyA) s
    s.uplink.serverPresent = false ∧ t.uplink.serverPresent = true ∧ (t.ctx 2).reasons.noBooking = true := by
  decide +kernel

end Sys2Proof.Tests
end

section
/-! PROOFS. What an operation of the part can do to the segment ports and to the report queue. A property of the state that
depends on these two alone, and that an accepted report, an offered report and a frame handed to a port keep, is kept by every
operation built from them: pages and tickets, holds, the booking cache, the decision step, the sequencer, the lanes, and the
consumers of lane frames. -/
namespace Sys2Proof.Proofs

open Sys2Proof Sys2Proof.Machine Sys2Proof.Safety Sys2Proof.Laws

/-- What each step of a fold keeps, the fold keeps. -/
theorem foldl_preserves {α β : Type} {P : α → Prop} {f : α → β → α} (h : ∀ a x, P a → P (f a x)) (l : List β) {a : α}
    (ha : P a) : P (l.foldl f a) :=
  List.foldlRecOn l f ha fun a ha x _ => h a x ha

theorem room_of_roomA {s : State} (h : s.roomA = true) : s.uplink.queue.length < 64 := by
  unfold State.roomA at h
  exact of_decide_eq_true (Bool.and_eq_true_iff.1 h).1

/-- A property of the segment ports and of the report queue that the operations which change them keep. -/
structure PortInvariant (P : State → Prop) : Prop where
  of_same : ∀ {s t : State}, P s → t.ports = s.ports → t.uplink.queue = s.uplink.queue → P t
  keeps_accept : ∀ {s : State}, P s → s.uplink.queue.length < 64 → ∀ r, P (s.accept r)
  keeps_offerB : ∀ {s : State}, P s → ∀ r, P (s.offerB r)
  keeps_handOff : ∀ {s : State}, P s → ∀ (seg : Seg) (addr : Addr) (kind : TxKind) (payload : List Byte),
    P (s.handOff seg addr kind payload).1

namespace PortInvariant

variable {P : State → Prop} (inv : PortInvariant P)
include inv

/-! ### The two kinds of change: none to the queues, or one with room -/

theorem keeps_of_uplink {s t : State} (h : P s) (hp : t.ports = s.ports)
    (hu : t.uplink = s.uplink) : P t :=
  inv.of_same h hp (by rw [hu])

omit inv in
theorem keeps_ite {c : Prop} [Decidable c] {s t : State} (hs : P s) (ht : P t) :
    P (if c then s else t) := by
  split
  · exact hs
  · exact ht

/-! ### The report queue -/

theorem keeps_wait {s : State} (h : P s) (w : Waiter) : P (s.wait w) :=
  inv.of_same h (by simp) (by rw [wait_eq]; unfold waiting; split <;> rfl)

theorem keeps_unwait {s : State} (h : P s) (w : Waiter) : P (s.unwait w) :=
  inv.of_same h (by simp) rfl

theorem keeps_uplinkMake {s : State} (h : P s) (r : Report) : P (s.uplinkMake r) := by
  unfold State.uplinkMake
  split
  next hroom => exact inv.keeps_accept h (room_of_roomA (by simp_all)) r
  next => exact inv.keeps_wait (inv.of_same h (by rfl) (by rfl)) _

/-! ### The segment ports -/

/-! ### Signs, tickets and pages -/

theorem keeps_updStation {s : State} (h : P s) (ix : StationIx) (f : Station → Station) :
    P (s.updStation ix f) := inv.of_same h (by rfl) (by rfl)

theorem keeps_updChannel {s : State} (h : P s) (ix : StationIx) (f : SignChannel → SignChannel) :
    P (s.updChannel ix f) := inv.keeps_updStation h ix _

theorem keeps_sendPage {s : State} (h : P s) (ix : StationIx) (p : Page) : P (s.sendPage ix p) := by
  have hupper := inv.keeps_handOff h (segOf ix) (addrOf ix) .signPage (0 :: (p.line1 ++ p.line2))
  have hlower := inv.keeps_handOff hupper (segOf ix) (addrOf ix) .signPage (1 :: (p.line3 ++ p.line4))
  unfold State.sendPage
  exact inv.keeps_updChannel hlower ix _

theorem keeps_offerPage {s : State} (h : P s) (ix : StationIx) (p : Page) : P (s.offerPage ix p) := by
  unfold State.offerPage
  split
  · exact h
  · split
    · exact h
    · split
      · exact inv.keeps_sendPage h _ _
      · exact inv.keeps_updChannel h ix _

theorem keeps_compose {s : State} (h : P s) (l : LaneId) : P (s.compose l) := by
  refine foldl_preserves (fun t ix ht => ?_) _ h
  split
  · exact inv.keeps_offerPage ht _ _
  · exact ht

theorem keeps_composeAll {s : State} (h : P s) : P s.composeAll := by
  unfold State.composeAll
  exact foldl_preserves (P := P) (fun _ l ht => inv.keeps_compose ht l) _ h

theorem keeps_sendWaiting {s : State} (h : P s) (ix : StationIx) : P (s.sendWaiting ix) := by
  unfold State.sendWaiting
  split
  · split
    · exact inv.keeps_sendPage (inv.keeps_updChannel h _ _) _ _
    · exact h
  · exact h

theorem keeps_signHearing {s : State} (h : P s) (ix : StationIx) : P (s.signHearing ix) := by
  unfold State.signHearing
  split
  · split
    · exact inv.keeps_sendWaiting h _
    · exact h
  · exact h

theorem keeps_stationEvent {s : State} (h : P s) (ix : StationIx) (cause : StationCause)
    (identity received : Option (BitVec 32)) : P (s.stationEvent ix cause identity received) :=
  inv.keeps_offerB h _

theorem keeps_countSigns {s : State} (h : P s) (f : SignCounters → SignCounters) :
    P (s.countSigns f) := inv.of_same h (by rfl) (by rfl)

theorem keeps_signAck {s : State} (h : P s) (ix : StationIx) (sequence : Nat) :
    P (s.signAck ix sequence) := by
  unfold State.signAck
  dsimp only
  split
  · exact inv.keeps_countSigns h _
  · split
    · exact inv.keeps_countSigns h _
    · split
      · refine inv.keeps_sendWaiting ?_ _
        split
        · exact inv.keeps_stationEvent (inv.keeps_updChannel h _ _) _ _ _ _
        · exact inv.keeps_updChannel h _ _
      · exact inv.keeps_updChannel h _ _

theorem keeps_signExpiry {s : State} (h : P s) (ix : StationIx) : P (s.signExpiry ix) := by
  unfold State.signExpiry
  split
  · split
    · have hdrop := inv.keeps_countSigns (inv.keeps_updChannel h ix SignChannel.dropFlight)
        fun c => { c with signFaults := bump c.signFaults }
      dsimp only
      split
      · exact hdrop
      · exact inv.keeps_stationEvent hdrop _ _ _ _
    · exact h
  · exact h

theorem keeps_issueTicket {s : State} (h : P s) (id : CtxId) : P (s.issueTicket id) := by
  unfold State.issueTicket
  dsimp only
  split
  · exact inv.of_same h (by rfl) (by rfl)
  · split
    · exact inv.of_same h (by rfl) (by rfl)
    · exact inv.keeps_updStation (inv.keeps_handOff h _ _ _ _) _ _

/-! ### Lane modes and holds -/

theorem keeps_changeMode {s : State} (h : P s) (l : LaneId) (entered : LaneMode) (cause : ModeCause)
    (holder : Option StationIx) : P (s.changeMode l entered cause holder) := by
  unfold State.changeMode
  exact inv.keeps_compose (inv.keeps_offerB (inv.of_same h (by rfl) (by rfl)) _) _

theorem keeps_endHold {s : State} (h : P s) (ix : StationIx) (cause : ModeCause) :
    P (s.endHold ix cause) := by
  refine foldl_preserves (fun t l ht => ?_) _ h
  unfold State.endHoldOn
  split
  · exact inv.keeps_changeMode ht _ _ _ _
  · exact ht

theorem keeps_becomeSilent {s : State} (h : P s) (ix : StationIx) : P (s.becomeSilent ix) :=
  inv.keeps_endHold (inv.keeps_updChannel (inv.keeps_updStation h _ _) _ _) _ _

/-! ### The booking cache: every report it makes is tested for room by `Work.make` -/

theorem keeps_updEntry {s : State} (h : P s) (i : Fin 1024) (y : Fin 2) (f : Entry → Entry) :
    P (s.updEntry i y f) := inv.of_same h (by rfl) (by rfl)

theorem keeps_setAge {s : State} (h : P s) (i : Fin 1024) (y : Fin 2) : P (s.setAge i y) :=
  inv.of_same h (by rfl) (by rfl)

theorem keeps_updLink {s : State} (h : P s) (r : LinkRef) (f : Link → Link) : P (s.updLink r f) :=
  inv.of_same h (by rfl) (by rfl)

/-- R96: an owed report accepted takes one place of the report queue. -/
theorem keeps_acceptOwed {w : Work} (h : P w.st) (hroom : w.st.uplink.queue.length < 64) (o : Owed) :
    P (w.acceptOwed o).st := by
  have accepted (r : Report) := inv.keeps_accept h hroom r
  have entry (i : Fin 1024) (y : Fin 2) (make : Record → Report) : P (w.acceptEntry i y make).st := by
    unfold Work.acceptEntry
    dsimp only
    split
    next => exact h
    next r _ => split <;> exact inv.of_same (accepted (make r)) (by simp) (by simp)
  cases o with
  | castout i => 
    unfold Work.acceptOwed
    dsimp only
    repeat' split
    · exact inv.of_same (accepted _) (by rfl) (by rfl)
    · exact h
    · exact h
  | fetch i =>
    unfold Work.acceptOwed
    dsimp only
    split
    · exact inv.of_same (accepted _) (by rfl) (by rfl)
    · exact h
  | writeback i y => exact entry i y _
  | update i y => exact entry i y _
  | copyUpdate p =>
    unfold Work.acceptOwed
    dsimp only
    repeat' split
    · exact inv.of_same (accepted _) (by rfl) (by rfl)
    · exact inv.of_same (accepted _) (by rfl) (by rfl)
    · exact h
    · exact h
  | recallDone key released => exact inv.of_same (accepted _) (by rfl) (by rfl)
  | flushDone => exact accepted _

theorem keeps_make {w : Work} (h : P w.st) (o : Owed) : P (w.make o).st := by
  unfold Work.make
  split
  next hroom => exact inv.keeps_acceptOwed h (room_of_roomA (by simp_all)) o
  next => exact inv.keeps_wait (inv.of_same h (by rfl) (by rfl)) _

theorem keeps_withdraw {w : Work} (h : P w.st) (o : Owed) : P (w.withdraw o).st := by
  unfold Work.withdraw
  dsimp only [Work.upd]
  split
  · exact inv.keeps_unwait (inv.of_same h (by rfl) (by rfl)) _
  · exact inv.of_same h (by rfl) (by rfl)

theorem keeps_settleEntry {w : Work} (h : P w.st) (i : Fin 1024) (y : Fin 2) :
    P (w.settleEntry i y).st := by
  unfold Work.settleEntry
  dsimp only
  split
  · split
    · exact inv.keeps_make (inv.of_same h (by rfl) (by rfl)) _
    · exact inv.keeps_of_uplink h (by simp) (by simp)
  · exact h

theorem keeps_takeTag (n : Nat) {s : State} (h : P s) : P (Work.takeTag n s).1 := by
  induction n generalizing s with
  | zero => exact inv.of_same h (by rfl) (by rfl)
  | succ n ih =>
    unfold Work.takeTag
    dsimp only
    split
    · exact ih (inv.of_same h (by rfl) (by rfl))
    · exact inv.of_same h (by rfl) (by rfl)

theorem keeps_fetch {w : Work} (h : P w.st) (i : Fin 16) (key : Text) (target : Target)
    (castout : Option Record) : P (w.fetch i key target castout).st := by
  unfold Work.fetch
  dsimp only
  refine inv.keeps_make ?_ _
  split
  · exact inv.keeps_make (inv.of_same (inv.keeps_takeTag 16 h) (by rfl) (by rfl)) _
  · exact inv.of_same (inv.keeps_takeTag 16 h) (by rfl) (by rfl)

theorem keeps_install {w : Work} (h : P w.st) (r : LinkRef) (key : Text) (y : Fin 2) (slot : Fin 16) :
    P (w.install r key y slot).st := by
  unfold Work.install
  dsimp only
  refine inv.keeps_fetch ?_ _ _ _ _
  exact inv.keeps_updLink (inv.keeps_setAge (inv.keeps_updEntry (keeps_ite (inv.of_same h (by rfl) (by rfl)) h) _ _ _) _ _) _ _

theorem keeps_makeCopy {w : Work} (h : P w.st) (r : LinkRef) (key : Text) (place : Fin 48) (slot : Fin 16) :
    P (w.makeCopy r key place slot).st := by
  unfold Work.makeCopy
  exact inv.keeps_fetch (inv.of_same h (by rfl) (by rfl)) _ _ _ _

theorem keeps_miss {w : Work} (h : P w.st) (r : LinkRef) (key : Text) : P (w.miss r key).1.st := by
  have hcount : P (w.upd fun s => s.countCache fun c => { c with misses := bump c.misses }).st :=
    inv.of_same h (by rfl) (by rfl)
  unfold Work.miss
  dsimp only
  split
  · exact hcount
  · split
    · exact inv.keeps_install hcount _ _ _ _
    · split
      · exact inv.keeps_makeCopy hcount _ _ _ _
      · exact hcount

theorem keeps_lookupOnce {w : Work} (h : P w.st) (r : LinkRef) : P (w.lookupOnce r).1.st := by
  have hit (i : Fin 1024) (y : Fin 2) (f : Entry → Entry) (g : Link → Link) :
      P ((((w.upd fun s => s.countCache fun c => { c with hits := bump c.hits }).st.updEntry i y f).setAge i y).updLink
        r g) := inv.keeps_updLink (inv.keeps_setAge (inv.keeps_updEntry (inv.of_same h (by rfl) (by rfl)) _ _ _) _ _) _ _
  unfold Work.lookupOnce
  split
  · exact h
  · split
    · exact inv.keeps_miss h _ _
    · dsimp only
      split
      · exact hit _ _ _ _
      · split
        · exact inv.of_same h (by rfl) (by rfl)
        · exact hit _ _ _ _

theorem keeps_lookup {w : Work} (h : P w.st) (r : LinkRef) : P (w.lookup r).st := by
  unfold Work.lookup
  dsimp only
  split
  · exact inv.of_same (inv.keeps_lookupOnce h r) (by rfl) (by rfl)
  · exact inv.keeps_lookupOnce h r

theorem keeps_retryOne {w : Work} (h : P w.st) (r : LinkRef) : P (w.retryOne r).st := by
  unfold Work.retryOne
  dsimp only
  split
  · exact inv.keeps_lookupOnce h r
  · exact inv.of_same (inv.keeps_lookupOnce h r) (by rfl) (by rfl)

theorem keeps_checkRecall {w : Work} (h : P w.st) (r : RecallRec) : P (w.checkRecall r).st := by
  unfold Work.checkRecall
  split
  · exact inv.keeps_make (inv.of_same h (by rfl) (by rfl)) _
  · exact h

omit inv in
/-- What each step of a fold over the cache's work keeps, the fold keeps. -/
theorem keeps_works {β : Type} {f : Work → β → Work} (hf : ∀ w x, P w.st → P (f w x).st)
    (l : List β) {w : Work} (h : P w.st) : P (l.foldl f w).st :=
  foldl_preserves (P := fun w : Work => P w.st) hf l h

theorem keeps_finish {w : Work} (h : P w.st) : P w.finish.st := by
  have hrecalls := keeps_works (fun _ r h => inv.keeps_checkRecall h r) w.st.cache.recalls h
  unfold Work.finish
  dsimp only
  split
  · exact keeps_works (fun _ r h => inv.keeps_retryOne h r) _ hrecalls
  · exact hrecalls

theorem keeps_failFetch {w : Work} (h : P w.st) (i : Fin 16) (f : Fetch) (st : LinkState) :
    P (w.failFetch i f st).st := by
  unfold Work.failFetch
  dsimp only
  split
  · split
    · exact inv.keeps_of_uplink h (by simp) (by simp)
    · exact inv.keeps_of_uplink h (by simp) (by simp)
  · exact inv.keeps_of_uplink h (by simp) (by simp)

theorem keeps_fill {w : Work} (h : P w.st) (i : Fin 16) (f : Fetch) (r : Record) :
    P (w.fill i f r).st := by
  unfold Work.fill
  dsimp only
  split
  · split
    · have hfetch (w : Work) (hw : P w.st) (k : Text) : P ((w.fetch i f.key f.target none).entryPartDone k).st :=
        inv.keeps_of_uplink (inv.keeps_fetch hw i f.key f.target none) (by simp) (by simp)
      exact hfetch _ (inv.of_same h (by rfl) (by rfl)) _
    · exact inv.keeps_of_uplink h (by simp) (by simp)
  · exact inv.keeps_of_uplink h (by simp) (by simp)

theorem keeps_bookingData {w : Work} (h : P w.st) (tag : BitVec 16) (bytes : List Byte) :
    P (w.bookingData tag bytes).st := by
  unfold Work.bookingData
  split
  · exact inv.of_same h (by rfl) (by rfl)
  · split
    · exact inv.keeps_finish (inv.keeps_fill h _ _ _)
    · exact inv.of_same h (by rfl) (by rfl)

theorem keeps_bookingNone {w : Work} (h : P w.st) (tag : BitVec 16) (key : Text) :
    P (w.bookingNone tag key).st := by
  unfold Work.bookingNone
  split
  · exact inv.of_same h (by rfl) (by rfl)
  · split
    · exact inv.keeps_finish (inv.keeps_failFetch (inv.of_same h (by rfl) (by rfl)) _ _ _)
    · exact inv.of_same h (by rfl) (by rfl)

theorem keeps_fetchTimeout {w : Work} (h : P w.st) (i : Fin 16) : P (w.fetchTimeout i).st := by
  unfold Work.fetchTimeout
  split
  · split
    · exact inv.keeps_finish (inv.keeps_failFetch (inv.of_same h (by rfl) (by rfl)) _ _ _)
    · exact h
  · exact h

theorem keeps_cancelCopy {w : Work} (h : P w.st) (p : Fin 48) : P (w.cancelCopy p).st := by
  unfold Work.cancelCopy
  dsimp only
  split
  · exact inv.of_same (inv.keeps_withdraw h _) (by rfl) (by rfl)
  · exact inv.of_same h (by rfl) (by rfl)

theorem keeps_unpin {w : Work} (h : P w.st) (i : Fin 1024) (y : Fin 2) (unit : Bool) :
    P (w.unpin i y unit).st := inv.keeps_settleEntry (inv.of_same h (by rfl) (by rfl)) _ _

theorem keeps_abortLink {w : Work} (h : P w.st) (r : LinkRef) : P (w.abortLink r).st := by
  unfold Work.abortLink
  split
  · exact h
  · dsimp only
    split
    · exact inv.of_same h (by rfl) (by rfl)
    · exact inv.keeps_unpin (inv.of_same h (by rfl) (by rfl)) _ _ _
    · exact inv.keeps_cancelCopy (inv.of_same h (by rfl) (by rfl)) _

theorem keeps_commitDrop {w : Work} (h : P w.st) (r : LinkRef) : P (w.commitDrop r).st := by
  unfold Work.commitDrop
  split
  · exact h
  · dsimp only
    split
    · exact inv.of_same h (by rfl) (by rfl)
    · exact inv.keeps_unpin (inv.of_same h (by rfl) (by rfl)) _ _ _
    · split <;> exact inv.of_same h (by rfl) (by rfl)

theorem keeps_returnCommit {w : Work} (h : P w.st) (t : Target) (through changed : Bool) :
    P (w.returnCommit t through changed).st := by
  cases t with
  | copy p => exact inv.keeps_make (inv.of_same h (by rfl) (by rfl)) _
  | way i y =>
    unfold Work.returnCommit Work.returnEntry
    dsimp only
    repeat' split
    · exact inv.keeps_make (inv.of_same h (by rfl) (by rfl)) _
    · exact h
    · exact inv.of_same h (by rfl) (by rfl)
    · exact h

theorem keeps_commitLink {w : Work} (h : P w.st) (through : Bool) (r : LinkRef) :
    P (Work.commitLink through w r).st := by
  unfold Work.commitLink
  split
  · exact h
  · split
    · split
      · exact inv.keeps_of_uplink h (by simp) (by simp)
      · exact inv.keeps_returnCommit (inv.keeps_of_uplink h (by simp) (by simp)) _ _ _
    · exact h

theorem keeps_cacheCommit {w : Work} (h : P w.st) (id : CtxId) : P (w.commit id).st := by
  unfold Work.commit
  dsimp only
  refine keeps_works (fun _ r h => inv.keeps_commitDrop h r) _ ?_
  split
  · exact keeps_works (fun _ r h => inv.keeps_commitLink h _ r) _ h
  · exact h

theorem keeps_cacheAbort {w : Work} (h : P w.st) (id : CtxId) : P (w.abort id).st :=
  keeps_works (fun _ r h => inv.keeps_abortLink h r) _ h

theorem keeps_recallCopy {w : Work} (h : P w.st) (key : Text) (p : Fin 48) :
    P (w.recallCopy key p).st := by
  unfold Work.recallCopy
  split
  · exact h
  · split
    · exact h
    · repeat' split
      · exact h
      · exact inv.keeps_cancelCopy (inv.of_same h (by rfl) (by rfl)) _
      · exact inv.of_same h (by rfl) (by rfl)

theorem keeps_recallEntry {w : Work} (h : P w.st) (key : Text) (y : Fin 2) :
    P (w.recallEntry key y).st := by
  unfold Work.recallEntry
  dsimp only
  split
  · split
    · exact inv.of_same h (by rfl) (by rfl)
    · exact inv.keeps_of_uplink h (by simp) (by simp)
  · refine inv.keeps_settleEntry ?_ _ _
    dsimp only [Work.upd]
    refine inv.keeps_updEntry ?_ _ _ _
    exact foldl_preserves (P := P) (fun _ _ hs => inv.of_same hs (by rfl) (by rfl)) _ h

theorem keeps_takeRecall {w : Work} (h : P w.st) (key : Text) : P (w.takeRecall key).st := by
  unfold Work.takeRecall
  dsimp only
  refine keeps_works (fun _ r h => inv.keeps_lookup h r) _ (inv.keeps_finish ?_)
  refine keeps_works (fun _ p h => inv.keeps_recallCopy h key p) _ ?_
  split
  · exact inv.keeps_recallEntry (inv.of_same h (by rfl) (by rfl)) _ _
  · exact inv.of_same h (by rfl) (by rfl)

theorem keeps_flushEntry {w : Work} (h : P w.st) (i : Fin 1024) (y : Fin 2) :
    P (w.flushEntry i y).st := by
  unfold Work.flushEntry
  dsimp only
  split
  · exact inv.keeps_make (inv.of_same h (by rfl) (by rfl)) _
  · exact h

theorem keeps_flush {w : Work} (h : P w.st) : P w.flush.st :=
  inv.keeps_finish (inv.keeps_make
    (keeps_works (fun _ _ h => inv.keeps_flushEntry (inv.keeps_flushEntry h _ _) _ _) _ h) _)

/-- R181: the cache's turn fills the place that a report sent has freed. -/
theorem keeps_turn {w : Work} (h : P w.st) (hroom : w.st.uplink.queue.length < 64) :
    P w.turn.st := by
  unfold Work.turn
  split
  next => exact h
  next o rest _ =>
    have haccepted := inv.keeps_acceptOwed (w := w.upd fun s => s.updCache fun c => { c with sendOrder := rest })
      (inv.of_same h (by rfl) (by rfl)) hroom o
    refine inv.keeps_finish ?_
    dsimp only [Work.upd] at haccepted ⊢
    split
    · exact haccepted
    · exact inv.keeps_wait haccepted _

end PortInvariant

end Sys2Proof.Proofs
end

section
/-! PROOFS. The decision step, the sequencer, rulings, reads and lane commands keep a `PortInvariant`. -/
namespace Sys2Proof.Proofs

open Sys2Proof Sys2Proof.Machine Sys2Proof.Safety Sys2Proof.Laws

namespace PortInvariant

variable {P : State → Prop} (inv : PortInvariant P)
include inv

/-! ### The decision step -/

theorem keeps_displace {s : State} (h : P s) (e : TransitEntry) : P (s.displace e) := by
  unfold State.displace
  have hremoved : P (s.removeTransit e) := inv.of_same h (by rfl) (by rfl)
  exact inv.of_same (inv.keeps_offerB hremoved (.transitDisplaced e)) (by rfl) (by rfl)

theorem keeps_takeToken {s : State} (h : P s) (id : CtxId) (d : Fin 64) : P (s.takeToken id d) := by
  have hown : P (match s.transitOf (s.ctx id).visit with | some e => s.displace e | none => s) := by
    split
    · exact inv.keeps_displace h _
    · exact h
  have hfull {t : State} (ht : P t) : P (match t.dest.transit with | e :: _ => t.displace e | [] => t) := by
    split
    · exact inv.keeps_displace ht _
    · exact ht
  have hrecorded {t : State} (ht : P t) (e : TransitEntry) (f : Dest → Dest) (g : Ctx → Ctx) :
      P (((t.updDest fun u => { u with transit := u.transit ++ [e] }).updDestAt d f).updCtx id g) := inv.of_same ht (by rfl) (by rfl)
  unfold State.takeToken
  exact hrecorded (keeps_ite (hfull hown) hown) _ _ _

theorem keeps_sendTo {s : State} (h : P s) (id : CtxId) (d : Fin 64) : P (s.sendTo id d) := by
  unfold State.sendTo
  exact inv.keeps_takeToken (inv.of_same h (by rfl) (by rfl)) id d

theorem keeps_turnOutRoute {s : State} (h : P s) (id : CtxId) : P (s.turnOutRoute id) := by
  unfold State.turnOutRoute
  split
  · exact inv.keeps_sendTo h _ _
  · exact inv.of_same h (by rfl) (by rfl)

theorem keeps_takeUnits {s : State} (h : P s) (id : CtxId) : P (s.takeUnits id) :=
  inv.keeps_of_uplink h (by simp) (by simp)

theorem keeps_takeOffer {s : State} (h : P s) (id : CtxId) (offer : Option (BitVec 16 × Nat)) :
    P (s.takeOffer id offer) :=
  inv.keeps_of_uplink h (by simp) (by simp)

theorem keeps_decideProvisional {s : State} (h : P s) (id : CtxId) : P (s.decideProvisional id) := by
  unfold State.decideProvisional
  exact inv.keeps_takeUnits (inv.keeps_sendTo (inv.of_same h (by rfl) (by rfl)) _ _) _

theorem keeps_decideByTable {s : State} (h : P s) (id : CtxId) (offer : Option (BitVec 16 × Nat)) :
    P (s.decideByTable id offer) := by
  unfold State.decideByTable
  dsimp only
  split
  · exact inv.keeps_turnOutRoute (inv.of_same h (by rfl) (by rfl)) _
  · exact inv.keeps_takeOffer (inv.keeps_takeUnits (inv.of_same h (by rfl) (by rfl)) _) _ _
  all_goals
    split
    · exact inv.keeps_takeOffer (inv.keeps_takeUnits (inv.keeps_sendTo (inv.of_same h (by rfl) (by rfl)) _ _) _) _ _
    · exact inv.keeps_takeOffer (inv.keeps_takeUnits (inv.of_same h (by rfl) (by rfl)) _) _ _

theorem keeps_updCtx {s : State} (h : P s) (id : CtxId) (f : Ctx → Ctx) : P (s.updCtx id f) :=
  inv.of_same h (by rfl) (by rfl)

theorem keeps_decisionStep {s : State} (h : P s) (id : CtxId) : P (s.decisionStep id) := by
  have hclass (p q : Bool) :
      P ((((s.updCtx id (Ctx.finalise s.params)).runChecks id p).classifyStep id q).1) :=
    inv.keeps_of_uplink h (by simp) (by simp)
  unfold State.decisionStep
  refine inv.keeps_updCtx ?_ _ _
  exact keeps_ite (inv.keeps_decideProvisional (hclass _ _) id) (inv.keeps_decideByTable (hclass _ _) id _)

/-! ### The sequencer -/

theorem keeps_moveTo {s : State} (h : P s) (id : CtxId) (st : CtxState) : P (s.moveTo id st) := by
  unfold State.moveTo
  dsimp only
  split
  · exact inv.keeps_compose (inv.keeps_updCtx h _ _) _
  · exact inv.keeps_updCtx h _ _

theorem keeps_releaseTest {s : State} (h : P s) (id : CtxId) : P (s.releaseTest id) := by
  unfold State.releaseTest
  split
  · exact inv.keeps_moveTo h _ _
  · exact h

theorem keeps_enterDecided {s : State} (h : P s) (id : CtxId) : P (s.enterDecided id) := by
  unfold State.enterDecided
  dsimp only
  refine inv.keeps_releaseTest ?_ _
  split
  · exact inv.keeps_issueTicket (inv.keeps_moveTo h _ _) _
  · exact inv.keeps_moveTo h _ _

theorem keeps_noticeAccepted {s : State} (h : P s) (hroom : s.uplink.queue.length < 64) (id : CtxId) :
    P (s.noticeAccepted id) := by
  unfold State.noticeAccepted
  exact inv.keeps_updCtx (inv.keeps_accept h hroom _) _ _

theorem keeps_enterReferred {s : State} (h : P s) (id : CtxId) : P (s.enterReferred id) := by
  have hmoved := inv.keeps_moveTo h id .referred
  unfold State.enterReferred
  dsimp only
  split
  next hroom => exact inv.keeps_noticeAccepted hmoved (room_of_roomA hroom) _
  next => exact inv.keeps_wait (inv.keeps_updCtx hmoved _ _) _

theorem keeps_decideTest {s : State} (h : P s) (id : CtxId) : P (s.decideTest id) := by
  unfold State.decideTest
  dsimp only
  split
  · split
    · exact inv.keeps_enterReferred (inv.keeps_decisionStep h _) _
    · exact inv.keeps_enterDecided (inv.keeps_decisionStep h _) _
  · exact h

theorem keeps_settle {w : Work} (h : P w.st) : P (State.settle w) := by
  unfold State.settle
  exact foldl_preserves (P := P) (fun _ id hs => inv.keeps_decideTest hs id) _ h

theorem keeps_enterLookup {s : State} (h : P s) (id : CtxId) : P (s.enterLookup id) := by
  unfold State.enterLookup
  refine inv.keeps_decideTest (inv.keeps_settle (inv.keeps_finish ?_)) _
  exact keeps_works (fun _ r h => inv.keeps_lookup h r) _ (inv.keeps_moveTo (inv.keeps_updCtx h _ _) _ _)

theorem keeps_identifyTest {s : State} (h : P s) (id : CtxId) : P (s.identifyTest id) := by
  unfold State.identifyTest
  split
  · exact inv.keeps_enterLookup h _
  · exact h

theorem keeps_enterIdentifying {s : State} (h : P s) (id : CtxId) : P (s.enterIdentifying id) := by
  unfold State.enterIdentifying
  exact inv.keeps_identifyTest (inv.keeps_moveTo (inv.of_same h (by rfl) (by rfl)) _ _) _

theorem keeps_retime {s : State} (h : P s) (l : LaneId) : P (s.retime l) :=
  inv.keeps_of_uplink h (by simp) (by simp)

theorem keeps_admitArrival {s : State} (h : P s) (id : CtxId) (l : LaneId) (direct : Bool) :
    P (s.admitArrival id l direct) := by
  have hallocated : P (s.allocate id l) := inv.of_same h (by rfl) (by rfl)
  unfold State.admitArrival
  dsimp only
  refine inv.keeps_retime ?_ _
  split
  · exact inv.keeps_enterIdentifying hallocated _
  · exact hallocated

theorem keeps_grant {s : State} (h : P s) (id : CtxId) : P (s.grant id) := by
  unfold State.grant
  split
  · exact h
  · exact inv.keeps_admitArrival (inv.of_same h (by rfl) (by rfl)) _ _ _

theorem keeps_freeCtx {s : State} (h : P s) (id : CtxId) : P (s.freeCtx id) := by
  have hleft (f : LaneState → LaneState) : P ((s.updCtx id fun _ => {}).updLane (s.ctx id).lane f) :=
    inv.of_same h (by rfl) (by rfl)
  have hshown {t : State} (ht : P t) (b : Bool) (l : LaneId) :
      P ((if b = true then t.compose l else t).retime l) := inv.keeps_retime (keeps_ite (inv.keeps_compose ht l) ht) l
  unfold State.freeCtx
  exact inv.keeps_grant (keeps_ite (inv.keeps_changeMode (hshown (hleft _) _ _) _ _ _ _) (hshown (hleft _) _ _)) _

theorem keeps_reportAccepted {s : State} (h : P s) (hroom : s.uplink.queue.length < 64) (id : CtxId) :
    P (s.reportAccepted id) := by
  unfold State.reportAccepted
  exact inv.keeps_freeCtx (inv.keeps_accept h hroom _) _

theorem keeps_offerReport {s : State} (h : P s) (id : CtxId) : P (s.offerReport id) := by
  unfold State.offerReport
  split
  next hroom => exact inv.keeps_reportAccepted h (room_of_roomA hroom) _
  next => exact inv.keeps_wait h _

theorem keeps_arrive {s : State} (h : P s) (l : LaneId) (direct : Bool) : P (s.arrive l direct) := by
  have hcounted : P (s.countArrival l) := inv.keeps_of_uplink h (by simp) (by simp)
  unfold State.arrive
  split
  · split
    · exact inv.keeps_admitArrival h _ _ _
    · exact hcounted
  · exact hcounted

theorem keeps_entryOn {s : State} (h : P s) (l : LaneId) : P (s.entryOn l) := by
  unfold State.entryOn
  split
  · exact inv.keeps_arrive h _ _
  · exact inv.of_same h (by rfl) (by rfl)

theorem keeps_positionOn {s : State} (h : P s) (l : LaneId) : P (s.positionOn l) := by
  have hretimed := inv.keeps_retime h l
  unfold State.positionOn
  dsimp only
  split
  · exact hretimed
  · split
    · exact inv.keeps_enterIdentifying hretimed _
    · split
      · exact inv.keeps_arrive hretimed _ _
      · exact inv.of_same hretimed (by rfl) (by rfl)

theorem keeps_barrierDownOn {s : State} (h : P s) (l : LaneId) : P (s.barrierDownOn l) := by
  unfold State.barrierDownOn
  split
  · exact inv.keeps_releaseTest h _
  · exact h

theorem keeps_advance {s : State} (h : P s) (l : LaneId) : P (s.advance l) := by
  unfold State.advance
  split
  · split
    · exact inv.keeps_enterIdentifying h _
    · exact h
  · exact h

theorem keeps_commit {s : State} (h : P s) (id : CtxId) : P (s.commit id) := by
  have hshared : P (((s.updCtx id fun c => { c with exit := some s.now }).commitSlot id).commitTransit id) :=
    inv.keeps_of_uplink h (by simp) (by simp)
  unfold State.commit
  dsimp only
  refine inv.keeps_offerReport (inv.keeps_advance (inv.keeps_moveTo (inv.keeps_updCtx ?_ _ _) _ _) _) _
  exact inv.keeps_settle (inv.keeps_finish (inv.keeps_cacheCommit (w := { st := _ }) hshared _))

theorem keeps_releaseEdge {s : State} (h : P s) (l : LaneId) : P (s.releaseEdge l) := by
  unfold State.releaseEdge
  split
  · split
    · exact inv.keeps_commit h _
    · exact h
  · exact h

theorem keeps_endCtx {s : State} (h : P s) (outcome : Outcome) (id : CtxId) : P (State.endCtx outcome s id) := by
  unfold State.endCtx
  exact inv.keeps_unwait (inv.keeps_updCtx h _ _) _

theorem keeps_abortAll {s : State} (h : P s) (l : LaneId) (ids : List CtxId) (outcome : Outcome) :
    P (s.abortAll l ids outcome) := by
  have hshared : P (ids.foldl State.abortShared s) :=
    foldl_preserves (P := P) (fun _ _ hs => inv.keeps_of_uplink hs (by simp) (by simp)) _ h
  have hcache := keeps_works (fun _ id h => inv.keeps_cacheAbort h id) ids (w := { st := _ }) hshared
  unfold State.abortAll
  dsimp only
  refine foldl_preserves (P := P) (fun _ id hs => inv.keeps_offerReport hs id) _ (inv.keeps_settle (inv.keeps_finish ?_))
  have hended := foldl_preserves (P := P) (fun _ id hs => inv.keeps_endCtx hs outcome id) ids hcache
  dsimp only [Work.upd]
  split
  · exact inv.keeps_compose hended _
  · exact hended

/-! ### Rulings, arrivals and reads -/

theorem keeps_leaveReferred {s : State} (h : P s) (id : CtxId) : P (s.leaveReferred id) := by
  unfold State.leaveReferred
  exact inv.keeps_enterDecided (inv.keeps_updCtx (inv.keeps_unwait h _) _ _) _

theorem keeps_ruleIn {s : State} (h : P s) (id : CtxId) (d : Decision) (dest : Fin 64) :
    P (s.ruleIn id d dest) := by
  unfold State.ruleIn
  exact inv.keeps_leaveReferred (inv.keeps_takeUnits (inv.keeps_sendTo (inv.keeps_updCtx h _ _) _ _) _) _

theorem keeps_turnOut {s : State} (h : P s) (id : CtxId) (override : Option (Fin 64)) :
    P (s.turnOut id override) := by
  have hreleased (f : Ctx → Ctx) : P (((s.updCtx id f).releaseSlot id).releaseUnits id) :=
    inv.keeps_of_uplink h (by simp) (by simp)
  unfold State.turnOut
  refine inv.keeps_leaveReferred ?_ _
  split
  · exact inv.keeps_sendTo (hreleased _) _ _
  · exact inv.keeps_turnOutRoute (hreleased _) _

theorem keeps_rule {s : State} (h : P s) (id : CtxId) (d : Decision) (override : Option (Fin 64)) :
    P (s.rule id d override).2 := by
  have happlied : P s.rulingApplied := inv.of_same h (by rfl) (by rfl)
  unfold State.rule
  split
  · dsimp only
    exact inv.keeps_turnOut happlied _ _
  · dsimp only
    exact inv.keeps_turnOut happlied _ _
  all_goals
    split <;> dsimp only
    · exact inv.keeps_ruleIn happlied _ _ _
    · exact inv.keeps_ruleIn happlied _ _ _
    · exact inv.of_same h (by rfl) (by rfl)

theorem keeps_rulingAnswer {s : State} (h : P s) (visit : BitVec 16) (ruling dest : Byte) :
    P (rulingAnswer visit ruling dest s).2 := by
  unfold rulingAnswer
  split
  · split
    · exact h
    · split
      · exact inv.keeps_rule h _ _ _
      · exact inv.of_same h (by rfl) (by rfl)
  · exact h

theorem keeps_arrivedAnswer {s : State} (h : P s) (visit : BitVec 16) : P (arrivedAnswer visit s).2 := by
  unfold arrivedAnswer
  split
  · exact inv.keeps_of_uplink h (by simp) (by simp)
  · exact inv.of_same h (by rfl) (by rfl)

/-- R48 to R51: a read changes no queue but by an orphan's report and by the completion of its context. -/
theorem keeps_takeAttached {s : State} (h : P s) (seg : Seg) (addr : Addr) (e : Station) (m : LaneMsg)
    {f : State → CtxId → State} (hf : ∀ s id, P s → P (f s id)) : P (s.takeAttached seg addr e m f) := by
  unfold State.takeAttached
  split
  · exact inv.keeps_identifyTest (hf _ _ h) _
  · unfold State.orphan
    dsimp only
    split
    · exact inv.keeps_offerB (inv.of_same h (by rfl) (by rfl)) _
    · exact inv.of_same h (by rfl) (by rfl)

theorem keeps_recallAnswer {s : State} (h : P s) (key : Text) : P (recallAnswer key s).2 := by
  have htaken := inv.keeps_settle (inv.keeps_takeRecall (w := { st := s }) h key)
  unfold recallAnswer
  repeat' split
  · exact h
  · exact h
  · exact inv.of_same h (by rfl) (by rfl)
  · exact htaken

theorem keeps_flushAnswer {s : State} (h : P s) : P (flushAnswer s).2 := by
  unfold flushAnswer
  split
  · exact h
  · dsimp only
    exact inv.keeps_settle (inv.keeps_flush (w := { st := s }) h)

/-! ### Lane inputs and lane commands -/

theorem keeps_updLane {s : State} (h : P s) (l : LaneId) (f : LaneState → LaneState) : P (s.updLane l f) :=
  inv.of_same h (by rfl) (by rfl)

theorem keeps_examinePass {s : State} (h : P s) (l : LaneId) : P (s.examinePass l) := by
  unfold State.examinePass
  split
  · exact h
  · split
    · exact inv.of_same h (by rfl) (by rfl)
    · exact inv.keeps_offerB (inv.of_same h (by rfl) (by rfl)) _

theorem keeps_deliver {s : State} (h : P s) (l : LaneId) (inp : Input) (on : Bool) :
    P (s.deliver l inp on) := by
  unfold State.deliver
  split
  · exact inv.keeps_entryOn h _
  · exact h
  · exact inv.keeps_positionOn h _
  · exact inv.keeps_retime h _
  · dsimp only
    split
    · exact inv.keeps_releaseEdge (inv.keeps_examinePass h _) _
    · exact inv.keeps_examinePass h _
  · split
    · exact h
    · exact inv.keeps_releaseEdge h _
  · exact inv.keeps_barrierDownOn h _
  · exact h

theorem keeps_takeLevel {s : State} (h : P s) (l : LaneId) (inp : Input) : P (s.takeLevel l inp) := by
  unfold State.takeLevel
  exact inv.keeps_deliver (inv.of_same h (by rfl) (by rfl)) _ _ _

theorem keeps_filterChange {s : State} (h : P s) (l : LaneId) (inp : Input) : P (s.filterChange l inp) := by
  unfold State.filterChange
  dsimp only
  split
  · exact inv.of_same h (by rfl) (by rfl)
  · split
    · exact inv.keeps_takeLevel h _ _
    · exact inv.of_same h (by rfl) (by rfl)

theorem keeps_rearm {s : State} (h : P s) (l : LaneId) (inp : Input) : P (s.rearm l inp) := by
  unfold State.rearm
  exact inv.keeps_retime (inv.of_same h (by rfl) (by rfl)) _

theorem keeps_openAnswer {s : State} (h : P s) (lane : Byte) : P (openAnswer lane s).2 := by
  unfold openAnswer
  split
  · exact h
  · split
    · exact h
    · exact h
    all_goals
      dsimp only
      exact inv.keeps_changeMode h _ _ _ _

theorem keeps_closeAnswer {s : State} (h : P s) (lane : Byte) : P (closeAnswer lane s).2 := by
  unfold closeAnswer
  split
  · exact h
  · split
    · exact h
    · dsimp only
      exact inv.keeps_changeMode h _ _ _ _
    · dsimp only
      exact inv.keeps_changeMode h _ _ _ _
    · exact h
    · exact h

theorem keeps_laneResetAnswer {s : State} (h : P s) (lane : Byte) : P (laneResetAnswer lane s).2 := by
  unfold laneResetAnswer
  split
  · exact h
  · exact inv.keeps_abortAll (inv.of_same h (by rfl) (by rfl)) _ _ _

theorem keeps_outputSetAnswer {s : State} (h : P s) (lane output source value : Byte) :
    P (outputSetAnswer lane output source value s).2 := by
  unfold outputSetAnswer
  split
  · exact h
  · split
    · exact inv.keeps_updLane h _ _
    · exact h

end PortInvariant

end Sys2Proof.Proofs
end

section
/-! PROOFS. The station map and the consumers of lane frames keep a `PortInvariant`. -/
namespace Sys2Proof.Proofs

open Sys2Proof Sys2Proof.Machine Sys2Proof.Safety Sys2Proof.Laws

namespace PortInvariant

variable {P : State → Prop} (inv : PortInvariant P)
include inv

theorem keeps_heard {s : State} (h : P s) (seg : Seg) (ix : StationIx) : P (s.heard seg ix) := by
  unfold State.heard
  dsimp only
  split
  · exact h
  · split
    · exact inv.keeps_stationEvent (inv.keeps_updStation h _ _) _ _ _ _
    · exact inv.keeps_updStation h _ _

theorem keeps_passFrame {s : State} (h : P s) (t : Taken) : P (s.passFrame t) := inv.keeps_offerB h _

theorem keeps_helloMismatch {s : State} (h : P s) (t : Taken) (identity : BitVec 32) :
    P (s.helloMismatch t identity) := by
  have hrefused : P (s.refuseIdentity t.ix) := inv.keeps_updStation h _ _
  unfold State.helloMismatch
  dsimp only
  split
  · exact hrefused
  · exact inv.keeps_stationEvent (inv.keeps_updStation hrefused _ _) _ _ _ _

/-- R11 to R18: the station map's decisions keep what the two counters of a port that they raise and the consumption of the
frame keep. -/
theorem keeps_mapFrame {s : State} (h : P s) (t : Taken) {consume : State → Taken → State}
    (hdropped : ∀ s, P s → P (s.countPort t.seg fun k => { k with unmappedDropped := bump k.unmappedDropped }))
    (hrefused : ∀ s, P s → P (s.countPort t.seg fun k => { k with roleRefusals := bump k.roleRefusals }))
    (hc : ∀ s t, P s → P (consume s t)) : P (s.mapFrame t consume) := by
  unfold State.mapFrame
  split
  · split
    · exact inv.keeps_passFrame h _
    · exact hdropped s h
  · split
    · split
      · exact inv.keeps_helloMismatch h _ _
      · exact inv.keeps_updStation h _ _
    · unfold State.takeAllowed
      dsimp only
      split
      · split
        · exact inv.keeps_passFrame h _
        · exact hc _ _ (keeps_ite (inv.keeps_passFrame h _) h)
      · exact keeps_ite (inv.keeps_passFrame (hrefused s h) _) (hrefused s h)

theorem keeps_helloTaken {s : State} (h : P s) (t : Taken) : P (s.helloTaken t) := by
  have hevent (f : Station → Station) (cause : StationCause) (identity : Option (BitVec 32)) :=
    inv.keeps_stationEvent (inv.keeps_updStation h t.ix f) t.ix cause identity none
  unfold State.helloTaken
  split
  · split
    · exact keeps_ite h (hevent _ _ _)
    · exact keeps_ite (hevent _ _ _) h
    · exact h
  · exact h

theorem keeps_consoleTake {s : State} (h : P s) (t : Taken) : P (s.consoleTake t) := by
  have hlatched : P (s.latchOutputs t.entry.lane) := inv.of_same h (by rfl) (by rfl)
  unfold State.consoleTake
  dsimp only
  split
  · exact keeps_ite h (inv.of_same h (by rfl) (by rfl))
  · exact inv.keeps_abortAll (inv.keeps_changeMode hlatched _ _ _ _) _ _ _

theorem keeps_consoleRelease {s : State} (h : P s) (t : Taken) : P (s.consoleRelease t) := by
  unfold State.consoleRelease
  exact keeps_ite (inv.keeps_changeMode h _ _ _ _) (inv.of_same h (by rfl) (by rfl))

theorem keeps_consoleOutput {s : State} (h : P s) (t : Taken) : P (s.consoleOutput t) := by
  unfold State.consoleOutput
  dsimp only
  split
  · exact keeps_ite (inv.keeps_updLane h _ _) (inv.of_same h (by rfl) (by rfl))
  · exact h

/-! A read consumed scores, marks or keeps what it carries in its context and in the counters alone (R48 to R51). -/

theorem keeps_plateTaken {s : State} (h : P s) (t : Taken) : P (s.plateTaken t) := by
  unfold State.plateTaken
  split
  · exact inv.keeps_takeAttached h _ _ _ _ fun _ _ hs => inv.of_same hs (by rfl) (by rfl)
  · exact h

theorem keeps_tagTaken {s : State} (h : P s) (t : Taken) : P (s.tagTaken t) := by
  unfold State.tagTaken
  split
  · exact inv.keeps_takeAttached h _ _ _ _ fun _ _ hs => inv.of_same hs (by rfl) (by rfl)
  · exact h

theorem keeps_unitTaken {s : State} (h : P s) (t : Taken) : P (s.unitTaken t) := by
  have hunit (pos : Position) (code size : Text) (k : Nat) (s : State) (id : CtxId) (hs : P s) :
      P (State.scoreUnit t.seg t.entry pos code size k s id) := by
    unfold State.scoreUnit
    exact keeps_ite (inv.keeps_updCtx hs _ _) (inv.of_same hs (by rfl) (by rfl))
  unfold State.unitTaken
  split
  · exact inv.keeps_takeAttached h _ _ _ _ (hunit _ _ _ _)
  · exact h

theorem keeps_sealTaken {s : State} (h : P s) (t : Taken) : P (s.sealTaken t) := by
  unfold State.sealTaken
  split
  · exact inv.keeps_takeAttached h _ _ _ _ fun _ _ hs => inv.of_same hs (by rfl) (by rfl)
  · exact h

theorem keeps_damageTaken {s : State} (h : P s) (t : Taken) : P (s.damageTaken t) := by
  have hdamage (pos : Position) (ms : List RawMark) (s : State) (id : CtxId) (hs : P s) :
      P (State.damageRead pos ms s id) := by
    unfold State.damageRead
    exact keeps_ite (inv.keeps_of_uplink hs (by simp) (by simp)) (inv.of_same hs (by rfl) (by rfl))
  unfold State.damageTaken
  split
  · exact inv.keeps_takeAttached h _ _ _ _ (hdamage _ _)
  · exact h

theorem keeps_scanTaken {s : State} (h : P s) (t : Taken) : P (s.scanTaken t) := by
  unfold State.scanTaken
  split
  · exact inv.keeps_takeAttached h _ _ _ _ fun _ _ hs => inv.of_same hs (by rfl) (by rfl)
  · exact h

theorem keeps_kioskTaken {s : State} (h : P s) (t : Taken) : P (s.kioskTaken t) := by
  have hkiosk (reference : Text) (s : State) (id : CtxId) (hs : P s) : P (State.kioskRead reference s id) := by
    unfold State.kioskRead
    exact keeps_ite (inv.keeps_updCtx hs _ _) (inv.of_same hs (by rfl) (by rfl))
  unfold State.kioskTaken
  split
  · exact inv.keeps_takeAttached h _ _ _ _ (hkiosk _)
  · exact h

theorem keeps_signAckTaken {s : State} (h : P s) (t : Taken) : P (s.signAckTaken t) := by
  unfold State.signAckTaken
  split
  · exact inv.keeps_signAck h _ _
  · exact h

theorem keeps_ticketAckTaken {s : State} (h : P s) (t : Taken) : P (s.ticketAckTaken t) := by
  unfold State.ticketAckTaken
  split
  · exact inv.keeps_of_uplink h (by simp) (by simp)
  · exact h

end PortInvariant

/-- R13 to R17: what consumes a lane frame of a kind. -/
def consumer : LaneKind → State → Taken → State
  | .readPlate => State.plateTaken
  | .readTag => State.tagTaken
  | .readUnit => State.unitTaken
  | .readSeal => State.sealTaken
  | .damageMarks => State.damageTaken
  | .scanEnd => State.scanTaken
  | .kioskEntry => State.kioskTaken
  | .hello => State.helloTaken
  | .status => fun s _ => s
  | .signAck => State.signAckTaken
  | .ticketAck => State.ticketAckTaken
  | .consoleTake => State.consoleTake
  | .consoleRelease => State.consoleRelease
  | .consoleOutput => State.consoleOutput

theorem PortInvariant.keeps_consumer {P : State → Prop} (inv : PortInvariant P) (k : LaneKind) {s : State} (h : P s)
    (t : Taken) : P (consumer k s t) := by
  cases k with
  | readPlate => exact inv.keeps_plateTaken h t
  | readTag => exact inv.keeps_tagTaken h t
  | readUnit => exact inv.keeps_unitTaken h t
  | readSeal => exact inv.keeps_sealTaken h t
  | damageMarks => exact inv.keeps_damageTaken h t
  | scanEnd => exact inv.keeps_scanTaken h t
  | kioskEntry => exact inv.keeps_kioskTaken h t
  | hello => exact inv.keeps_helloTaken h t
  | status => exact h
  | signAck => exact inv.keeps_signAckTaken h t
  | ticketAck => exact inv.keeps_ticketAckTaken h t
  | consoleTake => exact inv.keeps_consoleTake h t
  | consoleRelease => exact inv.keeps_consoleRelease h t
  | consoleOutput => exact inv.keeps_consoleOutput h t

/-- R2: the command of a kind takes the frame at the head of a receive queue for the consumer of that kind. -/
theorem exec_frameCommand (k : LaneKind) (seg : Seg) (s : State) :
    exec (frameCommand k seg) s = whenRunning s fun s => s.takeFrame seg k (consumer k) := by
  cases k <;> rfl

end Sys2Proof.Proofs
end

section
/-! PROOFS. R2, R7, R180: every operation of the part keeps the receive queues, the transmit queues and the report queue within
their sizes. The operations of a `PortInvariant` keep them because each tests for room (`roomA`, `classBLimit`, `handOff`); the
others empty a queue, test its length, or leave it. -/
namespace Sys2Proof.Proofs

open Sys2Proof Sys2Proof.Machine Sys2Proof.Safety Sys2Proof.Laws

/-- R2, R7, R180: `QueuesBounded` as a structure, so that no proof about an operation opens it. -/
structure Bounded (s : State) : Prop where
  rx : ∀ seg : Seg, (s.port seg).rxQueue.length ≤ 16
  tx : ∀ seg : Seg, (s.port seg).txQueue.length ≤ 32
  queue : s.uplink.queue.length ≤ 64

theorem bounded_iff (s : State) : Bounded s ↔ QueuesBounded s :=
  ⟨fun h => ⟨fun seg => ⟨h.rx seg, h.tx seg⟩, h.queue⟩, fun h => ⟨fun seg => (h.1 seg).1, fun seg => (h.1 seg).2, h.2⟩⟩

theorem bounded_of_same {s t : State} (h : Bounded s) (hp : t.ports = s.ports)
    (hq : t.uplink.queue = s.uplink.queue) : Bounded t := by
  have hport (seg : Seg) : t.port seg = s.port seg := by unfold State.port; rw [hp]
  exact ⟨fun seg => hport seg ▸ h.rx seg, fun seg => hport seg ▸ h.tx seg, hq ▸ h.queue⟩

theorem bounded_of_queue {s t : State} (h : Bounded s) (hp : t.ports = s.ports)
    (hq : t.uplink.queue.length ≤ 64) : Bounded t := by
  have hport (seg : Seg) : t.port seg = s.port seg := by unfold State.port; rw [hp]
  exact ⟨fun seg => hport seg ▸ h.rx seg, fun seg => hport seg ▸ h.tx seg, hq⟩

theorem bounded_updPort {s : State} (h : Bounded s) (seg : Seg) (f : SegPort → SegPort)
    (hrx : (f (s.port seg)).rxQueue.length ≤ 16) (htx : (f (s.port seg)).txQueue.length ≤ 32) :
    Bounded (s.updPort seg f) where
  rx g := by rw [State.port_updPort]; split; exacts [hrx, h.rx g]
  tx g := by rw [State.port_updPort]; split; exacts [htx, h.tx g]
  queue := h.queue

/-- A change of a port that leaves both its queues. -/
theorem bounded_updPort_same {s : State} (h : Bounded s) (seg : Seg) (f : SegPort → SegPort)
    (hrx : (f (s.port seg)).rxQueue = (s.port seg).rxQueue) (htx : (f (s.port seg)).txQueue = (s.port seg).txQueue) :
    Bounded (s.updPort seg f) :=
  bounded_updPort h seg f (hrx ▸ h.rx seg) (htx ▸ h.tx seg)

/-- A report accepted with a free place (R180). -/
theorem bounded_accept {s : State} (h : Bounded s) (hroom : s.uplink.queue.length < 64) (r : Report) :
    Bounded (s.accept r) :=
  bounded_of_queue h (by simp) (by simpa [State.accept] using hroom)

theorem classB_bounded {u : Uplink} (h : u.queue.length ≤ 64) (r : Report) : (classB u r).queue.length ≤ 64 := by
  unfold classB
  split
  · simp; omega
  · exact h

theorem bounded_offerB {s : State} (h : Bounded s) (r : Report) : Bounded (s.offerB r) :=
  bounded_of_queue h (by simp) (by rw [offerB_eq]; exact classB_bounded h.queue r)

theorem bounded_countPort {s : State} (h : Bounded s) (seg : Seg) (f : SegCounters → SegCounters) :
    Bounded (s.countPort seg f) := bounded_updPort_same h seg _ rfl rfl

theorem bounded_enterSeg {s : State} (h : Bounded s) (seg : Seg) (entered : SegState) :
    Bounded (s.enterSeg seg entered) :=
  bounded_offerB (bounded_updPort_same h seg _ rfl rfl) _

theorem bounded_windowRise {s : State} (h : Bounded s) (seg : Seg) : Bounded (s.windowRise seg) := by
  have hcount := bounded_updPort_same h seg (fun p => { p with windowCount := bump p.windowCount }) rfl rfl
  unfold State.windowRise
  dsimp only
  split
  · exact bounded_enterSeg hcount _ _
  · exact hcount

/-- R7: a port takes a frame where its transmit queue has a place, and else drops it. -/
theorem bounded_handOff {s : State} (h : Bounded s) (seg : Seg) (addr : Addr) (kind : TxKind) (payload : List Byte) :
    Bounded (s.handOff seg addr kind payload).1 := by
  unfold State.handOff
  dsimp only
  split
  next => exact bounded_countPort h seg fun c => { c with transmitDrops := bump c.transmitDrops }
  next hfree =>
    simp only [Config.txQueueSize, not_or, not_le] at hfree
    exact bounded_updPort h seg _ (h.rx seg) (by simp; omega)

/-- R7, R180: the bounds depend on the ports and the report queue alone, and every report and frame is tested for room. -/
theorem bounded_invariant : PortInvariant Bounded where
  of_same := bounded_of_same
  keeps_accept h hroom r := bounded_accept h hroom r
  keeps_offerB h r := bounded_offerB h r
  keeps_handOff h seg addr kind payload := bounded_handOff h seg addr kind payload

/-! ### Lane frames -/

/-- R2, R3: a frame taken shortens its receive queue. -/
theorem bounded_takeFrame {s : State} (h : Bounded s) (seg : Seg) (kind : LaneKind) {consume : State → Taken → State}
    (hc : ∀ s t, Bounded s → Bounded (consume s t)) : Bounded (s.takeFrame seg kind consume) := by
  unfold State.takeFrame
  split
  next => exact h
  next f rest hq =>
    have hrx : rest.length ≤ 16 := by
      have := h.rx seg
      rw [hq, List.length_cons] at this
      omega
    have htaken : Bounded (s.updPort seg fun p => { p with rxQueue := rest }) := bounded_updPort h seg _ hrx (h.tx seg)
    dsimp only
    split
    · split
      · exact bounded_invariant.keeps_signHearing (bounded_invariant.keeps_heard (bounded_countPort htaken _ _) _ _) _
      · have hrecord := bounded_updPort_same htaken seg
          (fun p => { p with seqRecord := p.seqRecord.set f.src (some f.seq) }) rfl rfl
        refine bounded_invariant.keeps_signHearing (bounded_invariant.keeps_mapFrame ?_ _
          (fun _ h => bounded_countPort h _ _) (fun _ h => bounded_countPort h _ _) hc) _
        exact bounded_invariant.keeps_heard (PortInvariant.keeps_ite (bounded_countPort hrecord _ _) hrecord) _ _
    · exact h

/-! ### The events of a segment -/

/-- R1, R2: a frame received joins its receive queue where that has a place. -/
theorem bounded_receive {s : State} (h : Bounded s) (seg : Seg) (bytes : List Byte) : Bounded (s.receive seg bytes) := by
  unfold State.receive
  split
  · exact bounded_windowRise (bounded_countPort h _ _) _
  · exact bounded_countPort h _ _
  · exact bounded_countPort h _ _
  · split
    next hfree =>
      simp only [Config.rxQueueSize] at hfree
      exact bounded_updPort h seg _ (by simp; omega) (h.tx seg)
    next => exact bounded_windowRise (bounded_countPort h _ _) _

theorem bounded_loseSignal {s : State} (h : Bounded s) (seg : Seg) : Bounded (s.loseSignal seg) := by
  have hdown := bounded_enterSeg h seg .down
  have hsilence (s : State) (a : Addr) (hs : Bounded s) : Bounded (State.silenceStation seg s a) := by
    unfold State.silenceStation
    dsimp only
    split
    · exact hs
    · have hsilent (f : Station → Station) := bounded_invariant.keeps_updStation hs (stationIx seg a) f
      exact PortInvariant.keeps_ite (hsilent _) (bounded_invariant.keeps_updChannel (hsilent _) _ _)
  unfold State.loseSignal
  refine foldl_preserves (P := Bounded) (fun _ a hs => bounded_invariant.keeps_endHold hs _ _) _ ?_
  refine foldl_preserves (P := Bounded) hsilence _ ?_
  exact bounded_updPort hdown seg _ (hdown.rx seg) (by simp)

/-! ### Tables -/

theorem bounded_writeStationAnswer {s : State} (h : Bounded s) (index : BitVec 16) (state idPresent : Byte)
    (identity : BitVec 32) (lane role zone weight forward : Byte) :
    Bounded (writeStationAnswer index state idPresent identity lane role zone weight forward s).2 := by
  have hwritten (ix : StationIx) (f : Station → Station) : Bounded (s.writeStation ix f) := by
    have hended := bounded_invariant.keeps_endHold (bounded_updPort_same (bounded_invariant.keeps_updStation h ix f) (segOf ix)
      (fun p => { p with seqRecord := p.seqRecord.set (addrOf ix) none }) rfl rfl) ix .consoleRewritten
    unfold State.writeStation
    exact PortInvariant.keeps_ite (bounded_invariant.keeps_compose hended _) hended
  unfold writeStationAnswer
  split
  · split
    · split
      · exact h
      · dsimp only
        exact hwritten _ _
    · exact h
  · exact h

theorem bounded_writeWindowAnswer {s : State} (h : Bounded s) (index day : BitVec 16)
    (state capacity overbook openShare : Byte) :
    Bounded (writeWindowAnswer index day state capacity overbook openShare s).2 := by
  have hwritten (i : DayIx) (w : Fin 96) (f : Window → Window) : Bounded (s.updWindow i w f) :=
    bounded_invariant.keeps_of_uplink h (by simp) (by simp)
  unfold writeWindowAnswer
  repeat' split
  · exact h
  · exact h
  · exact h
  · exact h
  · exact hwritten _ _ _

theorem bounded_writeDestAnswer {s : State} (h : Bounded s) (index : BitVec 16)
    (kind state capacity accepts alternate phrase : Byte) :
    Bounded (writeDestAnswer index kind state capacity accepts alternate phrase s).2 := by
  unfold writeDestAnswer
  repeat' split
  · exact bounded_of_same h (by rfl) (by rfl)
  · exact h
  · exact h

theorem bounded_writeDefaultAnswer {s : State} (h : Bounded s) (index : BitVec 16) (value : Byte) :
    Bounded (writeDefaultAnswer index value s).2 := by
  unfold writeDefaultAnswer
  split
  · exact bounded_of_same h (by rfl) (by rfl)
  · exact h

theorem bounded_writePhraseAnswer {s : State} (h : Bounded s) (index : BitVec 16) (chars : Vector Byte 20) :
    Bounded (writePhraseAnswer index chars s).2 := by
  have hcomposed (f : SignUnit → SignUnit) : Bounded (s.updSigns f).composeAll :=
    bounded_invariant.keeps_composeAll (bounded_of_same h (by rfl) (by rfl))
  unfold writePhraseAnswer
  repeat' split
  · dsimp only
    exact hcomposed _
  · exact h
  · exact h

theorem bounded_writeTransparencyAnswer {s : State} (h : Bounded s) (value : BitVec 16) :
    Bounded (writeTransparencyAnswer value s).2 := by
  have hcomposed (f : Params → Params) : Bounded (s.updParams f).composeAll :=
    bounded_invariant.keeps_composeAll (bounded_of_same h (by rfl) (by rfl))
  unfold writeTransparencyAnswer
  split
  · dsimp only
    exact hcomposed _
  · exact h

theorem bounded_writeWeightAnswer {s : State} (h : Bounded s) (index : BitVec 16) (weight : Byte) :
    Bounded (writeWeightAnswer index weight s).2 := by
  unfold writeWeightAnswer
  split
  · exact bounded_of_same h (by rfl) (by rfl)
  · exact h

theorem bounded_writePrefixAnswer {s : State} (h : Bounded s) (index : BitVec 16) (present : Byte)
    (first last : Vector Byte 4) : Bounded (writePrefixAnswer index present first last s).2 := by
  unfold writePrefixAnswer
  repeat' split
  · exact h
  · exact bounded_of_same h (by rfl) (by rfl)
  · exact bounded_of_same h (by rfl) (by rfl)
  · exact h
  · exact h

theorem bounded_writeInputAnswer {s : State} (h : Bounded s) (lane : LaneId) (inp : Input)
    (enable polarity filter : Byte) : Bounded (writeInputAnswer lane inp enable polarity filter s).2 := by
  have hinput (f : LaneInput → LaneInput) : Bounded (s.updInput lane inp f) := bounded_of_same h (by rfl) (by rfl)
  unfold writeInputAnswer
  split
  · exact PortInvariant.keeps_ite (hinput _) (bounded_invariant.keeps_rearm (hinput _) _ _)
  · exact h

theorem bounded_writeParamAnswer {s : State} (h : Bounded s) (index value : BitVec 16) (third : Byte) :
    Bounded (writeParamAnswer index value third s).2 := by
  unfold writeParamAnswer
  split
  · exact h
  · split
    · exact bounded_writeTransparencyAnswer h _
    · split
      · exact bounded_of_same h (by rfl) (by rfl)
      · split
        · split
          · exact bounded_writeInputAnswer h _ _ _ _ _
          · unfold writeEdgeAnswer
            split
            · exact bounded_of_same h (by rfl) (by rfl)
            · exact bounded_of_same h (by rfl) (by rfl)
            · exact h
        · split
          · exact h
          · split
            · exact bounded_of_same h (by rfl) (by rfl)
            · exact h

theorem bounded_writeAnswer {s : State} (h : Bounded s) (table : Byte) (index : BitVec 16) (b : List Byte) :
    Bounded (writeAnswer table index b s).2 := by
  unfold writeAnswer
  dsimp only
  split
  · exact bounded_writeStationAnswer h _ _ _ _ _ _ _ _ _
  · exact bounded_writeWindowAnswer h _ _ _ _ _ _
  · exact bounded_writeDestAnswer h _ _ _ _ _ _ _
  · exact bounded_writeDefaultAnswer h _ _
  · exact bounded_writePhraseAnswer h _ _
  · exact bounded_writeWeightAnswer h _ _
  · exact bounded_writePrefixAnswer h _ _ _ _
  · exact bounded_writeParamAnswer h _ _ _
  · exact h

theorem bounded_readAnswer {s : State} (h : Bounded s) (table : Byte) (index : BitVec 16) :
    Bounded (readAnswer table index s).2 := by
  unfold readAnswer
  split
  · exact h
  · split <;> exact h

/-! ### The uplink, the resets and the clock -/

theorem bounded_counterAnswer {s : State} (h : Bounded s) (group clear : Byte) :
    Bounded (counterAnswer group clear s).2 := by
  have hcleared (n : Nat) : Bounded (s.clearCounters n) := by
    unfold State.clearCounters
    repeat' split
    · exact bounded_countPort h _ _
    all_goals exact bounded_of_same h (by rfl) (by rfl)
  unfold counterAnswer
  split
  · exact h
  · split
    · exact h
    · exact PortInvariant.keeps_ite (hcleared _) h

/-- R178, R179: a request keeps the queues where its owner's act keeps them. -/
theorem bounded_request {s : State} (h : Bounded s) (hdr : GateHdr) (kind : Byte) {act : State → Answer × State}
    (ha : ∀ s, Bounded s → Bounded (act s).2) : Bounded (s.request hdr kind act) := by
  unfold State.request
  split
  · exact bounded_of_same h (by rfl) (by rfl)
  · exact bounded_invariant.keeps_uplinkMake (ha _ (bounded_of_same h (by rfl) (by rfl))) _

/-- R180, R181: the waiter that takes the place of the report sent fills that place and no other. -/
theorem bounded_reportSent {s : State} (h : Bounded s) (hq : s.uplink.queue ≠ []) : Bounded s.reportSent := by
  have hroom : s.uplink.queue.tail.length < 64 := by
    have hqueue := h.queue
    have hpos := List.length_pos_iff.2 hq
    rw [List.length_tail]
    omega
  have hsent : Bounded (s.updUplink fun u => { u with queue := u.queue.tail }) := bounded_of_queue h rfl (Nat.le_of_lt hroom)
  unfold State.reportSent
  dsimp only
  split
  next => exact hsent
  next w rest _ =>
    have hturn : Bounded ((s.updUplink fun u => { u with queue := u.queue.tail }).updUplink fun u =>
      { u with waiters := rest }) := bounded_of_same hsent (by rfl) (by rfl)
    cases w with
    | visitReport id => exact bounded_invariant.keeps_reportAccepted hturn hroom id
    | referNotice id => exact bounded_invariant.keeps_noticeAccepted hturn hroom id
    | cache => exact bounded_invariant.keeps_settle (bounded_invariant.keeps_turn (w := { st := _ }) hturn hroom)
    | uplink =>
      show Bounded (State.uplinkTurn _)
      unfold State.uplinkTurn
      split
      · exact hturn
      · have haccepted (r : Report) (owed : List Report) := bounded_accept (r := r) (s := ((s.updUplink fun u =>
          { u with queue := u.queue.tail }).updUplink fun u => { u with waiters := rest }).updUplink fun u =>
          { u with owed := owed }) (bounded_of_same hturn (by rfl) (by rfl)) hroom
        exact PortInvariant.keeps_ite (haccepted _ _) (bounded_invariant.keeps_wait (haccepted _ _) _)

theorem bounded_initial (p : Pins) (held : Bool) (pending : List Instr) : Bounded (initial p held pending) where
  rx seg := by simp [initial, State.port, SegPort.initial]
  tx seg := by simp [initial, State.port, SegPort.initial]
  queue := by simp [initial, Uplink.initial]

/-- R188: a reset queues a RESPONSE, a PART_HELLO, four SEGMENT_EVENTs and at most sixteen LANE_EVENTs. -/
theorem resetQueue_length (before after : State) (h : GateHdr) (cause : HelloCause) (addr : Option EthAddr) :
    (State.resetQueue before after h cause addr).length ≤ 64 := by
  have hlanes := List.length_filterMap_le (State.resetEvent before after) (List.finRange 16)
  rw [List.length_finRange] at hlanes
  simp [State.resetQueue]
  omega

theorem bounded_resetAll (s : State) (h : GateHdr) : Bounded (s.resetAll h) :=
  bounded_of_queue (bounded_initial s.pins false s.pending) rfl (resetQueue_length _ _ _ _ _)

theorem dropUnset_ports (s : State) : s.dropUnset.ports = s.ports :=
  foldl_keeps (fun t : State => t.ports)
    (fun (t : State) (e : TransitEntry) => t.updDestAt e.dest fun d => { d with inTransit := d.inTransit - 1 })
    (fun _ _ => rfl) (s.dest.transit.filter fun e => e.expiry.isNone) _

theorem bounded_resetDynamic (s : State) (h : GateHdr) : Bounded (s.resetDynamic h) := by
  have hports : s.dynamicValues.ports = mapAll s.ports SegPort.dynamic := dropUnset_ports _
  unfold State.resetDynamic
  refine foldl_preserves (P := Bounded) (fun _ _ hs => bounded_invariant.keeps_offerPage hs _ _) _ ?_
  refine ⟨fun seg => ?_, fun seg => ?_, resetQueue_length _ _ _ _ _⟩
  · simp [State.port, hports, SegPort.dynamic, SegPort.initial]
  · simp [State.port, hports, SegPort.dynamic, SegPort.initial]

theorem bounded_announce {s : State} (h : Bounded s) (minute : Nat) : Bounded (s.announce minute) := by
  unfold State.announce
  refine foldl_preserves (P := Bounded) (fun t e ht => ?_) _ h
  unfold State.expireEntry
  split
  · have hremoved : Bounded (t.removeTransit e) := bounded_of_same ht (by rfl) (by rfl)
    have hreported := bounded_offerB hremoved (.transitExpired e)
    exact PortInvariant.keeps_ite (bounded_of_same hreported (by rfl) (by rfl)) ht
  · exact ht

theorem bounded_nextMinute {s : State} (h : Bounded s) (c : Clock) : Bounded (s.nextMinute c) := by
  unfold State.nextMinute
  split
  · exact bounded_announce (bounded_of_same h (by rfl) (by rfl)) _
  · exact bounded_announce (bounded_of_same h (by rfl) (by rfl)) _

theorem bounded_second {s : State} (h : Bounded s) : Bounded s.second := by
  unfold State.second
  split
  · exact h
  · split
    · exact bounded_of_same h (by rfl) (by rfl)
    · exact bounded_nextMinute h _

theorem bounded_timeSetAnswer {s : State} (h : Bounded s) (day minute : BitVec 16) :
    Bounded (timeSetAnswer day minute s).2 := by
  have hset (m : Nat) : Bounded (s.setTime day m) := by
    have hclock : Bounded (s.setClock ⟨day, m, 0⟩) := bounded_of_same h (by rfl) (by rfl)
    unfold State.setTime
    refine bounded_of_same (bounded_announce ?_ _) (by rfl) (by rfl)
    split
    · exact bounded_of_same hclock (by rfl) (by rfl)
    · exact PortInvariant.keeps_ite hclock (bounded_of_same hclock (by rfl) (by rfl))
  unfold timeSetAnswer
  split
  · exact h
  · exact hset _

end Sys2Proof.Proofs
end

section
namespace Sys2Proof.Proofs

open Sys2Proof Sys2Proof.Machine Sys2Proof.Safety Sys2Proof.Laws
open PortInvariant (keeps_ite)

/-! ### The step -/

/-- What a command answers keeps the queues: a next state within their sizes from a state within their sizes. -/
def KeepsQueues (s : State) (o : Host.Outcome State Fault Refusal) : Prop := ∀ t, o = .next t → Bounded s → Bounded t

theorem keepsQueues_whenRunning {s : State} {f : State → State} (hf : Bounded s → Bounded (f s)) :
    KeepsQueues s (whenRunning s f) := by
  intro t ht h
  unfold whenRunning at ht
  split at ht
  · injection ht with e
    exact e ▸ h
  · injection ht with e
    exact e ▸ hf h

theorem keepsQueues_powerOn (pins : Pins) (held : Bool) (s : State) : KeepsQueues s (exec (.powerOn pins held) s) := by
  intro t ht _
  have hinit := bounded_initial pins held s.pending
  injection ht with e
  subst e
  exact keeps_ite hinit (bounded_of_queue hinit rfl (by simp [powerOnQueue, State.updUplink]))

/-- Each command by the lemma about the operation that it runs. -/
theorem keepsQueues_exec (c : Instr) (s : State) : KeepsQueues s (exec c s) := by
  have inv := bounded_invariant
  have consumed (k : LaneKind) := fun (s : State) t h => inv.keeps_consumer k (s := s) h t
  have answers (hdr : GateHdr) (kind : Byte) {act : State → Answer × State} (ha : ∀ s, Bounded s → Bounded (act s).2)
      (h : Bounded s) := bounded_request h hdr kind ha
  cases c
  case powerOn pins held => exact keepsQueues_powerOn pins held s
  all_goals dsimp only [exec]
  all_goals refine keepsQueues_whenRunning fun h => ?_
  case laneFrameReceived seg bytes => exact keeps_ite h (bounded_receive h _ _)
  case readPlate seg => exact bounded_takeFrame h _ _ (consumed .readPlate)
  case readTag seg => exact bounded_takeFrame h _ _ (consumed .readTag)
  case readUnit seg => exact bounded_takeFrame h _ _ (consumed .readUnit)
  case readSeal seg => exact bounded_takeFrame h _ _ (consumed .readSeal)
  case damageMarks seg => exact bounded_takeFrame h _ _ (consumed .damageMarks)
  case scanEnd seg => exact bounded_takeFrame h _ _ (consumed .scanEnd)
  case kioskEntry seg => exact bounded_takeFrame h _ _ (consumed .kioskEntry)
  case stationHello seg => exact bounded_takeFrame h _ _ (consumed .hello)
  case stationStatus seg => exact bounded_takeFrame h _ _ (consumed .status)
  case signAck seg => exact bounded_takeFrame h _ _ (consumed .signAck)
  case ticketAck seg => exact bounded_takeFrame h _ _ (consumed .ticketAck)
  case consoleTake seg => exact bounded_takeFrame h _ _ (consumed .consoleTake)
  case consoleRelease seg => exact bounded_takeFrame h _ _ (consumed .consoleRelease)
  case consoleOutput seg => exact bounded_takeFrame h _ _ (consumed .consoleOutput)
  case signalLoss seg => exact keeps_ite h (bounded_loseSignal h _)
  case signalDetect seg =>
    exact keeps_ite (bounded_updPort_same (bounded_enterSeg h _ _) _ _ rfl rfl) h
  case errorWindowExpiry seg =>
    exact keeps_ite (bounded_updPort_same (keeps_ite (bounded_enterSeg h _ _) h) _ _ rfl rfl) h
  case transmitEnd seg =>
    refine bounded_updPort h seg _ (h.rx seg) ?_
    have := h.tx seg
    rw [List.length_tail]
    omega
  case stationSilenceExpiry seg addr =>
    exact keeps_ite (inv.keeps_becomeSilent (inv.keeps_stationEvent h _ _ _ _) _) h
  case inputLevelChange lane inp high =>
    have pinned (h : Bounded s) : Bounded (s.updInput lane inp fun i => { i with pin := high }) :=
      bounded_of_same h (by rfl) (by rfl)
    exact keeps_ite h (keeps_ite (inv.keeps_filterChange (pinned h) _ _) (pinned h))
  case inputFilterExpiry lane inp => exact keeps_ite (inv.keeps_takeLevel h _ _) h
  case approachExpiry ctx => exact keeps_ite (inv.keeps_offerReport (inv.keeps_endCtx h _ _) _) h
  case identificationExpiry ctx => exact keeps_ite (inv.keeps_enterLookup (inv.keeps_updCtx h _ _) _) h
  case rulingExpiry ctx => exact keeps_ite (inv.keeps_turnOut (bounded_of_same h (by rfl) (by rfl)) _ _) h
  case bookingData hdr record =>
    have heard : Bounded (s.gateHeard hdr) := bounded_of_same h (by rfl) (by rfl)
    exact inv.keeps_settle (inv.keeps_bookingData (w := { st := _ }) heard _ _)
  case bookingNone hdr key =>
    have heard : Bounded (s.gateHeard hdr) := bounded_of_same h (by rfl) (by rfl)
    exact inv.keeps_settle (inv.keeps_bookingNone (w := { st := _ }) heard _ _)
  case fetchTimeout slot => exact inv.keeps_settle (inv.keeps_fetchTimeout (w := { st := s }) h _)
  case bookingRecall hdr key => exact answers _ _ (fun _ h => inv.keeps_recallAnswer h _) h
  case flush hdr => exact answers _ _ (fun _ h => inv.keeps_flushAnswer h) h
  case clockMinute =>
    split
    · exact bounded_nextMinute h _
    · exact h
  case timeSet hdr day minute => exact answers _ _ (fun _ h => bounded_timeSetAnswer h _ _) h
  case visitRuling hdr visit ruling dest => exact answers _ _ (fun _ h => inv.keeps_rulingAnswer h _ _ _) h
  case arrivedAt hdr visit => exact answers _ _ (fun _ h => inv.keeps_arrivedAnswer h _) h
  case signAckExpiry seg addr => exact inv.keeps_signExpiry h _
  case ticketAckExpiry seg addr place => exact inv.keeps_of_uplink h (by simp) (by simp)
  case gateFrameDiscarded bytes =>
    split
    · exact h
    · exact h
    · exact bounded_of_same h (by rfl) (by rfl)
    · exact bounded_of_same h (by rfl) (by rfl)
  case gateFrameUnknownKind hdr kind =>
    exact keeps_ite h (answers _ _ (fun _ h => bounded_of_same h (by rfl) (by rfl)) h)
  case heartbeat hdr => exact answers _ _ (fun _ h => h) h
  case heartbeatExpiry => exact keeps_ite (bounded_of_same h (by rfl) (by rfl)) h
  case uplinkLinkDown =>
    exact keeps_ite (keeps_ite (bounded_of_same h (by rfl) (by rfl)) (bounded_of_same h (by rfl) (by rfl))) h
  case uplinkLinkUp => exact keeps_ite h (inv.keeps_uplinkMake (bounded_of_same h (by rfl) (by rfl)) _)
  case reportSent =>
    split
    next hq => exact bounded_reportSent h (by simp_all)
    next => exact h
  case tableWriteStationMap hdr index state idPresent identity lane role zone weight forward =>
    exact answers _ _ (fun _ h => bounded_writeStationAnswer h _ _ _ _ _ _ _ _ _) h
  case tableWriteSlotWindows hdr index day state capacity overbook openShare =>
    exact answers _ _ (fun _ h => bounded_writeWindowAnswer h _ _ _ _ _ _) h
  case tableWriteDestinations hdr index kind state capacity accepts alternate phrase =>
    exact answers _ _ (fun _ h => bounded_writeDestAnswer h _ _ _ _ _ _ _) h
  case tableWriteDefaults hdr index value => exact answers _ _ (fun _ h => bounded_writeDefaultAnswer h _ _) h
  case tableWritePhrases hdr index chars => exact answers _ _ (fun _ h => bounded_writePhraseAnswer h _ _) h
  case tableWriteDamageWeights hdr index weight => exact answers _ _ (fun _ h => bounded_writeWeightAnswer h _ _) h
  case tableWriteUncachedPrefixes hdr index present first last =>
    exact answers _ _ (fun _ h => bounded_writePrefixAnswer h _ _ _ _) h
  case tableWriteParameters hdr index value third => exact answers _ _ (fun _ h => bounded_writeParamAnswer h _ _ _) h
  case tableWriteInputEntry hdr lane inp enable polarity filter =>
    exact answers _ _ (fun _ h => bounded_writeInputAnswer h _ _ _ _ _) h
  case tableWriteTransparency hdr value => exact answers _ _ (fun _ h => bounded_writeTransparencyAnswer h _) h
  case tableWrite hdr table index record =>
    exact keeps_ite (bounded_of_same h (by rfl) (by rfl)) (answers _ _ (fun _ h => bounded_writeAnswer h _ _ _) h)
  case tableRead hdr table index => exact answers _ _ (fun _ h => bounded_readAnswer h _ _) h
  case counterRead hdr group clear => exact answers _ _ (fun _ h => bounded_counterAnswer h _ _) h
  case laneCommandOpen hdr lane => exact answers _ _ (fun _ h => inv.keeps_openAnswer h _) h
  case laneCommandClose hdr lane => exact answers _ _ (fun _ h => inv.keeps_closeAnswer h _) h
  case laneCommandReset hdr lane => exact answers _ _ (fun _ h => inv.keeps_laneResetAnswer h _) h
  case outputSet hdr lane output source value => exact answers _ _ (fun _ h => inv.keeps_outputSetAnswer h _ _ _ _) h
  case resetDynamic hdr => exact keeps_ite (bounded_of_same h (by rfl) (by rfl)) (bounded_resetDynamic _ _)
  case resetAll hdr => exact keeps_ite (bounded_of_same h (by rfl) (by rfl)) (bounded_resetAll _ _)
  case laneCommandBadValue hdr command => exact keeps_ite h (answers _ _ (fun _ h => h) h)
  case partCommandBadValue hdr command => exact keeps_ite h (answers _ _ (fun _ h => h) h)

theorem bounded_step {s t : State} (h : Bounded s) (hstep : step s = .next t) : Bounded t := by
  unfold step at hstep
  split at hstep
  next c rest _ => exact keepsQueues_exec c _ t hstep (bounded_of_same h (by rfl) (by rfl))
  next =>
    injection hstep with e
    exact e ▸ keeps_ite h (bounded_second h)

/-- Settles O56: the queues' bounds are kept by every operation of the model, so by every command
and by a second of the clock. -/
theorem queuesStayBounded : Obligations.QueuesStayBounded := by
  intro s t h hstep
  exact (bounded_iff t).1 (bounded_step ((bounded_iff s).2 h) hstep)

end Sys2Proof.Proofs
end

section
/-! PROOFS. The state right after reset (R21, R22, R38, R64, R114, R115, R130, R148, R166, R177, R186, R188): every table holds one
value at each of its places, so a lookup at any place is that value. -/

namespace Sys2Proof.Proofs

open Sys2Proof Sys2Proof.Machine Sys2Proof.Safety Sys2Proof.Laws

@[simp] theorem reset_port (seg : Seg) : State.reset.port seg = SegPort.initial false := by
  simp [State.reset, State.port]

@[simp] theorem reset_station (ix : StationIx) : State.reset.station ix = {} := by
  simp [State.reset, State.station]

@[simp] theorem reset_lane (l : LaneId) : State.reset.lane l = LaneState.initial (Vector.replicate 4 false) := by
  simp [State.reset, State.lane]

@[simp] theorem reset_ctx (id : CtxId) : State.reset.ctx id = {} := by
  simp [State.reset, State.ctx]

@[simp] theorem reset_destAt (d : Fin 64) : State.reset.destAt d = {} := by
  simp [State.reset, State.destAt, DestUnit.initial]

theorem reset_set (i : Fin 1024) : State.reset.cache.sets[i] = {} := by
  simp [State.reset, Cache.initial]

@[simp] theorem reset_window (i : DayIx) (w : Fin 96) : (State.reset.dayTable i).windows[w] = {} := by
  cases i <;> simp [State.reset, State.dayTable, SlotUnit.initial, DayTable.fresh]

theorem initial_input (i : Fin 4) : (LaneState.initial (Vector.replicate 4 false)).inputs[i] = { pin := false } := by
  fin_cases i <;> rfl

/-- Settles O4: each block at reset holds its initial values at every place. -/
theorem resetLeavesTheStatedValues : Obligations.ResetLeavesTheStatedValues := by
  unfold Obligations.ResetLeavesTheStatedValues
  intro s
  refine ⟨fun seg => ?ports, fun ix => ?stations, fun l => ?lanes, fun id => ?pool, rfl, rfl, fun i => ?sets, fun i => ?slots,
    fun p => ?copies, rfl, rfl, rfl, fun i => ?uncached, rfl, rfl, rfl, fun i => ?days, rfl, rfl, fun d => ?dests,
    fun i => ?defaults, rfl, rfl, fun n => ?phrases, rfl, rfl, rfl, rfl, rfl, rfl, rfl, rfl, ?queue, rfl, rfl, rfl⟩
  case ports => simp [s, SegPort.initial]
  case stations => simp [s]
  case lanes =>
    rw [reset_lane]
    refine ⟨rfl, rfl, rfl, rfl, rfl, rfl, rfl, rfl, rfl, rfl, fun i => ?_⟩
    rw [initial_input]
    exact ⟨rfl, rfl, rfl, rfl, rfl⟩
  case pool => simp [s]
  case sets => simp only [s, reset_set, and_self]
  case slots => simp [s, State.reset, Cache.initial]
  case copies => simp [s, State.reset, Cache.initial]
  case uncached => simp [s, State.reset, Cache.initial]
  case days => exact ⟨by cases i <;> rfl, reset_window i⟩
  case dests => simp [s]
  case defaults => simp [s, State.reset, DestUnit.initial]
  case phrases => simp [s, State.reset, SignUnit.initial]
  case queue => rfl

/-- Settles O60: the queues hold at most the five reports of power-on, every input is off and INACTIVE, every lane CLOSED and
empty, and no transit entry stands. -/
theorem invariantsHoldAtReset : Obligations.InvariantsHoldAtReset := by
  refine ⟨⟨fun seg => ?_, ?_⟩, fun l i _ => ?_, fun l => ?_, ?_, ?_, fun d => ?_⟩
  · simp [SegPort.initial]
  · simp [State.reset, powerOnQueue]
  · rw [reset_lane, initial_input]
    exact ⟨rfl, rfl⟩
  · simp [LaneState.initial]
  · exact List.nodup_nil
  · exact Nat.zero_le _
  · rw [reset_destAt]
    rfl

end Sys2Proof.Proofs
end

section
/-! PROOFS. The frames received and the error window of a segment (R1, R2, R4 to R7). -/

namespace Sys2Proof.Proofs

open Sys2Proof Sys2Proof.Machine Sys2Proof.Safety Sys2Proof.Laws

/-! ### A frame received -/

/-- R1, R2: a frame received in full on a segment with signal. -/
theorem exec_laneFrameReceived (seg : Seg) (bytes : List Byte) (s : State) (hheld : s.resetHeld = false)
    (hsignal : (s.port seg).state ≠ .down) : exec (.laneFrameReceived seg bytes) s = .next (s.receive seg bytes) := by
  dsimp only [exec]
  unfold execLaneFrameReceived
  rw [whenRunning_running _ _ hheld, if_neg hsignal]

/-- Settles O5: `receive` takes the parts of the FRAME CHECK in the order of the statement. -/
theorem receivedFrameIsCountedOrQueued : Obligations.ReceivedFrameIsCountedOrQueued := by
  intro seg bytes s hheld hsignal
  rw [exec_laneFrameReceived seg bytes s hheld hsignal]
  unfold State.receive
  cases frameCheck bytes <;> rfl

/-! ### The FRAME CHECK -/

/-- R1: the FRAME CHECK of a header, a payload and two bytes of CRC, as one chain of tests. -/
theorem frameCheck_framed (dst src kind sq len : Byte) (payload tail : List Byte) (htail : tail.length = 2) :
    let body := dst :: src :: kind :: sq :: len :: payload
    frameCheck (body ++ tail) =
      if tail ≠ bytesOf16 (crc16 body) then .crcError
      else if payload.length ≠ len.toNat then .crcError
      else if dst.toNat ≠ 0 then .foreign
      else
        match decide (1 ≤ src.toNat), laneMsgOf kind payload with
        | true, some msg =>
            if h : src.toNat - 1 < 31 then .passed ⟨⟨src.toNat - 1, h⟩, sq.setWidth 4, msg, body⟩ else .formatError
        | _, _ => .formatError := by
  intro body
  have hlen : ¬ (payload ++ tail).length < 2 := by simp [htail]
  have hn : (payload ++ tail).length - 2 = payload.length := by simp [htail]
  show frameCheck (dst :: src :: kind :: sq :: len :: (payload ++ tail)) = _
  unfold frameCheck
  dsimp only
  rw [if_neg hlen, hn, List.take_left', List.drop_left']
  · simp only [bne_iff_ne]
    rfl
  all_goals rfl

/-- Settles O6: the four tests of the chain, and `laneMsgOf_some` for the forms of the payloads. -/
theorem frameCheckTakesThePartsInOrder : Obligations.FrameCheckTakesThePartsInOrder := by
  intro dst src kind sq len payload tail htail body right
  have hcheck := frameCheck_framed dst src kind sq len payload tail htail
  dsimp only at hcheck
  refine ⟨fun hcrc => ?_, fun hcrc hlen => ?_, fun hcrc hlen hdst => ?_, fun hcrc hlen hdst => ⟨fun hform => ?_,
    fun m hsrc hmsg => ?_⟩, laneMsgOf_some kind payload⟩
  · rw [hcheck, if_pos hcrc]
  · rw [hcheck, if_neg (not_not.2 hcrc), if_pos hlen]
  · rw [hcheck, if_neg (not_not.2 hcrc), if_neg (not_not.2 hlen), if_pos hdst]
  · rw [hcheck, if_neg (not_not.2 hcrc), if_neg (not_not.2 hlen), if_neg (not_not.2 hdst)]
    split
    next m hpos hm =>
      have hlow : 1 ≤ src.toNat := of_decide_eq_true hpos
      have hnone : laneMsgOf kind payload ≠ none := by simp [hm]
      rw [dif_neg]
      rcases hform with h | h | h
      · omega
      · omega
      · exact absurd h hnone
    next => rfl
  · rw [hcheck, if_neg (not_not.2 hcrc), if_neg (not_not.2 hlen), if_neg (not_not.2 hdst), hmsg, decide_eq_true hsrc.1]
    dsimp only
    rw [dif_pos (by omega)]

/-! ### The error window -/

/-- Two changes of a record of a table that agree on the record are the same change. -/
theorem upd_congr {α : Type} {n : Nat} (v : Vector α n) (i : Fin n) {f g : α → α} (h : f v[i] = g v[i]) :
    upd v i f = upd v i g := by
  unfold upd
  rw [h]

/-- R4: a segment enters a state: its port and the uplink change, by one SEGMENT_EVENT. -/
theorem enterSeg_eq (s : State) (seg : Seg) (entered : SegState) :
    s.enterSeg seg entered = { s with
      ports := upd s.ports seg fun p => { p with state := entered }
      uplink := classB s.uplink (.segmentEvent seg (some (s.port seg).state) entered (s.port seg).windowCount) } := by
  unfold State.enterSeg
  rw [offerB_eq]
  rfl

/-- R5, R6: a rise of the window count. -/
theorem windowRise_eq (s : State) (seg : Seg) :
    s.windowRise seg =
      (if (s.port seg).state = .up ∧ s.params.segThreshold[seg] ≠ 0 ∧
          s.params.segThreshold[seg] < (bump (s.port seg).windowCount).toNat then
        { s with
          ports := upd s.ports seg fun p => { p with windowCount := bump (s.port seg).windowCount, state := .impaired }
          uplink := classB s.uplink (.segmentEvent seg (some .up) .impaired (bump (s.port seg).windowCount)) }
      else { s with ports := upd s.ports seg fun p => { p with windowCount := bump (s.port seg).windowCount } }) := by
  have hport := (State.port_updPort s seg (fun p => { p with windowCount := bump p.windowCount }) seg).trans (if_pos rfl)
  have hcount : (upd s.ports seg fun p => { p with windowCount := bump p.windowCount }) =
      upd s.ports seg fun p => { p with windowCount := bump (s.port seg).windowCount } := upd_congr _ _ rfl
  unfold State.windowRise
  dsimp only
  rw [hport]
  dsimp only [State.updPort_params]
  by_cases hrise : (s.port seg).state = .up ∧ s.params.segThreshold[seg] ≠ 0 ∧
      s.params.segThreshold[seg] < (bump (s.port seg).windowCount).toNat
  · rw [if_pos hrise]
    refine (if_pos hrise).trans ?_
    rw [enterSeg_eq, hport, State.updPort_ports, hcount, upd_upd]
    dsimp only
    rw [hrise.1]
    rfl
  · rw [if_neg hrise]
    refine (if_neg hrise).trans ?_
    unfold State.updPort
    rw [hcount]

/-- R6: an expiry of the error window. -/
theorem exec_errorWindowExpiry (seg : Seg) (s : State) (hheld : s.resetHeld = false)
    (htimer : (s.port seg).windowTimer = true) :
    exec (.errorWindowExpiry seg) s = .next
      (if (s.port seg).state = .impaired ∧ ((s.port seg).windowCount.toNat ≤ s.params.segThreshold[seg] ∨
          s.params.segThreshold[seg] = 0) then
        { s with
          ports := upd s.ports seg fun p => { p with windowCount := 0, state := .up }
          uplink := classB s.uplink (.segmentEvent seg (some .impaired) .up (s.port seg).windowCount) }
      else { s with ports := upd s.ports seg fun p => { p with windowCount := 0 } }) := by
  dsimp only [exec]
  unfold execErrorWindowExpiry
  rw [whenRunning_running _ _ hheld]
  dsimp only
  rw [if_pos htimer]
  split
  next himpaired =>
    rw [enterSeg_eq, himpaired.1]
    unfold State.updPort
    dsimp only
    rw [upd_upd]
  next => rfl

/-- R4: a loss of signal on a segment that has it. -/
theorem exec_signalLoss (seg : Seg) (s : State) (hheld : s.resetHeld = false) (hsignal : (s.port seg).state ≠ .down) :
    exec (.signalLoss seg) s = .next (s.loseSignal seg) := by
  dsimp only [exec]
  unfold execSignalLoss
  rw [whenRunning_running _ _ hheld, if_neg hsignal]

/-- R5, R6: under a threshold of 0 a frame counted as an error raises the window count and its own counter, and no more. -/
theorem countPort_windowRise (s : State) (seg : Seg) (f : SegCounters → SegCounters)
    (hzero : s.params.segThreshold[seg] = 0) :
    (s.countPort seg f).windowRise seg = { s with ports := upd s.ports seg fun p =>
      { p with windowCount := bump (s.port seg).windowCount, counters := f (s.port seg).counters } } := by
  have hport : (s.countPort seg f).port seg = { s.port seg with counters := f (s.port seg).counters } :=
    (State.port_updPort s seg _ seg).trans (if_pos rfl)
  rw [windowRise_eq, hport]
  refine (if_neg fun hrise => hrise.2.1 hzero).trans ?_
  unfold State.countPort State.updPort
  dsimp only
  rw [upd_upd]
  exact congrArg (fun ports => { s with ports := ports }) (upd_congr s.ports seg rfl)

/-- R4, R7: a segment that finds signal again, and the end of a sending. -/
theorem exec_signalDetect (seg : Seg) (s : State) (hheld : s.resetHeld = false) (hdown : (s.port seg).state = .down) :
    exec (.signalDetect seg) s = .next
      { s with
        ports := upd s.ports seg fun p => { p with state := .up, signal := true, windowCount := 0, windowTimer := true }
        uplink := classB s.uplink (.segmentEvent seg (some .down) .up (s.port seg).windowCount) } := by
  dsimp only [exec]
  unfold execSignalDetect
  rw [whenRunning_running _ _ hheld, if_pos hdown, enterSeg_eq, hdown]
  unfold State.updPort
  dsimp only
  rw [upd_upd]

theorem exec_transmitEnd (seg : Seg) (s : State) (hheld : s.resetHeld = false) (f : TxFrame) (rest : List TxFrame)
    (hqueue : (s.port seg).txQueue = f :: rest) :
    exec (.transmitEnd seg) s = .next { s with ports := upd s.ports seg fun p => { p with txQueue := rest } } := by
  have htail : (s.port seg).txQueue.tail = rest := by rw [hqueue, List.tail_cons]
  dsimp only [exec]
  unfold execTransmitEnd
  rw [whenRunning_running _ _ hheld]
  unfold State.updPort
  rw [upd_congr s.ports seg (g := fun p => { p with txQueue := rest }) 
    (congrArg (fun queue => ({ s.port seg with txQueue := queue } : SegPort)) htail)]

end Sys2Proof.Proofs
end

section
/-! PROOFS. What the silence of a station and the loss of a segment's signal make of the links, the lanes and the uplink (R4, R8,
R19, R20, R35, R174). -/

namespace Sys2Proof.Proofs

open Sys2Proof Sys2Proof.Machine Sys2Proof.Safety Sys2Proof.Laws

/-! ### What the end of a hold may change -/

/-- Two states differ at most in the ports, the stations, the lanes and the uplink. -/
def LinksLanes (s t : State) : Prop :=
  t = { s with ports := t.ports, stations := t.stations, lanes := t.lanes, uplink := t.uplink }

theorem LinksLanes.trans {s t u : State} (h : LinksLanes s t) (k : LinksLanes t u) : LinksLanes s u := by
  unfold LinksLanes at *
  rw [k, h]

theorem linksLanes_endHolds (ix : StationIx) (cause : ModeCause) (L : List LaneId) (s : State) :
    LinksLanes s (L.foldl (State.endHoldOn cause ix) s) := by
  refine foldl_preserves (P := LinksLanes s) (fun t l ht => ht.trans ?_) L rfl
  have hframe := State.endHoldOn_frame cause ix t l
  unfold LinksLanes
  generalize State.endHoldOn cause ix t l = u at hframe ⊢
  cases u
  simp_all

theorem linksLanes_endHold (s : State) (ix : StationIx) (cause : ModeCause) : LinksLanes s (s.endHold ix cause) :=
  linksLanes_endHolds ix cause _ s

/-! ### Pages on a segment that is DOWN -/

theorem pagesOnly_tx {port : Seg → SegPort} {entry : StationIx → Station} {shows : StationIx → Prop} {t : State}
    (h : PagesOnly port entry shows t) (g : Seg) : TxOnly (port g) (t.port g) := by
  obtain ⟨-, -, htx, -⟩ := h
  exact htx g

/-- R7: a port that is DOWN takes no frame. -/
def QuietWhereDown (p q : SegPort) : Prop :=
  q.state = p.state ∧ (p.state = .down → q.txQueue = p.txQueue ∧ q.txSeq = p.txSeq)

theorem QuietWhereDown.trans {p q r : SegPort} (h : QuietWhereDown p q) (k : QuietWhereDown q r) : QuietWhereDown p r := by
  refine ⟨k.1.trans h.1, fun hdown => ?_⟩
  obtain ⟨hqueue, hseq⟩ := h.2 hdown
  obtain ⟨kqueue, kseq⟩ := k.2 (h.1.trans hdown)
  exact ⟨kqueue.trans hqueue, kseq.trans hseq⟩

theorem quiet_handed (p : SegPort) (e : Station) (a : Addr) (kind : TxKind) (payload : List Byte) :
    QuietWhereDown p (handed p e a kind payload).1 := by
  unfold handed
  split
  next htaken => exact ⟨rfl, fun hdown => absurd hdown htaken.1⟩
  next => exact ⟨rfl, fun _ => ⟨rfl, rfl⟩⟩

theorem quiet_offered (limit : Nat) (a : Addr) (g : Page) (x : SegPort × Station) :
    QuietWhereDown x.1 (offered limit a g x).1 := by
  have hsame : QuietWhereDown x.1 x.1 := ⟨rfl, fun _ => ⟨rfl, rfl⟩⟩
  unfold offered
  split
  · exact hsame
  · split
    · exact hsame
    · split
      · exact (quiet_handed _ _ _ _ _).trans (quiet_handed _ _ _ _ _)
      · exact hsame

theorem quiet_offerPage (s : State) (ix : StationIx) (p : Page) (g : Seg) :
    QuietWhereDown (s.port g) ((s.offerPage ix p).port g) := by
  rw [← stationIx_of ix, offerPage_eq, placed_port]
  split
  next hg => exact hg ▸ quiet_offered _ _ _ (linkOf s (segOf ix) (addrOf ix))
  next => exact ⟨rfl, fun _ => ⟨rfl, rfl⟩⟩

theorem quiet_compose (s : State) (l : LaneId) (g : Seg) : QuietWhereDown (s.port g) ((s.compose l).port g) := by
  refine foldl_preserves (P := fun t : State => QuietWhereDown (s.port g) (t.port g)) (fun t ix ht => ?_) _
    ⟨rfl, fun _ => ⟨rfl, rfl⟩⟩
  split
  · exact ht.trans (quiet_offerPage t ix _ g)
  · exact ht

theorem quiet_changeMode (s : State) (l : LaneId) (entered : LaneMode) (cause : ModeCause) (holder : Option StationIx)
    (g : Seg) : QuietWhereDown (s.port g) ((s.changeMode l entered cause holder).port g) := by
  unfold State.changeMode
  dsimp only
  generalize hv : State.offerB _ _ = v
  have hport : v.port g = s.port g := by rw [← hv]; simp
  rw [← hport]
  exact quiet_compose v l g

theorem quiet_endHold (s : State) (ix : StationIx) (cause : ModeCause) (g : Seg) :
    QuietWhereDown (s.port g) ((s.endHold ix cause).port g) := by
  unfold State.endHold
  refine foldl_preserves (P := fun t : State => QuietWhereDown (s.port g) (t.port g)) (fun t l ht => ?_) _
    ⟨rfl, fun _ => ⟨rfl, rfl⟩⟩
  unfold State.endHoldOn
  split
  · exact ht.trans (quiet_changeMode t l _ _ _ g)
  · exact ht

/-! ### The silence of one station -/

theorem stationEvent_eq (s : State) (ix : StationIx) (cause : StationCause) (identity received : Option (BitVec 32)) :
    s.stationEvent ix cause identity received =
      { s with uplink := classB s.uplink (.stationEvent ix cause identity received) } := offerB_eq s _

/-- R174: the channel of a station that becomes SILENT. -/
theorem dropFlight_eq (ch : Option SignChannel) : ch.map SignChannel.dropFlight = faulted ch := by
  cases ch with
  | none => rfl
  | some c =>
    obtain ⟨fault, inFlight, waiting, lastAcked, timer⟩ := c
    cases waiting <;> rfl

/-- R19, R20, R174: an entry becomes SILENT before its hold ends. -/
theorem becomeSilent_eq (s : State) (ix : StationIx) :
    s.becomeSilent ix = (s.updStation ix fun e =>
      { e with silent := true, silenceTimer := none, channel := faulted e.channel }).endHold ix .consoleSilent := by
  unfold State.becomeSilent State.signSilent State.updChannel State.updStation
  dsimp only
  rw [upd_upd]
  simp only [dropFlight_eq]

/-- Settles O11: the entry becomes SILENT (`becomeSilent_eq`), and its hold ends (`endHold_ended`). -/
theorem silenceExpiryEndsTheHold : Obligations.SilenceExpiryEndsTheHold := by
  intro seg addr s hheld ix htimer
  have hexec : exec (.stationSilenceExpiry seg addr) s =
      .next ((s.stationEvent ix .stationSilent none none).becomeSilent ix) := by
    dsimp only [exec]
    unfold execStationSilenceExpiry
    rw [whenRunning_running _ _ hheld]
    dsimp only
    rw [if_pos htimer]
  refine ⟨_, hexec, ?_⟩
  rw [becomeSilent_eq, stationEvent_eq]
  generalize hv : State.updStation _ ix _ = v
  have hstation (j : StationIx) : v.station j = if j = ix then
      { s.station j with silent := true, silenceTimer := none, channel := faulted (s.station j).channel }
      else s.station j := by
    rw [← hv, State.station_updStation]
    split
    next hj => rw [hj]; rfl
    next => rfl
  have hsign (l : LaneId) (j : StationIx) : SignOf v l j ↔ SignOf s l j := by
    unfold SignOf
    rw [hstation]
    split <;> rfl
  obtain ⟨hlanes, huplink, hpages⟩ := endHold_ended v ix .consoleSilent
  have hframe := linksLanes_endHold v ix .consoleSilent
  have hport : v.port = s.port := by rw [← hv]; rfl
  have hlane : v.lane = s.lane := by rw [← hv]; rfl
  simp only [hsign, hport, hlane, funext hstation] at hpages
  refine ⟨?_, hpages, ?_, ?_⟩
  · subst hv
    exact hframe
  · rw [huplink]
    subst hv
    rfl
  · rw [← hlane]
    exact hlanes

/-! ### The loss of a segment's signal -/

/-- R4, R20, R174: an entry of a segment that loses its signal. -/
def silenced (e : Station) : Station :=
  if e.state = .empty then e
  else { e with silent := true, silenceTimer := none, channel := if e.silent then e.channel else faulted e.channel }

/-- R4, R7: the port of a segment that loses its signal. -/
def lostPort (p : SegPort) : SegPort :=
  { p with
    state := .down, signal := false, windowCount := 0, windowTimer := false, txQueue := []
    counters := { p.counters with transmitDrops := bumpBy p.counters.transmitDrops p.txQueue.length } }

theorem silenceStation_eq (seg : Seg) (s : State) (a : Addr) :
    State.silenceStation seg s a = s.updStation (stationIx seg a) silenced := by
  unfold State.silenceStation
  dsimp only
  split
  next hempty =>
    unfold State.updStation
    rw [upd_congr (f := silenced) (g := id) _ _ (if_pos hempty)]
    simp [upd]
  next hmapped =>
    split
    next hsilent =>
      unfold State.updStation
      rw [upd_congr]
      show _ = silenced (s.station (stationIx seg a))
      unfold silenced
      rw [if_neg hmapped, if_pos hsilent]
      rfl
    next hactive =>
      unfold State.signSilent State.updChannel State.updStation
      dsimp only
      rw [upd_upd, upd_congr]
      show _ = silenced (s.station (stationIx seg a))
      unfold silenced
      rw [if_neg hmapped, if_neg hactive]
      simp only [dropFlight_eq]
      rfl

theorem stationIx_injective (seg : Seg) {a b : Addr} (h : stationIx seg a = stationIx seg b) : a = b := by
  rw [← addrOf_stationIx seg a, h, addrOf_stationIx]

/-- The entries of some addresses of a segment changed one after the other: each once, and no other. -/
theorem foldl_updStation (seg : Seg) (f : Station → Station) (L : List Addr) (hnodup : L.Nodup) (s : State) :
    let t := L.foldl (fun s a => s.updStation (stationIx seg a) f) s
    t = { s with stations := t.stations } ∧
    ∀ j, t.station j = if ∃ a ∈ L, j = stationIx seg a then f (s.station j) else s.station j := by
  induction L generalizing s with
  | nil => exact ⟨rfl, fun j => by simp⟩
  | cons a L ih =>
    obtain ⟨hnot, hrest⟩ := List.nodup_cons.1 hnodup
    obtain ⟨hframe, hstation⟩ := ih hrest (s.updStation (stationIx seg a) f)
    refine ⟨hframe, fun j => (hstation j).trans ?_⟩
    rw [State.station_updStation]
    by_cases hj : j = stationIx seg a
    · have hother : ¬ ∃ b ∈ L, j = stationIx seg b := by
        rintro ⟨b, hb, hjb⟩
        exact hnot (stationIx_injective seg (hj.symm.trans hjb) ▸ hb)
      rw [if_neg hother, if_pos hj, if_pos ⟨a, List.mem_cons_self, hj⟩, hj]
    · simp [hj]

/-- R20: the entries of a segment that loses its signal become SILENT. -/
theorem silenceAll_spec (seg : Seg) (s : State) :
    let t := (List.finRange 31).foldl (State.silenceStation seg) s
    t = { s with stations := t.stations } ∧
    ∀ j, t.station j = if segOf j = seg then silenced (s.station j) else s.station j := by
  have hstep : State.silenceStation seg = fun s a => s.updStation (stationIx seg a) silenced :=
    funext fun s => funext fun a => silenceStation_eq seg s a
  have haddr (j : StationIx) : (∃ a ∈ List.finRange 31, j = stationIx seg a) ↔ segOf j = seg := by
    constructor
    · rintro ⟨a, -, rfl⟩
      exact segOf_stationIx seg a
    · rintro rfl
      exact ⟨addrOf j, List.mem_finRange _, (stationIx_of j).symm⟩
  rw [hstep]
  obtain ⟨hframe, hstation⟩ := foldl_updStation seg silenced (List.finRange 31) (List.nodup_finRange 31) s
  exact ⟨hframe, fun j => by rw [hstation, if_congr (haddr j) rfl rfl]⟩

theorem holdsEnded_congr {s t : State} {ix : StationIx}
    (h : ∀ l, ((t.lane l).mode = .manual ∧ (t.lane l).holder = some ix) ↔
      ((s.lane l).mode = .manual ∧ (s.lane l).holder = some ix)) (cause : ModeCause) (u : Uplink) :
    holdsEnded t ix cause u = holdsEnded s ix cause u := by
  unfold holdsEnded
  simp only [h]

theorem foldl_holdsEnded_congr {s t : State} {seg : Seg} {L : List Addr}
    (h : ∀ a ∈ L, ∀ l, ((t.lane l).mode = .manual ∧ (t.lane l).holder = some (stationIx seg a)) ↔
      ((s.lane l).mode = .manual ∧ (s.lane l).holder = some (stationIx seg a))) (u : Uplink) :
    L.foldl (fun u a => holdsEnded t (stationIx seg a) .consoleSilent u) u =
      L.foldl (fun u a => holdsEnded s (stationIx seg a) .consoleSilent u) u :=
  List.foldl_ext _ _ _ fun u a ha => holdsEnded_congr (h a ha) .consoleSilent u

/-- R20, R35: the holds of the consoles of some addresses of a segment ended, in the order of the list. -/
theorem releaseSilent_spec (seg : Seg) (L : List Addr) (hnodup : L.Nodup) (s : State) :
    let held (l : LaneId) : Prop := (s.lane l).mode = .manual ∧ ∃ a ∈ L, (s.lane l).holder = some (stationIx seg a)
    let t := L.foldl (State.releaseSilent seg) s
    (∀ l, t.lane l = if held l then { s.lane l with mode := .suspended, holder := none } else s.lane l) ∧
    t.uplink = L.foldl (fun u a => holdsEnded s (stationIx seg a) .consoleSilent u) s.uplink ∧
    PagesOnly s.port s.station (fun j => ∃ l, held l ∧ SignOf s l j) t ∧ LinksLanes s t ∧
    ∀ g, QuietWhereDown (s.port g) (t.port g) := by
  induction L generalizing s with
  | nil => exact ⟨fun l => by simp, rfl, PagesOnly.refl s _, rfl, fun _ => ⟨rfl, fun _ => ⟨rfl, rfl⟩⟩⟩
  | cons a L ih =>
    intro held t
    obtain ⟨hnot, hrest⟩ := List.nodup_cons.1 hnodup
    obtain ⟨vlane, vuplink, vpages⟩ := endHold_ended s (stationIx seg a) .consoleSilent
    have vframe := linksLanes_endHold s (stationIx seg a) .consoleSilent
    have vquiet := quiet_endHold s (stationIx seg a) .consoleSilent
    have hv : State.releaseSilent seg s a = s.endHold (stationIx seg a) .consoleSilent := by unfold State.releaseSilent; rfl
    generalize s.endHold (stationIx seg a) .consoleSilent = v at hv vlane vuplink vpages vframe vquiet
    have ht : t = L.foldl (State.releaseSilent seg) v := by rw [← hv]; exact List.foldl_cons ..
    obtain ⟨tlane, tuplink, tpages, tframe, tquiet⟩ := ih hrest v
    have hkept : ∀ b ∈ L, ∀ l, ((v.lane l).mode = .manual ∧ (v.lane l).holder = some (stationIx seg b)) ↔
        ((s.lane l).mode = .manual ∧ (s.lane l).holder = some (stationIx seg b)) := by
      intro b hb l
      rw [vlane]
      split
      next hl =>
        have hne : stationIx seg a ≠ stationIx seg b := fun e => hnot (stationIx_injective seg e ▸ hb)
        simp [hl.2, hne]
      next => rfl
    have hheld (l : LaneId) : ((v.lane l).mode = .manual ∧ ∃ b ∈ L, (v.lane l).holder = some (stationIx seg b)) ↔
        ((s.lane l).mode = .manual ∧ ∃ b ∈ L, (s.lane l).holder = some (stationIx seg b)) := by
      constructor
      · rintro ⟨hmode, b, hb, hholder⟩
        obtain ⟨kmode, kholder⟩ := (hkept b hb l).1 ⟨hmode, hholder⟩
        exact ⟨kmode, b, hb, kholder⟩
      · rintro ⟨hmode, b, hb, hholder⟩
        obtain ⟨kmode, kholder⟩ := (hkept b hb l).2 ⟨hmode, hholder⟩
        exact ⟨kmode, b, hb, kholder⟩
    have hcons (l : LaneId) : held l ↔ ((s.lane l).mode = .manual ∧ (s.lane l).holder = some (stationIx seg a)) ∨
        ((s.lane l).mode = .manual ∧ ∃ b ∈ L, (s.lane l).holder = some (stationIx seg b)) := by
      constructor
      · rintro ⟨hmode, b, hb, hholder⟩
        rcases List.mem_cons.1 hb with rfl | hb
        · exact .inl ⟨hmode, hholder⟩
        · exact .inr ⟨hmode, b, hb, hholder⟩
      · rintro (⟨hmode, hholder⟩ | ⟨hmode, b, hb, hholder⟩)
        · exact ⟨hmode, a, List.mem_cons_self, hholder⟩
        · exact ⟨hmode, b, List.mem_cons_of_mem a hb, hholder⟩
    rw [ht]
    refine ⟨fun l => ?_, ?_, ?_, vframe.trans tframe, fun g => (vquiet g).trans (tquiet g)⟩
    · rw [tlane, if_congr (hheld l) rfl rfl]
      by_cases hown : (s.lane l).mode = .manual ∧ (s.lane l).holder = some (stationIx seg a)
      · rw [(vlane l).trans (if_pos hown), if_pos ((hcons l).2 (.inl hown))]
        split <;> rfl
      · rw [(vlane l).trans (if_neg hown), if_congr ((hcons l).trans (or_iff_right hown)) rfl rfl]
    · rw [tuplink, foldl_holdsEnded_congr hkept, vuplink]
      rfl
    · refine PagesOnly.trans (PagesOnly.mono vpages ?_) tpages ?_
      · rintro j ⟨l, hl, hj⟩
        exact ⟨l, (hcons l).2 (.inl hl), hj⟩
      · rintro j ⟨l, hl, hj⟩
        exact ⟨l, (hcons l).2 (.inr ((hheld l).1 hl)), (SignOf_kept vpages l j).1 hj⟩

/-- R4: what a segment's loss of signal makes of the state before any station or lane acts. -/
theorem lostState_eq (s : State) (seg : Seg) :
    (s.enterSeg seg .down).updPort seg (fun p =>
      { p with
        signal := false, windowCount := 0, windowTimer := false, txQueue := []
        counters := { p.counters with transmitDrops := bumpBy p.counters.transmitDrops p.txQueue.length } }) =
      { s with
        ports := upd s.ports seg lostPort
        uplink := classB s.uplink (.segmentEvent seg (some (s.port seg).state) .down (s.port seg).windowCount) } := by
  rw [enterSeg_eq]
  unfold State.updPort
  dsimp only
  rw [upd_upd]
  rfl

theorem silenced_sign (e : Station) :
    (silenced e).state = e.state ∧ (silenced e).role = e.role ∧ (silenced e).lane = e.lane := by
  unfold silenced
  split <;> exact ⟨rfl, rfl, rfl⟩

/-- R4, R7, R8, R20, R35: what a segment's loss of signal leaves. -/
theorem loseSignal_spec (s : State) (seg : Seg) :
    let t := s.loseSignal seg
    let held (l : LaneId) : Prop := (s.lane l).mode = .manual ∧ ∃ a : Addr, (s.lane l).holder = some (stationIx seg a)
    LinksLanes s t ∧ QuietWhereDown (lostPort (s.port seg)) (t.port seg) ∧
    t.uplink = (List.finRange 31).foldl (fun u a => holdsEnded s (stationIx seg a) .consoleSilent u)
      (classB s.uplink (.segmentEvent seg (some (s.port seg).state) .down (s.port seg).windowCount)) ∧
    (∀ l : LaneId, t.lane l = if held l then { s.lane l with mode := .suspended, holder := none } else s.lane l) ∧
    PagesOnly (fun g => if g = seg then lostPort (s.port seg) else s.port g)
      (fun j => if segOf j = seg then silenced (s.station j) else s.station j) (fun j => ∃ l, held l ∧ SignOf s l j) t := by
  intro t held
  have ht : t = (List.finRange 31).foldl (State.releaseSilent seg) ((List.finRange 31).foldl (State.silenceStation seg)
      { s with
        ports := upd s.ports seg lostPort
        uplink := classB s.uplink (.segmentEvent seg (some (s.port seg).state) .down (s.port seg).windowCount) }) := by
    rw [← lostState_eq]
    rfl
  obtain ⟨hframe, hstation⟩ := silenceAll_spec seg { s with
    ports := upd s.ports seg lostPort
    uplink := classB s.uplink (.segmentEvent seg (some (s.port seg).state) .down (s.port seg).windowCount) }
  generalize (List.finRange 31).foldl (State.silenceStation seg) _ = v at ht hframe hstation
  have hport : v.port = fun g => if g = seg then lostPort (s.port seg) else s.port g := by
    rw [hframe]
    exact funext fun g => State.port_updPort s seg lostPort g
  have hlane : v.lane = s.lane := by rw [hframe]; rfl
  have huplink : v.uplink = classB s.uplink (.segmentEvent seg (some (s.port seg).state) .down (s.port seg).windowCount) := by
    rw [hframe]
  have hentry : v.station = fun j => if segOf j = seg then silenced (s.station j) else s.station j := funext hstation
  have hsign (l : LaneId) (j : StationIx) : SignOf v l j ↔ SignOf s l j := by
    obtain ⟨hstate, hrole, hin⟩ := silenced_sign (s.station j)
    unfold SignOf
    rw [hentry]
    dsimp only
    split
    · rw [hstate, hrole, hin]
    · rfl
  obtain ⟨tlane, tuplink, tpages, tframe, tquiet⟩ := releaseSilent_spec seg (List.finRange 31) (List.nodup_finRange 31) v
  rw [← ht] at tlane tuplink tpages tframe tquiet
  simp only [List.mem_finRange, true_and, hlane, hsign, hport, hentry] at tlane tpages tquiet
  refine ⟨?_, ?_, ?_, tlane, tpages⟩
  · refine LinksLanes.trans ?_ tframe
    unfold LinksLanes
    rw [hframe]
  · have := tquiet seg
    rwa [if_pos rfl] at this
  · have hends := foldl_holdsEnded_congr (s := s) (t := v) (seg := seg) (L := List.finRange 31) fun a _ l => by rw [hlane]
    rw [tuplink, huplink, hends]

theorem loseSignal_down (s : State) (seg : Seg) : ((s.loseSignal seg).port seg).state = .down := by
  obtain ⟨-, hquiet, -⟩ := loseSignal_spec s seg
  exact hquiet.1

/-- Settles O7: the rise and the expiry by their equations; a frame counted under a threshold of 0 by `countPort_windowRise`. -/
theorem errorWindowMovesTheSegment : Obligations.ErrorWindowMovesTheSegment := by
  intro seg s p t n
  refine ⟨windowRise_eq s seg, exec_errorWindowExpiry seg s, fun hheld himpaired => ?_, ?_⟩
  · have hsignal : (s.port seg).state ≠ .down := by
      rw [show (s.port seg).state = .impaired from himpaired]
      decide
    exact ⟨_, exec_signalLoss seg s hheld hsignal, loseSignal_down s seg⟩
  · intro bytes hheld hsignal hzero counted
    rw [exec_laneFrameReceived seg bytes s hheld hsignal]
    unfold State.receive
    refine ⟨fun hcheck => ?_, fun f hcheck hfull => ?_⟩
    · rw [hcheck]
      exact congrArg _ (countPort_windowRise s seg (fun c => { c with crcErrors := bump c.crcErrors }) hzero)
    · rw [hcheck]
      exact congrArg _ ((if_neg (Nat.not_lt.2 hfull)).trans
        (countPort_windowRise s seg (fun c => { c with overruns := bump c.overruns }) hzero))

/-- Settles O10: `loseSignal_spec`, and the equations of the two other commands. The lost port is DOWN, so no page composed for a
hold that ends joins its transmit queue. -/
theorem signalAndSendingMoveTheSegment : Obligations.SignalAndSendingMoveTheSegment := by
  refine ⟨fun seg s hheld hsignal => ⟨_, exec_signalLoss seg s hheld hsignal, ?_⟩, fun seg s hheld =>
    ⟨exec_signalDetect seg s hheld, exec_transmitEnd seg s hheld⟩⟩
  obtain ⟨hframe, hquiet, huplink, hlane, hpages⟩ := loseSignal_spec s seg
  obtain ⟨hqueue, hseq⟩ := hquiet.2 rfl
  have hport : TxOnly (lostPort (s.port seg)) ((s.loseSignal seg).port seg) := by
    have htx := pagesOnly_tx hpages seg
    rwa [if_pos rfl] at htx
  refine ⟨hframe, hquiet.1, ?_, ?_, ?_, hqueue, ?_, ?_, hseq, huplink, hlane, hpages⟩
  all_goals
    rw [hport]
    rfl

end Sys2Proof.Proofs
end

section
/-! PROOFS. A lane frame taken from a receive queue (R2, R3, R11 to R19, R173): the part while the station map acts on it, and
what the frame leaves of the links where the map's act stays on the frame's port, its sender's entry and the uplink. -/

namespace Sys2Proof.Proofs

open Sys2Proof Sys2Proof.Machine Sys2Proof.Safety Sys2Proof.Laws

/-! ### The link of a frame -/

/-- A state with the port of a segment, the entry of one of its addresses, and the uplink port replaced. -/
def linked (s : State) (g : Seg) (a : Addr) (x : SegPort × Station) (u : Uplink) : State :=
  { placed s g a x with uplink := u }

theorem linked_port (s : State) (g : Seg) (a : Addr) (x : SegPort × Station) (u : Uplink) (h : Seg) :
    (linked s g a x u).port h = if h = g then x.1 else s.port h := placed_port s g a x h

theorem linked_station (s : State) (g : Seg) (a : Addr) (x : SegPort × Station) (u : Uplink) (j : StationIx) :
    (linked s g a x u).station j = if j = stationIx g a then x.2 else s.station j := placed_station s g a x j

theorem linkOf_linked (s : State) (g : Seg) (a : Addr) (x : SegPort × Station) (u : Uplink) :
    linkOf (linked s g a x u) g a = x := linkOf_placed s g a x

theorem placed_linked (s : State) (g : Seg) (a : Addr) (x y : SegPort × Station) (u : Uplink) :
    placed (linked s g a x u) g a y = linked s g a y u := by
  unfold linked placed
  simp

theorem linked_updPort (s : State) (g : Seg) (a : Addr) (x : SegPort × Station) (u : Uplink) (f : SegPort → SegPort) :
    (linked s g a x u).updPort g f = linked s g a (f x.1, x.2) u := by
  rw [updPort_placed _ g a, placed_linked, linked_port, linked_station, if_pos rfl, if_pos rfl]

theorem linked_updStation (s : State) (g : Seg) (a : Addr) (x : SegPort × Station) (u : Uplink) (f : Station → Station) :
    (linked s g a x u).updStation (stationIx g a) f = linked s g a (x.1, f x.2) u := by
  rw [updStation_placed, placed_linked, linked_port, linked_station, if_pos rfl, if_pos rfl]

theorem linked_offerB (s : State) (g : Seg) (a : Addr) (x : SegPort × Station) (u : Uplink) (r : Report) :
    (linked s g a x u).offerB r = linked s g a x (classB u r) := offerB_eq _ r

/-! ### A frame heard -/

/-- R3, R19: the part once a frame that is no duplicate is taken from its queue and heard. -/
def heardState (s : State) (seg : Seg) (f : RxFrame) : State :=
  linked s seg f.src (takenPort s seg f, heardEntry s seg f)
    (if (sender s seg f).state = .empty then s.uplink else heardUplink s seg f)

/-- The frame as the station map takes it. -/
def takenFrame (s : State) (seg : Seg) (f : RxFrame) : Taken := ⟨seg, stationIx seg f.src, heardEntry s seg f, f⟩

theorem heardEntry_eq (s : State) (seg : Seg) (f : RxFrame) :
    heardEntry s seg f = { sender s seg f with
      silent := (heardEntry s seg f).silent, silenceTimer := (heardEntry s seg f).silenceTimer } := by
  unfold heardEntry
  dsimp only
  split <;> rfl

@[simp] theorem heardEntry_state (s : State) (seg : Seg) (f : RxFrame) :
    (heardEntry s seg f).state = (sender s seg f).state := by rw [heardEntry_eq]
@[simp] theorem heardEntry_mismatched (s : State) (seg : Seg) (f : RxFrame) :
    (heardEntry s seg f).mismatched = (sender s seg f).mismatched := by rw [heardEntry_eq]
@[simp] theorem heardEntry_role (s : State) (seg : Seg) (f : RxFrame) :
    (heardEntry s seg f).role = (sender s seg f).role := by rw [heardEntry_eq]
@[simp] theorem heardEntry_lane (s : State) (seg : Seg) (f : RxFrame) :
    (heardEntry s seg f).lane = (sender s seg f).lane := by rw [heardEntry_eq]
@[simp] theorem heardEntry_forward (s : State) (seg : Seg) (f : RxFrame) :
    (heardEntry s seg f).forward = (sender s seg f).forward := by rw [heardEntry_eq]
@[simp] theorem heardEntry_identity (s : State) (seg : Seg) (f : RxFrame) :
    (heardEntry s seg f).identity = (sender s seg f).identity := by rw [heardEntry_eq]

/-- R14: the uplink port with the forward flag's PASS_FRAME. -/
theorem forwardedUplink_eq (s : State) (seg : Seg) (f : RxFrame) (x : SegPort × Station) :
    (if (takenFrame s seg f).entry.forward = true then
        (linked s seg f.src x (heardUplink s seg f)).passFrame (takenFrame s seg f)
      else linked s seg f.src x (heardUplink s seg f)) =
      linked s seg f.src x (forwardedUplink s seg f) := by
  have hforward : (takenFrame s seg f).entry.forward = (sender s seg f).forward := heardEntry_forward s seg f
  unfold forwardedUplink State.passFrame
  rw [linked_offerB, hforward]
  split <;> rfl

/-- R2, R3, R19, R173: a frame taken on which the station map's act stays on the frame's port, its sender's entry and the uplink
port: the links are as `LinkOnly` says, and nothing else changes. -/
theorem takeFrame_acts {s : State} {seg : Seg} {f : RxFrame} {rest : List RxFrame} {consume : State → Taken → State}
    {act : SegPort × Station → SegPort × Station} {u : Uplink} (hhead : AtHead s seg f rest)
    (hfresh : (s.port seg).seqRecord[f.src] ≠ some f.seq ∨ f.msg.kind = .hello)
    (hmap : (heardState s seg f).mapFrame (takenFrame s seg f) consume =
      linked s seg f.src (act (takenPort s seg f, heardEntry s seg f)) u) :
    let t := s.takeFrame seg f.msg.kind consume
    LinkOnly s t seg f act ∧ t = { s with ports := t.ports, stations := t.stations, uplink := u } := by
  obtain ⟨-, hqueue⟩ := hhead
  have htake : s.takeFrame seg f.msg.kind consume =
      ((heardState s seg f).mapFrame (takenFrame s seg f) consume).signHearing (stationIx seg f.src) :=
    takeFrame_eq s seg f rest consume hqueue hfresh
  refine ⟨takeFrame_linkOnly s seg f rest consume act hqueue hfresh ?_, ?_⟩
  · show ((heardState s seg f).mapFrame (takenFrame s seg f) consume).ports = _ ∧
      ((heardState s seg f).mapFrame (takenFrame s seg f) consume).stations = _ ∧
      ((heardState s seg f).mapFrame (takenFrame s seg f) consume).params = _
    rw [hmap]
    exact ⟨rfl, rfl, rfl⟩
  · rw [htake, hmap, signHearing_eq]
    rfl

/-- R2: the command of a frame's kind takes it. -/
theorem exec_atHead {s : State} {seg : Seg} {f : RxFrame} {rest : List RxFrame} (hhead : AtHead s seg f rest) :
    exec (frameCommand f.msg.kind seg) s = .next (s.takeFrame seg f.msg.kind (consumer f.msg.kind)) := by
  rw [exec_frameCommand, whenRunning_running _ _ hhead.1]

/-! ### The decisions of the station map -/

section Decisions

variable (s : State) (seg : Seg) (f : RxFrame) (consume : State → Taken → State)

/-- R12: a frame of an unmapped station. -/
theorem mapFrame_unmapped (hempty : (sender s seg f).state = .empty) :
    (heardState s seg f).mapFrame (takenFrame s seg f) consume =
      linked s seg f.src
        (if s.params.passUnmapped then takenPort s seg f
          else { takenPort s seg f with counters := { (takenPort s seg f).counters with
            unmappedDropped := bump (takenPort s seg f).counters.unmappedDropped } }, heardEntry s seg f)
        (if s.params.passUnmapped then classB s.uplink (.passFrame seg f.src f.bytes) else s.uplink) := by
  unfold State.mapFrame takenFrame heardState
  dsimp only
  rw [heardEntry_state, if_pos hempty, if_pos hempty]
  by_cases hpass : s.params.passUnmapped = true
  · rw [if_pos hpass, if_pos hpass]
    exact (if_pos hpass).trans (linked_offerB _ _ _ _ _ _)
  · rw [if_neg hpass, if_neg hpass]
    exact (if_neg hpass).trans (linked_updPort _ _ _ _ _ _)

/-- R18: a frame other than a HELLO that its identity refuses. -/
theorem mapFrame_refused (hfrozen : (sender s seg f).state = .frozen) (hmismatched : (sender s seg f).mismatched = true)
    (hkind : f.msg.kind ≠ .hello) :
    (heardState s seg f).mapFrame (takenFrame s seg f) consume =
      linked s seg f.src
        (takenPort s seg f, { heardEntry s seg f with mismatchCount := bump (heardEntry s seg f).mismatchCount })
        (heardUplink s seg f) := by
  have hmapped : (sender s seg f).state ≠ .empty := by rw [hfrozen]; decide
  have hheard : (heardEntry s seg f).state ≠ .empty := heardEntry_state s seg f ▸ hmapped
  have hrefused : State.identityRefuses (heardEntry s seg f) f.msg = true := by
    unfold State.identityRefuses
    rw [heardEntry_state, heardEntry_mismatched, hfrozen, hmismatched]
    cases hm : f.msg with
    | hello i => exact absurd (congrArg LaneMsg.kind hm) hkind
    | _ => rfl
  unfold State.mapFrame takenFrame heardState
  dsimp only
  rw [if_neg hheard, if_neg hmapped, if_pos hrefused]
  split
  next i hm => exact absurd (congrArg LaneMsg.kind hm) hkind
  next =>
    unfold State.refuseIdentity
    exact linked_updStation s seg f.src _ _ fun e => { e with mismatchCount := bump e.mismatchCount }

/-- R13 to R15: a frame that its identity allows. -/
theorem mapFrame_allowed (hmapped : (sender s seg f).state ≠ .empty)
    (hidentity : State.identityRefuses (heardEntry s seg f) f.msg = false) :
    (heardState s seg f).mapFrame (takenFrame s seg f) consume =
      (linked s seg f.src (takenPort s seg f, heardEntry s seg f) (heardUplink s seg f)).takeAllowed (takenFrame s seg f)
        consume := by
  unfold State.mapFrame takenFrame heardState
  dsimp only
  rw [heardEntry_state, if_neg hmapped, if_neg hmapped, hidentity]
  rfl

theorem identity_allows (hmismatched : (sender s seg f).mismatched = false) (hkind : f.msg.kind ≠ .hello) :
    State.identityRefuses (heardEntry s seg f) f.msg = false := by
  unfold State.identityRefuses
  rw [heardEntry_mismatched, hmismatched]
  cases hm : f.msg with
  | hello i => exact absurd (congrArg LaneMsg.kind hm) hkind
  | _ => exact Bool.and_false _

/-- R13: a kind that does not match the role. -/
theorem takeAllowed_role (hrole : (sender s seg f).role.accepts f.msg.kind = false) :
    (linked s seg f.src (takenPort s seg f, heardEntry s seg f) (heardUplink s seg f)).takeAllowed (takenFrame s seg f)
        consume =
      linked s seg f.src
        ({ takenPort s seg f with counters := { (takenPort s seg f).counters with
          roleRefusals := bump (takenPort s seg f).counters.roleRefusals } }, heardEntry s seg f)
        (forwardedUplink s seg f) := by
  have haccepts : ¬ (takenFrame s seg f).entry.role.accepts (takenFrame s seg f).frame.msg.kind = true :=
    Bool.eq_false_iff.1 ((congrArg (Role.accepts · f.msg.kind) (heardEntry_role s seg f)).trans hrole)
  have hcounted := linked_updPort s seg f.src (takenPort s seg f, heardEntry s seg f) (heardUplink s seg f)
    fun p => { p with counters := { p.counters with roleRefusals := bump p.counters.roleRefusals } }
  unfold State.takeAllowed State.countPort
  dsimp only
  rw [if_neg haccepts]
  refine Eq.trans ?_ (forwardedUplink_eq s seg f _)
  rw [← hcounted]
  rfl

/-- R14: a reading frame of a lane in MANUAL. -/
theorem takeAllowed_manual (hrole : (sender s seg f).role.accepts f.msg.kind = true) (hreading : f.msg.kind.isReading = true)
    (hmanual : (s.lane (sender s seg f).lane).mode = .manual) :
    (linked s seg f.src (takenPort s seg f, heardEntry s seg f) (heardUplink s seg f)).takeAllowed (takenFrame s seg f)
        consume =
      linked s seg f.src (takenPort s seg f, heardEntry s seg f)
        (classB (heardUplink s seg f) (.passFrame seg f.src f.bytes)) := by
  have haccepts : (takenFrame s seg f).entry.role.accepts (takenFrame s seg f).frame.msg.kind = true :=
    (congrArg (Role.accepts · f.msg.kind) (heardEntry_role s seg f)).trans hrole
  have hmode : (s.lane (takenFrame s seg f).entry.lane).mode = .manual :=
    (congrArg (fun l => (s.lane l).mode) (heardEntry_lane s seg f)).trans hmanual
  unfold State.takeAllowed
  dsimp only
  rw [if_pos haccepts]
  refine (if_pos ?_).trans (linked_offerB _ _ _ _ _ _)
  exact Bool.and_eq_true_iff.2 ⟨hreading, beq_iff_eq.2 hmode⟩

/-- R14, R15: a frame of no reading kind consumed, copied upstream for the forward flag. -/
theorem takeAllowed_consumed (hrole : (sender s seg f).role.accepts f.msg.kind = true)
    (hreading : f.msg.kind.isReading = false) :
    (linked s seg f.src (takenPort s seg f, heardEntry s seg f) (heardUplink s seg f)).takeAllowed (takenFrame s seg f)
        consume =
      consume (linked s seg f.src (takenPort s seg f, heardEntry s seg f) (forwardedUplink s seg f)) (takenFrame s seg f) := by
  have haccepts : (takenFrame s seg f).entry.role.accepts (takenFrame s seg f).frame.msg.kind = true :=
    (congrArg (Role.accepts · f.msg.kind) (heardEntry_role s seg f)).trans hrole
  have hother : (takenFrame s seg f).frame.msg.kind.isReading = false := hreading
  rw [← forwardedUplink_eq]
  unfold State.takeAllowed
  dsimp only
  rw [if_pos haccepts, hother]
  rfl

end Decisions

/-- Settles O15: each refusal is one decision of the station map, and `takeFrame_acts` carries it to the frame's command. -/
theorem refusedFramesReachNoBlock : Obligations.RefusedFramesReachNoBlock := by
  refine ⟨accepts_iff, ?_⟩
  intro seg s f rest hhead e fresh
  refine ⟨fun hfresh hmapped hmismatched hkind => ?_, fun hfresh hempty => ?_, fun hfresh hfrozen hmismatched hkind => ?_⟩
  · have hallowed := mapFrame_allowed s seg f (consumer f.msg.kind) hmapped (identity_allows s seg f hmismatched hkind)
    refine ⟨fun hrole => ⟨_, exec_atHead hhead, ?_⟩, fun hrole hreading hmanual => ⟨_, exec_atHead hhead, ?_⟩⟩
    · exact takeFrame_acts hhead (.inl hfresh) (hallowed.trans (takeAllowed_role s seg f _ hrole))
    · exact takeFrame_acts hhead (.inl hfresh) (hallowed.trans (takeAllowed_manual s seg f _ hrole hreading hmanual))
  · exact ⟨_, exec_atHead hhead, takeFrame_acts hhead hfresh (mapFrame_unmapped s seg f _ hempty)⟩
  · exact ⟨_, exec_atHead hhead, takeFrame_acts hhead (.inl hfresh) (mapFrame_refused s seg f _ hfrozen hmismatched hkind)⟩

end Sys2Proof.Proofs
end

section
/-! PROOFS. A STATION_HELLO and a STATION_STATUS from a mapped station (R16 to R19). -/

namespace Sys2Proof.Proofs

open Sys2Proof Sys2Proof.Machine Sys2Proof.Safety Sys2Proof.Laws

section Hello

variable {s : State} {seg : Seg} {f : RxFrame} {i : BitVec 32}

/-- R16, R17: a HELLO that the identity of its mapped station allows is consumed: every role takes it. -/
theorem mapFrame_hello (hmsg : f.msg = .hello i) (hmapped : (sender s seg f).state ≠ .empty)
    (hidentity : (sender s seg f).state = .frozen → (sender s seg f).identity = some i) :
    (heardState s seg f).mapFrame (takenFrame s seg f) State.helloTaken =
      (linked s seg f.src (takenPort s seg f, heardEntry s seg f) (forwardedUplink s seg f)).helloTaken
        (takenFrame s seg f) := by
  have hkind : f.msg.kind = .hello := by rw [hmsg]; rfl
  have hallows : State.identityRefuses (heardEntry s seg f) f.msg = false := by
    unfold State.identityRefuses
    rw [heardEntry_state, heardEntry_identity, hmsg]
    cases hstate : (sender s seg f).state with
    | empty => rfl
    | learn => rfl
    | frozen => simp [hidentity hstate]
  rw [mapFrame_allowed s seg f _ hmapped hallows]
  exact takeAllowed_consumed s seg f _ ((accepts_iff _ _).2 (.inl hkind)) (by rw [hkind]; rfl)

/-- R16: in LEARN the identity is taken, and reported where it is new. -/
theorem helloTaken_learn (hmsg : f.msg = .hello i) (hlearn : (sender s seg f).state = .learn) (p : SegPort) (u : Uplink) :
    (linked s seg f.src (p, heardEntry s seg f) u).helloTaken (takenFrame s seg f) =
      linked s seg f.src (p, { heardEntry s seg f with identity := some i })
        (if (sender s seg f).identity = some i then u
          else classB u (.stationEvent (stationIx seg f.src) .identityLearned (some i) none)) := by
  have hstate : (takenFrame s seg f).entry.state = .learn := (heardEntry_state s seg f).trans hlearn
  have hidentity : (takenFrame s seg f).entry.identity = (sender s seg f).identity := heardEntry_identity s seg f
  unfold State.helloTaken
  rw [show (takenFrame s seg f).frame.msg = .hello i from hmsg]
  dsimp only
  rw [hstate, hidentity]
  dsimp only
  split
  next hknown =>
    have hsame : { heardEntry s seg f with identity := some i } = heardEntry s seg f := by
      rw [← hknown, ← heardEntry_identity]
    rw [hsame]
  next =>
    unfold State.stationEvent
    rw [show (takenFrame s seg f).ix = stationIx seg f.src from rfl, linked_updStation, linked_offerB]

/-- R17: in FROZEN the frozen identity restores a MISMATCHED entry. -/
theorem helloTaken_frozen (hmsg : f.msg = .hello i) (hfrozen : (sender s seg f).state = .frozen) (p : SegPort) (u : Uplink) :
    (linked s seg f.src (p, heardEntry s seg f) u).helloTaken (takenFrame s seg f) =
      linked s seg f.src (p, { heardEntry s seg f with mismatched := false })
        (if (sender s seg f).mismatched then
            classB u (.stationEvent (stationIx seg f.src) .identityRestored none none) else u) := by
  have hstate : (takenFrame s seg f).entry.state = .frozen := (heardEntry_state s seg f).trans hfrozen
  have hmismatched : (takenFrame s seg f).entry.mismatched = (sender s seg f).mismatched := heardEntry_mismatched s seg f
  unfold State.helloTaken
  rw [show (takenFrame s seg f).frame.msg = .hello i from hmsg]
  dsimp only
  rw [hstate, hmismatched]
  dsimp only
  split
  next =>
    unfold State.stationEvent
    rw [show (takenFrame s seg f).ix = stationIx seg f.src from rfl, linked_updStation, linked_offerB]
  next hmatched =>
    have hsame : { heardEntry s seg f with mismatched := false } = heardEntry s seg f := by
      rw [← Bool.eq_false_iff.2 hmatched, ← heardEntry_mismatched]
    rw [hsame]

/-- R17, R18: in FROZEN another identity is refused, counted and, at the first, reported. -/
theorem mapFrame_mismatch (consume : State → Taken → State) (hmsg : f.msg = .hello i)
    (hfrozen : (sender s seg f).state = .frozen) (hother : (sender s seg f).identity ≠ some i) :
    (heardState s seg f).mapFrame (takenFrame s seg f) consume =
      linked s seg f.src
        (takenPort s seg f, { heardEntry s seg f with
          mismatched := true, mismatchCount := bump (heardEntry s seg f).mismatchCount })
        (if (sender s seg f).mismatched then heardUplink s seg f
          else classB (heardUplink s seg f)
            (.stationEvent (stationIx seg f.src) .identityMismatch (sender s seg f).identity (some i))) := by
  have hmapped : (sender s seg f).state ≠ .empty := by rw [hfrozen]; decide
  have hheard : (takenFrame s seg f).entry.state ≠ .empty := by
    rw [show (takenFrame s seg f).entry.state = (sender s seg f).state from heardEntry_state s seg f]
    exact hmapped
  have hrefused : State.identityRefuses (takenFrame s seg f).entry (takenFrame s seg f).frame.msg = true := by
    show State.identityRefuses (heardEntry s seg f) f.msg = true
    unfold State.identityRefuses
    rw [heardEntry_state, heardEntry_identity, hmsg, hfrozen]
    simp [hother]
  have hmismatched : (takenFrame s seg f).entry.mismatched = (sender s seg f).mismatched := heardEntry_mismatched s seg f
  have hcounted := linked_updStation s seg f.src (takenPort s seg f, heardEntry s seg f) (heardUplink s seg f)
    fun e => { e with mismatchCount := bump e.mismatchCount }
  unfold State.mapFrame heardState
  rw [if_neg hheard, if_pos hrefused, if_neg hmapped, show (takenFrame s seg f).frame.msg = .hello i from hmsg]
  dsimp only
  unfold State.helloMismatch State.refuseIdentity
  rw [show (takenFrame s seg f).ix = stationIx seg f.src from rfl, hcounted, hmismatched]
  dsimp only
  split
  next hmis =>
    have hsame : { heardEntry s seg f with mismatched := true, mismatchCount := bump (heardEntry s seg f).mismatchCount } =
        { heardEntry s seg f with mismatchCount := bump (heardEntry s seg f).mismatchCount } := by
      rw [← hmis, ← heardEntry_mismatched]
    rw [hsame]
  next =>
    unfold State.stationEvent
    rw [linked_updStation, linked_offerB, show (takenFrame s seg f).entry.identity = (sender s seg f).identity from
      heardEntry_identity s seg f]

end Hello

/-- R19: a STATION_STATUS consumed is heard and no more. -/
theorem mapFrame_status {s : State} {seg : Seg} {f : RxFrame} {rest : List RxFrame} (hmsg : f.msg = .status)
    (hconsumed : Consumed s seg f rest) :
    (heardState s seg f).mapFrame (takenFrame s seg f) (fun s _ => s) =
      linked s seg f.src (takenPort s seg f, heardEntry s seg f) (forwardedUplink s seg f) := by
  have hkind : f.msg.kind = .status := by rw [hmsg]; rfl
  obtain ⟨-, -, hmapped, hmatched, hrole, -⟩ := hconsumed
  rw [mapFrame_allowed s seg f _ hmapped (identity_allows s seg f hmatched (by rw [hkind]; decide))]
  exact takeAllowed_consumed s seg f _ hrole (by rw [hkind]; rfl)

/-- A state whose uplink port is given, and that else differs in the ports and the stations alone. -/
theorem uplink_of_frame {s t : State} {u : Uplink}
    (h : t = { s with ports := t.ports, stations := t.stations, uplink := u }) :
    t = { s with ports := t.ports, stations := t.stations, uplink := t.uplink } ∧ t.uplink = u := by
  have huplink : t.uplink = u := congrArg State.uplink h
  exact ⟨huplink.symm ▸ h, huplink⟩

/-- Settles O9: in each case the station map's act stays on the entry and the uplink (`takeFrame_acts`). -/
theorem helloAndStatusAreHeard : Obligations.HelloAndStatusAreHeard := by
  intro seg s f rest hhead ix e u hmapped
  refine ⟨fun i hmsg => ?_, fun hmsg hconsumed => ?_⟩
  · have hkind : f.msg.kind = .hello := by rw [hmsg]; rfl
    have hexec := exec_atHead hhead
    have hacts {act : SegPort × Station → SegPort × Station} {v : Uplink} :=
      takeFrame_acts (consume := State.helloTaken) (act := act) (u := v) hhead (.inr hkind)
    rw [hkind] at hexec hacts
    refine ⟨_, hexec, ?_⟩
    cases hstate : e.state with
    | empty => exact absurd hstate hmapped
    | learn =>
      obtain ⟨hlinks, hframe⟩ := hacts (act := fun x => (x.1, { x.2 with identity := some i }))
        ((mapFrame_hello hmsg hmapped fun h => absurd (hstate.symm.trans h) (by decide)).trans
          (helloTaken_learn hmsg hstate _ _))
      obtain ⟨hrest, huplink⟩ := uplink_of_frame hframe
      exact ⟨hrest, fun _ => ⟨hlinks, huplink⟩, by simp, by simp⟩
    | frozen =>
      by_cases hsame : e.identity = some i
      · obtain ⟨hlinks, hframe⟩ := hacts (act := fun x => (x.1, { x.2 with mismatched := false }))
          ((mapFrame_hello hmsg hmapped fun _ => hsame).trans (helloTaken_frozen hmsg hstate _ _))
        obtain ⟨hrest, huplink⟩ := uplink_of_frame hframe
        exact ⟨hrest, by simp, fun _ _ => ⟨hlinks, huplink⟩, fun _ hother => absurd hsame hother⟩
      · obtain ⟨hlinks, hframe⟩ := hacts
          (act := fun x => (x.1, { x.2 with mismatched := true, mismatchCount := bump x.2.mismatchCount }))
          (mapFrame_mismatch _ hmsg hstate hsame)
        obtain ⟨hrest, huplink⟩ := uplink_of_frame hframe
        exact ⟨hrest, by simp, fun _ h => absurd h hsame, fun _ _ => ⟨hlinks, huplink⟩⟩
  · have hkind : f.msg.kind = .status := by rw [hmsg]; rfl
    have hexec := exec_atHead hhead
    have hfresh : (s.port seg).seqRecord[f.src] ≠ some f.seq := by
      obtain ⟨-, h, -⟩ := hconsumed
      exact h
    have hacts := takeFrame_acts (act := fun x => x) (u := u) hhead (.inl hfresh) (mapFrame_status hmsg hconsumed)
    rw [hkind] at hexec hacts
    exact ⟨_, hexec, hacts⟩

end Sys2Proof.Proofs
end

section
/-! PROOFS. The SEQUENCE CHECK (R2, R3, R19, R173): what a duplicate leaves, and what any frame leaves of its port's queue, record
and counters, whatever its consumption does. -/

namespace Sys2Proof.Proofs

open Sys2Proof Sys2Proof.Machine Sys2Proof.Safety Sys2Proof.Laws

/-! ### What no consumption of a frame changes of a port -/

/-- Two ports agree in the receive queue, the sequence record and the counters of the SEQUENCE CHECK. -/
structure SameCheck (p q : SegPort) : Prop where
  rxQueue : q.rxQueue = p.rxQueue
  seqRecord : q.seqRecord = p.seqRecord
  duplicates : q.counters.duplicates = p.counters.duplicates
  sequenceErrors : q.counters.sequenceErrors = p.counters.sequenceErrors

theorem SameCheck.refl (p : SegPort) : SameCheck p p := ⟨rfl, rfl, rfl, rfl⟩

theorem SameCheck.trans {p q r : SegPort} (h : SameCheck p q) (k : SameCheck q r) : SameCheck p r :=
  ⟨k.rxQueue.trans h.rxQueue, k.seqRecord.trans h.seqRecord, k.duplicates.trans h.duplicates,
    k.sequenceErrors.trans h.sequenceErrors⟩

theorem sameCheck_of_tx {p q : SegPort} (h : TxOnly p q) : SameCheck p q := by
  unfold TxOnly at h
  rw [h]
  exact ⟨rfl, rfl, rfl, rfl⟩

theorem sameCheck_updPort {p : SegPort} {s : State} {g : Seg} (h : SameCheck p (s.port g)) (seg : Seg)
    {f : SegPort → SegPort} (hf : ∀ q, SameCheck q (f q)) : SameCheck p ((s.updPort seg f).port g) := by
  rw [State.port_updPort]
  split
  next hg => exact (hg ▸ h).trans (hf _)
  next => exact h

theorem sameCheck_invariant (p : SegPort) (g : Seg) : PortInvariant fun t => SameCheck p (t.port g) where
  of_same h hports _ := by
    unfold State.port at *
    rw [hports]
    exact h
  keeps_accept h _ r := by simpa using h
  keeps_offerB h r := by simpa using h
  keeps_handOff {s} h seg addr kind payload := by
    rw [handOff_eq, placed_port]
    split
    next hg => exact (hg ▸ h).trans (sameCheck_of_tx (handed_tx _ _ _ _ _))
    next => exact h

/-- R11 to R18, R173: the station map's decisions on a frame, its consumption and the hearing leave what the SEQUENCE CHECK has
made of the port. -/
theorem sameCheck_mapFrame (k : LaneKind) (t : Taken) (ix : StationIx) (s : State) (g : Seg) :
    SameCheck (s.port g) (((s.mapFrame t (consumer k)).signHearing ix).port g) := by
  have inv := sameCheck_invariant (s.port g) g
  refine inv.keeps_signHearing (inv.keeps_mapFrame (SameCheck.refl _) t (fun u h => ?_) (fun u h => ?_) fun u x h =>
    inv.keeps_consumer k h x) ix
  · exact sameCheck_updPort h _ fun _ => ⟨rfl, rfl, rfl, rfl⟩
  · exact sameCheck_updPort h _ fun _ => ⟨rfl, rfl, rfl, rfl⟩

/-! ### A duplicate -/

theorem hearing_tx (limit : Nat) (a : Addr) (x : SegPort × Station) : TxOnly x.1 (hearing limit a x).1 := by
  unfold hearing
  split
  · unfold pendingSent
    split
    · exact tx_trans (handed_tx _ _ _ _ _) (handed_tx _ _ _ _ _)
    · rfl
  · rfl

/-- R19: a frame heard, its port already changed. -/
theorem linked_heard (s : State) (seg : Seg) (f : RxFrame) (p : SegPort) (hstate : p.state = (s.port seg).state) :
    (linked s seg f.src (p, sender s seg f) s.uplink).heard seg (stationIx seg f.src) =
      linked s seg f.src (p, heardEntry s seg f)
        (if (sender s seg f).state = .empty then s.uplink else heardUplink s seg f) := by
  unfold State.heard
  dsimp only
  rw [linked_port, linked_station, if_pos rfl, if_pos rfl, hstate]
  by_cases hempty : (sender s seg f).state = .empty
  · have hentry : heardEntry s seg f = sender s seg f := if_neg fun h => h.1 hempty
    rw [if_pos (.inl hempty), if_pos hempty, hentry]
  · by_cases hdown : (s.port seg).state = .down
    · have hentry : heardEntry s seg f = sender s seg f := if_neg fun h => h.2 hdown
      have huplink : heardUplink s seg f = s.uplink := if_neg fun h => h.2 hdown
      rw [if_pos (.inr hdown), if_neg hempty, hentry, huplink]
    · have hentry : heardEntry s seg f =
          { sender s seg f with silent := false, silenceTimer := some s.params.silenceLimit } := if_pos ⟨hempty, hdown⟩
      rw [if_neg (not_or.2 ⟨hempty, hdown⟩), if_neg hempty, linked_updStation, hentry]
      unfold heardUplink State.stationEvent
      rw [linked_offerB]
      by_cases hsilent : (sender s seg f).silent = true
      · rw [if_pos hsilent, if_pos ⟨hsilent, hdown⟩]
        rfl
      · rw [if_neg hsilent, if_neg fun h => hsilent h.1]
        rfl

/-- R2, R3: the port of a duplicate. -/
def duplicatePort (p : SegPort) (rest : List RxFrame) : SegPort :=
  { p with rxQueue := rest, counters := { p.counters with duplicates := bump p.counters.duplicates } }

/-- R3, R19, R173: a duplicate is counted, heard, and its sender's channel hears it. -/
theorem takeFrame_duplicate (s : State) (seg : Seg) (f : RxFrame) (rest : List RxFrame) (consume : State → Taken → State)
    (hqueue : (s.port seg).rxQueue = f :: rest) (hrecord : (s.port seg).seqRecord[f.src] = some f.seq)
    (hkind : f.msg.kind ≠ .hello) :
    s.takeFrame seg f.msg.kind consume =
      linked s seg f.src
        (hearing s.params.signAck f.src (duplicatePort (s.port seg) rest, heardEntry s seg f))
        (if (sender s seg f).state = .empty then s.uplink else heardUplink s seg f) := by
  have hport : ((s.updPort seg fun p => { p with rxQueue := rest }).port seg) = { s.port seg with rxQueue := rest } :=
    (State.port_updPort s seg _ seg).trans (if_pos rfl)
  have hcheck : seqCheck (s.port seg).seqRecord[f.src] f.seq (f.msg.kind == .hello) = .duplicate := by
    rw [hrecord]
    simp [seqCheck, hkind]
  have hcounted : ((s.updPort seg fun p => { p with rxQueue := rest }).countPort seg fun k =>
      { k with duplicates := bump k.duplicates }) =
      linked s seg f.src (duplicatePort (s.port seg) rest, sender s seg f) s.uplink := by
    unfold State.countPort
    rw [updPort_placed s seg f.src]
    exact linked_updPort s seg f.src _ s.uplink _
  unfold State.takeFrame
  rw [hqueue]
  dsimp only
  rw [if_pos rfl, hport]
  dsimp only
  rw [hcheck]
  dsimp only
  rw [hcounted, linked_heard s seg f (duplicatePort (s.port seg) rest) rfl, signHearing_eq, linkOf_linked, placed_linked]
  rfl

/-- R3: a gap of the sequence is counted, by the record that the frame finds. -/
theorem takenPort_sequenceErrors (s : State) (seg : Seg) (f : RxFrame) :
    let p := s.port seg
    let r := p.seqRecord[f.src]
    (takenPort s seg f).counters.sequenceErrors =
      if r = none ∨ r = some f.seq ∨ r = some (f.seq - 1) then p.counters.sequenceErrors
      else bump p.counters.sequenceErrors := by
  unfold takenPort
  dsimp only
  cases hrecord : (s.port seg).seqRecord[f.src] with
  | none => simp
  | some r =>
    have hnext : f.seq = r + 1 ↔ r = f.seq - 1 := by
      rw [eq_sub_iff_add_eq]
      exact eq_comm
    dsimp only
    rw [if_congr (or_congr eq_comm hnext) rfl rfl]
    simp

/-- Settles O8: a duplicate by `takeFrame_duplicate`; of any other frame its port keeps what the SEQUENCE CHECK has made of it,
whatever its consumption does (`sameCheck_mapFrame`). -/
theorem sequenceCheckDecidesEachFrame : Obligations.SequenceCheckDecidesEachFrame := by
  intro k seg s f rest hhead hkind p r
  subst hkind
  obtain ⟨-, hqueue⟩ := id hhead
  refine ⟨_, exec_atHead hhead, ?_⟩
  by_cases hdup : r = some f.seq ∧ f.msg.kind ≠ .hello
  · obtain ⟨hrecord, hother⟩ := hdup
    rw [takeFrame_duplicate s seg f rest (consumer f.msg.kind) hqueue hrecord hother]
    obtain ⟨hrx, hseq, hduplicates, herrors⟩ :=
      sameCheck_of_tx (hearing_tx s.params.signAck f.src (duplicatePort p rest, heardEntry s seg f))
    simp only [linked_port, linked_station, if_pos]
    refine ⟨hrx, fun _ _ => ⟨hseq, hduplicates, herrors, fun g hg => if_neg hg, fun j hj => if_neg hj, rfl, rfl⟩, ?_⟩
    rintro (h | h)
    · exact absurd hrecord h
    · exact absurd h hother
  · have hfresh : r ≠ some f.seq ∨ f.msg.kind = .hello := by
      by_cases hrecord : r = some f.seq
      · exact .inr (not_not.1 fun hother => hdup ⟨hrecord, hother⟩)
      · exact .inl hrecord
    have htake : s.takeFrame seg f.msg.kind (consumer f.msg.kind) =
        ((heardState s seg f).mapFrame (takenFrame s seg f) (consumer f.msg.kind)).signHearing (stationIx seg f.src) :=
      takeFrame_eq s seg f rest _ hqueue hfresh
    obtain ⟨hrx, hseq, hduplicates, herrors⟩ :=
      sameCheck_mapFrame f.msg.kind (takenFrame s seg f) (stationIx seg f.src) (heardState s seg f) seg
    have hport : (heardState s seg f).port seg = takenPort s seg f := (linked_port ..).trans (if_pos rfl)
    rw [hport] at hrx hseq hduplicates herrors
    rw [htake]
    refine ⟨hrx.trans (by unfold takenPort; simp [hqueue]), fun hrecord hother => absurd ⟨hrecord, hother⟩ hdup, fun _ =>
      ⟨hseq, hduplicates, herrors.trans ?_⟩⟩
    exact takenPort_sequenceErrors s seg f

end Sys2Proof.Proofs
end

section
/-! PROOFS. What a page offered makes of a sign channel (R171, R172), and to which channels a composition and the end of a hold
offer a page. -/

namespace Sys2Proof.Proofs

open Sys2Proof Sys2Proof.Machine Sys2Proof.Safety Sys2Proof.Laws

/-! ### One channel -/

section Offered

variable {limit : Nat} {a : Addr} {g : Page} {x : SegPort × Station} {ch : SignChannel}

/-- R172: a page sent by a channel. -/
theorem paged_channel (hch : x.2.channel = some ch) : ∃ fl, (paged limit a g x).2.channel =
    some { ch with inFlight := some fl, timer := some limit } ∧ fl.page = g ∧ fl.upperMarked = false ∧
      fl.lowerMarked = false := by
  unfold paged
  rw [hch]
  exact ⟨_, rfl, rfl, rfl, rfl⟩

/-- R172: a channel that is OK with nothing in flight sends the page. -/
theorem offered_sends (hch : x.2.channel = some ch) (hacked : ch.lastAcked = none) (hfault : ch.fault = false)
    (hflight : ch.inFlight = none) : ∃ fl, (offered limit a g x).2.channel =
      some { ch with inFlight := some fl, timer := some limit } ∧ fl.page = g ∧ fl.upperMarked = false ∧
        fl.lowerMarked = false := by
  unfold offered
  rw [hch]
  dsimp only
  rw [if_neg (by simp [hacked]), if_pos ⟨hfault, hflight⟩]
  exact paged_channel hch

/-- R172: a channel in FAULT, or with a page in flight, holds the page pending. -/
theorem offered_waits (hch : x.2.channel = some ch) (hacked : ch.lastAcked = none)
    (hbusy : ch.fault = true ∨ ch.inFlight ≠ none) :
    (offered limit a g x).2.channel = some { ch with waiting := some g } := by
  have hnot : ¬ (ch.fault = false ∧ ch.inFlight = none) := by
    rintro ⟨hfault, hflight⟩
    rcases hbusy with h | h
    · rw [hfault] at h
      exact Bool.false_ne_true h
    · exact h hflight
  unfold offered
  rw [hch]
  dsimp only
  rw [if_neg (by simp [hacked]), if_neg hnot]

theorem shownPage_eq (ch : SignChannel) : shownPage ch = ch.waiting.or ((ch.inFlight.map (·.page)).or ch.lastAcked) := by
  unfold shownPage
  cases ch.waiting <;> cases ch.inFlight <;> rfl

/-- R171: a channel in order shows the page it is offered, and stays in order. -/
theorem offered_shows (hch : x.2.channel = some ch) (horderly : Orderly ch) :
    ∃ d, (offered limit a g x).2.channel = some d ∧ Orderly d ∧ shownPage d = some g := by
  unfold offered
  rw [hch]
  dsimp only
  split
  next hlatest => exact ⟨ch, hch, horderly, (shownPage_eq ch).trans hlatest.2⟩
  next =>
    split
    next hfree =>
      have hwaiting : ch.waiting = none := by
        rcases horderly with h | h | h
        · exact h
        · exact absurd (hfree.1.symm.trans h) Bool.false_ne_true
        · rw [hfree.2] at h
          exact absurd h Bool.false_ne_true
      obtain ⟨fl, hsent, hpage, -⟩ := paged_channel (limit := limit) (a := a) (g := g) hch
      refine ⟨_, hsent, .inl hwaiting, ?_⟩
      rw [shownPage_eq, hwaiting]
      simp [hpage]
    next hbusy =>
      refine ⟨_, rfl, ?_, by rw [shownPage_eq]; rfl⟩
      by_cases hfault : ch.fault = true
      · exact .inr (.inl hfault)
      · refine .inr (.inr (Option.isSome_iff_ne_none.2 fun hflight => hbusy ⟨Bool.eq_false_iff.2 hfault, hflight⟩))

end Offered

/-! ### A composition -/

/-- R171: one place of the map, taken in a composition of a lane. -/
def composeStep (l : LaneId) (p : Page) (s : State) (ix : StationIx) : State :=
  if s.isSignOf l ix then s.offerPage ix p else s

theorem isSignOf_iff (s : State) (l : LaneId) (ix : StationIx) : s.isSignOf l ix = true ↔ SignOf s l ix := by
  simp [State.isSignOf, Station.isSign, SignOf, and_assoc]

theorem offerPage_station_ne (s : State) {ix j : StationIx} (p : Page) (hne : j ≠ ix) :
    (s.offerPage ix p).station j = s.station j := by
  rw [← stationIx_of ix, offerPage_eq, placed_station, stationIx_of, if_neg hne]

theorem offerPage_params (s : State) (ix : StationIx) (p : Page) : (s.offerPage ix p).params = s.params := by
  rw [← stationIx_of ix, offerPage_eq]
  rfl

theorem composeStep_station_ne (l : LaneId) (p : Page) (s : State) {ix j : StationIx} (hne : j ≠ ix) :
    (composeStep l p s ix).station j = s.station j := by
  unfold composeStep
  split
  · exact offerPage_station_ne s p hne
  · rfl

theorem composeStep_params (l : LaneId) (p : Page) (s : State) (ix : StationIx) :
    (composeStep l p s ix).params = s.params := by
  unfold composeStep
  split
  · exact offerPage_params s ix p
  · rfl

theorem composeSteps_station_ne (l : LaneId) (p : Page) {j : StationIx} (L : List StationIx) (hj : j ∉ L) (s : State) :
    (L.foldl (composeStep l p) s).station j = s.station j := by
  induction L generalizing s with
  | nil => rfl
  | cons ix L ih =>
    obtain ⟨hne, hrest⟩ := List.ne_and_not_mem_of_not_mem_cons hj
    exact (ih hrest _).trans (composeStep_station_ne l p s hne)

/-- R171: each SIGN among the places is offered the page once, from the port as those before it leave it. -/
theorem composeSteps_offer (l : LaneId) (p : Page) {j : StationIx} (L : List StationIx) (hnodup : L.Nodup) (hj : j ∈ L)
    (s : State) (hsign : SignOf s l j) :
    ∃ q, (L.foldl (composeStep l p) s).station j = (offered s.params.signAck (addrOf j) p (q, s.station j)).2 := by
  induction L generalizing s with
  | nil => exact absurd hj List.not_mem_nil
  | cons ix L ih =>
    obtain ⟨hnot, hrest⟩ := List.nodup_cons.1 hnodup
    rw [List.foldl_cons]
    by_cases hix : j = ix
    · subst hix
      have hstep : composeStep l p s j = s.offerPage j p := if_pos ((isSignOf_iff s l j).2 hsign)
      refine ⟨s.port (segOf j), ?_⟩
      rw [composeSteps_station_ne l p L hnot, hstep]
      conv_lhs => rw [← stationIx_of j, offerPage_eq, placed_station, if_pos rfl]
      rw [show linkOf s (segOf j) (addrOf j) = (s.port (segOf j), s.station j) by unfold linkOf; rw [stationIx_of]]
    · have hkept := composeStep_station_ne l p s hix
      have hlater : SignOf (composeStep l p s ix) l j := by
        unfold SignOf
        rw [hkept]
        exact hsign
      obtain ⟨q, hq⟩ := ih hrest ((List.mem_cons.1 hj).resolve_left hix) _ hlater
      rw [hkept, composeStep_params] at hq
      exact ⟨q, hq⟩

/-- R171: a composition offers the lane's page to every SIGN of the lane. -/
theorem compose_offers (s : State) (l : LaneId) {j : StationIx} (hsign : SignOf s l j) :
    ∃ q, (s.compose l).station j = (offered s.params.signAck (addrOf j) (s.page l) (q, s.station j)).2 :=
  composeSteps_offer l (s.page l) (List.finRange 124) (List.nodup_finRange 124) (List.mem_finRange j) s hsign

theorem compose_station_other (s : State) (l : LaneId) {j : StationIx} (hsign : ¬ SignOf s l j) :
    (s.compose l).station j = s.station j := by
  obtain ⟨hentry, hchannel, -⟩ := compose_pagesOnly s l
  rw [hentry j, hchannel j hsign]

/-! ### The page of a lane -/

/-- R168 to R171: a lane's page depends on the links, the other lanes and the uplink in nothing. -/
theorem page_of_lane {s t : State} (h : LinksLanes s t) {l : LaneId} (hlane : t.lane l = s.lane l) : t.page l = s.page l := by
  have hctx : t.frontCtx l = s.frontCtx l := by
    unfold State.frontCtx
    rw [hlane, h]
    rfl
  have hphrase : t.phrase = s.phrase := by rw [h]; rfl
  have hdest : t.destPhrase = s.destPhrase := by rw [h]; rfl
  have hparams : t.params = s.params := by rw [h]
  unfold State.page State.visitPage State.basePage State.alert
  rw [hlane, hctx, hphrase, hdest, hparams]

theorem linksLanes_compose (s : State) (l : LaneId) : LinksLanes s (s.compose l) := by
  unfold LinksLanes
  rw [compose_pages]

theorem page_compose (s : State) (l k : LaneId) : (s.compose l).page k = s.page k :=
  page_of_lane (linksLanes_compose s l) (by simp)

/-! ### The end of a hold -/

/-- R35, R37: the hold of a console ended on a lane: its page is composed with the lane in SUSPENDED. -/
theorem endHoldOn_compose (s : State) (ix : StationIx) (cause : ModeCause) (l : LaneId)
    (hheld : (s.lane l).mode = .manual ∧ (s.lane l).holder = some ix) :
    State.endHoldOn cause ix s l = ({ s with
      lanes := upd s.lanes l fun x => { x with mode := .suspended, holder := none }
      uplink := classB s.uplink (.modeChange l .manual .suspended cause none) } : State).compose l := by
  unfold State.endHoldOn State.changeMode
  rw [if_pos hheld]
  dsimp only
  rw [hheld.1, offerB_eq]
  rfl

/-- R35, R171: the holds of a console ended on the lanes of a list: a SIGN of a lane that it held is offered the lane's new page,
and any other station of the map has what it had. -/
theorem endHolds_offer (ix : StationIx) (cause : ModeCause) {j : StationIx} {l : LaneId} (L : List LaneId) (hnodup : L.Nodup)
    (s : State) (hsign : SignOf s l j) :
    let t := L.foldl (State.endHoldOn cause ix) s
    let held : Prop := (s.lane l).mode = .manual ∧ (s.lane l).holder = some ix
    (l ∈ L ∧ held → ∃ q, t.station j = (offered s.params.signAck (addrOf j) (t.page l) (q, s.station j)).2) ∧
    (¬ (l ∈ L ∧ held) → t.station j = s.station j) := by
  induction L generalizing s with
  | nil => exact ⟨fun h => absurd h.1 List.not_mem_nil, fun _ => rfl⟩
  | cons k L ih =>
    intro t held
    obtain ⟨hnot, hrest⟩ := List.nodup_cons.1 hnodup
    have ht : t = L.foldl (State.endHoldOn cause ix) (State.endHoldOn cause ix s k) := List.foldl_cons ..
    by_cases hk : (s.lane k).mode = .manual ∧ (s.lane k).holder = some ix
    · have hv := endHoldOn_compose s ix cause k hk
      generalize hw : ({ s with
        lanes := upd s.lanes k fun x => { x with mode := .suspended, holder := none }
        uplink := classB s.uplink (.modeChange k .manual .suspended cause none) } : State) = w at hv
      have hwstation : w.station = s.station := by rw [← hw]; rfl
      have hwparams : w.params = s.params := by rw [← hw]
      have hwsign : SignOf w l j := by
        unfold SignOf
        rw [hwstation]
        exact hsign
      generalize State.endHoldOn cause ix s k = v at hv ht
      have hvsign : SignOf v l j := by
        rw [hv]
        exact (SignOf_kept (compose_pagesOnly w k) l j).2 hwsign
      obtain ⟨hoffered, hkept⟩ := ih hrest v hvsign
      obtain ⟨hlanes, -⟩ := endHolds_spec ix cause L hrest v
      rw [ht]
      by_cases hl : k = l
      · subst hl
        have hpage : (L.foldl (State.endHoldOn cause ix) v).page k = w.page k := by
          rw [page_of_lane (linksLanes_endHolds ix cause L v) ((hlanes k).trans (if_neg fun h => hnot h.1)), hv]
          exact page_compose w k k
        obtain ⟨q, hq⟩ := compose_offers w k hwsign
        rw [← hv, hwstation, hwparams] at hq
        refine ⟨fun _ => ⟨q, ?_⟩, fun hno => absurd ⟨List.mem_cons_self, hk⟩ hno⟩
        rw [hkept fun h => hnot h.1, hpage]
        exact hq
      · have hother : ¬ SignOf w k j := fun h => hl (h.2.2.symm.trans hwsign.2.2)
        have hvstation : v.station j = s.station j := by
          rw [hv, compose_station_other w k hother, hwstation]
        have hvlane : v.lane l = s.lane l := by
          rw [hv, show (w.compose k).lane l = w.lane l by simp, ← hw]
          exact (State.lane_updLane s k _ l).trans (if_neg fun h => hl h.symm)
        have hvparams : v.params = s.params := by rw [hv, show (w.compose k).params = w.params by simp, hwparams]
        have hmem : (l ∈ k :: L ∧ held) ↔ (l ∈ L ∧ (v.lane l).mode = .manual ∧ (v.lane l).holder = some ix) := by
          rw [hvlane, List.mem_cons]
          exact and_congr_left fun _ => or_iff_right fun h => hl h.symm
        rw [hvstation, hvparams] at hoffered
        rw [hvstation] at hkept
        exact ⟨fun h => hoffered (hmem.1 h), fun h => hkept fun h' => h (hmem.2 h')⟩
    · have hv : State.endHoldOn cause ix s k = s := if_neg hk
      obtain ⟨hoffered, hkept⟩ := ih hrest s hsign
      have hmem : (l ∈ k :: L ∧ held) ↔ (l ∈ L ∧ held) := by
        rw [List.mem_cons]
        refine and_congr_left fun hl => or_iff_right ?_
        rintro rfl
        exact hk hl
      rw [ht, hv]
      exact ⟨fun h => hoffered (hmem.1 h), fun h => hkept fun h' => h (hmem.2 h')⟩

/-- R35, R171: the hold of a console ended: a SIGN of a lane that it held is offered the lane's new page. -/
theorem endHold_offers (s : State) (ix : StationIx) (cause : ModeCause) {j : StationIx} {l : LaneId} (hsign : SignOf s l j) :
    let t := s.endHold ix cause
    let held : Prop := (s.lane l).mode = .manual ∧ (s.lane l).holder = some ix
    (held → ∃ q, t.station j = (offered s.params.signAck (addrOf j) (t.page l) (q, s.station j)).2) ∧
    (¬ held → t.station j = s.station j) := by
  obtain ⟨hoffered, hkept⟩ := endHolds_offer ix cause (List.finRange 16) (List.nodup_finRange 16) s hsign
  exact ⟨fun h => hoffered ⟨List.mem_finRange l, h⟩, fun h => hkept fun h' => h h'.2⟩

end Sys2Proof.Proofs
end

section
/-! PROOFS. A write of a station map entry (R10, R35, R171, R172, R176). -/

namespace Sys2Proof.Proofs

open Sys2Proof Sys2Proof.Machine Sys2Proof.Safety Sys2Proof.Laws

/-! ### The codes of an entry -/

theorem mapStateOf_some {b : Byte} {st : MapState} (h : mapStateOf b = some st) :
    b.toNat ≤ 2 ∧ (b.toNat = 2 → st = .frozen) := by
  unfold mapStateOf at h
  split at h <;> simp_all

theorem boolOf_some {b : Byte} {v : Bool} (h : boolOf b = some v) : b.toNat ≤ 1 ∧ (b.toNat = 0 → v = false) := by
  unfold boolOf at h
  split at h <;> simp_all

theorem roleOf_some {b : Byte} {r : Role} (h : roleOf b = some r) : b.toNat ≤ 8 := by
  unfold roleOf at h
  split at h <;> simp_all

theorem zoneOf_some {b : Byte} {z : Zone} (h : zoneOf b = some z) : b.toNat ≤ 1 := by
  unfold zoneOf at h
  split at h <;> simp_all

theorem clampLane_val (b : Byte) : (clampLane b).val = min b.toNat 15 := by
  unfold clampLane
  split
  · simp only
    omega
  · show (15 : Nat) = _
    omega

/-! ### The entry written, the hold ended, the page composed -/

/-- R10: the part with an entry written and its sequence record cleared. -/
def entryWritten (s : State) (ix : StationIx) (f : Station → Station) : State :=
  (s.updStation ix f).updPort (segOf ix) fun p => { p with seqRecord := p.seqRecord.set (addrOf ix) none }

theorem entryWritten_station (s : State) (ix : StationIx) (f : Station → Station) (j : StationIx) :
    (entryWritten s ix f).station j = if j = ix then f (s.station ix) else s.station j := State.station_updStation s ix f j

theorem entryWritten_port (s : State) (ix : StationIx) (f : Station → Station) (g : Seg) :
    (entryWritten s ix f).port g = if g = segOf ix then
      { s.port g with seqRecord := (s.port g).seqRecord.set (addrOf ix) none } else s.port g := by
  refine (State.port_updPort (s.updStation ix f) (segOf ix) _ g).trans ?_
  split
  next hg => rw [hg]; rfl
  next => rfl

section Written

variable {s : State} {ix : StationIx} {f : Station → Station}

/-- R35: the part once the hold of the entry's console has ended. -/
theorem holdEnded_sign {l : LaneId} {j : StationIx} :
    SignOf ((entryWritten s ix f).endHold ix .consoleRewritten) l j ↔ SignOf (entryWritten s ix f) l j := by
  obtain ⟨-, -, hpages⟩ := endHold_ended (entryWritten s ix f) ix .consoleRewritten
  exact SignOf_kept hpages l j

/-- R10, R35, R171: a write composes the page of the entry's lane where the entry becomes a SIGN. -/
theorem writeStation_eq :
    s.writeStation ix f =
      if (f (s.station ix)).state ≠ .empty ∧ (f (s.station ix)).role = .sign then
        ((entryWritten s ix f).endHold ix .consoleRewritten).compose (f (s.station ix)).lane
      else (entryWritten s ix f).endHold ix .consoleRewritten := by
  obtain ⟨-, -, hentry, -⟩ := endHold_ended (entryWritten s ix f) ix .consoleRewritten
  have hix := hentry ix
  rw [entryWritten_station, if_pos rfl] at hix
  show (if (((entryWritten s ix f).endHold ix .consoleRewritten).station ix).isSign = true then
    ((entryWritten s ix f).endHold ix .consoleRewritten).compose
      (((entryWritten s ix f).endHold ix .consoleRewritten).station ix).lane
    else (entryWritten s ix f).endHold ix .consoleRewritten) = _
  have hsign : (((entryWritten s ix f).endHold ix .consoleRewritten).station ix).isSign = true ↔
      (f (s.station ix)).state ≠ .empty ∧ (f (s.station ix)).role = .sign := by
    rw [hix]
    simp [Station.isSign]
  rw [if_congr hsign rfl rfl, hix]

/-- R10, R35, R171: what a write leaves. -/
theorem writeStation_spec :
    let t := s.writeStation ix f
    let e := f (s.station ix)
    let held (l : LaneId) : Prop := (s.lane l).mode = .manual ∧ (s.lane l).holder = some ix
    LinksLanes s t ∧ t.uplink = holdsEnded s ix .consoleRewritten s.uplink ∧
    (∀ l, t.lane l = if held l then { s.lane l with mode := .suspended, holder := none } else s.lane l) ∧
    PagesOnly (entryWritten s ix f).port (entryWritten s ix f).station
      (fun j => (e.state ≠ .empty ∧ e.role = .sign ∧ SignOf t e.lane j) ∨ ∃ l, held l ∧ SignOf t l j) t := by
  intro t e held
  obtain ⟨hlanes, huplink, hpages⟩ := endHold_ended (entryWritten s ix f) ix .consoleRewritten
  have hframe := linksLanes_endHold (entryWritten s ix f) ix .consoleRewritten
  have ht : t = _ := writeStation_eq
  generalize (entryWritten s ix f).endHold ix .consoleRewritten = v at hlanes huplink hpages hframe ht
  have hwritten : LinksLanes s (entryWritten s ix f) := rfl
  by_cases hsign : e.state ≠ .empty ∧ e.role = .sign
  · rw [if_pos hsign] at ht
    have hcompose := compose_pagesOnly v e.lane
    rw [← show t = v.compose e.lane from ht] at hcompose
    have hkept (l : LaneId) (j : StationIx) : SignOf t l j ↔ SignOf v l j := SignOf_kept hcompose l j
    have htpages := PagesOnly.trans
      (P := fun j => (e.state ≠ .empty ∧ e.role = .sign ∧ SignOf t e.lane j) ∨ ∃ l, held l ∧ SignOf t l j)
      (PagesOnly.mono hpages fun j ⟨l, hl, hj⟩ => .inr ⟨l, hl, (hkept l j).2 ((SignOf_kept hpages l j).2 hj)⟩)
      hcompose fun j hj => .inl ⟨hsign.1, hsign.2, (hkept e.lane j).2 hj⟩
    have htlane (l : LaneId) : t.lane l = v.lane l := by rw [ht]; simp
    have htuplink : t.uplink = v.uplink := by rw [ht]; simp
    have htframe : LinksLanes v t := by rw [ht]; exact linksLanes_compose v e.lane
    refine ⟨(hwritten.trans hframe).trans htframe, htuplink.trans huplink, fun l => (htlane l).trans (hlanes l), htpages⟩
  · rw [if_neg hsign] at ht
    rw [ht]
    refine ⟨hwritten.trans hframe, huplink, hlanes, PagesOnly.mono hpages fun j ⟨l, hl, hj⟩ =>
      .inr ⟨l, hl, (SignOf_kept hpages l j).2 hj⟩⟩

/-- R171: where the entry becomes a SIGN, every SIGN of its lane is offered the lane's page last. -/
theorem writeStation_offers (hmapped : (f (s.station ix)).state ≠ .empty) (hrole : (f (s.station ix)).role = .sign)
    {j : StationIx} (hsign : SignOf (entryWritten s ix f) (f (s.station ix)).lane j) :
    let t := s.writeStation ix f
    let l := (f (s.station ix)).lane
    let held : Prop := (s.lane l).mode = .manual ∧ (s.lane l).holder = some ix
    ∃ q b, t.station j = (offered s.params.signAck (addrOf j) (t.page l) (q, b)).2 ∧
      (held → ∃ q', b = (offered s.params.signAck (addrOf j) (t.page l) (q', (entryWritten s ix f).station j)).2) ∧
      (¬ held → b = (entryWritten s ix f).station j) := by
  intro t l held
  have ht : t = ((entryWritten s ix f).endHold ix .consoleRewritten).compose l :=
    writeStation_eq.trans (if_pos ⟨hmapped, hrole⟩)
  obtain ⟨hheld, hfree⟩ := endHold_offers (entryWritten s ix f) ix .consoleRewritten hsign
  have hvsign : SignOf ((entryWritten s ix f).endHold ix .consoleRewritten) l j := holdEnded_sign.2 hsign
  have hvparams : ((entryWritten s ix f).endHold ix .consoleRewritten).params = s.params := by
    simp [entryWritten]
  generalize (entryWritten s ix f).endHold ix .consoleRewritten = v at ht hheld hfree hvsign hvparams
  obtain ⟨q, hq⟩ := compose_offers v l hvsign
  have hpage : t.page l = v.page l := by rw [ht, page_compose]
  rw [← ht, ← hpage, hvparams] at hq
  rw [← hpage] at hheld
  exact ⟨q, v.station j, hq, hheld, hfree⟩

/-- R171: every SIGN of the lane whose channel is in order comes to show the page. -/
theorem writeStation_shows (hmapped : (f (s.station ix)).state ≠ .empty) (hrole : (f (s.station ix)).role = .sign)
    {j : StationIx} (hsign : SignOf (entryWritten s ix f) (f (s.station ix)).lane j) {ch : SignChannel}
    (hch : ((entryWritten s ix f).station j).channel = some ch) (horderly : Orderly ch) :
    ∃ d, ((s.writeStation ix f).station j).channel = some d ∧
      shownPage d = some ((s.writeStation ix f).page (f (s.station ix)).lane) := by
  obtain ⟨q, b, ht, hheld, hfree⟩ := writeStation_offers hmapped hrole hsign
  have hb : ∃ c, b.channel = some c ∧ Orderly c := by
    by_cases h : (s.lane (f (s.station ix)).lane).mode = .manual ∧ (s.lane (f (s.station ix)).lane).holder = some ix
    · obtain ⟨q', hq'⟩ := hheld h
      rw [hq']
      obtain ⟨d, hd, hdo, -⟩ := offered_shows (x := (q', (entryWritten s ix f).station j)) hch horderly
      exact ⟨d, hd, hdo⟩
    · exact ⟨ch, hfree h ▸ hch, horderly⟩
  obtain ⟨c, hc, hco⟩ := hb
  rw [ht]
  obtain ⟨d, hd, -, hshown⟩ := offered_shows (x := (q, b)) hc hco
  exact ⟨d, hd, hshown⟩

/-- R172: the new channel of a SIGN: in FAULT with the page pending where its entry is SILENT, and else OK with the page sent. -/
theorem writeStation_newChannel (hmapped : (f (s.station ix)).state ≠ .empty) (hrole : (f (s.station ix)).role = .sign)
    (hnew : (f (s.station ix)).channel = some ⟨(f (s.station ix)).silent, none, none, none, none⟩) :
    let t := s.writeStation ix f
    let e := f (s.station ix)
    ∃ ch, (t.station ix).channel = some ch ∧ ch.fault = e.silent ∧ ch.lastAcked = none ∧
      (e.silent = true → ch.inFlight = none ∧ ch.timer = none ∧ ch.waiting = some (t.page e.lane)) ∧
      (e.silent = false →
        (∃ fl, ch.inFlight = some fl ∧ fl.page = t.page e.lane ∧ fl.upperMarked = false ∧ fl.lowerMarked = false) ∧
        ch.timer = some s.params.signAck ∧
        (¬ ((s.lane e.lane).mode = .manual ∧ (s.lane e.lane).holder = some ix) → ch.waiting = none)) := by
  intro t e
  have hentry : (entryWritten s ix f).station ix = e := (entryWritten_station s ix f ix).trans (if_pos rfl)
  have hsign : SignOf (entryWritten s ix f) e.lane ix := by
    unfold SignOf
    rw [hentry]
    exact ⟨hmapped, hrole, rfl⟩
  obtain ⟨q, b, ht, hheld, hfree⟩ := writeStation_offers hmapped hrole hsign
  rw [hentry] at hheld hfree
  rw [ht]
  by_cases hsilent : e.silent = true
  · have hb : ∃ w, b.channel = some ⟨true, none, w, none, none⟩ := by
      by_cases h : (s.lane e.lane).mode = .manual ∧ (s.lane e.lane).holder = some ix
      · obtain ⟨q', hq'⟩ := hheld h
        rw [hq', offered_waits (x := (q', e)) hnew rfl (.inl hsilent), hsilent]
        exact ⟨_, rfl⟩
      · exact ⟨none, by rw [hfree h]; exact hsilent ▸ hnew⟩
    obtain ⟨w, hw⟩ := hb
    exact ⟨_, offered_waits (x := (q, b)) hw rfl (.inl rfl), hsilent.symm, rfl, fun _ => ⟨rfl, rfl, rfl⟩, fun h =>
      absurd (hsilent.symm.trans h) (by decide)⟩
  · have hactive : e.silent = false := Bool.eq_false_iff.2 hsilent
    by_cases h : (s.lane e.lane).mode = .manual ∧ (s.lane e.lane).holder = some ix
    · obtain ⟨q', hq'⟩ := hheld h
      obtain ⟨fl, hsent, hfl⟩ := offered_sends (limit := s.params.signAck) (a := addrOf ix) (g := t.page e.lane)
        (x := (q', e)) hnew rfl hactive rfl
      rw [← hq'] at hsent
      exact ⟨_, offered_waits (x := (q, b)) hsent rfl (.inr (Option.some_ne_none fl)), rfl, rfl, fun h =>
        absurd h hsilent, fun _ => ⟨⟨fl, rfl, hfl⟩, rfl, fun h' => absurd h h'⟩⟩
    · rw [hfree h]
      obtain ⟨fl, hsent, hfl⟩ := offered_sends (limit := s.params.signAck) (a := addrOf ix) (g := t.page e.lane)
        (x := (q, e)) hnew rfl hactive rfl
      exact ⟨_, hsent, rfl, rfl, fun h => absurd h hsilent, fun _ => ⟨⟨fl, rfl, hfl⟩, rfl, fun _ => rfl⟩⟩

end Written

end Sys2Proof.Proofs
end

section
/-! PROOFS. The TABLE_WRITE of STATION_MAP (R10, R35, R171, R172, R176, R179, R182). -/

namespace Sys2Proof.Proofs

open Sys2Proof Sys2Proof.Machine Sys2Proof.Safety Sys2Proof.Laws

section Write

variable {h : GateHdr} {index : BitVec 16} {state idPresent : Byte} {identity : BitVec 32}
  {lane role zone weight forward : Byte} {s : State}

/-- R179, R182: a write of STATION_MAP that is taken is answered with what the table says. -/
theorem exec_writeStation (hready : Ready s) :
    exec (.tableWriteStationMap h index state idPresent identity lane role zone weight forward) s =
      let a := writeStationAnswer index state idPresent identity lane role zone weight forward
        { s with uplink := presence s h }
      .next { a.2 with uplink := made a.2.uplink (response h 6 a.1) } := by
  dsimp only [exec]
  unfold execTableWriteStationMap
  rw [whenRunning_running _ _ hready.1, request_ready _ _ _ _ hready]

/-- R10: a write beyond the map. -/
theorem writeStationAnswer_badIndex (hindex : 124 ≤ index.toNat) :
    writeStationAnswer index state idPresent identity lane role zone weight forward s = refuse s .badIndex := by
  unfold writeStationAnswer
  rw [dif_neg (Nat.not_lt.2 hindex)]

/-- R10: a write with a code outside its list, or of a FROZEN entry without identity. -/
theorem writeStationAnswer_badValue (hindex : index.toNat < 124)
    (hbad : 2 < state.toNat ∨ 1 < idPresent.toNat ∨ 8 < role.toNat ∨ 1 < zone.toNat ∨ 1 < forward.toNat ∨
      (state.toNat = 2 ∧ idPresent.toNat = 0)) :
    writeStationAnswer index state idPresent identity lane role zone weight forward s = refuse s .badValue := by
  unfold writeStationAnswer
  rw [dif_pos hindex]
  split
  next st present r z fwd hst hpresent hr hz hfwd =>
    obtain ⟨hstate, hfrozen⟩ := mapStateOf_some hst
    obtain ⟨hid, habsent⟩ := boolOf_some hpresent
    have hrole := roleOf_some hr
    have hzone := zoneOf_some hz
    have hforward := (boolOf_some hfwd).1
    have hlast : state.toNat = 2 ∧ idPresent.toNat = 0 := by omega
    exact if_pos ⟨hfrozen hlast.1, habsent hlast.2⟩
  next => rfl

/-- R10: a write that is accepted. -/
theorem writeStationAnswer_accepted {ix : StationIx} {st : MapState} {r : Role} {z : Zone} {present fwd : Bool}
    (hindex : index.toNat = ix.val) (hst : mapStateOf state = some st) (hpresent : boolOf idPresent = some present)
    (hr : roleOf role = some r) (hz : zoneOf zone = some z) (hfwd : boolOf forward = some fwd)
    (hfrozen : st = .frozen → present = true) :
    writeStationAnswer index state idPresent identity lane role zone weight forward s =
      (okay (decide (15 < lane.toNat) || decide (8 < weight.toNat)),
        s.writeStation ix fun e =>
          e.written st (if present then some identity else none) (clampLane lane) r z (min weight.toNat 8) fwd) := by
  have hlt : index.toNat < 124 := hindex ▸ ix.isLt
  have hix : (⟨index.toNat, hlt⟩ : StationIx) = ix := Fin.ext hindex
  unfold writeStationAnswer
  rw [dif_pos hlt, hst, hpresent, hr, hz, hfwd]
  dsimp only
  rw [if_neg fun hno => by simp [hfrozen hno.1] at hno, hix]
  rfl

end Write

/-! ### The entry written -/

section Entry

variable (e : Station) (st : MapState) (identity : Option (BitVec 32)) (lane : LaneId) (r : Role) (z : Zone) (weight : Nat)
  (forward : Bool)

/-- R10: an entry that was or becomes EMPTY is SILENT; any other keeps its silence. -/
theorem written_keeps (hkeeps : e.state ≠ .empty ∧ st ≠ .empty) :
    (e.written st identity lane r z weight forward).silent = e.silent ∧
      (e.written st identity lane r z weight forward).silenceTimer = e.silenceTimer := by
  simp [Station.written, hkeeps]

theorem written_silent (hkeeps : ¬ (e.state ≠ .empty ∧ st ≠ .empty)) :
    (e.written st identity lane r z weight forward).silent = true ∧
      (e.written st identity lane r z weight forward).silenceTimer = none := by
  have hfalse : (e.state != .empty && st != .empty) = false := by
    rw [Bool.eq_false_iff]
    simpa using hkeeps
  unfold Station.written
  dsimp only
  rw [hfalse]
  exact ⟨rfl, rfl⟩

/-- R172: a SIGN entry has a new channel, and no other entry has one. -/
theorem written_sign (hmapped : st ≠ .empty) : (e.written st identity lane .sign z weight forward).channel =
    some ⟨(e.written st identity lane .sign z weight forward).silent, none, none, none, none⟩ := by
  show newChannel st .sign _ = _
  cases st with
  | empty => exact absurd rfl hmapped
  | learn => rfl
  | frozen => rfl

theorem written_noSign (hno : ¬ (st ≠ .empty ∧ r = .sign)) :
    (e.written st identity lane r z weight forward).channel = none := by
  show newChannel st r _ = none
  unfold newChannel
  split
  · rfl
  · next hst => exact absurd ⟨hst, rfl⟩ hno
  · rfl

end Entry

/-- R10, R35, R171, R172: what an accepted write makes of the state `s`, where `e` is the entry written. -/
structure Rewritten (s : State) (ix : StationIx) (e : Station) (t : State) : Prop where
  frame : LinksLanes s t
  lanes : ∀ l, t.lane l = if (s.lane l).mode = .manual ∧ (s.lane l).holder = some ix then
    { s.lane l with mode := .suspended, holder := none } else s.lane l
  pages : PagesOnly
    (fun g => if g = segOf ix then { s.port g with seqRecord := (s.port g).seqRecord.set (addrOf ix) none } else s.port g)
    (fun j => if j = ix then e else s.station j)
    (fun j => (e.state ≠ .empty ∧ e.role = .sign ∧ SignOf t e.lane j) ∨
      ∃ l, ((s.lane l).mode = .manual ∧ (s.lane l).holder = some ix) ∧ SignOf t l j) t
  shows : e.state ≠ .empty → e.role = .sign → ∀ (j : StationIx) (ch : SignChannel), SignOf t e.lane j →
    (if j = ix then e else s.station j).channel = some ch → Orderly ch →
      ∃ d, (t.station j).channel = some d ∧ shownPage d = some (t.page e.lane)
  channel : e.state ≠ .empty → e.role = .sign → e.channel = some ⟨e.silent, none, none, none, none⟩ →
    ∃ ch, (t.station ix).channel = some ch ∧ ch.fault = e.silent ∧ ch.lastAcked = none ∧
      (e.silent = true → ch.inFlight = none ∧ ch.timer = none ∧ ch.waiting = some (t.page e.lane)) ∧
      (e.silent = false →
        (∃ fl, ch.inFlight = some fl ∧ fl.page = t.page e.lane ∧ fl.upperMarked = false ∧ fl.lowerMarked = false) ∧
        ch.timer = some s.params.signAck ∧
        (¬ ((s.lane e.lane).mode = .manual ∧ (s.lane e.lane).holder = some ix) → ch.waiting = none))

/-- The write of an entry, on a state with any uplink port and left with any other. -/
theorem rewritten_writeStation (s : State) (ix : StationIx) (f : Station → Station) (u v : Uplink) :
    Rewritten s ix (f (s.station ix)) { ({ s with uplink := u } : State).writeStation ix f with uplink := v } := by
  obtain ⟨hframe, -, hlanes, hpages⟩ := writeStation_spec (s := { s with uplink := u }) (ix := ix) (f := f)
  have hshows := fun hmapped hrole j =>
    writeStation_shows (s := { s with uplink := u }) (ix := ix) (f := f) hmapped hrole (j := j)
  have hnew := writeStation_newChannel (s := { s with uplink := u }) (ix := ix) (f := f)
  have hport := funext (entryWritten_port { s with uplink := u } ix f)
  have hstation := funext (entryWritten_station { s with uplink := u } ix f)
  generalize State.writeStation _ ix f = w at *
  generalize entryWritten _ ix f = x at *
  rw [hport, hstation] at hpages
  have ⟨hentry, _⟩ := hpages
  have hsign (l : LaneId) (j : StationIx) : SignOf w l j ↔ SignOf x l j := by
    unfold SignOf
    rw [hentry j, hstation]
  refine ⟨?_, hlanes, hpages, fun hmapped hrole j ch hj hch horderly => ?_, hnew⟩
  · unfold LinksLanes at *
    rw [hframe]
  · exact hshows hmapped hrole j ((hsign _ j).1 hj) (ch := ch) (by rw [hstation]; exact hch) horderly

namespace Rewritten

variable {s : State} {ix : StationIx} {e : Station} {t : State}

/-- The entry written, but for its sign channel. -/
theorem entry (h : Rewritten s ix e t) : t.station ix = { e with channel := (t.station ix).channel } := by
  obtain ⟨hentry, -⟩ := h.pages
  have hix := hentry ix
  dsimp only at hix
  rwa [if_pos rfl] at hix

/-- What an entry says without its channel, the entry written says. -/
theorem field (h : Rewritten s ix e t) {α : Type} (get : Station → α)
    (hget : ∀ e ch, get { e with channel := ch } = get e) :
    get (t.station ix) = get e := by
  rw [h.entry]
  exact hget _ _

theorem entry_other (h : Rewritten s ix e t) {j : StationIx} (hj : j ≠ ix) :
    t.station j = { s.station j with channel := (t.station j).channel } := by
  obtain ⟨hentry, -⟩ := h.pages
  have hother := hentry j
  dsimp only at hother
  rwa [if_neg hj] at hother

/-- An entry that is no SIGN keeps its channel. -/
theorem channel_other (h : Rewritten s ix e t) (hno : ¬ (e.state ≠ .empty ∧ e.role = .sign)) :
    (t.station ix).channel = e.channel := by
  obtain ⟨-, hkept, -⟩ := h.pages
  have hix := hkept ix
  dsimp only at hix
  rw [if_pos rfl] at hix
  refine hix ?_
  rintro (⟨hmapped, hrole, -⟩ | ⟨l, -, hsign⟩)
  · exact hno ⟨hmapped, hrole⟩
  · obtain ⟨hmapped, hrole, -⟩ := hsign
    rw [h.entry] at hmapped hrole
    exact hno ⟨hmapped, hrole⟩

/-- R171: from the entry that stands there after the write, only the signs that a page is composed for may differ. -/
theorem pages_entry (h : Rewritten s ix e t) :
    PagesOnly
      (fun g => if g = segOf ix then { s.port g with seqRecord := (s.port g).seqRecord.set (addrOf ix) none } else s.port g)
      (fun j => if j = ix then t.station ix else s.station j)
      (fun j => j = ix ∨ (e.state ≠ .empty ∧ e.role = .sign ∧ SignOf t e.lane j) ∨
        ∃ l, ((s.lane l).mode = .manual ∧ (s.lane l).holder = some ix) ∧ SignOf t l j) t := by
  obtain ⟨hentry, hkept, htx, hports⟩ := h.pages
  refine ⟨fun j => ?_, fun j hj => ?_, htx, fun g hg => hports g fun a ha => hg a (.inr ha)⟩
  · dsimp only
    by_cases hix : j = ix
    · subst hix
      rw [if_pos rfl]
    · rw [if_neg hix]
      exact h.entry_other hix
  · have hix : j ≠ ix := fun hix => hj (.inl hix)
    have hchannel := hkept j fun hshows => hj (.inr hshows)
    dsimp only at hchannel ⊢
    rw [if_neg hix] at hchannel ⊢
    exact hchannel

theorem seqRecord (h : Rewritten s ix e t) :
    (t.port (segOf ix)).seqRecord = (s.port (segOf ix)).seqRecord.set (addrOf ix) none := by
  have htx := pagesOnly_tx h.pages (segOf ix)
  dsimp only at htx
  rw [if_pos rfl] at htx
  unfold TxOnly at htx
  rw [htx]

end Rewritten

/-- Settles O50: the answer says which write it is; an accepted one leaves what `writeStation_spec` says, with the new channel of
`writeStation_newChannel` and the page of `writeStation_shows`. -/
theorem stationWriteRemakesTheEntry : Obligations.StationWriteRemakesTheEntry := by
  intro h index state idPresent identity lane role zone weight forward s hready c
  refine ⟨fun hindex => ?_, fun hindex hbad => ?_, ?_⟩
  · rw [exec_writeStation hready, writeStationAnswer_badIndex hindex]
    rfl
  · rw [exec_writeStation hready, writeStationAnswer_badValue hindex hbad]
    rfl
  intro ix st r z present fwd hindex hst hpresent hr hz hfwd hfrozen e keeps
  have hexec : exec c s = _ := exec_writeStation hready
  rw [writeStationAnswer_accepted hindex hst hpresent hr hz hfwd hfrozen] at hexec
  dsimp only at hexec
  let f (e : Station) : Station := e.written st (if present then some identity else none) (clampLane lane) r z
    (min weight.toNat 8) fwd
  obtain ⟨-, huplink, -⟩ := writeStation_spec (s := { s with uplink := presence s h }) (ix := ix) (f := f)
  have hrewritten := rewritten_writeStation s ix f (presence s h)
    (made (holdsEnded s ix .consoleRewritten (presence s h))
      (response h 6 (okay (decide (15 < lane.toNat) || decide (8 < weight.toNat)))))
  rw [show (State.writeStation { s with uplink := presence s h } ix f).uplink =
    holdsEnded s ix .consoleRewritten (presence s h) from huplink] at hexec
  refine ⟨_, hexec, ?_⟩
  generalize State.writeStation { s with uplink := presence s h } ix f = w at hrewritten ⊢
  generalize ht : ({ w with uplink := made _ _ } : State) = t at hrewritten ⊢
  have hframe : t = { s with
      ports := t.ports, stations := t.stations, lanes := t.lanes
      uplink := made (holdsEnded s ix .consoleRewritten (presence s h))
        (response h 6 (okay (decide (15 < lane.toNat) || decide (8 < weight.toNat)))) } := by
    have huplinked : t.uplink = made (holdsEnded s ix .consoleRewritten (presence s h))
        (response h 6 (okay (decide (15 < lane.toNat) || decide (8 < weight.toNat)))) := by rw [← ht]
    have hrest := hrewritten.frame
    unfold LinksLanes at hrest
    rwa [huplinked] at hrest
  have hfield {α : Type} (get : Station → α) := hrewritten.field get
  have hsilent : (t.station ix).silent = (f e).silent := hfield (·.silent) fun _ _ => rfl
  have hlane : (t.station ix).lane = (f e).lane := hfield (·.lane) fun _ _ => rfl
  have hfresh (hsign : st ≠ .empty ∧ r = .sign) : (f e).channel = some ⟨(f e).silent, none, none, none, none⟩ := by
    obtain ⟨hmapped, rfl⟩ := hsign
    exact written_sign e st _ _ _ _ _ hmapped
  have hsome : (t.station ix).channel.isSome = true ↔ st ≠ .empty ∧ r = .sign := by
    by_cases hsign : st ≠ .empty ∧ r = .sign
    · obtain ⟨ch, hch, -⟩ := hrewritten.channel hsign.1 hsign.2 (hfresh hsign)
      simp [hch, hsign]
    · have hnone : (t.station ix).channel = none :=
        (hrewritten.channel_other hsign).trans (written_noSign e st _ _ r _ _ _ hsign)
      simp [hnone, hsign]
  refine ⟨hframe, hfield (·.state) fun _ _ => rfl, hfield (·.mismatched) fun _ _ => rfl, hfield (·.role) fun _ _ => rfl, ?_,
    ?_, hfield (·.weight) fun _ _ => rfl, hfield (·.zone) fun _ _ => rfl, hfield (·.forward) fun _ _ => rfl,
    hfield (·.mismatchCount) fun _ _ => rfl, hfield (·.tickets) fun _ _ => rfl, fun hkeeps => ?_, fun hkeeps => ?_, hsome,
    fun ch hch => ?_, hrewritten.seqRecord, fun j hj => hrewritten.entry_other hj, ?_, fun hmapped hrole j hj hcan => ?_,
    hrewritten.lanes⟩
  · refine (hfield (·.identity) fun _ _ => rfl).trans ?_
    show (if st = .empty then none else if present = true then some identity else none) = _
    by_cases hempty : st = .empty <;> simp [hempty]
  · rw [hlane]
    exact clampLane_val lane
  · obtain ⟨hs, ht⟩ := written_keeps e st (if present then some identity else none) (clampLane lane) r z
      (min weight.toNat 8) fwd hkeeps
    exact ⟨hsilent.trans hs, (hfield (·.silenceTimer) fun _ _ => rfl).trans ht⟩
  · obtain ⟨hs, ht⟩ := written_silent e st (if present then some identity else none) (clampLane lane) r z
      (min weight.toNat 8) fwd hkeeps
    exact ⟨hsilent.trans hs, (hfield (·.silenceTimer) fun _ _ => rfl).trans ht⟩
  · have hsign := hsome.1 (by rw [hch]; rfl)
    obtain ⟨d, hd, hchannel⟩ := hrewritten.channel hsign.1 hsign.2 (hfresh hsign)
    obtain rfl : d = ch := Option.some.inj (hd.symm.trans hch)
    rw [hsilent, hlane]
    exact hchannel
  · refine PagesOnly.mono hrewritten.pages_entry fun j hj => ?_
    rw [hlane]
    rcases hj with hj | hj | ⟨l, ⟨hmode, hholder⟩, hj⟩
    · exact .inl hj
    · exact .inr (.inl hj)
    · exact .inr (.inr ⟨l, hmode, hholder, hj⟩)
  · rw [hlane] at hj ⊢
    by_cases hix : j = ix
    · exact hrewritten.shows hmapped hrole j _ hj (by rw [if_pos hix]; exact hfresh ⟨hmapped, hrole⟩) (.inl rfl)
    · obtain ⟨ch, hch, horderly⟩ := hcan.resolve_left hix
      exact hrewritten.shows hmapped hrole j ch hj (by rw [if_neg hix]; exact hch) horderly

end Sys2Proof.Proofs
end

section
/-! PROOFS. The resets (R21, R22, R38, R64, R114, R130, R166, R177, R188). -/

namespace Sys2Proof.Proofs

open Sys2Proof Sys2Proof.Machine Sys2Proof.Safety Sys2Proof.Laws

/-! ### Power-on and RESET_ALL -/

theorem initial_port (p : Pins) (held : Bool) (pending : List Instr) (seg : Seg) :
    (initial p held pending).port seg = SegPort.initial p.signal[seg] := mapAll_get _ _ _

theorem initial_lane (p : Pins) (held : Bool) (pending : List Instr) (l : LaneId) :
    (initial p held pending).lane l = LaneState.initial p.levels[l] := mapAll_get _ _ _

/-- R38, R188: a power-on. -/
theorem powerOn_leaves (p : Pins) (held : Bool) (s : State) : ∃ t, exec (.powerOn p held) s = .next t ∧
    t = { State.reset with
      ports := t.ports, lanes := t.lanes, resetHeld := held, pending := s.pending
      uplink := { Uplink.initial p.node p.linkUp with queue := if held then [] else powerOnQueue p } } ∧
    (∀ seg, t.port seg = SegPort.initial p.signal[seg]) ∧ (∀ l, t.lane l = LaneState.initial p.levels[l]) ∧
    (held = true → ∀ l o, t.driven l o = false) := by
  have hport := initial_port p held s.pending
  have hlane := initial_lane p held s.pending
  cases held with
  | true => exact ⟨_, rfl, rfl, hport, hlane, fun _ _ _ => rfl⟩
  | false => exact ⟨_, rfl, rfl, hport, hlane, fun h => absurd h (by decide)⟩

/-- R188: a reset command that is taken. -/
theorem resetRequest_ready (s : State) (h : GateHdr) (reset : State → State) (hready : Ready s) :
    s.resetRequest h reset = reset (s.gateHeard h) := by
  have hroom : ¬ Config.responseListSize ≤ s.responsesOwed := Nat.not_le.2 hready.2
  unfold State.resetRequest
  rw [if_neg hroom]

/-- R188: RESET_ALL. -/
theorem exec_resetAll (h : GateHdr) (s : State) (hready : Ready s) :
    exec (.resetAll h) s = .next ((s.gateHeard h).resetAll h) := by
  dsimp only [exec]
  unfold execResetAll
  rw [whenRunning_running _ _ hready.1, resetRequest_ready _ _ _ hready]

theorem pins_signal (s : State) (seg : Seg) : s.pins.signal[seg] = (s.port seg).signal := mapAll_get _ _ _

/-- R21: the SEGMENT_EVENT of a port placed by its signal. -/
theorem placedEvent_eq {t : State} {seg : Seg} {signal : Bool} (h : (t.port seg).state = if signal then .up else .down) :
    t.placedEvent seg = ⟨.segmentEvent seg none (if signal then .up else .down) 0, none⟩ := by
  unfold State.placedEvent
  rw [h]

/-- R21, R38, R188: the report queue of a RESET_ALL. -/
theorem resetQueue_all (s : State) (h : GateHdr) :
    State.resetQueue s (initial s.pins false s.pending) h .resetAll (some h.src) =
      [⟨.response ⟨h.tag, 0x0A, .ok, .none, false, .none⟩, some h.src⟩,
        ⟨.partHello s.uplink.node .resetAll none .through false, none⟩] ++
      ((List.finRange 4).map fun seg =>
        ⟨.segmentEvent seg none (if (s.port seg).signal then .up else .down) 0, none⟩) ++
      (List.finRange 16).filterMap fun l =>
        if (s.lane l).mode = .closed then none else some ⟨.modeChange l (s.lane l).mode .closed .reset none, none⟩ := by
  have hevents : (initial s.pins false s.pending).placedEvent = fun seg =>
      ⟨.segmentEvent seg none (if (s.port seg).signal then .up else .down) 0, none⟩ := by
    funext seg
    refine placedEvent_eq ?_
    rw [initial_port, pins_signal]
    rfl
  have hmodes : State.resetEvent s (initial s.pins false s.pending) = fun l =>
      if (s.lane l).mode = .closed then none else some ⟨.modeChange l (s.lane l).mode .closed .reset none, none⟩ := by
    funext l
    unfold State.resetEvent
    rw [initial_lane]
    rfl
  unfold State.resetQueue
  rw [hevents, hmodes]
  rfl

/-! ### RESET_DYNAMIC: the transit entries and their tokens -/

/-- R166: the tokens of some transit entries given back, one after the other. -/
theorem foldl_giveBack (L : List TransitEntry) (s : State) :
    let t := L.foldl (fun (s : State) e => s.updDestAt e.dest fun d => { d with inTransit := d.inTransit - 1 }) s
    t = { s with dest := { s.dest with dests := t.dest.dests } } ∧
    ∀ d, t.destAt d = { s.destAt d with inTransit := (s.destAt d).inTransit - (L.filter (·.dest == d)).length } := by
  induction L generalizing s with
  | nil => exact ⟨rfl, fun _ => rfl⟩
  | cons e L ih =>
    obtain ⟨hframe, hdest⟩ := ih (s.updDestAt e.dest fun d => { d with inTransit := d.inTransit - 1 })
    refine ⟨hframe, fun d => (hdest d).trans ?_⟩
    have hstep : (s.updDestAt e.dest fun d => { d with inTransit := d.inTransit - 1 }).destAt d =
        if d = e.dest then { s.destAt e.dest with inTransit := (s.destAt e.dest).inTransit - 1 } else s.destAt d :=
      upd_get _ _ _ _
    rw [hstep]
    by_cases hd : d = e.dest
    · subst hd
      rw [if_pos rfl, List.filter_cons_of_pos (by simp), List.length_cons, Nat.sub_sub, Nat.add_comm 1]
    · rw [if_neg hd, List.filter_cons_of_neg (by simpa using Ne.symm hd)]

/-- R166: the transit entries without an expiry are removed, and their tokens given back. -/
theorem dropUnset_spec (s : State) :
    let t := s.dropUnset
    t = { s with dest := t.dest } ∧ t.dest.defaults = s.dest.defaults ∧ t.dest.counters = s.dest.counters ∧
    t.dest.transit = s.dest.transit.filter (·.expiry.isSome) ∧
    ∀ d, t.destAt d = { s.destAt d with
      inTransit := (s.destAt d).inTransit - (s.dest.transit.filter fun e => e.expiry.isNone && e.dest == d).length } := by
  obtain ⟨hframe, hdest⟩ := foldl_giveBack (s.dest.transit.filter fun e => e.expiry.isNone)
    (s.updDest fun u => { u with transit := u.transit.filter (·.expiry.isSome) })
  unfold State.dropUnset
  dsimp only
  generalize (s.dest.transit.filter fun e => e.expiry.isNone).foldl _ _ = t at hframe hdest ⊢
  refine ⟨?_, by rw [hframe]; rfl, by rw [hframe]; rfl, by rw [hframe]; rfl, fun d => (hdest d).trans ?_⟩
  · rw [hframe]
    rfl
  · rw [List.filter_filter]
    simp only [Bool.and_comm]
    rfl

/-! ### RESET_DYNAMIC: the tables kept, and what is in motion cleared -/

theorem toList_filter_length {α : Type} {n : Nat} (v : Vector α n) (p : α → Bool) :
    (v.toList.filter p).length = ((List.finRange n).filter fun i => p v[i]).length := by
  have hlist : v.toList = (List.finRange n).map fun i => v[i] := by
    refine List.ext_getElem (by simp) fun i hi hi' => ?_
    simp
  rw [hlist, List.filter_map, List.length_map]
  rfl

/-- The entries of the station map with each place replaced by what `f` makes of it and its place. -/
theorem mapPlaces_get (v : Vector Station 124) (f : Station × Fin 124 → Station)
    (h : ((v.toList.zip (List.finRange 124)).map f).toArray.size = 124) (j : Fin 124) :
    (⟨((v.toList.zip (List.finRange 124)).map f).toArray, h⟩ : Vector Station 124)[j] = f (v[j], j) := by
  simp

/-- R21, R22, R38, R64, R114, R130, R166: the values that RESET_DYNAMIC gives, before a page is offered. -/
theorem dynamicValues_spec (s : State) :
    let t := s.dynamicValues
    t = { s with
      ports := t.ports, stations := t.stations, lanes := t.lanes, pool := t.pool, lastServed := 15, cache := s.cache.dynamic
      slot := { s.slot with
        yesterday := s.slot.yesterday.dynamic, today := s.slot.today.dynamic, tomorrow := s.slot.tomorrow.dynamic }
      dest := t.dest } ∧
    (∀ seg, t.port seg = (s.port seg).dynamic) ∧
    (∀ seg a, t.station (stationIx seg a) =
      (s.station (stationIx seg a)).dynamic s.params.silenceLimit (s.port seg).signal) ∧
    (∀ l, t.lane l = (s.lane l).dynamic) ∧ (∀ id, t.ctx id = {}) ∧
    t.dest.defaults = s.dest.defaults ∧ t.dest.counters = s.dest.counters ∧
    t.dest.transit = s.dest.transit.filter (·.expiry.isSome) ∧
    ∀ d, t.destAt d = { s.destAt d with
      inTransit := (s.destAt d).inTransit - (s.dest.transit.filter fun e => e.expiry.isNone && e.dest == d).length } := by
  unfold State.dynamicValues
  dsimp only
  generalize hv : ({ s with
    ports := _, stations := _, lanes := _, pool := _, lastServed := _, cache := _, slot := _ } : State) = v
  obtain ⟨hframe, hdest⟩ := dropUnset_spec v
  have hport (seg : Seg) : v.port seg = (s.port seg).dynamic := by
    rw [← hv]
    exact mapAll_get _ _ _
  have hstation (seg : Seg) (a : Addr) : v.station (stationIx seg a) =
      (s.station (stationIx seg a)).dynamic s.params.silenceLimit (s.port seg).signal := by
    have hsignal : (mapAll s.ports SegPort.dynamic)[seg].signal = (s.port seg).signal := by
      rw [mapAll_get]
      rfl
    rw [← hv]
    refine (mapPlaces_get _ _ _ _).trans ?_
    dsimp only
    rw [segOf_stationIx]
    exact congrArg (fun live => (s.station (stationIx seg a)).dynamic s.params.silenceLimit live) hsignal
  have hlane (l : LaneId) : v.lane l = (s.lane l).dynamic := by
    rw [← hv]
    exact mapAll_get _ _ _
  have hctx (id : CtxId) : v.ctx id = {} := by
    rw [← hv]
    simp [State.ctx]
  generalize v.dropUnset = t at hframe hdest ⊢
  rw [← hv] at hdest
  have hports : t.ports = v.ports := by rw [hframe]
  have hstations : t.stations = v.stations := by rw [hframe]
  have hlanes : t.lanes = v.lanes := by rw [hframe]
  have hpool : t.pool = v.pool := by rw [hframe]
  refine ⟨?_, ?_, ?_, ?_, ?_, hdest⟩
  · rw [hports, hstations, hlanes, hpool, ← hv]
    rw [← hv] at hframe
    exact hframe
  · unfold State.port at *
    rw [hports]
    exact hport
  · unfold State.station at *
    rw [hstations]
    exact hstation
  · unfold State.lane at *
    rw [hlanes]
    exact hlane
  · unfold State.ctx at *
    rw [hpool]
    exact hctx

/-! ### RESET_DYNAMIC: the pages offered -/

/-- R177: the pages offered change the links alone. -/
theorem offerAll_frame (s : State) : s.offerAll = { s with ports := s.offerAll.ports, stations := s.offerAll.stations } := by
  refine foldl_preserves (P := fun t : State => t = { s with ports := t.ports, stations := t.stations })
    (fun t ix ht => ?_) _ rfl
  rw [← stationIx_of ix, offerPage_eq]
  unfold placed
  rw [ht]

/-- R188: RESET_DYNAMIC. -/
theorem exec_resetDynamic (h : GateHdr) (s : State) (hready : Ready s) :
    exec (.resetDynamic h) s = .next ((s.gateHeard h).resetDynamic h) := by
  dsimp only [exec]
  unfold execResetDynamic
  rw [whenRunning_running _ _ hready.1, resetRequest_ready _ _ _ hready]

theorem dynamic_entry (e : Entry) : e.dynamic =
    if e.state = .valid then
      { e with dirty := e.dirty || decide (e.owed ≠ .none), owed := .none, pins := 0, held := 0, mark := .none }
    else {} := by
  have howed : (e.owed != .none) = decide (e.owed ≠ .none) := by cases e.owed <;> rfl
  unfold Entry.dynamic
  cases e.state with
  | valid =>
    rw [if_pos rfl, ← howed]
  | invalid => rfl
  | filling => rfl

theorem dynamic_set (c : Cache) (i : Fin 1024) : c.dynamic.sets[i] =
    { c.sets[i] with way0 := c.sets[i].way0.dynamic, way1 := c.sets[i].way1.dynamic } := mapAll_get _ _ _

/-- R114: the castouts and the updates discarded are counted. -/
theorem dynamic_counters (c : Cache) : c.dynamic.counters = { c.counters with
    castoutsLost := bumpBy c.counters.castoutsLost ((List.finRange 16).filter fun i => c.slots[i].any (·.castout.isSome)).length
    updatesLost := bumpBy c.counters.updatesLost ((List.finRange 48).filter fun i => c.copies[i].any (·.updateOwed)).length } := by
  unfold Cache.dynamic
  dsimp only
  rw [toList_filter_length c.slots fun f => f.any (·.castout.isSome),
    toList_filter_length c.copies fun p => p.any (·.updateOwed)]

/-- R21, R38, R188: the report queue of a RESET_DYNAMIC. -/
theorem resetQueue_dynamic (s : State) (h : GateHdr) :
    State.resetQueue s s.dynamicValues h .resetDynamic none =
      [⟨.response ⟨h.tag, 0x0A, .ok, .none, false, .none⟩, none⟩,
        ⟨.partHello s.uplink.node .resetDynamic s.slot.clock s.params.writePolicy s.params.offlineProvisional, none⟩] ++
      ((List.finRange 4).map fun seg =>
        ⟨.segmentEvent seg none (if (s.port seg).signal then .up else .down) 0, none⟩) ++
      (List.finRange 16).filterMap fun l =>
        if (s.lane l).mode = (s.lane l).mode.dynamic then none
        else some ⟨.modeChange l (s.lane l).mode (s.lane l).mode.dynamic .reset none, none⟩ := by
  obtain ⟨hframe, hport, -, hlane, -⟩ := dynamicValues_spec s
  have hevents : s.dynamicValues.placedEvent = fun seg =>
      ⟨.segmentEvent seg none (if (s.port seg).signal then .up else .down) 0, none⟩ := by
    funext seg
    refine placedEvent_eq ?_
    rw [hport]
    rfl
  have hmodes : State.resetEvent s s.dynamicValues = fun l =>
      if (s.lane l).mode = (s.lane l).mode.dynamic then none
      else some ⟨.modeChange l (s.lane l).mode (s.lane l).mode.dynamic .reset none, none⟩ := by
    funext l
    unfold State.resetEvent
    rw [hlane]
    rfl
  have hhello : s.dynamicValues.hello .resetDynamic =
      .partHello s.uplink.node .resetDynamic s.slot.clock s.params.writePolicy s.params.offlineProvisional := by
    rw [hframe]
    rfl
  unfold State.resetQueue
  rw [hevents, hmodes, hhello]
  rfl

/-- R21, R177, R188: what RESET_DYNAMIC leaves of a state `v`, by the values before a page is offered (`d`). -/
theorem resetDynamic_spec (v : State) (h : GateHdr) :
    let t := v.resetDynamic h
    let d := v.dynamicValues
    t = { d with
      ports := t.ports, stations := t.stations
      uplink := { v.uplink with
        queue := State.resetQueue v d h .resetDynamic none, waiters := [], owed := [] } } ∧
    ∀ seg : Seg,
      let shown (a : Addr) (p : SegPort) : SegPort × Station :=
        offered v.params.signAck a (t.page (d.station (stationIx seg a)).lane) (p, d.station (stationIx seg a))
      let upTo (n : Nat) : SegPort := ((List.finRange 31).take n).foldl (fun p a => (shown a p).1) (d.port seg)
      t.port seg = upTo 31 ∧ ∀ a : Addr, t.station (stationIx seg a) = (shown a (upTo a.val)).2 := by
  obtain ⟨hframe, -⟩ := dynamicValues_spec v
  unfold State.resetDynamic
  dsimp only
  generalize v.dynamicValues = d at hframe ⊢
  generalize hw : (d.updUplink fun u =>
    { u with queue := State.resetQueue v d h .resetDynamic none, waiters := [], owed := [] }) = w
  have hoffered := offerAll_eq w
  have hrest := offerAll_frame w
  generalize w.offerAll = t at hoffered hrest ⊢
  have hpage (l : LaneId) : t.page l = w.page l := page_of_lane (by unfold LinksLanes; rw [hrest]) (by rw [hrest]; rfl)
  have huplink : d.uplink = v.uplink := by rw [hframe]
  have hparams : w.params = v.params := by rw [← hw, hframe]; rfl
  have hport : w.port = d.port := by rw [← hw]; rfl
  have hstation : w.station = d.station := by rw [← hw]; rfl
  refine ⟨?_, fun seg => ?_⟩
  · rw [hrest, ← hw, ← huplink]
    rfl
  · have hseg := hoffered seg
    simp only [← hpage, hparams, hport, hstation] at hseg
    exact hseg

/-- Settles O55: the three resets by `powerOn_leaves`, `resetQueue_all` and `dynamicValues_spec`; the pages that RESET_DYNAMIC
offers by `offerAll_eq`. -/
theorem resetsLeaveTheirValues : Obligations.ResetsLeaveTheirValues := by
  refine ⟨powerOn_leaves, fun h s hready => ⟨_, rfl, ?_⟩, fun h s hready => ?_⟩
  · rw [exec_resetAll h s hready]
    unfold State.resetAll
    dsimp only
    rw [show State.resetQueue (s.gateHeard h) (initial (s.gateHeard h).pins false (s.gateHeard h).pending) h .resetAll
      (some h.src) = _ from resetQueue_all (s.gateHeard h) h]
    rfl
  · intro resp mode
    have hmode : mode = LaneMode.dynamic := funext fun m => by cases m <;> rfl
    obtain ⟨hframe, hlinks⟩ := resetDynamic_spec (s.gateHeard h) h
    obtain ⟨dframe, dport, dstation, dlane, dctx, ddefaults, dcounters, dtransit, ddest⟩ := dynamicValues_spec (s.gateHeard h)
    rw [resetQueue_dynamic] at hframe
    rw [hmode]
    refine ⟨_, exec_resetDynamic h s hready, ?_⟩
    generalize (s.gateHeard h).resetDynamic h = t at hframe hlinks ⊢
    generalize (s.gateHeard h).dynamicValues = d at *
    have hcache : t.cache = s.cache.dynamic := by rw [hframe, dframe]; rfl
    have hslot : t.slot = { s.slot with
        yesterday := s.slot.yesterday.dynamic, today := s.slot.today.dynamic, tomorrow := s.slot.tomorrow.dynamic } := by
      rw [hframe, dframe]; rfl
    have hdest : t.dest = d.dest := by rw [hframe]
    refine ⟨?frame, ?uplink, ?links, ?lanes, ?pool, ?ages, ?entries, ?slots, ?copies, ?waitList, ?recalls, ?sendOrder,
      ?uncached, ?counters, ?days, ?clock, ?slotCounters, ?windows, ?defaults, ?destCounters, ?transit, ?dests⟩
    case frame =>
      rw [hframe, dframe]
      rfl
    case uplink => exact congrArg State.uplink hframe
    case links =>
      intro seg live placed entry shown upTo
      have hplaced : d.port seg = placed := dport seg
      have hentry (a : Addr) : d.station (stationIx seg a) = entry a := dstation seg a
      have hseg := hlinks seg
      simp only [hplaced, hentry] at hseg
      exact hseg
    case lanes =>
      intro l
      rw [show t.lane l = d.lane l by rw [hframe]; rfl, dlane]
      rfl
    case pool =>
      intro id
      rw [show t.ctx id = d.ctx id by rw [hframe]; rfl, dctx]
    case ages =>
      intro i
      rw [hcache, dynamic_set]
    case entries =>
      intro i y
      unfold State.entry
      rw [hcache, dynamic_set, ← dynamic_entry]
      unfold CacheSet.get
      split <;> rfl
    case slots =>
      intro i
      rw [hcache]
      simp [Cache.dynamic, Cache.initial]
    case copies =>
      intro i
      rw [hcache]
      simp [Cache.dynamic, Cache.initial]
    case waitList => rw [hcache]; rfl
    case recalls => rw [hcache]; rfl
    case sendOrder => rw [hcache]; rfl
    case uncached => rw [hcache]; rfl
    case counters => rw [hcache, dynamic_counters]
    case days =>
      intro i
      unfold State.dayTable
      rw [hslot]
      cases i <;> rfl
    case clock => rw [hslot]
    case slotCounters => rw [hslot]
    case windows =>
      intro p
      have hday (i : DayIx) : t.dayTable i = (s.dayTable i).dynamic := by
        unfold State.dayTable
        rw [hslot]
        cases i <;> rfl
      unfold State.windowAt
      rw [hday]
      exact mapAll_get _ _ _
    case defaults => rw [hdest]; exact ddefaults
    case destCounters => rw [hdest]; exact dcounters
    case transit => rw [hdest]; exact dtransit
    case dests =>
      intro x
      rw [show t.destAt x = d.destAt x by unfold State.destAt; rw [hdest]]
      exact ddest x

end Sys2Proof.Proofs
end

section
/-! PROOFS. The consensus fields: the candidate a read joins, makes or displaces, and what a ranking makes of the field (R71 to
R76, R80). -/

namespace Sys2Proof.Proofs

open Sys2Proof Sys2Proof.Machine Sys2Proof.Safety Sys2Proof.Laws

/-! ### The best, the second and the worst of a list -/

theorem bestOf_mem {cs : List Candidate} {b : Candidate} (h : bestOf cs = some b) : b ∈ cs := by
  induction cs with
  | nil => cases h
  | cons c cs ih =>
    unfold bestOf at h
    split at h
    · cases h
      exact List.mem_cons_self
    · next d hd =>
      split at h
      · exact List.mem_cons_of_mem c (ih (hd.trans h))
      · cases h
        exact List.mem_cons_self

/-- R74: the best is the candidate that no later one passes and that passes every earlier one. -/
theorem bestOf_append_cons {before after : List Candidate} {b : Candidate} (hbefore : ∀ d ∈ before, d.score < b.score)
    (hafter : ∀ d ∈ after, d.score ≤ b.score) : bestOf (before ++ b :: after) = some b := by
  induction before with
  | nil =>
    rw [List.nil_append, bestOf]
    split
    · rfl
    · next d hd => rw [if_neg (hafter d (bestOf_mem hd)).not_gt]
  | cons c cs ih =>
    obtain ⟨hc, hcs⟩ := List.forall_mem_cons.mp hbefore
    rw [List.cons_append, bestOf, ih hcs]
    exact if_pos hc

theorem bestOf_eq_none_iff {cs : List Candidate} : bestOf cs = none ↔ cs = [] := by
  cases cs with
  | nil => simp [bestOf]
  | cons c cs =>
    unfold bestOf
    split
    · simp
    · split <;> simp

theorem score_le_bestOf {cs : List Candidate} {b : Candidate} (h : bestOf cs = some b) : ∀ d ∈ cs, d.score ≤ b.score := by
  induction cs generalizing b with
  | nil => cases h
  | cons c cs ih =>
    unfold bestOf at h
    refine List.forall_mem_cons.mpr ?_
    split at h
    · next hnone =>
      cases h
      rw [bestOf_eq_none_iff.mp hnone]
      exact ⟨le_rfl, List.forall_mem_nil _⟩
    · next e he =>
      have hrest := ih he
      split at h
      · next hlt =>
        cases h
        exact ⟨hlt.le, hrest⟩
      · next hge =>
        cases h
        exact ⟨le_rfl, fun d hd => (hrest d hd).trans (Nat.le_of_not_lt hge)⟩

theorem worstOf_mem {cs : List Candidate} {w : Candidate} (h : worstOf cs = some w) : w ∈ cs := by
  induction cs with
  | nil => cases h
  | cons c cs ih =>
    unfold worstOf at h
    split at h
    · cases h
      exact List.mem_cons_self
    · next d hd =>
      split at h
      · exact List.mem_cons_of_mem c (ih (hd.trans h))
      · cases h
        exact List.mem_cons_self

/-- R73: the worst is the candidate that no later one undercuts and that undercuts every earlier one. -/
theorem worstOf_append_cons {before after : List Candidate} {w : Candidate} (hbefore : ∀ d ∈ before, w.score < d.score)
    (hafter : ∀ d ∈ after, w.score ≤ d.score) : worstOf (before ++ w :: after) = some w := by
  induction before with
  | nil =>
    rw [List.nil_append, worstOf]
    split
    · rfl
    · next d hd => rw [if_neg (hafter d (worstOf_mem hd)).not_gt]
  | cons c cs ih =>
    obtain ⟨hc, hcs⟩ := List.forall_mem_cons.mp hbefore
    rw [List.cons_append, worstOf, ih hcs]
    exact if_pos hc

/-- R65: values differ from candidate to candidate, so dropping one value drops one candidate. -/
theorem filter_value_ne {before after : List Candidate} {c : Candidate} (h : ∀ d ∈ before ++ after, d.value ≠ c.value) :
    (before ++ c :: after).filter (·.value != c.value) = before ++ after := by
  rw [List.filter_append, List.filter_cons_of_neg (by simp), ← List.filter_append, List.filter_eq_self]
  exact fun d hd => bne_iff_ne.mpr (h d hd)

/-- R74, R75: the best leads the second by the margin where it leads every other candidate, and the score 0 that stands for a
missing second, by the margin. -/
theorem secondScore_add_le_iff {before after : List Candidate} {b : Candidate} (hbest : bestOf (before ++ b :: after) = some b)
    (hothers : ∀ d ∈ before ++ after, d.value ≠ b.value) (m n : Nat) :
    secondScore (before ++ b :: after) + m ≤ n ↔ m ≤ n ∧ ∀ d ∈ before ++ after, d.score + m ≤ n := by
  simp only [secondScore, hbest, filter_value_ne hothers]
  split
  · next hnone => simp [bestOf_eq_none_iff.mp hnone]
  · next second hsecond =>
    constructor
    · exact fun hle => ⟨by omega, fun d hd => (Nat.add_le_add_right (score_le_bestOf hsecond d hd) m).trans hle⟩
    · exact fun ⟨_, hle⟩ => hle second (bestOf_mem hsecond)

/-! ### One read (R71 to R73) -/

section
variable {f : ConsField} {value : Text}

theorem any_value_eq_false (h : ∀ d ∈ f.candidates, d.value ≠ value) : f.candidates.any (·.value == value) = false := by
  simpa using h

theorem takeRead_joins {before after : List Candidate} {c : Candidate} (hcands : f.candidates = before ++ c :: after)
    (hvalue : c.value = value) (hothers : ∀ d ∈ before ++ after, d.value ≠ value) (k : Nat) (size : Option Text) :
    f.takeRead value k size = ({ f with candidates := before ++ c.join k :: after }, true) := by
  have hany : f.candidates.any (·.value == value) = true := by simp [hcands, hvalue]
  have hkept : ∀ cs ⊆ before ++ after, cs.map (fun d => if d.value == value then d.join k else d) = cs := by
    intro cs hcs
    refine (List.map_congr_left fun d hd => ?_).trans (List.map_id cs)
    exact if_neg (by simpa using hothers d (hcs hd))
  rw [ConsField.takeRead, if_pos hany, hcands, List.map_append, List.map_cons,
    hkept before (List.subset_append_left before after), hkept after (List.subset_append_right before after),
    if_pos (beq_iff_eq.mpr hvalue)]

theorem takeRead_makes (hnew : ∀ d ∈ f.candidates, d.value ≠ value) (hroom : f.candidates.length < 4) (k : Nat)
    (size : Option Text) :
    f.takeRead value k size = ({ f with candidates := f.candidates ++ [⟨value, k, 1, size⟩] }, true) := by
  rw [ConsField.takeRead, any_value_eq_false hnew, if_neg Bool.false_ne_true]
  exact if_pos hroom

/-- R73: in a full field a new value competes with the candidate of lowest score that is not latched, of equals the one added
earliest. -/
theorem takeRead_competes {before after : List Candidate} {c : Candidate} (hcands : f.candidates = before ++ c :: after)
    (hnew : ∀ d ∈ f.candidates, d.value ≠ value) (hfull : 4 ≤ f.candidates.length) (hfree : f.latched ≠ some c.value)
    (hbefore : ∀ d ∈ before, f.latched ≠ some d.value → c.score < d.score)
    (hafter : ∀ d ∈ after, f.latched ≠ some d.value → c.score ≤ d.score)
    (hothers : ∀ d ∈ before ++ after, d.value ≠ c.value) (k : Nat) (size : Option Text) :
    f.takeRead value k size =
      if c.score < k then ({ f with candidates := before ++ after ++ [⟨value, k, 1, size⟩] }, true)
      else ({ f with discards := min (f.discards + 1) 255 }, false) := by
  have hvictim : worstOf (f.candidates.filter fun d => f.latched != some d.value) = some c := by
    rw [hcands, List.filter_append, List.filter_cons, if_pos (bne_iff_ne.mpr hfree)]
    refine worstOf_append_cons (fun d hd => ?_) (fun d hd => ?_) <;>
      obtain ⟨hmem, hunlatched⟩ := List.mem_filter.mp hd
    · exact hbefore d hmem (bne_iff_ne.mp hunlatched)
    · exact hafter d hmem (bne_iff_ne.mp hunlatched)
  have hnoRoom : ¬ f.candidates.length < Config.maxCandidates := hfull.not_gt
  simp only [ConsField.takeRead, any_value_eq_false hnew, if_neg Bool.false_ne_true, if_neg hnoRoom, hvictim]
  rw [hcands, filter_value_ne hothers]

/-! ### After a ranking (R74 to R76, R80) -/

/-- R75: the SETTLE TEST of a field whose best candidate is `b`. -/
theorem ranked_open {before after : List Candidate} {b : Candidate} (hopen : f.state = .open)
    (hcands : f.candidates = before ++ b :: after) (hbefore : ∀ d ∈ before, d.score < b.score)
    (hafter : ∀ d ∈ after, d.score ≤ b.score) (hothers : ∀ d ∈ before ++ after, d.value ≠ b.value) (t m : Nat) :
    f.ranked t m =
      if t ≤ b.score ∧ m ≤ b.score ∧ ∀ d ∈ before ++ after, d.score + m ≤ b.score then
        { f with state := .settled, latched := some b.value }
      else f := by
  have hbest : bestOf (before ++ b :: after) = some b := bestOf_append_cons hbefore hafter
  simp only [ConsField.ranked, hopen, ConsField.settleTest, hcands, hbest, Bool.and_eq_true, decide_eq_true_eq,
    secondScore_add_le_iff hbest hothers]

/-- R76: the CONTEST TEST of a field whose latched candidate is `b`. -/
theorem overtaken_iff {before after : List Candidate} {b : Candidate} (hcands : f.candidates = before ++ b :: after)
    (hlatched : f.latched = some b.value) (hothers : ∀ d ∈ before ++ after, d.value ≠ b.value) :
    f.overtaken = true ↔ ∃ d ∈ before ++ after, b.score < d.score := by
  obtain ⟨hbefore, hafter⟩ := List.forall_mem_append.mp hothers
  have hfind : f.candidates.find? (fun d => f.latched == some d.value) = some b := by
    rw [hcands, hlatched, List.find?_append,
      List.find?_eq_none.mpr fun d hd => by simpa using (hbefore d hd).symm]
    simp
  have hunlatched (d : Candidate) (hd : d ∈ before ++ after) : f.latched ≠ some d.value := by
    simpa [hlatched] using (hothers d hd).symm
  simp only [ConsField.overtaken, hfind, List.any_eq_true, Bool.and_eq_true, decide_eq_true_eq, bne_iff_ne]
  constructor
  · rintro ⟨d, hd, hlt, hne⟩
    rw [hcands, List.mem_append, List.mem_cons] at hd
    obtain hd | rfl | hd := hd
    · exact ⟨d, List.mem_append_left after hd, hlt⟩
    · exact absurd hlatched hne
    · exact ⟨d, List.mem_append_right before hd, hlt⟩
  · rintro ⟨d, hd, hlt⟩
    have hmem : d ∈ before ++ b :: after := ((List.sublist_cons_self b after).append_left before).subset hd
    exact ⟨d, hcands ▸ hmem, hlt, hunlatched d hd⟩

theorem ranked_latched (hstate : f.state = .settled ∨ f.state = .weak) (t m : Nat) :
    f.ranked t m = if f.overtaken then { f with state := .contested } else f := by
  obtain hstate | hstate := hstate <;> rw [ConsField.ranked, hstate]

/-- R80: a field in UNRESOLVED, ABSENT or CONTESTED is ranked without effect. -/
theorem ranked_other (hstate : f.state = .unresolved ∨ f.state = .absent ∨ f.state = .contested) (t m : Nat) :
    f.ranked t m = f := by
  obtain hstate | hstate | hstate := hstate <;> rw [ConsField.ranked, hstate]

end

/-- Settles O14: a read by `takeRead_joins`, `takeRead_makes` and `takeRead_competes`, a ranking by `ranked_open`,
`ranked_latched` with `overtaken_iff`, and `ranked_other`. -/
theorem readsScoreAndSettleTheirField : Obligations.ReadsScoreAndSettleTheirField := by
  refine ⟨fun f value k size => ⟨?joins, ?makes, ?competes⟩, fun t m f => ⟨?settle, ?contest, fun h => ranked_other h t m⟩⟩
  case joins => exact fun before after c hcands hvalue hothers => takeRead_joins hcands hvalue hothers k size
  case makes => exact fun hnew hroom => takeRead_makes hnew hroom k size
  case competes =>
    exact fun before after c hcands hnew hfull hfree hbefore hafter hothers =>
      takeRead_competes hcands hnew hfull hfree hbefore hafter hothers k size
  case settle =>
    exact fun hopen before after b hcands hbefore hafter hothers =>
      ranked_open hopen hcands hbefore hafter hothers t m
  case contest =>
    intro hstate before after b hcands hlatched hothers
    simp only [ranked_latched hstate, overtaken_iff hcands hlatched hothers]

end Sys2Proof.Proofs
end


section
/-! PROOFS. The VICTIM CHOICE and the BOOKING LOOKUP that uses it (R87 to R94, R102). -/

namespace Sys2Proof.Proofs

open Sys2Proof Sys2Proof.Machine Sys2Proof.Safety Sys2Proof.Laws

theorem eligible_iff (e : Entry) : Work.eligible e = true ↔ e.pins = 0 ∧ e.state ≠ .filling ∧ e.mark = .none ∧ e.owed = .none := by
  simp [Work.eligible, and_assoc]

section Victim

variable {c : CacheSet}

theorem victim_empty0 (h0 : Work.eligible c.way0 = true) (hinvalid : c.way0.state = .invalid) : Work.victim c = some 0 := by
  unfold Work.victim
  rw [h0, hinvalid]
  rfl

theorem victim_empty1 (hno : ¬ (Work.eligible c.way0 = true ∧ c.way0.state = .invalid)) (h1 : Work.eligible c.way1 = true)
    (hinvalid : c.way1.state = .invalid) : Work.victim c = some 1 := by
  unfold Work.victim
  dsimp only
  rw [if_neg (by simpa using hno), h1, hinvalid]
  rfl

/-- R91: with no eligible INVALID way the age marker and the eligibility decide. -/
theorem victim_used (hno0 : ¬ (Work.eligible c.way0 = true ∧ c.way0.state = .invalid))
    (hno1 : ¬ (Work.eligible c.way1 = true ∧ c.way1.state = .invalid)) :
    Work.victim c =
      if Work.eligible c.way0 = true then
        if Work.eligible c.way1 = true then some (if c.age = 0 then 1 else 0) else some 0
      else if Work.eligible c.way1 = true then some 1 else none := by
  unfold Work.victim
  dsimp only
  rw [if_neg (by simpa using hno0), if_neg (by simpa using hno1)]
  cases Work.eligible c.way0 <;> cases Work.eligible c.way1
  · rfl
  · rfl
  · rfl
  · exact (apply_ite some (c.age = 0) 1 0).symm

/-- R91: the way chosen is eligible. -/
theorem victim_eligible {w : Fin 2} (hchosen : Work.victim c = some w) : Work.eligible (c.get w) = true := by
  unfold Work.victim at hchosen
  dsimp only at hchosen
  split at hchosen
  next h => cases hchosen; exact (Bool.and_eq_true_iff.1 h).1
  next =>
    split at hchosen
    next h => cases hchosen; exact (Bool.and_eq_true_iff.1 h).1
    next =>
      split at hchosen
      next h =>
        obtain ⟨h0, h1⟩ := Bool.and_eq_true_iff.1 h
        split at hchosen
        · cases hchosen; exact h1
        · cases hchosen; exact h0
      next =>
        split at hchosen
        next h0 => cases hchosen; exact h0
        next =>
          split at hchosen
          next h1 => cases hchosen; exact h1
          next => cases hchosen

end Victim

/-- Settles O31: the choice by the cases of R91, the set by `setIndex_eq`, the lookup by `lookup_spec`. -/
theorem victimIsTheEligibleWay : Obligations.VictimIsTheEligibleWay := by
  refine ⟨fun c => ?_, setIndex_eq, fun s r l hlink hlength => (lookup_spec { st := s } r l hlink hlength).1⟩
  dsimp only
  simp only [← eligible_iff]
  refine ⟨fun ⟨h0, hinvalid⟩ => victim_empty0 h0 hinvalid, fun hno ⟨h1, hinvalid⟩ => victim_empty1 hno h1 hinvalid,
    fun hno0 hno1 => ?_, fun w => victim_eligible⟩
  rw [victim_used hno0 hno1]
  exact ⟨fun h0 h1 => by rw [if_pos h0, if_pos h1], fun h0 h1 => by rw [if_pos h0, if_neg h1],
    fun h0 h1 => by rw [if_neg h0, if_pos h1], fun h0 h1 => by rw [if_neg h0, if_neg h1]⟩

end Sys2Proof.Proofs
end


section
/-! PROOFS. The TABLE_WRITEs of windows, destinations, defaults, damage weights and uncached prefixes (R93, R120, R147, R153,
R154, R179, R182). -/

namespace Sys2Proof.Proofs

open Sys2Proof Sys2Proof.Machine Sys2Proof.Safety Sys2Proof.Laws

section Request

variable {s : State} {h : GateHdr} {kind : Byte} {act : State → Answer × State}

/-- R178, R179: a request that is taken is answered with what its owner says, once the server is PRESENT. -/
theorem request_answered (hready : Ready s) :
    whenRunning s (fun s => s.request h kind act) =
      let a := act { s with uplink := presence s h }
      .next { a.2 with uplink := made a.2.uplink (response h kind a.1) } := by
  rw [whenRunning_running _ _ hready.1, request_ready _ _ _ _ hready]

/-- R179: a request that its owner accepts, with what its owner has made of the state. -/
theorem request_accepted (hready : Ready s) {a : Answer} {t : State}
    (hact : act { s with uplink := presence s h } = (a, t)) :
    whenRunning s (fun s => s.request h kind act) = .next { t with uplink := made t.uplink (response h kind a) } := by
  rw [request_answered hready, hact]

/-- R179: a request that its owner refuses changes nothing. -/
theorem request_refused (hready : Ready s) {status : Status}
    (hact : act { s with uplink := presence s h } = refuse { s with uplink := presence s h } status) :
    whenRunning s (fun s => s.request h kind act) = .next { s with uplink := answered s h kind (only status) } :=
  request_accepted hready hact

end Request

/-! ### Codes and numbers -/

theorem boolOf_none {b : Byte} (h : 1 < b.toNat) : boolOf b = none := by
  unfold boolOf
  split
  next h0 => omega
  next h1 => omega
  next => rfl

theorem boolOf_le {b : Byte} (h : b.toNat ≤ 1) : boolOf b = some (decide (b.toNat = 1)) := by
  unfold boolOf
  obtain h0 | h1 := Nat.le_one_iff_eq_zero_or_eq_one.1 h
  · rw [h0]; rfl
  · rw [h1]; rfl

theorem destKindOf_none {b : Byte} (h : 2 < b.toNat) : destKindOf b = none := by
  unfold destKindOf
  split
  next h0 => omega
  next h1 => omega
  next h2 => omega
  next => rfl

theorem hintOf_none {b : Byte} (h : 64 ≤ b.toNat) (hne : b.toNat ≠ 255) : hintOf b = none := by
  unfold hintOf
  rw [if_neg (by simpa using hne), dif_neg (Nat.not_lt.2 h)]

theorem clampDest_eq (n : Nat) : clampDest n = ⟨min n 63, by omega⟩ := by
  unfold clampDest
  split
  next h => exact Fin.ext (Nat.min_eq_left (Nat.le_of_lt_succ h)).symm
  next h => exact Fin.ext (Nat.min_eq_right (by omega)).symm

theorem windowIx_none {n : Nat} (h : 288 ≤ n) : windowIx n = none := by
  unfold windowIx
  rw [dif_neg (by omega), dif_neg (by omega), dif_neg (by omega)]

/-! ### The answers -/

section Answers

variable {h : GateHdr} {index : BitVec 16} {s : State}

/-- R120: a write beyond the windows. -/
theorem writeWindowAnswer_badIndex {day : BitVec 16} {state capacity overbook share : Byte} (hindex : 288 ≤ index.toNat) :
    writeWindowAnswer index day state capacity overbook share s = refuse s .badIndex := by
  unfold writeWindowAnswer
  rw [windowIx_none hindex]

/-- R120: a write of a window, by the upper rows of the response table first (log entry 57). -/
theorem writeWindowAnswer_eq {day : BitVec 16} {state capacity overbook share : Byte} {p : DayIx × Fin 96}
    (hplace : windowIx index.toNat = some p) :
    writeWindowAnswer index day state capacity overbook share s =
      if 1 < state.toNat then refuse s .badValue
      else if s.slot.clock = none ∨ (s.dayTable p.1).day ≠ some day then refuse s .denied
      else (okay (decide (8 < overbook.toNat) || decide (8 < share.toNat)),
        s.updWindow p.1 p.2 fun w => { w with
          isOpen := decide (state.toNat = 1), capacity := capacity.toNat
          overbook := min overbook.toNat 8, openShare := min share.toNat 8 }) := by
  unfold writeWindowAnswer
  rw [hplace]
  dsimp only
  by_cases hstate : 1 < state.toNat
  · rw [boolOf_none hstate, if_pos hstate]
  · rw [boolOf_le (Nat.not_lt.1 hstate), if_neg hstate]
    dsimp only
    by_cases hclock : s.slot.clock = none
    · rw [if_pos (by rw [hclock]; rfl), if_pos (.inl hclock)]
    · rw [if_neg (by simpa using hclock)]
      by_cases hday : (s.dayTable p.1).day ≠ some day
      · rw [if_pos hday, if_pos (.inr hday)]
      · rw [if_neg hday, if_neg (not_or.2 ⟨hclock, hday⟩)]
        rfl

theorem writeWindowAnswer_accepted {day : BitVec 16} {state capacity overbook share : Byte} {p : DayIx × Fin 96}
    (hplace : windowIx index.toNat = some p) (hstate : state.toNat ≤ 1) (hclock : s.slot.clock.isSome = true)
    (hday : (s.dayTable p.1).day = some day) :
    writeWindowAnswer index day state capacity overbook share s =
      (okay (decide (8 < overbook.toNat) || decide (8 < share.toNat)),
        s.updWindow p.1 p.2 fun w => { w with
          isOpen := decide (state.toNat = 1), capacity := capacity.toNat
          overbook := min overbook.toNat 8, openShare := min share.toNat 8 }) := by
  rw [writeWindowAnswer_eq hplace, if_neg (Nat.not_lt.2 hstate), hday]
  exact if_neg fun hno => hno.elim (Option.isSome_iff_ne_none.1 hclock) fun hne => hne rfl

theorem updWindow_uplink (s : State) (u : Uplink) (i : DayIx) (w : Fin 96) (f : Window → Window) :
    State.updWindow { s with uplink := u } i w f = { s.updWindow i w f with uplink := u } := by
  cases i <;> rfl

/-- R153: a destination written, where each code is in its list. -/
theorem writeDestAnswer_accepted {kind state capacity accepts alternate phrase : Byte} {d : Fin 64} {k : DestKind}
    {alt : Option (Fin 64)} (hindex : index.toNat = d.val) (hkind : destKindOf kind = some k)
    (halt : hintOf alternate = some alt) (hstate : state.toNat ≤ 1) :
    writeDestAnswer index kind state capacity accepts alternate phrase s =
      (okay (decide (63 < capacity.toNat)), s.updDestAt d fun x => { x with
        kind := k, isOpen := decide (state.toNat = 1), capacity := min capacity.toNat 63
        acceptsExportFull := accepts.getLsbD 0, acceptsEmptyReturn := accepts.getLsbD 1
        acceptsImportFull := accepts.getLsbD 2, acceptsEmptyPickup := accepts.getLsbD 3
        alternate := alt, phrase := phrase.toNat }) := by
  have hlt : index.toNat < 64 := hindex ▸ d.isLt
  have hplace : (⟨index.toNat, hlt⟩ : Fin 64) = d := Fin.ext hindex
  unfold writeDestAnswer
  rw [dif_pos hlt, hkind, boolOf_le hstate, halt, hplace]
  rfl

/-- R153: a destination with a code outside its list. -/
theorem writeDestAnswer_badValue {kind state capacity accepts alternate phrase : Byte} (hindex : index.toNat < 64)
    (hbad : 2 < kind.toNat ∨ 1 < state.toNat ∨ (64 ≤ alternate.toNat ∧ alternate.toNat ≠ 255)) :
    writeDestAnswer index kind state capacity accepts alternate phrase s = refuse s .badValue := by
  unfold writeDestAnswer
  rw [dif_pos hindex]
  split
  next k isOpen alt hk hopen halt =>
    obtain hkind | hstate | ⟨halternate, hne⟩ := hbad
    · rw [destKindOf_none hkind] at hk; cases hk
    · rw [boolOf_none hstate] at hopen; cases hopen
    · rw [hintOf_none halternate hne] at halt; cases halt
  next => rfl

/-- R93: a range of uncached prefixes written; the characters of an absent one are not examined (log entry 28). -/
theorem writePrefixAnswer_accepted {present : Byte} {first last : Vector Byte 4} {i : Fin 2} (hindex : index.toNat = i.val)
    (hgood : present.toNat = 0 ∨ (present.toNat = 1 ∧ (first.toList ++ last.toList).all isKeyChar = true)) :
    writePrefixAnswer index present first last s = (okay false, s.updCache fun c => { c with
      uncached := c.uncached.set i (if present.toNat = 0 then none else some ⟨first, last⟩) }) := by
  obtain ⟨n, hn⟩ := i
  obtain rfl : index.toNat = n := hindex
  unfold writePrefixAnswer
  rw [dif_pos hn]
  obtain h0 | ⟨h1, hall⟩ := hgood
  · rw [boolOf_le (by omega), h0]
    rfl
  · rw [boolOf_le (by omega), if_neg (show ¬ present.toNat = 0 by omega), h1]
    exact if_pos hall

/-- R93: a present byte above 1 (log entry 18), or a range with a character outside the key set. -/
theorem writePrefixAnswer_badValue {present : Byte} {first last : Vector Byte 4} (hindex : index.toNat < 2)
    (hbad : 1 < present.toNat ∨ (present.toNat = 1 ∧ (first.toList ++ last.toList).all isKeyChar = false)) :
    writePrefixAnswer index present first last s = refuse s .badValue := by
  unfold writePrefixAnswer
  rw [dif_pos hindex]
  obtain habove | ⟨h1, hall⟩ := hbad
  · rw [boolOf_none habove]
  · rw [boolOf_le (by omega), h1]
    exact if_neg (by rw [hall]; simp)

end Answers

/-- Settles O51: each command answers what its table says of the record written. -/
theorem plainTableWrites : Obligations.PlainTableWrites := by
  intro h index s hready
  refine ⟨fun day state capacity overbook share => ⟨fun hindex => ?_, fun p hplace => ?_⟩,
    fun kind state capacity accepts alternate phrase => ⟨fun hindex => ?_, fun d hindex => ⟨fun hbad => ?_,
      fun k alt hkind halt hstate => ?_⟩⟩,
    fun value => ⟨fun hindex => ?_, fun hindex => ?_, fun i hindex => ?_, fun i hindex => ?_⟩,
    fun present first last => ⟨fun hindex => ?_, fun i hindex => ⟨fun hbad => ?_, fun hgood => ?_⟩⟩⟩
  · exact request_refused hready (writeWindowAnswer_badIndex hindex)
  · refine ⟨fun hstate => request_refused hready ?_, fun hstate hdenied => request_refused hready ?_,
      fun hstate hclock hday => (request_accepted hready (writeWindowAnswer_accepted hplace hstate hclock hday)).trans ?_⟩
    · rw [writeWindowAnswer_eq hplace, if_pos hstate]
    · rw [writeWindowAnswer_eq hplace, if_neg (Nat.not_lt.2 hstate)]
      exact if_pos hdenied
    · rw [updWindow_uplink]
      rfl
  · refine request_refused hready ?_
    unfold writeDestAnswer
    rw [dif_neg (Nat.not_lt.2 hindex)]
  · exact request_refused hready (writeDestAnswer_badValue (hindex ▸ d.isLt) hbad)
  · exact request_accepted hready (writeDestAnswer_accepted hindex hkind halt hstate)
  · refine request_refused hready ?_
    unfold writeDefaultAnswer
    rw [dif_neg (Nat.not_lt.2 hindex)]
  · refine request_refused hready ?_
    unfold writeWeightAnswer
    rw [dif_neg (Nat.not_lt.2 hindex)]
  · refine (request_answered hready).trans ?_
    obtain ⟨n, hn⟩ := i
    obtain rfl : index.toNat = n := hindex
    unfold writeDefaultAnswer
    rw [dif_pos hn, clampDest_eq]
    rfl
  · refine (request_answered hready).trans ?_
    obtain ⟨n, hn⟩ := i
    obtain rfl : index.toNat = n := hindex
    unfold writeWeightAnswer
    rw [dif_pos hn]
    rfl
  · refine request_refused hready ?_
    unfold writePrefixAnswer
    rw [dif_neg (Nat.not_lt.2 hindex)]
  · exact request_refused hready (writePrefixAnswer_badValue (hindex ▸ i.isLt) hbad)
  · exact request_accepted hready (writePrefixAnswer_accepted hindex hgood)

end Sys2Proof.Proofs
end


section
/-! PROOFS. FLUSH (R96, R107). -/

namespace Sys2Proof.Proofs

open Sys2Proof Sys2Proof.Machine Sys2Proof.Safety Sys2Proof.Laws

variable {s : State} {h : GateHdr}

theorem mem_flushed (i : Fin 1024) (y : Fin 2) :
    (i, y) ∈ flushed s ↔ (s.entry i y).state = .valid ∧ (s.entry i y).dirty = true ∧ (s.entry i y).owed = .none := by
  have hplace : (i, y) ∈ (List.finRange 1024).flatMap fun i => [((i, 0) : Fin 1024 × Fin 2), (i, 1)] := by
    refine List.mem_flatMap.2 ⟨i, List.mem_finRange i, ?_⟩
    obtain rfl | rfl : y = 0 ∨ y = 1 := by omega
    · simp
    · simp
  unfold flushed
  rw [List.mem_filter]
  simp [hplace, and_assoc]

/-- R107: the order in which the entries are examined: ascending set index, way 0 before way 1. -/
theorem flushed_ordered (s : State) : (flushed s).Pairwise fun a b => a.1 < b.1 ∨ (a.1 = b.1 ∧ a.2 < b.2) := by
  unfold flushed
  refine List.Pairwise.filter _ (List.pairwise_flatMap.2 ⟨fun i _ => ?_, ?_⟩)
  · exact List.pairwise_pair.2 (.inr ⟨rfl, Fin.zero_lt_one⟩)
  · refine (List.pairwise_lt_finRange 1024).imp fun {i j} hlt a ha b hb => .inl ?_
    have hset : ∀ {k : Fin 1024} {x : Fin 1024 × Fin 2}, x ∈ [(k, 0), (k, 1)] → x.1 = k := by
      simp only [List.mem_cons, List.not_mem_nil, or_false]
      rintro k x (rfl | rfl) <;> rfl
    rw [hset ha, hset hb]
    exact hlt

theorem flushed_uplink (s : State) (u : Uplink) : flushed { s with uplink := u } = flushed s := by
  unfold flushed
  rfl

theorem flushReports_uplink (s : State) (u : Uplink) : flushReports { s with uplink := u } = flushReports s := by
  unfold flushReports
  rw [flushed_uplink]
  rfl

/-- R107: a FLUSH is denied while one is still to be reported done. -/
theorem flushAnswer_denied (hdone : .flushDone ∈ s.cache.sendOrder) : flushAnswer s = refuse s .denied := by
  unfold flushAnswer
  rw [if_pos (List.contains_iff_mem.2 hdone)]

theorem flushAnswer_accepted (hdone : .flushDone ∉ s.cache.sendOrder) :
    flushAnswer s = (okay false, State.settle (Work.flush { st := s })) := by
  unfold flushAnswer
  rw [if_neg fun hmem => hdone (List.contains_iff_mem.1 hmem)]
  rfl

/-- R53: no context is tested after an event of the cache that settles no link. -/
theorem settle_untouched {w : Work} (htouched : w.touched = []) : State.settle w = w.st := by
  unfold State.settle
  rw [htouched]
  rfl

/-- R96, R107: what a FLUSH that is not denied leaves before its RESPONSE. -/
theorem flushAnswer_spec (u : Uplink) (hdone : .flushDone ∉ s.cache.sendOrder) (hrecalls : RecallsWait s)
    (hwritten : ∀ x ∈ flushed s, (s.entry x.1 x.2).record.isSome = true ∧
      ((s.entry x.1 x.2).mark = .pending → (s.entry x.1 x.2).pins ≠ 0))
    (hroom : cacheRoom { s with uplink := u } = cacheRoom s) :
    ∃ w, flushAnswer { s with uplink := u } = (okay false, w) ∧
      (w = let v := reportsMade { s with uplink := u } (flushReports s)
        { v with cache := { v.cache with sets := w.cache.sets } }) ∧
      (∀ i : Fin 1024, w.cache.sets[i].age = s.cache.sets[i].age) ∧
      ∀ i y, w.entry i y =
        if (i, y) ∈ (flushed s).take (cacheRoom s) then { s.entry i y with dirty := false }
        else if (i, y) ∈ flushed s then { s.entry i y with owed := .writeback }
        else s.entry i y := by
  have hspec := flush_spec { s with uplink := u }
  rw [flushed_uplink, flushReports_uplink, hroom] at hspec
  obtain ⟨-, htouched, hst, hage, hentry⟩ := hspec hwritten hrecalls
  refine ⟨_, (flushAnswer_accepted (s := { s with uplink := u }) hdone).trans (by rw [settle_untouched htouched]), hst, hage, hentry⟩

/-- Settles O35: the answer by the send order, and what an accepted FLUSH leaves by `flush_spec`. -/
theorem flushWritesBackEveryDirtyEntry : Obligations.FlushWritesBackEveryDirtyEntry := by
  intro h s hready
  refine ⟨fun hdone => request_refused hready (flushAnswer_denied hdone), mem_flushed, flushed_ordered s,
    fun hdone hrecalls hwritten => ?_⟩
  obtain ⟨w, hanswer, hst, hage, hentry⟩ := flushAnswer_spec (presence s h) hdone hrecalls hwritten
    (cacheRoom_of _ _ rfl rfl rfl)
  exact ⟨_, request_accepted hready hanswer, by rw [hst], hage, hentry⟩

end Sys2Proof.Proofs
end


section
/-! PROOFS. The cache's part of a commit (R102, R104 to R106, R109, R111, R112). -/

namespace Sys2Proof.Proofs

open Sys2Proof Sys2Proof.Machine Sys2Proof.Safety Sys2Proof.Laws

/-! ### What a commit makes of a record (R104) -/

theorem commitKind_container {r : Record} (hkind : r.kind ≠ .emptyPickup) (holds : Bool) (held : Nat) :
    commitKind r holds held = ({ r with progress := .gatedIn }, false) := by
  unfold commitKind
  cases hk : r.kind with
  | emptyPickup => exact absurd hk hkind
  | exportFull => rfl
  | emptyReturn => rfl
  | importFull => rfl

theorem commitKind_pickup {r : Record} (hkind : r.kind = .emptyPickup) (holds : Bool) (held : Nat) :
    commitKind r holds held =
      if holds = true ∨ held < r.remaining then ({ r with remaining := r.remaining - 1 }, false) else (r, true) := by
  unfold commitKind
  rw [hkind]
  dsimp only
  cases holds with
  | true => rfl
  | false => simp

theorem commitRecord_kiosk {l : Link} (hsource : l.source = .kiosk) (c : Ctx) (r : Record) (held : Nat) :
    commitRecord c l r held = ⟨(commitKind r l.holdsUnit held).1, (commitKind r l.holdsUnit held).2, 0, false⟩ := by
  unfold commitRecord
  rw [hsource]
  rfl

theorem commitRecord_overrun (c : Ctx) (l : Link) (r : Record) (held : Nat) :
    (commitRecord c l r held).overrun = (commitKind r l.holdsUnit held).2 := by
  unfold commitRecord
  dsimp only
  split <;> rfl

/-- R104: a unit link records its seal check and appends the marks that fit. -/
theorem commitRecord_unit {l : Link} {pos : Position} (hsource : l.source.position = some pos) (c : Ctx) (r : Record) (held : Nat) :
    let k := commitRecord c l r held
    let marks := ((c.damage.get pos).map (·.toAppend)).getD []
    k.record = { (commitKind r l.holdsUnit held).1 with
      recorded := c.sealChecks.get pos, prior := r.prior ++ marks.take (12 - r.prior.length) } ∧
    k.appended = min marks.length (12 - r.prior.length) ∧
    (k.listFull = true ↔ 12 - r.prior.length < marks.length) := by
  unfold commitRecord
  simp only [hsource, Config.maxPriorMarks, List.length_take, decide_eq_true_eq]
  exact ⟨trivial, Nat.min_comm _ _, by omega⟩

/-! ### The commit of one link under THROUGH (R104, R105) -/

section Through

variable {s : State} {id : CtxId} {l : Link} {i : Fin 1024} {y : Fin 2} {r : Record}

theorem linkFate_written (hdecided : (s.ctx id).decision = some .admitted ∨ (s.ctx id).decision = some .inspect)
    (htarget : l.target = some (.way i y)) (hresolved : l.state = .resolved) (hrecord : (s.entry i y).record = some r)
    (hcustoms : r.customsHold = false) (hline : r.lineHold = false) :
    linkFate s (s.ctx id) l = .written (commitRecord (s.ctx id) l r (s.entry i y).held) := by
  have hlinked : s.linkRecord l = some r := by
    unfold State.linkRecord
    rw [hresolved, htarget]
    exact hrecord
  unfold linkFate
  rw [htarget, hlinked]
  dsimp only
  rw [if_neg (by tauto), if_neg (by simp [hcustoms, hline])]
  rfl

theorem sentAtOnce_single (hlinks : (s.ctx id).links = [l]) : sentAtOnce s (s.ctx id) l = decide (0 < cacheRoom s) := by
  unfold sentAtOnce
  rw [hlinks, List.idxOf_cons_self]
  rfl

variable {k : Committed} (hfate : linkFate s (s.ctx id) l = .written k) (hchanges : changes l k = true) (hthrough : GoesThrough s)
include hfate hchanges hthrough

theorem committedReport_written (htarget : l.target = some (.way i y)) :
    committedReport s (s.ctx id) l = some (.update i y, .bookingUpdate k.record) := by
  unfold committedReport
  rw [htarget, hfate]
  exact if_pos ⟨hchanges, hthrough⟩

theorem committedEntry_written (hlinks : (s.ctx id).links = [l]) {e : Entry} (howed : e.owed = .none) :
    committedEntry s (s.ctx id) l e =
      let sent : Bool := decide (0 < cacheRoom s)
      { e with
        record := some k.record, owed := if sent then .none else .update, dirty := e.dirty && !sent, pins := e.pins - 1
        held := if l.holdsUnit then e.held - 1 else e.held } := by
  unfold committedEntry
  rw [hfate]
  dsimp only
  rw [if_pos ⟨hchanges, hthrough⟩, sentAtOnce_single hlinks]
  cases decide (0 < cacheRoom s) with
  | true => simp [← howed]
  | false => simp

end Through

/-- R104, R105: the commit of the one RESOLVED link of a visit under THROUGH. -/
theorem commit_through {s : State} {id : CtxId} {l : Link} {i : Fin 1024} {y : Fin 2} {k : Committed}
    (hlinks : (s.ctx id).links = [l]) (htarget : l.target = some (.way i y)) (hmark : (s.entry i y).mark = .none)
    (howed : (s.entry i y).owed = .none) (hthrough : s.params.writePolicy = .through)
    (hfate : linkFate s (s.ctx id) l = .written k) (hchanges : changes l k = true) :
    let t := (Work.commit { st := s } id).st
    let e := s.entry i y
    let v := reportsMade s [(.update i y, .bookingUpdate k.record)]
    let sent : Bool := decide (0 < cacheRoom s)
    t.entry i y = { e with
      record := some k.record, owed := if sent then .none else .update, dirty := e.dirty && !sent, pins := e.pins - 1
      held := if l.holdsUnit then e.held - 1 else e.held } ∧
    t.cache.sendOrder = v.cache.sendOrder ∧ t.uplink = v.uplink ∧
    (t.ctx id).links = [{ l with target := none, holdsUnit := false }] ∧
    (∀ j z, (j, z) ≠ (i, y) → t.entry j z = s.entry j z) := by
  have hquiet : ∀ m ∈ (s.ctx id).links, TargetQuiet s m := by
    rw [hlinks]
    simp only [List.mem_singleton, forall_eq]
    refine ⟨fun j z hway => ?_, fun p hcopy => ?_⟩
    · rw [htarget] at hway
      cases hway
      exact ⟨hmark, howed⟩
    · rw [htarget] at hcopy
      cases hcopy
  have hnodup : ((s.ctx id).links.filterMap (·.target)).Nodup := by
    rw [hlinks]
    simp [htarget]
  obtain ⟨hlinks', -, -, -, hsend, huplink, -, -, hentry, -⟩ := (commit_links s id hnodup hquiet).1
  have hreports : (s.ctx id).links.filterMap (committedReport s (s.ctx id)) = [(.update i y, .bookingUpdate k.record)] := by
    rw [hlinks, List.filterMap_cons, committedReport_written hfate hchanges (.inl hthrough) htarget]
    rfl
  have hfind (j : Fin 1024) (z : Fin 2) :
      (s.ctx id).links.find? (·.target == some (.way j z)) = if (j, z) = (i, y) then some l else none := by
    rw [hlinks, List.find?_singleton, htarget]
    by_cases heq : (j, z) = (i, y)
    · cases heq
      rw [if_pos (beq_self_eq_true _), if_pos rfl]
    · rw [if_neg fun hbeq => heq ?_, if_neg heq]
      cases beq_iff_eq.1 hbeq
      rfl
  rw [hreports] at hsend huplink
  refine ⟨?_, hsend, huplink, ?_, fun j z hne => ?_⟩
  · rw [hentry, hfind, if_pos rfl]
    exact committedEntry_written hfate hchanges (.inl hthrough) hlinks howed
  · rw [hlinks', hlinks]
    rfl
  · rw [hentry, hfind, if_neg hne]

/-- Settles O36: the commit of one link by `commit_through`, of every number of them by `commit_links`, under recall by
`commit_recalledEntry` and `commit_recalledCopy`. -/
theorem commitWritesTheRecord : Obligations.CommitWritesTheRecord := by
  refine ⟨?_, fun s id hnodup hquiet => (commit_links s id hnodup hquiet).1, fun s id l => ⟨?_, ?_⟩, fun c l r held => ⟨?_, ?_, ?_⟩,
    fun r holds held => ⟨?_, ?_, ?_⟩⟩
  · intro s id l i y r c e k hlinks hdecided htarget hresolved hrecord hcustoms hline hmark howed hthrough hchanges
    have hchanges' : changes l k = true := by
      unfold changes
      obtain hover | hsource := hchanges
      · rw [hover]; rfl
      · simp [hsource]
    exact commit_through hlinks htarget hmark howed hthrough
      (linkFate_written hdecided htarget hresolved hrecord hcustoms hline) hchanges'
  · intro i y key released hrecalled
    obtain ⟨-, hcommitted, hframe, hothers, -⟩ := commit_recalledEntry s id l i y key released hrecalled
    exact ⟨⟨hframe, hothers⟩, hcommitted⟩
  · intro p x released hrecalled
    obtain ⟨-, hcommitted, hframe, hothers, -⟩ := commit_recalledCopy s id l p x released hrecalled
    exact ⟨⟨hframe, hothers⟩, hcommitted⟩
  · exact commitRecord_overrun c l r held
  · intro hsource
    rw [commitRecord_kiosk hsource]
    exact ⟨rfl, rfl, rfl⟩
  · intro pos hsource
    have hposition : l.source.position = some pos := by
      obtain ⟨hs, rfl⟩ | ⟨hs, rfl⟩ := hsource <;> rw [hs] <;> rfl
    exact commitRecord_unit hposition c r held
  · exact fun hkind => commitKind_container hkind holds held
  · exact fun hkind hleft => by rw [commitKind_pickup hkind, if_pos hleft]
  · exact fun hkind hholds hover => by rw [commitKind_pickup hkind, if_neg (by rw [hholds]; simpa using hover)]

end Sys2Proof.Proofs
end


section
/-! PROOFS. What the decision steps of an event leave of the cache, of the links and of the report queue (R53, R103, R149): units
are taken, reports are offered, and nothing else of them changes. -/

namespace Sys2Proof.Proofs

open Sys2Proof Sys2Proof.Machine Sys2Proof.Safety Sys2Proof.Laws

/-! ### The cache and the links -/

/-- A link but for the unit it holds. -/
def unheld (l : Link) : Link := { l with holdsUnit := false }

/-- R103: of the cache and of the links, no more than the units held differs. -/
structure UnitsOnly (s t : State) : Prop where
  cache : t.cache = { s.cache with sets := t.cache.sets, copies := t.cache.copies }
  entry : ∀ k y, t.entry k y = { s.entry k y with held := (t.entry k y).held }
  unnamed : ∀ k y, (∀ j, ∀ l ∈ (s.ctx j).links, l.target ≠ some (.way k y)) → t.entry k y = s.entry k y
  copy : ∀ p : Fin 48, t.cache.copies[p].map (fun c => { c with held := 0 }) =
    s.cache.copies[p].map fun c => { c with held := 0 }
  links : ∀ j, (t.ctx j).links.map unheld = (s.ctx j).links.map unheld

namespace UnitsOnly

variable {s t u : State}

theorem of_same (hcache : t.cache = s.cache) (hlinks : ∀ j, (t.ctx j).links = (s.ctx j).links) : UnitsOnly s t where
  cache := by rw [hcache]
  entry k y := by unfold State.entry; rw [hcache]
  unnamed k y _ := by unfold State.entry; rw [hcache]
  copy p := by rw [hcache]
  links j := by rw [hlinks]

theorem refl (s : State) : UnitsOnly s s := of_same rfl fun _ => rfl

/-- The links name what they named. -/
theorem targets (h : UnitsOnly s t) (j : CtxId) : (t.ctx j).links.map (·.target) = (s.ctx j).links.map (·.target) := by
  have hmap := congrArg (List.map (·.target)) (h.links j)
  rw [List.map_map, List.map_map] at hmap
  exact hmap

theorem trans (h : UnitsOnly s t) (g : UnitsOnly t u) : UnitsOnly s u where
  cache := by rw [g.cache, h.cache]
  entry k y := by rw [g.entry, h.entry]
  unnamed k y hfree := by
    refine (g.unnamed k y fun j l hl hway => ?_).trans (h.unnamed k y hfree)
    have hmem := List.mem_map_of_mem (f := (·.target)) hl
    rw [h.targets] at hmem
    obtain ⟨m, hm, htarget⟩ := List.mem_map.1 hmem
    exact hfree j m hm (htarget.trans hway)
  copy p := (g.copy p).trans (h.copy p)
  links j := (g.links j).trans (h.links j)

/-- A link of the one state in its place in the other. -/
theorem link (h : UnitsOnly s t) {j : CtxId} {k : Nat} {l : Link} (hl : (s.ctx j).links[k]? = some l) :
    ∃ m, (t.ctx j).links[k]? = some m ∧ m.key = l.key ∧ m.state = l.state ∧ m.target = l.target := by
  have hplace := congrArg (·[k]?) (h.links j)
  simp only [List.getElem?_map, hl, Option.map_some] at hplace
  obtain ⟨m, hm, heq⟩ := Option.map_eq_some_iff.1 hplace
  exact ⟨m, hm, (congrArg Link.key heq :), (congrArg Link.state heq :), (congrArg Link.target heq :)⟩

end UnitsOnly

theorem setHeld_unitsOnly (s : State) (g : Target) (n : Nat) (hnamed : ∃ j, ∃ l ∈ (s.ctx j).links, l.target = some g) :
    UnitsOnly s (s.setHeld g n) := by
  cases g with
  | way i y =>
    have hway : s.setHeld (.way i y) n = s.updEntry i y fun e => { e with held := n } := rfl
    refine ⟨rfl, fun k z => ?_, fun k z hfree => ?_, fun _ => rfl, fun _ => rfl⟩
    · rw [hway, entry_upd]
      split
      next heq => cases heq; rfl
      next => rfl
    · rw [hway, entry_upd, if_neg]
      intro heq
      cases heq
      obtain ⟨j, l, hl, htarget⟩ := hnamed
      exact hfree j l hl htarget
  | copy p =>
    refine ⟨rfl, fun _ _ => rfl, fun _ _ _ => rfl, fun q => ?_, fun _ => rfl⟩
    have hcopy : s.setHeld (.copy p) n = s.updCopy p fun c => { c with held := n } := rfl
    rw [hcopy, copies_upd]
    split
    next heq =>
      rw [heq, Option.map_map]
      rfl
    next => rfl

theorem updLink_unitsOnly (s : State) (r : LinkRef) : UnitsOnly s (s.updLink r fun l => { l with holdsUnit := true }) := by
  refine ⟨rfl, fun _ _ => rfl, fun _ _ _ => rfl, fun _ => rfl, fun j => ?_⟩
  rw [updLink_ctx]
  split
  next heq =>
    rw [heq]
    refine List.ext_getElem? fun n => ?_
    simp only [List.getElem?_map, List.getElem?_modify]
    split
    · rw [Option.map_eq_map, Option.map_map]
      rfl
    · simp
  next => rfl

theorem takeUnit_unitsOnly (s : State) (r : LinkRef) : UnitsOnly s (s.takeUnit r) := by
  unfold State.takeUnit
  split
  · exact .refl s
  next l hl =>
    split
    next g rec htarget hrec =>
      split
      · exact (setHeld_unitsOnly s g _ ⟨r.ctx, l, List.mem_of_getElem? hl, htarget⟩).trans (updLink_unitsOnly _ r)
      · exact .refl s
    next => exact .refl s

theorem takeUnits_unitsOnly (s : State) (id : CtxId) : UnitsOnly s (s.takeUnits id) :=
  foldl_preserves (fun _ r h => h.trans (takeUnit_unitsOnly _ r)) _ (.refl s)

/-! ### The steps of a decision -/

theorem put_ctx_eq (s : State) (id : CtxId) (c : Ctx) (k : CheckCounters) (j : CtxId) :
    (put s id c k).ctx j = if j = id then c else s.ctx j := by
  show (s.updCtx id fun _ => c).ctx j = _
  rw [State.ctx_updCtx]

theorem sendTo_links (s : State) (id : CtxId) (x : Fin 64) (j : CtxId) : ((s.sendTo id x).ctx j).links = (s.ctx j).links := by
  obtain ⟨hown, hothers, -⟩ := sendTo_spec s id x
  by_cases hj : j = id
  · rw [hj, hown]
  · rw [hothers j hj]

theorem takeOffer_links (s : State) (id : CtxId) (o : Option (BitVec 16 × Nat)) (j : CtxId) :
    ((s.takeOffer id o).ctx j).links = (s.ctx j).links := by
  obtain ⟨hown, hothers⟩ := takeOffer_ctx s id o
  by_cases hj : j = id
  · rw [hj, hown]
  · rw [hothers j hj]

theorem updCtx_links (s : State) (id : CtxId) {f : Ctx → Ctx} (hf : ∀ c, (f c).links = c.links) (j : CtxId) :
    ((s.updCtx id f).ctx j).links = (s.ctx j).links := by
  rw [State.ctx_updCtx]
  split
  next heq => rw [heq, hf]
  next => rfl

theorem sendTo_unitsOnly (s : State) (id : CtxId) (x : Fin 64) : UnitsOnly s (s.sendTo id x) :=
  .of_same (by simp) (sendTo_links s id x)

theorem takeOffer_unitsOnly (s : State) (id : CtxId) (o : Option (BitVec 16 × Nat)) : UnitsOnly s (s.takeOffer id o) :=
  .of_same (by simp) (takeOffer_links s id o)

theorem updCtx_unitsOnly (s : State) (id : CtxId) {f : Ctx → Ctx} (hf : ∀ c, (f c).links = c.links) :
    UnitsOnly s (s.updCtx id f) := .of_same rfl (updCtx_links s id hf)

theorem countDest_unitsOnly (s : State) (f : DestCounters → DestCounters) : UnitsOnly s (s.countDest f) :=
  .of_same rfl fun _ => rfl

theorem countSlot_unitsOnly (s : State) (f : SlotCounters → SlotCounters) : UnitsOnly s (s.countSlot f) :=
  .of_same rfl fun _ => rfl

theorem turnOutRoute_unitsOnly (s : State) (id : CtxId) : UnitsOnly s (s.turnOutRoute id) := by
  unfold State.turnOutRoute
  split
  · exact sendTo_unitsOnly s id _
  · exact .trans (updCtx_unitsOnly s id (f := fun c => { c with destination := some s.troubleStart }) fun _ => rfl)
      (countDest_unitsOnly _ _)

theorem decideProvisional_unitsOnly (s : State) (id : CtxId) : UnitsOnly s (s.decideProvisional id) := by
  unfold State.decideProvisional
  dsimp only
  refine .trans ?_ (takeUnits_unitsOnly _ id)
  refine .trans ?_ (sendTo_unitsOnly _ id _)
  refine .trans ?_ (countDest_unitsOnly _ _)
  exact updCtx_unitsOnly s id fun _ => rfl

theorem decideByTable_unitsOnly (s : State) (id : CtxId) (o : Option (BitVec 16 × Nat)) :
    UnitsOnly s (s.decideByTable id o) := by
  have hlast {u : State} (h : UnitsOnly s u) : UnitsOnly s ((u.takeUnits id).takeOffer id o) :=
    (h.trans (takeUnits_unitsOnly u id)).trans (takeOffer_unitsOnly _ id o)
  unfold State.decideByTable
  dsimp only
  have hfirst : UnitsOnly s (s.updCtx id fun c => { c with
      decision := some (State.decisionOf (s.reasonsOf (s.ctx id)) (s.ctx id).slotResult), reasons := s.reasonsOf (s.ctx id) }) :=
    updCtx_unitsOnly s id fun _ => rfl
  generalize (s.updCtx id fun c => { c with
      decision := some (State.decisionOf (s.reasonsOf (s.ctx id)) (s.ctx id).slotResult)
      reasons := s.reasonsOf (s.ctx id) }) = u at hfirst ⊢
  have hnowhere : UnitsOnly s ((u.updCtx id fun c => { c with
      decision := some .refer, reasons := { c.reasons with noDestination := true } }).countDest fun k => { k with
      noDestination := bump k.noDestination }) := by
    refine .trans ?_ (countDest_unitsOnly _ _)
    exact hfirst.trans (updCtx_unitsOnly u id fun _ => rfl)
  split
  · exact hfirst.trans (turnOutRoute_unitsOnly u id)
  · exact hlast hfirst
  all_goals
    split
    · exact hlast (hfirst.trans (sendTo_unitsOnly u id _))
    · exact hlast hnowhere

theorem checks_unitsOnly (s : State) (id : CtxId) (prov : Bool) :
    UnitsOnly s ((s.updCtx id (Ctx.finalise s.params)).runChecks id prov) := by
  have hput : s.updCtx id (Ctx.finalise s.params) = put s id ((s.ctx id).finalise s.params) s.check.counters := rfl
  refine .of_same (by simp) fun j => ?_
  rw [hput, runChecks_put, put_ctx_eq]
  split
  next heq =>
    obtain ⟨-, -, -, hlinks, -⟩ := finalise_rest s.params (s.ctx id)
    rw [heq, ← hlinks]
  next => rfl

theorem classifyStep_unitsOnly (s : State) (id : CtxId) (prov : Bool) : UnitsOnly s (s.classifyStep id prov).1 := by
  unfold State.classifyStep
  dsimp only
  split
  · refine .trans ?_ (countSlot_unitsOnly _ _)
    exact updCtx_unitsOnly s id fun _ => rfl
  · exact updCtx_unitsOnly s id fun _ => rfl

theorem decisionStep_unitsOnly (s : State) (id : CtxId) : UnitsOnly s (s.decisionStep id) := by
  unfold State.decisionStep
  dsimp only
  refine .trans ?_ (updCtx_unitsOnly _ id fun _ => rfl)
  have hclassified (prov : Bool) :
      UnitsOnly s (((s.updCtx id (Ctx.finalise s.params)).runChecks id prov).classifyStep id prov).1 :=
    (checks_unitsOnly s id prov).trans (classifyStep_unitsOnly _ id prov)
  split
  · exact (hclassified _).trans (decideProvisional_unitsOnly _ id)
  · exact (hclassified _).trans (decideByTable_unitsOnly _ id _)

theorem enterReferred_unitsOnly (s : State) (id : CtxId) : UnitsOnly s (s.enterReferred id) :=
  .of_same (by simp) fun j => by
    rw [enterReferred_ctx]
    split
    next heq => rw [heq]
    next => rfl

theorem enterDecided_unitsOnly (s : State) (id : CtxId) : UnitsOnly s (s.enterDecided id) :=
  .of_same (by simp) fun j => by
    rw [enterDecided_ctx]
    split
    next heq => rw [heq]
    next => rfl

theorem decideTest_unitsOnly (s : State) (id : CtxId) : UnitsOnly s (s.decideTest id) := by
  unfold State.decideTest
  dsimp only
  split
  · split
    · exact (decisionStep_unitsOnly s id).trans (enterReferred_unitsOnly _ id)
    · exact (decisionStep_unitsOnly s id).trans (enterDecided_unitsOnly _ id)
  · exact .refl s

/-- R53: the contexts whose links changed are tested, and of the cache and of the links no more than the units held differs. -/
theorem settle_unitsOnly (w : Work) : UnitsOnly w.st (State.settle w) :=
  foldl_preserves (fun _ id h => h.trans (decideTest_unitsOnly _ id)) _ (.refl w.st)

/-! ### The configuration -/

theorem takeOffer_clock (s : State) (id : CtxId) (o : Option (BitVec 16 × Nat)) :
    (s.takeOffer id o).slot.clock = s.slot.clock := by
  unfold State.takeOffer
  split
  · unfold State.reserve
    dsimp only
    split
    · unfold State.updWindow State.updDay
      split <;> rfl
    · rfl
  · rfl

theorem decisionStep_clock (s : State) (id : CtxId) : (s.decisionStep id).slot.clock = s.slot.clock := by
  have hclassify (u : State) (prov : Bool) : (u.classifyStep id prov).1.slot.clock = u.slot.clock := by
    unfold State.classifyStep
    dsimp only
    split <;> rfl
  have htable (u : State) (o : Option (BitVec 16 × Nat)) : (u.decideByTable id o).slot.clock = u.slot.clock := by
    unfold State.decideByTable
    dsimp only
    split
    · simp
    · rw [takeOffer_clock]; simp
    all_goals
      split
      · rw [takeOffer_clock]; simp
      · rw [takeOffer_clock]; simp
  unfold State.decisionStep
  dsimp only
  rw [State.updCtx_slot]
  split
  · simp [hclassify]
  · rw [htable, hclassify]; simp

theorem issueTicket_phrases (s : State) (id : CtxId) : (s.issueTicket id).signs.phrases = s.signs.phrases := by
  unfold State.issueTicket
  dsimp only
  split
  · rfl
  · split
    · rfl
    · simp

theorem enterDecided_phrases (s : State) (id : CtxId) : (s.enterDecided id).signs.phrases = s.signs.phrases := by
  unfold State.enterDecided
  dsimp only
  split
  · simp [issueTicket_phrases]
  · simp

/-- R53: a decision step leaves the configuration as it is. -/
theorem decideTest_configured (s : State) (id : CtxId) : Configured s (s.decideTest id) := by
  by_cases htest : (s.ctx id).state = .lookup ∧ (s.ctx id).links.all (·.state != .pending) = true
  · obtain ⟨-, -, -, -, -, -, -, -, -, -, -, -, -, -, -, -, -, -, -, -, -, -, -, -, -, hweights, hdefaults, hparams, -⟩ :=
      decideTest_decides s id htest.1 htest.2
    have hcache := (decideTest_unitsOnly s id).cache
    refine ⟨hparams, hweights, hdefaults, ?_, by rw [hcache], ?_, by simp⟩
    · unfold State.decideTest
      rw [if_pos htest]
      dsimp only
      split
      · simp
      · simp [enterDecided_phrases]
    · unfold State.decideTest
      rw [if_pos htest]
      dsimp only
      split
      · simp [decisionStep_clock]
      · simp [decisionStep_clock]
  · unfold State.decideTest
    rw [if_neg htest]
    exact ⟨rfl, rfl, rfl, rfl, rfl, rfl, rfl⟩

theorem Configured.trans {s t u : State} (h : Configured s t) (g : Configured t u) : Configured s u := by
  obtain ⟨h1, h2, h3, h4, h5, h6, h7⟩ := h
  obtain ⟨g1, g2, g3, g4, g5, g6, g7⟩ := g
  exact ⟨g1.trans h1, g2.trans h2, g3.trans h3, g4.trans h4, g5.trans h5, g6.trans h6, g7.trans h7⟩

theorem settle_configured (w : Work) : Configured w.st (State.settle w) :=
  foldl_preserves (P := fun t => Configured w.st t) (fun _ id h => Configured.trans h (decideTest_configured _ id)) _
    ⟨rfl, rfl, rfl, rfl, rfl, rfl, rfl⟩

/-! ### The report queue -/

/-- R180, R181: reports and waiters are added at the ends. -/
structure Grows (u v : Uplink) : Prop where
  queue : u.queue <+: v.queue
  waiters : u.waiters <+: v.waiters

namespace Grows

theorem refl (u : Uplink) : Grows u u := ⟨List.prefix_rfl, List.prefix_rfl⟩

theorem trans {u v w : Uplink} (h : Grows u v) (g : Grows v w) : Grows u w :=
  ⟨h.queue.trans g.queue, h.waiters.trans g.waiters⟩

theorem of_eq {u v : Uplink} (h : v = u) : Grows u v := h ▸ refl u

end Grows

theorem classB_grows (u : Uplink) (r : Report) : Grows u (classB u r) := by
  unfold classB
  split
  · exact ⟨List.prefix_append _ _, List.prefix_rfl⟩
  · exact ⟨List.prefix_rfl, List.prefix_rfl⟩

theorem waiting_grows (u : Uplink) (w : Waiter) : Grows u (waiting u w) := by
  unfold waiting
  split
  · exact .refl u
  · exact ⟨List.prefix_rfl, List.prefix_append _ _⟩

theorem displace_grows (s : State) (e : TransitEntry) : Grows s.uplink (s.displace e).uplink := by
  have huplink : (s.displace e).uplink = classB s.uplink (.transitDisplaced e) := by
    unfold State.displace
    rw [offerB_eq]
    rfl
  rw [huplink]
  exact classB_grows _ _

theorem takeToken_grows (s : State) (id : CtxId) (d : Fin 64) : Grows s.uplink (s.takeToken id d).uplink := by
  have hroom (u : State) : Grows u.uplink (if Config.transitListSize ≤ u.dest.transit.length then
      match u.dest.transit with
      | e :: _ => u.displace e
      | [] => u
    else u).uplink := by
    split
    · split
      · exact displace_grows u _
      · exact .refl _
    · exact .refl _
  unfold State.takeToken
  dsimp only
  refine .trans ?_ (hroom _)
  split
  · exact displace_grows s _
  · exact .refl _

theorem sendTo_grows (s : State) (id : CtxId) (d : Fin 64) : Grows s.uplink (s.sendTo id d).uplink :=
  takeToken_grows (s.updCtx id fun c => { c with destination := some d }) id d

theorem turnOutRoute_grows (s : State) (id : CtxId) : Grows s.uplink (s.turnOutRoute id).uplink := by
  unfold State.turnOutRoute
  split
  · exact sendTo_grows s id _
  · exact .refl _

theorem decideProvisional_grows (s : State) (id : CtxId) : Grows s.uplink (s.decideProvisional id).uplink := by
  unfold State.decideProvisional
  dsimp only
  have hunits (u : State) : Grows u.uplink (u.takeUnits id).uplink := .of_eq (by simp)
  refine .trans ?_ (hunits _)
  refine .trans ?_ (sendTo_grows _ id _)
  exact .refl _

theorem decideByTable_grows (s : State) (id : CtxId) (o : Option (BitVec 16 × Nat)) :
    Grows s.uplink (s.decideByTable id o).uplink := by
  have hlast {u : State} (h : Grows s.uplink u.uplink) : Grows s.uplink ((u.takeUnits id).takeOffer id o).uplink :=
    h.trans (.of_eq (by simp))
  unfold State.decideByTable
  dsimp only
  have hfirst : Grows s.uplink (s.updCtx id fun c => { c with
      decision := some (State.decisionOf (s.reasonsOf (s.ctx id)) (s.ctx id).slotResult)
      reasons := s.reasonsOf (s.ctx id) }).uplink := .refl _
  generalize (s.updCtx id fun c => { c with
      decision := some (State.decisionOf (s.reasonsOf (s.ctx id)) (s.ctx id).slotResult)
      reasons := s.reasonsOf (s.ctx id) }) = u at hfirst ⊢
  split
  · exact hfirst.trans (turnOutRoute_grows u id)
  · exact hlast hfirst
  all_goals
    split
    · exact hlast (hfirst.trans (sendTo_grows u id _))
    · exact hlast hfirst

theorem decisionStep_grows (s : State) (id : CtxId) : Grows s.uplink (s.decisionStep id).uplink := by
  have hclassified (prov : Bool) : Grows s.uplink
      (((s.updCtx id (Ctx.finalise s.params)).runChecks id prov).classifyStep id prov).1.uplink := .of_eq (by simp)
  unfold State.decisionStep
  dsimp only
  rw [State.updCtx_uplink]
  split
  · exact (hclassified _).trans (decideProvisional_grows _ id)
  · exact (hclassified _).trans (decideByTable_grows _ id _)

theorem decideTest_grows (s : State) (id : CtxId) : Grows s.uplink (s.decideTest id).uplink := by
  have hreferred (u : State) : Grows u.uplink (u.enterReferred id).uplink := by
    have hmoved : (u.moveTo id .referred).uplink = u.uplink := by simp
    unfold State.enterReferred
    dsimp only
    split
    · refine .trans (.of_eq hmoved) ⟨List.prefix_append _ _, List.prefix_rfl⟩
    · rw [wait_eq]
      exact .trans (.of_eq hmoved) (waiting_grows _ _)
  unfold State.decideTest
  dsimp only
  split
  · refine (decisionStep_grows s id).trans ?_
    split
    · exact hreferred _
    · exact .of_eq (by simp)
  · exact .refl _

theorem settle_grows (w : Work) : Grows w.st.uplink (State.settle w).uplink :=
  foldl_preserves (P := fun t : State => Grows w.st.uplink t.uplink) (fun _ id h => h.trans (decideTest_grows _ id)) _ (.refl _)

end Sys2Proof.Proofs
end

section
/-! PROOFS. The links that name a target (R97 to R99, R111): which they are, and what an end of a fetch makes of them. -/

namespace Sys2Proof.Proofs

open Sys2Proof Sys2Proof.Machine Sys2Proof.Safety Sys2Proof.Laws

/-! ### The links picked out -/

theorem mem_linksWhere {s : State} {p : Ctx → Link → Bool} {q : LinkRef} :
    q ∈ s.linksWhere p ↔ ∃ l, (s.ctx q.ctx).links[q.index]? = some l ∧ p (s.ctx q.ctx) l = true := by
  unfold State.linksWhere
  simp only [List.mem_flatMap, List.mem_filterMap, List.mem_finRange, true_and, List.mem_range]
  constructor
  · rintro ⟨i, k, hk, hpick⟩
    rw [List.getElem?_eq_getElem hk] at hpick
    split at hpick
    next l hl =>
      cases hl
      split at hpick
      next hp =>
        cases hpick
        exact ⟨_, List.getElem?_eq_getElem hk, hp⟩
      next => cases hpick
    next => cases hpick
  · rintro ⟨l, hl, hp⟩
    obtain ⟨hlt, -⟩ := List.getElem?_eq_some_iff.1 hl
    refine ⟨q.ctx, q.index, hlt, ?_⟩
    rw [hl]
    exact if_pos hp

theorem linksWhere_nodup (s : State) (p : Ctx → Link → Bool) : (s.linksWhere p).Nodup := by
  have hpick {i : CtxId} {k : Nat} {q : LinkRef}
      (h : (match (s.ctx i).links[k]? with
        | some l => if p (s.ctx i) l then some (⟨i, k⟩ : LinkRef) else none
        | none => none) = some q) : q = ⟨i, k⟩ := by
    split at h
    · split at h
      · exact (Option.some.inj h).symm
      · cases h
    · cases h
  unfold State.linksWhere
  rw [List.nodup_flatMap]
  refine ⟨fun i _ => ?_, ?_⟩
  · refine List.Nodup.filterMap (fun k m q hk hm => ?_) List.nodup_range
    exact (congrArg LinkRef.index ((hpick hk).symm.trans (hpick hm)) :)
  · refine (List.nodup_finRange 24).imp fun {i j} hij q hi hj => hij ?_
    obtain ⟨k, -, hk⟩ := List.mem_filterMap.1 hi
    obtain ⟨m, -, hm⟩ := List.mem_filterMap.1 hj
    exact (congrArg LinkRef.ctx ((hpick hk).symm.trans (hpick hm)) :)

/-- The one link picked out. -/
theorem linksWhere_single {s : State} {p : Ctx → Link → Bool} {r : LinkRef} {l : Link}
    (hl : (s.ctx r.ctx).links[r.index]? = some l) (hp : p (s.ctx r.ctx) l = true)
    (honly : ∀ (j : CtxId) (m : Nat) (x : Link), (s.ctx j).links[m]? = some x → p (s.ctx j) x = true → j = r.ctx ∧ m = r.index) :
    s.linksWhere p = [r] := by
  refine List.perm_singleton.1 ?_
  rw [List.perm_ext_iff_of_nodup (linksWhere_nodup s p) (List.nodup_singleton r)]
  intro q
  rw [mem_linksWhere, List.mem_singleton]
  constructor
  · rintro ⟨x, hx, hpx⟩
    obtain ⟨hctx, hindex⟩ := honly q.ctx q.index x hx hpx
    cases q; cases r; cases hctx; cases hindex; rfl
  · rintro rfl
    exact ⟨l, hl, hp⟩

/-! ### The links that name a target -/

theorem updLink_link (s : State) (r : LinkRef) (f : Link → Link) (j : CtxId) (k : Nat) :
    ((s.updLink r f).ctx j).links[k]? = ((s.ctx j).links[k]?).map fun l => if (⟨j, k⟩ : LinkRef) = r then f l else l := by
  rw [updLink_ctx]
  by_cases hr : (⟨j, k⟩ : LinkRef) = r
  · subst hr
    simp
  · simp only [hr, if_false, Option.map_id']
    split
    next hj =>
      have hne : r.index ≠ k := by
        rintro rfl
        exact hr (by rw [hj])
      simp [hne]
    next => rfl

theorem foldl_updLink_link (f : Link → Link) (rs : List LinkRef) (hnodup : rs.Nodup) (s : State) (j : CtxId) (k : Nat) :
    ((rs.foldl (fun s r => s.updLink r f) s).ctx j).links[k]? =
      ((s.ctx j).links[k]?).map fun l => if (⟨j, k⟩ : LinkRef) ∈ rs then f l else l := by
  induction rs generalizing s with
  | nil => simp
  | cons r rs ih =>
    obtain ⟨hnot, hrest⟩ := List.nodup_cons.1 hnodup
    rw [List.foldl_cons, ih hrest, updLink_link, Option.map_map]
    congr 1
    funext l
    by_cases hr : (⟨j, k⟩ : LinkRef) = r
    · subst hr
      simp [hnot]
    · simp [hr]

theorem foldl_updLink_ctx (f : Link → Link) (rs : List LinkRef) (s : State) (j : CtxId) :
    (rs.foldl (fun s r => s.updLink r f) s).ctx j =
      { s.ctx j with links := ((rs.foldl (fun s r => s.updLink r f) s).ctx j).links } :=
  foldl_preserves (P := fun t : State => t.ctx j = { s.ctx j with links := (t.ctx j).links }) (fun t r h => by
    rw [updLink_ctx]
    split
    · rw [h]
    · exact h) _ rfl

/-- R97 to R99: the links of a context that name a target, changed. -/
def relinkAll (g : Target) (f : Link → Link) (c : Ctx) : Ctx :=
  { c with links := c.links.map fun l => if l.target = some g then f l else l }

theorem setLinks_ctx (w : Work) (g : Target) (f : Link → Link) (j : CtxId) :
    (w.setLinks g f).st.ctx j = relinkAll g f (w.st.ctx j) := by
  have hlinks : ((w.setLinks g f).st.ctx j).links = (relinkAll g f (w.st.ctx j)).links := by
    refine List.ext_getElem? fun k => ?_
    refine (foldl_updLink_link f _ (linksWhere_nodup w.st fun _ l => l.target == some g) w.st j k).trans ?_
    unfold relinkAll
    rw [List.getElem?_map]
    cases hl : (w.st.ctx j).links[k]? with
    | none => rfl
    | some l =>
      have hnames : (⟨j, k⟩ : LinkRef) ∈ w.st.linksWhere (fun _ l => l.target == some g) ↔ l.target = some g := by
        rw [mem_linksWhere]
        constructor
        · rintro ⟨m, hm, hp⟩
          cases hl.symm.trans hm
          exact beq_iff_eq.1 hp
        · intro h
          exact ⟨l, hl, beq_iff_eq.2 h⟩
      rw [Option.map_some, Option.map_some]
      simp only [hnames]
  have hrest : (w.setLinks g f).st.ctx j = { w.st.ctx j with links := ((w.setLinks g f).st.ctx j).links } :=
    foldl_updLink_ctx f (w.st.linksWhere fun _ l => l.target == some g) w.st j
  rw [hrest, hlinks]
  rfl

theorem setLinks_st (w : Work) (g : Target) (f : Link → Link) :
    (w.setLinks g f).st = { w.st with pool := (w.setLinks g f).st.pool } :=
  foldl_preserves (P := fun t : State => t = { w.st with pool := t.pool }) (fun t r h => by
    rw [h]
    rfl) _ rfl

theorem setLinks_retry (w : Work) (g : Target) (f : Link → Link) : (w.setLinks g f).retry = w.retry := rfl

theorem mem_setLinks_touched {w : Work} {g : Target} {f : Link → Link} {j : CtxId} :
    j ∈ (w.setLinks g f).touched ↔ j ∈ w.touched ∨ ∃ l ∈ (w.st.ctx j).links, l.target = some g := by
  show j ∈ w.touched ++ _ ↔ _
  rw [List.mem_append, List.mem_map]
  refine or_congr_right ⟨?_, ?_⟩
  · rintro ⟨q, hq, rfl⟩
    obtain ⟨l, hl, hp⟩ := mem_linksWhere.1 hq
    exact ⟨l, List.mem_of_getElem? hl, beq_iff_eq.1 hp⟩
  · rintro ⟨l, hl, htarget⟩
    obtain ⟨k, hk⟩ := List.getElem?_of_mem hl
    exact ⟨⟨j, k⟩, mem_linksWhere.2 ⟨l, hk, beq_iff_eq.2 htarget⟩, rfl⟩

end Sys2Proof.Proofs
end

section
/-! PROOFS. The end of a fetch without a record (R97 to R99, R110): the slot is FREE, the entry or the visit's copy is gone, and the
links that named it name nothing; an answer that is late or bad counts, and changes nothing else. -/

namespace Sys2Proof.Proofs

open Sys2Proof Sys2Proof.Machine Sys2Proof.Safety Sys2Proof.Laws

/-! ### The fetch that ends -/

/-- R110: whether a fetch is for an entry marked REFILL. -/
def refilling (s : State) (f : Fetch) : Bool :=
  match f.target with
  | .way k y => (s.entry k y).mark == .refill
  | .copy _ => false

/-- R98, R99, R110: the cache once a fetch has ended without a record. -/
def withoutFetch (s : State) (i : Fin 16) (f : Fetch) : Cache := { s.cache with
  slots := s.cache.slots.set i none
  sets := match f.target with
    | .way k y => upd s.cache.sets k (·.put y {})
    | .copy _ => s.cache.sets
  copies := match f.target with
    | .way _ _ => s.cache.copies
    | .copy p => s.cache.copies.set p none
  recalls :=
    if refilling s f then s.cache.recalls.map fun r => if r.key == f.key then { r with entryPart := false } else r
    else s.cache.recalls }

/-- R98, R99: a link whose fetch has ended without a record. -/
def unfilled (st : LinkState) (l : Link) : Link := { l with state := st, target := none }

/-- R98, R99: the slot freed and the links changed, before the target is. -/
theorem failFetch_links (s : State) (i : Fin 16) (g : Target) (st : LinkState) :
    (({ st := s } : Work).freeFetch i).setLinks g (unfilled st) =
      let w := (({ st := s } : Work).freeFetch i).setLinks g (unfilled st)
      { st := { s with pool := w.st.pool, cache := { s.cache with slots := s.cache.slots.set i none } }
        retry := true, touched := w.touched } := by
  have hst := setLinks_st (({ st := s } : Work).freeFetch i) g (unfilled st)
  have hretry := setLinks_retry (({ st := s } : Work).freeFetch i) g (unfilled st)
  generalize (({ st := s } : Work).freeFetch i).setLinks g (unfilled st) = w at hst hretry ⊢
  obtain ⟨u, retry, touched⟩ := w
  exact Work.mk.injEq .. ▸ ⟨hst, hretry, rfl⟩

theorem failFetch_eq (s : State) (i : Fin 16) (f : Fetch) (st : LinkState) :
    Work.failFetch { st := s } i f st =
      let w := (({ st := s } : Work).freeFetch i).setLinks f.target (unfilled st)
      { st := { s with pool := w.st.pool, cache := withoutFetch s i f }, retry := true, touched := w.touched } := by
  have hlinks := failFetch_links s i f.target st
  unfold Work.failFetch
  change (match f.target with
    | .way k y =>
      let w := (({ st := s } : Work).freeFetch i).setLinks f.target (unfilled st)
      let v := w.upd fun s => s.updEntry k y fun _ => {}
      if (w.st.entry k y).mark == RecallMark.refill then v.entryPartDone f.key else v
    | .copy p => ((({ st := s } : Work).freeFetch i).setLinks f.target (unfilled st)).discardCopy p) = _
  rw [hlinks]
  unfold withoutFetch refilling
  cases f.target with
  | way k y =>
    dsimp only
    change (if (s.entry k y).mark == .refill then _ else _) = _
    split
    · rfl
    · rfl
  | copy p => rfl

theorem failFetch_ctx (s : State) (i : Fin 16) (f : Fetch) (st : LinkState) (j : CtxId) :
    (Work.failFetch { st := s } i f st).st.ctx j = relinkAll f.target (unfilled st) (s.ctx j) := by
  rw [failFetch_eq]
  exact setLinks_ctx (({ st := s } : Work).freeFetch i) f.target (unfilled st) j

/-- R98, R99: what a fetch ended without a record leaves of its slot, its target, and the links. -/
def FetchEnded (s : State) (i : Fin 16) (f : Fetch) (st : LinkState) (t : State) : Prop :=
  Configured s t ∧ t.lanes = s.lanes ∧ t.visitCounter = s.visitCounter ∧
  t.cache.slots = s.cache.slots.set i none ∧
  (∀ k y, f.target = .way k y → t.entry k y = {}) ∧ (∀ p, f.target = .copy p → t.cache.copies[p] = none) ∧
  ∀ (id : CtxId) (k : Nat) (l : Link), (s.ctx id).links[k]? = some l → l.target = some f.target →
    ∃ m, (t.ctx id).links[k]? = some m ∧ m.key = l.key ∧ m.state = st ∧ m.target = none

/-- The links no longer name the target, so that the decision steps of the event leave it as it is. -/
theorem settle_fetchEnded {s u : State} {i : Fin 16} {f : Fetch} {st : LinkState} {w : Work}
    (hu : u = { s with uplink := u.uplink, pool := u.pool, cache := u.cache })
    (hctx : ∀ j, u.ctx j = relinkAll f.target (unfilled st) (s.ctx j))
    (hcache : u.cache = { withoutFetch s i f with
      sendOrder := u.cache.sendOrder, recalls := u.cache.recalls, counters := u.cache.counters })
    (hw : w.st = u) : FetchEnded s i f st (State.settle w) := by
  have hunits := settle_unitsOnly w
  have hfree (g : Target) (hg : f.target = g) (j : CtxId) : ∀ l ∈ (w.st.ctx j).links, l.target ≠ some g := by
    rw [hw, hctx]
    intro l hl
    obtain ⟨m, -, rfl⟩ := List.mem_map.1 hl
    split
    · exact fun h => nomatch h
    next hne => rwa [← hg]
  refine ⟨?_, ?_, ?_, ?_, fun k y htarget => ?_, fun p htarget => ?_, fun id k l hl htarget => ?_⟩
  · refine Configured.trans ?_ (settle_configured w)
    rw [hw, hu]
    refine ⟨rfl, rfl, rfl, rfl, ?_, rfl, rfl⟩
    rw [hcache]
    rfl
  · rw [(State.settle_frame w).1, hw, hu]
  · rw [(State.settle_frame w).2.1, hw, hu]
  · rw [hunits.cache, hw, hcache]
    rfl
  · rw [hunits.unnamed k y (hfree _ htarget), hw]
    have hentry : u.entry k y = (s.updEntry k y fun _ => {}).entry k y := by
      unfold State.entry
      rw [hcache]
      unfold withoutFetch
      rw [htarget]
      rfl
    rw [hentry, entry_upd, if_pos rfl]
  · have hcopy := hunits.copy p
    rw [hw, hcache] at hcopy
    unfold withoutFetch at hcopy
    rw [htarget] at hcopy
    simpa using hcopy
  · have hlink : (w.st.ctx id).links[k]? = some (unfilled st l) := by
      rw [hw, hctx]
      unfold relinkAll
      rw [List.getElem?_map, hl, Option.map_some, if_pos htarget]
    obtain ⟨m, hm, hkey, hstate, hnone⟩ := hunits.link hlink
    exact ⟨m, hm, hkey, hstate, hnone⟩

/-- R98, R99: with no lookup waiting and no recall outstanding nothing else follows. -/
theorem failFetch_idle {s : State} (hidle : CacheIdle s) (i : Fin 16) (f : Fetch) (st : LinkState) :
    let t := State.settle (Work.failFetch { st := s } i f st).finish
    FetchEnded s i f st t ∧ t.cache.counters = s.cache.counters := by
  have heq := failFetch_eq s i f st
  have hctx := failFetch_ctx s i f st
  generalize Work.failFetch { st := s } i f st = w at heq hctx ⊢
  have hrecalls : w.st.cache.recalls = [] := by
    rw [heq]
    show (if _ then _ else _) = _
    rw [hidle.2]
    split <;> rfl
  have hwait : w.st.cache.waitList = [] := by
    rw [heq]
    exact hidle.1
  have hfinish : w.finish = { w with retry := false } := by
    rw [finish_waits w (by unfold RecallsWait; rw [hrecalls]; simp), hwait, heq]
    rfl
  dsimp only
  rw [hfinish]
  refine ⟨settle_fetchEnded (u := w.st) ?_ hctx ?_ rfl, ?_⟩
  · rw [heq]
  · rw [heq]
  · rw [(settle_unitsOnly _).cache, heq]
    rfl

/-- R110, R112: with a recall of the key waiting for the entry alone the recall is reported done. -/
theorem failFetch_refills {s : State} {i : Fin 16} {f : Fetch} {released : Bool} (st : LinkState)
    (hmark : ∃ k y, f.target = .way k y ∧ (s.entry k y).mark = .refill) (hwait : s.cache.waitList = [])
    (hrecalls : s.cache.recalls = [⟨f.key, released, true, false⟩]) (hcopies : NoCopyRecalled s f.key) :
    let t := State.settle (Work.failFetch { st := s } i f st).finish
    let v := reportsMade s [recallDone f.key released]
    FetchEnded s i f st t ∧
    t.cache.recalls = (if 0 < cacheRoom s then [] else [⟨f.key, released, false, true⟩]) ∧
    t.cache.sendOrder = v.cache.sendOrder ∧ v.uplink.queue <+: t.uplink.queue ∧ v.uplink.waiters <+: t.uplink.waiters := by
  obtain ⟨k, y, htarget, hrefill⟩ := hmark
  have hrefilling : refilling s f = true := by
    unfold refilling
    rw [htarget]
    exact beq_iff_eq.2 hrefill
  have heq := failFetch_eq s i f st
  have hctx := failFetch_ctx s i f st
  generalize Work.failFetch { st := s } i f st = w at heq hctx ⊢
  have hone : w.st.cache.recalls = [⟨f.key, released, false, false⟩] := by
    rw [heq]
    show (if _ then _ else _) = _
    rw [if_pos hrefilling, hrecalls]
    simp
  have hsame : w.st.cache.copies = s.cache.copies := by
    rw [heq]
    show (match f.target with | .way _ _ => _ | .copy p => _) = _
    rw [htarget]
  have hroom : cacheRoom w.st = cacheRoom s := by
    rw [heq]
    exact cacheRoom_of _ _ rfl rfl rfl
  have hfinish : w.finish = { w with st := recallEnded w.st f.key released, retry := false } := by
    rw [finish_done w f.key released hone (by unfold NoCopyRecalled; rw [hsame]; exact hcopies)]
    have hempty : (recallEnded w.st f.key released).cache.waitList = [] := by
      rw [heq]
      exact hwait
    dsimp only
    rw [hempty, heq]
    rfl
  dsimp only
  rw [hfinish]
  have hcache := (settle_unitsOnly { w with st := recallEnded w.st f.key released, retry := false }).cache
  have hgrows := settle_grows { w with st := recallEnded w.st f.key released, retry := false }
  have huplink : (recallEnded w.st f.key released).uplink = (reportsMade s [recallDone f.key released]).uplink := by
    show cacheMade (cacheRoom w.st) _ _ = _
    rw [hroom, heq]
    rfl
  refine ⟨settle_fetchEnded (u := recallEnded w.st f.key released) ?_ ?_ ?_ rfl, ?_, ?_, ?_, ?_⟩
  · rw [heq]
    rfl
  · exact hctx
  · rw [heq]
    rfl
  · rw [hcache]
    show (if 0 < cacheRoom w.st then _ else _) = _
    rw [hroom]
  · rw [hcache]
    show w.st.cache.sendOrder ++ List.drop (cacheRoom w.st) _ = _
    rw [hroom, heq]
    rfl
  · rw [← huplink]
    exact hgrows.queue
  · rw [← huplink]
    exact hgrows.waiters

/-- R98, R99: the slot of a fetch FREE and its entry INVALID. -/
def emptied (s : State) (i : Fin 16) (k : Fin 1024) (y : Fin 2) : State :=
  { s with cache := { s.cache with slots := s.cache.slots.set i none, sets := upd s.cache.sets k (·.put y {}) } }

/-- R95: with one lookup waiting and no link that waits for the fetch, the slot freed has it tried again. -/
theorem failFetch_retries {s : State} {i : Fin 16} {f : Fetch} (st : LinkState) {k : Fin 1024} {y : Fin 2} {q : LinkRef} {l : Link}
    (htarget : f.target = .way k y) (hfree : ∀ id : CtxId, ∀ m ∈ (s.ctx id).links, m.target ≠ some f.target)
    (hrecalls : s.cache.recalls = []) (hwait : s.cache.waitList = [q]) (hl : s.link? q = some l) (hpending : l.state = .pending)
    (hkey : 4 ≤ l.key.length) (hlookup : (s.ctx q.ctx).state = .lookup) :
    ∃ v, LookedUp (emptied s i k y) v q l.key [q] [] ∧
      Concludes v (State.settle (Work.failFetch { st := s } i f st).finish) q.ctx := by
  have hcache : withoutFetch s i f = (emptied s i k y).cache := by
    unfold withoutFetch emptied
    rw [htarget, hrecalls]
    simp [hrecalls]
  have heq : Work.failFetch { st := s } i f st = { st := emptied s i k y, retry := true } := by
    rw [failFetch_eq, setLinks_nil _ _ _ hfree, hcache]
    rfl
  rw [heq]
  exact retry_concludes { st := emptied s i k y, retry := true } q l hwait hrecalls rfl rfl hl hpending hkey hlookup

/-! ### The answers -/

theorem slotOfTag_none {s : State} {tag : BitVec 16} (h : Unmatched s tag) : Work.slotOfTag s tag = none := by
  unfold Work.slotOfTag
  rw [List.findSome?_eq_none_iff]
  intro i _
  split
  next g hg =>
    rw [if_neg]
    intro hmatch
    obtain ⟨hsent, htag⟩ := Bool.and_eq_true _ _ ▸ hmatch
    exact h i g hg (beq_iff_eq.1 hsent) (beq_iff_eq.1 htag)
  next => rfl

/-- R182: the server counted PRESENT. -/
def heard (s : State) (h : GateHdr) : State := { s with uplink := presence s h }

theorem exec_bookingData {s : State} (hreset : s.resetHeld = false) (h : GateHdr) (b : List Byte) :
    exec (.bookingData h b) s = .next (State.settle (Work.bookingData { st := heard s h } h.tag b)) := by
  show execBookingData h b s = _
  exact whenRunning_released s _ hreset

theorem exec_bookingNone {s : State} (hreset : s.resetHeld = false) (h : GateHdr) (key : Text) :
    exec (.bookingNone h key) s = .next (State.settle (Work.bookingNone { st := heard s h } h.tag key)) := by
  show execBookingNone h key s = _
  exact whenRunning_released s _ hreset

theorem exec_fetchTimeout {s : State} (hreset : s.resetHeld = false) (i : Fin 16) :
    exec (.fetchTimeout i) s = .next (State.settle (Work.fetchTimeout { st := s } i)) := by
  show execFetchTimeout i s = _
  exact whenRunning_released s _ hreset

/-- R97, R99: a late fill counts, and nothing else. -/
theorem unmatched_counts {s : State} {h : GateHdr} (hreset : s.resetHeld = false) (hun : Unmatched s h.tag) (b : List Byte)
    (key : Text) :
    let late : State := (heard s h).countCache fun c => { c with lateFills := bump c.lateFills }
    exec (.bookingData h b) s = .next late ∧ exec (.bookingNone h key) s = .next late := by
  have hnone : Work.slotOfTag (heard s h) h.tag = none := slotOfTag_none (s := heard s h) hun
  constructor
  · rw [exec_bookingData hreset]
    unfold Work.bookingData
    rw [hnone]
    rfl
  · rw [exec_bookingNone hreset]
    unfold Work.bookingNone
    rw [hnone]
    rfl

/-- R99: an answer that matches a tag, but not its key or the form of a record, counts, and nothing else. -/
theorem bad_counts {s : State} {h : GateHdr} {i : Fin 16} {f : Fetch} (hreset : s.resetHeld = false)
    (hout : Outstanding s i f h.tag) (b : List Byte) (key : Text) :
    let bad : State := (heard s h).countCache fun c => { c with badFills := bump c.badFills }
    (b.take 11 ≠ f.key ∨ recordOfBytes b = none → exec (.bookingData h b) s = .next bad) ∧
    (key ≠ f.key → exec (.bookingNone h key) s = .next bad) := by
  have hslot : Work.slotOfTag (heard s h) h.tag = some (i, f) := slotOfTag_out (heard s h) i f h.tag hout
  constructor
  · intro hbad
    have hrecord : (if b.take 11 == f.key then recordOfBytes b else none) = none := by
      rcases hbad with hkey | hnone
      · rw [if_neg (by simpa using hkey)]
      · rw [hnone, ite_self]
    rw [exec_bookingData hreset]
    unfold Work.bookingData
    rw [hslot]
    dsimp only
    rw [hrecord]
    rfl
  · intro hkey
    rw [exec_bookingNone hreset]
    unfold Work.bookingNone
    rw [hslot]
    dsimp only
    rw [if_neg (by simpa using hkey)]
    rfl

/-- R98: a BOOKING_NONE counted. -/
def noneCounted (s : State) (h : GateHdr) : State :=
  (heard s h).countCache fun c => { c with noneAnswers := bump c.noneAnswers }

/-- R99: a fetch timeout counted. -/
def timeoutCounted (s : State) : State := s.countCache fun c => { c with fetchTimeouts := bump c.fetchTimeouts }

theorem exec_bookingNone_matched {s : State} {h : GateHdr} {i : Fin 16} {f : Fetch} (hreset : s.resetHeld = false)
    (hout : Outstanding s i f h.tag) :
    exec (.bookingNone h f.key) s = .next (State.settle (Work.failFetch
      { st := noneCounted s h } i f .noneFound).finish) := by
  have hslot : Work.slotOfTag (heard s h) h.tag = some (i, f) := slotOfTag_out (heard s h) i f h.tag hout
  rw [exec_bookingNone hreset]
  unfold Work.bookingNone
  rw [hslot]
  dsimp only
  rw [if_pos (beq_self_eq_true _)]
  rfl

theorem exec_fetchTimeout_running {s : State} {i : Fin 16} {f : Fetch} (hreset : s.resetHeld = false)
    (hslot : s.cache.slots[i] = some f) (htimer : f.timer.isSome = true) :
    exec (.fetchTimeout i) s = .next (State.settle (Work.failFetch
      { st := timeoutCounted s } i f .failed).finish) := by
  rw [exec_fetchTimeout hreset]
  unfold Work.fetchTimeout
  rw [hslot]
  dsimp only
  rw [if_pos htimer]
  rfl

/-- Settles O33: the end of a fetch without a record, by what it leaves in each of the three situations of the cache. -/
theorem fetchesEndOrStayOutstanding : Obligations.FetchesEndOrStayOutstanding := by
  unfold Obligations.FetchesEndOrStayOutstanding
  refine ⟨recordOfBytes_some, fun h s i f hreset => ⟨fun hout => ?_, fun hslot htimer => ?_⟩, fun h b key s hreset => ?_⟩
  · have hexec := exec_bookingNone_matched hreset hout
    refine ⟨fun hidle => ?_, fun released ⟨hmark, hwait, hrecalls, hcopies⟩ => ?_,
      fun k y q l htarget ⟨hfree, hrecalls, hwait, hl, hpending, hkey, hlookup⟩ => ?_⟩
    · obtain ⟨hended, hcounters⟩ := failFetch_idle (s := noneCounted s h) hidle i f .noneFound
      exact ⟨_, hexec, hended, congrArg CacheCounters.noneAnswers hcounters⟩
    · exact ⟨_, hexec, failFetch_refills (s := noneCounted s h) .noneFound hmark hwait hrecalls hcopies⟩
    · obtain ⟨v, hlooked, hconcludes⟩ := failFetch_retries (s := noneCounted s h) (i := i) .noneFound htarget hfree
        hrecalls hwait hl hpending hkey hlookup
      exact ⟨_, v, hexec, hlooked, hconcludes⟩
  · have hexec := exec_fetchTimeout_running hreset hslot htimer
    refine ⟨fun hidle => ?_, fun released ⟨hmark, hwait, hrecalls, hcopies⟩ => ?_,
      fun k y q l htarget ⟨hfree, hrecalls, hwait, hl, hpending, hkey, hlookup⟩ => ?_⟩
    · obtain ⟨hended, hcounters⟩ := failFetch_idle (s := timeoutCounted s) hidle i f .failed
      exact ⟨_, hexec, hended, congrArg CacheCounters.fetchTimeouts hcounters⟩
    · exact ⟨_, hexec, failFetch_refills (s := timeoutCounted s) .failed hmark hwait hrecalls hcopies⟩
    · obtain ⟨v, hlooked, hconcludes⟩ := failFetch_retries (s := timeoutCounted s) (i := i) .failed htarget hfree
        hrecalls hwait hl hpending hkey hlookup
      exact ⟨_, v, hexec, hlooked, hconcludes⟩
  · exact ⟨fun hun => unmatched_counts hreset hun b key, fun i f hout => bad_counts hreset hout b key⟩

end Sys2Proof.Proofs
end

section
/-! PROOFS. A BOOKING_DATA that fills its target (R95, R97, R110). -/

namespace Sys2Proof.Proofs

open Sys2Proof Sys2Proof.Machine Sys2Proof.Safety Sys2Proof.Laws

/-! ### The tests of an event that touches one context -/

/-- R53: however often the links of one context changed, it is tested once. -/
theorem settle_only {w : Work} {id : CtxId} (hmem : id ∈ w.touched) (honly : ∀ j ∈ w.touched, j = id) :
    State.settle w = w.st.decideTest id := by
  obtain ⟨L, x, hL⟩ : ∃ L x, w.touched = L ++ [x] :=
    ⟨_, _, (List.dropLast_append_getLast (List.ne_nil_of_mem hmem)).symm⟩
  have hx : x = id := honly x (by rw [hL]; simp)
  unfold State.settle
  rw [hL, List.foldl_append, List.foldl_cons, List.foldl_nil, hx]
  exact settle_one id L w.st fun j hj => honly j (by rw [hL]; simp [hj])

/-! ### The fill -/

/-- R97: a link whose target is filled. -/
def resolved (l : Link) : Link := { l with state := .resolved }

/-- R97: a fill, before the links are RESOLVED: the slot is FREE, the fill is counted, and the target holds the record. -/
def filledState (s : State) (i : Fin 16) (f : Fetch) (r : Record) : State := { s with cache := { s.cache with
  slots := s.cache.slots.set i none
  counters := { s.cache.counters with fills := bump s.cache.counters.fills }
  sets := match f.target with
    | .way k y => upd s.cache.sets k (·.put y { s.entry k y with state := .valid, record := some r, dirty := false, held := 0 })
    | .copy _ => s.cache.sets
  copies := match f.target with
    | .way _ _ => s.cache.copies
    | .copy p => upd s.cache.copies p (Option.map fun c => { c with record := some r }) } }

theorem filledState_way {s : State} {f : Fetch} {k : Fin 1024} {y : Fin 2} (i : Fin 16) (r : Record)
    (htarget : f.target = .way k y) :
    filledState s i f r = { s with cache := { s.cache with
      slots := s.cache.slots.set i none
      counters := { s.cache.counters with fills := bump s.cache.counters.fills }
      sets := upd s.cache.sets k
        (·.put y { s.entry k y with state := .valid, record := some r, dirty := false, held := 0 }) } } := by
  unfold filledState
  rw [htarget]

theorem filledState_copyPlace {s : State} {f : Fetch} {p : Fin 48} {c : PrivateCopy} (i : Fin 16) (r : Record)
    (htarget : f.target = .copy p) (hcopy : s.cache.copies[p] = some c) :
    filledState s i f r = { s with cache := { s.cache with
      slots := s.cache.slots.set i none
      counters := { s.cache.counters with fills := bump s.cache.counters.fills }
      copies := s.cache.copies.set p (some { c with record := some r }) } } := by
  have hcopies : upd s.cache.copies p (Option.map fun c => { c with record := some r }) =
      s.cache.copies.set p (some { c with record := some r }) := by
    unfold upd
    rw [hcopy, Option.map_some]
  unfold filledState
  rw [htarget]
  dsimp only
  rw [hcopies]

theorem fill_eq {s : State} {f : Fetch} (i : Fin 16) (r : Record) (hrefill : refilling s f = false) :
    Work.fill { st := s } i f r = ({ st := filledState s i f r, retry := true } : Work).setLinks f.target resolved := by
  unfold refilling at hrefill
  unfold Work.fill filledState
  cases htarget : f.target with
  | way k y =>
    rw [htarget] at hrefill
    change (if (s.entry k y).mark == RecallMark.refill then _ else _) = _
    rw [if_neg (Bool.eq_false_iff.1 hrefill)]
    rfl
  | copy p => rfl

/-- The event of a fill with no lookup waiting and no recall outstanding. -/
theorem fill_finish {s : State} {f : Fetch} (i : Fin 16) (r : Record) (hidle : CacheIdle s) (hrefill : refilling s f = false) :
    (Work.fill { st := s } i f r).finish = { Work.fill { st := s } i f r with retry := false } := by
  rw [fill_eq i r hrefill]
  have hst := setLinks_st { st := filledState s i f r, retry := true } f.target resolved
  have hretry := setLinks_retry { st := filledState s i f r, retry := true } f.target resolved
  generalize ({ st := filledState s i f r, retry := true } : Work).setLinks f.target resolved = w at hst hretry ⊢
  have hrecalls : w.st.cache.recalls = [] := by
    rw [hst]
    exact hidle.2
  have hwait : w.st.cache.waitList = [] := by
    rw [hst]
    exact hidle.1
  rw [finish_waits w (by unfold RecallsWait; rw [hrecalls]; simp), hwait, if_pos hretry]
  rfl

theorem fill_st {s : State} {f : Fetch} (i : Fin 16) (r : Record) (hrefill : refilling s f = false) :
    (Work.fill { st := s } i f r).st = { filledState s i f r with pool := (Work.fill { st := s } i f r).st.pool } := by
  rw [fill_eq i r hrefill]
  exact setLinks_st _ _ _

theorem fill_ctx {s : State} {f : Fetch} (i : Fin 16) (r : Record) (hrefill : refilling s f = false) (j : CtxId) :
    (Work.fill { st := s } i f r).st.ctx j = relinkAll f.target resolved (s.ctx j) := by
  rw [fill_eq i r hrefill]
  exact setLinks_ctx _ _ _ j

/-- R97: what a fill leaves of its slot, its target and the links that name it. -/
def Filled (s : State) (i : Fin 16) (f : Fetch) (r : Record) (t : State) : Prop :=
  Configured s t ∧ t.lanes = s.lanes ∧ t.visitCounter = s.visitCounter ∧
  t.cache.slots = s.cache.slots.set i none ∧ t.cache.counters.fills = bump s.cache.counters.fills ∧
  (∀ k y, f.target = .way k y →
    (t.entry k y).state = .valid ∧ (t.entry k y).record = some r ∧ (t.entry k y).dirty = false ∧
    (t.entry k y).key = (s.entry k y).key ∧ (t.entry k y).pins = (s.entry k y).pins) ∧
  (∀ p c, f.target = .copy p → s.cache.copies[p] = some c →
    ∃ d, t.cache.copies[p] = some d ∧ d.record = some r ∧ d.key = c.key ∧ d.link = c.link) ∧
  ∀ (id : CtxId) (k : Nat) (l : Link), (s.ctx id).links[k]? = some l → l.target = some f.target →
    ∃ m, (t.ctx id).links[k]? = some m ∧ m.key = l.key ∧ m.state = .resolved ∧ m.target = l.target

theorem filledState_entry {s : State} {f : Fetch} {k : Fin 1024} {y : Fin 2} (i : Fin 16) (r : Record)
    (htarget : f.target = .way k y) :
    (filledState s i f r).entry k y = { s.entry k y with state := .valid, record := some r, dirty := false, held := 0 } := by
  have hentry : (filledState s i f r).entry k y =
      (s.updEntry k y fun e => { e with state := .valid, record := some r, dirty := false, held := 0 }).entry k y := by
    unfold filledState
    rw [htarget]
    rfl
  rw [hentry, entry_upd, if_pos rfl]

theorem filledState_copy {s : State} {f : Fetch} {p : Fin 48} {c : PrivateCopy} (i : Fin 16) (r : Record)
    (htarget : f.target = .copy p) (hcopy : s.cache.copies[p] = some c) :
    (filledState s i f r).cache.copies[p] = some { c with record := some r } := by
  rw [filledState_copyPlace i r htarget hcopy]
  simp

/-- The decision steps of the event leave the target but for the units held. -/
theorem settle_filled {s : State} {f : Fetch} (i : Fin 16) (r : Record) {w : Work}
    (hst : w.st = { filledState s i f r with pool := w.st.pool })
    (hctx : ∀ j, w.st.ctx j = relinkAll f.target resolved (s.ctx j)) : Filled s i f r (State.settle w) := by
  have hunits := settle_unitsOnly w
  refine ⟨?_, ?_, ?_, ?_, ?_, fun k y htarget => ?_, fun p c htarget hcopy => ?_, fun id k l hl htarget => ?_⟩
  · refine Configured.trans ?_ (settle_configured w)
    rw [hst]
    exact ⟨rfl, rfl, rfl, rfl, rfl, rfl, rfl⟩
  · rw [(State.settle_frame w).1, hst]
    rfl
  · rw [(State.settle_frame w).2.1, hst]
    rfl
  · rw [hunits.cache, hst]
    rfl
  · rw [hunits.cache, hst]
    rfl
  · have hentry : w.st.entry k y = _ := (congrArg (State.entry · k y) hst).trans (filledState_entry i r htarget)
    rw [hunits.entry k y, hentry]
    exact ⟨rfl, rfl, rfl, rfl, rfl⟩
  · have hfilled : w.st.cache.copies[p] = some { c with record := some r } := by
      rw [hst]
      exact filledState_copy i r htarget hcopy
    have hunheld := hunits.copy p
    rw [hfilled, Option.map_some] at hunheld
    obtain ⟨d, hd, heq⟩ := Option.map_eq_some_iff.1 hunheld
    exact ⟨d, hd, (congrArg PrivateCopy.record heq :), (congrArg PrivateCopy.key heq :), (congrArg PrivateCopy.link heq :)⟩
  · have hlink : (w.st.ctx id).links[k]? = some (resolved l) := by
      rw [hctx]
      unfold relinkAll
      rw [List.getElem?_map, hl, Option.map_some, if_pos htarget]
    exact hunits.link hlink

/-! ### The decision step that a fill sets off -/

/-- R53, R97: a context in LOOKUP whose last PENDING links a fill resolves, alone among the contexts, is tested once. -/
theorem settle_fill_decides {s u : State} {f : Fetch} {id : CtxId} (i : Fin 16) (r : Record)
    (hu : u = { filledState s i f r with pool := upd s.pool id (relinkAll f.target resolved) }) (hrefill : refilling s f = false)
    (hlookup : (s.ctx id).state = .lookup) (hnames : ∃ l ∈ (s.ctx id).links, l.target = some f.target)
    (hlast : ∀ l ∈ (s.ctx id).links, l.state = .pending → l.target = some f.target)
    (halone : ∀ j, j ≠ id → ∀ l ∈ (s.ctx j).links, l.target ≠ some f.target) :
    Decides u (State.settle { Work.fill { st := s } i f r with retry := false }) id := by
  have htouched (j : CtxId) : j ∈ (Work.fill { st := s } i f r).touched ↔ ∃ l ∈ (s.ctx j).links, l.target = some f.target := by
    rw [fill_eq i r hrefill, mem_setLinks_touched]
    simp only [List.not_mem_nil, false_or]
    rfl
  have hctx := fill_ctx (s := s) i r hrefill
  have hst := fill_st (s := s) i r hrefill
  have hpool : (Work.fill { st := s } i f r).st.pool = upd s.pool id (relinkAll f.target resolved) := by
    refine Vector.ext fun j hj => ?_
    refine (hctx ⟨j, hj⟩).trans ?_
    rw [upd_getElem]
    split
    next heq =>
      cases heq
      rfl
    next hne =>
      have hnone := halone ⟨j, hj⟩ fun heq => hne (congrArg Fin.val heq)
      have hsame : (s.ctx ⟨j, hj⟩).links.map (fun l => if l.target = some f.target then resolved l else l) =
          (s.ctx ⟨j, hj⟩).links := by
        refine (List.map_congr_left fun l hl => if_neg (hnone l hl)).trans ?_
        exact List.map_id _
      unfold relinkAll
      rw [hsame]
      rfl
  have honly (j : CtxId) (hj : j ∈ (Work.fill { st := s } i f r).touched) : j = id := by
    by_contra hne
    obtain ⟨l, hl, htarget⟩ := (htouched j).1 hj
    exact halone j hne l hl htarget
  rw [settle_only (w := { Work.fill { st := s } i f r with retry := false }) ((htouched id).2 hnames) honly]
  rw [hpool] at hst
  have hdecides := decideTest_decides (Work.fill { st := s } i f r).st id ?_ ?_
  · rw [hu, ← hst]
    exact hdecides
  · rw [hctx]
    exact hlookup
  · rw [hctx, List.all_eq_true]
    intro m hm
    obtain ⟨l, hl, rfl⟩ := List.mem_map.1 hm
    split
    · rfl
    next hne => exact bne_iff_ne.2 fun hpending => hne (hlast l hl hpending)

/-! ### The lookup that a fill lets go on, and the fill of an entry marked REFILL -/

/-- R95: with one lookup waiting and no link that waits for the fill, the slot freed has it tried again. -/
theorem fill_retries {s : State} {f : Fetch} (i : Fin 16) (r : Record) {q : LinkRef} {l : Link} (hrefill : refilling s f = false)
    (hfree : ∀ id : CtxId, ∀ m ∈ (s.ctx id).links, m.target ≠ some f.target)
    (hrecalls : s.cache.recalls = []) (hwait : s.cache.waitList = [q]) (hl : s.link? q = some l) (hpending : l.state = .pending)
    (hkey : 4 ≤ l.key.length) (hlookup : (s.ctx q.ctx).state = .lookup) :
    ∃ v, LookedUp (filledState s i f r) v q l.key [q] [] ∧
      Concludes v (State.settle (Work.fill { st := s } i f r).finish) q.ctx := by
  have heq : Work.fill { st := s } i f r = { st := filledState s i f r, retry := true } := by
    rw [fill_eq i r hrefill]
    exact setLinks_nil { st := filledState s i f r, retry := true } _ _ hfree
  rw [heq]
  exact retry_concludes { st := filledState s i f r, retry := true } q l hwait hrecalls rfl rfl hl hpending hkey hlookup

/-- R110: an entry marked REFILL, its mark cleared, with the slot FREE and the fill counted. -/
def unmarked (s : State) (i : Fin 16) (k : Fin 1024) (y : Fin 2) : State := { s with
  cache := { s.cache with
    sets := upd s.cache.sets k (·.put y { s.entry k y with mark := .none })
    slots := s.cache.slots.set i none
    counters := { s.cache.counters with fills := bump s.cache.counters.fills } } }

/-- The recalls stand beside the reports made. -/
theorem reportsMade_recalls (s : State) (os : List (Owed × Report)) (rs : List RecallRec) :
    reportsMade { s with cache := { s.cache with recalls := rs } } os =
      { reportsMade s os with cache := { (reportsMade s os).cache with recalls := rs } } := rfl

/-- R110, R112: the part of the one recall outstanding on its entry is done, where no lookup waits and nothing else follows. -/
theorem entryPartDone_finish {s : State} {key : Text} {released : Bool} (os : List (Owed × Report)) (hwait : s.cache.waitList = [])
    (hrecalls : s.cache.recalls = [⟨key, released, true, false⟩]) (hcopies : NoCopyRecalled s key) :
    State.settle (({ st := reportsMade s os, retry := true } : Work).entryPartDone key).finish =
      reportsMade { s with cache := { s.cache with
        recalls := if os.length < cacheRoom s then [] else [⟨key, released, false, true⟩] } } (os ++ [recallDone key released]) := by
  have hdone : ({ st := reportsMade s os, retry := true } : Work).entryPartDone key =
      { st := reportsMade { s with cache := { s.cache with recalls := [⟨key, released, false, false⟩] } } os, retry := true } := by
    have hmap : (s.cache.recalls.map fun r => if r.key == key then { r with entryPart := false } else r) =
        [⟨key, released, false, false⟩] := by simp [hrecalls]
    rw [reportsMade_recalls, ← hmap]
    rfl
  have hroom : cacheRoom (reportsMade { s with cache := { s.cache with recalls := [⟨key, released, false, false⟩] } } os) =
      cacheRoom s - os.length := cacheRoom_made _ os
  rw [hdone, finish_done _ key released rfl hcopies]
  dsimp only
  have hempty : (recallEnded (reportsMade { s with cache := { s.cache with recalls := [⟨key, released, false, false⟩] } } os)
      key released).cache.waitList = [] := hwait
  rw [if_pos rfl, hempty, settle_untouched rfl]
  show recallEnded _ key released = _
  unfold recallEnded
  have hiff : 0 < cacheRoom s - os.length ↔ os.length < cacheRoom s := Nat.sub_pos_iff_lt
  rw [hroom, reportsMade_append]
  simp only [hiff]
  rfl

/-- R94, R96, R97, R110: the new fetch is made, and the recall of the key is reported done. -/
theorem fill_refills {s : State} {f : Fetch} (i : Fin 16) (r : Record) {k : Fin 1024} {y : Fin 2} {released : Bool}
    (htarget : f.target = .way k y) (hmark : (s.entry k y).mark = .refill) (hwait : s.cache.waitList = [])
    (hrecalls : s.cache.recalls = [⟨f.key, released, true, false⟩]) (hcopies : NoCopyRecalled s f.key) :
    ∃ tag, TagFor (unmarked s i k y) tag ∧
      State.settle (Work.fill { st := s } i f r).finish =
        reportsMade { s with
          uplink := { s.uplink with nextTag := tag + 1 }
          cache := { (unmarked s i k y).cache with
            slots := s.cache.slots.set i (some (fetchMade s (cacheRoom s) f.key f.target tag none))
            recalls := if 2 ≤ cacheRoom s then [] else [⟨f.key, released, false, true⟩] } }
          (fetchReports i f.key tag none ++ [recallDone f.key released]) := by
  have hslot : (unmarked s i k y).cache.slots[i] = none := by
    unfold unmarked
    simp
  obtain ⟨tag, htag, hfetch⟩ := fetch_spec { st := unmarked s i k y, retry := true } i hslot f.key f.target none
  refine ⟨tag, htag, ?_⟩
  have hfill : Work.fill { st := s } i f r =
      (Work.fetch { st := unmarked s i k y, retry := true } i f.key f.target none).entryPartDone f.key := by
    unfold Work.fill
    rw [htarget]
    change (if (s.entry k y).mark == RecallMark.refill then _ else _) = _
    rw [if_pos (beq_iff_eq.2 hmark)]
    rfl
  have hslots : (unmarked s i k y).cache.slots.set i
      (some (fetchMade (unmarked s i k y) (cacheRoom (unmarked s i k y)) f.key f.target tag none)) =
      s.cache.slots.set i (some (fetchMade s (cacheRoom s) f.key f.target tag none)) := Vector.set_set ..
  dsimp only at hfetch
  rw [hslots] at hfetch
  rw [hfill, hfetch]
  exact entryPartDone_finish _ (by exact hwait) (by exact hrecalls) (by exact hcopies)

/-! ### The event -/

theorem exec_bookingData_matched {s : State} {h : GateHdr} {b : List Byte} {i : Fin 16} {f : Fetch} {r : Record}
    (hreset : s.resetHeld = false) (hout : Outstanding s i f h.tag) (hkey : b.take 11 = f.key) (hrecord : recordOfBytes b = some r) :
    exec (.bookingData h b) s = .next (State.settle (Work.fill { st := heard s h } i f r).finish) := by
  have hslot : Work.slotOfTag (heard s h) h.tag = some (i, f) := slotOfTag_out (heard s h) i f h.tag hout
  rw [exec_bookingData hreset]
  unfold Work.bookingData
  rw [hslot]
  dsimp only
  rw [if_pos (beq_iff_eq.2 hkey), hrecord]

theorem refilling_way {s : State} {f : Fetch} {k : Fin 1024} {y : Fin 2} (htarget : f.target = .way k y)
    (hmark : (s.entry k y).mark ≠ .refill) : refilling s f = false := by
  unfold refilling
  rw [htarget]
  exact beq_eq_false_iff_ne.2 hmark

/-- Settles O32: a matched BOOKING_DATA by the three ways its fill can go. -/
theorem matchedDataFillsItsTarget : Obligations.MatchedDataFillsItsTarget := by
  unfold Obligations.MatchedDataFillsItsTarget
  intro h b s i f r hreset hout hkey hrecord
  have hexec := exec_bookingData_matched hreset hout hkey hrecord
  refine ⟨fun hidle hmark => ?_, fun k y q l htarget hmark hfree hrecalls hwait hl hpending hlength hlookup => ?_,
    fun k y released htarget hmark hwait hrecalls hcopies => ?_⟩
  · have hrefill : refilling (heard s h) f = false := by
      cases htarget : f.target with
      | way k y => exact refilling_way htarget (hmark k y htarget)
      | copy p =>
        unfold refilling
        rw [htarget]
    obtain ⟨hconf, hlanes, hcounter, hslots, hfills, hways, hcopies, hlinks⟩ :=
      settle_filled (s := heard s h) i r (w := { Work.fill { st := heard s h } i f r with retry := false })
        (fill_st i r hrefill) (fill_ctx i r hrefill)
    rw [fill_finish (s := heard s h) i r hidle hrefill] at hexec
    refine ⟨_, hexec, hconf, hlanes, hcounter, hslots, hfills, hways, hcopies, hlinks, fun id hlookup hnames hlast halone => ?_⟩
    refine ⟨fun k y htarget => settle_fill_decides (s := heard s h) i r ?_ hrefill hlookup hnames hlast halone,
      fun p c htarget hcopy => settle_fill_decides (s := heard s h) i r ?_ hrefill hlookup hnames hlast halone⟩
    · rw [filledState_way (s := heard s h) i r htarget]
      rfl
    · rw [filledState_copyPlace (s := heard s h) i r htarget hcopy]
      rfl
  · obtain ⟨v, hlooked, hconcludes⟩ := fill_retries (s := heard s h) i r (refilling_way htarget hmark) hfree hrecalls hwait hl
      hpending hlength hlookup
    refine ⟨_, v, hexec, ?_, hconcludes⟩
    rw [filledState_way (s := heard s h) i r htarget] at hlooked
    exact hlooked
  · obtain ⟨tag, htag, hsettle⟩ := fill_refills (s := heard s h) i r htarget hmark hwait hrecalls hcopies
    refine ⟨tag, htag, hexec.trans ?_⟩
    rw [hsettle]
    rfl

end Sys2Proof.Proofs
end

section
/-! PROOFS. REPORT_SENT (R61, R94 to R96, R102, R111, R112, R180, R181): the place freed goes to the oldest waiter. -/

namespace Sys2Proof.Proofs

open Sys2Proof Sys2Proof.Machine Sys2Proof.Safety Sys2Proof.Laws

/-! ### A place freed, and the waiters that are no cache -/

/-- R180: the oldest report has left the queue, and the oldest waiter the wait order. -/
def freed (s : State) (rest : List QueuedReport) (ws : List Waiter) : State :=
  { s with uplink := { s.uplink with queue := rest, waiters := ws } }

section Sent

variable {s : State} {r : QueuedReport} {rest : List QueuedReport} {w : Waiter} {ws : List Waiter}

theorem exec_reportSent (hreset : s.resetHeld = false) (hup : s.uplink.linkUp = true) (hqueue : s.uplink.queue = r :: rest) :
    exec .reportSent s = .next s.reportSent := by
  show execReportSent s = _
  unfold execReportSent
  rw [whenRunning_released _ _ hreset, hup, hqueue]
  rfl

theorem reportSent_nobody (hqueue : s.uplink.queue = r :: rest) (hnone : s.uplink.waiters = []) :
    s.reportSent = freed s rest [] := by
  unfold State.reportSent freed
  simp only [State.updUplink, hqueue, hnone, List.tail_cons]

theorem reportSent_waiter (hqueue : s.uplink.queue = r :: rest) (hwaits : s.uplink.waiters = w :: ws) :
    s.reportSent = (freed s rest ws).serve w := by
  unfold State.reportSent freed
  simp only [State.updUplink, hqueue, hwaits, List.tail_cons]

theorem uplinkTurn_owed {x : Report} {more : List Report} (howed : s.uplink.owed = x :: more) :
    (freed s rest ws).uplinkTurn = { s with uplink := { s.uplink with
      queue := rest ++ [⟨x, none⟩], owed := more
      waiters := if more = [] ∨ .uplink ∈ ws then ws else ws ++ [.uplink] } } := by
  unfold State.uplinkTurn
  rw [show (freed s rest ws).uplink.owed = x :: more from howed]
  cases more with
  | nil => rfl
  | cons y more =>
    dsimp only
    rw [if_neg (by simp), wait_eq]
    unfold waiting freed State.accept State.updUplink
    by_cases hmem : Waiter.uplink ∈ ws
    · simp [hmem]
    · simp [hmem]

theorem noticeAccepted_freed (id : CtxId) :
    (freed s rest ws).noticeAccepted id = { s with
      uplink := { s.uplink with queue := rest ++ [⟨.referNotice (s.ctx id).report, none⟩], waiters := ws }
      pool := upd s.pool id fun c => { c with noticePending := false, rulingTimer := some s.params.rulingDeadline } } := rfl

end Sent

/-! ### A visit report -/

/-- R61: the visit report accepted at the tail of the queue. -/
def reported (s : State) (rest : List QueuedReport) (ws : List Waiter) (id : CtxId) : State :=
  { s with uplink := { s.uplink with queue := rest ++ [⟨.visitReport (s.ctx id).report, none⟩], waiters := ws } }

theorem serve_visitReport (s : State) (rest : List QueuedReport) (ws : List Waiter) (id : CtxId) :
    (freed s rest ws).serve (.visitReport id) = (reported s rest ws id).freeCtx id := rfl

/-- What the freeing of a context makes of the pool and of the lanes is no matter of the uplink. -/
theorem granted_of_uplink {s t : State} {id : CtxId} (u : Uplink) (h : Granted { s with uplink := u } t id) : Granted s t id := by
  have hleft : left { s with uplink := u } id = left s id := rfl
  have hstaying : staying { s with uplink := u } id = staying s id := rfl
  have hctx : State.ctx { s with uplink := u } = s.ctx := rfl
  have hreads : State.reads { s with uplink := u } = s.reads := rfl
  have hnow : State.now { s with uplink := u } = s.now := rfl
  unfold Granted at h ⊢
  simp only [hleft, hstaying, hctx, hreads, hnow] at h
  exact h

theorem reported_configured (s : State) (rest : List QueuedReport) (ws : List Waiter) (id : CtxId) :
    Configured s ((reported s rest ws id).freeCtx id) := by
  rw [(laneWork_free (reported s rest ws id) id).rest]
  exact ⟨rfl, rfl, rfl, rfl, rfl, rfl, rfl⟩

theorem reported_drained (s : State) (rest : List QueuedReport) (ws : List Waiter) (id : CtxId) :
    ((reported s rest ws id).freeCtx id).uplink = drained s id (reported s rest ws id).uplink := by
  rw [freeCtx_uplink]
  rfl

theorem reported_granted (s : State) (rest : List QueuedReport) (ws : List Waiter) (id : CtxId) :
    Granted s ((reported s rest ws id).freeCtx id) id :=
  granted_of_uplink (reported s rest ws id).uplink (freeCtx_granted (reported s rest ws id) id)

/-- R61: the context of a visit report accepted is FREE and in no lane, where no lane has an arrival for it. -/
theorem freeCtx_none {s : State} {id : CtxId} (hnone : ∀ l : LaneId, (s.lane l).pendingArrivals = 0) :
    ((s.freeCtx id).ctx id).state = .free ∧ id ∉ ((s.freeCtx id).lane (s.ctx id).lane).ctxs := by
  have hpending (l : LaneId) : (left s id l).pendingArrivals = 0 := by
    unfold left
    dsimp only
    split
    · exact hnone l
    · exact hnone l
  obtain ⟨hempty, -, -, hlanes, -⟩ := (freeCtx_granted s id).1 fun l ⟨_, hlt, _⟩ => by
    rw [hpending l] at hlt
    exact absurd hlt (Nat.lt_irrefl 0)
  rw [hempty, hlanes]
  refine ⟨rfl, ?_⟩
  unfold left
  dsimp only
  rw [if_pos rfl]
  simp

/-! ### The turn of the cache -/

/-- R96, R181: the cache's turn: its oldest report is at the tail of the queue, and it waits again while it owes more. -/
def turned (s : State) (rest : List QueuedReport) (ws : List Waiter) (os : List Owed) (x : Report) (c : Cache) : State :=
  { s with
    uplink := { s.uplink with
      queue := rest ++ [⟨x, none⟩], waiters := if os = [] ∨ .cache ∈ ws then ws else ws ++ [.cache] }
    cache := { c with sendOrder := os } }

/-- R96: the report of the turn has left the send order. -/
def taken (s : State) (rest : List QueuedReport) (ws : List Waiter) (os : List Owed) : State :=
  { freed s rest ws with cache := { s.cache with sendOrder := os } }

/-- R95: a lookup that waits alone is tried again from the state `b`. -/
def Retried (s b : State) : Prop :=
  (s.cache.waitList = [] → exec .reportSent s = .next b) ∧
  ∀ (q : LinkRef) (l : Link), s.cache.waitList = [q] → s.link? q = some l → l.state = .pending →
    4 ≤ l.key.length → (s.ctx q.ctx).state = .lookup →
    ∃ v t, exec .reportSent s = .next t ∧ LookedUp b v q l.key [q] [] ∧ Concludes v t q.ctx

section Turn

variable {s : State} {r : QueuedReport} {rest : List QueuedReport} {ws : List Waiter} {o : Owed} {os : List Owed}
  {x : Report} {c : Cache} {retry : Bool}

theorem waits_again {u : State} (horder : u.cache.sendOrder = os) (hws : u.uplink.waiters = ws) :
    (if u.cache.sendOrder.isEmpty then u else u.wait .cache) = { u with
      uplink := { u.uplink with waiters := if os = [] ∨ .cache ∈ ws then ws else ws ++ [.cache] } } := by
  subst horder hws
  rw [wait_eq]
  unfold waiting
  by_cases hempty : u.cache.sendOrder = []
  · simp [hempty]
  · by_cases hmem : Waiter.cache ∈ u.uplink.waiters
    · simp [hempty, hmem]
    · simp [hempty, hmem]

/-- R96: the event of a turn is the end of the cache's part, from the state the acceptance leaves. -/
theorem exec_cacheTurn (hreset : s.resetHeld = false) (hup : s.uplink.linkUp = true) (hqueue : s.uplink.queue = r :: rest)
    (hwaits : s.uplink.waiters = .cache :: ws) (horder : s.cache.sendOrder = o :: os)
    (haccept : ({ st := taken s rest ws os } : Work).acceptOwed o =
      { st := { (taken s rest ws os).accept x with cache := { c with sendOrder := os } }, retry := retry }) :
    exec .reportSent s = .next (State.settle (Work.finish { st := turned s rest ws os x c, retry := retry })) := by
  have hturn := reportSent_turn s r rest ws o os hreset hup hqueue hwaits horder
  dsimp only at hturn
  rw [hturn]
  change Host.Outcome.next (State.settle (Work.finish ((({ st := taken s rest ws os } : Work).acceptOwed o).upd _))) = _
  rw [haccept]
  unfold Work.upd
  dsimp only
  rw [waits_again (u := { (taken s rest ws os).accept x with cache := { c with sendOrder := os } }) rfl rfl]
  rfl

/-- R96, R112: nothing follows an acceptance that frees nothing and ends no recall. -/
theorem settle_turned (hwait : RecallsWait (turned s rest ws os x c)) :
    State.settle (Work.finish { st := turned s rest ws os x c }) = turned s rest ws os x c := by
  rw [finish_waits { st := turned s rest ws os x c } hwait]
  exact settle_untouched rfl

/-- R95: a place freed has the lookup that waits tried again, at the end of the event. -/
theorem retried_of_finish {w : Work} (htouched : w.touched = []) (hwait : w.st.cache.waitList = s.cache.waitList)
    (hpool : w.st.pool = s.pool)
    (hexec : exec .reportSent s = .next (State.settle { w.st.cache.waitList.foldl Work.retryOne w with retry := false })) :
    Retried s w.st := by
  refine ⟨fun hempty => ?_, fun q l hone hl hpending hkey hlookup => ?_⟩
  · rw [hexec, hwait, hempty]
    exact congrArg _ (settle_untouched htouched)
  · have hctx : w.st.ctx = s.ctx := by
      funext j
      exact congrArg (fun p : Vector Ctx 24 => p[j]) hpool
    have hlink : w.st.link? q = some l := by
      unfold State.link? at hl ⊢
      rw [hctx]
      exact hl
    obtain ⟨v, hlooked, hconcludes⟩ :=
      retried_concludes w q l (hwait.trans hone) htouched hlink hpending hkey (by rw [hctx]; exact hlookup)
    exact ⟨v, _, hexec, hlooked, hconcludes⟩

/-- R95: the same where no recall is about to be reported done. -/
theorem retried_turned (hwait : RecallsWait (turned s rest ws os x c)) (hsame : c.waitList = s.cache.waitList)
    (hexec : exec .reportSent s = .next (State.settle (Work.finish { st := turned s rest ws os x c, retry := true }))) :
    Retried s (turned s rest ws os x c) := by
  rw [finish_waits { st := turned s rest ws os x c, retry := true } hwait] at hexec
  exact retried_of_finish (w := { st := turned s rest ws os x c, retry := true }) rfl hsame rfl hexec

/-- R95, R112: the same where the one recall outstanding ends. -/
theorem retried_ended {key : Text} {released : Bool} {rs : List RecallRec} (hrecalls : c.recalls = [⟨key, released, false, false⟩])
    (hcopies : NoCopyRecalled (turned s rest ws os x c) key) (hsame : c.waitList = s.cache.waitList)
    (hexec : exec .reportSent s = .next (State.settle (Work.finish { st := turned s rest ws os x c, retry := true }))) :
    Retried s (recallEnded (turned s rest ws os x { c with recalls := rs }) key released) := by
  rw [finish_done { st := turned s rest ws os x c, retry := true } key released hrecalls hcopies] at hexec
  exact retried_of_finish (w := { st := recallEnded (turned s rest ws os x c) key released, retry := true }) rfl hsame rfl hexec

end Turn

/-! ### What an acceptance makes of its maker -/

section Accepted

variable {s : State} {rest : List QueuedReport} {ws : List Waiter} {os : List Owed}

/-- The cache with one entry changed. -/
def withEntry (s : State) (i : Fin 1024) (y : Fin 2) (e : Entry) : Cache :=
  { s.cache with sets := upd s.cache.sets i fun c => c.put y e }

/-- R105, R107: the BOOKING_UPDATE or the BOOKING_WRITEBACK of an entry. -/
def EntryReport (i : Fin 1024) (y : Fin 2) (rec : Record) (o : Owed) (x : Report) : Prop :=
  (o = .update i y ∧ x = .bookingUpdate rec) ∨ (o = .writeback i y ∧ x = .bookingWriteback rec)

theorem acceptOwed_entry {i : Fin 1024} {y : Fin 2} {rec : Record} {o : Owed} {x : Report} (ho : EntryReport i y rec o x)
    (hrecord : (s.entry i y).record = some rec) :
    ({ st := taken s rest ws os } : Work).acceptOwed o =
      let v : Work := { st := { (taken s rest ws os).accept x with
        cache := { withEntry s i y { s.entry i y with owed := .none, dirty := false } with sendOrder := os } } }
      if Work.unpinnedRecall (s.entry i y) then v.invalidate i y else v := by
  have hrecord' : ((taken s rest ws os).entry i y).record = some rec := hrecord
  rcases ho with ⟨rfl, rfl⟩ | ⟨rfl, rfl⟩
  · unfold Work.acceptOwed Work.acceptEntry
    dsimp only
    rw [hrecord']
    rfl
  · unfold Work.acceptOwed Work.acceptEntry
    dsimp only
    rw [hrecord']
    rfl

/-- R105, R107: the entry is clean and owes nothing. -/
theorem acceptOwed_entryClean {i : Fin 1024} {y : Fin 2} {rec : Record} {o : Owed} {x : Report} (ho : EntryReport i y rec o x)
    (hrecord : (s.entry i y).record = some rec) (hpinned : (s.entry i y).mark = .pending → (s.entry i y).pins ≠ 0) :
    ({ st := taken s rest ws os } : Work).acceptOwed o = { st := { (taken s rest ws os).accept x with
      cache := { withEntry s i y { s.entry i y with owed := .none, dirty := false } with sendOrder := os } } } := by
  rw [acceptOwed_entry ho hrecord]
  dsimp only
  rw [if_neg]
  intro hunpinned
  unfold Work.unpinnedRecall at hunpinned
  simp only [Bool.and_eq_true, beq_iff_eq] at hunpinned
  exact hpinned hunpinned.1.2 hunpinned.2

/-- R109, R111: an unpinned entry under recall becomes INVALID, and its part of the recall is done. -/
theorem acceptOwed_entryRecalled {i : Fin 1024} {y : Fin 2} {rec : Record} {o : Owed} {x : Report} {key : Text}
    {released : Bool} (ho : EntryReport i y rec o x) (hrecord : (s.entry i y).record = some rec)
    (hvalid : (s.entry i y).state = .valid) (hmark : (s.entry i y).mark = .pending) (hpins : (s.entry i y).pins = 0)
    (hkey : (s.entry i y).key = some key) (hrecalls : s.cache.recalls = [⟨key, released, true, false⟩]) :
    ({ st := taken s rest ws os } : Work).acceptOwed o =
      { st := { (taken s rest ws os).accept x with
          cache := { { withEntry s i y {} with recalls := [⟨key, released, false, false⟩] } with sendOrder := os } }
        retry := true } := by
  have hunpinned : Work.unpinnedRecall (s.entry i y) = true := by
    unfold Work.unpinnedRecall
    rw [hvalid, hmark, hpins]
    rfl
  rw [acceptOwed_entry ho hrecord]
  dsimp only
  have hcleanKey : (State.entry { (taken s rest ws os).accept x with
      cache := { withEntry s i y { s.entry i y with owed := .none, dirty := false } with sendOrder := os } } i y).key = some key :=
    (congrArg Entry.key (entry_put s i y { s.entry i y with owed := .none, dirty := false } s.cache.recalls)).trans hkey
  rw [if_pos hunpinned, invalidate_eq (key := key) (released := released) _ i y hcleanKey hrecalls]
  unfold withEntry
  dsimp only
  rw [upd_upd]
  simp only [put_put]

theorem acceptOwed_castout {i : Fin 16} {f : Fetch} {rec : Record} (hslot : s.cache.slots[i] = some f)
    (hcastout : f.castout = some rec) :
    ({ st := taken s rest ws os } : Work).acceptOwed (.castout i) = { st := { (taken s rest ws os).accept (.bookingWriteback rec) with
      cache := { { s.cache with slots := s.cache.slots.set i (some { f with castout := none, phase := .fetchOwed }) } with
        sendOrder := os } } } := by
  have hslot' : (taken s rest ws os).cache.slots[i] = some f := hslot
  unfold Work.acceptOwed
  dsimp only
  rw [hslot']
  dsimp only
  rw [hcastout]
  rfl

theorem acceptOwed_fetch {i : Fin 16} {f : Fetch} (hslot : s.cache.slots[i] = some f) :
    ({ st := taken s rest ws os } : Work).acceptOwed (.fetch i) = { st := { (taken s rest ws os).accept (.bookingFetch f.key f.tag) with
      cache := { { s.cache with
        slots := s.cache.slots.set i (some { f with phase := .sent, timer := some s.params.fetchTimeout }) } with
        sendOrder := os } } } := by
  have hslot' : (taken s rest ws os).cache.slots[i] = some f := hslot
  unfold Work.acceptOwed
  dsimp only
  rw [hslot']
  rfl

/-- The cache with one place of the visits' copies changed. -/
def withCopy (s : State) (p : Fin 48) (d : Option PrivateCopy) : Cache := { s.cache with copies := s.cache.copies.set p d }

/-- R102: a visit's copy whose update is accepted stays with its visit, and is discarded without one. -/
theorem acceptOwed_copyUpdate {p : Fin 48} {d : PrivateCopy} {rec : Record} (hcopy : s.cache.copies[p] = some d)
    (hrecord : d.record = some rec) :
    ({ st := taken s rest ws os } : Work).acceptOwed (.copyUpdate p) =
      { st := { (taken s rest ws os).accept (.bookingUpdate rec) with
          cache := { withCopy s p (if d.link.isNone then none else some { d with updateOwed := false }) with sendOrder := os } }
        retry := d.link.isNone } := by
  have hcopy' : (taken s rest ws os).cache.copies[p] = some d := hcopy
  unfold Work.acceptOwed
  dsimp only
  rw [hcopy']
  dsimp only
  rw [hrecord]
  have hupd : upd s.cache.copies p (Option.map fun c => { c with updateOwed := false }) =
      s.cache.copies.set p (some { d with updateOwed := false }) := by
    unfold upd
    rw [hcopy, Option.map_some]
  cases hlink : d.link with
  | none =>
    have hset : (upd s.cache.copies p (Option.map fun c => { c with updateOwed := false })).set p none =
        s.cache.copies.set p none := by
      rw [hupd, Vector.set_set]
    unfold withCopy
    dsimp only
    rw [Option.isNone_none, if_pos rfl, if_pos rfl, ← hset]
    rfl
  | some q =>
    rw [hrecord, hlink] at hupd
    unfold withCopy
    dsimp only
    rw [Option.isNone_some, if_neg (by simp), if_neg (by simp), ← hupd]
    rfl

theorem acceptOwed_recallDone (key : Text) (released : Bool) :
    ({ st := taken s rest ws os } : Work).acceptOwed (.recallDone key released) =
      { st := { (taken s rest ws os).accept (.recallDone key released) with
          cache := { { s.cache with recalls := s.cache.recalls.filter (·.key != key) } with sendOrder := os } } } := rfl

theorem acceptOwed_flushDone :
    ({ st := taken s rest ws os } : Work).acceptOwed .flushDone =
      { st := { (taken s rest ws os).accept .flushDone with cache := { s.cache with sendOrder := os } } } := rfl

end Accepted

/-! ### The recalls that wait -/

/-- R112: a change of a visit's copy keeps the recalls waiting, where it stays recalled. -/
theorem recallsWait_withCopy {s : State} {p : Fin 48} {d : PrivateCopy} {e : Option PrivateCopy} (hcopy : s.cache.copies[p] = some d)
    (hkeep : d.recalled = true → ∃ c, e = some c ∧ c.key = d.key ∧ c.recalled = true) (hwait : RecallsWait s) :
    ∀ q ∈ s.cache.recalls, q.done = true ∨ q.entryPart = true ∨
      ∃ n : Fin 48, ∃ c ∈ (withCopy s p e).copies[n], c.key = q.key ∧ c.recalled = true := by
  intro q hq
  refine (hwait q hq).imp_right fun h => h.imp_right ?_
  rintro ⟨n, c, hc, hkey, hrecalled⟩
  by_cases hn : n = p
  · subst hn
    cases hcopy.symm.trans hc
    obtain ⟨b, rfl, hkeyb, hrecalledb⟩ := hkeep hrecalled
    exact ⟨n, b, by unfold withCopy; simp, hkeyb.trans hkey, hrecalledb⟩
  · have hne : p.val ≠ n.val := fun h => hn (Fin.ext h.symm)
    refine ⟨n, c, ?_, hkey, hrecalled⟩
    unfold withCopy
    simpa [Vector.getElem_set, hne] using hc

/-- R112: with the one recalled copy of a key discarded none is under recall. -/
theorem noCopyRecalled_discarded {s : State} {p : Fin 48} {key : Text}
    (hothers : ∀ q : Fin 48, q ≠ p → ∀ d ∈ s.cache.copies[q], d.key = key → d.recalled = false) :
    ∀ q : Fin 48, ∀ c ∈ (withCopy s p none).copies[q], c.key = key → c.recalled = false := by
  intro q c hc hkey
  unfold withCopy at hc
  by_cases hq : q = p
  · subst hq
    simp at hc
  · have hne : p.val ≠ q.val := fun h => hq (Fin.ext h.symm)
    exact hothers q hq c (by simpa [Vector.getElem_set, hne] using hc) hkey

/-- Settles O49, waiter by waiter, and for the cache by the report it owes. -/
theorem reportSentServesTheOldestWaiter : Obligations.ReportSentServesTheOldestWaiter := by
  unfold Obligations.ReportSentServesTheOldestWaiter
  intro s r rest hreset hup hqueue
  have hexec := exec_reportSent hreset hup hqueue
  refine ⟨fun hnone => ?nobody, fun ws x more hwaits howed => ?uplink, fun ws id hwaits => ?notice, fun ws id hwaits => ?visit,
    fun ws o os hwaits horder => ?cache⟩
  case nobody =>
    rw [hexec, reportSent_nobody hqueue hnone]
    unfold freed
    rw [← hnone]
  case uplink =>
    rw [hexec, reportSent_waiter hqueue hwaits]
    exact congrArg _ (uplinkTurn_owed howed)
  case notice =>
    rw [hexec, reportSent_waiter hqueue hwaits]
    rfl
  case visit =>
    rw [reportSent_waiter hqueue hwaits, serve_visitReport] at hexec
    exact ⟨_, hexec, reported_configured s rest ws id, reported_drained s rest ws id, reported_granted s rest ws id,
      fun hnone => freeCtx_none (s := reported s rest ws id) hnone⟩
  case cache =>
    have hturn {x : Report} {c : Cache} {retry : Bool} := exec_cacheTurn (x := x) (c := c) (retry := retry) hreset hup hqueue hwaits horder
    refine ⟨fun i y x rec ho hrecord => ⟨fun hwait hpinned => ?clean,
        fun key released hvalid hmark hpins hkey hrecalls hcopies => ?recalled⟩,
      fun i f x ho hslot hcastout hwait => ?castout, fun i f ho hslot hwait => ?fetch, fun p d rec ho hcopy hrecord => ?copy,
      fun key released ho hwait => ?done, fun ho hwait => ?flush⟩
    case clean =>
      exact (hturn (acceptOwed_entryClean ho hrecord hpinned)).trans (congrArg _ (settle_turned hwait))
    case recalled =>
      exact retried_ended (c := { withEntry s i y {} with recalls := [⟨key, released, false, false⟩] }) (rs := s.cache.recalls) rfl
        hcopies rfl (hturn (acceptOwed_entryRecalled ho hrecord hvalid hmark hpins hkey hrecalls))
    case castout =>
      subst ho
      exact (hturn (acceptOwed_castout hslot hcastout)).trans (congrArg _ (settle_turned hwait))
    case fetch =>
      subst ho
      exact (hturn (acceptOwed_fetch hslot)).trans (congrArg _ (settle_turned hwait))
    case copy =>
      subst ho
      have haccept := hturn (acceptOwed_copyUpdate hcopy hrecord)
      refine ⟨fun hlink hwait => ?linked, fun hlink hrecalled hwait => ?discarded,
        fun released hlink hrecalled hrecalls hothers => ?ended⟩
      case linked =>
        have hstays : d.link.isNone = false := by rw [← Option.not_isSome, hlink]; rfl
        rw [hstays, if_neg (by simp)] at haccept
        refine haccept.trans (congrArg _ (settle_turned ?_))
        exact recallsWait_withCopy hcopy (fun hrecalled => ⟨_, rfl, rfl, hrecalled⟩) hwait
      case discarded =>
        rw [hlink, Option.isNone_none, if_pos rfl] at haccept
        refine retried_turned (c := withCopy s p none) ?_ rfl haccept
        exact recallsWait_withCopy hcopy (fun h => absurd h (by rw [hrecalled]; simp)) hwait
      case ended =>
        rw [hlink, Option.isNone_none, if_pos rfl] at haccept
        exact retried_ended (c := withCopy s p none) (rs := s.cache.recalls) hrecalls (noCopyRecalled_discarded hothers) rfl haccept
    case done =>
      subst ho
      refine (hturn (acceptOwed_recallDone key released)).trans (congrArg _ (settle_turned ?_))
      exact fun q hq => hwait q (List.mem_of_mem_filter hq)
    case flush =>
      subst ho
      exact (hturn acceptOwed_flushDone).trans (congrArg _ (settle_turned hwait))

end Sys2Proof.Proofs
end

section
/-! PROOFS. A BOOKING_RECALL (R88, R89, R95, R96, R101, R108 to R112): what it answers, and what it does with each of the places
that can hold its key. -/

namespace Sys2Proof.Proofs

open Sys2Proof Sys2Proof.Machine Sys2Proof.Safety Sys2Proof.Laws

/-! ### The answer -/

section Answered

variable {s : State} {key : Text}

theorem recallAnswer_badKey (hform : isKey key = false) : recallAnswer key s = refuse s .badValue := by
  unfold recallAnswer
  rw [hform]
  rfl

theorem recallAnswer_outstanding (hform : isKey key = true) (hheld : ∃ r ∈ s.cache.recalls, r.key = key) :
    recallAnswer key s = (okay false, s) := by
  have hany : s.cache.recalls.any (·.key == key) = true := by
    obtain ⟨r, hr, hkey⟩ := hheld
    exact List.any_eq_true.2 ⟨r, hr, beq_iff_eq.2 hkey⟩
  unfold recallAnswer
  rw [hform, hany]
  rfl

theorem recalls_any (hnew : ∀ r ∈ s.cache.recalls, r.key ≠ key) : s.cache.recalls.any (·.key == key) = false := by
  rw [List.any_eq_false]
  intro r hr hkey
  exact hnew r hr (beq_iff_eq.1 hkey)

theorem recallAnswer_denied (hform : isKey key = true) (hnew : ∀ r ∈ s.cache.recalls, r.key ≠ key)
    (hfull : 16 ≤ s.cache.recalls.length) :
    recallAnswer key s =
      refuse (s.countCache fun k => { k with recallsDenied := bump k.recallsDenied }) .denied := by
  unfold recallAnswer
  rw [hform, recalls_any hnew, if_neg (by simp), if_neg (by simp)]
  exact if_pos hfull

theorem recallAnswer_taken (hform : isKey key = true) (hnew : ∀ r ∈ s.cache.recalls, r.key ≠ key)
    (hroom : s.cache.recalls.length < 16) :
    recallAnswer key s = (okay false, State.settle (Work.takeRecall { st := s } key)) := by
  unfold recallAnswer
  rw [hform, recalls_any hnew, if_neg (by simp), if_neg (by simp)]
  exact if_neg (Nat.not_le.2 hroom)

end Answered

/-! ### A recall taken with no lookup waiting and no recall outstanding -/

/-- R108, R182: the server PRESENT and the recall counted. -/
def recallBase (s : State) (h : GateHdr) : State := { s with
  uplink := presence s h
  cache := { s.cache with counters := { s.cache.counters with recalls := bump s.cache.counters.recalls } } }

/-- R108: the recall table. -/
def withRecalls (s : State) (rs : List RecallRec) : State := { s with cache := { s.cache with recalls := rs } }

/-- R109 to R112: the acts of a recall on the entry and on the visits' copies of its key. -/
def recallActs (s : State) (key : Text) : Work :=
  let w : Work := { st := withRecalls s [⟨key, Work.recallFinds s key, (Work.wayOf s key).isSome, false⟩] }
  (List.finRange 48).foldl (fun w p => w.recallCopy key p) (match Work.wayOf s key with
    | some y => w.recallEntry key y
    | none => w)

theorem takeRecall_idle {s : State} (h : GateHdr) (key : Text) (hrecalls : s.cache.recalls = []) :
    Work.takeRecall { st := heard s h } key =
      (Work.returned s key).foldl Work.lookup (recallActs (recallBase s h) key).finish := by
  have htable : ((heard s h).updCache fun c => { c with
      recalls := c.recalls ++ [⟨key, Work.recallFinds s key, (Work.wayOf s key).isSome, false⟩]
      counters := { c.counters with recalls := bump c.counters.recalls } }) =
      withRecalls (recallBase s h) [⟨key, Work.recallFinds s key, (Work.wayOf s key).isSome, false⟩] := by
    unfold State.updCache heard withRecalls recallBase
    dsimp only
    rw [hrecalls, List.nil_append]
  have hway : Work.wayOf (recallBase s h) key = Work.wayOf s key := rfl
  have hfinds : Work.recallFinds (recallBase s h) key = Work.recallFinds s key := rfl
  unfold recallActs
  rw [hway, hfinds]
  dsimp only
  rw [← htable]
  rfl

/-- R108 to R112: the event of a recall. -/
theorem exec_recall {s : State} {h : GateHdr} {key : Text} (hready : Ready s) (hform : isKey key = true) (hidle : CacheIdle s) {t : State}
    (ht : State.settle ((Work.returned s key).foldl Work.lookup (recallActs (recallBase s h) key).finish) = t) :
    exec (.bookingRecall h key) s = .next { t with uplink := made t.uplink (response h 3 (okay false)) } := by
  show execBookingRecall h key s = _
  have hempty : (heard s h).cache.recalls = [] := hidle.2
  rw [← ht, ← takeRecall_idle h key hidle.2]
  refine request_accepted hready (recallAnswer_taken (s := heard s h) hform ?_ ?_)
  · rw [hempty]
    exact fun r hr => nomatch hr
  · rw [hempty]
    exact Nat.zero_lt_succ 15

/-- R108 to R112: the event where no link is looked up anew. -/
theorem exec_recall_plain {s t : State} {h : GateHdr} {key : Text} (hready : Ready s) (hform : isKey key = true) (hidle : CacheIdle s)
    (hreturned : Work.returned s key = [])
    (hacts : (recallActs (recallBase s h) key).finish.st = t ∧ (recallActs (recallBase s h) key).finish.touched = []) :
    exec (.bookingRecall h key) s = .next { t with uplink := made t.uplink (response h 3 (okay false)) } := by
  obtain ⟨hst, htouched⟩ := hacts
  refine exec_recall hready hform hidle ?_
  rw [hreturned, List.foldl_nil, settle_untouched htouched, hst]

/-- R111, R112: the event where one link is looked up anew, and is not RESOLVED by it. -/
theorem exec_recall_again {s t : State} {h : GateHdr} {key : Text} {r : LinkRef} {l : Link} (hready : Ready s)
    (hform : isKey key = true) (hidle : CacheIdle s) (hreturned : Work.returned s key = [r])
    (hacts : (recallActs (recallBase s h) key).finish.st = t ∧ (recallActs (recallBase s h) key).finish.touched = [])
    (hlink : t.link? r = some l) (hkey : l.key = key) (hwait : t.cache.waitList = []) (hunresolved : resolves t key = false) :
    ∃ v, exec (.bookingRecall h key) s = .next { v with uplink := made v.uplink (response h 3 (okay false)) } ∧
      LookedUp t v r key [r] [] := by
  obtain ⟨hst, htouched⟩ := hacts
  have hlength : 4 ≤ l.key.length := by
    unfold isKey at hform
    have hlong : key.length = 11 := beq_iff_eq.1 (Bool.and_eq_true_iff.1 hform).1
    rw [hkey]
    omega
  obtain ⟨hlooked, -, htested⟩ := lookup_spec (recallActs (recallBase s h) key).finish r l (hst ▸ hlink) hlength
  rw [hst, hkey, hwait] at hlooked
  rw [hst, hkey, hunresolved, htouched, List.nil_append, if_neg (by simp)] at htested
  refine ⟨_, exec_recall hready hform hidle ?_, hlooked⟩
  rw [hreturned, List.foldl_cons, List.foldl_nil]
  exact settle_untouched htested

/-! ### The end of the recall in its own event -/

theorem recallEnded_withRecalls (s : State) (rs : List RecallRec) (key : Text) (released : Bool) :
    recallEnded (withRecalls s rs) key released = recallEnded s key released := rfl

/-- R112: with no lookup waiting the one recall that ends is all that follows. -/
theorem finish_ended {w : Work} {key : Text} {released : Bool} (hrecalls : w.st.cache.recalls = [⟨key, released, false, false⟩])
    (hcopies : NoCopyRecalled w.st key) (hwait : w.st.cache.waitList = []) :
    w.finish.st = recallEnded w.st key released ∧ w.finish.touched = w.touched := by
  have hempty : (recallEnded w.st key released).cache.waitList = [] := hwait
  rw [finish_done w key released hrecalls hcopies]
  dsimp only
  rw [hempty]
  split
  · exact ⟨rfl, rfl⟩
  · exact ⟨rfl, rfl⟩

/-- R112: with no lookup waiting a recall that waits is left as it is. -/
theorem finish_waiting {w : Work} (hrecalls : RecallsWait w.st) (hwait : w.st.cache.waitList = []) :
    w.finish.st = w.st ∧ w.finish.touched = w.touched := by
  rw [finish_waits w hrecalls, hwait]
  split
  · exact ⟨rfl, rfl⟩
  · exact ⟨rfl, rfl⟩

/-! ### The visits' copies of the key -/

section Copies

variable {key : Text}

theorem recallCopy_other {w : Work} {p : Fin 48} (hother : ∀ c ∈ w.st.cache.copies[p], c.key ≠ key) : w.recallCopy key p = w := by
  unfold Work.recallCopy
  split
  · rfl
  next c hc =>
    split
    · rfl
    · exact if_pos (bne_iff_ne.2 (hother c hc))

theorem recallCopies_others {w : Work} (L : List (Fin 48)) (hothers : ∀ p ∈ L, ∀ c ∈ w.st.cache.copies[p], c.key ≠ key) :
    L.foldl (fun w p => w.recallCopy key p) w = w := by
  induction L with
  | nil => rfl
  | cons p L ih =>
    rw [List.foldl_cons, recallCopy_other (hothers p List.mem_cons_self)]
    exact ih fun q hq => hothers q (List.mem_cons_of_mem p hq)

/-- R112: the one copy of the key that a visit holds is acted on. -/
theorem recallCopies_one {w : Work} {p : Fin 48} (hothers : ∀ q : Fin 48, q ≠ p → ∀ c ∈ w.st.cache.copies[q], c.key ≠ key)
    (hkept : ∀ q : Fin 48, q ≠ p → (w.recallCopy key p).st.cache.copies[q] = w.st.cache.copies[q]) :
    (List.finRange 48).foldl (fun w p => w.recallCopy key p) w = w.recallCopy key p := by
  obtain ⟨before, after, hsplit⟩ := List.append_of_mem (List.mem_finRange p)
  have hnodup : (before ++ p :: after).Nodup := hsplit ▸ List.nodup_finRange 48
  obtain ⟨-, hafter, hdisjoint⟩ := List.nodup_append.1 hnodup
  rw [hsplit, List.foldl_append, List.foldl_cons]
  rw [recallCopies_others before fun q hq => hothers q (hdisjoint q hq p List.mem_cons_self)]
  refine recallCopies_others after fun q hq => ?_
  have hne : q ≠ p := fun heq => (List.nodup_cons.1 hafter).1 (heq ▸ hq)
  rw [hkept q hne]
  exact hothers q hne

end Copies

/-! ### What a recall finds -/

theorem slots_any (s : State) (f : Fetch → Bool) :
    s.cache.slots.toList.any (fun g => g.any f) = true ↔ ∃ i : Fin 16, ∃ g ∈ s.cache.slots[i], f g = true := by
  rw [List.any_eq_true]
  constructor
  · rintro ⟨x, hx, hany⟩
    rw [Vector.mem_toList_iff, Vector.mem_iff_getElem] at hx
    obtain ⟨i, hi, rfl⟩ := hx
    obtain ⟨g, hg, hf⟩ := (Option.any_eq_true _ _).1 hany
    exact ⟨⟨i, hi⟩, g, hg, hf⟩
  · rintro ⟨i, g, hg, hf⟩
    refine ⟨s.cache.slots[i], Vector.mem_toList_iff.2 (Vector.getElem_mem _), ?_⟩
    rw [show s.cache.slots[i] = some g from hg]
    exact hf

theorem recallFinds_way {s : State} {key : Text} {y : Fin 2} (hway : Work.wayOf s key = some y) : Work.recallFinds s key = true := by
  unfold Work.recallFinds
  rw [hway]
  rfl

theorem recallFinds_copy {s : State} {key : Text} (hheld : HeldPrivately s key) : Work.recallFinds s key = true := by
  unfold Work.recallFinds
  rw [(heldPrivately_eq s key).2 hheld]
  simp

/-- R108: a key that no entry and no visit's copy holds is found in a castout or not at all. -/
theorem recallFinds_castout {s : State} {key : Text} (hway : Work.wayOf s key = none)
    (hcopies : ∀ p : Fin 48, ∀ c ∈ s.cache.copies[p], c.key ≠ key) :
    Work.recallFinds s key = true ↔ ∃ i : Fin 16, ∃ f ∈ s.cache.slots[i], ∃ r ∈ f.castout, r.key = key := by
  have hheld : Work.heldPrivately s key = false := by
    rw [Bool.eq_false_iff, ne_eq, heldPrivately_eq]
    rintro ⟨p, c, hc, hkey, -⟩
    exact hcopies p c hc hkey
  unfold Work.recallFinds
  rw [hway, hheld, Option.isSome_none, Bool.false_or, Bool.false_or, slots_any]
  simp only [Option.any_eq_true, beq_iff_eq]
  rfl

/-! ### A key held nowhere -/

theorem recallActs_noCopy {s : State} {key : Text} (hway : Work.wayOf s key = none)
    (hcopies : ∀ p : Fin 48, ∀ c ∈ s.cache.copies[p], c.key ≠ key) :
    recallActs s key = { st := withRecalls s [⟨key, Work.recallFinds s key, false, false⟩] } := by
  unfold recallActs
  rw [hway]
  exact recallCopies_others _ fun p _ => hcopies p

theorem recall_nowhere {s : State} {key : Text} (hway : Work.wayOf s key = none) (hwait : s.cache.waitList = [])
    (hcopies : ∀ p : Fin 48, ∀ c ∈ s.cache.copies[p], c.key ≠ key) :
    (recallActs s key).finish.st = recallEnded s key (Work.recallFinds s key) ∧ (recallActs s key).finish.touched = [] := by
  rw [recallActs_noCopy hway hcopies]
  exact finish_ended (w := { st := withRecalls s [⟨key, Work.recallFinds s key, false, false⟩] }) rfl
    (fun p c hc hkey => absurd hkey (hcopies p c hc)) hwait

end Sys2Proof.Proofs
end

section
/-! PROOFS. A BOOKING_RECALL and the entry of its key (R95, R109 to R111). -/

namespace Sys2Proof.Proofs

open Sys2Proof Sys2Proof.Machine Sys2Proof.Safety Sys2Proof.Laws

/-! ### The links that a recall returns -/

/-- R111, R112: the link of a visit in LOOKUP to a VALID entry, or to a visit's own copy, of the key is returned. -/
def returns (s : State) (key : Text) (c : Ctx) (l : Link) : Bool :=
  c.state == .lookup && l.key == key &&
    match l.target with
    | some (.way i y) => (s.entry i y).state == .valid
    | some (.copy _) => true
    | none => false

theorem returned_eq (s : State) (key : Text) : Work.returned s key = s.linksWhere (returns s key) := rfl

theorem returned_noLookup {s : State} {key : Text}
    (hnone : ∀ id : CtxId, ∀ l ∈ (s.ctx id).links, l.key = key → (s.ctx id).state ≠ .lookup) : Work.returned s key = [] := by
  rw [returned_eq]
  refine linksWhere_nil s _ fun id l hl => Bool.eq_false_iff.2 fun hreturns => ?_
  unfold returns at hreturns
  simp only [Bool.and_eq_true, beq_iff_eq] at hreturns
  exact hnone id l hl hreturns.1.2 hreturns.1.1

theorem returned_filling {s : State} {key : Text} {k : Fin 1024} {y : Fin 2} (hfilling : (s.entry k y).state = .filling)
    (htargets : ∀ id : CtxId, ∀ l ∈ (s.ctx id).links, (s.ctx id).state = .lookup → l.key = key →
      l.target = none ∨ l.target = some (.way k y)) : Work.returned s key = [] := by
  rw [returned_eq]
  refine linksWhere_nil s _ fun id l hl => Bool.eq_false_iff.2 fun hreturns => ?_
  unfold returns at hreturns
  simp only [Bool.and_eq_true, beq_iff_eq] at hreturns
  obtain ⟨⟨hlookup, hkey⟩, htarget⟩ := hreturns
  rcases htargets id l hl hlookup hkey with hnone | hway
  · rw [hnone] at htarget
    exact Bool.false_ne_true htarget
  · rw [hway] at htarget
    dsimp only at htarget
    rw [hfilling] at htarget
    exact Bool.false_ne_true htarget

theorem returned_one {s : State} {key : Text} {r : LinkRef} {l : Link} (hlookup : (s.ctx r.ctx).state = .lookup)
    (hl : (s.ctx r.ctx).links[r.index]? = some l) (hkey : l.key = key)
    (htarget : (∃ i y, l.target = some (.way i y) ∧ (s.entry i y).state = .valid) ∨ ∃ p, l.target = some (.copy p))
    (honly : ∀ (j : CtxId) (m : Nat) (x : Link), (s.ctx j).state = .lookup → (s.ctx j).links[m]? = some x → x.key = key →
      j = r.ctx ∧ m = r.index) : Work.returned s key = [r] := by
  rw [returned_eq]
  refine linksWhere_single hl ?_ fun j m x hx hreturns => ?_
  · unfold returns
    rw [hlookup, hkey]
    rcases htarget with ⟨i, y, hway, hvalid⟩ | ⟨p, hcopy⟩
    · rw [hway]
      dsimp only
      rw [hvalid]
      simp
    · rw [hcopy]
      simp
  · unfold returns at hreturns
    simp only [Bool.and_eq_true, beq_iff_eq] at hreturns
    exact honly j m x hreturns.1.1 hx hreturns.1.2

/-! ### The way of the key -/

theorem wayOf_key {s : State} {key : Text} {y : Fin 2} (hway : Work.wayOf s key = some y) :
    (s.entry (setIndex key) y).key = some key := by
  unfold Work.wayOf at hway
  split at hway
  next h =>
    cases hway
    exact beq_iff_eq.1 h
  next =>
    split at hway
    next h =>
      cases hway
      exact beq_iff_eq.1 h
    next => cases hway

theorem recallActs_entry {s : State} {key : Text} {y : Fin 2} (hway : Work.wayOf s key = some y) :
    recallActs s key = (List.finRange 48).foldl (fun w p => w.recallCopy key p)
      (({ st := withRecalls s [⟨key, true, true, false⟩] } : Work).recallEntry key y) := by
  unfold recallActs
  rw [recallFinds_way hway, hway]
  rfl

/-! ### An entry in FILLING -/

section Filling

variable {s : State} {key : Text} {y : Fin 2}

theorem recallEntry_filling (hfilling : (s.entry (setIndex key) y).state = .filling) (rs : List RecallRec) :
    ({ st := withRecalls s rs } : Work).recallEntry key y =
      if s.cache.slots.toList.any fun f => f.any fun f => f.target == .way (setIndex key) y && f.phase == .sent then
        { st := (withRecalls s rs).updEntry (setIndex key) y fun e => { e with mark := .refill } }
      else ({ st := withRecalls s rs } : Work).entryPartDone key := by
  unfold Work.recallEntry
  dsimp only
  rw [show ((withRecalls s rs).entry (setIndex key) y).state = .filling from hfilling, if_pos (beq_self_eq_true _)]
  rfl

/-- R110: the entry's part of the recall is done where its fetch is not yet sent. -/
theorem recall_unsent (hway : Work.wayOf s key = some y) (hwait : s.cache.waitList = [])
    (hcopies : ∀ p : Fin 48, ∀ c ∈ s.cache.copies[p], c.key ≠ key) (hfilling : (s.entry (setIndex key) y).state = .filling)
    (hunsent : ¬ ∃ i : Fin 16, ∃ f ∈ s.cache.slots[i], f.target = .way (setIndex key) y ∧ f.phase = .sent) :
    (recallActs s key).finish.st = recallEnded s key true ∧ (recallActs s key).finish.touched = [] := by
  have hdone : ({ st := withRecalls s [⟨key, true, true, false⟩] } : Work).entryPartDone key =
      { st := withRecalls s [⟨key, true, false, false⟩] } := by
    have hmap : ([⟨key, true, true, false⟩] : List RecallRec).map (fun r => if r.key == key then { r with entryPart := false } else r) =
        [⟨key, true, false, false⟩] := by simp
    unfold Work.entryPartDone Work.upd State.updCache withRecalls
    dsimp only
    rw [hmap]
  rw [recallActs_entry hway, recallEntry_filling hfilling, if_neg, hdone, recallCopies_others _ fun p _ => hcopies p]
  · exact finish_ended (w := { st := withRecalls s [⟨key, true, false, false⟩] }) rfl
      (fun p c hc hkey => absurd hkey (hcopies p c hc)) hwait
  · rw [slots_any]
    simpa only [Bool.and_eq_true, beq_iff_eq] using hunsent

/-- R110: the entry is to be fetched again where its fetch is sent. -/
theorem recall_sent (hway : Work.wayOf s key = some y) (hwait : s.cache.waitList = [])
    (hcopies : ∀ p : Fin 48, ∀ c ∈ s.cache.copies[p], c.key ≠ key) (hfilling : (s.entry (setIndex key) y).state = .filling)
    (hsent : ∃ i : Fin 16, ∃ f ∈ s.cache.slots[i], f.target = .way (setIndex key) y ∧ f.phase = .sent) :
    (recallActs s key).finish.st =
      (withRecalls s [⟨key, true, true, false⟩]).updEntry (setIndex key) y (fun e => { e with mark := .refill }) ∧
    (recallActs s key).finish.touched = [] := by
  rw [recallActs_entry hway, recallEntry_filling hfilling, if_pos, recallCopies_others _ fun p _ => hcopies p]
  · refine finish_waiting (w := { st := (withRecalls s [⟨key, true, true, false⟩]).updEntry (setIndex key) y _ }) ?_ hwait
    intro q hq
    rw [List.mem_singleton.1 hq]
    exact .inr (.inl rfl)
  · rw [slots_any]
    simpa only [Bool.and_eq_true, beq_iff_eq] using hsent

end Filling

end Sys2Proof.Proofs
end

section
/-! PROOFS. A BOOKING_RECALL and a VALID entry of its key (R109, R111). -/

namespace Sys2Proof.Proofs

open Sys2Proof Sys2Proof.Machine Sys2Proof.Safety Sys2Proof.Laws

/-! ### The entry settled, and the visits' copies passed over -/

theorem acceptEntry_copies (w : Work) (i : Fin 1024) (y : Fin 2) (make : Record → Report) :
    (w.acceptEntry i y make).st.cache.copies = w.st.cache.copies := by
  unfold Work.acceptEntry
  dsimp only
  split
  · rfl
  · split
    · rfl
    · rfl

theorem settleEntry_copies (w : Work) (i : Fin 1024) (y : Fin 2) : (w.settleEntry i y).st.cache.copies = w.st.cache.copies := by
  unfold Work.settleEntry
  dsimp only
  split
  · split
    · unfold Work.make
      split
      · exact acceptEntry_copies _ i y .bookingWriteback
      · rfl
    · rfl
  · rfl

/-- R109, R111: an entry under the one recall outstanding settled, and what follows in the event where nothing waits. -/
theorem settleEntry_event {w : Work} {k : Fin 1024} {y : Fin 2} {key : Text} {e : Entry} (hentry : w.st.entry k y = e)
    (hvalid : e.state = .valid) (hmark : e.mark = .pending) (hkey : e.key = some key) (hrecord : e.dirty = true → e.record.isSome = true)
    (hrecalls : w.st.cache.recalls = [⟨key, true, true, false⟩]) (hwait : w.st.cache.waitList = [])
    (hcopies : ∀ p : Fin 48, ∀ c ∈ w.st.cache.copies[p], c.key ≠ key) :
    let v := ((List.finRange 48).foldl (fun w p => w.recallCopy key p) (w.settleEntry k y)).finish
    v.st = recallTested w.st k y key true e ∧ v.touched = w.touched := by
  obtain ⟨v, hst, htouched, hfinish⟩ := settle_recall w k y key true e hentry hvalid hmark hkey hrecord hrecalls
    fun p c hc heq => absurd heq (hcopies p c hc)
  have hempty : v.st.cache.waitList = [] := by
    rw [hst]
    exact hwait
  dsimp only
  rw [recallCopies_others _ fun p _ => by rw [settleEntry_copies]; exact hcopies p, hfinish, hempty]
  split
  · exact ⟨hst, htouched⟩
  · exact ⟨hst, htouched⟩

/-! ### One link returned -/

/-- A link in its place. -/
def withLink (s : State) (r : LinkRef) (m : Link) : State :=
  { s with pool := upd s.pool r.ctx fun d => { d with links := d.links.set r.index m } }

theorem updLink_withLink {s : State} {r : LinkRef} {l : Link} (hl : (s.ctx r.ctx).links[r.index]? = some l) (f : Link → Link) :
    s.updLink r f = withLink s r (f l) := by
  have hmodify : (s.ctx r.ctx).links.modify r.index f = (s.ctx r.ctx).links.set r.index (f l) := by
    refine List.ext_getElem? fun n => ?_
    rw [List.getElem?_modify, List.getElem?_set]
    split
    next heq =>
      subst heq
      obtain ⟨hlt, -⟩ := List.getElem?_eq_some_iff.1 hl
      rw [hl, if_pos hlt]
      rfl
    next => simp
  unfold State.updLink withLink State.updCtx upd
  dsimp only
  rw [show s.pool[r.ctx].links = (s.ctx r.ctx).links from rfl, hmodify]

theorem withLink_link {s : State} {r : LinkRef} {l : Link} (hl : (s.ctx r.ctx).links[r.index]? = some l) (m : Link) :
    (withLink s r m).link? r = some m := by
  rw [show withLink s r m = s.updLink r (fun _ => m) from (updLink_withLink hl fun _ => m).symm]
  unfold State.link?
  rw [updLink_link, hl, Option.map_some, if_pos rfl]

/-! ### A VALID entry -/

section Valid

variable {s : State} {key : Text} {y : Fin 2}

/-- R111: the links of visits in LOOKUP that name an entry. -/
def pinned (k : Fin 1024) (y : Fin 2) (c : Ctx) (l : Link) : Bool := c.state == .lookup && l.target == some (.way k y)

/-- R111: one link that names the entry gives its pin back. -/
def unpinnedLink (k : Fin 1024) (y : Fin 2) (s : State) (r : LinkRef) : State :=
  (s.updLink r fun l => { l with state := .pending, target := none }).updEntry k y fun e => { e with pins := e.pins - 1 }

/-- R111: an entry marked PENDING. -/
def marked (k : Fin 1024) (y : Fin 2) (s : State) : State := s.updEntry k y fun e => { e with mark := .pending }

/-- R111: an entry marked PENDING that gave a pin back. -/
def unpinnedEntry (s : State) (k : Fin 1024) (y : Fin 2) : Entry :=
  { s.entry k y with pins := (s.entry k y).pins - 1, mark := .pending }

theorem recallEntry_valid (hvalid : (s.entry (setIndex key) y).state = .valid) (rs : List RecallRec) :
    ({ st := withRecalls s rs } : Work).recallEntry key y =
      ({ st := marked (setIndex key) y
          ((s.linksWhere (pinned (setIndex key) y)).foldl (unpinnedLink (setIndex key) y) (withRecalls s rs)) } : Work).settleEntry
        (setIndex key) y := by
  unfold Work.recallEntry
  dsimp only
  rw [show ((withRecalls s rs).entry (setIndex key) y).state = .valid from hvalid, if_neg (by decide)]
  rfl

/-- R109, R111: the entry that no link of a visit in LOOKUP names. -/
theorem recall_unnamed (hway : Work.wayOf s key = some y) (hwait : s.cache.waitList = [])
    (hcopies : ∀ p : Fin 48, ∀ c ∈ s.cache.copies[p], c.key ≠ key) (hvalid : (s.entry (setIndex key) y).state = .valid)
    (hrecord : (s.entry (setIndex key) y).dirty = true → (s.entry (setIndex key) y).record.isSome = true)
    (hfree : ∀ id : CtxId, ∀ l ∈ (s.ctx id).links, (s.ctx id).state = .lookup → l.target ≠ some (.way (setIndex key) y)) :
    (recallActs s key).finish.st =
      recallTested s (setIndex key) y key true { s.entry (setIndex key) y with mark := .pending } ∧
    (recallActs s key).finish.touched = [] := by
  have hnone : s.linksWhere (pinned (setIndex key) y) = [] := by
    refine linksWhere_nil s _ fun id l hl => Bool.eq_false_iff.2 fun hpinned => ?_
    unfold pinned at hpinned
    simp only [Bool.and_eq_true, beq_iff_eq] at hpinned
    exact hfree id l hl hpinned.1 hpinned.2
  rw [recallActs_entry hway, recallEntry_valid hvalid, hnone, List.foldl_nil]
  obtain ⟨hst, htouched⟩ := settleEntry_event (key := key)
    (w := { st := marked (setIndex key) y (withRecalls s [⟨key, true, true, false⟩]) })
    (entry_put s (setIndex key) y { s.entry (setIndex key) y with mark := .pending } [⟨key, true, true, false⟩])
    hvalid rfl (wayOf_key hway) hrecord rfl hwait hcopies
  refine ⟨hst.trans ?_, htouched⟩
  exact recallTested_over s (setIndex key) y key true _ _ _

/-- R111: the entry that the one link `r` of a visit in LOOKUP names. -/
theorem recall_named {r : LinkRef} {l : Link} (hway : Work.wayOf s key = some y) (hwait : s.cache.waitList = [])
    (hcopies : ∀ p : Fin 48, ∀ c ∈ s.cache.copies[p], c.key ≠ key) (hvalid : (s.entry (setIndex key) y).state = .valid)
    (hrecord : (s.entry (setIndex key) y).dirty = true → (s.entry (setIndex key) y).record.isSome = true)
    (hlookup : (s.ctx r.ctx).state = .lookup) (hl : (s.ctx r.ctx).links[r.index]? = some l)
    (htarget : l.target = some (.way (setIndex key) y))
    (honly : ∀ (j : CtxId) (m : Nat) (x : Link), (s.ctx j).state = .lookup → (s.ctx j).links[m]? = some x →
      x.target = some (.way (setIndex key) y) → j = r.ctx ∧ m = r.index) :
    (recallActs s key).finish.st =
      recallTested (withLink s r { l with state := .pending, target := none }) (setIndex key) y key true
        (unpinnedEntry s (setIndex key) y) ∧
    (recallActs s key).finish.touched = [] := by
  have hone : s.linksWhere (pinned (setIndex key) y) = [r] := by
    refine linksWhere_single hl ?_ fun j m x hx hpinned => ?_
    · unfold pinned
      rw [hlookup, htarget]
      simp
    · unfold pinned at hpinned
      simp only [Bool.and_eq_true, beq_iff_eq] at hpinned
      exact honly j m x hpinned.1 hx hpinned.2
  have hput : marked (setIndex key) y (unpinnedLink (setIndex key) y (withRecalls s [⟨key, true, true, false⟩]) r) =
      { withLink s r { l with state := .pending, target := none } with cache := { s.cache with
        sets := upd s.cache.sets (setIndex key) fun c => c.put y (unpinnedEntry s (setIndex key) y)
        recalls := [⟨key, true, true, false⟩] } } := by
    unfold marked unpinnedLink
    rw [updLink_withLink (s := withRecalls s [⟨key, true, true, false⟩]) hl, updEntry_twice]
    rfl
  rw [recallActs_entry hway, recallEntry_valid hvalid, hone, List.foldl_cons, List.foldl_nil, hput]
  obtain ⟨hst, htouched⟩ := settleEntry_event (key := key)
    (w := { st := { withLink s r { l with state := .pending, target := none } with cache := { s.cache with
        sets := upd s.cache.sets (setIndex key) fun c => c.put y (unpinnedEntry s (setIndex key) y)
        recalls := [⟨key, true, true, false⟩] } } })
    (entry_put s (setIndex key) y (unpinnedEntry s (setIndex key) y) [⟨key, true, true, false⟩])
    hvalid rfl (wayOf_key hway) hrecord rfl hwait hcopies
  refine ⟨hst.trans ?_, htouched⟩
  exact recallTested_over (withLink s r { l with state := .pending, target := none }) (setIndex key) y key true _ _ _

end Valid

end Sys2Proof.Proofs
end

section
/-! PROOFS. A BOOKING_RECALL and a visit's copy of its key (R101, R112), and the recall as a whole. -/

namespace Sys2Proof.Proofs

open Sys2Proof Sys2Proof.Machine Sys2Proof.Safety Sys2Proof.Laws

/-! ### A visit's copy discarded, with its fetch -/

/-- R96, R101: a visit's copy gone, its fetch withdrawn and the slot FREE. -/
def cancelled (s : State) (i : Fin 16) (p : Fin 48) : State :=
  let order := s.cache.sendOrder.filter (· ≠ .fetch i)
  { s with
    uplink := if order = [] then { s.uplink with waiters := s.uplink.waiters.filter (· ≠ .cache) } else s.uplink
    cache := { s.cache with slots := s.cache.slots.set i none, sendOrder := order, copies := s.cache.copies.set p none } }

theorem cancelCopy_unfetched {w : Work} {p : Fin 48} (hunfetched : ∀ i : Fin 16, ∀ f ∈ w.st.cache.slots[i], f.target ≠ .copy p) :
    w.cancelCopy p = { w with st := w.st.setCopy p none, retry := true } := by
  have hnone : copySlot w.st p = none := by
    refine List.find?_eq_none.2 fun i _ hany => ?_
    obtain ⟨f, hf, htarget⟩ := (Option.any_eq_true _ _).1 hany
    exact hunfetched i f hf (beq_iff_eq.1 htarget)
  unfold copySlot at hnone
  unfold Work.cancelCopy
  rw [hnone]
  rfl

theorem withdraw_eq (w : Work) (o : Owed) :
    w.withdraw o = { w with st := { w.st with
      uplink :=
        if w.st.cache.sendOrder.filter (· ≠ o) = [] then
          { w.st.uplink with waiters := w.st.uplink.waiters.filter (· ≠ .cache) }
        else w.st.uplink
      cache := { w.st.cache with sendOrder := w.st.cache.sendOrder.filter (· ≠ o) } } } := by
  have horder : w.st.cache.sendOrder.filter (· != o) = w.st.cache.sendOrder.filter (· ≠ o) :=
    List.filter_congr fun b _ => Bool.eq_iff_iff.2 (by rw [bne_iff_ne, decide_eq_true_iff])
  have hwaiters : w.st.uplink.waiters.filter (· != .cache) = w.st.uplink.waiters.filter (· ≠ .cache) :=
    List.filter_congr fun b _ => Bool.eq_iff_iff.2 (by rw [bne_iff_ne, decide_eq_true_iff])
  unfold Work.withdraw Work.upd State.updCache State.unwait State.updUplink
  dsimp only
  rw [horder, hwaiters]
  by_cases hempty : w.st.cache.sendOrder.filter (· ≠ o) = []
  · rw [if_pos hempty, if_pos (List.isEmpty_iff.2 hempty)]
  · rw [if_neg hempty, if_neg fun h => hempty (List.isEmpty_iff.1 h)]

theorem cancelCopy_fetched {w : Work} {p : Fin 48} {i : Fin 16} {f : Fetch} (hslot : w.st.cache.slots[i] = some f)
    (htarget : f.target = .copy p)
    (honly : ∀ (j : Fin 16) (g : Fetch), w.st.cache.slots[j] = some g → g.target = .copy p → j = i) :
    w.cancelCopy p = { w with st := cancelled w.st i p, retry := true } := by
  have hfound : copySlot w.st p = some i := copySlot_of hslot htarget honly
  unfold copySlot at hfound
  unfold Work.cancelCopy
  rw [hfound]
  dsimp only
  rw [withdraw_eq]
  rfl

/-! ### The recall of a visit's copy -/

section Copy

variable {s : State} {key : Text} {p : Fin 48} {c : PrivateCopy} {r : LinkRef}

theorem recallActs_copy (hway : Work.wayOf s key = none) (hcopy : s.cache.copies[p] = some c) (hkey : c.key = key)
    (hlink : c.link = some r) :
    recallActs s key = (List.finRange 48).foldl (fun w p => w.recallCopy key p)
      { st := withRecalls s [⟨key, true, false, false⟩] } := by
  have hheld : HeldPrivately s key := ⟨p, c, hcopy, hkey, by rw [hlink]; rfl⟩
  unfold recallActs
  rw [recallFinds_copy hheld, hway]
  rfl

theorem recallCopy_held {w : Work} (hcopy : w.st.cache.copies[p] = some c) (hkey : c.key = key) (hlink : c.link = some r) :
    w.recallCopy key p =
      if (w.st.ctx r.ctx).state == .lookup then
        (w.upd fun s => s.updLink r fun l => { l with state := .pending, target := none }).cancelCopy p
      else w.upd fun s => s.updCopy p fun c => { c with recalled := true } := by
  unfold Work.recallCopy
  rw [hcopy]
  dsimp only
  rw [hlink, hkey]
  dsimp only
  rw [if_neg (by simp)]

theorem recallCopy_later {w : Work} (hcopy : w.st.cache.copies[p] = some c) (hkey : c.key = key) (hlink : c.link = some r)
    (hlater : (w.st.ctx r.ctx).state ≠ .lookup) :
    w.recallCopy key p = w.upd fun s => s.updCopy p fun c => { c with recalled := true } := by
  rw [recallCopy_held hcopy hkey hlink, if_neg fun hlookup => hlater (beq_iff_eq.1 hlookup)]

theorem recallCopy_lookup {w : Work} {l : Link} (hcopy : w.st.cache.copies[p] = some c) (hkey : c.key = key) (hlink : c.link = some r)
    (hlookup : (w.st.ctx r.ctx).state = .lookup) (hl : (w.st.ctx r.ctx).links[r.index]? = some l) :
    w.recallCopy key p = ({ w with st := withLink w.st r { l with state := .pending, target := none } } : Work).cancelCopy p := by
  rw [recallCopy_held hcopy hkey hlink, if_pos (beq_iff_eq.2 hlookup)]
  unfold Work.upd
  dsimp only
  rw [updLink_withLink hl]

/-- R112: the copy of a later visit is kept, recalled. -/
theorem recall_copyKept (hway : Work.wayOf s key = none) (hwait : s.cache.waitList = []) (hcopy : s.cache.copies[p] = some c)
    (hkey : c.key = key) (hlink : c.link = some r) (hothers : ∀ q : Fin 48, q ≠ p → ∀ d ∈ s.cache.copies[q], d.key ≠ key)
    (hlater : (s.ctx r.ctx).state ≠ .lookup) :
    (recallActs s key).finish.st =
      { s with cache := { s.cache with
        recalls := [⟨key, true, false, false⟩], copies := s.cache.copies.set p (some { c with recalled := true }) } } ∧
    (recallActs s key).finish.touched = [] := by
  have hrecalled : ({ st := withRecalls s [⟨key, true, false, false⟩] } : Work).recallCopy key p =
      { st := { s with cache := { s.cache with
        recalls := [⟨key, true, false, false⟩], copies := s.cache.copies.set p (some { c with recalled := true }) } } } := by
    have hupd : upd s.cache.copies p (Option.map fun c => { c with recalled := true }) =
        s.cache.copies.set p (some { c with recalled := true }) := by
      unfold upd
      rw [hcopy, Option.map_some]
    rw [recallCopy_later (w := { st := withRecalls s [⟨key, true, false, false⟩] }) hcopy hkey hlink hlater, ← hupd]
    rfl
  have hget (q : Fin 48) (hq : q ≠ p) : (s.cache.copies.set p (some { c with recalled := true }))[q] = s.cache.copies[q] :=
    Vector.getElem_set_ne _ _ fun h => hq (Fin.ext h.symm)
  rw [recallActs_copy hway hcopy hkey hlink,
    recallCopies_one (w := { st := withRecalls s [⟨key, true, false, false⟩] }) hothers fun q hq => by rw [hrecalled]; exact hget q hq,
    hrecalled]
  refine finish_waiting ?_ hwait
  intro q hq
  rw [List.mem_singleton.1 hq]
  exact .inr (.inr ⟨p, { c with recalled := true }, by simp, hkey, rfl⟩)

/-- R101, R112: the copy of a visit in LOOKUP is discarded, with its fetch, and the recall ends. -/
theorem recall_copyReturned {l : Link} {u : State} (hway : Work.wayOf s key = none) (hwait : u.cache.waitList = [])
    (hcopy : s.cache.copies[p] = some c) (hkey : c.key = key) (hlink : c.link = some r)
    (hothers : ∀ q : Fin 48, q ≠ p → ∀ d ∈ s.cache.copies[q], d.key ≠ key) (hlookup : (s.ctx r.ctx).state = .lookup)
    (hl : (s.ctx r.ctx).links[r.index]? = some l) (hgone : u.cache.copies = s.cache.copies.set p none)
    (hcancel : ({ st := withLink (withRecalls s [⟨key, true, false, false⟩]) r { l with state := .pending, target := none } } :
      Work).cancelCopy p = { st := withRecalls u [⟨key, true, false, false⟩], retry := true }) :
    (recallActs s key).finish.st = recallEnded u key true ∧ (recallActs s key).finish.touched = [] := by
  have hreturned : ({ st := withRecalls s [⟨key, true, false, false⟩] } : Work).recallCopy key p =
      { st := withRecalls u [⟨key, true, false, false⟩], retry := true } :=
    (recallCopy_lookup (w := { st := withRecalls s [⟨key, true, false, false⟩] }) hcopy hkey hlink hlookup hl).trans hcancel
  have hget (q : Fin 48) (hq : q ≠ p) : (s.cache.copies.set p none)[q] = s.cache.copies[q] :=
    Vector.getElem_set_ne _ _ fun h => hq (Fin.ext h.symm)
  rw [recallActs_copy hway hcopy hkey hlink,
    recallCopies_one (w := { st := withRecalls s [⟨key, true, false, false⟩] }) hothers fun q hq => by
      rw [hreturned]
      exact (congrArg (fun v : Vector (Option PrivateCopy) 48 => v[q]) hgone).trans (hget q hq),
    hreturned]
  refine finish_ended (w := { st := withRecalls u [⟨key, true, false, false⟩], retry := true }) rfl ?_ hwait
  intro q d hd hdkey
  have hd' : d ∈ (s.cache.copies.set p none)[q] := hgone ▸ hd
  by_cases hq : q = p
  · subst hq
    simp at hd'
  · rw [hget q hq] at hd'
    exact absurd hdkey (hothers q hq d hd')

end Copy

/-! ### The lookup of a returned link -/

theorem resolves_none {s : State} {key : Text} (hway : Work.wayOf s key = none) : resolves s key = false := by
  unfold resolves
  rw [hway]

/-- R109, R111: the entry of a recall has lost its key, or is still under recall. -/
theorem recallSettled_marked (n : Nat) (i : Fin 1024) (y : Fin 2) (key : Text) (released : Bool) {e : Entry}
    (hmark : e.mark = .pending) :
    (recallSettled n i y key released e).1 = {} ∨ (recallSettled n i y key released e).1.mark = .pending := by
  unfold recallSettled
  split
  · exact .inr hmark
  · split
    · dsimp only
      split
      · exact .inl rfl
      · exact .inr hmark
    · exact .inl rfl

/-- R111, log entry 41: a key under recall resolves no link. -/
theorem recallTested_unresolved {s : State} {key : Text} {y : Fin 2} {e : Entry} (released : Bool) (hmark : e.mark = .pending)
    (hother : ∀ z, z ≠ y → (s.entry (setIndex key) z).key ≠ some key) :
    resolves (recallTested s (setIndex key) y key released e) key = false := by
  have hentry (z : Fin 2) : (recallTested s (setIndex key) y key released e).entry (setIndex key) z =
      if z = y then (recallSettled (cacheRoom s) (setIndex key) y key released e).1 else s.entry (setIndex key) z := by
    have hupd := entry_upd s (setIndex key) y (fun _ => (recallSettled (cacheRoom s) (setIndex key) y key released e).1)
      (setIndex key) z
    refine hupd.trans ?_
    simp only [Prod.mk.injEq, true_and]
  unfold resolves
  cases hway : Work.wayOf (recallTested s (setIndex key) y key released e) key with
  | none => rfl
  | some z =>
    have hkey := wayOf_key hway
    rw [hentry] at hkey
    dsimp only
    rw [hentry]
    by_cases hz : z = y
    · rw [if_pos hz] at hkey ⊢
      rcases recallSettled_marked (cacheRoom s) (setIndex key) y key released hmark with hempty | hpending
      · rw [hempty] at hkey
        cases hkey
      · rw [hpending]
        simp
    · rw [if_neg hz] at hkey
      exact absurd hkey (hother z hz)

/-! ### The recall as a whole -/

/-- Settles O34, place by place. -/
theorem recallActsOnTheKey : Obligations.RecallActsOnTheKey := by
  unfold Obligations.RecallActsOnTheKey
  intro h key s hready
  refine ⟨fun hform => ?badKey, fun hform hheld => ?outstanding, fun hform hnew hfull => ?denied,
    fun hform hidle => ⟨?nowhere, ?entry, ?copy⟩⟩
  case badKey => exact request_refused hready (recallAnswer_badKey hform)
  case outstanding => exact request_accepted hready (recallAnswer_outstanding (s := heard s h) hform hheld)
  case denied => exact request_accepted hready (recallAnswer_denied (s := heard s h) hform hnew hfull)
  case nowhere =>
    intro hcopies hnone hway
    have hacts := recall_nowhere (s := recallBase s h) hway hidle.1 hcopies
    have hfinds : Work.recallFinds (recallBase s h) key = true ↔ _ := recallFinds_castout (s := recallBase s h) hway hcopies
    refine ⟨fun hcastout => ?_, fun hcastout => ?_⟩
    · rw [Bool.eq_false_iff.2 fun hfound => hcastout (hfinds.1 hfound)] at hacts
      exact exec_recall_plain hready hform hidle (returned_noLookup hnone) hacts
    · rw [hfinds.2 hcastout] at hacts
      exact exec_recall_plain hready hform hidle (returned_noLookup hnone) hacts
  case entry =>
    intro y hway hcopies
    refine ⟨fun hfilling htargets => ⟨fun hunsent => ?_, fun hsent => ?_⟩, fun hvalid hrecord => ⟨fun hnone hfree => ?_,
      fun r l hlookup hl hkey htarget honly hother => ?_⟩⟩
    · exact exec_recall_plain hready hform hidle (returned_filling hfilling htargets)
        (recall_unsent (s := recallBase s h) hway hidle.1 hcopies hfilling hunsent)
    · exact exec_recall_plain hready hform hidle (returned_filling hfilling htargets)
        (recall_sent (s := recallBase s h) hway hidle.1 hcopies hfilling hsent)
    · exact exec_recall_plain hready hform hidle (returned_noLookup hnone)
        (recall_unnamed (s := recallBase s h) hway hidle.1 hcopies hvalid hrecord hfree)
    · have hreturned : Work.returned s key = [r] :=
        returned_one hlookup hl hkey (.inl ⟨_, _, htarget, hvalid⟩) fun j m x hj hx hxkey => honly j m x hj hx (.inl hxkey)
      have hacts := recall_named (s := recallBase s h) hway hidle.1 hcopies hvalid hrecord hlookup hl htarget
        fun j m x hj hx hxtarget => honly j m x hj hx (.inr hxtarget)
      exact exec_recall_again hready hform hidle hreturned hacts (withLink_link (s := recallBase s h) hl _) hkey hidle.1
        (recallTested_unresolved (s := withLink (recallBase s h) r _) true rfl hother)
  case copy =>
    intro p c r hcopy hkey hlink hothers hway
    refine ⟨fun hlater hnone => ?_, fun l hlookup hl hlkey htarget honly => ⟨fun hunfetched => ?_,
      fun i f hslot hfetch hone => ?_⟩⟩
    · exact exec_recall_plain hready hform hidle (returned_noLookup hnone)
        (recall_copyKept (s := recallBase s h) hway hidle.1 hcopy hkey hlink hothers hlater)
    · have hreturned : Work.returned s key = [r] := returned_one hlookup hl hlkey (.inr ⟨p, htarget⟩) honly
      have hacts := recall_copyReturned (s := recallBase s h)
        (u := (withLink (recallBase s h) r { l with state := .pending, target := none }).setCopy p none) hway hidle.1 hcopy hkey
        hlink hothers hlookup hl rfl (cancelCopy_unfetched hunfetched)
      exact exec_recall_again hready hform hidle hreturned hacts (withLink_link (s := recallBase s h) hl _) hlkey hidle.1
        (resolves_none hway)
    · have hreturned : Work.returned s key = [r] := returned_one hlookup hl hlkey (.inr ⟨p, htarget⟩) honly
      have hacts := recall_copyReturned (s := recallBase s h)
        (u := cancelled (withLink (recallBase s h) r { l with state := .pending, target := none }) i p) hway hidle.1 hcopy hkey
        hlink hothers hlookup hl rfl (cancelCopy_fetched hslot hfetch hone)
      exact exec_recall_again hready hform hidle hreturned hacts (withLink_link (s := recallBase s h) hl _) hlkey hidle.1
        (resolves_none hway)

end Sys2Proof.Proofs
end


section
/-! PROOFS. The limits of a window and the classification of an arrival against them (R119, R123 to R125). -/

namespace Sys2Proof.Proofs

open Sys2Proof Sys2Proof.Machine Sys2Proof.Safety Sys2Proof.Laws

/-! ### The limits of a window (R119) -/

theorem openLimit_le_max {w : Window} (hshare : w.openShare ≤ 8) : w.openLimit ≤ w.max :=
  Nat.div_le_of_le_mul (by rw [Nat.mul_comm]; exact Nat.mul_le_mul_right _ hshare)

theorem window_max_le {w : Window} (hcapacity : w.capacity ≤ 255) (hoverbook : w.overbook ≤ 8) : w.max ≤ 510 := by
  have hextra : w.capacity * w.overbook / 8 ≤ w.capacity :=
    Nat.div_le_of_le_mul (by rw [Nat.mul_comm]; exact Nat.mul_le_mul_right _ hoverbook)
  unfold Window.max
  omega

theorem max_of_noCapacity {w : Window} (h : w.capacity = 0) : w.max = 0 := by simp [Window.max, h]

theorem openLimit_of_noCapacity {w : Window} (h : w.capacity = 0) : w.openLimit = 0 := by
  simp [Window.openLimit, max_of_noCapacity h]

theorem openLimit_of_noShare {w : Window} (h : w.openShare = 0) : w.openLimit = 0 := by simp [Window.openLimit, h]

/-! ### A truck against one window (R125) -/

section Window

variable {s : State} {d : BitVec 16} {n m : Nat} {p : DayIx × Fin 96} {result : SlotResult}

theorem classOnTime_open (hplace : s.windowPlace d n = some p) (hopen : (s.windowAt p).isOpen = true) :
    s.classOnTime d n =
      if (s.windowAt p).admitted + (s.windowAt p).reserved < (s.windowAt p).max then (.onTime, some (d, n))
      else (.full, none) := by
  unfold State.classOnTime
  rw [hplace]
  dsimp only
  rw [hopen]
  rfl

theorem classOnTime_closed (hclosed : ∀ p, s.windowPlace d n = some p → (s.windowAt p).isOpen = false) :
    s.classOnTime d n = (.closed, none) := by
  unfold State.classOnTime
  cases hplace : s.windowPlace d n with
  | none => rfl
  | some p =>
    dsimp only
    rw [hclosed p hplace]
    rfl

theorem classOther_open (hplace : s.windowPlace (dayOfMinute m) (windowOfMinute m) = some p)
    (hopen : (s.windowAt p).isOpen = true) :
    s.classOther m result =
      if (s.windowAt p).admitted + (s.windowAt p).reserved < (s.windowAt p).openLimit then
        (result, some (dayOfMinute m, windowOfMinute m))
      else (.missed, none) := by
  unfold State.classOther
  rw [hplace]
  dsimp only
  refine if_congr ?_ rfl rfl
  rw [hopen, Bool.true_and, decide_eq_true_iff]
  rfl

theorem classOther_closed
    (hclosed : ∀ p, s.windowPlace (dayOfMinute m) (windowOfMinute m) = some p → (s.windowAt p).isOpen = false) :
    s.classOther m result = (.missed, none) := by
  unfold State.classOther
  cases hplace : s.windowPlace (dayOfMinute m) (windowOfMinute m) with
  | none => rfl
  | some p =>
    dsimp only
    rw [hclosed p hplace]
    rfl

end Window

/-! ### The slot result of a visit (R123, R124) -/

section Visit

variable {s : State} {c : Ctx} {provisional : Bool} {a : Nat}

theorem classify_unchecked (h : s.slot.clock = none ∨ c.arrival = .unset ∨ provisional = true) :
    s.classify c provisional = (.unchecked, none) := by
  unfold State.classify
  split
  next => rfl
  next => rfl
  next t b hclock harrival =>
    obtain hunset | hnone | hprovisional := h
    · rw [hclock] at hunset; cases hunset
    · rw [harrival] at hnone; cases hnone
    · rw [hprovisional]; rfl

/-- R123: a visit that is checked is judged by the record of its first RESOLVED link. -/
theorem classify_checked (hclock : s.slot.clock.isSome = true) (harrival : c.arrival = .at a) :
    s.classify c false =
      match s.firstRecord c with
      | none => (.none, none)
      | some r =>
          match r.slot with
          | none => s.classOther a .walkIn
          | some (d, w) =>
              if -(s.params.earlyTolerance : Int) ≤ minuteDiff a (absMinute d (15 * w)) ∧
                  minuteDiff a (absMinute d (15 * w)) < 15 + (s.params.lateTolerance : Int) then s.classOnTime d w
              else s.classOther a .reslotted := by
  obtain ⟨t, ht⟩ := Option.isSome_iff_exists.1 hclock
  unfold State.classify
  rw [ht, harrival]
  rfl

end Visit

/-- Settles O39: the arithmetic of the limits, then one equation for each branch of the classification. -/
theorem windowLimitsHold : Obligations.WindowLimitsHold := by
  refine ⟨fun w => ⟨rfl, rfl, fun hcapacity hoverbook hshare => ?limits,
      fun hnone => ⟨max_of_noCapacity hnone, openLimit_of_noCapacity hnone⟩, openLimit_of_noShare⟩,
    fun _ _ _ _ => classOnTime_open,
    fun s c provisional => ⟨classify_unchecked, fun a hclock harrival hchecked =>
      ⟨fun hnone => ?noRecord, fun r hrecord => ⟨fun hslot => ?walkIn, fun d w hslot => ?booked⟩⟩⟩,
    fun _ _ _ => classOnTime_closed, fun _ _ _ => classOther_closed, fun _ _ _ _ => classOther_open⟩
  case limits =>
    have hmax := window_max_le hcapacity hoverbook
    have hopen := openLimit_le_max hshare
    exact ⟨hmax, hopen.trans hmax, hopen⟩
  case noRecord => rw [hchecked, classify_checked hclock harrival, hnone]
  case walkIn => rw [hchecked, classify_checked hclock harrival, hrecord]; dsimp only; rw [hslot]
  case booked => rw [hchecked, classify_checked hclock harrival, hrecord]; dsimp only; rw [hslot]

end Sys2Proof.Proofs
end


section
/-! PROOFS. The terminal clock (R115 to R118, R121, R122, R159): its minute and its midnight, and a TIME_SET. -/

namespace Sys2Proof.Proofs

open Sys2Proof Sys2Proof.Machine Sys2Proof.Safety Sys2Proof.Laws

/-! ### The days of the window table (R118, R121, R122) -/

/-- R118: the table holds the days about `day`, as it does while the clock is RUNNING on that day. -/
def HoldsDays (u : SlotUnit) (day : BitVec 16) : Prop :=
  u.yesterday.day = some (day - 1) ∧ u.today.day = some day ∧ u.tomorrow.day = some (day + 1)

/-- R122: the records that a day takes from a table that holds the days about `day` (log entry 42: the oldest first). -/
theorem kept_eq {u : SlotUnit} {day : BitVec 16} (h : HoldsDays u day) (d : BitVec 16) :
    u.kept d =
      if d = day - 1 then u.yesterday
      else if d = day then u.today
      else if d = day + 1 then u.tomorrow
      else ⟨some d, Vector.replicate 96 {}⟩ := by
  obtain ⟨hyesterday, htoday, htomorrow⟩ := h
  unfold SlotUnit.kept DayTable.fresh
  rw [hyesterday, htoday, htomorrow]
  simp only [Option.some.injEq, eq_comm (b := d)]

/-- R121: what a re-base to the next day makes of the table. -/
theorem kept_midnight {u : SlotUnit} {day : BitVec 16} (h : HoldsDays u day) :
    u.kept (day + 1 - 1) = u.today ∧ u.kept (day + 1) = u.tomorrow ∧
    u.kept (day + 1 + 1) = ⟨some (day + 2), Vector.replicate 96 {}⟩ := by
  refine ⟨?_, ?_, ?_⟩
  · rw [kept_eq h, if_neg (by bv_omega), if_pos (by bv_omega)]
  · rw [kept_eq h, if_neg (by bv_omega), if_neg (by bv_omega), if_pos rfl]
  · rw [kept_eq h, if_neg (by bv_omega), if_neg (by bv_omega), if_neg (by bv_omega), show day + 1 + 1 = day + 2 by bv_omega]

theorem markLost_eq (d : BitVec 16) (c : Ctx) :
    c.markLost (fun x => x = d - 1 || x = d || x = d + 1) = { c with reservation := rebased d c.reservation } := by
  simp only [Ctx.markLost, rebased, Bool.or_eq_true, decide_eq_true_eq, or_assoc]

theorem rebase_ctx (s : State) (d : BitVec 16) (id : CtxId) :
    (s.rebase d).ctx id = { s.ctx id with reservation := rebased d (s.ctx id).reservation } :=
  (mapAll_get s.pool _ id).trans (markLost_eq d (s.ctx id))

/-! ### What a new time changes before it is announced -/

/-- `v` is `s` but for its slot unit and the reservations of its visits. -/
structure SlotMoved (s v : State) : Prop where
  frame : v = { s with slot := v.slot, pool := v.pool }
  ctx : ∀ id, v.ctx id = { s.ctx id with reservation := (v.ctx id).reservation }

theorem setClock_slotMoved (s : State) (c : Clock) : SlotMoved s (s.setClock c) := ⟨rfl, fun _ => rfl⟩

theorem takeDays_slotMoved (s : State) (c : Clock) (d : BitVec 16) : SlotMoved s ((s.setClock c).takeDays d) :=
  ⟨rfl, fun _ => rfl⟩

theorem rebase_slotMoved (s : State) (c : Clock) (d : BitVec 16) : SlotMoved s ((s.setClock c).rebase d) :=
  ⟨rfl, fun id => by rw [rebase_ctx]; rfl⟩

/-- R115, R159: a new time, announced: its expiries, and what it leaves unchanged. -/
theorem SlotMoved.announced {s v : State} (h : SlotMoved s v) (minute : Nat) :
    let t := v.announce minute
    t = { s with pool := t.pool, slot := t.slot, dest := t.dest, uplink := t.uplink } ∧ t.slot = v.slot ∧
    t.dest.defaults = s.dest.defaults ∧ Expires s t minute ∧
    t.uplink = (s.dest.transit.filter (due minute)).foldl (fun u e => classB u (.transitExpired e)) s.uplink ∧
    ∀ id, t.ctx id = { s.ctx id with inTransit := (t.ctx id).inTransit, reservation := (v.ctx id).reservation } := by
  intro t
  obtain ⟨hexpires, huplink, hframe, hdefaults, hctx⟩ := announce_expires v minute
  change Expires v t minute at hexpires
  change t.uplink = _ at huplink
  change t = _ at hframe
  change t.dest.defaults = _ at hdefaults
  have hdest : v.dest = s.dest := by rw [h.frame]
  have hout : v.uplink = s.uplink := by rw [h.frame]
  rw [hdest] at hdefaults huplink
  rw [hout] at huplink
  refine ⟨?frame, by rw [hframe], hdefaults, ?expires, huplink, fun id => ?ctx⟩
  case frame =>
    rw [hframe, h.frame]
  case expires =>
    intro hone
    obtain ⟨htransit, hcounters, hdests, hreferences⟩ := hexpires (hdest ▸ hone)
    rw [hdest] at htransit hcounters
    refine ⟨htransit, hcounters, fun y => ?_, fun id => ?_⟩
    · rw [hdests y, hdest, State.destAt, hdest]
      rfl
    · rw [hreferences id, hdest, h.ctx id]
  case ctx =>
    refine (hctx id).trans ?_
    rw [h.ctx id]

/-! ### A minute of the clock (R115, R121, R159) -/

/-- R115: the minute that follows a minute of the clock. -/
def followingMinute (c : Clock) : Clock := if c.minute < 1439 then ⟨c.day, c.minute + 1, 0⟩ else ⟨c.day + 1, 0, 0⟩

/-- R121: the part once the clock has taken its next minute, with the roll at midnight, before the minute is announced. -/
def minuteTaken (s : State) (c : Clock) : State :=
  if c.minute < 1439 then s.setClock (followingMinute c) else (s.setClock (followingMinute c)).rebase (c.day + 1)

theorem nextMinute_eq (s : State) (c : Clock) :
    s.nextMinute c = (minuteTaken s c).announce (absMinute (followingMinute c).day (followingMinute c).minute) := by
  unfold State.nextMinute minuteTaken followingMinute
  by_cases h : c.minute < 1439
  · simp only [if_pos h]
  · simp only [if_neg h]

theorem minuteTaken_slotMoved (s : State) (c : Clock) : SlotMoved s (minuteTaken s c) := by
  unfold minuteTaken
  split
  · exact setClock_slotMoved s _
  · exact rebase_slotMoved s _ _

theorem minuteTaken_clock (s : State) (c : Clock) :
    (minuteTaken s c).slot.clock = some (followingMinute c) ∧ (minuteTaken s c).slot.counters = s.slot.counters := by
  unfold minuteTaken
  split
  · exact ⟨rfl, rfl⟩
  · exact ⟨rfl, rfl⟩

theorem minuteTaken_sameDay {s : State} {c : Clock} (h : c.minute < 1439) :
    minuteTaken s c = s.setClock (followingMinute c) := if_pos h

theorem minuteTaken_midnight {s : State} {c : Clock} (h : 1439 ≤ c.minute) :
    minuteTaken s c = (s.setClock (followingMinute c)).rebase (c.day + 1) := if_neg (Nat.not_lt.2 h)

/-- R121: the roll at midnight. -/
theorem minuteTaken_rolls {s : State} {c : Clock} (h : 1439 ≤ c.minute) (hdays : HoldsDays s.slot c.day) :
    (minuteTaken s c).slot = { s.slot with
      clock := some (followingMinute c), yesterday := s.slot.today, today := s.slot.tomorrow
      tomorrow := ⟨some (c.day + 2), Vector.replicate 96 {}⟩ } := by
  obtain ⟨hyesterday, htoday, htomorrow⟩ := kept_midnight hdays
  rw [minuteTaken_midnight h, ← hyesterday, ← htoday, ← htomorrow]
  rfl

theorem exec_clockMinute {s : State} (hheld : s.resetHeld = false) :
    (s.slot.clock = none → exec .clockMinute s = .next s) ∧
    ∀ c, s.slot.clock = some c → exec .clockMinute s = .next (s.nextMinute c) := by
  have hruns : exec .clockMinute s = execClockMinute s := rfl
  rw [hruns, execClockMinute, whenRunning_running _ _ hheld]
  exact ⟨fun hclock => by rw [hclock], fun c hclock => by rw [hclock]⟩

/-- R115, log entry 3: a step on an empty queue. -/
theorem step_idle {s : State} (h : s.pending = []) :
    (s.resetHeld = true → step s = .next s) ∧ (s.resetHeld = false → step s = .next s.second) := by
  have hstep : step s = .next (if s.resetHeld then s else s.second) := by unfold step; rw [h]
  exact ⟨fun hheld => by rw [hstep, if_pos hheld], fun hheld => by rw [hstep, if_neg (by simp [hheld])]⟩

theorem second_unset {s : State} (h : s.slot.clock = none) : s.second = s := by
  unfold State.second
  rw [h]

theorem second_running {s : State} {c : Clock} (h : s.slot.clock = some c) :
    s.second = if c.seconds < 59 then s.setClock { c with seconds := c.seconds + 1 } else s.nextMinute c := by
  unfold State.second
  rw [h]

/-- Settles O37: the minute is announced after the clock and the table have moved; an idle step is one second of the clock. -/
theorem clockMinuteRollsTheTable : Obligations.ClockMinuteRollsTheTable := by
  refine ⟨fun s hheld => ⟨(exec_clockMinute hheld).1, fun c hclock => ?minute⟩, fun s hidle => ⟨fun hheld => ?held,
    fun hheld hclock => ?unset, fun c hheld hclock => ⟨fun hbefore => ?second, fun hlast => ?lastSecond⟩⟩⟩
  case minute =>
    obtain ⟨hframe, hslot, hdefaults, hexpires, huplink, hctx⟩ := (minuteTaken_slotMoved s c).announced
      (absMinute (followingMinute c).day (followingMinute c).minute)
    obtain ⟨hnext, hcounters⟩ := minuteTaken_clock s c
    refine ⟨_, ((exec_clockMinute hheld).2 c hclock).trans (congrArg _ (nextMinute_eq s c)), hframe,
      (congrArg _ hslot).trans hnext, (congrArg _ hslot).trans hcounters, hdefaults, hexpires, fun _ => huplink,
      fun id => ?_, fun hday => ⟨?_, fun id => ?_⟩, fun hmidnight hyesterday htoday htomorrow => ⟨?_, fun id => ?_⟩⟩
    · rw [hctx id]
    · rw [hslot, minuteTaken_sameDay hday]; rfl
    · rw [hctx id, minuteTaken_sameDay hday]; rfl
    · exact hslot.trans (minuteTaken_rolls hmidnight ⟨hyesterday, htoday, htomorrow⟩)
    · rw [hctx id, minuteTaken_midnight hmidnight, rebase_ctx]; rfl
  case held => exact (step_idle hidle).1 hheld
  case unset => rw [(step_idle hidle).2 hheld, second_unset hclock]
  case second =>
    rw [(step_idle hidle).2 hheld, second_running hclock, if_pos hbefore]
    rfl
  case lastSecond =>
    rw [(step_idle hidle).2 hheld, second_running hclock, if_neg (Nat.not_lt.2 hlast), (exec_clockMinute hheld).2 c hclock]

/-! ### A TIME_SET (R117, R122) -/

theorem responded_made {t : State} {u : Uplink} {r : Report} (h : t.uplink = made u r) : Responded t r := by
  unfold Responded
  rw [h]
  unfold made
  split
  · exact .inl ⟨_, rfl⟩
  · exact .inr ⟨_, rfl⟩

/-- R117, R118, R122: the part once the clock and its table are set, before the minute is announced. -/
def timePlaced (s : State) (day : BitVec 16) (minute : Nat) : State :=
  match s.slot.clock with
  | none => (s.setClock ⟨day, minute, 0⟩).takeDays day
  | some c => if c.day = day then s.setClock ⟨day, minute, 0⟩ else (s.setClock ⟨day, minute, 0⟩).rebase day

section Placed

variable {s : State} {day : BitVec 16} {minute : Nat}

theorem setTime_eq (s : State) (day : BitVec 16) (minute : Nat) :
    s.setTime day minute = ((timePlaced s day minute).announce (absMinute day minute)).countSlot fun k =>
      { k with clockSets := bump k.clockSets } := rfl

theorem timePlaced_unset (h : s.slot.clock = none) :
    timePlaced s day minute = (s.setClock ⟨day, minute, 0⟩).takeDays day := by
  unfold timePlaced
  rw [h]

theorem timePlaced_sameDay {c : Clock} (h : s.slot.clock = some c) (hday : c.day = day) :
    timePlaced s day minute = s.setClock ⟨day, minute, 0⟩ := by
  unfold timePlaced
  rw [h]
  exact if_pos hday

theorem timePlaced_otherDay {c : Clock} (h : s.slot.clock = some c) (hday : c.day ≠ day) :
    timePlaced s day minute = (s.setClock ⟨day, minute, 0⟩).rebase day := by
  unfold timePlaced
  rw [h]
  exact if_neg hday

/-- R117, R122: the clock's day is unset, stays, or changes, and the table with it. -/
theorem timePlaced_cases (s : State) (day : BitVec 16) (minute : Nat) :
    (s.slot.clock = none ∧ timePlaced s day minute = (s.setClock ⟨day, minute, 0⟩).takeDays day) ∨
    (∃ c, s.slot.clock = some c ∧ c.day = day ∧ timePlaced s day minute = s.setClock ⟨day, minute, 0⟩) ∨
    ∃ c, s.slot.clock = some c ∧ c.day ≠ day ∧ timePlaced s day minute = (s.setClock ⟨day, minute, 0⟩).rebase day := by
  cases hclock : s.slot.clock with
  | none => exact .inl ⟨rfl, timePlaced_unset hclock⟩
  | some c =>
    by_cases hday : c.day = day
    · exact .inr (.inl ⟨c, rfl, hday, timePlaced_sameDay hclock hday⟩)
    · exact .inr (.inr ⟨c, rfl, hday, timePlaced_otherDay hclock hday⟩)

theorem timePlaced_slotMoved (s : State) (day : BitVec 16) (minute : Nat) : SlotMoved s (timePlaced s day minute) := by
  obtain ⟨-, h⟩ | ⟨c, -, -, h⟩ | ⟨c, -, -, h⟩ := timePlaced_cases s day minute
  · exact h ▸ takeDays_slotMoved s _ _
  · exact h ▸ setClock_slotMoved s _
  · exact h ▸ rebase_slotMoved s _ _

theorem timePlaced_clock (s : State) (day : BitVec 16) (minute : Nat) :
    (timePlaced s day minute).slot.clock = some ⟨day, minute, 0⟩ ∧
    (timePlaced s day minute).slot.counters = s.slot.counters := by
  obtain ⟨-, h⟩ | ⟨c, -, -, h⟩ | ⟨c, -, -, h⟩ := timePlaced_cases s day minute <;>
  · rw [h]
    exact ⟨rfl, rfl⟩

/-- R122: a reservation is re-based where a RUNNING clock takes another day, and stays elsewhere. -/
theorem timePlaced_reservation (s : State) (day : BitVec 16) (minute : Nat) (id : CtxId) :
    ((timePlaced s day minute).ctx id).reservation =
      if ∃ c ∈ s.slot.clock, c.day ≠ day then rebased day (s.ctx id).reservation else (s.ctx id).reservation := by
  obtain ⟨hclock, h⟩ | ⟨c, hclock, hday, h⟩ | ⟨c, hclock, hday, h⟩ := timePlaced_cases s day minute
  · rw [h, hclock, if_neg (by simp)]
    rfl
  · rw [h, hclock, if_neg (by simp [hday])]
    rfl
  · rw [h, hclock, if_pos ⟨c, rfl, hday⟩, rebase_ctx]
    rfl

/-- R117: the table set stays through the announcement of its minute; the setting is counted. -/
theorem setTime_slot (s : State) (day : BitVec 16) (minute : Nat) :
    (s.setTime day minute).slot = { (timePlaced s day minute).slot with
      counters := { s.slot.counters with clockSets := bump s.slot.counters.clockSets } } := by
  obtain ⟨-, hslot, -⟩ := (timePlaced_slotMoved s day minute).announced (absMinute day minute)
  rw [setTime_eq, State.countSlot, State.updSlot_slot, hslot, (timePlaced_clock s day minute).2]

end Placed

theorem exec_timeSet {s : State} {h : GateHdr} {day minute : BitVec 16} (hready : Ready s) (hminute : minute.toNat ≤ 1439) :
    exec (.timeSet h day minute) s =
      let t := State.setTime { s with uplink := presence s h } day minute.toNat
      .next { t with uplink := made t.uplink (response h 0x0A (okay false)) } :=
  request_accepted hready (by unfold timeSetAnswer; rw [if_neg (Nat.not_lt.2 hminute)]; rfl)

/-- Settles O38: the minute is announced after the clock and the table are placed, and the answer follows its reports. -/
theorem timeSetPlacesTheClock : Obligations.TimeSetPlacesTheClock := by
  intro h day minute s hready
  refine ⟨fun habove => request_refused hready (if_pos habove), fun hminute => ?_⟩
  let heard : State := { s with uplink := presence s h }
  obtain ⟨hframe, -, hdefaults, hexpires, huplink, hctx⟩ :=
    (timePlaced_slotMoved heard day minute.toNat).announced (absMinute day minute.toNat)
  have hslot := setTime_slot heard day minute.toNat
  have hyesterdayOf := congrArg SlotUnit.yesterday hslot
  have htodayOf := congrArg SlotUnit.today hslot
  have htomorrowOf := congrArg SlotUnit.tomorrow hslot
  refine ⟨_, exec_timeSet hready hminute, responded_made rfl, ?frame,
    (congrArg SlotUnit.clock hslot).trans (timePlaced_clock heard day minute.toNat).1, congrArg SlotUnit.counters hslot,
    hexpires, fun _ => congrArg (made · _) huplink, hdefaults, fun id => ?ctx, fun hunset => ?unset,
    fun c hrunning => ⟨fun hday => ?sameDay, fun hday hyesterday htoday htomorrow => ?otherDay⟩⟩
  case frame =>
    rw [setTime_eq, State.countSlot, hframe]
    rfl
  case ctx =>
    refine (hctx id).trans ?_
    rw [timePlaced_reservation]
    rfl
  case unset =>
    rw [timePlaced_unset (s := heard) hunset] at hyesterdayOf htodayOf htomorrowOf
    exact ⟨hyesterdayOf, htodayOf, htomorrowOf⟩
  case sameDay =>
    rw [timePlaced_sameDay (s := heard) hrunning hday] at hyesterdayOf htodayOf htomorrowOf
    exact ⟨hyesterdayOf, htodayOf, htomorrowOf⟩
  case otherDay =>
    have hdays : HoldsDays s.slot c.day := ⟨hyesterday, htoday, htomorrow⟩
    rw [timePlaced_otherDay (s := heard) hrunning hday] at hyesterdayOf htodayOf htomorrowOf
    exact ⟨hyesterdayOf.trans (kept_eq hdays _), htodayOf.trans (kept_eq hdays _), htomorrowOf.trans (kept_eq hdays _)⟩

end Sys2Proof.Proofs
end


section
/-! PROOFS. The seal result of a position (R131 to R133, R148) and the transform of damage marks to container coordinates
(R140). -/

namespace Sys2Proof.Proofs

open Sys2Proof Sys2Proof.Machine Sys2Proof.Safety Sys2Proof.Laws

/-! ### A value near a declared seal (R132) -/

/-- R132: the confusable pairs, each in one order. -/
def confusablePairs : List (Byte × Byte) :=
  [(0x4F, 0x30), (0x49, 0x31), (0x42, 0x38), (0x53, 0x35), (0x5A, 0x32), (0x47, 0x36)]

theorem confusable_eq (a b : Byte) :
    confusable a b = confusablePairs.any fun p => (a == p.1 && b == p.2) || (a == p.2 && b == p.1) := by
  simp [confusable, confusablePairs, Bool.or_assoc]

theorem confusable_iff (a b : Byte) : confusable a b = true ↔ (a, b) ∈ confusablePairs ∨ (b, a) ∈ confusablePairs := by
  rw [confusable_eq, List.any_eq_true]
  simp only [Bool.or_eq_true, Bool.and_eq_true, beq_iff_eq]
  constructor
  · rintro ⟨⟨x, y⟩, hmem, ⟨rfl, rfl⟩ | ⟨rfl, rfl⟩⟩
    · exact .inl hmem
    · exact .inr hmem
  · rintro (hmem | hmem)
    · exact ⟨_, hmem, .inl ⟨rfl, rfl⟩⟩
    · exact ⟨_, hmem, .inr ⟨rfl, rfl⟩⟩

theorem ne_of_confusable {a b : Byte} (h : confusable a b = true) : a ≠ b := by
  rintro rfl
  have hpairs : ∀ p ∈ confusablePairs, p.1 ≠ p.2 := by simp [confusablePairs]
  obtain h | h := (confusable_iff a a).1 h <;> exact hpairs _ h rfl

/-- The places where a text differs from itself. -/
theorem differing_self (l : Text) : (l.zip l).filter (fun x => x.1 != x.2) = [] := by
  rw [List.zip_eq_zipWith, List.zipWith_self, List.filter_eq_nil_iff]
  simp

/-- Texts of one length are alike at one place but for `x` where they differ in `x` alone. -/
theorem differing_one {v d : Text} {x : Byte × Byte} (hlength : v.length = d.length)
    (hone : (v.zip d).filter (fun x => x.1 != x.2) = [x]) :
    ∃ before after, v = before ++ x.1 :: after ∧ d = before ++ x.2 :: after := by
  obtain ⟨before, after, hzip, hbefore, -, hafter⟩ := List.filter_eq_cons_iff.1 hone
  have halike {l : List (Byte × Byte)} (h : ∀ y ∈ l, ¬ (y.1 != y.2) = true) : l.map Prod.snd = l.map Prod.fst :=
    List.map_congr_left fun y hy => (not_ne_iff.1 (mt bne_iff_ne.2 (h y hy))).symm
  refine ⟨before.map Prod.fst, after.map Prod.fst, ?_, ?_⟩
  · rw [← List.map_fst_zip hlength.le, hzip, List.map_append, List.map_cons]
  · rw [← halike hbefore, ← halike (List.filter_eq_nil_iff.1 hafter), ← List.map_cons, ← List.map_append, ← hzip,
      List.map_snd_zip hlength.ge]

/-- R132: a value is near a seal of the same length that differs from it in one place, by a confusable pair. -/
theorem nearSeal_iff (v d : Text) :
    nearSeal v d = true ↔ ∃ before after a b, v = before ++ a :: after ∧ d = before ++ b :: after ∧
      ((a, b) ∈ confusablePairs ∨ (b, a) ∈ confusablePairs) := by
  unfold nearSeal
  rw [Bool.and_eq_true, beq_iff_eq]
  constructor
  · rintro ⟨hlength, hnear⟩
    split at hnear
    next x hone =>
      obtain ⟨before, after, hv, hd⟩ := differing_one hlength hone
      exact ⟨before, after, x.1, x.2, hv, hd, (confusable_iff _ _).1 hnear⟩
    next => cases hnear
  · rintro ⟨before, after, a, b, rfl, rfl, hpair⟩
    have hconfusable := (confusable_iff a b).2 hpair
    have hone : ((before ++ a :: after).zip (before ++ b :: after)).filter (fun x => x.1 != x.2) = [(a, b)] := by
      rw [List.zip_append rfl, List.filter_append, differing_self, List.nil_append, List.zip_cons_cons,
        List.filter_cons_of_pos (p := fun x => x.1 != x.2) (a := (a, b)) (bne_iff_ne.2 (ne_of_confusable hconfusable)),
        differing_self]
    exact ⟨by simp, by rw [hone]; exact hconfusable⟩

/-! ### The seal result of an EXPORT_FULL booking (R132) -/

theorem exportSeal_declared {declared : List Text} {v : Text} (h : v ∈ declared) : exportSeal declared (some v) = .ok :=
  if_pos (List.contains_iff_mem.2 h)

theorem exportSeal_undeclared {declared : List Text} {v : Text} (h : v ∉ declared) :
    exportSeal declared (some v) = if declared.any (nearSeal v) then .near else .mismatch :=
  if_neg fun hmem => h (List.contains_iff_mem.1 hmem)

theorem exportSeal_unread (declared : List Text) : exportSeal declared none = if declared = [] then .ok else .missing :=
  if_congr List.isEmpty_iff rfl rfl

/-! ### The seal check of a position (R131, R133) -/

theorem sealOf_recorded {s : State} {c : Ctx} {pos : Position} {r : Record} (h : s.positionRecord c pos = some r) :
    s.sealOf c pos =
      let v := (c.field (sealField pos)).readValue
      if r.kind = .exportFull then some ⟨exportSeal r.seals v, v⟩
      else if r.kind = .emptyReturn then some ⟨returnSeal v, v⟩ else none := by
  unfold State.sealOf
  rw [h]
  cases hkind : r.kind <;> simp [hkind]

theorem sealOf_unrecorded {s : State} {c : Ctx} {pos : Position} (h : s.positionRecord c pos = none) :
    s.sealOf c pos = none := by
  unfold State.sealOf
  rw [h]

/-- Settles O40: the value read against the declared seals, then the booking kinds, then the counts by result. -/
theorem exportSealsAreCompared : Obligations.ExportSealsAreCompared := by
  unfold Obligations.ExportSealsAreCompared
  intro pairs near
  refine ⟨fun declared v => ⟨exportSeal_declared, fun hnew hnear => ?near, fun hnew hfar => ?mismatch,
      fun hnone => ?ok, fun hsome => ?missing⟩,
    fun s c pos r hrecord hkind => ?full, fun s c pos => ⟨sealOf_unrecorded, fun r hrecord =>
      ⟨fun hkind => ?emptyReturn, fun hkind => ?others⟩⟩,
    fun n v => ⟨rfl, rfl, rfl, rfl, rfl, rfl, rfl⟩, fun k hread => ?reason, fun n v => rfl⟩
  case near =>
    obtain ⟨d, hd, hdnear⟩ := hnear
    rw [exportSeal_undeclared hnew, if_pos (List.any_eq_true.2 ⟨d, hd, (nearSeal_iff v d).2 hdnear⟩)]
  case mismatch =>
    refine (exportSeal_undeclared hnew).trans (if_neg fun hany => ?_)
    obtain ⟨d, hd, hdnear⟩ := List.any_eq_true.1 hany
    exact hfar d hd ((nearSeal_iff v d).1 hdnear)
  case ok => exact (exportSeal_unread declared).trans (if_pos hnone)
  case missing => exact (exportSeal_unread declared).trans (if_neg hsome)
  case full => rw [sealOf_recorded hrecord]; exact if_pos hkind
  case emptyReturn => rw [sealOf_recorded hrecord, hkind]; rfl
  case others =>
    rw [sealOf_recorded hrecord]
    obtain hkind | hkind := hkind <;> (rw [hkind]; rfl)
  case reason =>
    obtain ⟨result, value⟩ := k
    cases result with
    | unexpected => exact absurd rfl hread
    | ok | near | missing | mismatch => simp [sealFails]

/-! ### The transform to container coordinates (R140) -/

/-- R140: whether the transform of a lane face turns its columns about, by the door end. -/
def turnsColumns (fore : Bool) : LaneFace → Bool
  | .laneLeft | .laneRight | .top => !fore
  | .frontEnd | .rearEnd => fore

/-- R140: whether the transform of a lane face turns its rows about, by the door end. -/
def turnsRows (fore : Bool) : LaneFace → Bool
  | .top => fore
  | .laneLeft | .laneRight | .frontEnd | .rearEnd => false

/-- An index along one side of a grid, turned about or kept. -/
def turnedAbout (turns : Bool) (last i : Nat) : Nat := if turns then last - i else i

theorem turnedAbout_injective {turns : Bool} {last i j : Nat} (hi : i ≤ last) (hj : j ≤ last)
    (h : turnedAbout turns last i = turnedAbout turns last j) : i = j := by
  cases turns with
  | false => exact h
  | true => exact (tsub_right_inj hi hj).1 h

theorem transform_place (n : Nat) (fore : Bool) (m : RawMark) :
    (transform n fore m).column = turnedAbout (turnsColumns fore m.face) (lastColumn n m.face) m.column ∧
    (transform n fore m).row = turnedAbout (turnsRows fore m.face) 2 m.row := by
  unfold transform
  cases fore <;> cases m.face <;> exact ⟨rfl, rfl⟩

/-- Settles O41: the tables by face; on one face each coordinate is kept or turned about, so no two places meet. -/
theorem transformIsOneToOne : Obligations.TransformIsOneToOne := by
  refine ⟨fun n m => ⟨?aft, ?fore⟩, fun c r => ⟨rfl, ?noLayout⟩, fun c fore a b hface => ?oneToOne⟩
  case aft => unfold transform; cases m.face <;> rfl
  case fore => unfold transform; cases m.face <;> rfl
  case noLayout => cases r <;> rfl
  case oneToOne =>
    intro n within ha hb hplaces hmeet
    obtain ⟨harow, hacolumn⟩ : a.row ≤ 2 ∧ a.column ≤ lastColumn n a.face := ha
    obtain ⟨hbrow, hbcolumn⟩ : b.row ≤ 2 ∧ b.column ≤ lastColumn n b.face := hb
    obtain ⟨hcolumns, hrows⟩ := Prod.mk.inj hmeet
    obtain ⟨hacol, har⟩ := transform_place n fore a
    obtain ⟨hbcol, hbr⟩ := transform_place n fore b
    rw [hacol, hbcol, hface] at hcolumns
    rw [har, hbr, hface] at hrows
    have hcolumn := turnedAbout_injective (hface ▸ hacolumn) hbcolumn hcolumns
    exact hplaces (Prod.ext hcolumn (turnedAbout_injective harow hbrow hrows))

end Sys2Proof.Proofs
end


section
/-! PROOFS. Damage marks: the raw mark list of a position (R136), the container marks, their cost and the grade (R139 to R145),
and a DAMAGE_MARKS that attaches to a visit (R50, R135). -/

namespace Sys2Proof.Proofs

open Sys2Proof Sys2Proof.Machine Sys2Proof.Safety Sys2Proof.Laws

/-! ### A mark that joins a list (R136, R141) -/

/-- A map that changes the elements of a kind changes only the one of that kind. -/
theorem map_onlyOne {α : Type} {p : α → Bool} {g : α → α} {before after : List α} {x : α} (hx : p x = true)
    (hothers : ∀ y ∈ before ++ after, p y = false) :
    (before ++ x :: after).map (fun y => if p y then g y else y) = before ++ g x :: after := by
  have hkept (l : List α) (hl : ∀ y ∈ l, p y = false) : l.map (fun y => if p y then g y else y) = l :=
    (List.map_congr_left fun y hy => if_neg (Bool.eq_false_iff.1 (hl y hy))).trans (List.map_id' l)
  rw [List.map_append, List.map_cons, if_pos hx, hkept before fun y hy => hothers y (List.mem_append_left _ hy),
    hkept after fun y hy => hothers y (List.mem_append_right _ hy)]

theorem eq_of_samePlace {m x : RawMark} (h : samePlace m x = true) : x = { m with severity := x.severity } := by
  unfold samePlace at h
  simp only [Bool.and_eq_true, beq_iff_eq] at h
  obtain ⟨⟨⟨hface, hcolumn⟩, hrow⟩, hkind⟩ := h
  rw [hface, hcolumn, hrow, hkind]

/-- R136: a mark of the same place with the higher severity replaces the mark held. -/
theorem raised_eq (m x : RawMark) :
    (if samePlace m x && decide (x.severity < m.severity) then m else x) =
      if samePlace m x then { x with severity := max x.severity m.severity } else x := by
  by_cases hplace : samePlace m x = true
  · rw [hplace, Bool.true_and, if_pos rfl, eq_of_samePlace hplace]
    by_cases hhigher : x.severity < m.severity
    · rw [if_pos (decide_eq_true hhigher), max_eq_right hhigher.le]
    · rw [if_neg (by simpa using hhigher), max_eq_left (Nat.not_lt.1 hhigher)]
  · rw [Bool.eq_false_iff.2 hplace]
    rfl

theorem add_held {l : RawList} {m x : RawMark} {before after : List RawMark} (hmarks : l.marks = before ++ x :: after)
    (hplace : samePlace m x = true) (hothers : ∀ y ∈ before ++ after, samePlace m y = false) :
    l.add m = ({ l with marks := before ++ { x with severity := max x.severity m.severity } :: after }, false) := by
  have hany : l.marks.any (samePlace m) = true := List.any_eq_true.2 ⟨x, by simp [hmarks], hplace⟩
  unfold RawList.add
  rw [if_pos hany, List.map_congr_left fun x _ => raised_eq m x, hmarks, map_onlyOne hplace hothers]

theorem add_new {l : RawList} {m : RawMark} (hnew : ∀ y ∈ l.marks, samePlace m y = false) :
    l.add m = if l.marks.length < 24 then ({ l with marks := l.marks ++ [m] }, false) else ({ l with overflow := true }, true) :=
  if_neg (by simpa using hnew)

theorem mergeMark_new {list : List Mark} {k : Mark} (hnew : ∀ y ∈ list, sameSpot k y = false) :
    mergeMark list k = list ++ [k] := if_neg (by simpa using hnew)

theorem mergeMark_held {before after : List Mark} {x k : Mark} (hspot : sameSpot k x = true)
    (hothers : ∀ y ∈ before ++ after, sameSpot k y = false) :
    mergeMark (before ++ x :: after) k = before ++ { x with severity := max x.severity k.severity } :: after := by
  have hany : (before ++ x :: after).any (sameSpot k) = true := List.any_eq_true.2 ⟨x, by simp, hspot⟩
  unfold mergeMark
  rw [if_pos hany, map_onlyOne (g := fun x => { x with severity := max x.severity k.severity }) hspot hothers]

/-! ### The container marks of a raw list (R139 to R141) -/

theorem containerMarks_append (g : Geometry) (l : List RawMark) (m : RawMark) :
    containerMarks g (l ++ [m]) =
      mergeMark (containerMarks g l) (transform g.columns g.fore (limitMark g.columns m)) := by
  unfold containerMarks
  rw [List.map_append, List.foldl_append]
  rfl

/-! ### The cost of a mark and the grade (R143 to R145) -/

theorem matchesPrior_iff (m p : Mark) :
    matchesPrior m p = true ↔
      p.face = m.face ∧ p.kind = m.kind ∧ p.row = m.row ∧ p.column ≤ m.column + 1 ∧ m.column ≤ p.column + 1 := by
  simp [matchesPrior, and_assoc]

/-- R143: the highest severity is the greatest of those of the matching prior marks. -/
theorem priorSeverity_eq (prior : List Mark) (m : Mark) :
    priorSeverity prior m = ((prior.filter (matchesPrior m)).map (·.severity)).max? := by
  unfold priorSeverity
  cases prior.filter (matchesPrior m) with
  | nil => rfl
  | cons q qs =>
    rw [List.map_cons, List.max?_cons', List.foldl_map]
    exact List.foldl_hom some (g₁ := fun x (p : Mark) => max x p.severity) fun _ _ => rfl

theorem priorSeverity_none {prior : List Mark} {m : Mark} (h : ∀ p ∈ prior, ¬ matchesPrior m p = true) :
    priorSeverity prior m = none := by
  rw [priorSeverity_eq, List.filter_eq_nil_iff.2 h]
  rfl

theorem priorSeverity_best {prior : List Mark} {m p : Mark} (hp : p ∈ prior) (hmatch : matchesPrior m p = true)
    (hbest : ∀ q ∈ prior, matchesPrior m q = true → q.severity ≤ p.severity) :
    priorSeverity prior m = some p.severity := by
  rw [priorSeverity_eq, List.max?_eq_some_iff]
  refine ⟨List.mem_map_of_mem (List.mem_filter.2 ⟨hp, hmatch⟩), fun b hb => ?_⟩
  obtain ⟨q, hq, rfl⟩ := List.mem_map.1 hb
  obtain ⟨hmem, hqmatch⟩ := List.mem_filter.1 hq
  exact hbest q hmem hqmatch

theorem markCost_unmatched {prior : List Mark} {m : Mark} (h : priorSeverity prior m = none) :
    markCost prior m = some m.severity := by
  unfold markCost
  rw [h]

theorem markCost_matched {prior : List Mark} {m : Mark} {p : Nat} (h : priorSeverity prior m = some p) :
    markCost prior m = if m.severity ≤ p + 1 then none else some (m.severity - p) := by
  unfold markCost
  rw [h]

theorem gradeOf_append (w : Vector Nat 5) (prior marks : List Mark) (m : Mark) :
    gradeOf w prior (marks ++ [m]) = addCost w prior (gradeOf w prior marks) m := by
  unfold gradeOf
  rw [List.foldl_append]
  rfl

/-- R144: the weight of each kind of damage. -/
theorem weight_kindIx (w : Vector Nat 5) (kind : DamageKind) :
    w[kindIx kind] = match kind with | .dent => w[0] | .hole => w[1] | .crease => w[2] | .bulge => w[3] | .rust => w[4] := by
  cases kind <;> rfl

theorem judgeDamage_eq (p : Params) (grade : Nat) (overflow provisional : Bool) (fresh : List Mark) :
    judgeDamage p grade overflow provisional fresh =
      { result :=
          if p.inspectThreshold ≤ grade ∨ overflow = true then .inspect
          else if p.recordThreshold ≤ grade then .recorded else .minor
        grade := grade
        toAppend := if p.recordThreshold ≤ grade ∧ provisional = false then fresh else [] } := by
  simp only [judgeDamage, Bool.or_eq_true, Bool.and_eq_true, Bool.not_eq_true', decide_eq_true_eq]

/-! ### The marks of a frame taken into a context (R135, R136) -/

theorem perPos_get_put {α : Type} (p : PerPos α) (pos : Position) (x : α) : (p.put pos x).get pos = x := by cases pos <;> rfl

theorem perPos_put_put {α : Type} (p : PerPos α) (pos : Position) (x y : α) : (p.put pos x).put pos y = p.put pos y := by
  cases pos <;> rfl

theorem perPos_put_get {α : Type} (p : PerPos α) (pos : Position) : p.put pos (p.get pos) = p := by cases pos <;> rfl

/-- R135, R148: the counters of the check unit once the marks of a frame have been taken into a raw mark list. -/
def marksCounted (k : CheckCounters) (l : RawList) (ms : List RawMark) : CheckCounters :=
  { k with
    marksIgnored := bumpBy k.marksIgnored (ms.filter (·.severity = 0)).length
    overflows := bumpBy k.overflows (dropped l ms) }

theorem marksCounted_cons (k : CheckCounters) (l : RawList) (m : RawMark) (ms : List RawMark) :
    marksCounted (marksCounted k l [m]) (takenMark l m) ms = marksCounted k l (m :: ms) := by
  unfold marksCounted
  dsimp only [dropped]
  rw [bumpBy_bumpBy, bumpBy_bumpBy, ← List.length_append, ← List.filter_append, Nat.add_zero]
  rfl

theorem takeMark_put (s : State) (id : CtxId) (c : Ctx) (k : CheckCounters) (pos : Position) (m : RawMark) :
    State.takeMark id pos (put s id c k) m =
      put s id { c with raw := c.raw.put pos (takenMark (c.raw.get pos) m) } (marksCounted k (c.raw.get pos) [m]) := by
  unfold State.takeMark takenMark marksCounted dropped
  by_cases hnone : m.severity = 0
  · simp [hnone, put_count, perPos_put_get, bumpBy, dropped]
  · by_cases hfull : ((c.raw.get pos).add { m with severity := min m.severity 7 }).2 = true
    · simp [hnone, hfull, put_ctx, put_upd, put_count, bumpBy, dropped]
    · simp [hnone, hfull, put_ctx, put_upd, bumpBy, dropped]

theorem takeMarks_put (s : State) (id : CtxId) (pos : Position) (ms : List RawMark) (c : Ctx) (k : CheckCounters) :
    (put s id c k).takeMarks id pos ms =
      put s id { c with raw := c.raw.put pos (ms.foldl takenMark (c.raw.get pos)) } (marksCounted k (c.raw.get pos) ms) := by
  induction ms generalizing c k with
  | nil => rw [List.foldl_nil, perPos_put_get]; rfl
  | cons m ms ih =>
    unfold State.takeMarks at ih ⊢
    rw [List.foldl_cons, takeMark_put, ih, List.foldl_cons]
    dsimp only
    rw [perPos_get_put, perPos_put_put, marksCounted_cons]

theorem put_self (s : State) (id : CtxId) : put s id (s.ctx id) s.check.counters = s := by
  unfold put State.ctx
  simp

/-- R135: the marks of a frame change the raw mark list of one position of one context, and the check unit's counters. -/
theorem takeMarks_eq (s : State) (id : CtxId) (pos : Position) (ms : List RawMark) :
    s.takeMarks id pos ms =
      put s id { s.ctx id with raw := (s.ctx id).raw.put pos (ms.foldl takenMark ((s.ctx id).raw.get pos)) }
        (marksCounted s.check.counters ((s.ctx id).raw.get pos) ms) := by
  have h := takeMarks_put s id pos ms (s.ctx id) s.check.counters
  rwa [put_self] at h

/-! ### A frame attached to a visit that still waits (R48 to R51) -/

theorem identifyTest_waits {s : State} {id : CtxId} (h : Waits (s.ctx id)) : s.identifyTest id = s :=
  if_neg fun ⟨hstate, hidentified⟩ => by simp [h hstate] at hidentified

theorem heardEntry_zone (s : State) (seg : Seg) (f : RxFrame) : (heardEntry s seg f).zone = (sender s seg f).zone := by
  rw [heardEntry_eq]

theorem takeAttached_frameTaken {s : State} {seg : Seg} {f : RxFrame} {id : CtxId}
    (hattach : s.attach (sender s seg f).lane (sender s seg f).zone = some id) (act : State → CtxId → State) :
    (frameTaken s seg f).takeAttached seg f.src (heardEntry s seg f) f.msg act =
      (act (frameTaken s seg f) id).identifyTest id := by
  have hsame : (frameTaken s seg f).attach (heardEntry s seg f).lane (heardEntry s seg f).zone = some id := by
    rw [heardEntry_lane, heardEntry_zone]
    exact hattach
  unfold State.takeAttached
  rw [hsame]

/-- R3, R19, R173: a frame consumed that leaves the links as they are when it is heard: they are as `LinkOnly` says, and the rest
is what its consumer makes of it. -/
theorem takeFrame_consumes {s v : State} {seg : Seg} {f : RxFrame} {rest : List RxFrame} {consume : State → Taken → State}
    (hconsumed : Consumed s seg f rest) (hkind : f.msg.kind ≠ .hello)
    (hconsume : consume (frameTaken s seg f) (takenFrame s seg f) = v)
    (hports : v.ports = (frameTaken s seg f).ports) (hstations : v.stations = (frameTaken s seg f).stations)
    (hparams : v.params = s.params) :
    let t := s.takeFrame seg f.msg.kind consume
    LinkOnly s t seg f ∧ t = { v with ports := t.ports, stations := t.stations } := by
  have hv : v = { v with ports := (frameTaken s seg f).ports, stations := (frameTaken s seg f).stations } := by
    rw [← hports, ← hstations]
  have hlink : linkOf v seg f.src = (takenPort s seg f, heardEntry s seg f) := by
    rw [hv]
    exact linkOf_placed s seg f.src _
  have htake : s.takeFrame seg f.msg.kind consume =
      placed v seg f.src (hearing s.params.signAck f.src (takenPort s seg f, heardEntry s seg f)) := by
    rw [takeFrame_consumed s seg f rest consume hconsumed hkind, ← hlink, ← hparams, ← signHearing_eq]
    exact congrArg (State.signHearing · _) hconsume
  have hport (g : Seg) : v.port g = (placed s seg f.src (takenPort s seg f, heardEntry s seg f)).port g := by
    unfold State.port
    rw [hports]
    rfl
  have hstation (j : StationIx) : v.station j = (placed s seg f.src (takenPort s seg f, heardEntry s seg f)).station j := by
    unfold State.station
    rw [hstations]
    rfl
  intro t
  rw [show t = _ from htake]
  refine ⟨⟨fun g hg => ?_, fun j hj => ?_, linkOf_placed v seg f.src _⟩, rfl⟩
  · rw [placed_port, if_neg hg, hport, placed_port, if_neg hg]
  · rw [placed_station, if_neg hj, hstation, placed_station, if_neg hj]

/-! ### A DAMAGE_MARKS (R50, R135) -/

section Frame

variable {s : State} {seg : Seg} {f : RxFrame} {rest : List RxFrame} {id : CtxId} {pos : Position} {ms : List RawMark}

theorem damageTaken_attached (hmsg : f.msg = .damageMarks pos ms)
    (hattach : s.attach (sender s seg f).lane (sender s seg f).zone = some id) :
    State.damageTaken (frameTaken s seg f) (takenFrame s seg f) =
      (State.damageRead pos ms (frameTaken s seg f) id).identifyTest id := by
  rw [← takeAttached_frameTaken hattach]
  unfold State.damageTaken takenFrame
  dsimp only
  rw [hmsg]

theorem exec_damageMarks {v : State} (hconsumed : Consumed s seg f rest) (hmsg : f.msg = .damageMarks pos ms)
    (hattach : s.attach (sender s seg f).lane (sender s seg f).zone = some id)
    (hread : State.damageRead pos ms (frameTaken s seg f) id = v) (hwaits : Waits (v.ctx id))
    (hports : v.ports = (frameTaken s seg f).ports) (hstations : v.stations = (frameTaken s seg f).stations)
    (hparams : v.params = s.params) :
    ∃ t, exec (.damageMarks seg) s = .next t ∧ LinkOnly s t seg f ∧
      t = { v with ports := t.ports, stations := t.stations } := by
  have hkind : f.msg.kind = .damageMarks := by rw [hmsg]; rfl
  have hconsume : State.damageTaken (frameTaken s seg f) (takenFrame s seg f) = v := by
    rw [damageTaken_attached hmsg hattach, hread, identifyTest_waits hwaits]
  have hexec := exec_atHead hconsumed.1
  rw [hkind] at hexec
  have htaken := takeFrame_consumes hconsumed (by rw [hkind]; decide) hconsume hports hstations hparams
  rw [hkind] at htaken
  exact ⟨_, hexec, htaken⟩

theorem damageRead_early (h : (s.ctx id).state.beforeDecision = true) :
    State.damageRead pos ms (frameTaken s seg f) id = (frameTaken s seg f).takeMarks id pos ms := if_pos h

theorem damageRead_late (h : (s.ctx id).state.beforeDecision = false) :
    State.damageRead pos ms (frameTaken s seg f) id = (frameTaken s seg f).lateFrame (s.ctx id).lane :=
  if_neg (Bool.eq_false_iff.1 h)

end Frame

/-- Settles O16: the raw mark list, the container marks, the cost and the grade each by its own rule; then the frame, early or
late. -/
theorem damageMarksJoinTheRawList : Obligations.DamageMarksJoinTheRawList := by
  refine ⟨fun l m => ⟨fun before after x => add_held, fun hnew hroom => ?joins, fun hnew hfull => ?drops⟩,
    fun g l m before after x k list => ⟨rfl, containerMarks_append g l m, ?limited, mergeMark_new, mergeMark_held⟩,
    fun w prior marks m => ?graded, judgeDamage_eq, fun seg s f rest id pos ms hconsumed hmsg hattach hwaits => ?frame⟩
  case joins => rw [add_new hnew, if_pos hroom]
  case drops => rw [add_new hnew, if_neg (Nat.not_lt.2 hfull)]
  case limited =>
    unfold limitMark
    cases m.face <;> rfl
  case graded =>
    intro matched
    have hmatched (p : Mark) : matched p ↔ p ∈ prior ∧ matchesPrior m p = true :=
      and_congr_right' (matchesPrior_iff m p).symm
    refine ⟨fun hnone => ?new, fun p hp hbest => ?prior, rfl, ?sum⟩
    case new =>
      exact markCost_unmatched (priorSeverity_none fun p hp hmatch => hnone p ((hmatched p).2 ⟨hp, hmatch⟩))
    case prior =>
      obtain ⟨hmem, hmatch⟩ := (hmatched p).1 hp
      exact markCost_matched (priorSeverity_best hmem hmatch fun q hq hqmatch => hbest q ((hmatched q).2 ⟨hq, hqmatch⟩))
    case sum =>
      rw [gradeOf_append, addCost]
      cases markCost prior m with
      | none => rfl
      | some k => exact congrArg (fun weight => min (gradeOf w prior marks + weight * k) 255) (weight_kindIx w m.kind)
  case frame =>
    refine ⟨fun hbefore => ?early, fun hafter => ?late⟩
    case early =>
      refine exec_damageMarks hconsumed hmsg hattach ((damageRead_early hbefore).trans (takeMarks_eq _ id pos ms)) ?_ rfl rfl rfl
      rw [put_ctx]
      exact hwaits
    case late => exact exec_damageMarks hconsumed hmsg hattach (damageRead_late hafter) hwaits rfl rfl rfl

end Sys2Proof.Proofs
end

section
/-! PROOFS. R153, R158, R161: the transit list holds one entry a visit and at most 256, and each destination counts the entries that
name it. Only the destination unit moves a token: it gives one with an entry, and frees one with each entry that it removes. -/
namespace Sys2Proof.Proofs

open Sys2Proof Sys2Proof.Machine Sys2Proof.Safety Sys2Proof.Laws
open PortInvariant (keeps_ite keeps_works)

/-- R153, R158, R161: `TransitCounted` as a structure, so that no proof about an operation opens it. -/
structure TokensCounted (s : State) : Prop where
  nodup : (s.dest.transit.map (·.visit)).Nodup
  length_le : s.dest.transit.length ≤ 256
  count : ∀ d : Fin 64, (s.destAt d).inTransit = (s.dest.transit.filter (·.dest == d)).length

theorem tokensCounted_iff (s : State) : TokensCounted s ↔ TransitCounted s :=
  ⟨fun h => ⟨h.nodup, h.length_le, h.count⟩, fun ⟨hnodup, hlength, hcount⟩ => ⟨hnodup, hlength, hcount⟩⟩

/-- R153, R158: the list and the in-transit counts are all that matters. -/
theorem tokens_of_counts {s t : State} (h : TokensCounted s) (htransit : t.dest.transit = s.dest.transit)
    (hcount : ∀ d, (t.destAt d).inTransit = (s.destAt d).inTransit) : TokensCounted t where
  nodup := htransit ▸ h.nodup
  length_le := htransit ▸ h.length_le
  count d := by rw [hcount, htransit, h.count]

theorem tokens_same {s t : State} (h : TokensCounted s) (hdest : t.dest = s.dest) : TokensCounted t :=
  tokens_of_counts h (by rw [hdest]) fun d => by unfold State.destAt; rw [hdest]

theorem tokens_updCtx {s : State} (h : TokensCounted s) (id : CtxId) (f : Ctx → Ctx) : TokensCounted (s.updCtx id f) :=
  tokens_same h rfl

theorem tokens_countDest {s : State} (h : TokensCounted s) (f : DestCounters → DestCounters) :
    TokensCounted (s.countDest f) := tokens_of_counts h rfl fun _ => rfl

/-! ### Entries removed and entries added -/

/-- R159 to R161, R166: the entries outside `p` leave the list, and each frees its token. -/
theorem tokens_of_filter {s t : State} (h : TokensCounted s) (p : TransitEntry → Bool)
    (htransit : t.dest.transit = s.dest.transit.filter p)
    (hfreed : ∀ d, (t.destAt d).inTransit =
      (s.destAt d).inTransit - (s.dest.transit.filter fun e => !p e && e.dest == d).length) : TokensCounted t where
  nodup := htransit ▸ h.nodup.sublist (List.filter_sublist.map _)
  length_le := htransit ▸ (List.length_filter_le _ _).trans h.length_le
  count d := by
    have hsplit := List.countP_eq_countP_filter_add s.dest.transit (·.dest == d) p
    have hgone : (s.dest.transit.filter fun e => !p e && e.dest == d).length =
        ((s.dest.transit.filter fun e => !p e).filter (·.dest == d)).length := by
      rw [List.filter_filter]
      simp only [Bool.and_comm]
    simp only [List.countP_eq_length_filter] at hsplit
    rw [hfreed, h.count, hgone, htransit, hsplit, Nat.add_sub_cancel]

/-- R158: of the entries with the visit of one entry, that entry alone. -/
theorem sameVisit_length {l : List TransitEntry} (hnodup : (l.map (·.visit)).Nodup) {e : TransitEntry} (he : e ∈ l)
    (d : Fin 64) :
    (l.filter fun x => !(x.visit != e.visit) && x.dest == d).length = if d = e.dest then 1 else 0 := by
  have hsame : ∀ x ∈ l, (!(x.visit != e.visit) && x.dest == d) = (x == e && e.dest == d) := by
    intro x hx
    by_cases hxe : x = e
    · rw [hxe]
      simp
    · have hvisit : x.visit ≠ e.visit := fun hv => hxe (List.inj_on_of_nodup_map hnodup hx he hv)
      have hone : (x == e) = false := by simpa using hxe
      have hnot : (x.visit != e.visit) = true := by simpa using hvisit
      rw [hone, hnot]
      rfl
  rw [List.filter_congr hsame]
  by_cases hd : d = e.dest
  · have hone := List.count_eq_one_of_mem (List.Nodup.of_map _ hnodup) he
    rw [List.count, List.countP_eq_length_filter] at hone
    simp [hd, hone]
  · have hne : (e.dest == d) = false := by simpa using Ne.symm hd
    simp [hd, hne]

theorem tokens_removeTransit {s : State} (h : TokensCounted s) {e : TransitEntry} (he : e ∈ s.dest.transit) :
    TokensCounted (s.removeTransit e) := by
  refine tokens_of_filter h (·.visit != e.visit) rfl fun d => ?_
  have hdest : (s.removeTransit e).destAt d =
      if d = e.dest then { s.destAt e.dest with inTransit := (s.destAt e.dest).inTransit - 1 } else s.destAt d :=
    upd_get _ _ _ _
  rw [hdest, sameVisit_length h.nodup he]
  split
  next hd => rw [hd]
  next => rfl

theorem displace_transit (s : State) (e : TransitEntry) :
    (s.displace e).dest.transit = s.dest.transit.filter (·.visit != e.visit) := by
  unfold State.displace
  rw [offerB_eq]
  rfl

theorem tokens_displace {s : State} (h : TokensCounted s) {e : TransitEntry} (he : e ∈ s.dest.transit) :
    TokensCounted (s.displace e) := by
  unfold State.displace
  exact tokens_countDest (tokens_same (tokens_removeTransit h he) (by simp)) _

theorem transitOf_some {s : State} {visit : BitVec 16} {e : TransitEntry} (h : s.transitOf visit = some e) :
    e ∈ s.dest.transit ∧ e.visit = visit :=
  ⟨List.mem_of_find?_eq_some h, by simpa using List.find?_some h⟩

theorem transitOf_none {s : State} {visit : BitVec 16} : s.transitOf visit = none ↔ ∀ e ∈ s.dest.transit, e.visit ≠ visit := by
  simp [State.transitOf, List.find?_eq_none]

/-- R157, R158: an entry for a visit without one joins a list with room, and takes its token. -/
theorem tokens_add {s t : State} (h : TokensCounted s) {visit : BitVec 16} {x : Fin 64} {expiry : Option Nat}
    (hnone : ∀ e ∈ s.dest.transit, e.visit ≠ visit) (hroom : s.dest.transit.length < 256)
    (htransit : t.dest.transit = s.dest.transit ++ [⟨visit, x, expiry⟩])
    (htaken : ∀ d, (t.destAt d).inTransit = if d = x then (s.destAt d).inTransit + 1 else (s.destAt d).inTransit) :
    TokensCounted t where
  nodup := by
    rw [htransit, List.map_append, List.nodup_append]
    refine ⟨h.nodup, List.nodup_singleton _, fun v hv w hw heq => ?_⟩
    obtain ⟨e, he, rfl⟩ := List.mem_map.1 hv
    exact hnone e he (heq.trans (List.mem_singleton.1 hw))
  length_le := by
    rw [htransit, List.length_append]
    exact hroom
  count d := by
    rw [htaken, htransit, List.filter_append, List.length_append, h.count]
    by_cases hd : d = x
    · simp [hd]
    · simp [hd, Ne.symm hd]

/-- R161: the entry of a visit that takes a token displaces the one it had. -/
def ownDisplaced (s : State) (visit : BitVec 16) : State :=
  match s.transitOf visit with
  | some e => s.displace e
  | none => s

/-- R161: a full list loses its oldest entry. -/
def oldestDisplaced (s : State) : State :=
  if Config.transitListSize ≤ s.dest.transit.length then
    match s.dest.transit with
    | e :: _ => s.displace e
    | [] => s
  else s

/-- R157: an entry appended, with its token and its visit's reference. -/
def entryAdded (s : State) (id : CtxId) (e : TransitEntry) : State :=
  ((s.updDest fun u => { u with transit := u.transit ++ [e] }).updDestAt e.dest
    fun x => { x with inTransit := x.inTransit + 1 }).updCtx id fun c => { c with inTransit := true }

theorem takeToken_eq (s : State) (id : CtxId) (d : Fin 64) :
    s.takeToken id d = entryAdded (oldestDisplaced (ownDisplaced s (s.ctx id).visit)) id ⟨(s.ctx id).visit, d, none⟩ := rfl

theorem tokens_ownDisplaced {s : State} (h : TokensCounted s) (visit : BitVec 16) :
    TokensCounted (ownDisplaced s visit) ∧ ∀ e ∈ (ownDisplaced s visit).dest.transit, e.visit ≠ visit := by
  unfold ownDisplaced
  split
  next e he =>
    obtain ⟨hmem, hvisit⟩ := transitOf_some he
    refine ⟨tokens_displace h hmem, fun x hx => ?_⟩
    rw [displace_transit, List.mem_filter] at hx
    simpa [hvisit] using hx.2
  next hnone => exact ⟨h, transitOf_none.1 hnone⟩

theorem tokens_oldestDisplaced {s : State} (h : TokensCounted s) :
    TokensCounted (oldestDisplaced s) ∧ (oldestDisplaced s).dest.transit.length < 256 ∧
      ∀ e ∈ (oldestDisplaced s).dest.transit, e ∈ s.dest.transit := by
  unfold oldestDisplaced
  split
  next hfull =>
    split
    next e rest hlist =>
      have hmem : e ∈ s.dest.transit := by simp [hlist]
      refine ⟨tokens_displace h hmem, ?_, fun x hx => ?_⟩
      · have hlt : (s.displace e).dest.transit.length < s.dest.transit.length := by
          rw [displace_transit]
          exact List.length_filter_lt_length_iff_exists.2 ⟨e, hmem, by simp⟩
        exact hlt.trans_le h.length_le
      · rw [displace_transit] at hx
        exact (List.mem_filter.1 hx).1
    next hlist =>
      rw [hlist] at hfull
      exact absurd hfull (by decide)
  next hroom => exact ⟨h, not_le.1 hroom, fun _ he => he⟩

theorem tokens_takeToken {s : State} (h : TokensCounted s) (id : CtxId) (d : Fin 64) : TokensCounted (s.takeToken id d) := by
  obtain ⟨hown, hnone⟩ := tokens_ownDisplaced h (s.ctx id).visit
  obtain ⟨hkept, hroom, hsub⟩ := tokens_oldestDisplaced hown
  rw [takeToken_eq]
  refine tokens_add hkept (fun e he => hnone e (hsub e he)) hroom rfl fun y => ?_
  have hdest := upd_get (oldestDisplaced (ownDisplaced s (s.ctx id).visit)).dest.dests d y
    fun x => { x with inTransit := x.inTransit + 1 }
  refine (congrArg Dest.inTransit hdest).trans ?_
  split
  next hy => rw [hy]; rfl
  next => rfl

theorem tokens_sendTo {s : State} (h : TokensCounted s) (id : CtxId) (d : Fin 64) : TokensCounted (s.sendTo id d) :=
  tokens_takeToken (tokens_updCtx h id _) id d

theorem tokens_turnOutRoute {s : State} (h : TokensCounted s) (id : CtxId) : TokensCounted (s.turnOutRoute id) := by
  unfold State.turnOutRoute
  split
  · exact tokens_sendTo h _ _
  · exact tokens_countDest (tokens_updCtx h id _) _

theorem tokens_releaseToken {s : State} (h : TokensCounted s) (id : CtxId) : TokensCounted (s.releaseToken id) := by
  unfold State.releaseToken
  dsimp only
  split
  · split
    next e he => exact tokens_removeTransit h (transitOf_some he).1
    next => exact h
  · exact h

/-- R57: a commit sets the expiry of an entry, and moves no token. -/
theorem tokens_commitTransit {s : State} (h : TokensCounted s) (id : CtxId) : TokensCounted (s.commitTransit id) := by
  have hset {t : State} {f : TransitEntry → TransitEntry} (hvisit : ∀ e, (f e).visit = e.visit)
      (hdest : ∀ e, (f e).dest = e.dest) (htransit : t.dest.transit = s.dest.transit.map f)
      (hcount : ∀ d, t.destAt d = s.destAt d) : TokensCounted t := by
    refine ⟨?_, ?_, fun d => ?_⟩
    · rw [htransit, List.map_map, show (·.visit) ∘ f = (·.visit) from funext hvisit]
      exact h.nodup
    · rw [htransit, List.length_map]
      exact h.length_le
    · rw [hcount, h.count, htransit, List.filter_map, List.length_map]
      simp only [Function.comp_def, hdest]
  unfold State.commitTransit
  dsimp only
  split
  · refine hset (fun e => ?_) (fun e => ?_) rfl fun _ => rfl
    · split <;> rfl
    · split <;> rfl
  · exact h

/-! ### The decision step -/

theorem tokens_takeUnits {s : State} (h : TokensCounted s) (id : CtxId) : TokensCounted (s.takeUnits id) :=
  tokens_same h (by simp)

theorem tokens_decideProvisional {s : State} (h : TokensCounted s) (id : CtxId) : TokensCounted (s.decideProvisional id) := by
  unfold State.decideProvisional
  exact tokens_takeUnits (tokens_sendTo (tokens_countDest (tokens_updCtx h id _) _) id _) id

theorem tokens_decideByTable {s : State} (h : TokensCounted s) (id : CtxId) (offer : Option (BitVec 16 × Nat)) :
    TokensCounted (s.decideByTable id offer) := by
  have hlast {t : State} (ht : TokensCounted t) : TokensCounted ((t.takeUnits id).takeOffer id offer) :=
    tokens_same (tokens_takeUnits ht id) (by simp)
  unfold State.decideByTable
  dsimp only
  split
  · exact tokens_turnOutRoute (tokens_updCtx h id _) id
  · exact hlast (tokens_updCtx h id _)
  all_goals
    split
    · exact hlast (tokens_sendTo (tokens_updCtx h id _) id _)
    · exact hlast (tokens_countDest (tokens_updCtx (tokens_updCtx h id _) id _) _)

theorem tokens_decisionStep {s : State} (h : TokensCounted s) (id : CtxId) : TokensCounted (s.decisionStep id) := by
  have hclassified (p q : Bool) :
      TokensCounted ((((s.updCtx id (Ctx.finalise s.params)).runChecks id p).classifyStep id q).1) :=
    tokens_same h (by simp)
  unfold State.decisionStep
  exact tokens_updCtx (keeps_ite (tokens_decideProvisional (hclassified _ _) id)
    (tokens_decideByTable (hclassified _ _) id _)) id _

theorem tokens_decideTest {s : State} (h : TokensCounted s) (id : CtxId) : TokensCounted (s.decideTest id) := by
  unfold State.decideTest
  dsimp only
  split
  · split
    · exact tokens_same (tokens_decisionStep h id) (by simp)
    · exact tokens_same (tokens_decisionStep h id) (by simp)
  · exact h

theorem tokens_settle {w : Work} (h : TokensCounted w.st) : TokensCounted (State.settle w) :=
  foldl_preserves (P := TokensCounted) (fun _ id hs => tokens_decideTest hs id) _ h

end Sys2Proof.Proofs
end

section
/-! PROOFS. R153, R158, R161: the sequencer, the reads, the tables, the clock and the resets keep the tokens counted. -/
namespace Sys2Proof.Proofs

open Sys2Proof Sys2Proof.Machine Sys2Proof.Safety Sys2Proof.Laws
open PortInvariant (keeps_ite keeps_works)

/-! ### Operations that move no token -/

theorem tokens_compose {s : State} (h : TokensCounted s) (l : LaneId) : TokensCounted (s.compose l) :=
  tokens_same h (by simp)

theorem tokens_changeMode {s : State} (h : TokensCounted s) (l : LaneId) (entered : LaneMode) (cause : ModeCause)
    (holder : Option StationIx) : TokensCounted (s.changeMode l entered cause holder) := tokens_same h (by simp)

theorem tokens_moveTo {s : State} (h : TokensCounted s) (id : CtxId) (st : CtxState) : TokensCounted (s.moveTo id st) :=
  tokens_same h (by simp)

theorem tokens_retime {s : State} (h : TokensCounted s) (l : LaneId) : TokensCounted (s.retime l) :=
  tokens_same h (by simp)

theorem tokens_leaveReferred {s : State} (h : TokensCounted s) (id : CtxId) : TokensCounted (s.leaveReferred id) :=
  tokens_same h (by simp)

theorem tokens_finish {w : Work} (h : TokensCounted w.st) : TokensCounted w.finish.st := tokens_same h (by simp)

theorem tokens_signHearing {s : State} (h : TokensCounted s) (ix : StationIx) : TokensCounted (s.signHearing ix) :=
  tokens_same h (by simp)

theorem tokens_countPort {s : State} (h : TokensCounted s) (seg : Seg) (f : SegCounters → SegCounters) :
    TokensCounted (s.countPort seg f) := tokens_same h (by simp)

/-! ### The sequencer -/

theorem tokens_enterLookup {s : State} (h : TokensCounted s) (id : CtxId) : TokensCounted (s.enterLookup id) := by
  unfold State.enterLookup
  refine tokens_decideTest (tokens_settle (tokens_finish ?_)) id
  refine keeps_works (P := TokensCounted) (fun w r hw => ?_) _ (tokens_moveTo (tokens_updCtx h id _) id .lookup)
  exact tokens_same hw (by simp)

theorem tokens_identifyTest {s : State} (h : TokensCounted s) (id : CtxId) : TokensCounted (s.identifyTest id) :=
  keeps_ite (tokens_enterLookup h id) h

theorem tokens_enterIdentifying {s : State} (h : TokensCounted s) (id : CtxId) : TokensCounted (s.enterIdentifying id) := by
  unfold State.enterIdentifying
  exact tokens_identifyTest (tokens_moveTo (tokens_same h (by rfl)) id _) id

theorem tokens_admitArrival {s : State} (h : TokensCounted s) (id : CtxId) (l : LaneId) (direct : Bool) :
    TokensCounted (s.admitArrival id l direct) := by
  have hallocated : TokensCounted (s.allocate id l) := tokens_same h (by simp)
  unfold State.admitArrival
  exact tokens_retime (keeps_ite (tokens_enterIdentifying hallocated id) hallocated) l

theorem tokens_grant {s : State} (h : TokensCounted s) (id : CtxId) : TokensCounted (s.grant id) := by
  unfold State.grant
  split
  · exact h
  · exact tokens_admitArrival (tokens_same h (by rfl)) _ _ _

theorem tokens_freeCtx {s : State} (h : TokensCounted s) (id : CtxId) : TokensCounted (s.freeCtx id) := by
  have hshown {t : State} (ht : TokensCounted t) (b : Bool) (l : LaneId) :
      TokensCounted ((if b = true then t.compose l else t).retime l) :=
    tokens_retime (keeps_ite (tokens_compose ht l) ht) l
  have hleft (f : LaneState → LaneState) : TokensCounted ((s.updCtx id fun _ => {}).updLane (s.ctx id).lane f) :=
    tokens_same h (by rfl)
  unfold State.freeCtx
  exact tokens_grant (keeps_ite (tokens_changeMode (hshown (hleft _) _ _) _ _ _ _) (hshown (hleft _) _ _)) id

theorem tokens_reportAccepted {s : State} (h : TokensCounted s) (id : CtxId) : TokensCounted (s.reportAccepted id) :=
  tokens_freeCtx (tokens_same h (by simp)) id

theorem tokens_offerReport {s : State} (h : TokensCounted s) (id : CtxId) : TokensCounted (s.offerReport id) :=
  keeps_ite (tokens_reportAccepted h id) (tokens_same h (by simp))

theorem tokens_arrive {s : State} (h : TokensCounted s) (l : LaneId) (direct : Bool) : TokensCounted (s.arrive l direct) := by
  have hcounted : TokensCounted (s.countArrival l) := tokens_same h (by simp)
  unfold State.arrive
  split
  · exact keeps_ite (tokens_admitArrival h _ _ _) hcounted
  · exact hcounted

theorem tokens_refuseEntry {s : State} (h : TokensCounted s) (l : LaneId) : TokensCounted (s.refuseEntry l) :=
  tokens_same h (by simp)

theorem tokens_positionOn {s : State} (h : TokensCounted s) (l : LaneId) : TokensCounted (s.positionOn l) := by
  have hretimed : TokensCounted (s.retime l) := tokens_same h (by simp)
  unfold State.positionOn
  dsimp only
  split
  · exact hretimed
  · split
    · exact tokens_enterIdentifying hretimed _
    · exact keeps_ite (tokens_arrive hretimed _ _) (tokens_refuseEntry hretimed l)

theorem tokens_advance {s : State} (h : TokensCounted s) (l : LaneId) : TokensCounted (s.advance l) := by
  unfold State.advance
  split
  · split
    · exact tokens_enterIdentifying h _
    · exact h
  · exact h

theorem tokens_commit {s : State} (h : TokensCounted s) (id : CtxId) : TokensCounted (s.commit id) := by
  have hshared := tokens_commitTransit (s := (s.updCtx id fun c => { c with exit := some s.now }).commitSlot id)
    (tokens_same h (by simp)) id
  have hcommitted {w : Work} (hw : TokensCounted w.st) : TokensCounted (w.commit id).st := tokens_same hw (by simp)
  unfold State.commit
  refine tokens_offerReport (tokens_advance (tokens_moveTo (tokens_updCtx ?_ id _) id _) _) id
  exact tokens_settle (tokens_finish (hcommitted (w := { st := _ }) hshared))

theorem tokens_releaseEdge {s : State} (h : TokensCounted s) (l : LaneId) : TokensCounted (s.releaseEdge l) := by
  unfold State.releaseEdge
  split
  · exact keeps_ite (tokens_commit h _) h
  · exact h

theorem tokens_abortShared {s : State} (h : TokensCounted s) (id : CtxId) : TokensCounted (s.abortShared id) :=
  tokens_same (tokens_releaseToken h id) (by simp [State.abortShared])

theorem tokens_abortAll {s : State} (h : TokensCounted s) (l : LaneId) (ids : List CtxId) (outcome : Outcome) :
    TokensCounted (s.abortAll l ids outcome) := by
  have haborted (w : Work) (id : CtxId) (hw : TokensCounted w.st) : TokensCounted (w.abort id).st := tokens_same hw (by simp)
  have hended (s : State) (id : CtxId) (hs : TokensCounted s) : TokensCounted (State.endCtx outcome s id) :=
    tokens_same hs (by simp)
  have hshared := foldl_preserves (P := TokensCounted) (fun _ id hs => tokens_abortShared hs id) ids h
  have hclosing := foldl_preserves hended ids (keeps_works haborted ids (w := { st := _ }) hshared)
  unfold State.abortAll
  refine foldl_preserves (P := TokensCounted) (fun _ id hs => tokens_offerReport hs id) ids (tokens_settle (tokens_finish ?_))
  exact keeps_ite (tokens_compose hclosing l) hclosing

/-! ### Rulings, arrivals and reads -/

theorem tokens_ruleIn {s : State} (h : TokensCounted s) (id : CtxId) (d : Decision) (x : Fin 64) :
    TokensCounted (s.ruleIn id d x) := by
  unfold State.ruleIn
  exact tokens_leaveReferred (tokens_takeUnits (tokens_sendTo (tokens_updCtx h id _) id x) id) id

theorem tokens_turnOut {s : State} (h : TokensCounted s) (id : CtxId) (override : Option (Fin 64)) :
    TokensCounted (s.turnOut id override) := by
  have hreleased (f : Ctx → Ctx) : TokensCounted (((s.updCtx id f).releaseSlot id).releaseUnits id) :=
    tokens_same h (by simp)
  unfold State.turnOut
  dsimp only
  split
  · exact tokens_leaveReferred (tokens_sendTo (hreleased _) id _) id
  · exact tokens_leaveReferred (tokens_turnOutRoute (hreleased _) id) id

theorem tokens_rule {s : State} (h : TokensCounted s) (id : CtxId) (d : Decision) (override : Option (Fin 64)) :
    TokensCounted (s.rule id d override).2 := by
  have happlied : TokensCounted s.rulingApplied := tokens_countDest h _
  have hdenied : TokensCounted s.rulingDenied := tokens_countDest h _
  unfold State.rule
  split
  · dsimp only
    exact tokens_turnOut happlied _ _
  · dsimp only
    exact tokens_turnOut happlied _ _
  all_goals
    split <;> dsimp only
    · exact tokens_ruleIn happlied _ _ _
    · exact tokens_ruleIn happlied _ _ _
    · exact hdenied

theorem tokens_rulingAnswer {s : State} (h : TokensCounted s) (visit : BitVec 16) (ruling dest : Byte) :
    TokensCounted (rulingAnswer visit ruling dest s).2 := by
  unfold rulingAnswer
  split
  · split
    · exact h
    · split
      · exact tokens_rule h _ _ _
      · exact tokens_of_counts h rfl fun _ => rfl
  · exact h

theorem tokens_arrivedAnswer {s : State} (h : TokensCounted s) (visit : BitVec 16) :
    TokensCounted (arrivedAnswer visit s).2 := by
  unfold arrivedAnswer
  split
  next e he => exact tokens_removeTransit h (transitOf_some he).1
  next => exact tokens_of_counts h rfl fun _ => rfl

theorem tokens_recallAnswer {s : State} (h : TokensCounted s) (key : Text) : TokensCounted (recallAnswer key s).2 := by
  have htaken := tokens_settle (w := Work.takeRecall { st := s } key) (tokens_same h (by simp))
  unfold recallAnswer
  repeat' split
  · exact h
  · exact h
  · exact tokens_same h (by rfl)
  · exact htaken

theorem tokens_flushAnswer {s : State} (h : TokensCounted s) : TokensCounted (flushAnswer s).2 := by
  have hflushed := tokens_settle (w := Work.flush { st := s }) (tokens_same h (by simp))
  unfold flushAnswer
  split
  · exact h
  · dsimp only
    exact hflushed

/-- R48 to R51: a read moves a token only where it completes an identification. -/
theorem tokens_takeAttached {s : State} (h : TokensCounted s) (seg : Seg) (addr : Addr) (e : Station) (m : LaneMsg)
    {f : State → CtxId → State} (hf : ∀ s id, (f s id).dest = s.dest) : TokensCounted (s.takeAttached seg addr e m f) := by
  unfold State.takeAttached
  split
  · exact tokens_identifyTest (tokens_same h (hf s _)) _
  · exact tokens_same h (by simp)

/-! ### Lane inputs and lane frames -/

theorem tokens_deliver {s : State} (h : TokensCounted s) (l : LaneId) (inp : Input) (on : Bool) :
    TokensCounted (s.deliver l inp on) := by
  have hexamined : TokensCounted (s.examinePass l) := by
    unfold State.examinePass
    exact keeps_ite h (keeps_ite (tokens_same h (by simp)) (tokens_same h (by simp)))
  unfold State.deliver
  split
  · exact keeps_ite (tokens_arrive h l false) (tokens_refuseEntry h l)
  · exact h
  · exact tokens_positionOn h l
  · exact tokens_same h (by simp)
  · exact keeps_ite (tokens_releaseEdge hexamined l) hexamined
  · exact keeps_ite h (tokens_releaseEdge h l)
  · exact tokens_same h (by simp)
  · exact h

theorem tokens_takeLevel {s : State} (h : TokensCounted s) (l : LaneId) (inp : Input) : TokensCounted (s.takeLevel l inp) :=
  tokens_deliver (tokens_same h (by rfl)) l inp _

theorem tokens_filterChange {s : State} (h : TokensCounted s) (l : LaneId) (inp : Input) :
    TokensCounted (s.filterChange l inp) :=
  keeps_ite (tokens_same h (by rfl)) (keeps_ite (tokens_takeLevel h l inp) (tokens_same h (by rfl)))

theorem tokens_consoleTake {s : State} (h : TokensCounted s) (t : Taken) : TokensCounted (s.consoleTake t) := by
  unfold State.consoleTake
  exact keeps_ite (keeps_ite h (tokens_same h (by rfl))) (tokens_abortAll (tokens_changeMode (tokens_same h (by simp)) _ _ _ _) _ _ _)

theorem helloTaken_dest (s : State) (t : Taken) : (s.helloTaken t).dest = s.dest := by
  unfold State.helloTaken
  repeat' split
  all_goals simp

theorem consoleOutput_dest (s : State) (t : Taken) : (s.consoleOutput t).dest = s.dest := by
  unfold State.consoleOutput State.refuseConsole
  dsimp only
  repeat' split
  all_goals simp

theorem scoreUnit_dest (seg : Seg) (e : Station) (pos : Position) (code size : Text) (k : Nat) (s : State) (id : CtxId) :
    (State.scoreUnit seg e pos code size k s id).dest = s.dest := by
  unfold State.scoreUnit
  dsimp only
  split <;> simp

theorem damageRead_dest (pos : Position) (ms : List RawMark) (s : State) (id : CtxId) :
    (State.damageRead pos ms s id).dest = s.dest := by
  unfold State.damageRead State.lateFrame
  split <;> simp

theorem kioskRead_dest (reference : Text) (s : State) (id : CtxId) : (State.kioskRead reference s id).dest = s.dest := by
  unfold State.kioskRead State.lateFrame
  split <;> simp

theorem tokens_consumer (k : LaneKind) {s : State} (h : TokensCounted s) (t : Taken) : TokensCounted (consumer k s t) := by
  cases k with
  | readPlate =>
    show TokensCounted (s.plateTaken t)
    unfold State.plateTaken
    split
    · exact tokens_takeAttached h _ _ _ _ fun _ _ => rfl
    · exact h
  | readTag =>
    show TokensCounted (s.tagTaken t)
    unfold State.tagTaken
    split
    · exact tokens_takeAttached h _ _ _ _ fun _ _ => rfl
    · exact h
  | readUnit =>
    show TokensCounted (s.unitTaken t)
    unfold State.unitTaken
    split
    · exact tokens_takeAttached h _ _ _ _ (scoreUnit_dest _ _ _ _ _ _)
    · exact h
  | readSeal =>
    show TokensCounted (s.sealTaken t)
    unfold State.sealTaken
    split
    · exact tokens_takeAttached h _ _ _ _ fun _ _ => rfl
    · exact h
  | damageMarks =>
    show TokensCounted (s.damageTaken t)
    unfold State.damageTaken
    split
    · exact tokens_takeAttached h _ _ _ _ (damageRead_dest _ _)
    · exact h
  | scanEnd =>
    show TokensCounted (s.scanTaken t)
    unfold State.scanTaken
    split
    · exact tokens_takeAttached h _ _ _ _ fun _ _ => rfl
    · exact h
  | kioskEntry =>
    show TokensCounted (s.kioskTaken t)
    unfold State.kioskTaken
    split
    · exact tokens_takeAttached h _ _ _ _ (kioskRead_dest _)
    · exact h
  | hello => exact tokens_same h (helloTaken_dest s t)
  | status => exact h
  | signAck =>
    show TokensCounted (s.signAckTaken t)
    unfold State.signAckTaken
    split
    · exact tokens_same h (by simp)
    · exact h
  | ticketAck =>
    show TokensCounted (s.ticketAckTaken t)
    unfold State.ticketAckTaken
    split
    · exact tokens_same h (by simp)
    · exact h
  | consoleTake => exact tokens_consoleTake h t
  | consoleRelease => exact keeps_ite (tokens_changeMode h _ _ _ _) (tokens_same h (by rfl))
  | consoleOutput => exact tokens_same h (consoleOutput_dest s t)

theorem heard_dest (s : State) (seg : Seg) (ix : StationIx) : (s.heard seg ix).dest = s.dest := by
  unfold State.heard
  dsimp only
  repeat' split
  all_goals simp

/-- R11 to R18: the station map moves a token only where it has the frame consumed. -/
theorem tokens_mapFrame {s : State} (h : TokensCounted s) (t : Taken) {consume : State → Taken → State}
    (hc : ∀ s t, TokensCounted s → TokensCounted (consume s t)) : TokensCounted (s.mapFrame t consume) := by
  have hpassed {s : State} (h : TokensCounted s) : TokensCounted (s.passFrame t) := tokens_same h (by simp [State.passFrame])
  unfold State.mapFrame
  split
  · exact keeps_ite (hpassed h) (tokens_countPort h _ _)
  · split
    · split
      · unfold State.helloMismatch State.refuseIdentity
        exact keeps_ite (tokens_same h (by simp)) (tokens_same h (by simp))
      · exact tokens_same h (by rfl)
    · unfold State.takeAllowed
      exact keeps_ite (keeps_ite (hpassed h) (hc _ _ (keeps_ite (hpassed h) h)))
        (keeps_ite (hpassed (tokens_countPort h _ _)) (tokens_countPort h _ _))

theorem tokens_takeFrame {s : State} (h : TokensCounted s) (seg : Seg) (k : LaneKind) :
    TokensCounted (s.takeFrame seg k (consumer k)) := by
  have hheard {t : State} (ht : TokensCounted t) (ix : StationIx) : TokensCounted (t.heard seg ix) :=
    tokens_same ht (heard_dest t seg ix)
  unfold State.takeFrame
  split
  · exact h
  next f rest _ =>
    have htaken : TokensCounted (s.updPort seg fun p => { p with rxQueue := rest }) := tokens_same h (by rfl)
    dsimp only
    split
    · split
      · exact tokens_signHearing (hheard (tokens_countPort htaken _ _) _) _
      · have hrecord : TokensCounted ((s.updPort seg fun p => { p with rxQueue := rest }).updPort seg fun p =>
            { p with seqRecord := p.seqRecord.set f.src (some f.seq) }) := tokens_same htaken (by rfl)
        exact tokens_signHearing (tokens_mapFrame (hheard (keeps_ite (tokens_countPort hrecord _ _) hrecord) _) _
          fun _ t hs => tokens_consumer k hs t) _
    · exact h

end Sys2Proof.Proofs
end

section
/-! PROOFS. R153, R158, R161: the tables, the clock, the resets and so every step keep the tokens counted. -/
namespace Sys2Proof.Proofs

open Sys2Proof Sys2Proof.Machine Sys2Proof.Safety Sys2Proof.Laws
open PortInvariant (keeps_ite keeps_works)

/-! ### Events of a segment, reports sent -/

theorem receive_dest (s : State) (seg : Seg) (bytes : List Byte) : (s.receive seg bytes).dest = s.dest := by
  unfold State.receive
  repeat' split
  all_goals simp

theorem loseSignal_dest (s : State) (seg : Seg) : (s.loseSignal seg).dest = s.dest := by
  have hsilenced (s : State) (a : Addr) : (State.silenceStation seg s a).dest = s.dest := by
    unfold State.silenceStation
    dsimp only
    repeat' split
    all_goals simp
  have hreleased (s : State) (a : Addr) : (State.releaseSilent seg s a).dest = s.dest := by simp [State.releaseSilent]
  unfold State.loseSignal
  refine (foldl_keeps (fun t : State => t.dest) _ hreleased _ _).trans ?_
  refine (foldl_keeps (fun t : State => t.dest) _ hsilenced _ _).trans ?_
  simp

theorem tokens_reportSent {s : State} (h : TokensCounted s) : TokensCounted s.reportSent := by
  have hturn (u : Uplink → Uplink) (waiters : List Waiter) :
      TokensCounted ((s.updUplink u).updUplink fun u => { u with waiters := waiters }) := tokens_same h (by rfl)
  have hcache {w : Work} (hw : TokensCounted w.st) : TokensCounted w.turn.st := tokens_same hw (by simp)
  unfold State.reportSent
  dsimp only
  split
  next => exact tokens_same h (by rfl)
  next w rest _ =>
    cases w with
    | visitReport id => exact tokens_reportAccepted (hturn _ rest) id
    | referNotice id => exact tokens_same h (by simp [State.serve])
    | cache => exact tokens_settle (hcache (w := { st := _ }) (hturn _ rest))
    | uplink =>
      have howed {t : State} (ht : TokensCounted t) : TokensCounted t.uplinkTurn := by
        unfold State.uplinkTurn
        split
        · exact ht
        · exact keeps_ite (tokens_same ht (by rfl)) (tokens_same ht (by simp))
      exact howed (hturn _ rest)

/-! ### Tables -/

theorem writeStation_dest (s : State) (ix : StationIx) (f : Station → Station) : (s.writeStation ix f).dest = s.dest := by
  unfold State.writeStation
  dsimp only
  split <;> simp

theorem writeStationAnswer_dest (index : BitVec 16) (state idPresent : Byte) (identity : BitVec 32)
    (lane role zone weight forward : Byte) (s : State) :
    (writeStationAnswer index state idPresent identity lane role zone weight forward s).2.dest = s.dest := by
  unfold writeStationAnswer
  split
  · split
    · split
      · rfl
      · dsimp only
        exact writeStation_dest s _ _
    · rfl
  · rfl

theorem writeWindowAnswer_dest (index day : BitVec 16) (state capacity overbook openShare : Byte) (s : State) :
    (writeWindowAnswer index day state capacity overbook openShare s).2.dest = s.dest := by
  unfold writeWindowAnswer
  repeat' split
  all_goals simp [refuse]

/-- R153: a write of DESTINATIONS leaves the in-transit count, which no field of the record carries. -/
theorem tokens_writeDestAnswer {s : State} (h : TokensCounted s) (index : BitVec 16)
    (kind state capacity accepts alternate phrase : Byte) :
    TokensCounted (writeDestAnswer index kind state capacity accepts alternate phrase s).2 := by
  have hwritten (x : Fin 64) {f : Dest → Dest} (hf : ∀ d, (f d).inTransit = d.inTransit) :
      TokensCounted (s.updDestAt x f) := by
    refine tokens_of_counts h rfl fun d => ?_
    have hdest : (s.updDestAt x f).destAt d = if d = x then f (s.destAt x) else s.destAt d := upd_get _ _ _ _
    rw [hdest]
    split
    next hd => rw [hf, hd]
    next => rfl
  unfold writeDestAnswer
  repeat' split
  · exact hwritten _ fun _ => rfl
  · exact h
  · exact h

theorem tokens_writeDefaultAnswer {s : State} (h : TokensCounted s) (index : BitVec 16) (value : Byte) :
    TokensCounted (writeDefaultAnswer index value s).2 := by
  unfold writeDefaultAnswer
  split
  · exact tokens_of_counts h rfl fun _ => rfl
  · exact h

theorem writePhraseAnswer_dest (index : BitVec 16) (chars : Vector Byte 20) (s : State) :
    (writePhraseAnswer index chars s).2.dest = s.dest := by
  unfold writePhraseAnswer
  repeat' split
  all_goals simp [refuse]

theorem writeTransparencyAnswer_dest (value : BitVec 16) (s : State) :
    (writeTransparencyAnswer value s).2.dest = s.dest := by
  unfold writeTransparencyAnswer
  split
  all_goals simp [refuse]

theorem writeWeightAnswer_dest (index : BitVec 16) (weight : Byte) (s : State) :
    (writeWeightAnswer index weight s).2.dest = s.dest := by
  unfold writeWeightAnswer
  split <;> rfl

theorem writePrefixAnswer_dest (index : BitVec 16) (present : Byte) (first last : Vector Byte 4) (s : State) :
    (writePrefixAnswer index present first last s).2.dest = s.dest := by
  unfold writePrefixAnswer
  repeat' split
  all_goals rfl

theorem writeInputAnswer_dest (lane : LaneId) (inp : Input) (enable polarity filter : Byte) (s : State) :
    (writeInputAnswer lane inp enable polarity filter s).2.dest = s.dest := by
  unfold writeInputAnswer
  split
  · dsimp only
    split <;> simp [State.rearm, State.updInput]
  · rfl

theorem writeParamAnswer_dest (index value : BitVec 16) (third : Byte) (s : State) :
    (writeParamAnswer index value third s).2.dest = s.dest := by
  have hedge (lane : LaneId) (value : Nat) : (writeEdgeAnswer lane value s).2.dest = s.dest := by
    unfold writeEdgeAnswer
    split <;> rfl
  unfold writeParamAnswer
  repeat' split
  · rfl
  · exact writeTransparencyAnswer_dest value s
  · rfl
  · exact writeInputAnswer_dest _ _ _ _ _ s
  · exact hedge _ _
  all_goals rfl

theorem tokens_writeAnswer {s : State} (h : TokensCounted s) (table : Byte) (index : BitVec 16) (b : List Byte) :
    TokensCounted (writeAnswer table index b s).2 := by
  unfold writeAnswer
  dsimp only
  split
  · exact tokens_same h (writeStationAnswer_dest _ _ _ _ _ _ _ _ _ s)
  · exact tokens_same h (writeWindowAnswer_dest _ _ _ _ _ _ s)
  · exact tokens_writeDestAnswer h _ _ _ _ _ _ _
  · exact tokens_writeDefaultAnswer h _ _
  · exact tokens_same h (writePhraseAnswer_dest _ _ s)
  · exact tokens_same h (writeWeightAnswer_dest _ _ s)
  · exact tokens_same h (writePrefixAnswer_dest _ _ _ _ s)
  · exact tokens_same h (writeParamAnswer_dest _ _ _ s)
  · exact h

theorem readAnswer_state (table : Byte) (index : BitVec 16) (s : State) : (readAnswer table index s).2 = s := by
  unfold readAnswer
  repeat' split
  all_goals rfl

theorem tokens_counterAnswer {s : State} (h : TokensCounted s) (group clear : Byte) :
    TokensCounted (counterAnswer group clear s).2 := by
  have hcleared (n : Nat) : TokensCounted (s.clearCounters n) := by
    unfold State.clearCounters
    repeat' split
    · exact tokens_countPort h _ _
    · exact tokens_same h (by rfl)
    · exact tokens_same h (by rfl)
    · exact tokens_same h (by rfl)
    · exact tokens_same h (by rfl)
    · exact tokens_countDest h _
    · exact tokens_same h (by rfl)
    · exact tokens_same h (by rfl)
  unfold counterAnswer
  split
  · exact h
  · split
    · exact h
    · exact keeps_ite (hcleared _) h

/-! ### Lane commands -/

theorem openAnswer_dest (lane : Byte) (s : State) : (openAnswer lane s).2.dest = s.dest := by
  unfold openAnswer
  repeat' split
  all_goals simp [refuse]

theorem closeAnswer_dest (lane : Byte) (s : State) : (closeAnswer lane s).2.dest = s.dest := by
  unfold closeAnswer
  repeat' split
  all_goals simp [refuse]

theorem tokens_laneResetAnswer {s : State} (h : TokensCounted s) (lane : Byte) :
    TokensCounted (laneResetAnswer lane s).2 := by
  unfold laneResetAnswer
  split
  · exact h
  · exact tokens_abortAll (tokens_same h (by simp)) _ _ _

theorem outputSetAnswer_dest (lane output source value : Byte) (s : State) :
    (outputSetAnswer lane output source value s).2.dest = s.dest := by
  unfold outputSetAnswer
  repeat' split
  all_goals rfl

/-! ### The clock and the resets -/

/-- R159: a minute announced frees the token of each entry that is due. -/
theorem tokens_announce {s : State} (h : TokensCounted s) (minute : Nat) : TokensCounted (s.announce minute) := by
  obtain ⟨htransit, -, hfreed, -⟩ := (announce_expires s minute).1 h.nodup
  refine tokens_of_filter h (fun e => !due minute e) htransit fun d => ?_
  rw [hfreed, List.filter_filter]
  simp only [Bool.not_not, Bool.and_comm]

theorem tokens_setClock {s : State} (h : TokensCounted s) (c : Clock) : TokensCounted (s.setClock c) :=
  tokens_same h rfl

theorem tokens_rebase {s : State} (h : TokensCounted s) (day : BitVec 16) : TokensCounted (s.rebase day) :=
  tokens_same h (by simp)

theorem tokens_takeDays {s : State} (h : TokensCounted s) (day : BitVec 16) : TokensCounted (s.takeDays day) :=
  tokens_same h (by simp)

theorem tokens_nextMinute {s : State} (h : TokensCounted s) (c : Clock) : TokensCounted (s.nextMinute c) := by
  unfold State.nextMinute
  exact keeps_ite (tokens_announce (tokens_setClock h _) _) (tokens_announce (tokens_rebase (tokens_setClock h _) _) _)

theorem tokens_second {s : State} (h : TokensCounted s) : TokensCounted s.second := by
  unfold State.second
  split
  · exact h
  · exact keeps_ite (tokens_setClock h _) (tokens_nextMinute h _)

theorem tokens_timeSetAnswer {s : State} (h : TokensCounted s) (day minute : BitVec 16) :
    TokensCounted (timeSetAnswer day minute s).2 := by
  unfold timeSetAnswer
  split
  · exact h
  · refine tokens_same (tokens_announce ?_ _) (by rfl)
    split
    · exact tokens_takeDays (tokens_setClock h _) day
    · exact keeps_ite (tokens_setClock h _) (tokens_rebase (tokens_setClock h _) day)

/-- R166: a reset of the whole part empties the list, and frees every token. -/
theorem tokens_initial {s : State} (h : s.dest = DestUnit.initial) : TokensCounted s where
  nodup := by simp [h, DestUnit.initial]
  length_le := by simp [h, DestUnit.initial]
  count d := by simp [State.destAt, h, DestUnit.initial]

/-- R166: RESET_DYNAMIC frees the tokens of the entries without an expiry. -/
theorem tokens_resetDynamic {s : State} (h : TokensCounted s) (hdr : GateHdr) : TokensCounted (s.resetDynamic hdr) := by
  obtain ⟨-, -, -, -, -, -, -, htransit, hfreed⟩ := dynamicValues_spec s
  have hvalues : TokensCounted s.dynamicValues := by
    refine tokens_of_filter h (·.expiry.isSome) htransit fun d => ?_
    rw [hfreed]
    simp only [Option.not_isSome]
  have hqueued (u : Uplink → Uplink) : TokensCounted (s.dynamicValues.updUplink u) := tokens_same hvalues (by rfl)
  unfold State.resetDynamic
  exact foldl_preserves (P := TokensCounted) (fun _ _ ht => tokens_same ht (by simp)) _ (hqueued _)

/-! ### The step -/

/-- R178, R179: a request keeps the tokens counted where its owner's act does. -/
theorem tokens_request {s : State} (h : TokensCounted s) (hdr : GateHdr) (kind : Byte) {act : State → Answer × State}
    (ha : ∀ s, TokensCounted s → TokensCounted (act s).2) : TokensCounted (s.request hdr kind act) := by
  have hresponded {t : State} (ht : TokensCounted t) (a : Answer) : TokensCounted (t.respond hdr kind a) :=
    tokens_same ht (by simp)
  unfold State.request
  exact keeps_ite (tokens_same h (by rfl)) (hresponded (ha _ (tokens_same h (by rfl))) _)

/-- What a command answers keeps the tokens counted. -/
def KeepsTokens (s : State) (o : Host.Outcome State Fault Refusal) : Prop := ∀ t, o = .next t → TokensCounted s → TokensCounted t

theorem keepsTokens_whenRunning {s : State} {f : State → State} (hf : TokensCounted s → TokensCounted (f s)) :
    KeepsTokens s (whenRunning s f) := by
  intro t ht h
  unfold whenRunning at ht
  split at ht
  · injection ht with e
    exact e ▸ h
  · injection ht with e
    exact e ▸ hf h

theorem keepsTokens_powerOn (pins : Pins) (held : Bool) (s : State) : KeepsTokens s (exec (.powerOn pins held) s) := by
  intro t ht _
  injection ht with e
  rw [← e]
  exact keeps_ite (tokens_initial rfl) (tokens_initial rfl)

/-- Each command by the lemma about the operation that it runs. -/
theorem keepsTokens_exec (c : Instr) (s : State) : KeepsTokens s (exec c s) := by
  have answers (hdr : GateHdr) (kind : Byte) {act : State → Answer × State}
      (ha : ∀ s, TokensCounted s → TokensCounted (act s).2) (h : TokensCounted s) := tokens_request h hdr kind ha
  have leaves (hdr : GateHdr) (kind : Byte) {act : State → Answer × State} (ha : ∀ s, (act s).2.dest = s.dest)
      (h : TokensCounted s) := tokens_request h hdr kind (act := act) fun s h => tokens_same h (ha s)
  cases c
  case powerOn pins held => exact keepsTokens_powerOn pins held s
  all_goals dsimp only [exec]
  all_goals refine keepsTokens_whenRunning fun h => ?_
  case laneFrameReceived seg bytes => exact keeps_ite h (tokens_same h (receive_dest s seg bytes))
  case readPlate seg => exact tokens_takeFrame h seg .readPlate
  case readTag seg => exact tokens_takeFrame h seg .readTag
  case readUnit seg => exact tokens_takeFrame h seg .readUnit
  case readSeal seg => exact tokens_takeFrame h seg .readSeal
  case damageMarks seg => exact tokens_takeFrame h seg .damageMarks
  case scanEnd seg => exact tokens_takeFrame h seg .scanEnd
  case kioskEntry seg => exact tokens_takeFrame h seg .kioskEntry
  case stationHello seg => exact tokens_takeFrame h seg .hello
  case stationStatus seg => exact tokens_takeFrame h seg .status
  case signAck seg => exact tokens_takeFrame h seg .signAck
  case ticketAck seg => exact tokens_takeFrame h seg .ticketAck
  case consoleTake seg => exact tokens_takeFrame h seg .consoleTake
  case consoleRelease seg => exact tokens_takeFrame h seg .consoleRelease
  case consoleOutput seg => exact tokens_takeFrame h seg .consoleOutput
  case signalLoss seg => exact keeps_ite h (tokens_same h (loseSignal_dest s seg))
  case signalDetect seg => exact keeps_ite (tokens_same h (by simp)) h
  case errorWindowExpiry seg =>
    have hentered (st : SegState) : TokensCounted (s.enterSeg seg st) := tokens_same h (by simp)
    exact keeps_ite (tokens_same (keeps_ite (hentered _) h) (by rfl)) h
  case transmitEnd seg => exact tokens_same h (by rfl)
  case stationSilenceExpiry seg addr => exact keeps_ite (tokens_same h (by simp)) h
  case inputLevelChange lane inp high =>
    have pinned : TokensCounted (s.updInput lane inp fun i => { i with pin := high }) := tokens_same h (by rfl)
    exact keeps_ite h (keeps_ite (tokens_filterChange pinned _ _) pinned)
  case inputFilterExpiry lane inp => exact keeps_ite (tokens_takeLevel h _ _) h
  case approachExpiry ctx => exact keeps_ite (tokens_offerReport (tokens_same h (by simp)) _) h
  case identificationExpiry ctx => exact keeps_ite (tokens_enterLookup (tokens_updCtx h _ _) _) h
  case rulingExpiry ctx => exact keeps_ite (tokens_turnOut (tokens_updCtx (tokens_countDest h _) _ _) _ _) h
  case bookingData hdr record =>
    have htaken {w : Work} (hw : TokensCounted w.st) : TokensCounted (w.bookingData hdr.tag record).st := tokens_same hw (by simp)
    exact tokens_settle (htaken (w := { st := s.gateHeard hdr }) (tokens_same h (by rfl)))
  case bookingNone hdr key =>
    have htaken {w : Work} (hw : TokensCounted w.st) : TokensCounted (w.bookingNone hdr.tag key).st := tokens_same hw (by simp)
    exact tokens_settle (htaken (w := { st := s.gateHeard hdr }) (tokens_same h (by rfl)))
  case fetchTimeout slot => exact tokens_settle (tokens_same h (by simp))
  case bookingRecall hdr key => exact answers _ _ (fun _ h => tokens_recallAnswer h _) h
  case flush hdr => exact answers _ _ (fun _ h => tokens_flushAnswer h) h
  case clockMinute =>
    split
    · exact tokens_nextMinute h _
    · exact h
  case timeSet hdr day minute => exact answers _ _ (fun _ h => tokens_timeSetAnswer h _ _) h
  case visitRuling hdr visit ruling dest => exact answers _ _ (fun _ h => tokens_rulingAnswer h _ _ _) h
  case arrivedAt hdr visit => exact answers _ _ (fun _ h => tokens_arrivedAnswer h _) h
  case signAckExpiry seg addr => exact tokens_same h (by simp)
  case ticketAckExpiry seg addr place => exact tokens_same h (by simp)
  case gateFrameDiscarded bytes => split <;> exact tokens_same h (by rfl)
  case gateFrameUnknownKind hdr kind => exact keeps_ite h (leaves _ _ (fun _ => rfl) h)
  case heartbeat hdr => exact leaves _ _ (fun _ => rfl) h
  case heartbeatExpiry => exact keeps_ite (tokens_same h (by rfl)) h
  case uplinkLinkDown => exact keeps_ite (keeps_ite (tokens_same h (by rfl)) (tokens_same h (by rfl))) h
  case uplinkLinkUp => exact keeps_ite h (tokens_same h (by simp))
  case reportSent => exact keeps_ite (tokens_reportSent h) h
  case tableWriteStationMap hdr index state idPresent identity lane role zone weight forward =>
    exact leaves _ _ (writeStationAnswer_dest _ _ _ _ _ _ _ _ _) h
  case tableWriteSlotWindows hdr index day state capacity overbook openShare =>
    exact leaves _ _ (writeWindowAnswer_dest _ _ _ _ _ _) h
  case tableWriteDestinations hdr index kind state capacity accepts alternate phrase =>
    exact answers _ _ (fun _ h => tokens_writeDestAnswer h _ _ _ _ _ _ _) h
  case tableWriteDefaults hdr index value => exact answers _ _ (fun _ h => tokens_writeDefaultAnswer h _ _) h
  case tableWritePhrases hdr index chars => exact leaves _ _ (writePhraseAnswer_dest _ _) h
  case tableWriteDamageWeights hdr index weight => exact leaves _ _ (writeWeightAnswer_dest _ _) h
  case tableWriteUncachedPrefixes hdr index present first last => exact leaves _ _ (writePrefixAnswer_dest _ _ _ _) h
  case tableWriteParameters hdr index value third => exact leaves _ _ (writeParamAnswer_dest _ _ _) h
  case tableWriteInputEntry hdr lane inp enable polarity filter => exact leaves _ _ (writeInputAnswer_dest _ _ _ _ _) h
  case tableWriteTransparency hdr value => exact leaves _ _ (writeTransparencyAnswer_dest _) h
  case tableWrite hdr table index record =>
    exact keeps_ite (tokens_same h (by rfl)) (answers _ _ (fun _ h => tokens_writeAnswer h _ _ _) h)
  case tableRead hdr table index => exact leaves _ _ (fun s => by rw [readAnswer_state]) h
  case counterRead hdr group clear => exact answers _ _ (fun _ h => tokens_counterAnswer h _ _) h
  case laneCommandOpen hdr lane => exact leaves _ _ (openAnswer_dest _) h
  case laneCommandClose hdr lane => exact leaves _ _ (closeAnswer_dest _) h
  case laneCommandReset hdr lane => exact answers _ _ (fun _ h => tokens_laneResetAnswer h _) h
  case outputSet hdr lane output source value => exact leaves _ _ (outputSetAnswer_dest _ _ _ _) h
  case resetDynamic hdr => exact keeps_ite (tokens_same h (by rfl)) (tokens_resetDynamic (tokens_same h (by rfl)) _)
  case resetAll hdr => exact keeps_ite (tokens_same h (by rfl)) (tokens_initial rfl)
  case laneCommandBadValue hdr command => exact keeps_ite h (leaves _ _ (fun _ => rfl) h)
  case partCommandBadValue hdr command => exact keeps_ite h (leaves _ _ (fun _ => rfl) h)

theorem tokens_step {s t : State} (h : TokensCounted s) (hstep : step s = .next t) : TokensCounted t := by
  unfold step at hstep
  split at hstep
  next c rest _ => exact keepsTokens_exec c _ t hstep (tokens_same h (by rfl))
  next =>
    injection hstep with e
    exact e ▸ keeps_ite h (tokens_second h)

/-- Settles O59: tokens and entries are given and freed together by every operation of the model, so by every command and by a
second of the clock. -/
theorem transitStaysCounted : Obligations.TransitStaysCounted := by
  intro s t h hstep
  exact (tokensCounted_iff t).1 (tokens_step ((tokensCounted_iff s).2 h) hstep)

end Sys2Proof.Proofs
end

section
/-! PROOFS. The decision table (R150 to R152), the destination chain (R154, R155) and the answer to an ARRIVED_AT (R160). -/
namespace Sys2Proof.Proofs

open Sys2Proof Sys2Proof.Machine Sys2Proof.Safety Sys2Proof.Laws

/-! ### The decision table (R150 to R152) -/

theorem good_iff (f : ConsField) : f.good = true ↔ f.state = .settled ∨ f.state = .weak := by
  simp [ConsField.good]

/-- R150, R82: the unit field of a position fails row 1 where the layout has a unit there and the field is not good. -/
theorem unitFails_iff (c : Ctx) (pos : Position) :
    c.unitFails pos = true ↔
      (match pos with | .fwd => 1 | .aft => 2) ≤ (c.layout.map (·.units)).getD 0 ∧
        ¬ (c.field (unitField pos)).good = true := by
  unfold Ctx.unitFails Ctx.expects
  cases c.layout <;> cases pos <;> simp

theorem row1_iff (c : Ctx) :
    c.row1 = true ↔
      (¬ c.plate.good = true ∧ ¬ c.tag.good = true) ∨ c.unitFails .fwd = true ∨ c.unitFails .aft = true ∨
      (∃ f ∈ [c.plate, c.tag, c.unitFwd, c.unitAft, c.sealFwd, c.sealAft], f.state = .contested) ∨
      c.layout = none ∨ c.layoutConflict = true ∨ c.links = [] := by
  have hcontested : [c.plate, c.tag, c.unitFwd, c.unitAft, c.sealFwd, c.sealAft].any (fun f => f.state == .contested) = true ↔
      ∃ f ∈ [c.plate, c.tag, c.unitFwd, c.unitAft, c.sealFwd, c.sealAft], f.state = .contested := by
    rw [List.any_eq_true]
    simp only [beq_iff_eq]
  unfold Ctx.row1
  simp only [Bool.or_eq_true, hcontested, Bool.not_eq_true', Bool.or_eq_false_iff, Option.isNone_iff_eq_none, List.isEmpty_iff,
    Bool.not_eq_true, or_assoc]

/-- R150: a condition on a RESOLVED link and its record, on any link of a visit. -/
theorem anyRecord_iff (s : State) (c : Ctx) (p : Link → Record → Bool) :
    s.anyRecord c p = true ↔ ∃ l x, (l ∈ c.links ∧ s.linkRecord l = some x) ∧ p l x = true := by
  unfold State.anyRecord
  rw [List.any_eq_true]
  refine exists_congr fun l => ?_
  cases s.linkRecord l <;> simp

theorem row2_iff (c : Ctx) : c.row2 = true ↔ ∃ l ∈ c.links, l.state = .failed := by
  simp [Ctx.row2]

theorem noBooking_iff (s : State) (c : Ctx) :
    (s.reasonsOf c).noBooking = true ↔ (∃ l ∈ c.links, l.state = .noneFound) ∨
      ∃ l x, (l ∈ c.links ∧ s.linkRecord l = some x) ∧ x.progress = .cancelled := by
  simp [State.reasonsOf, anyRecord_iff]

theorem hold_iff (s : State) (c : Ctx) :
    (s.reasonsOf c).hold = true ↔
      ∃ l x, (l ∈ c.links ∧ s.linkRecord l = some x) ∧ (x.customsHold = true ∨ x.lineHold = true) := by
  simp [State.reasonsOf, anyRecord_iff, Record.locked]

/-- R151: row 6 compares the units left with the units held of the record's target. -/
theorem exhausted_iff (s : State) (c : Ctx) :
    s.exhausted c = true ↔ ∃ l x g, (l ∈ c.links ∧ s.linkRecord l = some x) ∧ x.kind = .emptyPickup ∧ l.target = some g ∧
      x.remaining ≤ s.targetHeld g := by
  unfold State.exhausted
  rw [anyRecord_iff]
  refine exists_congr fun l => exists_congr fun x => ?_
  cases l.target <;> simp

theorem slotRefuses_iff (r : Option SlotResult) :
    r.any SlotResult.refuses = true ↔ r = some .full ∨ r = some .missed ∨ r = some .closed := by
  cases r with
  | none => simp
  | some x => cases x <;> simp [SlotResult.refuses]

theorem sealFails_iff (k : Option SealCheck) :
    sealFails k = true ↔ ∃ x, k = some x ∧ (x.result = .missing ∨ x.result = .mismatch) := by
  cases k with
  | none => simp [sealFails]
  | some x =>
    obtain ⟨result, value⟩ := x
    cases result <;> simp [sealFails]

/-- A condition on one of the two positions. -/
theorem exists_position {p : Position → Prop} : (∃ pos, p pos) ↔ p .fwd ∨ p .aft :=
  ⟨fun ⟨pos, h⟩ => by cases pos with | fwd => exact .inl h | aft => exact .inr h,
   fun h => h.elim (fun h => ⟨_, h⟩) fun h => ⟨_, h⟩⟩

theorem damageFails_iff (c : Ctx) :
    State.damageFails c = true ↔ ∃ pos k, c.damage.get pos = some k ∧ k.result = .inspect := by
  rw [exists_position]
  simp [State.damageFails, PerPos.get, Option.any_eq_true]

theorem sealReason_iff (s : State) (c : Ctx) :
    (s.reasonsOf c).sealFail = true ↔
      ∃ pos k, c.sealChecks.get pos = some k ∧ (k.result = .missing ∨ k.result = .mismatch) := by
  rw [exists_position]
  simp [State.reasonsOf, sealFails_iff, PerPos.get]

theorem provisional_iff (s : State) (c : Ctx) :
    s.provisional c = true ↔ c.row1 = false ∧ c.row2 = true ∧ s.uplink.serverPresent = false ∧
      s.params.offlineProvisional = true := by
  simp [State.provisional, and_assoc]

/-- R151: row 5, by the source of the link. -/
theorem mismatch_iff (c : Ctx) (l : Link) (r : Record) :
    c.mismatch l r = true ↔
      (match l.source with
      | .kiosk => r.kind = .exportFull ∨ r.kind = .emptyReturn
      | .unitFwd => r.kind = .importFull ∨ r.kind = .emptyPickup ∨ ∃ x, c.layoutOf .fwd = some x ∧ x.1 ≠ r.length
      | .unitAft => r.kind = .importFull ∨ r.kind = .emptyPickup ∨ ∃ x, c.layoutOf .aft = some x ∧ x.1 ≠ r.length) := by
  have hpickup : r.kind.pickup = true ↔ r.kind = .importFull ∨ r.kind = .emptyPickup := by
    cases r.kind <;> simp [BookingKind.pickup]
  have hdrop : (!r.kind.pickup) = true ↔ r.kind = .exportFull ∨ r.kind = .emptyReturn := by
    cases r.kind <;> simp [BookingKind.pickup]
  have hlength (pos : Position) : (match c.layoutOf pos with | some (len, _) => len != r.length | none => false) = true ↔
      ∃ x, c.layoutOf pos = some x ∧ x.1 ≠ r.length := by
    cases c.layoutOf pos <;> simp
  have hunit (pos : Position) : (r.kind.pickup || match c.layoutOf pos with
      | some (len, _) => len != r.length
      | none => false) = true ↔
      r.kind = .importFull ∨ r.kind = .emptyPickup ∨ ∃ x, c.layoutOf pos = some x ∧ x.1 ≠ r.length := by
    rw [Bool.or_eq_true, hpickup, hlength, or_assoc]
  unfold Ctx.mismatch
  cases l.source with
  | unitFwd => exact hunit .fwd
  | unitAft => exact hunit .aft
  | kiosk => exact hdrop

/-- Settles O42, row by row. -/
theorem decisionTableByRows : Obligations.DecisionTableByRows := by
  refine ⟨fun s c => ?_, mismatch_iff, fun r slot => ?_⟩
  · refine ⟨?_, row2_iff c, noBooking_iff s c, hold_iff s c, anyRecord_iff s c c.mismatch, exhausted_iff s c,
      slotRefuses_iff c.slotResult, sealReason_iff s c, damageFails_iff c, rfl, rfl, provisional_iff s c⟩
    refine (row1_iff c).trans ?_
    simp only [unitFails_iff, good_iff]
    rfl
  · simp only [State.decisionOf, Bool.or_eq_true]

/-! ### The destination chain (R154, R155) -/

theorem canTake_iff (d : Dest) (kind : Option BookingKind) :
    d.canTake kind = true ↔
      d.isOpen = true ∧
      (d.kind ≠ .yard ∨ kind = none ∨ (kind = some .exportFull ∧ d.acceptsExportFull = true) ∨
        (kind = some .emptyReturn ∧ d.acceptsEmptyReturn = true) ∨
        (kind = some .importFull ∧ d.acceptsImportFull = true) ∨
        (kind = some .emptyPickup ∧ d.acceptsEmptyPickup = true)) ∧
      (d.capacity = 0 ∨ d.inTransit < d.capacity) := by
  unfold Dest.canTake
  rw [Bool.and_eq_true, Bool.and_eq_true, Bool.or_eq_true, Bool.or_eq_true, and_assoc]
  cases kind with
  | none => simp
  | some k => cases k <;> simp [Dest.accepts]

/-- R155: a chain that passes a list of destinations, none of which can take the visit, from each to its alternate, and ends at one
that can. -/
def EndsAt (s : State) (kind : Option BookingKind) (path : List (Fin 64)) (d : Fin 64) : Prop :=
  (s.destAt d).canTake kind = true ∧ (∀ x ∈ path, (s.destAt x).canTake kind = false) ∧
    ∀ (i : Nat) x y, (path ++ [d])[i]? = some x → (path ++ [d])[i + 1]? = some y → (s.destAt x).alternate = some y

theorem endsAt_nil (s : State) (kind : Option BookingKind) (d : Fin 64) :
    EndsAt s kind [] d ↔ (s.destAt d).canTake kind = true := by
  simp [EndsAt]

theorem endsAt_cons (s : State) (kind : Option BookingKind) (x : Fin 64) (path : List (Fin 64)) (d : Fin 64) :
    EndsAt s kind (x :: path) d ↔ (s.destAt x).canTake kind = false ∧
      (s.destAt x).alternate = (path ++ [d]).head? ∧ EndsAt s kind path d := by
  obtain ⟨y, hy⟩ : ∃ y, (path ++ [d])[0]? = some y := by cases path <;> exact ⟨_, rfl⟩
  constructor
  · rintro ⟨hd, hpath, hnext⟩
    refine ⟨hpath x (by simp), ?_, hd, fun z hz => hpath z (by simp [hz]), fun i u v hu hv => ?_⟩
    · rw [List.head?_eq_getElem?, hy]
      exact hnext 0 x y rfl hy
    · exact hnext (i + 1) u v hu hv
  · rintro ⟨hx, halternate, hd, hpath, hnext⟩
    refine ⟨hd, by simpa using ⟨hx, hpath⟩, fun i u v hu hv => ?_⟩
    cases i with
    | zero =>
      cases hu
      rw [halternate, List.head?_eq_getElem?]
      exact hv
    | succ i => exact hnext i u v hu hv

/-- R155: a chain from `start` that passes to the alternate at most `n` times ends at `d`. -/
def Leads (s : State) (kind : Option BookingKind) (n : Nat) (start d : Fin 64) : Prop :=
  ∃ path : List (Fin 64), path.length ≤ n ∧ (path ++ [d]).head? = some start ∧ EndsAt s kind path d

theorem leads_of_canTake {s : State} {kind : Option BookingKind} {start : Fin 64}
    (hcan : (s.destAt start).canTake kind = true) (n : Nat) (d : Fin 64) : Leads s kind n start d ↔ start = d := by
  constructor
  · rintro ⟨path, -, hhead, hends⟩
    cases path with
    | nil => exact (Option.some.inj hhead).symm
    | cons x path =>
      cases hhead
      rw [((endsAt_cons s kind _ path d).1 hends).1] at hcan
      cases hcan
  · rintro rfl
    exact ⟨[], Nat.zero_le n, rfl, (endsAt_nil s kind start).2 hcan⟩

theorem not_leads_zero {s : State} {kind : Option BookingKind} {start : Fin 64}
    (hfull : (s.destAt start).canTake kind = false) (d : Fin 64) : ¬ Leads s kind 0 start d := by
  rintro ⟨path, hlength, hhead, hends⟩
  obtain rfl := List.length_eq_zero_iff.1 (Nat.le_zero.1 hlength)
  cases hhead
  rw [(endsAt_nil s kind _).1 hends] at hfull
  cases hfull

theorem leads_succ {s : State} {kind : Option BookingKind} {start : Fin 64}
    (hfull : (s.destAt start).canTake kind = false) (n : Nat) (d : Fin 64) :
    Leads s kind (n + 1) start d ↔ ∃ a, (s.destAt start).alternate = some a ∧ Leads s kind n a d := by
  constructor
  · rintro ⟨path, hlength, hhead, hends⟩
    cases path with
    | nil =>
      cases hhead
      rw [(endsAt_nil s kind _).1 hends] at hfull
      cases hfull
    | cons x path =>
      cases hhead
      obtain ⟨-, halternate, hends⟩ := (endsAt_cons s kind _ path d).1 hends
      obtain ⟨a, ha⟩ : ∃ a, (path ++ [d]).head? = some a := by cases path <;> exact ⟨_, rfl⟩
      exact ⟨a, halternate.trans ha, path, Nat.le_of_succ_le_succ hlength, ha, hends⟩
  · rintro ⟨a, halternate, path, hlength, hhead, hends⟩
    exact ⟨start :: path, Nat.succ_le_succ hlength, rfl,
      (endsAt_cons s kind start path d).2 ⟨hfull, halternate.trans hhead.symm, hends⟩⟩

theorem chain_iff (s : State) (kind : Option BookingKind) (n : Nat) (start d : Fin 64) :
    s.chain kind n start = some d ↔ Leads s kind n start d := by
  induction n generalizing start with
  | zero =>
    unfold State.chain
    split
    next hcan => rw [leads_of_canTake hcan, Option.some.injEq]
    next hfull => exact iff_of_false (by simp) (not_leads_zero (by simpa using hfull) d)
  | succ n ih =>
    unfold State.chain
    split
    next hcan => rw [leads_of_canTake hcan, Option.some.injEq]
    next hfull =>
      rw [leads_succ (by simpa using hfull)]
      cases (s.destAt start).alternate with
      | none => simp
      | some a => simp [ih]

theorem firstRecord_none {s : State} {c : Ctx} (h : ∀ l ∈ c.links, s.linkRecord l = none) : s.firstRecord c = none :=
  List.findSome?_eq_none_iff.2 h

/-- R154: the first RESOLVED link of a visit gives its record. -/
theorem firstRecord_some {s : State} {c : Ctx} {before after : List Link} {l : Link} {r : Record}
    (hlinks : c.links = before ++ l :: after) (hbefore : ∀ x ∈ before, s.linkRecord x = none)
    (hrecord : s.linkRecord l = some r) : s.firstRecord c = some r := by
  unfold State.firstRecord
  rw [hlinks, List.findSome?_append, List.findSome?_eq_none_iff.2 hbefore, Option.none_or, List.findSome?_cons, hrecord]

/-- R154: where the chain of an ADMIT starts. -/
theorem findDest_admitted {s : State} {c : Ctx} {r : Record} (h : s.firstRecord c = some r) :
    s.findDest c .admitted = s.chain (some r.kind) 4 (r.hint.getD s.dest.defaults[defaultIx r.kind]) := by
  simp only [State.findDest, State.admitStart, State.bookingKind, h, Option.map_some, Option.bind_some]
  cases r.hint <;> rfl

/-- Settles O43: what a destination can take, the chain as a path, and its start by the record of the first RESOLVED link. -/
theorem chainFindsTheFirstThatCanTake : Obligations.ChainFindsTheFirstThatCanTake := by
  refine ⟨canTake_iff, fun s kind start c => ⟨fun d => ?_, rfl, fun before after l r hlinks hbefore hrecord => ?_, fun hnone => ?_⟩⟩
  · rw [chain_iff]
    exact exists_congr fun path => and_congr_right fun _ => by unfold EndsAt; tauto
  · have hfirst := firstRecord_some hlinks hbefore hrecord
    refine ⟨by rw [State.bookingKind, hfirst]; rfl, (findDest_admitted hfirst).trans ?_⟩
    cases r.hint with
    | some x => rfl
    | none =>
      have hstart (k : BookingKind) : s.dest.defaults[defaultIx k] =
          match k with
          | .exportFull => s.dest.defaults[0]
          | .emptyReturn => s.dest.defaults[1]
          | .importFull => s.dest.defaults[2]
          | .emptyPickup => s.dest.defaults[3] := by cases k <;> rfl
      rw [Option.getD_none, hstart]
      generalize r.kind = k
      cases k <;> rfl
  · simp [State.findDest, State.admitStart, State.bookingKind, firstRecord_none hnone]

/-! ### The answer to an ARRIVED_AT (R160) -/

/-- R158: the first entry with a visit number, where no other entry has it. -/
theorem transitOf_eq {s : State} {before after : List TransitEntry} {e : TransitEntry}
    (hlist : s.dest.transit = before ++ e :: after) (hbefore : ∀ x ∈ before, x.visit ≠ e.visit) :
    s.transitOf e.visit = some e := by
  unfold State.transitOf
  have hnone : before.find? (·.visit == e.visit) = none := by simpa [List.find?_eq_none] using hbefore
  rw [hlist, List.find?_append, hnone, Option.none_or, List.find?_cons_of_pos (by simp)]

theorem filter_otherVisits {before after : List TransitEntry} {e : TransitEntry}
    (hothers : ∀ x ∈ before ++ after, x.visit ≠ e.visit) :
    (before ++ e :: after).filter (·.visit != e.visit) = before ++ after := by
  have hkept : (before ++ after).filter (·.visit != e.visit) = before ++ after :=
    List.filter_eq_self.2 fun x hx => by simpa using hothers x hx
  rw [List.filter_append] at hkept ⊢
  rw [List.filter_cons_of_neg (by simp), hkept]

theorem forgetTransit_get (s : State) (visit : BitVec 16) (id : CtxId) :
    (s.forgetTransit visit).ctx id =
      if (s.ctx id).state ≠ .free ∧ (s.ctx id).visit = visit then { s.ctx id with inTransit := false } else s.ctx id :=
  mapAll_get _ _ _

/-- Settles O44: the one entry with the visit number is found and removed; without one the arrival is counted. -/
theorem arrivedAtFreesTheToken : Obligations.ArrivedAtFreesTheToken := by
  intro h visit s hready
  have hexec : exec (.arrivedAt h visit) s = whenRunning s fun s => s.request h 5 (arrivedAnswer visit) := rfl
  constructor
  · rintro before after e hlist rfl hothers
    have hfound : State.transitOf { s with uplink := presence s h } e.visit = some e :=
      transitOf_eq hlist fun x hx => hothers x (List.mem_append_left _ hx)
    have hanswer : arrivedAnswer e.visit { s with uplink := presence s h } =
        (okay false, State.removeTransit { s with uplink := presence s h } e) := by
      unfold arrivedAnswer
      rw [hfound]
      rfl
    refine ⟨_, hexec.trans (request_accepted hready hanswer), ?_, fun id => forgetTransit_get _ _ id⟩
    have htransit : s.dest.transit.filter (·.visit != e.visit) = before ++ after := by
      rw [hlist, filter_otherVisits hothers]
    rw [← htransit]
    rfl
  · intro hnone
    have hanswer : arrivedAnswer visit { s with uplink := presence s h } = (only .unknownVisit,
        { s with
          uplink := presence s h
          dest := { s.dest with counters := { s.dest.counters with
            arrivalsUnknown := bump s.dest.counters.arrivalsUnknown } } }) := by
      have hmissing : State.transitOf { s with uplink := presence s h } visit = none := transitOf_none.2 hnone
      unfold arrivedAnswer
      rw [hmissing]
      rfl
    exact hexec.trans (request_accepted hready hanswer)

end Sys2Proof.Proofs
end

section
/-! PROOFS. What a ruling takes and gives back (R55, R103, R126, R128, R156, R157, R163, R164): the units of the links, the
reservation, the token with its transit entry, and the entry into DECIDED. -/
namespace Sys2Proof.Proofs

open Sys2Proof Sys2Proof.Machine Sys2Proof.Safety Sys2Proof.Laws

/-! ### Units given back (R103, R164) -/

/-- R103: a link whose unit is given back. -/
def givenBack (l : Link) : Link := if l.target.isSome then { l with holdsUnit := false } else l

/-- R103: whether a link holds a unit of a target. -/
def holdsOf (g : Target) (l : Link) : Bool := l.holdsUnit && l.target == some g

theorem modify_between {α : Type} (before after : List α) (x : α) (f : α → α) :
    (before ++ x :: after).modify before.length f = before ++ f x :: after := by
  rw [List.modify_eq_take_cons_drop (by simp)]
  simp

theorem setHeld_less (s : State) (g k : Target) :
    (s.setHeld g (s.targetHeld g - 1)).targetHeld k = if k = g then s.targetHeld g - 1 else s.targetHeld k := by
  cases g with
  | way i y =>
    cases k with
    | way j z =>
      refine (congrArg Entry.held (entry_upd s i y _ j z)).trans ?_
      by_cases h : (j, z) = (i, y)
      · cases h
        simp [State.targetHeld]
      · rw [if_neg h, if_neg fun heq => h (by cases heq; rfl)]
        rfl
    | copy q => rfl
  | copy p =>
    cases k with
    | way j z => rfl
    | copy q =>
      refine (congrArg (fun c : Option PrivateCopy => match c with | some c => c.held | none => 0)
        (copies_upd s p _ q)).trans ?_
      by_cases h : q = p
      · subst h
        rw [if_pos rfl, if_pos rfl]
        unfold State.targetHeld
        dsimp only
        cases s.cache.copies[q] <;> rfl
      · rw [if_neg h, if_neg fun heq => h (by cases heq; rfl)]
        rfl

/-- R103: the unit of one link given back: the link holds none, and its target counts one less where it held one. -/
theorem releaseUnit_spec {s : State} {id : CtxId} {before after : List Link} {l : Link}
    (hlinks : (s.ctx id).links = before ++ l :: after) :
    let t := s.releaseUnit ⟨id, before.length⟩
    t.ctx id = { s.ctx id with links := before ++ givenBack l :: after } ∧
    (∀ g, t.targetRecord g = s.targetRecord g) ∧
    ∀ g, t.targetHeld g = s.targetHeld g - if holdsOf g l then 1 else 0 := by
  have hsame (hl : givenBack l = l) : s.ctx id = { s.ctx id with links := before ++ givenBack l :: after } := by
    rw [hl, ← hlinks]
  have hlink : s.link? ⟨id, before.length⟩ = some l := by
    unfold State.link?
    rw [hlinks]
    simp
  unfold State.releaseUnit
  rw [hlink]
  dsimp only
  cases htarget : l.target with
  | none => exact ⟨hsame (by simp [givenBack, htarget]), fun _ => rfl, fun g => by simp [holdsOf, htarget]⟩
  | some k =>
    dsimp only
    cases hholds : l.holdsUnit with
    | false =>
      have hl : givenBack l = l := by
        unfold givenBack
        rw [← hholds, ite_self]
      exact ⟨hsame hl, fun _ => rfl, fun g => by simp [holdsOf, hholds]⟩
    | true =>
      rw [if_pos rfl]
      have hgiven : givenBack l = { l with holdsUnit := false } := by simp [givenBack, htarget]
      refine ⟨?_, fun g => ?_, fun g => ?_⟩
      · rw [updLink_ctx, if_pos rfl, setHeld_ctx, hlinks, modify_between, hgiven]
      · exact Eq.trans (by cases g <;> rfl) (setHeld_record s k _ g)
      · refine Eq.trans (by cases g <;> rfl) ((setHeld_less s k g).trans ?_)
        by_cases hg : g = k
        · simp [hg, holdsOf, hholds, htarget]
        · simp [hg, Ne.symm hg, holdsOf, htarget]

/-- R103, R164: the units of the links from a place on given back, one link after the other. -/
theorem releaseRest_spec (id : CtxId) (rest : List Link) {before : List Link} {s : State}
    (hlinks : (s.ctx id).links = before ++ rest) :
    let t := (List.range' before.length rest.length).foldl (fun (s : State) k => s.releaseUnit ⟨id, k⟩) s
    t.ctx id = { s.ctx id with links := before ++ rest.map givenBack } ∧
    (∀ g, t.targetRecord g = s.targetRecord g) ∧
    ∀ g, t.targetHeld g = s.targetHeld g - (rest.filter (holdsOf g)).length := by
  induction rest generalizing before s with
  | nil =>
    refine ⟨?_, fun _ => rfl, fun _ => rfl⟩
    show s.ctx id = _
    rw [List.map_nil, ← hlinks]
  | cons l rest ih =>
    obtain ⟨hctx, hrecord, hheld⟩ := releaseUnit_spec hlinks
    have hnext : ((s.releaseUnit ⟨id, before.length⟩).ctx id).links = (before ++ [givenBack l]) ++ rest := by
      rw [hctx, List.append_assoc]
      rfl
    obtain ⟨ictx, irecord, iheld⟩ := ih hnext
    rw [List.length_append] at ictx irecord iheld
    refine ⟨?_, fun g => (irecord g).trans (hrecord g), fun g => (iheld g).trans ?_⟩
    · refine ictx.trans ?_
      rw [hctx, List.append_assoc]
      rfl
    · rw [hheld, List.filter_cons, Nat.sub_sub]
      split
      · rw [List.length_cons, Nat.add_comm]
      · rw [Nat.zero_add]

/-- R103, R164: the units of a visit given back: of each target as many as its links held. -/
theorem releaseUnits_spec (s : State) (id : CtxId) :
    let t := s.releaseUnits id
    t.ctx id = { s.ctx id with links := (s.ctx id).links.map givenBack } ∧
    (∀ g, t.targetRecord g = s.targetRecord g) ∧
    ∀ g, t.targetHeld g = s.targetHeld g - ((s.ctx id).links.filter (holdsOf g)).length := by
  have hfold : s.releaseUnits id =
      (List.range' 0 (s.ctx id).links.length).foldl (fun (s : State) k => s.releaseUnit ⟨id, k⟩) s := by
    unfold State.releaseUnits Work.refsOf
    rw [List.foldl_map, List.range_eq_range']
  rw [hfold]
  exact releaseRest_spec id (s.ctx id).links (before := []) rfl

/-- Of links of different targets, one that names a target is the only one that may hold a unit of it. -/
theorem holders_length {links : List Link} (hnodup : (links.filterMap (·.target)).Nodup) {l : Link} (hl : l ∈ links)
    {g : Target} (hg : l.target = some g) : (links.filter (holdsOf g)).length = if l.holdsUnit then 1 else 0 := by
  obtain ⟨before, after, rfl⟩ := List.append_of_mem hl
  rw [List.filterMap_append, List.filterMap_cons_some hg, List.nodup_middle, List.nodup_cons, ← List.filterMap_append] at hnodup
  have hothers : (before ++ after).filter (holdsOf g) = [] := by
    rw [List.filter_eq_nil_iff]
    intro k hk hholds
    refine hnodup.1 (List.mem_filterMap.2 ⟨k, hk, ?_⟩)
    simpa using (Bool.and_eq_true_iff.1 hholds).2
  rw [List.filter_append, List.append_eq_nil_iff] at hothers
  rw [List.filter_append, List.filter_cons, hothers.1, hothers.2]
  simp only [holdsOf, hg, beq_self_eq_true, Bool.and_true]
  split <;> rfl

theorem releaseUnits_givenBack (s : State) (id : CtxId) : UnitsGivenBack s (s.releaseUnits id) id := by
  obtain ⟨hctx, -, hheld⟩ := releaseUnits_spec s id
  intro hnodup
  refine ⟨by rw [hctx]; rfl, fun l hl g hg => ?_⟩
  rw [hheld, holders_length hnodup hl hg]
  split <;> rfl

/-- R154: the units held do not change the booking kind of a visit. -/
theorem releaseUnits_bookingKind (s : State) (id : CtxId) :
    (s.releaseUnits id).bookingKind ((s.releaseUnits id).ctx id) = s.bookingKind (s.ctx id) := by
  obtain ⟨hctx, hrecord, -⟩ := releaseUnits_spec s id
  have hlink (l : Link) : (s.releaseUnits id).linkRecord (givenBack l) = s.linkRecord l := by
    have hstate : (givenBack l).state = l.state := by unfold givenBack; split <;> rfl
    have htarget : (givenBack l).target = l.target := by unfold givenBack; split <;> rfl
    unfold State.linkRecord
    rw [hstate, htarget]
    split
    · exact hrecord _
    · rfl
  unfold State.bookingKind State.firstRecord
  rw [hctx, List.findSome?_map]
  exact congrArg (fun f => ((s.ctx id).links.findSome? f).map (·.kind)) (funext hlink)

theorem setHeld_uncached (s : State) (g : Target) (n : Nat) : (s.setHeld g n).cache.uncached = s.cache.uncached := by
  cases g <;> rfl

theorem releaseUnits_uncached (s : State) (id : CtxId) : (s.releaseUnits id).cache.uncached = s.cache.uncached := by
  refine foldl_keeps (fun t : State => t.cache.uncached) _ (fun t r => ?_) _ _
  unfold State.releaseUnit
  repeat' split
  · rfl
  · exact setHeld_uncached _ _ _
  · rfl
  · rfl

theorem takeUnits_uncached (s : State) (id : CtxId) : (s.takeUnits id).cache.uncached = s.cache.uncached := by
  rw [(takeUnits_unitsOnly s id).cache]

theorem unitsGivenBack_congr {s s' t t' : State} {id : CtxId} (hs : s'.cache = s.cache) (ht : t'.cache = t.cache)
    (hlinks : (s'.ctx id).links = (s.ctx id).links) (hlinks' : (t'.ctx id).links = (t.ctx id).links)
    (h : UnitsGivenBack s t id) : UnitsGivenBack s' t' id := by
  have hheld : s'.targetHeld = s.targetHeld := funext (targetHeld_congr s s' hs)
  have hheld' : t'.targetHeld = t.targetHeld := funext (targetHeld_congr t t' ht)
  simpa only [UnitsGivenBack, hlinks, hlinks', hheld, hheld'] using h

/-! ### The reservation (R128) -/

theorem windowReturned_congr {s s' t t' : State} {id : CtxId} (hs : s'.slot = s.slot) (ht : t'.slot = t.slot)
    (hreservation : (s'.ctx id).reservation = (s.ctx id).reservation) (h : WindowReturned s t id) : WindowReturned s' t' id := by
  have hday {u u' : State} (hu : u'.slot = u.slot) (i : DayIx) : u'.dayTable i = u.dayTable i := by
    cases i <;> simp only [State.dayTable, hu]
  have hplace (d : BitVec 16) (w : Nat) : s'.windowPlace d w = s.windowPlace d w :=
    windowPlace_congr s s' (fun i => by rw [hday hs]) d w
  have hwindow (p : DayIx × Fin 96) : s'.windowAt p = s.windowAt p := by simp only [State.windowAt, hday hs]
  have hwindow' (p : DayIx × Fin 96) : t'.windowAt p = t.windowAt p := by simp only [State.windowAt, hday ht]
  simpa only [WindowReturned, hs, ht, hreservation, hplace, hwindow, hwindow'] using h

/-! ### The token and the destination (R156, R157) -/

theorem displace_rulings (s : State) (e : TransitEntry) :
    (s.displace e).dest.counters.rulingsApplied = s.dest.counters.rulingsApplied := by
  rw [(displace_dest s e).2]

theorem sendTo_rulings (s : State) (id : CtxId) (x : Fin 64) :
    (s.sendTo id x).dest.counters.rulingsApplied = s.dest.counters.rulingsApplied := by
  have hown (s : State) (visit : BitVec 16) :
      (ownDisplaced s visit).dest.counters.rulingsApplied = s.dest.counters.rulingsApplied := by
    unfold ownDisplaced
    split
    · exact displace_rulings s _
    · rfl
  have holdest (s : State) : (oldestDisplaced s).dest.counters.rulingsApplied = s.dest.counters.rulingsApplied := by
    unfold oldestDisplaced
    split
    · split
      · exact displace_rulings s _
      · rfl
    · rfl
  exact (holdest _).trans (hown _ _)

/-- Two states agree on what `Routed` reads for one context. -/
structure SameRoute (s s' : State) (id : CtxId) : Prop where
  transit : s'.dest.transit = s.dest.transit
  dests : s'.dest.dests = s.dest.dests
  visit : (s'.ctx id).visit = (s.ctx id).visit
  inTransit : (s'.ctx id).inTransit = (s.ctx id).inTransit
  destination : (s'.ctx id).destination = (s.ctx id).destination

theorem routed_sameRoute {s s' t t' : State} {id : CtxId} {dst : Option (Fin 64)} (h : SameRoute s s' id)
    (k : SameRoute t t' id) (r : Routed s t id dst) : Routed s' t' id dst := by
  have hd : s'.destAt = s.destAt := by funext y; simp only [State.destAt, h.dests]
  have kd : t'.destAt = t.destAt := by funext y; simp only [State.destAt, k.dests]
  simpa only [Routed, h.transit, h.dests, h.visit, h.inTransit, k.transit, k.dests, k.inTransit, k.destination, hd, kd] using r

theorem sendTo_routed (s : State) (id : CtxId) (x : Fin 64) : Routed s (s.sendTo id x) id (some x) := by
  obtain ⟨hown, -, -, hentry⟩ := sendTo_spec s id x
  refine ⟨fun y hy => ?_, fun h => nomatch h⟩
  cases hy
  exact ⟨by rw [hown], by rw [hown], hentry⟩

/-- R164: the way out of a TURN_OUT: to its override, or by the trouble route. -/
def turnOutTo (s : State) (id : CtxId) : Option (Fin 64) → State
  | some x => s.sendTo id x
  | none => s.turnOutRoute id

/-- R156, R164: where the way out of a TURN_OUT leads, if anywhere. -/
def turnOutDest (s : State) (id : CtxId) (override : Option (Fin 64)) : Option (Fin 64) :=
  override.or (s.chain (s.bookingKind (s.ctx id)) 4 s.dest.defaults[5])

/-- R156, R157, R164: the way out takes a token where it leads to a destination; else the visit is bound for the start of the
trouble route, without one. -/
theorem turnOutTo_spec (s : State) (id : CtxId) (override : Option (Fin 64)) :
    let found := turnOutDest s id override
    let t := turnOutTo s id override
    Routed s t id found ∧
    t.ctx id = { s.ctx id with
      destination := some (found.getD s.dest.defaults[5]), inTransit := (t.ctx id).inTransit } ∧
    t.dest.defaults = s.dest.defaults ∧ t.dest.counters.rulingsApplied = s.dest.counters.rulingsApplied := by
  have hsent (x : Fin 64) : Routed s (s.sendTo id x) id (some x) ∧
      (s.sendTo id x).ctx id = { s.ctx id with
        destination := some x, inTransit := ((s.sendTo id x).ctx id).inTransit } ∧
      (s.sendTo id x).dest.defaults = s.dest.defaults ∧
      (s.sendTo id x).dest.counters.rulingsApplied = s.dest.counters.rulingsApplied := by
    obtain ⟨hown, -, hdefaults, -⟩ := sendTo_spec s id x
    exact ⟨sendTo_routed s id x, by rw [hown], hdefaults, sendTo_rulings s id x⟩
  cases override with
  | some x => exact hsent x
  | none =>
    have hroute : turnOutTo s id none =
        match s.chain (s.bookingKind (s.ctx id)) 4 s.dest.defaults[5] with
        | some d => s.sendTo id d
        | none => (s.updCtx id fun c => { c with destination := some s.dest.defaults[5] }).countDest fun k =>
            { k with tokensWithout := bump k.tokensWithout } := rfl
    have hfound : turnOutDest s id none = s.chain (s.bookingKind (s.ctx id)) 4 s.dest.defaults[5] := rfl
    dsimp only
    rw [hroute, hfound]
    cases s.chain (s.bookingKind (s.ctx id)) 4 s.dest.defaults[5] with
    | some x => exact hsent x
    | none =>
      have hctx : ((s.updCtx id fun c => { c with destination := some s.dest.defaults[5] }).countDest fun k =>
          { k with tokensWithout := bump k.tokensWithout }).ctx id =
          { s.ctx id with destination := some s.dest.defaults[5] } := by simp [State.countDest]
      dsimp only
      rw [hctx]
      exact ⟨⟨fun _ h => (by cases h), fun _ => ⟨by rw [hctx], rfl, rfl⟩⟩, rfl, rfl, rfl⟩

/-! ### REFERRED left (R55) -/

/-- R175: the printers and the tickets are the same, and so is what the context is known by. -/
theorem ticketed_congr {s s' t : State} {id : CtxId} (hstations : s'.stations = s.stations) (hsigns : s'.signs = s.signs)
    (hparams : s'.params = s.params) (hlane : (s'.ctx id).lane = (s.ctx id).lane)
    (hvisit : (s'.ctx id).visit = (s.ctx id).visit) (hticket : (s'.ctx id).flags.noTicket = (s.ctx id).flags.noTicket)
    (h : Ticketed s t id) : Ticketed s' t id := by
  have hstation (j : StationIx) : s'.station j = s.station j := by unfold State.station; rw [hstations]
  simpa only [Ticketed, PrinterOf, hstation, hsigns, hparams, hlane, hvisit, hticket] using h

/-- R53 to R55: what a REFERRED context that leaves with its decision becomes. -/
def released (s : State) (c : Ctx) : Ctx :=
  { c with
    rulingTimer := none, noticePending := false, decisionMinute := some s.now
    state := if s.reads c.lane .barrierDown = true then .releasing else .decided }

theorem leaveReferred_ctx (s : State) (id : CtxId) :
    (s.leaveReferred id).ctx id = { released s (s.ctx id) with
      flags := { (s.ctx id).flags with noTicket := ((s.leaveReferred id).ctx id).flags.noTicket } } := by
  unfold State.leaveReferred
  dsimp only
  rw [enterDecided_ctx]
  simp [released, State.now, State.reads]
  exact if_congr Iff.rfl rfl rfl

/-- R55, R175: the ticket of a context that leaves REFERRED for an ADMIT or an INSPECT. -/
theorem leaveReferred_ticketed (s : State) (id : CtxId)
    (h : (s.ctx id).decision = some .admitted ∨ (s.ctx id).decision = some .inspect) :
    Ticketed s (s.leaveReferred id) id := by
  obtain ⟨u, hu⟩ : ∃ u : State, u = (s.unwait (.referNotice id)).updCtx id fun c => { c with
      rulingTimer := none, noticePending := false, decisionMinute := some (s.unwait (.referNotice id)).now } := ⟨_, rfl⟩
  have hleft : s.leaveReferred id = u.enterDecided id := by rw [hu]; rfl
  have hctx : u.ctx id = { s.ctx id with
      rulingTimer := none, noticePending := false, decisionMinute := some (s.unwait (.referNotice id)).now } := by
    rw [hu]
    simp
  rw [hleft]
  refine ticketed_congr (s := u) ?_ ?_ ?_ ?_ ?_ ?_ (enterDecided_ticketed u id (by rw [hctx]; exact h))
  · rw [hu]; rfl
  · rw [hu]; rfl
  · rw [hu]; rfl
  · rw [hctx]
  · rw [hctx]
  · rw [hctx]

theorem leaveReferred_configured (s : State) (id : CtxId) : Configured s (s.leaveReferred id) := by
  have hphrases : (s.leaveReferred id).signs.phrases = s.signs.phrases := by
    unfold State.leaveReferred
    rw [enterDecided_phrases]
    rfl
  exact ⟨by simp, by simp, by simp, hphrases, by simp, by simp, by simp⟩

end Sys2Proof.Proofs
end

section
/-! PROOFS. The answer to a VISIT_RULING (R162 to R164): the conditions in their order, a ruling applied to a REFERRED visit, and a
turn-out. -/
namespace Sys2Proof.Proofs

open Sys2Proof Sys2Proof.Machine Sys2Proof.Safety Sys2Proof.Laws

/-! ### What every applied ruling leaves (R55, R162) -/

theorem now_of_clock {s t : State} (h : t.slot.clock = s.slot.clock) : t.now = s.now := by
  simp only [State.now, h]

theorem reads_congr {s t : State} (h : t.lanes = s.lanes) (l : LaneId) (i : Input) : t.reads l i = s.reads l i := by
  simp only [State.reads, State.lane, h]

/-- R55, R162: a visit that a ruling takes out of REFERRED with a decision, counted. -/
def Ruled (s t : State) (id : CtxId) (d : Decision) : Prop :=
  Configured s t ∧ t.lanes = s.lanes ∧ t.dest.counters.rulingsApplied = bump s.dest.counters.rulingsApplied ∧
  (t.ctx id).decision = some d ∧ (t.ctx id).rulingTimer = none ∧ (t.ctx id).noticePending = false ∧
  (t.ctx id).decisionMinute = some s.now ∧ (t.ctx id).reasons = (s.ctx id).reasons ∧
  (t.ctx id).state = if s.reads (s.ctx id).lane .barrierDown then .releasing else .decided

/-- R55: REFERRED is left by a visit that has its new decision. -/
theorem ruled_leaveReferred {s u : State} {id : CtxId} {d : Decision} (hconfigured : Configured s u) (hlanes : u.lanes = s.lanes)
    (hcounted : u.dest.counters.rulingsApplied = bump s.dest.counters.rulingsApplied)
    (hdecision : (u.ctx id).decision = some d) (hreasons : (u.ctx id).reasons = (s.ctx id).reasons)
    (hlane : (u.ctx id).lane = (s.ctx id).lane) : Ruled s (u.leaveReferred id) id d := by
  have hnow : u.now = s.now := by
    obtain ⟨-, -, -, -, -, hclock, -⟩ := hconfigured
    exact now_of_clock hclock
  refine ⟨Configured.trans hconfigured (leaveReferred_configured u id), by simp [hlanes], by simp [hcounted], ?_⟩
  rw [leaveReferred_ctx]
  refine ⟨hdecision, rfl, rfl, congrArg some hnow, hreasons, ?_⟩
  show (if u.reads (u.ctx id).lane .barrierDown = true then CtxState.releasing else .decided) = _
  rw [hlane, reads_congr hlanes]

theorem leaveReferred_alike (u : State) (id : CtxId) : Alike u (u.leaveReferred id) id := by
  refine ⟨by simp, by simp, by simp, fun i => by cases i <;> simp [State.dayTable], ?_⟩
  rw [leaveReferred_ctx]
  exact ⟨rfl, rfl, rfl, rfl, rfl, rfl⟩

theorem leaveReferred_overrideAdmission (u : State) (id : CtxId) :
    ((u.leaveReferred id).ctx id).flags.overrideAdmission = (u.ctx id).flags.overrideAdmission := by
  rw [leaveReferred_ctx]

/-! ### A ruling of ADMIT or INSPECT (R163) -/

/-- R163: the ruling counted, and the visit with its decision. -/
def ruledIn (s : State) (id : CtxId) (d : Decision) : State :=
  s.rulingApplied.updCtx id fun c =>
    { c with
      decision := some d
      flags := { c.flags with
        overrideAdmission := c.flags.overrideAdmission || (d == .admitted && c.reservation.isNone) } }

theorem ruledIn_ctx (s : State) (id : CtxId) (d : Decision) :
    (ruledIn s id d).ctx id = { s.ctx id with
      decision := some d
      flags := { (s.ctx id).flags with
        overrideAdmission := (s.ctx id).flags.overrideAdmission || (d == .admitted && (s.ctx id).reservation.isNone) } } := by
  unfold ruledIn
  rw [State.ctx_updCtx, if_pos rfl]
  rfl

@[simp] theorem ruledIn_frame (s : State) (id : CtxId) (d : Decision) :
    (ruledIn s id d).stations = s.stations ∧ (ruledIn s id d).lanes = s.lanes ∧ (ruledIn s id d).slot = s.slot ∧
    (ruledIn s id d).check = s.check ∧ (ruledIn s id d).signs = s.signs ∧ (ruledIn s id d).params = s.params ∧
    (ruledIn s id d).resetHeld = s.resetHeld ∧ (ruledIn s id d).cache = s.cache :=
  ⟨rfl, rfl, rfl, rfl, rfl, rfl, rfl, rfl⟩

/-- R163: the visit on its way to its destination, with its units, still REFERRED. -/
def sentIn (s : State) (id : CtxId) (d : Decision) (x : Fin 64) : State := ((ruledIn s id d).sendTo id x).takeUnits id

theorem ruleIn_eq (s : State) (id : CtxId) (d : Decision) (x : Fin 64) :
    s.rulingApplied.ruleIn id d x = (sentIn s id d x).leaveReferred id := rfl

section RuleIn

variable (s : State) (id : CtxId) (d : Decision) (x : Fin 64)

theorem sentIn_parts :
    Routed (ruledIn s id d) (sentIn s id d x) id (some x) ∧ Reserved (ruledIn s id d) (sentIn s id d x) id none ∧
    UnitsTaken (ruledIn s id d) (sentIn s id d x) id true ∧ PartsOnly (ruledIn s id d) (sentIn s id d x) id := by
  obtain ⟨hrouted, hreserved, hunits, hparts, -⟩ := parts_spec (ruledIn s id d) id (some x) none _ rfl (sentIn s id d x) rfl
  exact ⟨hrouted, hreserved, hunits, hparts⟩

theorem sentIn_dest : (sentIn s id d x).dest = ((ruledIn s id d).sendTo id x).dest := by simp [sentIn]

theorem sentIn_configured : Configured s (sentIn s id d x) := by
  obtain ⟨-, -, hdefaults, -⟩ := sendTo_spec (ruledIn s id d) id x
  refine ⟨by simp [sentIn], by simp [sentIn], ?_, by simp [sentIn], ?_, by simp [sentIn], by simp [sentIn]⟩
  · rw [sentIn_dest, hdefaults]
    rfl
  · unfold sentIn
    rw [takeUnits_uncached]
    simp

theorem sentIn_rulings : (sentIn s id d x).dest.counters.rulingsApplied = bump s.dest.counters.rulingsApplied := by
  rw [sentIn_dest, sendTo_rulings]
  rfl

/-- R163: the ruling sends the visit to its destination with its units; a ticket is issued, no reservation is taken. -/
theorem ruleIn_spec (hd : d = .admitted ∨ d = .inspect) :
    let t := s.rulingApplied.ruleIn id d x
    Ruled s t id d ∧ (t.ctx id).destination = some x ∧ Routed s t id (some x) ∧ UnitsTaken s t id true ∧ Ticketed s t id ∧
    (t.ctx id).reservation = (s.ctx id).reservation ∧
    ((t.ctx id).flags.overrideAdmission = true ↔
      (s.ctx id).flags.overrideAdmission = true ∨ (d = .admitted ∧ (s.ctx id).reservation = none)) := by
  obtain ⟨hrouted, hreserved, hunits, hparts, -⟩ := sentIn_parts s id d x
  obtain ⟨hreservation, -, -⟩ := hreserved.2 rfl
  have hconfigured := sentIn_configured s id d x
  have hcounted := sentIn_rulings s id d x
  have hlanes : (sentIn s id d x).lanes = s.lanes := by simp [sentIn]
  have hstations : s.stations = (sentIn s id d x).stations := by simp [sentIn]
  have hsigns : s.signs = (sentIn s id d x).signs := by simp [sentIn]
  have hparams : s.params = (sentIn s id d x).params := by simp [sentIn]
  have hctx := ruledIn_ctx s id d
  have hstart : Alike (ruledIn s id d) s id := by
    refine ⟨rfl, rfl, rfl, fun _ => rfl, ?_⟩
    rw [hctx]
    exact ⟨rfl, rfl, rfl, rfl, rfl, rfl⟩
  rw [ruleIn_eq]
  generalize ruledIn s id d = r at *
  generalize sentIn s id d x = u at *
  have hend := leaveReferred_alike u id
  have hroute := routed_congr hstart hend hrouted
  obtain ⟨-, -, -, -, -, -, -, -, hkept, -⟩ := leaveReferred_alike u id
  have hticketed := leaveReferred_ticketed u id (by
    rw [hparts, hctx]
    exact hd.imp (congrArg some) (congrArg some))
  refine ⟨ruled_leaveReferred hconfigured hlanes hcounted (by rw [hparts, hctx]) (by rw [hparts, hctx]) (by rw [hparts, hctx]),
    (hroute.1 x rfl).1, hroute, unitsTaken_congr hstart hend hunits,
    ticketed_congr hstations hsigns hparams (by rw [hparts, hctx]) (by rw [hparts, hctx]) (by rw [hparts, hctx]) hticketed, ?_, ?_⟩
  · rw [hkept, hreservation, hctx]
  · rw [leaveReferred_overrideAdmission, hparts, hctx]
    simp

end RuleIn

/-! ### A ruling of TURN_OUT (R164) -/

/-- R164: the ruling counted, and the visit with its decision. -/
def ruledOut (s : State) (id : CtxId) : State := s.rulingApplied.updCtx id fun c => { c with decision := some .turnOut }

theorem ruledOut_ctx (s : State) (id : CtxId) : (ruledOut s id).ctx id = { s.ctx id with decision := some .turnOut } := by
  unfold ruledOut
  rw [State.ctx_updCtx, if_pos rfl]
  rfl

@[simp] theorem ruledOut_frame (s : State) (id : CtxId) :
    (ruledOut s id).stations = s.stations ∧ (ruledOut s id).lanes = s.lanes ∧ (ruledOut s id).slot = s.slot ∧
    (ruledOut s id).check = s.check ∧ (ruledOut s id).signs = s.signs ∧ (ruledOut s id).params = s.params ∧
    (ruledOut s id).resetHeld = s.resetHeld ∧ (ruledOut s id).cache = s.cache :=
  ⟨rfl, rfl, rfl, rfl, rfl, rfl, rfl, rfl⟩

/-- R164: the reservation and the units of the visit given back. -/
def vacated (s : State) (id : CtxId) : State := ((ruledOut s id).releaseSlot id).releaseUnits id

/-- R164: the visit on its way out, still REFERRED. -/
def sentOut (s : State) (id : CtxId) (override : Option (Fin 64)) : State := turnOutTo (vacated s id) id override

theorem turnOut_eq (s : State) (id : CtxId) (override : Option (Fin 64)) :
    s.rulingApplied.turnOut id override = (sentOut s id override).leaveReferred id := by
  cases override <;> rfl

section TurnOut

variable (s : State) (id : CtxId) (override : Option (Fin 64))

theorem vacated_ctx : (vacated s id).ctx id = { s.ctx id with
    decision := some .turnOut, reservation := none, links := (s.ctx id).links.map givenBack } := by
  obtain ⟨hunits, -, -⟩ := releaseUnits_spec ((ruledOut s id).releaseSlot id) id
  obtain ⟨-, -, -, hslot⟩ := releaseSlot_spec (ruledOut s id) id
  unfold vacated
  rw [hunits, hslot, if_pos rfl, ruledOut_ctx]

theorem vacated_dest : (vacated s id).dest = s.rulingApplied.dest := by
  unfold vacated
  simp
  rfl

theorem vacated_window : WindowReturned s (vacated s id) id := by
  obtain ⟨hwindow, -, -, -⟩ := releaseSlot_spec (ruledOut s id) id
  exact windowReturned_congr (by simp) (by simp [vacated]) (by rw [ruledOut_ctx]) hwindow

theorem vacated_units : UnitsGivenBack s (vacated s id) id := by
  obtain ⟨-, -, hcache, hctx⟩ := releaseSlot_spec (ruledOut s id) id
  refine unitsGivenBack_congr (by rw [hcache]; rfl) rfl ?_ rfl (releaseUnits_givenBack ((ruledOut s id).releaseSlot id) id)
  rw [hctx, if_pos rfl, ruledOut_ctx]

theorem vacated_bookingKind : (vacated s id).bookingKind ((vacated s id).ctx id) = s.bookingKind (s.ctx id) := by
  obtain ⟨-, -, hcache, hctx⟩ := releaseSlot_spec (ruledOut s id) id
  refine (releaseUnits_bookingKind _ id).trans (bookingKind_congr s _ _ _ (by rw [hcache]; rfl) ?_)
  rw [hctx, if_pos rfl, ruledOut_ctx]

theorem vacated_configured : Configured s (vacated s id) := by
  obtain ⟨-, hclock, -⟩ := vacated_window s id
  refine ⟨by simp [vacated], by simp [vacated], by rw [vacated_dest]; rfl, by simp [vacated], ?_, hclock, by simp [vacated]⟩
  unfold vacated
  rw [releaseUnits_uncached]
  simp

theorem vacated_turnOutDest :
    turnOutDest (vacated s id) id override = override.or (s.chain (s.bookingKind (s.ctx id)) 4 s.dest.defaults[5]) := by
  unfold turnOutDest
  rw [vacated_bookingKind, vacated_dest, chain_congr s (vacated s id) (by rw [vacated_dest]; rfl)]
  rfl

@[simp] theorem turnOutTo_frame (s : State) :
    (turnOutTo s id override).lanes = s.lanes ∧ (turnOutTo s id override).cache = s.cache ∧
    (turnOutTo s id override).slot = s.slot ∧ (turnOutTo s id override).check = s.check ∧
    (turnOutTo s id override).signs = s.signs ∧ (turnOutTo s id override).params = s.params ∧
    (turnOutTo s id override).resetHeld = s.resetHeld := by
  cases override <;> simp [turnOutTo]

/-- R164: the ruling gives the reservation and the units back and sends the visit out. -/
theorem turnOut_spec :
    let found := override.or (s.chain (s.bookingKind (s.ctx id)) 4 s.dest.defaults[5])
    let t := s.rulingApplied.turnOut id override
    Ruled s t id .turnOut ∧ (t.ctx id).reservation = none ∧ (t.ctx id).destination = some (found.getD s.dest.defaults[5]) ∧
    Routed s t id found ∧ UnitsGivenBack s t id ∧ WindowReturned s t id := by
  have hspec := turnOutTo_spec (vacated s id) id override
  have hframe := turnOutTo_frame id override (vacated s id)
  have hctx := vacated_ctx s id
  have hdest := vacated_dest s id
  have hunits := vacated_units s id
  have hwindow := vacated_window s id
  have hconfigured := vacated_configured s id
  have hlanes : (vacated s id).lanes = s.lanes := by simp [vacated]
  dsimp only at hspec
  rw [vacated_turnOutDest] at hspec
  rw [turnOut_eq]
  unfold sentOut
  generalize override.or (s.chain (s.bookingKind (s.ctx id)) 4 s.dest.defaults[5]) = found at *
  generalize vacated s id = e at *
  generalize turnOutTo e id override = u at *
  obtain ⟨hrouted, hbound, hdefaults, hcount⟩ := hspec
  obtain ⟨flanes, fcache, fslot, fcheck, fsigns, fparams, freset⟩ := hframe
  have hstep : Configured e u :=
    ⟨fparams, by rw [fcheck], hdefaults, by rw [fsigns], by rw [fcache], by rw [fslot], freset⟩
  have hroute : SameRoute e s id := ⟨by rw [hdest]; rfl, by rw [hdest]; rfl, by rw [hctx], by rw [hctx], by rw [hctx]⟩
  obtain ⟨htransit, hdests, hcache, -, hvisit, hinTransit, hdestination, hlinks, hreservation, -⟩ := leaveReferred_alike u id
  refine ⟨ruled_leaveReferred (Configured.trans hconfigured hstep) (flanes.trans hlanes) ?_ ?_ ?_ ?_, ?_, ?_,
    routed_sameRoute hroute ⟨htransit, hdests, hvisit, hinTransit, hdestination⟩ hrouted,
    unitsGivenBack_congr rfl (hcache.trans fcache) rfl ?_ hunits, windowReturned_congr rfl ?_ rfl hwindow⟩
  · rw [hcount, hdest]
    rfl
  · rw [hbound, hctx]
  · rw [hbound, hctx]
  · rw [hbound, hctx]
  · rw [hreservation, hbound, hctx]
  · rw [hdestination, hbound, hdest]
    rfl
  · rw [hlinks, hbound]
  · simp [fslot]

end TurnOut

/-! ### The conditions of a VISIT_RULING (R162) -/

theorem rulingOf_none {b : Byte} (h : 2 < b.toNat) : rulingOf b = none := by
  unfold rulingOf
  split
  next h0 => omega
  next h1 => omega
  next h2 => omega
  next => rfl

theorem rulingOf_cases {b : Byte} {d : Decision} (h : rulingOf b = some d) : (d = .admitted ∨ d = .inspect) ∨ d = .turnOut := by
  unfold rulingOf at h
  split at h
  next => exact .inl (.inl (Option.some.inj h).symm)
  next => exact .inl (.inr (Option.some.inj h).symm)
  next => exact .inr (Option.some.inj h).symm
  next => cases h

theorem visitCtx_none {s : State} {visit : BitVec 16} (h : ∀ id, (s.ctx id).state ≠ .free → (s.ctx id).visit ≠ visit) :
    s.visitCtx visit = none := by
  unfold State.visitCtx
  simpa [List.find?_eq_none] using h

/-- R162: the visit number names the one context that holds it. -/
theorem visitCtx_some {s : State} {visit : BitVec 16} {id : CtxId} (hvisit : (s.ctx id).visit = visit)
    (hheld : (s.ctx id).state ≠ .free) (hone : ∀ j, (s.ctx j).state ≠ .free → (s.ctx j).visit = visit → j = id) :
    s.visitCtx visit = some id := by
  unfold State.visitCtx
  cases hfind : (List.finRange 24).find? fun i => (s.ctx i).state != .free && (s.ctx i).visit == visit with
  | none => simpa [hheld, hvisit] using List.find?_eq_none.1 hfind id (List.mem_finRange id)
  | some j =>
    have hj := List.find?_some hfind
    simp only [Bool.and_eq_true, bne_iff_ne, beq_iff_eq] at hj
    obtain ⟨hfree, hsame⟩ := hj
    rw [hone j hfree hsame]

section RulingAnswer

variable {s : State} {visit : BitVec 16} {ruling dest : Byte} {d : Decision} {override : Option (Fin 64)} {id : CtxId}

theorem rulingAnswer_bad (h : 2 < ruling.toNat ∨ (64 ≤ dest.toNat ∧ dest.toNat ≠ 255)) :
    rulingAnswer visit ruling dest s = refuse s .badValue := by
  unfold rulingAnswer
  obtain h | ⟨hle, hne⟩ := h
  · rw [rulingOf_none h]
  · rw [hintOf_none hle hne]
    cases rulingOf ruling <;> rfl

theorem rulingAnswer_unknown (hruling : rulingOf ruling = some d) (hdest : hintOf dest = some override)
    (h : s.visitCtx visit = none) : rulingAnswer visit ruling dest s = refuse s .unknownVisit := by
  unfold rulingAnswer
  rw [hruling, hdest]
  dsimp only
  rw [h]

theorem rulingAnswer_found (hruling : rulingOf ruling = some d) (hdest : hintOf dest = some override)
    (h : s.visitCtx visit = some id) : rulingAnswer visit ruling dest s =
      if (s.ctx id).state = .referred then s.rule id d override
      else ({ status := .denied, detail := .state (s.ctx id).state }, s.rulingDenied) := by
  unfold rulingAnswer
  rw [hruling, hdest]
  dsimp only
  rw [h]

/-- R163: an ADMIT or INSPECT without an override is denied where the chain finds no destination. -/
theorem rule_noDestination (hd : d = .admitted ∨ d = .inspect) (h : s.findDest (s.ctx id) d = none) :
    s.rule id d none = ({ status := .denied, detail := .noDestination }, s.rulingDenied) := by
  obtain rfl | rfl := hd <;>
  · unfold State.rule
    dsimp only
    rw [h]

/-- R163: an ADMIT or INSPECT is applied to its override, or to the destination that the chain finds. -/
theorem rule_in (hd : d = .admitted ∨ d = .inspect) {x : Fin 64}
    (h : override = some x ∨ (override = none ∧ s.findDest (s.ctx id) d = some x)) :
    s.rule id d override = (okay false, s.rulingApplied.ruleIn id d x) := by
  obtain rfl | ⟨rfl, hfind⟩ := h
  · obtain rfl | rfl := hd <;> rfl
  · obtain rfl | rfl := hd <;>
    · unfold State.rule
      dsimp only
      rw [hfind]
      rfl

theorem rule_out : s.rule id .turnOut override = (okay false, s.rulingApplied.turnOut id override) := rfl

end RulingAnswer

/-- Settles O45: the conditions in their order, and each ruling that is applied by what it does to the visit. -/
theorem rulingsAreAppliedInOrder : Obligations.RulingsAreAppliedInOrder := by
  intro h visit ruling dest s hready
  have hexec : exec (.visitRuling h visit ruling dest) s =
      whenRunning s fun s => s.request h 4 (rulingAnswer visit ruling dest) := rfl
  refine ⟨fun hbad => hexec.trans (request_refused hready (rulingAnswer_bad hbad)), fun d override hruling hdest =>
    ⟨fun hnone => hexec.trans (request_refused hready (rulingAnswer_unknown hruling hdest (visitCtx_none hnone))),
      fun id hvisit hheld hone => ?_⟩⟩
  obtain ⟨v, hv⟩ : ∃ v : State, v = { s with uplink := presence s h } := ⟨_, rfl⟩
  have hfound : rulingAnswer visit ruling dest v = if (s.ctx id).state = .referred then v.rule id d override
      else ({ status := .denied, detail := .state (s.ctx id).state }, v.rulingDenied) := by
    rw [hv]
    exact rulingAnswer_found hruling hdest (visitCtx_some hvisit hheld hone)
  have hanswer {a : Answer} {t : State} (hact : rulingAnswer visit ruling dest v = (a, t)) :
      exec (.visitRuling h visit ruling dest) s = .next { t with uplink := made t.uplink (response h 4 a) } := by
    rw [hv] at hact
    exact hexec.trans (request_accepted hready hact)
  have hfind : v.findDest (v.ctx id) d = s.findDest (s.ctx id) d := by
    rw [hv]
    exact findDest_congr s _ _ _ rfl rfl rfl rfl d
  have hadmits (hd : d ≠ .turnOut) : d = .admitted ∨ d = .inspect := (rulingOf_cases hruling).resolve_right hd
  refine ⟨fun hstate => ?_, fun hstate hd hoverride hnone => ?_, fun hstate hd x hx => ?_, fun hstate hd => ?_⟩
  · rw [if_neg hstate] at hfound
    refine (hanswer hfound).trans ?_
    rw [hv]
    rfl
  · rw [if_pos hstate, hoverride, rule_noDestination (hadmits hd) (hfind.trans hnone)] at hfound
    refine (hanswer hfound).trans ?_
    rw [hv]
    rfl
  · rw [if_pos hstate, rule_in (hadmits hd) (by rwa [hfind])] at hfound
    obtain ⟨hruled, hspec⟩ := ruleIn_spec v id d x (hadmits hd)
    generalize v.rulingApplied.ruleIn id d x = t at *
    rw [hv] at hruled hspec
    exact ⟨_, hanswer hfound, ⟨responded_made rfl, hruled⟩, hspec⟩
  · subst hd
    rw [if_pos hstate, rule_out] at hfound
    obtain ⟨hruled, hspec⟩ := turnOut_spec v id override
    have hchain : v.chain (v.bookingKind (v.ctx id)) 4 v.dest.defaults[5] =
        s.chain (s.bookingKind (s.ctx id)) 4 s.dest.defaults[5] := by
      have hkind : v.bookingKind (v.ctx id) = s.bookingKind (s.ctx id) := by
        rw [hv]
        exact bookingKind_congr s _ _ _ rfl rfl
      rw [hkind, chain_congr s v (by rw [hv]), hv]
    rw [hchain] at hspec
    generalize v.rulingApplied.turnOut id override = t at *
    rw [hv] at hruled hspec
    exact ⟨_, hanswer hfound, ⟨responded_made rfl, hruled⟩, hspec⟩

end Sys2Proof.Proofs
end
